-- ==== Sys2Proof/Word.lean ====
section
/-! DEFINITION. The word types of the machine and the finite tables (key, value) that hold its sparse state. -/
namespace Sys2Proof

/-- A byte of memory (R5). -/
abbrev Byte := BitVec 8
/-- A 32-bit value of the fabric (R65). -/
abbrev W32 := BitVec 32
/-- A 64-bit register of a controller, or a 64-bit device register. -/
abbrev W64 := BitVec 64
/-- A register number of a controller, x0 to x31 (R43). -/
abbrev Reg := BitVec 5

/-- A finite table: a list of keys and values in rising key order. -/
abbrev Tab (α : Type) := List (Nat × α)

/-- The value a table holds at a key, or `d` where it lists none. -/
def Tab.get {α : Type} (d : α) : Tab α → Nat → α
  | [], _ => d
  | (k, v) :: t, n => if k = n then v else Tab.get d t n

/-- The value a table lists at a key. -/
def Tab.find? {α : Type} : Tab α → Nat → Option α
  | [], _ => none
  | (k, v) :: t, n => if k = n then some v else Tab.find? t n

/-- The table with the value at a key replaced or inserted in key order. -/
def Tab.set {α : Type} : Tab α → Nat → α → Tab α
  | [], n, x => [(n, x)]
  | (k, v) :: t, n, x =>
    if k = n then (n, x) :: t else if n < k then (n, x) :: (k, v) :: t else (k, v) :: Tab.set t n x

/-- The table without a key. -/
def Tab.del {α : Type} (t : Tab α) (n : Nat) : Tab α := t.filter (fun p => p.1 != n)

/-- The keys a table lists. -/
def Tab.keys {α : Type} (t : Tab α) : List Nat := t.map Prod.fst

/-- The table with the value at a key changed by `f`, read with default `d`. -/
def Tab.upd {α : Type} (d : α) (t : Tab α) (n : Nat) (f : α → α) : Tab α := t.set n (f (t.get d n))

end Sys2Proof
end

