-- ==== Sys2Proof/Syntax.lean ====
section
/-! DEFINITION. The instruction set as syntax: one constructor of `Instr` for each row of spec/opcode_table.json, and
the operand bundles of the encodings (R30 to R37, R43 to R47, R377, R405). -/
namespace Sys2Proof

/-- The fields of a format C2 context word below OP (R30, R31). -/
structure C2 where
  stg : BitVec 3
  grd : BitVec 4
  sa : BitVec 6
  sb : BitVec 6
  dq : BitVec 4
  wq : Bool
  out : Bool
  fpm : BitVec 3
  mod : BitVec 4
  imm8 : BitVec 8
  deriving DecidableEq, Repr

/-- The fields of a format C3 context word below OP (R30, R31). -/
structure C3 where
  stg : BitVec 3
  grd : BitVec 4
  sa : BitVec 6
  sb : BitVec 6
  dq : BitVec 4
  wq : Bool
  out : Bool
  fpm : BitVec 3
  mod : BitVec 4
  sc : BitVec 6
  modx : BitVec 2
  deriving DecidableEq, Repr

/-- The fields of an LI or HI16 word: a C2 word whose source bits and low byte hold IMM20 (R89). -/
structure Li where
  stg : BitVec 3
  grd : BitVec 4
  imm : BitVec 20
  dq : BitVec 4
  wq : Bool
  out : Bool
  fpm : BitVec 3
  mod : BitVec 4
  deriving DecidableEq, Repr

/-- The fields of a format M context word below OP (R30, R37); `low` is bits 2:0, which must be zero. -/
structure Mx where
  stg : BitVec 3
  grd : BitVec 4
  tsrc : BitVec 6
  accrow : BitVec 8
  bsel : BitVec 2
  spbase : BitVec 10
  mfmt : BitVec 4
  low : BitVec 3
  deriving DecidableEq, Repr

/-- A queue of a tenant: a packet queue (R368) or a link queue (R405). -/
structure QueueId where
  tenant : Nat
  link : Bool
  num : Nat
  deriving DecidableEq, Repr

/-- The register spaces that software and the firmware reach (R263, R300, R394, R396). `endpoints` is the endpoint table, which the
physical functions write (R405), an entry at each offset. -/
inductive RegSpace where
  | vf (tenant : Nat)
  | pf (port : Nat)
  | slice (die num : Nat)
  | tenantLimits (tenant : Nat)
  | cluster (c : Nat)
  | dieTicks (d : Nat)
  | endpoints (port : Nat)
  deriving DecidableEq, Repr

/-- A packet's header (R46); `junk` says that a body byte no table names is not zero (R377). -/
structure PktHdr where
  flags : Byte
  ctxtag : W32
  junk : Bool
  deriving DecidableEq, Repr

/-- The body of RUN and RESUME (R377). -/
structure RunBody where
  image : W64
  symtab : W64
  triads : W64
  errarea : W64
  savearea : W64
  exits : W64
  epool : W32
  savesz : W32
  deriving DecidableEq, Repr

/-- A link work request (R405); OP is the constructor's, `junk` says that an unnamed byte is not zero. -/
structure WorkReq where
  fabric : Byte
  ctxtag : W32
  laddr : W64
  raddr : W64
  len : W32
  peer : BitVec 16
  rtenant : Byte
  domain : W64
  junk : Bool
  deriving DecidableEq, Repr

/-- A work request that arrives from a peer package (R406): op 1 WRITE, 2 READ, 3 ADD. -/
structure RemoteReq where
  op : Nat
  fabric : Nat
  package : Nat
  ptenant : Nat
  rtenant : Nat
  raddr : Nat
  len : Nat
  data : List Byte
  ident : Nat
  deriving DecidableEq, Repr

/-- The causes of a controller trap (R346). -/
inductive TrapCause where
  | illegal | access | translation | misalign | timing | msgovf
  deriving DecidableEq, Repr

/-- The standard loads (R42, R180). -/
inductive LoadKind where
  | lb | lh | lw | ld | lbu | lhu | lwu
  deriving DecidableEq, Repr

/-- The standard stores (R42, R180). -/
inductive StoreKind where
  | sb | sh | sw | sd
  deriving DecidableEq, Repr

/-- The A extension's read-modify-writes (R42, R180). -/
inductive AmoOp where
  | swap | add | xor | and | or | min | max | minu | maxu
  deriving DecidableEq, Repr

/-- Register-register operations of RV64I, M, Zba and Zbb (R42). -/
inductive AluOp where
  | add | sub | sll | slt | sltu | xor | srl | sra | or | and
  | addw | subw | sllw | srlw | sraw
  | mul | mulh | mulhsu | mulhu | div | divu | rem | remu | mulw | divw | divuw | remw | remuw
  | addUw | sh1add | sh2add | sh3add | sh1addUw | sh2addUw | sh3addUw
  | andn | orn | xnor | min | max | minu | maxu | rol | ror | rolw | rorw | zextH
  deriving DecidableEq, Repr

/-- Register-immediate operations with a 12-bit immediate or a shift amount (R42). -/
inductive AluiOp where
  | addi | slti | sltiu | xori | ori | andi | addiw
  | slli | srli | srai | slliw | srliw | sraiw | slliUw | rori | roriw
  deriving DecidableEq, Repr

/-- One-operand operations of Zbb (R42). -/
inductive UnOp where
  | clz | ctz | cpop | clzw | ctzw | cpopw | sextB | sextH | rev8 | orcB
  deriving DecidableEq, Repr

/-- Branch conditions (R42). -/
inductive BrOp where
  | beq | bne | blt | bge | bltu | bgeu
  deriving DecidableEq, Repr

/-- Zicsr operations (R42). -/
inductive CsrOp where
  | rw | rs | rc | rwi | rsi | rci
  deriving DecidableEq, Repr

/-- A standard RV64 instruction other than a load, store, fence or atomic (R42). A compressed instruction is the
standard one it expands to. -/
inductive StdOp where
  | lui (rd : Reg) (imm : BitVec 20)
  | auipc (rd : Reg) (imm : BitVec 20)
  | jal (rd : Reg) (off : BitVec 21)
  | jalr (rd rs1 : Reg) (imm : BitVec 12)
  | branch (op : BrOp) (rs1 rs2 : Reg) (off : BitVec 13)
  | alu (op : AluOp) (rd rs1 rs2 : Reg)
  | alui (op : AluiOp) (rd rs1 : Reg) (imm : BitVec 12)
  | unary (op : UnOp) (rd rs1 : Reg)
  | csr (op : CsrOp) (rd rs1 : Reg) (num : BitVec 12)
  deriving DecidableEq, Repr

/-- The instructions and events of the part: one constructor for each row of the opcode table. An event of the
hardware takes its operands (which region, which run, which queue ...) from `State.focus`, as a context word takes the
unit that issues it. -/
inductive Instr where
  /-- QTAIL_WRITE (R370). A write of QTAIL rings the doorbell, exposes packets and discards prefetches beyond the old tail, or raises OVERRUN. -/
  | qtailWrite (q : QueueId) (v : W64)
  /-- QUEUE_ENABLE (R369). A QCTL write with EN = 1 starts or resumes processing from QHEAD if QBASE and LOG2 are valid. -/
  | queueEnable (q : QueueId) (v : W64)
  /-- QUEUE_DISABLE (R373). A QCTL write with EN = 0 stops the queue, abandons waiting packets and lets mapped runs complete. -/
  | queueDisable (q : QueueId) (v : W64)
  /-- QUEUE_CLEAR (R372). A QCTL write with CLR = 1 leaves the error state and sets QHEAD past the failed packet where one failed. -/
  | queueClear (q : QueueId) (v : W64)
  /-- REGISTER_WRITE (R8). A write to a register without a row of its own sets, clears or ignores fields by their access codes. -/
  | registerWrite (sp : RegSpace) (off : Nat) (v : W64)
  /-- NOP_PACKET (R379). Packet that completes at once. -/
  | nopPacket (h : PktHdr)
  /-- RUN_PACKET (R384). Packet that checks its body and image header, waits for triads, maps the run and launches graph 0. -/
  | runPacket (h : PktHdr) (b : RunBody)
  /-- RESUME_PACKET (R386). Packet that checks a save area, waits for triads, maps the run and restores it. -/
  | resumePacket (h : PktHdr) (b : RunBody)
  /-- COPY_PACKET (R380). Packet that hands a job card to a cluster's copy engine as CPYSNAP does, waiting for a copy slot. -/
  | copyPacket (h : PktHdr) (card : W64) (cluster die : Byte)
  /-- WAITSEM_PACKET (R382). Packet that waits until the masked word at ADDR satisfies COND against VALUE. -/
  | waitsemPacket (h : PktHdr) (addr value mask : W64) (cond : Byte)
  /-- SIGNAL_PACKET (R382). Packet that writes or atomically adds a word, as a release at system scope. -/
  | signalPacket (h : PktHdr) (addr value : W64) (op : Byte)
  /-- BARRIER_PACKET (R382). Packet that waits until every queue in QMASK holds a matching BARRIER, then all complete together. -/
  | barrierPacket (h : PktHdr) (qmask : BitVec 16) (id : W32)
  /-- INDIRECT_PACKET (R381). Packet that processes COUNT packets from a buffer in its place. -/
  | indirectPacket (h : PktHdr) (addr : W64) (count : W32)
  /-- FENCE_PACKET (R383). Packet that completes once earlier packets and COPY copies are complete and performed at SCOPE. -/
  | fencePacket (h : PktHdr) (scope : Byte)
  /-- TIMESTAMP_PACKET (R383). Packet that writes PKTIME or TICK at ADDR. -/
  | timestampPacket (h : PktHdr) (addr : W64) (src : Byte)
  /-- WRDATA_PACKET (R383). Packet that writes up to 40 data bytes at ADDR. -/
  | wrdataPacket (h : PktHdr) (addr : W64) (len : Byte) (data : BitVec 320)
  /-- EVENT_PACKET (R383). Packet that posts an event with code 0x0005. -/
  | eventPacket (h : PktHdr) (code : W32) (data : W64)
  /-- GAUGE_PACKET (R383). Packet that reads, selects or clears the gauges of a triad. -/
  | gaugePacket (h : PktHdr) (addr : W64) (triad op : Byte) (gmask : BitVec 16) (config : W64)
  /-- SEAL_PACKET (R379). Packet that completes at once and discards the prefetch of later packets. -/
  | sealPacket (h : PktHdr)
  /-- BAD_PACKET_TYPE (R47). A packet with a reserved or invalid TYPE has no effect and puts its queue in the error state with BADPKT. -/
  | badPacketType (h : PktHdr) (typ : Byte)
  /-- CONTROLLER_TRAP (R347). A controller trap other than TIMING halts the run, writes trap and error records and puts the queue in error. -/
  | controllerTrap (c : Nat) (cause : TrapCause) (addr info : W64)
  /-- ADD (R79). Wrapping lane addition. -/
  | add (w : C2)
  /-- SUB (R79). Wrapping lane subtraction. -/
  | sub (w : C2)
  /-- ADDC (R79). 32-bit add with carry-in, giving the sum or the carry out. -/
  | addc (w : C3)
  /-- SUBB (R79). 32-bit subtract with borrow-in, giving the difference or the borrow out. -/
  | subb (w : C3)
  /-- ADD_SAT_S (R79). Signed saturating lane addition. -/
  | addSatS (w : C2)
  /-- ADD_SAT_Z (R79). Unsigned saturating lane addition. -/
  | addSatZ (w : C2)
  /-- SUB_SAT_S (R79). Signed saturating lane subtraction. -/
  | subSatS (w : C2)
  /-- SUB_SAT_Z (R79). Unsigned saturating lane subtraction. -/
  | subSatZ (w : C2)
  /-- MUL_LO (R80). Low bits of the lane product. -/
  | mulLo (w : C2)
  /-- MUL_HI_S (R80). High 32 bits of the signed product. -/
  | mulHiS (w : C2)
  /-- MUL_HI_Z (R80). High 32 bits of the unsigned product. -/
  | mulHiZ (w : C2)
  /-- MAD (R80). Wrapping A × B + C. -/
  | mad (w : C3)
  /-- ABS (R81). Wrapping lane absolute value. -/
  | abs (w : C2)
  /-- NEG (R81). Wrapping lane negation. -/
  | neg (w : C2)
  /-- ADDSH (R79). A plus B shifted left by sh. -/
  | addsh (w : C2)
  /-- MIN_S (R81). Signed lane minimum. -/
  | minS (w : C2)
  /-- MIN_Z (R81). Unsigned lane minimum. -/
  | minZ (w : C2)
  /-- MAX_S (R81). Signed lane maximum. -/
  | maxS (w : C2)
  /-- MAX_Z (R81). Unsigned lane maximum. -/
  | maxZ (w : C2)
  /-- AND (R82). Bitwise AND. -/
  | and (w : C2)
  /-- OR (R82). Bitwise OR. -/
  | or (w : C2)
  /-- XOR (R82). Bitwise exclusive OR. -/
  | xor (w : C2)
  /-- ANDN (R82). A AND NOT B. -/
  | andn (w : C2)
  /-- SHL (R83). Lane shift left. -/
  | shl (w : C2)
  /-- SHR_Z (R83). Logical lane shift right. -/
  | shrZ (w : C2)
  /-- SHR_S (R83). Arithmetic lane shift right. -/
  | shrS (w : C2)
  /-- ROT (R83). 32-bit rotate left. -/
  | rot (w : C2)
  /-- FUNNEL (R83). Extracts 32 bits of A:B starting at bit C mod 64. -/
  | funnel (w : C3)
  /-- CLZ (R84). Counts leading zeros. -/
  | clz (w : C2)
  /-- POPC (R84). Counts one bits. -/
  | popc (w : C2)
  /-- BREV (R84). Reverses bit order. -/
  | brev (w : C2)
  /-- BSWAP (R84). Reverses byte order. -/
  | bswap (w : C2)
  /-- BFX_S (R85). Signed bit-field extract. -/
  | bfxS (w : C2)
  /-- BFX_Z (R85). Unsigned bit-field extract. -/
  | bfxZ (w : C2)
  /-- BFI (R85). Inserts a field of B into A. -/
  | bfi (w : C3)
  /-- CLMUL_LO (R86). Low half of the carry-less product. -/
  | clmulLo (w : C2)
  /-- CLMUL_HI (R86). High half of the carry-less product. -/
  | clmulHi (w : C2)
  /-- DOT4_S8 (R80). Four-lane signed byte dot product plus C. -/
  | dot4S8 (w : C3)
  /-- DOT2_S16 (R80). Two-lane signed halfword dot product plus C. -/
  | dot2S16 (w : C3)
  /-- CMP_EQ (R87). Sets a predicate if A = B. -/
  | cmpEq (w : C2)
  /-- CMP_NE (R87). Sets a predicate if A ≠ B. -/
  | cmpNe (w : C2)
  /-- CMP_LT_S (R87). Signed less-than to a predicate. -/
  | cmpLtS (w : C2)
  /-- CMP_LT_Z (R87). Unsigned less-than to a predicate. -/
  | cmpLtZ (w : C2)
  /-- CMP_LE_S (R87). Signed less-or-equal to a predicate. -/
  | cmpLeS (w : C2)
  /-- CMP_LE_Z (R87). Unsigned less-or-equal to a predicate. -/
  | cmpLeZ (w : C2)
  /-- SEL (R88). Returns A if C ≠ 0, otherwise B. -/
  | sel (w : C3)
  /-- MOV (R88). Returns A. -/
  | mov (w : C2)
  /-- LI (R89). Loads a sign-extended 20-bit immediate. -/
  | li (w : Li)
  /-- HI16 (R89). Replaces the upper half of a q register with an immediate. -/
  | hi16 (w : Li)
  /-- FADD (R105). Rounded F32 addition. -/
  | fadd (w : C2)
  /-- FSUB (R105). Rounded F32 subtraction. -/
  | fsub (w : C2)
  /-- FMUL (R105). Rounded F32 multiplication. -/
  | fmul (w : C2)
  /-- FMA (R105). Fused A × B + C with one rounding. -/
  | fma (w : C3)
  /-- FNMA (R105). Fused −(A × B) + C with one rounding. -/
  | fnma (w : C3)
  /-- FMIN (R107). F32 minimum under the zero and NaN policy. -/
  | fmin (w : C2)
  /-- FMAX (R107). F32 maximum under the zero and NaN policy. -/
  | fmax (w : C2)
  /-- FABS (R108). Clears the sign bit. -/
  | fabs (w : C2)
  /-- FNEG (R108). Inverts the sign bit. -/
  | fneg (w : C2)
  /-- FCMP_EQ (R109). F32 equality to a predicate. -/
  | fcmpEq (w : C2)
  /-- FCMP_LT (R109). F32 less-than to a predicate. -/
  | fcmpLt (w : C2)
  /-- FCMP_LE (R109). F32 less-or-equal to a predicate. -/
  | fcmpLe (w : C2)
  /-- FCMP_UN (R109). Predicate set if either operand is NaN. -/
  | fcmpUn (w : C2)
  /-- FCLASS (R110). One-hot classification of an F32 pattern. -/
  | fclass (w : C2)
  /-- FSCALE (R106). A × 2^B, rounded. -/
  | fscale (w : C2)
  /-- FAMAX (R107). Larger magnitude of two F32 values, NaN-propagating. -/
  | famax (w : C2)
  /-- FRCP (R111). Correctly rounded reciprocal. -/
  | frcp (w : C2)
  /-- FRSQ (R111). Correctly rounded reciprocal square root. -/
  | frsq (w : C2)
  /-- FEXP2 (R111). Correctly rounded 2^A. -/
  | fexp2 (w : C2)
  /-- FLOG2 (R111). Correctly rounded log2 A. -/
  | flog2 (w : C2)
  /-- FDOT2_BF16 (R112). Exact BF16 pair dot product plus C, rounded once. -/
  | fdot2Bf16 (w : C3)
  /-- FDOT4_E4M3 (R112). Exact E4M3 four-lane dot product plus C, rounded once. -/
  | fdot4E4m3 (w : C3)
  /-- FDOT4_E5M2 (R112). Exact E5M2 four-lane dot product plus C, rounded once. -/
  | fdot4E5m2 (w : C3)
  /-- MXSC (R113). Computes an E8M0 block scale code. -/
  | mxsc (w : C2)
  /-- QNT (R114). Quantises A × B to a narrow format with one rounding. -/
  | qnt (w : C2)
  /-- CVT_F32_S32 (R115). Signed integer to F32. -/
  | cvtF32S32 (w : C2)
  /-- CVT_S32_F32 (R115). F32 to saturated signed integer. -/
  | cvtS32F32 (w : C2)
  /-- CVT_F32_Z32 (R115). Unsigned integer to F32. -/
  | cvtF32Z32 (w : C2)
  /-- CVT_Z32_F32 (R115). F32 to saturated unsigned integer. -/
  | cvtZ32F32 (w : C2)
  /-- CVT_BF16_F32 (R115). F32 to BF16. -/
  | cvtBf16F32 (w : C2)
  /-- CVT_F16_F32 (R115). F32 to FP16. -/
  | cvtF16F32 (w : C2)
  /-- CVT_F32_BF16 (R115). BF16 to F32, exact. -/
  | cvtF32Bf16 (w : C2)
  /-- CVT_F32_F16 (R115). FP16 to F32, exact. -/
  | cvtF32F16 (w : C2)
  /-- CVT_E4M3_F32 (R115). F32 to E4M3. -/
  | cvtE4m3F32 (w : C2)
  /-- CVT_E5M2_F32 (R115). F32 to E5M2. -/
  | cvtE5m2F32 (w : C2)
  /-- CVT_E2M1_F32 (R115). F32 to E2M1. -/
  | cvtE2m1F32 (w : C2)
  /-- CVT_F32_E4M3 (R115). E4M3 to F32, exact. -/
  | cvtF32E4m3 (w : C2)
  /-- CVT_F32_E5M2 (R115). E5M2 to F32, exact. -/
  | cvtF32E5m2 (w : C2)
  /-- CVT_F32_E2M1 (R115). E2M1 to F32, exact. -/
  | cvtF32E2m1 (w : C2)
  /-- PACK_X2 (R118). Shifts a converted 16-bit element into a packed word from the top. -/
  | packX2 (w : C2)
  /-- PACK_X4 (R118). Shifts a converted 8- or 4-bit element into a packed word from the top. -/
  | packX4 (w : C2)
  /-- UNPACK_X2 (R119). Widens one 16-bit lane to F32. -/
  | unpackX2 (w : C2)
  /-- UNPACK_X4 (R119). Widens one 8- or 4-bit lane to F32. -/
  | unpackX4 (w : C2)
  /-- OUT (R135). Pushes a token with a given rank. -/
  | out (w : C2)
  /-- PASS (R135). Forwards a queue token keeping ORD and raising its rank. -/
  | pass (w : C2)
  /-- POP (R136). Pops and discards the head of every masked queue. -/
  | pop (w : C2)
  /-- PEEK (R136). Reads the token at a given depth without popping. -/
  | peek (w : C2)
  /-- MARK (R137). Raises the pending rank PR. -/
  | mark (w : C2)
  /-- ISMARK (R138). Sets a predicate if the head token's rank reaches a threshold. -/
  | ismark (w : C2)
  /-- ORDMK (R135). Pushes an ordering token that releases the memory node's earlier writes. -/
  | ordmk (w : C2)
  /-- RANKRD (R138). Delivers the head token's sideband. -/
  | rankrd (w : C2)
  /-- PAND (R139). Predicate AND. -/
  | pand (w : C2)
  /-- POR (R139). Predicate OR. -/
  | por (w : C2)
  /-- PXOR (R139). Predicate exclusive OR. -/
  | pxor (w : C2)
  /-- PNOT (R139). Predicate NOT. -/
  | pnot (w : C2)
  /-- PSET (R139). Predicate set if A ≠ 0. -/
  | pset (w : C2)
  /-- PSEND (R126). Sends a predicate on the cell's lane output. -/
  | psend (w : C2)
  /-- PRECV (R139). Reads a lane input register into a predicate. -/
  | precv (w : C2)
  /-- PTEST (R139). Sets a predicate from one bit of A. -/
  | ptest (w : C2)
  /-- EXIT (R140). Kills later iterations and ends the pass after iteration k. -/
  | exit (w : C2)
  /-- ITER (R142). Sets a predicate for first or last iteration or pass. -/
  | iter (w : C2)
  /-- LIVE (R142). Sets a predicate if the word's iteration is live. -/
  | live (w : C2)
  /-- DROP (R141). Kills its own iteration alone. -/
  | drop (w : C2)
  /-- CHSEND (R323). Pushes a token into a cross-die channel at landing. -/
  | chsend (w : C2)
  /-- CHRECV (R324). Pops a token from a cross-die channel. -/
  | chrecv (w : C2)
  /-- TKALNC (R325). Pauses the region until page time reaches a target. -/
  | tkalnc (w : C2)
  /-- LD_B (R156). Near byte load. -/
  | ldB (w : C2)
  /-- LD_H (R156). Near halfword load. -/
  | ldH (w : C2)
  /-- LD_W (R156). Near word load. -/
  | ldW (w : C2)
  /-- LD_ACQ (R157). Near or far word load that is an acquire. -/
  | ldAcq (w : C2)
  /-- LDF (R156). Far word load through the coalescing buffer. -/
  | ldf (w : C2)
  /-- ST_B (R158). Near byte store. -/
  | stB (w : C3)
  /-- ST_H (R158). Near halfword store. -/
  | stH (w : C3)
  /-- ST_W (R158). Near word store. -/
  | stW (w : C3)
  /-- ST_REL (R160). Word store that is a release. -/
  | stRel (w : C3)
  /-- STF (R158). Far word store through the coalescing buffer. -/
  | stf (w : C3)
  /-- ATOM_H (R161). Near halfword read-modify-write. -/
  | atomH (w : C3)
  /-- ATOM_W (R161). Near word read-modify-write. -/
  | atomW (w : C3)
  /-- LKUP (R163). Searches a four-way tag table in scratch. -/
  | lkup (w : C2)
  /-- HANDOVER_GIVE (R165). Releases a hand-over range and pushes its hand-over token. -/
  | handoverGive (w : C2)
  /-- HANDOVER_TAKE (R165). Pops a hand-over token and takes the range. -/
  | handoverTake (w : C2)
  /-- MFENCE (R166). Release and acquire of the memory node at a scope. -/
  | mfence (w : C2)
  /-- ATOMF_W (R161). Far word read-modify-write. -/
  | atomfW (w : C3)
  /-- MXCFG (R194). Sets the configured format, clearing accumulators and cancelling firings on a change. -/
  | mxcfg (w : Mx)
  /-- MXLDB (R195). Starts a B load into a buffer. -/
  | mxldb (w : Mx)
  /-- MXROW (R187). Dense firing of one A row into an accumulator row. -/
  | mxrow (w : Mx)
  /-- MXROWS (R188). Sparse firing of two A rows. -/
  | mxrows (w : Mx)
  /-- MXDRN (R197). Reads an accumulator row into a drain slot. -/
  | mxdrn (w : Mx)
  /-- MXCLR (R198). Clears an accumulator row. -/
  | mxclr (w : Mx)
  /-- MXSWB (R196). Selects the active B buffer. -/
  | mxswb (w : Mx)
  /-- MXACC (R199). Adds 64 tokens of queue c into an accumulator row. -/
  | mxacc (w : Mx)
  /-- MXSTAT (R200). Pushes the MXSTAT value and clears its sticky bits. -/
  | mxstat (w : Mx)
  /-- MXNOP (R200). Does nothing but counts towards depth. -/
  | mxnop (w : Mx)
  /-- STBIND (R235). Installs a stream binding, or a trigger binding, on a page port. -/
  | stbind (rd rs1 rs2 : Reg)
  /-- STBINDI (R218). Installs a read binding whose indices come from a page port. -/
  | stbindi (rd rs1 rs2 : Reg)
  /-- STSTOP (R221). Ends a binding early. -/
  | ststop (rd rs1 : Reg)
  /-- STCUR (R236). Returns the elements a binding has moved. -/
  | stcur (rd rs1 : Reg)
  /-- STSTAT (R236). Returns a binding channel's status word. -/
  | ststat (rd rs1 : Reg)
  /-- STWAIT (R236). Waits for a binding to complete, as an acquire. -/
  | stwait (rd rs1 : Reg)
  /-- CPY (R237). Issues a copy from a job card. -/
  | cpy (rd rs1 : Reg)
  /-- CPYSNAP (R237). Issues a copy whose records are read at acceptance. -/
  | cpysnap (rd rs1 : Reg)
  /-- CPYT (R238). Loads a template slot from a card. -/
  | cpyt (rd rs1 rs2 : Reg)
  /-- CPYTD (R238). Empties a template slot. -/
  | cpytd (rd rs1 : Reg)
  /-- CPYARM (R238). Arms a template slot on a trigger queue. -/
  | cpyarm (rd rs1 rs2 : Reg)
  /-- CPYDIS (R238). Disarms a template slot. -/
  | cpydis (rd rs1 : Reg)
  /-- CPYFIRE (R238). Fires a template slot once without a token. -/
  | cpyfire (rd rs1 : Reg)
  /-- CPYWAIT (R239). Waits for a copy to complete or be cancelled, as an acquire. -/
  | cpywait (rd rs1 : Reg)
  /-- CPYSTAT (R239). Returns a copy's or template slot's status. -/
  | cpystat (rd rs1 : Reg)
  /-- CPYCAN (R230). Cancels a copy that has not begun. -/
  | cpycan (rd rs1 : Reg)
  /-- SEMADD (R247). Adds to a semaphore as a release. -/
  | semadd (rs1 rs2 : Reg)
  /-- SEMSET (R247). Writes an own semaphore and returns the old value. -/
  | semset (rd rs1 rs2 : Reg)
  /-- SEMRD (R247). Returns a semaphore's value. -/
  | semrd (rd rs1 : Reg)
  /-- SEMWAIT (R248). Waits until a semaphore reaches a threshold, optionally consuming, as an acquire. -/
  | semwait (rd rs1 rs2 : Reg)
  /-- BARINIT (R253). Initialises a barrier record atomically. -/
  | barinit (rs1 rs2 : Reg)
  /-- BARARR (R253). Posts arrivals and bytes to a barrier and returns the prior phase. -/
  | bararr (rd rs1 rs2 : Reg)
  /-- BARWAIT (R253). Waits until the barrier completes past a phase. -/
  | barwait (rd rs1 rs2 : Reg)
  /-- MSGSEND (R256). Sends a 64-bit payload to a handler tag of a cluster. -/
  | msgsend (rs1 rs2 : Reg)
  /-- MSGWAKE (R249). Raises a semaphore to at least a value, as a release. -/
  | msgwake (rs1 rs2 : Reg)
  /-- SIGST (R250). Stores a word, then optionally signals a semaphore, as a release. -/
  | sigst (rs1 rs2 : Reg)
  /-- HTSET (R254). Sets a handler entry and retries parked messages. -/
  | htset (rd rs1 rs2 : Reg)
  /-- HTEN (R255). Enables or disables a handler entry and returns credits, then retries. -/
  | hten (rd rs1 rs2 : Reg)
  /-- HTPEND (R255). Returns 64 pending bits. -/
  | htpend (rd rs1 : Reg)
  /-- HTRD (R255). Returns a handler entry's state word. -/
  | htrd (rd rs1 : Reg)
  /-- FENCE_S (R260). Scoped release and acquire of the controller. -/
  | fenceS (scope : Reg)
  /-- IINV (R261). Makes controllers in a scope discard their instruction caches. -/
  | iinv (scope : Reg)
  /-- SLCINV (R268). Discards non-home slice copies of a range within a scope. -/
  | slcinv (rs1 rs2 : Reg)
  /-- SLCWB (R268). Writes dirty home lines of a range back to HBM. -/
  | slcwb (rs1 rs2 : Reg)
  /-- RETSET (R267). Installs a retention range in a slice. -/
  | retset (rd rs1 rs2 : Reg)
  /-- RETCLR (R267). Clears a retention range register. -/
  | retclr (rs1 : Reg)
  /-- WAYSET (R266). Changes way modes of a slice and waits until done. -/
  | wayset (rd rs1 rs2 : Reg)
  /-- WAYRD (R266). Returns a slice's WAYMASK. -/
  | wayrd (rd rs1 : Reg)
  /-- GRLOAD (R293). Allocates a graph handle and loads a graph image. -/
  | grload (rd rs1 rs2 : Reg)
  /-- GRSTAT (R293). Returns a graph's status word. -/
  | grstat (rd rs1 : Reg)
  /-- PGPLACE (R294). Enters a wave into the placement queue. -/
  | pgplace (rd rs1 : Reg)
  /-- PGFREE (R295). Begins retirement of a page. -/
  | pgfree (rd rs1 : Reg)
  /-- PGSTAT (R296). Returns a page's state word. -/
  | pgstat (rd rs1 : Reg)
  /-- PGWAIT (R296). Waits until a page's state reaches a level. -/
  | pgwait (rd rs1 rs2 : Reg)
  /-- GATEOPEN (R297). Opens a held page's gates after acknowledgement. -/
  | gateopen (rd rs1 : Reg)
  /-- TRIPSET (R297). Replaces TRIP and PASSES of a page before gate opening. -/
  | tripset (rd rs1 rs2 : Reg)
  /-- PGCONST (R297). Sets a page constant before gate opening. -/
  | pgconst (rd rs1 rs2 : Reg)
  /-- SEAMSET (R298). Joins follower input ports to a lead port as a quad multicast. -/
  | seamset (rd rs1 rs2 : Reg)
  /-- TKRD (R319). Returns the die's TICK. -/
  | tkrd (rd : Reg)
  /-- PKRD (R319). Returns package time, run time or page time. -/
  | pkrd (rd rs1 : Reg)
  /-- TKDRF (R319). Returns the offset and rate held for a die. -/
  | tkdrf (rd rs1 : Reg)
  /-- TKALN (R320). Pauses the controller until run time reaches a target. -/
  | tkaln (rd rs1 : Reg)
  /-- CHOPEN (R321). Opens a channel in a mode at a target run time. -/
  | chopen (rd rs1 rs2 : Reg)
  /-- CHCLOSE (R321). Closes a channel. -/
  | chclose (rd rs1 : Reg)
  /-- CHSTAT (R321). Returns a channel's status word. -/
  | chstat (rd rs1 : Reg)
  /-- HALT (R358). Waits for own commands and copies, then stops the controller with an exit value. -/
  | halt (rs1 : Reg)
  /-- EVPOST (R358). Posts an event to the queue's event ring. -/
  | evpost (rs1 rs2 : Reg)
  /-- TRAPREC (R359). Returns and optionally writes the cluster's trap record. -/
  | traprec (rd rs1 : Reg)
  /-- SVSAVE (R360). Captures a page and writes its region records, leaving its gates closed. -/
  | svsave (rd rs1 rs2 : Reg)
  /-- SVLOAD (R361). Loads region records onto a closed page. -/
  | svload (rd rs1 rs2 : Reg)
  /-- SVSIZE (R362). Returns the record size of a page. -/
  | svsize (rd rs1 : Reg)
  /-- SVSTAT (R362). Returns the status of the last SVSAVE or SVLOAD. -/
  | svstat (rd rs1 : Reg)
  /-- PREQ (R363). Requests pre-emption of the run and returns the restore count. -/
  | preq (rd rs1 : Reg)
  /-- TXLAT (R364). Probes the translation of an address without faulting. -/
  | txlat (rd rs1 : Reg)
  /-- GAUGESEL (R365). Sets a gauge's configuration. -/
  | gaugesel (rd rs1 rs2 : Reg)
  /-- GAUGERD (R365). Reads a field of a gauge. -/
  | gaugerd (rd rs1 : Reg)
  /-- GAUGECLR (R365). Clears the masked gauges. -/
  | gaugeclr (rs1 : Reg)
  /-- CONTROLLER_LOAD (R180). Standard load, an ordinary access through a write-through HBM data cache. -/
  | controllerLoad (k : LoadKind) (rd rs1 : Reg) (imm : BitVec 12)
  /-- CONTROLLER_STORE (R180). Standard store, an ordinary write-through access. -/
  | controllerStore (k : StoreKind) (rs1 rs2 : Reg) (imm : BitVec 12)
  /-- FENCE (R180). MFENCE at cluster scope that also discards data-cache HBM lines. -/
  | fence (fm pred succ : BitVec 4) (rs1 rd : Reg)
  /-- FENCE_I (R180). Orders the controller's stores before its later fetches. -/
  | fenceI (imm : BitVec 12) (rs1 rd : Reg)
  /-- AMO (R180). Atomic at the bank or home, with aq and rl as one-sided orders. -/
  | amo (op : AmoOp) (dbl aq rl : Bool) (rd rs1 rs2 : Reg)
  /-- LR (R180). Load-reserved over an aligned 64 bytes. -/
  | lr (dbl aq rl : Bool) (rd rs1 : Reg)
  /-- SC (R180). Store-conditional that fails if another agent wrote the reservation. -/
  | sc (dbl aq rl : Bool) (rd rs1 rs2 : Reg)
  /-- LINK_WRITE (R406). Link work request that writes to a granted peer. -/
  | linkWrite (r : WorkReq)
  /-- LINK_READ (R406). Link work request that reads from a granted peer. -/
  | linkRead (r : WorkReq)
  /-- LINK_ADD (R406). Link work request that atomically adds 8 bytes at a peer. -/
  | linkAdd (r : WorkReq)
  /-- ALLRED (R406). Ranhild work request that completes when every package of the domain has posted the same ID. -/
  | allred (r : WorkReq)
  /-- STANDARD_INSTRUCTION (R42). A standard RV64 instruction other than a load, store, fence or atomic (integer arithmetic, branch, jump, CSR read) executes as the RISC-V unprivileged specification defines. -/
  | standardInstruction (op : StdOp)
  /-- REMOTE_REQUEST (R406). A work request from a peer package arrives over Ethernet or Ranhild and is performed at this tenant if granted, or refused with the peer unchanged. -/
  | remoteRequest (r : RemoteReq)
  /-- POWER_ON (R400). Power-on starts a cold start of the device. -/
  | powerOn
  /-- COLD_START (R400). Runs start steps 1 to 8 with HBM, link and waggle training, the march test with repair, and the wipe. -/
  | coldStart
  /-- WARM_START (R400). Runs start steps 1 to 8 with stored parameters, latencies and repair table. -/
  | warmStart
  /-- THERMAL_TRIP (R407). At TMAX 115 °C every die stops, host links go down, mapped runs are lost and the next start is cold. -/
  | thermalTrip
  /-- THROTTLE_STEP (R407). At most once per 65,536 cycles, the device raises or lowers THERM.STEP to change every die's PLL together by power and temperature. -/
  | throttleStep
  /-- FUNCTION_LEVEL_RESET (R395). A virtual-function reset kills the tenant's mapped runs, resets its queue registers and discards its link-queue state. -/
  | functionLevelReset
  /-- TNEW (R398). Mailbox command that creates tenant TENANT on a given port. -/
  | tnew
  /-- TDEL (R398). Mailbox command that frees a tenant's triads, windows and signers, deletes its keys, clears its gauges and disables its function. -/
  | tdel
  /-- TRIADS (R398). Mailbox command that sets the tenant's triad mask. -/
  | triads
  /-- WINDOW (R398). Mailbox command that sets or removes one of the tenant's memory windows. -/
  | window
  /-- TXROOT_COMMAND (R398). Mailbox command that writes the tenant's TXROOT. -/
  | txrootCommand
  /-- KEYNEW (R399). Mailbox command that allocates the lowest free key index with a fresh AES-256-XTS key. -/
  | keynew
  /-- KEYDEL (R399). Mailbox command that discards a key, unwrites its granules, drops its slice lines and frees the index. -/
  | keydel
  /-- SIGNER (R398). Mailbox command that enrols or removes a Falcon-1024 signer for image checks. -/
  | signer
  /-- TUNE (R398). Mailbox command that sets QUANT, HANGLIM and GRACE for a tenant. -/
  | tune
  /-- RGRANT (R406). Mailbox command that grants or revokes remote requests from a peer package and tenant on a fabric. -/
  | rgrant
  /-- FWLOAD (R402). Mailbox command that verifies and stores a firmware image, then performs a live update. -/
  | fwload
  /-- ATTEST (R404). Mailbox command that writes a signed attestation report with the given nonce. -/
  | attest
  /-- LCSET (R403). Mailbox command that performs an authorised one-way life-cycle transition, then TDEL on every tenant, a wipe and a cold start. -/
  | lcset
  /-- RESET (R398). Mailbox command that starts a warm or cold start and loses every mapped run. -/
  | reset
  /-- PWRCAP (R407). Mailbox command that sets the package power cap. -/
  | pwrcap
  /-- LINKCFG (R405). Mailbox command that sets the Ethernet port mode. -/
  | linkcfg
  /-- INFO (R398). Mailbox command that writes part, SCRCAP, life cycle, firmware versions, certificate and release notes. -/
  | info
  /-- INVCTL_GO (R368). A write of INVCTL.GO = 1 makes the firmware issue INVT over INVADDR and INVLEN. -/
  | invctlGo
  /-- SCHEDULING_STEP (R375). The active complex serves pending PREQs, then visits tenants in turn and starts at most one ready packet of each. -/
  | schedulingStep
  /-- QUANT_EXPIRY (R375). A run that has held wanted triads for QUANT against an equal-priority waiting run is switched. -/
  | quantExpiry
  /-- WAITSEM_REREAD (R382). The processor rereads a waiting WAITSEM word at least every 2 µs and after signals and run completions. -/
  | waitsemReread
  /-- MAP (R374). Hardware command that gives a run its clusters, tenant, tables and keys, sets EPOCH and starts the load or restore. -/
  | map
  /-- UNMAP (R374). Hardware command that returns the run's clusters, zero-fills their scratchpads and discards their TLBs. -/
  | unmap
  /-- SWITCH (R27). Hardware command that pre-empts a run by capturing every region, immediately or by tack tokens, then saves scratch windows. -/
  | switch
  /-- INVT (R353). Hardware command that removes overlapping translations and completes once accesses through them are performed. -/
  | invt
  /-- TAKEOVER (R391). When the active complex fences itself or sends no table copy for 10 ms, the standby resumes from the last committed packets. -/
  | takeover
  /-- REGION_RESUMPTION (R339). Restored regions resume on one chosen cycle, reopening gates and relanding slots and tokens by distance. -/
  | regionResumption
  /-- RUN_COMPLETION (R384). When every controller has halted, every page has retired and every template copy has completed, the run writes exit values, unmaps and posts completion. -/
  | runCompletion
  /-- RUN_ERROR (R285). The first error of a run writes the error record, tears the run down and puts its queue in the error state. -/
  | runError
  /-- HANG_LIMIT_EXPIRY (R289). When the hang counter reaches HANGLIM, the pager writes the snag map and error record and tears the run down. -/
  | hangLimitExpiry
  /-- GRACE_EXPIRY (R288). When GRACE passes with some region not captured, the run is killed with cause KILL. -/
  | graceExpiry
  /-- REGION_CAPTURE (R326). At the first capture point after a request, a region latches its state, completes outstanding accesses and writes its record. -/
  | regionCapture
  /-- CAPTURE_COMPLETE (R329). Once agents stop, begun copies complete and messages are performed, the cluster record is written and the capture ends. -/
  | captureComplete
  /-- TACK_TOKEN_ARRIVAL (R340). A tack token reaching a page input port is held as a flag and stops further delivery into the page. -/
  | tackTokenArrival
  /-- TIMING_FAULT (R309). Sets CHSTAT.FAULT, makes channels elastic, pre-empts the run and traps every running controller. -/
  | timingFault
  /-- PLACEMENT_ATTEMPT (R278). The pager tries to place the head wave whole, carving edge buffers and channel nodes, or holds nothing. -/
  | placementAttempt
  /-- GATE_OPENING (R282). Once every unit of the wave has acknowledged, the pager opens the gates of connected pages, or a channel group opens at PKTIME G. -/
  | gateOpening
  /-- PASS_END (R132). At the end of period Lst + D − 1, a pass ends and the next pass begins or the page starts to retire. -/
  | passEnd
  /-- PERIOD_START (R131). At each wrap the masks shift, the rotation base advances and a new iteration starts if allowed. -/
  | periodStart
  /-- UNIT_RETURN (R284). A retiring cell, memory node or matrix node is returned once its slots and queues are empty. -/
  | unitReturn
  /-- TOKEN_DEPARTURE (R125). A head token departs to every destination once each has a free place, arriving after H cycles. -/
  | tokenDeparture
  /-- RESULT_LANDING (R69). A result lands after its latency in unfrozen cycles, writing its destinations and pushing its token. -/
  | resultLanding
  /-- B_LOAD_ROW (R195). A B load in progress takes one row from queue b per cycle into its buffer, frozen or not. -/
  | bLoadRow
  /-- DRAIN_DEPARTURE (R197). A drain slot leaves xnode.d as tokens or rows when the port has room. -/
  | drainDeparture
  /-- NOP (R38). Canonical no-op word that does nothing. -/
  | nop
  /-- QUEUED_COMMAND_ACCEPTANCE (R205). A queued command whose acceptance waited for an earlier PGPLACE or GRLOAD is accepted or refused and its instruction retires. -/
  | queuedCommandAcceptance
  /-- BINDING_START (R215). A current binding issues its first access once its start cycle and predecessors allow. -/
  | bindingStart
  /-- BINDING_ACCESS (R210). A binding translates, checks and accesses one element, retrying on bank loss. -/
  | bindingAccess
  /-- BINDING_DELIVER (R216). A read binding delivers the next element to its port when there is room. -/
  | bindingDeliver
  /-- BINDING_TAKE (R217). A write binding takes one token or row from its port and writes it. -/
  | bindingTake
  /-- TRIGGER_FORWARD (R219). A trigger binding takes a token when a queue place is free and sends it to a trigger queue. -/
  | triggerForward
  /-- BINDING_COMPLETION (R220). A binding completes, releases its writes, adds to its semaphore and makes the pending binding current. -/
  | bindingCompletion
  /-- COPY_DISPATCH (R229). A ready copy without incomplete predecessors begins moving data, oldest first. -/
  | copyDispatch
  /-- COPY_COMPLETION (R229). A copy completes, releases, adds to its semaphore and posts to its barrier. -/
  | copyCompletion
  /-- TEMPLATE_FIRING (R232). An armed slot fires a copy for the head token of its trigger queue when a copy slot is free. -/
  | templateFiring
  /-- TRIGGER_TOKEN_ARRIVAL (R233). A trigger token enters its reserved place in a trigger queue. -/
  | triggerTokenArrival
  /-- MESSAGE_ARRIVAL (R257). A message dispatches to its mailbox or is parked, or overflows with an MSGOVF trap. -/
  | messageArrival
  /-- SEMAPHORE_SIGNAL_ARRIVAL (R245). A SEMADD, wake write or signal add is performed at the semaphore's unit, possibly satisfying a SEMWAIT. -/
  | semaphoreSignalArrival
  /-- CONTROLLER_WAIT_END (R25). A waiting controller instruction finds its condition holding and retires. -/
  | controllerWaitEnd
  /-- GRAPH_LOAD_EFFECT (R293). The graph is checked, built and relocated, or the run ends with IMAGE. -/
  | graphLoadEffect
  /-- CHANNEL_COMMAND_EFFECT (R321). At each end a channel command takes effect at its target run time or on arrival, in node order. -/
  | channelCommandEffect
  /-- CHANNEL_TOKEN_ARRIVAL (R306). A pushed token becomes present in the channel node 40 or 64 cycles of package time later. -/
  | channelTokenArrival
  /-- CREDIT_RETURN (R306). A pop's credit counts at the sender 40 or 64 cycles of package time later. -/
  | creditReturn
  /-- WAGGLE_SAMPLE_SEND (R302). A die sends its TICK to both neighbours every 1,024 ticks. -/
  | waggleSampleSend
  /-- WAGGLE_SAMPLE_RECEIVE (R302). A valid sample updates the offset and rate estimate of the sending die. -/
  | waggleSampleReceive
  /-- LINK_DOWN (R314). A link is declared down on training failure or 4,096 ticks without samples, causing detour or fencing. -/
  | linkDown
  /-- LINK_RETRAIN (R317). Every 10 ms at most the firmware retrains a down link, which comes up if latencies match. -/
  | linkRetrain
  /-- POWER_SAMPLE (R355). Every 65,536 cycles each cluster samples its estimated power into POWER gauges. -/
  | powerSample
  /-- WORK_REQUEST_COMPLETION (R406). A link work request completes when the peer's acknowledgement, read data or the last ALLRED post arrives, posting a packet-complete or error event. -/
  | workRequestCompletion
  /-- UNKNOWN_OPC (R397). A mailbox GO with an unknown OPC, an out-of-range field or a non-zero unnamed byte writes STATUS BADCMD and has no effect. -/
  | unknownOpc
  deriving DecidableEq, Repr

end Sys2Proof
end

