-- ==== Sys2Proof/Decode.lean ====
section
/-! DEFINITION. Decoding and encoding: context words (R30 to R41), controller instructions (R42 to R45) with their
compressed forms, queue packets (R46, R47, R377) and link work requests (R405); and the bit-field helpers. -/
namespace Sys2Proof

/-- Bits hi:lo of a number (R5). -/
def bits (n hi lo : Nat) : Nat := (n / 2 ^ lo) % 2 ^ (hi + 1 - lo)

/-- Whether bit k of a number is set. -/
def bit (n k : Nat) : Bool := n.testBit k

/-- The little-endian number of a string of bytes (R5). -/
def ofBytes : List Byte → Nat
  | [] => 0
  | b :: t => b.toNat + 256 * ofBytes t

/-- The n little-endian bytes of a number (R5). -/
def toBytes : Nat → Nat → List Byte
  | 0, _ => []
  | n + 1, v => BitVec.ofNat 8 (v % 256) :: toBytes n (v / 256)

/-- Why the decoder refuses a string of bits. -/
inductive DecodeError where
  | reservedOpcode      -- OP is reserved in the opcode map (R40)
  | zeroOpWithBits      -- OP = 0x00 in a word that is not all zero (R38, code 0x0A)
  | reservedEncoding    -- no instruction of R42 or R44 has these bits
  | unusedField         -- a custom instruction's unused field is not zero (R45)
  | badLength           -- the string has no length the part knows
  deriving DecidableEq, Repr

/-! ## Context words -/

/-- The C2 fields of a context word (R30). -/
def C2.of (w : BitVec 48) : C2 :=
  ⟨w.extractLsb' 37 3, w.extractLsb' 33 4, w.extractLsb' 27 6, w.extractLsb' 21 6, w.extractLsb' 17 4,
   w.getLsbD 16, w.getLsbD 15, w.extractLsb' 12 3, w.extractLsb' 8 4, w.extractLsb' 0 8⟩

/-- The C3 fields of a context word (R30). -/
def C3.of (w : BitVec 48) : C3 :=
  ⟨w.extractLsb' 37 3, w.extractLsb' 33 4, w.extractLsb' 27 6, w.extractLsb' 21 6, w.extractLsb' 17 4,
   w.getLsbD 16, w.getLsbD 15, w.extractLsb' 12 3, w.extractLsb' 8 4, w.extractLsb' 2 6, w.extractLsb' 0 2⟩

/-- The fields of an LI or HI16 word: bits 32:21 hold IMM20[19:8] and bits 7:0 hold IMM20[7:0] (R89). -/
def Li.of (w : BitVec 48) : Li :=
  ⟨w.extractLsb' 37 3, w.extractLsb' 33 4, w.extractLsb' 21 12 ++ w.extractLsb' 0 8, w.extractLsb' 17 4,
   w.getLsbD 16, w.getLsbD 15, w.extractLsb' 12 3, w.extractLsb' 8 4⟩

/-- The M fields of a context word (R30, R37). -/
def Mx.of (w : BitVec 48) : Mx :=
  ⟨w.extractLsb' 37 3, w.extractLsb' 33 4, w.extractLsb' 27 6, w.extractLsb' 19 8, w.extractLsb' 17 2,
   w.extractLsb' 7 10, w.extractLsb' 3 4, w.extractLsb' 0 3⟩

/-- The word of a C2 bundle under an opcode (R30). -/
def C2.bits (w : C2) (op : BitVec 8) : BitVec 48 :=
  op ++ w.stg ++ w.grd ++ w.sa ++ w.sb ++ w.dq ++ BitVec.ofBool w.wq ++ BitVec.ofBool w.out ++ w.fpm ++ w.mod ++ w.imm8

/-- The word of a C3 bundle under an opcode (R30). -/
def C3.bits (w : C3) (op : BitVec 8) : BitVec 48 :=
  op ++ w.stg ++ w.grd ++ w.sa ++ w.sb ++ w.dq ++ BitVec.ofBool w.wq ++ BitVec.ofBool w.out ++ w.fpm ++ w.mod ++ w.sc ++ w.modx

/-- The word of an LI or HI16 bundle under an opcode (R89). -/
def Li.bits (w : Li) (op : BitVec 8) : BitVec 48 :=
  op ++ w.stg ++ w.grd ++ w.imm.extractLsb' 8 12 ++ w.dq ++ BitVec.ofBool w.wq ++ BitVec.ofBool w.out ++ w.fpm ++ w.mod
    ++ w.imm.extractLsb' 0 8

/-- The word of an M bundle under an opcode (R30). -/
def Mx.bits (w : Mx) (op : BitVec 8) : BitVec 48 :=
  op ++ w.stg ++ w.grd ++ w.tsrc ++ w.accrow ++ w.bsel ++ w.spbase ++ w.mfmt ++ w.low

/-- The instruction that an opcode of the map names, with the fields of its format (R40); HANDOVER's TAKE bit is
MOD bit 8 (R153). -/
def contextOf (op : Nat) (w : BitVec 48) : Option Instr :=
  match op with
  | 0x01 => some (.add (C2.of w))
  | 0x02 => some (.sub (C2.of w))
  | 0x03 => some (.addc (C3.of w))
  | 0x04 => some (.subb (C3.of w))
  | 0x05 => some (.addSatS (C2.of w))
  | 0x06 => some (.addSatZ (C2.of w))
  | 0x07 => some (.subSatS (C2.of w))
  | 0x08 => some (.subSatZ (C2.of w))
  | 0x09 => some (.mulLo (C2.of w))
  | 0x0A => some (.mulHiS (C2.of w))
  | 0x0B => some (.mulHiZ (C2.of w))
  | 0x0C => some (.mad (C3.of w))
  | 0x0D => some (.abs (C2.of w))
  | 0x0E => some (.neg (C2.of w))
  | 0x0F => some (.addsh (C2.of w))
  | 0x10 => some (.minS (C2.of w))
  | 0x11 => some (.minZ (C2.of w))
  | 0x12 => some (.maxS (C2.of w))
  | 0x13 => some (.maxZ (C2.of w))
  | 0x14 => some (.and (C2.of w))
  | 0x15 => some (.or (C2.of w))
  | 0x16 => some (.xor (C2.of w))
  | 0x17 => some (.andn (C2.of w))
  | 0x18 => some (.shl (C2.of w))
  | 0x19 => some (.shrZ (C2.of w))
  | 0x1A => some (.shrS (C2.of w))
  | 0x1B => some (.rot (C2.of w))
  | 0x1C => some (.funnel (C3.of w))
  | 0x1D => some (.clz (C2.of w))
  | 0x1E => some (.popc (C2.of w))
  | 0x1F => some (.brev (C2.of w))
  | 0x20 => some (.bswap (C2.of w))
  | 0x21 => some (.bfxS (C2.of w))
  | 0x22 => some (.bfxZ (C2.of w))
  | 0x23 => some (.bfi (C3.of w))
  | 0x24 => some (.clmulLo (C2.of w))
  | 0x25 => some (.clmulHi (C2.of w))
  | 0x26 => some (.dot4S8 (C3.of w))
  | 0x27 => some (.dot2S16 (C3.of w))
  | 0x28 => some (.cmpEq (C2.of w))
  | 0x29 => some (.cmpNe (C2.of w))
  | 0x2A => some (.cmpLtS (C2.of w))
  | 0x2B => some (.cmpLtZ (C2.of w))
  | 0x2C => some (.cmpLeS (C2.of w))
  | 0x2D => some (.cmpLeZ (C2.of w))
  | 0x2E => some (.sel (C3.of w))
  | 0x2F => some (.mov (C2.of w))
  | 0x30 => some (.li (Li.of w))
  | 0x31 => some (.hi16 (Li.of w))
  | 0x40 => some (.fadd (C2.of w))
  | 0x41 => some (.fsub (C2.of w))
  | 0x42 => some (.fmul (C2.of w))
  | 0x43 => some (.fma (C3.of w))
  | 0x44 => some (.fnma (C3.of w))
  | 0x45 => some (.fmin (C2.of w))
  | 0x46 => some (.fmax (C2.of w))
  | 0x47 => some (.fabs (C2.of w))
  | 0x48 => some (.fneg (C2.of w))
  | 0x49 => some (.fcmpEq (C2.of w))
  | 0x4A => some (.fcmpLt (C2.of w))
  | 0x4B => some (.fcmpLe (C2.of w))
  | 0x4C => some (.fcmpUn (C2.of w))
  | 0x4D => some (.fclass (C2.of w))
  | 0x4E => some (.fscale (C2.of w))
  | 0x4F => some (.famax (C2.of w))
  | 0x50 => some (.frcp (C2.of w))
  | 0x51 => some (.frsq (C2.of w))
  | 0x52 => some (.fexp2 (C2.of w))
  | 0x53 => some (.flog2 (C2.of w))
  | 0x54 => some (.fdot2Bf16 (C3.of w))
  | 0x55 => some (.fdot4E4m3 (C3.of w))
  | 0x56 => some (.fdot4E5m2 (C3.of w))
  | 0x57 => some (.mxsc (C2.of w))
  | 0x58 => some (.qnt (C2.of w))
  | 0x59 => some (.cvtF32S32 (C2.of w))
  | 0x5A => some (.cvtS32F32 (C2.of w))
  | 0x5B => some (.cvtF32Z32 (C2.of w))
  | 0x5C => some (.cvtZ32F32 (C2.of w))
  | 0x5D => some (.cvtBf16F32 (C2.of w))
  | 0x5E => some (.cvtF16F32 (C2.of w))
  | 0x5F => some (.cvtF32Bf16 (C2.of w))
  | 0x60 => some (.cvtF32F16 (C2.of w))
  | 0x61 => some (.cvtE4m3F32 (C2.of w))
  | 0x62 => some (.cvtE5m2F32 (C2.of w))
  | 0x63 => some (.cvtE2m1F32 (C2.of w))
  | 0x64 => some (.cvtF32E4m3 (C2.of w))
  | 0x65 => some (.cvtF32E5m2 (C2.of w))
  | 0x66 => some (.cvtF32E2m1 (C2.of w))
  | 0x67 => some (.packX2 (C2.of w))
  | 0x68 => some (.packX4 (C2.of w))
  | 0x69 => some (.unpackX2 (C2.of w))
  | 0x6A => some (.unpackX4 (C2.of w))
  | 0x80 => some (.out (C2.of w))
  | 0x81 => some (.pass (C2.of w))
  | 0x82 => some (.pop (C2.of w))
  | 0x83 => some (.peek (C2.of w))
  | 0x84 => some (.mark (C2.of w))
  | 0x85 => some (.ismark (C2.of w))
  | 0x86 => some (.ordmk (C2.of w))
  | 0x87 => some (.rankrd (C2.of w))
  | 0x88 => some (.pand (C2.of w))
  | 0x89 => some (.por (C2.of w))
  | 0x8A => some (.pxor (C2.of w))
  | 0x8B => some (.pnot (C2.of w))
  | 0x8C => some (.pset (C2.of w))
  | 0x8D => some (.psend (C2.of w))
  | 0x8E => some (.precv (C2.of w))
  | 0x8F => some (.ptest (C2.of w))
  | 0x90 => some (.exit (C2.of w))
  | 0x91 => some (.iter (C2.of w))
  | 0x92 => some (.live (C2.of w))
  | 0x93 => some (.drop (C2.of w))
  | 0x98 => some (.chsend (C2.of w))
  | 0x99 => some (.chrecv (C2.of w))
  | 0x9A => some (.tkalnc (C2.of w))
  | 0xA0 => some (.ldB (C2.of w))
  | 0xA1 => some (.ldH (C2.of w))
  | 0xA2 => some (.ldW (C2.of w))
  | 0xA3 => some (.ldAcq (C2.of w))
  | 0xA4 => some (.ldf (C2.of w))
  | 0xA5 => some (.stB (C3.of w))
  | 0xA6 => some (.stH (C3.of w))
  | 0xA7 => some (.stW (C3.of w))
  | 0xA8 => some (.stRel (C3.of w))
  | 0xA9 => some (.stf (C3.of w))
  | 0xAA => some (.atomH (C3.of w))
  | 0xAB => some (.atomW (C3.of w))
  | 0xAC => some (.lkup (C2.of w))
  | 0xAD => some (if w.getLsbD 8 then .handoverTake (C2.of w) else .handoverGive (C2.of w))
  | 0xAE => some (.mfence (C2.of w))
  | 0xAF => some (.atomfW (C3.of w))
  | 0xC0 => some (.mxcfg (Mx.of w))
  | 0xC1 => some (.mxldb (Mx.of w))
  | 0xC2 => some (.mxrow (Mx.of w))
  | 0xC3 => some (.mxrows (Mx.of w))
  | 0xC4 => some (.mxdrn (Mx.of w))
  | 0xC5 => some (.mxclr (Mx.of w))
  | 0xC6 => some (.mxswb (Mx.of w))
  | 0xC7 => some (.mxacc (Mx.of w))
  | 0xC8 => some (.mxstat (Mx.of w))
  | 0xC9 => some (.mxnop (Mx.of w))
  | _ => none

/-- Decode a context word (R30, R38, R40). -/
def decodeContext (w : BitVec 48) : Except DecodeError Instr :=
  if w = 0 then .ok .nop
  else if w.extractLsb' 40 8 = 0#8 then .error .zeroOpWithBits
  else match contextOf (w.extractLsb' 40 8).toNat w with
    | some i => .ok i
    | none => .error .reservedOpcode

/-- The context word of an instruction (R30, R40). -/
def encodeContext : Instr → Option (BitVec 48)
  | .nop => some 0
  | .add w => some (w.bits 0x01)
  | .sub w => some (w.bits 0x02)
  | .addc w => some (w.bits 0x03)
  | .subb w => some (w.bits 0x04)
  | .addSatS w => some (w.bits 0x05)
  | .addSatZ w => some (w.bits 0x06)
  | .subSatS w => some (w.bits 0x07)
  | .subSatZ w => some (w.bits 0x08)
  | .mulLo w => some (w.bits 0x09)
  | .mulHiS w => some (w.bits 0x0A)
  | .mulHiZ w => some (w.bits 0x0B)
  | .mad w => some (w.bits 0x0C)
  | .abs w => some (w.bits 0x0D)
  | .neg w => some (w.bits 0x0E)
  | .addsh w => some (w.bits 0x0F)
  | .minS w => some (w.bits 0x10)
  | .minZ w => some (w.bits 0x11)
  | .maxS w => some (w.bits 0x12)
  | .maxZ w => some (w.bits 0x13)
  | .and w => some (w.bits 0x14)
  | .or w => some (w.bits 0x15)
  | .xor w => some (w.bits 0x16)
  | .andn w => some (w.bits 0x17)
  | .shl w => some (w.bits 0x18)
  | .shrZ w => some (w.bits 0x19)
  | .shrS w => some (w.bits 0x1A)
  | .rot w => some (w.bits 0x1B)
  | .funnel w => some (w.bits 0x1C)
  | .clz w => some (w.bits 0x1D)
  | .popc w => some (w.bits 0x1E)
  | .brev w => some (w.bits 0x1F)
  | .bswap w => some (w.bits 0x20)
  | .bfxS w => some (w.bits 0x21)
  | .bfxZ w => some (w.bits 0x22)
  | .bfi w => some (w.bits 0x23)
  | .clmulLo w => some (w.bits 0x24)
  | .clmulHi w => some (w.bits 0x25)
  | .dot4S8 w => some (w.bits 0x26)
  | .dot2S16 w => some (w.bits 0x27)
  | .cmpEq w => some (w.bits 0x28)
  | .cmpNe w => some (w.bits 0x29)
  | .cmpLtS w => some (w.bits 0x2A)
  | .cmpLtZ w => some (w.bits 0x2B)
  | .cmpLeS w => some (w.bits 0x2C)
  | .cmpLeZ w => some (w.bits 0x2D)
  | .sel w => some (w.bits 0x2E)
  | .mov w => some (w.bits 0x2F)
  | .li w => some (w.bits 0x30)
  | .hi16 w => some (w.bits 0x31)
  | .fadd w => some (w.bits 0x40)
  | .fsub w => some (w.bits 0x41)
  | .fmul w => some (w.bits 0x42)
  | .fma w => some (w.bits 0x43)
  | .fnma w => some (w.bits 0x44)
  | .fmin w => some (w.bits 0x45)
  | .fmax w => some (w.bits 0x46)
  | .fabs w => some (w.bits 0x47)
  | .fneg w => some (w.bits 0x48)
  | .fcmpEq w => some (w.bits 0x49)
  | .fcmpLt w => some (w.bits 0x4A)
  | .fcmpLe w => some (w.bits 0x4B)
  | .fcmpUn w => some (w.bits 0x4C)
  | .fclass w => some (w.bits 0x4D)
  | .fscale w => some (w.bits 0x4E)
  | .famax w => some (w.bits 0x4F)
  | .frcp w => some (w.bits 0x50)
  | .frsq w => some (w.bits 0x51)
  | .fexp2 w => some (w.bits 0x52)
  | .flog2 w => some (w.bits 0x53)
  | .fdot2Bf16 w => some (w.bits 0x54)
  | .fdot4E4m3 w => some (w.bits 0x55)
  | .fdot4E5m2 w => some (w.bits 0x56)
  | .mxsc w => some (w.bits 0x57)
  | .qnt w => some (w.bits 0x58)
  | .cvtF32S32 w => some (w.bits 0x59)
  | .cvtS32F32 w => some (w.bits 0x5A)
  | .cvtF32Z32 w => some (w.bits 0x5B)
  | .cvtZ32F32 w => some (w.bits 0x5C)
  | .cvtBf16F32 w => some (w.bits 0x5D)
  | .cvtF16F32 w => some (w.bits 0x5E)
  | .cvtF32Bf16 w => some (w.bits 0x5F)
  | .cvtF32F16 w => some (w.bits 0x60)
  | .cvtE4m3F32 w => some (w.bits 0x61)
  | .cvtE5m2F32 w => some (w.bits 0x62)
  | .cvtE2m1F32 w => some (w.bits 0x63)
  | .cvtF32E4m3 w => some (w.bits 0x64)
  | .cvtF32E5m2 w => some (w.bits 0x65)
  | .cvtF32E2m1 w => some (w.bits 0x66)
  | .packX2 w => some (w.bits 0x67)
  | .packX4 w => some (w.bits 0x68)
  | .unpackX2 w => some (w.bits 0x69)
  | .unpackX4 w => some (w.bits 0x6A)
  | .out w => some (w.bits 0x80)
  | .pass w => some (w.bits 0x81)
  | .pop w => some (w.bits 0x82)
  | .peek w => some (w.bits 0x83)
  | .mark w => some (w.bits 0x84)
  | .ismark w => some (w.bits 0x85)
  | .ordmk w => some (w.bits 0x86)
  | .rankrd w => some (w.bits 0x87)
  | .pand w => some (w.bits 0x88)
  | .por w => some (w.bits 0x89)
  | .pxor w => some (w.bits 0x8A)
  | .pnot w => some (w.bits 0x8B)
  | .pset w => some (w.bits 0x8C)
  | .psend w => some (w.bits 0x8D)
  | .precv w => some (w.bits 0x8E)
  | .ptest w => some (w.bits 0x8F)
  | .exit w => some (w.bits 0x90)
  | .iter w => some (w.bits 0x91)
  | .live w => some (w.bits 0x92)
  | .drop w => some (w.bits 0x93)
  | .chsend w => some (w.bits 0x98)
  | .chrecv w => some (w.bits 0x99)
  | .tkalnc w => some (w.bits 0x9A)
  | .ldB w => some (w.bits 0xA0)
  | .ldH w => some (w.bits 0xA1)
  | .ldW w => some (w.bits 0xA2)
  | .ldAcq w => some (w.bits 0xA3)
  | .ldf w => some (w.bits 0xA4)
  | .stB w => some (w.bits 0xA5)
  | .stH w => some (w.bits 0xA6)
  | .stW w => some (w.bits 0xA7)
  | .stRel w => some (w.bits 0xA8)
  | .stf w => some (w.bits 0xA9)
  | .atomH w => some (w.bits 0xAA)
  | .atomW w => some (w.bits 0xAB)
  | .lkup w => some (w.bits 0xAC)
  | .handoverGive w => some (w.bits 0xAD)
  | .handoverTake w => some (w.bits 0xAD)
  | .mfence w => some (w.bits 0xAE)
  | .atomfW w => some (w.bits 0xAF)
  | .mxcfg w => some (w.bits 0xC0)
  | .mxldb w => some (w.bits 0xC1)
  | .mxrow w => some (w.bits 0xC2)
  | .mxrows w => some (w.bits 0xC3)
  | .mxdrn w => some (w.bits 0xC4)
  | .mxclr w => some (w.bits 0xC5)
  | .mxswb w => some (w.bits 0xC6)
  | .mxacc w => some (w.bits 0xC7)
  | .mxstat w => some (w.bits 0xC8)
  | .mxnop w => some (w.bits 0xC9)
  | _ => none

/-! ## Custom controller instructions -/

/-- The instructions of custom0 (R44), by funct3 and funct7; the flags say which of rd, rs1, rs2 each uses (R43). -/
def custom0Of (f3 : Nat) (f7 : Nat) (rd rs1 rs2 : Reg) : Option (Instr × Bool × Bool × Bool) :=
  match f3, f7 with
  | 0, 0 => some (.stbind rd rs1 rs2, true, true, true)
  | 0, 1 => some (.stbindi rd rs1 rs2, true, true, true)
  | 0, 2 => some (.ststop rd rs1, true, true, false)
  | 0, 3 => some (.stcur rd rs1, true, true, false)
  | 0, 4 => some (.ststat rd rs1, true, true, false)
  | 0, 5 => some (.stwait rd rs1, true, true, false)
  | 1, 0 => some (.cpy rd rs1, true, true, false)
  | 1, 1 => some (.cpysnap rd rs1, true, true, false)
  | 1, 2 => some (.cpyt rd rs1 rs2, true, true, true)
  | 2, 0 => some (.cpytd rd rs1, true, true, false)
  | 2, 1 => some (.cpyarm rd rs1 rs2, true, true, true)
  | 2, 2 => some (.cpydis rd rs1, true, true, false)
  | 2, 3 => some (.cpyfire rd rs1, true, true, false)
  | 3, 0 => some (.cpywait rd rs1, true, true, false)
  | 3, 1 => some (.cpystat rd rs1, true, true, false)
  | 3, 2 => some (.cpycan rd rs1, true, true, false)
  | _, _ => none

/-- The instructions of custom1 (R44), by funct3 and funct7; the flags say which of rd, rs1, rs2 each uses (R43). -/
def custom1Of (f3 : Nat) (f7 : Nat) (rd rs1 rs2 : Reg) : Option (Instr × Bool × Bool × Bool) :=
  match f3, f7 with
  | 0, 0 => some (.semadd rs1 rs2, false, true, true)
  | 0, 1 => some (.semset rd rs1 rs2, true, true, true)
  | 0, 2 => some (.semrd rd rs1, true, true, false)
  | 0, 3 => some (.semwait rd rs1 rs2, true, true, true)
  | 1, 0 => some (.barinit rs1 rs2, false, true, true)
  | 1, 1 => some (.bararr rd rs1 rs2, true, true, true)
  | 1, 2 => some (.barwait rd rs1 rs2, true, true, true)
  | 2, 0 => some (.msgsend rs1 rs2, false, true, true)
  | 2, 1 => some (.msgwake rs1 rs2, false, true, true)
  | 2, 2 => some (.sigst rs1 rs2, false, true, true)
  | 3, 0 => some (.htset rd rs1 rs2, true, true, true)
  | 3, 1 => some (.hten rd rs1 rs2, true, true, true)
  | 3, 2 => some (.htpend rd rs1, true, true, false)
  | 3, 3 => some (.htrd rd rs1, true, true, false)
  | 4, 0 => some (.fenceS rs1, false, true, false)
  | 4, 1 => some (.iinv rs1, false, true, false)
  | 5, 0 => some (.slcinv rs1 rs2, false, true, true)
  | 5, 1 => some (.slcwb rs1 rs2, false, true, true)
  | 6, 0 => some (.retset rd rs1 rs2, true, true, true)
  | 6, 1 => some (.retclr rs1, false, true, false)
  | 6, 2 => some (.wayset rd rs1 rs2, true, true, true)
  | 6, 3 => some (.wayrd rd rs1, true, true, false)
  | _, _ => none

/-- The instructions of custom2 (R44), by funct3 and funct7; the flags say which of rd, rs1, rs2 each uses (R43). -/
def custom2Of (f3 : Nat) (f7 : Nat) (rd rs1 rs2 : Reg) : Option (Instr × Bool × Bool × Bool) :=
  match f3, f7 with
  | 0, 0 => some (.grload rd rs1 rs2, true, true, true)
  | 0, 1 => some (.grstat rd rs1, true, true, false)
  | 1, 0 => some (.pgplace rd rs1, true, true, false)
  | 1, 1 => some (.pgfree rd rs1, true, true, false)
  | 1, 2 => some (.pgstat rd rs1, true, true, false)
  | 1, 3 => some (.pgwait rd rs1 rs2, true, true, true)
  | 2, 0 => some (.gateopen rd rs1, true, true, false)
  | 2, 1 => some (.tripset rd rs1 rs2, true, true, true)
  | 2, 2 => some (.pgconst rd rs1 rs2, true, true, true)
  | 3, 0 => some (.seamset rd rs1 rs2, true, true, true)
  | 4, 0 => some (.tkrd rd, true, false, false)
  | 4, 1 => some (.pkrd rd rs1, true, true, false)
  | 4, 2 => some (.tkdrf rd rs1, true, true, false)
  | 5, 0 => some (.tkaln rd rs1, true, true, false)
  | 6, 0 => some (.chopen rd rs1 rs2, true, true, true)
  | 6, 1 => some (.chclose rd rs1, true, true, false)
  | 6, 2 => some (.chstat rd rs1, true, true, false)
  | _, _ => none

/-- The instructions of custom3 (R44), by funct3 and funct7; the flags say which of rd, rs1, rs2 each uses (R43). -/
def custom3Of (f3 : Nat) (f7 : Nat) (rd rs1 rs2 : Reg) : Option (Instr × Bool × Bool × Bool) :=
  match f3, f7 with
  | 0, 0 => some (.halt rs1, false, true, false)
  | 0, 1 => some (.evpost rs1 rs2, false, true, true)
  | 1, 0 => some (.traprec rd rs1, true, true, false)
  | 2, 0 => some (.svsave rd rs1 rs2, true, true, true)
  | 2, 1 => some (.svload rd rs1 rs2, true, true, true)
  | 2, 2 => some (.svsize rd rs1, true, true, false)
  | 2, 3 => some (.svstat rd rs1, true, true, false)
  | 3, 0 => some (.preq rd rs1, true, true, false)
  | 4, 0 => some (.txlat rd rs1, true, true, false)
  | 5, 0 => some (.gaugesel rd rs1 rs2, true, true, true)
  | 5, 1 => some (.gaugerd rd rs1, true, true, false)
  | 5, 2 => some (.gaugeclr rs1, false, true, false)
  | _, _ => none

/-- The word of a custom instruction (R43). -/
def customWord (major : BitVec 7) (f3 : BitVec 3) (f7 : BitVec 7) (rd rs1 rs2 : Reg) : BitVec 32 :=
  f7 ++ rs2 ++ rs1 ++ f3 ++ rd ++ major

/-- The custom instruction of a word, if its major opcode is one of the four (R43 to R45). -/
def customOf (w : BitVec 32) : Option (Instr × Bool × Bool × Bool) :=
  let f3 := (w.extractLsb' 12 3).toNat
  let f7 := (w.extractLsb' 25 7).toNat
  let rd := w.extractLsb' 7 5
  let rs1 := w.extractLsb' 15 5
  let rs2 := w.extractLsb' 20 5
  match (w.extractLsb' 0 7).toNat with
  | 0x0B => custom0Of f3 f7 rd rs1 rs2
  | 0x2B => custom1Of f3 f7 rd rs1 rs2
  | 0x5B => custom2Of f3 f7 rd rs1 rs2
  | 0x7B => custom3Of f3 f7 rd rs1 rs2
  | _ => none

/-- Decode a custom instruction: a used field is a register or an immediate, an unused one must be zero (R45). -/
def decodeCustom (w : BitVec 32) : Except DecodeError Instr :=
  match customOf w with
  | none => .error .reservedEncoding
  | some (i, u, v, x) =>
    if (u || w.extractLsb' 7 5 == 0#5) && (v || w.extractLsb' 15 5 == 0#5) && (x || w.extractLsb' 20 5 == 0#5)
    then .ok i else .error .unusedField

/-- The word of a custom instruction, from the table of R44. -/
def encodeCustom : Instr → Option (BitVec 32)
  | .stbind rd rs1 rs2 => some (customWord 0x0B 0 0 rd rs1 rs2)
  | .stbindi rd rs1 rs2 => some (customWord 0x0B 0 1 rd rs1 rs2)
  | .ststop rd rs1 => some (customWord 0x0B 0 2 rd rs1 0)
  | .stcur rd rs1 => some (customWord 0x0B 0 3 rd rs1 0)
  | .ststat rd rs1 => some (customWord 0x0B 0 4 rd rs1 0)
  | .stwait rd rs1 => some (customWord 0x0B 0 5 rd rs1 0)
  | .cpy rd rs1 => some (customWord 0x0B 1 0 rd rs1 0)
  | .cpysnap rd rs1 => some (customWord 0x0B 1 1 rd rs1 0)
  | .cpyt rd rs1 rs2 => some (customWord 0x0B 1 2 rd rs1 rs2)
  | .cpytd rd rs1 => some (customWord 0x0B 2 0 rd rs1 0)
  | .cpyarm rd rs1 rs2 => some (customWord 0x0B 2 1 rd rs1 rs2)
  | .cpydis rd rs1 => some (customWord 0x0B 2 2 rd rs1 0)
  | .cpyfire rd rs1 => some (customWord 0x0B 2 3 rd rs1 0)
  | .cpywait rd rs1 => some (customWord 0x0B 3 0 rd rs1 0)
  | .cpystat rd rs1 => some (customWord 0x0B 3 1 rd rs1 0)
  | .cpycan rd rs1 => some (customWord 0x0B 3 2 rd rs1 0)
  | .semadd rs1 rs2 => some (customWord 0x2B 0 0 0 rs1 rs2)
  | .semset rd rs1 rs2 => some (customWord 0x2B 0 1 rd rs1 rs2)
  | .semrd rd rs1 => some (customWord 0x2B 0 2 rd rs1 0)
  | .semwait rd rs1 rs2 => some (customWord 0x2B 0 3 rd rs1 rs2)
  | .barinit rs1 rs2 => some (customWord 0x2B 1 0 0 rs1 rs2)
  | .bararr rd rs1 rs2 => some (customWord 0x2B 1 1 rd rs1 rs2)
  | .barwait rd rs1 rs2 => some (customWord 0x2B 1 2 rd rs1 rs2)
  | .msgsend rs1 rs2 => some (customWord 0x2B 2 0 0 rs1 rs2)
  | .msgwake rs1 rs2 => some (customWord 0x2B 2 1 0 rs1 rs2)
  | .sigst rs1 rs2 => some (customWord 0x2B 2 2 0 rs1 rs2)
  | .htset rd rs1 rs2 => some (customWord 0x2B 3 0 rd rs1 rs2)
  | .hten rd rs1 rs2 => some (customWord 0x2B 3 1 rd rs1 rs2)
  | .htpend rd rs1 => some (customWord 0x2B 3 2 rd rs1 0)
  | .htrd rd rs1 => some (customWord 0x2B 3 3 rd rs1 0)
  | .fenceS rs1 => some (customWord 0x2B 4 0 0 rs1 0)
  | .iinv rs1 => some (customWord 0x2B 4 1 0 rs1 0)
  | .slcinv rs1 rs2 => some (customWord 0x2B 5 0 0 rs1 rs2)
  | .slcwb rs1 rs2 => some (customWord 0x2B 5 1 0 rs1 rs2)
  | .retset rd rs1 rs2 => some (customWord 0x2B 6 0 rd rs1 rs2)
  | .retclr rs1 => some (customWord 0x2B 6 1 0 rs1 0)
  | .wayset rd rs1 rs2 => some (customWord 0x2B 6 2 rd rs1 rs2)
  | .wayrd rd rs1 => some (customWord 0x2B 6 3 rd rs1 0)
  | .grload rd rs1 rs2 => some (customWord 0x5B 0 0 rd rs1 rs2)
  | .grstat rd rs1 => some (customWord 0x5B 0 1 rd rs1 0)
  | .pgplace rd rs1 => some (customWord 0x5B 1 0 rd rs1 0)
  | .pgfree rd rs1 => some (customWord 0x5B 1 1 rd rs1 0)
  | .pgstat rd rs1 => some (customWord 0x5B 1 2 rd rs1 0)
  | .pgwait rd rs1 rs2 => some (customWord 0x5B 1 3 rd rs1 rs2)
  | .gateopen rd rs1 => some (customWord 0x5B 2 0 rd rs1 0)
  | .tripset rd rs1 rs2 => some (customWord 0x5B 2 1 rd rs1 rs2)
  | .pgconst rd rs1 rs2 => some (customWord 0x5B 2 2 rd rs1 rs2)
  | .seamset rd rs1 rs2 => some (customWord 0x5B 3 0 rd rs1 rs2)
  | .tkrd rd => some (customWord 0x5B 4 0 rd 0 0)
  | .pkrd rd rs1 => some (customWord 0x5B 4 1 rd rs1 0)
  | .tkdrf rd rs1 => some (customWord 0x5B 4 2 rd rs1 0)
  | .tkaln rd rs1 => some (customWord 0x5B 5 0 rd rs1 0)
  | .chopen rd rs1 rs2 => some (customWord 0x5B 6 0 rd rs1 rs2)
  | .chclose rd rs1 => some (customWord 0x5B 6 1 rd rs1 0)
  | .chstat rd rs1 => some (customWord 0x5B 6 2 rd rs1 0)
  | .halt rs1 => some (customWord 0x7B 0 0 0 rs1 0)
  | .evpost rs1 rs2 => some (customWord 0x7B 0 1 0 rs1 rs2)
  | .traprec rd rs1 => some (customWord 0x7B 1 0 rd rs1 0)
  | .svsave rd rs1 rs2 => some (customWord 0x7B 2 0 rd rs1 rs2)
  | .svload rd rs1 rs2 => some (customWord 0x7B 2 1 rd rs1 rs2)
  | .svsize rd rs1 => some (customWord 0x7B 2 2 rd rs1 0)
  | .svstat rd rs1 => some (customWord 0x7B 2 3 rd rs1 0)
  | .preq rd rs1 => some (customWord 0x7B 3 0 rd rs1 0)
  | .txlat rd rs1 => some (customWord 0x7B 4 0 rd rs1 0)
  | .gaugesel rd rs1 rs2 => some (customWord 0x7B 5 0 rd rs1 rs2)
  | .gaugerd rd rs1 => some (customWord 0x7B 5 1 rd rs1 0)
  | .gaugeclr rs1 => some (customWord 0x7B 5 2 0 rs1 0)
  | _ => none

/-! ## Standard instructions (R42) -/

/-- The R-type operation of OP (0x33) by funct7 and funct3. -/
def aluOf (f7 f3 : Nat) : Option AluOp :=
  match f7, f3 with
  | 0x00, 0 => some .add | 0x20, 0 => some .sub | 0x00, 1 => some .sll | 0x00, 2 => some .slt | 0x00, 3 => some .sltu
  | 0x00, 4 => some .xor | 0x00, 5 => some .srl | 0x20, 5 => some .sra | 0x00, 6 => some .or | 0x00, 7 => some .and
  | 0x01, 0 => some .mul | 0x01, 1 => some .mulh | 0x01, 2 => some .mulhsu | 0x01, 3 => some .mulhu
  | 0x01, 4 => some .div | 0x01, 5 => some .divu | 0x01, 6 => some .rem | 0x01, 7 => some .remu
  | 0x10, 2 => some .sh1add | 0x10, 4 => some .sh2add | 0x10, 6 => some .sh3add
  | 0x20, 7 => some .andn | 0x20, 6 => some .orn | 0x20, 4 => some .xnor
  | 0x05, 4 => some .min | 0x05, 5 => some .minu | 0x05, 6 => some .max | 0x05, 7 => some .maxu
  | 0x30, 1 => some .rol | 0x30, 5 => some .ror
  | _, _ => none

/-- The R-type operation of OP-32 (0x3B) by funct7 and funct3; zext.h has rs2 = 0. -/
def aluwOf (f7 f3 : Nat) (rs2 : Reg) : Option AluOp :=
  match f7, f3 with
  | 0x00, 0 => some .addw | 0x20, 0 => some .subw | 0x00, 1 => some .sllw | 0x00, 5 => some .srlw | 0x20, 5 => some .sraw
  | 0x01, 0 => some .mulw | 0x01, 4 => some .divw | 0x01, 5 => some .divuw | 0x01, 6 => some .remw | 0x01, 7 => some .remuw
  | 0x04, 0 => some .addUw
  | 0x10, 2 => some .sh1addUw | 0x10, 4 => some .sh2addUw | 0x10, 6 => some .sh3addUw
  | 0x30, 1 => some .rolw | 0x30, 5 => some .rorw
  | 0x04, 4 => if rs2 = 0 then some .zextH else none
  | _, _ => none

/-- OP-IMM (0x13): immediates, shifts by a 6-bit amount, and the one-operand forms of Zbb. -/
def opImmOf (f3 : Nat) (rd rs1 : Reg) (imm : BitVec 12) : Option StdOp :=
  let top := (imm.extractLsb' 6 6).toNat
  let sh := imm &&& 0x03F#12
  match f3 with
  | 0 => some (.alui .addi rd rs1 imm)
  | 2 => some (.alui .slti rd rs1 imm)
  | 3 => some (.alui .sltiu rd rs1 imm)
  | 4 => some (.alui .xori rd rs1 imm)
  | 6 => some (.alui .ori rd rs1 imm)
  | 7 => some (.alui .andi rd rs1 imm)
  | 1 =>
    if top = 0 then some (.alui .slli rd rs1 sh)
    else match imm.toNat with
      | 0x600 => some (.unary .clz rd rs1) | 0x601 => some (.unary .ctz rd rs1) | 0x602 => some (.unary .cpop rd rs1)
      | 0x604 => some (.unary .sextB rd rs1) | 0x605 => some (.unary .sextH rd rs1)
      | _ => none
  | _ =>
    if top = 0x00 then some (.alui .srli rd rs1 sh)
    else if top = 0x10 then some (.alui .srai rd rs1 sh)
    else if top = 0x18 then some (.alui .rori rd rs1 sh)
    else match imm.toNat with
      | 0x6B8 => some (.unary .rev8 rd rs1) | 0x287 => some (.unary .orcB rd rs1)
      | _ => none

/-- OP-IMM-32 (0x1B). -/
def opImmwOf (f3 : Nat) (rd rs1 : Reg) (imm : BitVec 12) : Option StdOp :=
  let top := (imm.extractLsb' 5 7).toNat
  let sh := imm &&& 0x01F#12
  match f3 with
  | 0 => some (.alui .addiw rd rs1 imm)
  | 1 =>
    if top = 0x00 then some (.alui .slliw rd rs1 sh)
    else if (imm.extractLsb' 6 6).toNat = 0x02 then some (.alui .slliUw rd rs1 (imm &&& 0x03F#12))
    else match imm.toNat with
      | 0x600 => some (.unary .clzw rd rs1) | 0x601 => some (.unary .ctzw rd rs1) | 0x602 => some (.unary .cpopw rd rs1)
      | _ => none
  | 5 =>
    if top = 0x00 then some (.alui .srliw rd rs1 sh)
    else if top = 0x20 then some (.alui .sraiw rd rs1 sh)
    else if top = 0x30 then some (.alui .roriw rd rs1 sh)
    else none
  | _ => none

/-- The A-extension operation by funct5. -/
def amoOf (f5 : Nat) : Option AmoOp :=
  match f5 with
  | 0x00 => some .add | 0x01 => some .swap | 0x04 => some .xor | 0x08 => some .or | 0x0C => some .and
  | 0x10 => some .min | 0x14 => some .max | 0x18 => some .minu | 0x1C => some .maxu
  | _ => none

/-- Decode a 32-bit standard instruction; every encoding that R42 does not list is refused. -/
def decodeStandard (w : BitVec 32) : Except DecodeError Instr :=
  let f3 := (w.extractLsb' 12 3).toNat
  let f7 := (w.extractLsb' 25 7).toNat
  let rd := w.extractLsb' 7 5
  let rs1 := w.extractLsb' 15 5
  let rs2 := w.extractLsb' 20 5
  let immI := w.extractLsb' 20 12
  let immS : BitVec 12 := w.extractLsb' 25 7 ++ w.extractLsb' 7 5
  let immB : BitVec 13 := w.extractLsb' 31 1 ++ w.extractLsb' 7 1 ++ w.extractLsb' 25 6 ++ w.extractLsb' 8 4 ++ 0#1
  let immJ : BitVec 21 := w.extractLsb' 31 1 ++ w.extractLsb' 12 8 ++ w.extractLsb' 20 1 ++ w.extractLsb' 21 10 ++ 0#1
  let std (o : Option StdOp) : Except DecodeError Instr :=
    match o with | some op => .ok (.standardInstruction op) | none => .error .reservedEncoding
  match (w.extractLsb' 0 7).toNat with
  | 0x37 => std (some (.lui rd (w.extractLsb' 12 20)))
  | 0x17 => std (some (.auipc rd (w.extractLsb' 12 20)))
  | 0x6F => std (some (.jal rd immJ))
  | 0x67 => if f3 = 0 then std (some (.jalr rd rs1 immI)) else .error .reservedEncoding
  | 0x63 => match f3 with
    | 0 => std (some (.branch .beq rs1 rs2 immB)) | 1 => std (some (.branch .bne rs1 rs2 immB))
    | 4 => std (some (.branch .blt rs1 rs2 immB)) | 5 => std (some (.branch .bge rs1 rs2 immB))
    | 6 => std (some (.branch .bltu rs1 rs2 immB)) | 7 => std (some (.branch .bgeu rs1 rs2 immB))
    | _ => .error .reservedEncoding
  | 0x03 => match f3 with
    | 0 => .ok (.controllerLoad .lb rd rs1 immI) | 1 => .ok (.controllerLoad .lh rd rs1 immI)
    | 2 => .ok (.controllerLoad .lw rd rs1 immI) | 3 => .ok (.controllerLoad .ld rd rs1 immI)
    | 4 => .ok (.controllerLoad .lbu rd rs1 immI) | 5 => .ok (.controllerLoad .lhu rd rs1 immI)
    | 6 => .ok (.controllerLoad .lwu rd rs1 immI)
    | _ => .error .reservedEncoding
  | 0x23 => match f3 with
    | 0 => .ok (.controllerStore .sb rs1 rs2 immS) | 1 => .ok (.controllerStore .sh rs1 rs2 immS)
    | 2 => .ok (.controllerStore .sw rs1 rs2 immS) | 3 => .ok (.controllerStore .sd rs1 rs2 immS)
    | _ => .error .reservedEncoding
  | 0x13 => std (opImmOf f3 rd rs1 immI)
  | 0x1B => std (opImmwOf f3 rd rs1 immI)
  | 0x33 => std ((aluOf f7 f3).map (fun op => .alu op rd rs1 rs2))
  | 0x3B => std ((aluwOf f7 f3 rs2).map (fun op => .alu op rd rs1 rs2))
  | 0x0F => match f3 with
    | 0 => .ok (.fence (w.extractLsb' 28 4) (w.extractLsb' 24 4) (w.extractLsb' 20 4) rs1 rd)
    | 1 => .ok (.fenceI immI rs1 rd)
    | _ => .error .reservedEncoding
  | 0x2F =>
    let f5 := (w.extractLsb' 27 5).toNat
    let aq := w.getLsbD 26
    let rl := w.getLsbD 25
    if f3 = 2 ∨ f3 = 3 then
      if f5 = 2 then (if rs2 = 0 then .ok (.lr (f3 == 3) aq rl rd rs1) else .error .reservedEncoding)
      else if f5 = 3 then .ok (.sc (f3 == 3) aq rl rd rs1 rs2)
      else match amoOf f5 with
        | some op => .ok (.amo op (f3 == 3) aq rl rd rs1 rs2)
        | none => .error .reservedEncoding
    else .error .reservedEncoding
  | 0x73 => match f3 with
    | 1 => std (some (.csr .rw rd rs1 immI)) | 2 => std (some (.csr .rs rd rs1 immI)) | 3 => std (some (.csr .rc rd rs1 immI))
    | 5 => std (some (.csr .rwi rd rs1 immI)) | 6 => std (some (.csr .rsi rd rs1 immI)) | 7 => std (some (.csr .rci rd rs1 immI))
    | _ => .error .reservedEncoding
  | _ => .error .reservedEncoding

/-- Major opcode, funct7 and funct3 of a register-register operation (R42). -/
def AluOp.code : AluOp → Nat × Nat × Nat
  | .add => (0x33, 0x00, 0) | .sub => (0x33, 0x20, 0) | .sll => (0x33, 0x00, 1) | .slt => (0x33, 0x00, 2) | .sltu => (0x33, 0x00, 3)
  | .xor => (0x33, 0x00, 4) | .srl => (0x33, 0x00, 5) | .sra => (0x33, 0x20, 5) | .or => (0x33, 0x00, 6) | .and => (0x33, 0x00, 7)
  | .mul => (0x33, 0x01, 0) | .mulh => (0x33, 0x01, 1) | .mulhsu => (0x33, 0x01, 2) | .mulhu => (0x33, 0x01, 3)
  | .div => (0x33, 0x01, 4) | .divu => (0x33, 0x01, 5) | .rem => (0x33, 0x01, 6) | .remu => (0x33, 0x01, 7)
  | .sh1add => (0x33, 0x10, 2) | .sh2add => (0x33, 0x10, 4) | .sh3add => (0x33, 0x10, 6)
  | .andn => (0x33, 0x20, 7) | .orn => (0x33, 0x20, 6) | .xnor => (0x33, 0x20, 4)
  | .min => (0x33, 0x05, 4) | .minu => (0x33, 0x05, 5) | .max => (0x33, 0x05, 6) | .maxu => (0x33, 0x05, 7)
  | .rol => (0x33, 0x30, 1) | .ror => (0x33, 0x30, 5)
  | .addw => (0x3B, 0x00, 0) | .subw => (0x3B, 0x20, 0) | .sllw => (0x3B, 0x00, 1) | .srlw => (0x3B, 0x00, 5) | .sraw => (0x3B, 0x20, 5)
  | .mulw => (0x3B, 0x01, 0) | .divw => (0x3B, 0x01, 4) | .divuw => (0x3B, 0x01, 5) | .remw => (0x3B, 0x01, 6) | .remuw => (0x3B, 0x01, 7)
  | .addUw => (0x3B, 0x04, 0) | .sh1addUw => (0x3B, 0x10, 2) | .sh2addUw => (0x3B, 0x10, 4) | .sh3addUw => (0x3B, 0x10, 6)
  | .rolw => (0x3B, 0x30, 1) | .rorw => (0x3B, 0x30, 5) | .zextH => (0x3B, 0x04, 4)

/-- Major opcode and funct3 of a register-immediate operation, and of a shift the bits above its amount and how many those of its amount
are (R42). -/
def AluiOp.code : AluiOp → Nat × Nat × Nat × Nat
  | .addi => (0x13, 0, 0, 12) | .slti => (0x13, 2, 0, 12) | .sltiu => (0x13, 3, 0, 12) | .xori => (0x13, 4, 0, 12) | .ori => (0x13, 6, 0, 12) | .andi => (0x13, 7, 0, 12)
  | .slli => (0x13, 1, 0x000, 6) | .srli => (0x13, 5, 0x000, 6) | .srai => (0x13, 5, 0x400, 6) | .rori => (0x13, 5, 0x600, 6)
  | .addiw => (0x1B, 0, 0, 12) | .slliw => (0x1B, 1, 0x000, 5) | .srliw => (0x1B, 5, 0x000, 5) | .sraiw => (0x1B, 5, 0x400, 5) | .roriw => (0x1B, 5, 0x600, 5)
  | .slliUw => (0x1B, 1, 0x080, 6)

/-- Major opcode, funct3 and the 12 upper bits of a one-operand operation (R42). -/
def UnOp.code : UnOp → Nat × Nat × Nat
  | .clz => (0x13, 1, 0x600) | .ctz => (0x13, 1, 0x601) | .cpop => (0x13, 1, 0x602) | .sextB => (0x13, 1, 0x604) | .sextH => (0x13, 1, 0x605)
  | .rev8 => (0x13, 5, 0x6B8) | .orcB => (0x13, 5, 0x287) | .clzw => (0x1B, 1, 0x600) | .ctzw => (0x1B, 1, 0x601) | .cpopw => (0x1B, 1, 0x602)

def BrOp.code : BrOp → Nat | .beq => 0 | .bne => 1 | .blt => 4 | .bge => 5 | .bltu => 6 | .bgeu => 7
def CsrOp.code : CsrOp → Nat | .rw => 1 | .rs => 2 | .rc => 3 | .rwi => 5 | .rsi => 6 | .rci => 7
def LoadKind.code : LoadKind → Nat | .lb => 0 | .lh => 1 | .lw => 2 | .ld => 3 | .lbu => 4 | .lhu => 5 | .lwu => 6
def StoreKind.code : StoreKind → Nat | .sb => 0 | .sh => 1 | .sw => 2 | .sd => 3
def AmoOp.code : AmoOp → Nat
  | .add => 0x00 | .swap => 0x01 | .xor => 0x04 | .or => 0x08 | .and => 0x0C | .min => 0x10 | .max => 0x14 | .minu => 0x18 | .maxu => 0x1C

/-- An I-type word: 12 upper bits, rs1, funct3, rd, major opcode (R42). -/
def iWord (imm : BitVec 12) (rs1 : Reg) (f3 : Nat) (rd : Reg) (op : Nat) : BitVec 32 :=
  imm ++ rs1 ++ BitVec.ofNat 3 f3 ++ rd ++ BitVec.ofNat 7 op
/-- An R-type word. -/
def rWord (f7 : Nat) (rs2 rs1 : Reg) (f3 : Nat) (rd : Reg) (op : Nat) : BitVec 32 :=
  BitVec.ofNat 7 f7 ++ rs2 ++ rs1 ++ BitVec.ofNat 3 f3 ++ rd ++ BitVec.ofNat 7 op
/-- An A-extension word. -/
def aWord (f5 : Nat) (aq rl : Bool) (rs2 rs1 : Reg) (dbl : Bool) (rd : Reg) : BitVec 32 :=
  BitVec.ofNat 5 f5 ++ BitVec.ofBool aq ++ BitVec.ofBool rl ++ rs2 ++ rs1 ++ BitVec.ofNat 3 (if dbl then 3 else 2) ++ rd ++ 0x2F#7

/-- The 32-bit word of a standard instruction, where its fields have one (R42). -/
def encodeStandard : Instr → Option (BitVec 32)
  | .standardInstruction (.lui rd imm) => some (imm ++ rd ++ 0x37#7)
  | .standardInstruction (.auipc rd imm) => some (imm ++ rd ++ 0x17#7)
  | .standardInstruction (.jal rd off) =>
    if off.getLsbD 0 then none
    else some (off.extractLsb' 20 1 ++ off.extractLsb' 1 10 ++ off.extractLsb' 11 1 ++ off.extractLsb' 12 8 ++ rd ++ 0x6F#7)
  | .standardInstruction (.jalr rd rs1 imm) => some (iWord imm rs1 0 rd 0x67)
  | .standardInstruction (.branch op rs1 rs2 off) =>
    if off.getLsbD 0 then none
    else some (off.extractLsb' 12 1 ++ off.extractLsb' 5 6 ++ rs2 ++ rs1 ++ BitVec.ofNat 3 op.code ++ off.extractLsb' 1 4 ++ off.extractLsb' 11 1 ++ 0x63#7)
  | .standardInstruction (.alu op rd rs1 rs2) =>
    if op = .zextH ∧ rs2 ≠ 0 then none else some (rWord op.code.2.1 rs2 rs1 op.code.2.2 rd op.code.1)
  | .standardInstruction (.alui op rd rs1 imm) =>
    if 2 ^ op.code.2.2.2 ≤ imm.toNat then none
    else some (iWord (imm ||| BitVec.ofNat 12 op.code.2.2.1) rs1 op.code.2.1 rd op.code.1)
  | .standardInstruction (.unary op rd rs1) => some (iWord (BitVec.ofNat 12 op.code.2.2) rs1 op.code.2.1 rd op.code.1)
  | .standardInstruction (.csr op rd rs1 num) => some (iWord num rs1 op.code rd 0x73)
  | .controllerLoad k rd rs1 imm => some (iWord imm rs1 k.code rd 0x03)
  | .controllerStore k rs1 rs2 imm => some (imm.extractLsb' 5 7 ++ rs2 ++ rs1 ++ BitVec.ofNat 3 k.code ++ imm.extractLsb' 0 5 ++ 0x23#7)
  | .fence fm pred succ rs1 rd => some (iWord (fm ++ pred ++ succ) rs1 0 rd 0x0F)
  | .fenceI imm rs1 rd => some (iWord imm rs1 1 rd 0x0F)
  | .amo op dbl aq rl rd rs1 rs2 => some (aWord op.code aq rl rs2 rs1 dbl rd)
  | .lr dbl aq rl rd rs1 => some (aWord 2 aq rl 0 rs1 dbl rd)
  | .sc dbl aq rl rd rs1 rs2 => some (aWord 3 aq rl rs2 rs1 dbl rd)
  | _ => none

/-- Decode a 32-bit controller instruction (R42, R44). -/
def decode32 (w : BitVec 32) : Except DecodeError Instr :=
  match (w.extractLsb' 0 7).toNat with
  | 0x0B => decodeCustom w
  | 0x2B => decodeCustom w
  | 0x5B => decodeCustom w
  | 0x7B => decodeCustom w
  | _ => decodeStandard w

/-! ## Compressed instructions: each is the standard instruction it expands to (R42) -/

/-- Decode a 16-bit instruction of the C extension of RV64 without F and D. -/
def decode16 (w : BitVec 16) : Except DecodeError Instr :=
  let f3 := (w.extractLsb' 13 3).toNat
  let rdc : Reg := 1#2 ++ w.extractLsb' 2 3
  let rsc : Reg := 1#2 ++ w.extractLsb' 7 3
  let rd : Reg := w.extractLsb' 7 5
  let rs2 : Reg := w.extractLsb' 2 5
  let i6 : BitVec 6 := w.extractLsb' 12 1 ++ w.extractLsb' 2 5
  let imm : BitVec 12 := i6.signExtend 12
  let shamt : BitVec 12 := i6.setWidth 12
  let immJ : BitVec 21 := ((w.extractLsb' 12 1 ++ w.extractLsb' 8 1 ++ w.extractLsb' 9 2 ++ w.extractLsb' 6 1 ++
    w.extractLsb' 7 1 ++ w.extractLsb' 2 1 ++ w.extractLsb' 11 1 ++ w.extractLsb' 3 3 ++ 0#1 : BitVec 12)).signExtend 21
  let immB : BitVec 13 := ((w.extractLsb' 12 1 ++ w.extractLsb' 5 2 ++ w.extractLsb' 2 1 ++ w.extractLsb' 10 2 ++
    w.extractLsb' 3 2 ++ 0#1 : BitVec 9)).signExtend 13
  let offW : BitVec 12 := (w.extractLsb' 5 1 ++ w.extractLsb' 10 3 ++ w.extractLsb' 6 1 ++ 0#2 : BitVec 7).setWidth 12
  let offD : BitVec 12 := (w.extractLsb' 5 2 ++ w.extractLsb' 10 3 ++ 0#3 : BitVec 8).setWidth 12
  let std (o : StdOp) : Except DecodeError Instr := .ok (.standardInstruction o)
  match (w.extractLsb' 0 2).toNat, f3 with
  | 0, 0 =>
    let n : BitVec 10 := w.extractLsb' 7 4 ++ w.extractLsb' 11 2 ++ w.extractLsb' 5 1 ++ w.extractLsb' 6 1 ++ 0#2
    if n = 0 then .error .reservedEncoding else std (.alui .addi rdc 2 (n.setWidth 12))
  | 0, 2 => .ok (.controllerLoad .lw rdc rsc offW)
  | 0, 3 => .ok (.controllerLoad .ld rdc rsc offD)
  | 0, 6 => .ok (.controllerStore .sw rsc rdc offW)
  | 0, 7 => .ok (.controllerStore .sd rsc rdc offD)
  | 1, 0 => std (.alui .addi rd rd imm)
  | 1, 1 => if rd = 0 then .error .reservedEncoding else std (.alui .addiw rd rd imm)
  | 1, 2 => std (.alui .addi rd 0 imm)
  | 1, 3 =>
    if i6 = 0 then .error .reservedEncoding
    else if rd = 2 then
      std (.alui .addi 2 2 ((w.extractLsb' 12 1 ++ w.extractLsb' 3 2 ++ w.extractLsb' 5 1 ++ w.extractLsb' 2 1 ++
        w.extractLsb' 6 1 ++ 0#4 : BitVec 10).signExtend 12))
    else std (.lui rd (i6.signExtend 20))
  | 1, 4 => match (w.extractLsb' 10 2).toNat with
    | 0 => std (.alui .srli rsc rsc shamt)
    | 1 => std (.alui .srai rsc rsc shamt)
    | 2 => std (.alui .andi rsc rsc imm)
    | _ => match w.getLsbD 12, (w.extractLsb' 5 2).toNat with
      | false, 0 => std (.alu .sub rsc rsc rdc) | false, 1 => std (.alu .xor rsc rsc rdc)
      | false, 2 => std (.alu .or rsc rsc rdc) | false, _ => std (.alu .and rsc rsc rdc)
      | true, 0 => std (.alu .subw rsc rsc rdc) | true, 1 => std (.alu .addw rsc rsc rdc)
      | true, _ => .error .reservedEncoding
  | 1, 5 => std (.jal 0 immJ)
  | 1, 6 => std (.branch .beq rsc 0 immB)
  | 1, 7 => std (.branch .bne rsc 0 immB)
  | 2, 0 => std (.alui .slli rd rd shamt)
  | 2, 2 => if rd = 0 then .error .reservedEncoding
    else .ok (.controllerLoad .lw rd 2 ((w.extractLsb' 2 2 ++ w.extractLsb' 12 1 ++ w.extractLsb' 4 3 ++ 0#2 : BitVec 8).setWidth 12))
  | 2, 3 => if rd = 0 then .error .reservedEncoding
    else .ok (.controllerLoad .ld rd 2 ((w.extractLsb' 2 3 ++ w.extractLsb' 12 1 ++ w.extractLsb' 5 2 ++ 0#3 : BitVec 9).setWidth 12))
  | 2, 4 =>
    if w.getLsbD 12 = false then
      if rs2 = 0 then (if rd = 0 then .error .reservedEncoding else std (.jalr 0 rd 0)) else std (.alu .add rd 0 rs2)
    else if rs2 = 0 then (if rd = 0 then .error .reservedEncoding else std (.jalr 1 rd 0)) else std (.alu .add rd rd rs2)
  | 2, 6 => .ok (.controllerStore .sw 2 rs2 ((w.extractLsb' 7 2 ++ w.extractLsb' 9 4 ++ 0#2 : BitVec 8).setWidth 12))
  | 2, 7 => .ok (.controllerStore .sd 2 rs2 ((w.extractLsb' 7 3 ++ w.extractLsb' 10 3 ++ 0#3 : BitVec 9).setWidth 12))
  | _, _ => .error .reservedEncoding

/-! ## Queue packets (R46, R47, R377) -/

/-- The little-endian field of n bytes at a byte offset. -/
def fieldAt (b : List Byte) (off n : Nat) : Nat := ofBytes ((b.drop off).take n)

/-- Whether every byte from one offset up to another is zero. -/
def zeroBytes (b : List Byte) (lo hi : Nat) : Bool := ((b.drop lo).take (hi - lo)).all (· == 0#8)

/-- Decode a 64-byte packet. Its header's reserved bits are ignored (R46); the bytes of the body that R377 does not
name are looked at by `junk`. -/
def decodePacket (b : List Byte) : Instr :=
  let f := fieldAt b
  let hdr (zeros : List (Nat × Nat)) : PktHdr :=
    ⟨BitVec.ofNat 8 (f 1 1), BitVec.ofNat 32 (f 4 4), zeros.any (fun z => !zeroBytes b z.1 z.2)⟩
  let a (off : Nat) : W64 := BitVec.ofNat 64 (f off 8)
  let y (off : Nat) : Byte := BitVec.ofNat 8 (f off 1)
  let run : RunBody := ⟨a 8, a 0x10, a 0x18, a 0x20, a 0x28, a 0x30, BitVec.ofNat 32 (f 0x38 4), BitVec.ofNat 32 (f 0x3C 4)⟩
  match f 0 1 with
  | 0x00 => .nopPacket (hdr [(8, 64)])
  | 0x01 => .runPacket (hdr []) run
  | 0x02 => .resumePacket (hdr []) run
  | 0x03 => .copyPacket (hdr [(0x12, 64)]) (a 8) (y 0x10) (y 0x11)
  | 0x04 => .waitsemPacket (hdr [(0x21, 64)]) (a 8) (a 0x10) (a 0x18) (y 0x20)
  | 0x05 => .signalPacket (hdr [(0x19, 64)]) (a 8) (a 0x10) (y 0x18)
  | 0x06 => .barrierPacket (hdr [(0x0A, 0x0C), (0x10, 64)]) (BitVec.ofNat 16 (f 8 2)) (BitVec.ofNat 32 (f 0x0C 4))
  | 0x07 => .indirectPacket (hdr [(0x14, 64)]) (a 8) (BitVec.ofNat 32 (f 0x10 4))
  | 0x08 => .fencePacket (hdr [(9, 64)]) (y 8)
  | 0x09 => .timestampPacket (hdr [(0x11, 64)]) (a 8) (y 0x10)
  | 0x0A => .wrdataPacket (hdr [(0x11, 0x18)]) (a 8) (y 0x10) (BitVec.ofNat 320 (f 0x18 40))
  | 0x0B => .eventPacket (hdr [(0x0C, 0x10), (0x18, 64)]) (BitVec.ofNat 32 (f 8 4)) (a 0x10)
  | 0x0C => .gaugePacket (hdr [(0x14, 0x18), (0x20, 64)]) (a 8) (y 0x10) (y 0x11) (BitVec.ofNat 16 (f 0x12 2)) (a 0x18)
  | 0x0D => .sealPacket (hdr [(8, 64)])
  | n => .badPacketType (hdr []) (BitVec.ofNat 8 n)

/-- The type byte, header flags and tag, then the body bytes of a packet. -/
def packetBytes (typ : Nat) (h : PktHdr) (body : List Byte) : List Byte :=
  (toBytes 1 typ ++ toBytes 1 h.flags.toNat ++ toBytes 2 0 ++ toBytes 4 h.ctxtag.toNat ++ body ++ toBytes 56 0).take 64

/-- The body of RUN and RESUME (R377). -/
def runBodyBytes (b : RunBody) : List Byte :=
  toBytes 8 b.image.toNat ++ toBytes 8 b.symtab.toNat ++ toBytes 8 b.triads.toNat ++ toBytes 8 b.errarea.toNat ++
  toBytes 8 b.savearea.toNat ++ toBytes 8 b.exits.toNat ++ toBytes 4 b.epool.toNat ++ toBytes 4 b.savesz.toNat

/-- The 64 bytes of a packet whose unnamed bytes are zero (R46, R47, R377). -/
def encodePacket : Instr → Option (List Byte)
  | .nopPacket h => some (packetBytes 0x00 h [])
  | .runPacket h b => some (packetBytes 0x01 h (runBodyBytes b))
  | .resumePacket h b => some (packetBytes 0x02 h (runBodyBytes b))
  | .copyPacket h card cl die => some (packetBytes 0x03 h (toBytes 8 card.toNat ++ toBytes 1 cl.toNat ++ toBytes 1 die.toNat))
  | .waitsemPacket h a v m c =>
    some (packetBytes 0x04 h (toBytes 8 a.toNat ++ toBytes 8 v.toNat ++ toBytes 8 m.toNat ++ toBytes 1 c.toNat))
  | .signalPacket h a v op => some (packetBytes 0x05 h (toBytes 8 a.toNat ++ toBytes 8 v.toNat ++ toBytes 1 op.toNat))
  | .barrierPacket h m i => some (packetBytes 0x06 h (toBytes 2 m.toNat ++ toBytes 2 0 ++ toBytes 4 i.toNat))
  | .indirectPacket h a n => some (packetBytes 0x07 h (toBytes 8 a.toNat ++ toBytes 4 n.toNat))
  | .fencePacket h sc => some (packetBytes 0x08 h (toBytes 1 sc.toNat))
  | .timestampPacket h a src => some (packetBytes 0x09 h (toBytes 8 a.toNat ++ toBytes 1 src.toNat))
  | .wrdataPacket h a n d => some (packetBytes 0x0A h (toBytes 8 a.toNat ++ toBytes 1 n.toNat ++ toBytes 7 0 ++ toBytes 40 d.toNat))
  | .eventPacket h c d => some (packetBytes 0x0B h (toBytes 4 c.toNat ++ toBytes 4 0 ++ toBytes 8 d.toNat))
  | .gaugePacket h a t op g c =>
    some (packetBytes 0x0C h (toBytes 8 a.toNat ++ toBytes 1 t.toNat ++ toBytes 1 op.toNat ++ toBytes 2 g.toNat ++
      toBytes 4 0 ++ toBytes 8 c.toNat))
  | .sealPacket h => some (packetBytes 0x0D h [])
  | _ => none

/-- Decode a 64-byte link work request (R405); none where OP names no operation. -/
def decodeWork (b : List Byte) : Option Instr :=
  let f := fieldAt b
  let zeros := [(2, 4), (0x1C, 0x20), (0x23, 0x28), (0x30, 64)]
  let r : WorkReq := ⟨BitVec.ofNat 8 (f 1 1), BitVec.ofNat 32 (f 4 4), BitVec.ofNat 64 (f 8 8), BitVec.ofNat 64 (f 0x10 8),
    BitVec.ofNat 32 (f 0x18 4), BitVec.ofNat 16 (f 0x20 2), BitVec.ofNat 8 (f 0x22 1), BitVec.ofNat 64 (f 0x28 8),
    zeros.any (fun z => !zeroBytes b z.1 z.2)⟩
  match f 0 1 with
  | 1 => some (.linkWrite r)
  | 2 => some (.linkRead r)
  | 3 => some (.linkAdd r)
  | 4 => some (.allred r)
  | _ => none

/-- The 64 bytes of a work request whose unnamed bytes are zero (R405). -/
def encodeWork (i : Instr) : Option (List Byte) :=
  let body (op : Nat) (r : WorkReq) : Option (List Byte) :=
    some (toBytes 1 op ++ toBytes 1 r.fabric.toNat ++ toBytes 2 0 ++ toBytes 4 r.ctxtag.toNat ++ toBytes 8 r.laddr.toNat ++ toBytes 8 r.raddr.toNat ++
      toBytes 4 r.len.toNat ++ toBytes 4 0 ++ toBytes 2 r.peer.toNat ++ toBytes 1 r.rtenant.toNat ++ toBytes 5 0 ++ toBytes 8 r.domain.toNat ++ toBytes 16 0)
  match i with
  | .linkWrite r => body 1 r
  | .linkRead r => body 2 r
  | .linkAdd r => body 3 r
  | .allred r => body 4 r
  | _ => none

/-! ## Any bytes, and the opcode table's words -/

/-- Decode a string of bytes by its length: 2 or 4 a controller instruction (bits 1:0 say which, R42), 6 a context
word, 64 a packet. -/
def decode (b : List Byte) : Except DecodeError Instr :=
  match b.length with
  | 2 => if bits (ofBytes b) 1 0 = 3 then .error .badLength else decode16 (BitVec.ofNat 16 (ofBytes b))
  | 4 => if bits (ofBytes b) 1 0 = 3 then decode32 (BitVec.ofNat 32 (ofBytes b)) else .error .badLength
  | 6 => decodeContext (BitVec.ofNat 48 (ofBytes b))
  | 64 => .ok (decodePacket b)
  | _ => .error .badLength

/-- The instruction the decoder reads from a row's word of the opcode table: the bytes of `w`, in ascending order,
as many as the row has bits for. -/
def decodeTableWord (nbits w : Nat) : Option Instr :=
  match decode (toBytes (nbits / 8) w) with
  | .ok i => some i
  | .error _ => none

/-- The words of a well-formed instruction, as bytes in memory order, where the spec gives it an encoding. -/
def encode (i : Instr) : Option (List Byte) :=
  match encodeContext i, encodeCustom i, encodeStandard i, encodePacket i with
  | some w, _, _, _ => some (toBytes 6 w.toNat)
  | _, some w, _, _ => some (toBytes 4 w.toNat)
  | _, _, some w, _ => some (toBytes 4 w.toNat)
  | _, _, _, some b => some b
  | _, _, _, _ => none

end Sys2Proof
end

