-- ==== Sys2Proof/Machine/Float.lean ====
section
/-! DEFINITION. The floating-point formats and their rounding (R91 to R102): decoding to exact dyadic values, exact sums
and products, `roundTo`, integer output, and the four correctly rounded functions of R111. -/
namespace Sys2Proof.Machine

/-- The floating-point formats (R91). -/
inductive Fmt where
  | f32 | bf16 | f16 | e4m3 | e5m2 | e2m1
  deriving DecidableEq, Repr

namespace Fmt
/-- Width, mantissa width, exponent bias, largest finite code and canonical NaN code of each format (R91). -/
def width : Fmt → Nat | f32 => 32 | bf16 => 16 | f16 => 16 | e4m3 => 8 | e5m2 => 8 | e2m1 => 4
def man : Fmt → Nat | f32 => 23 | bf16 => 7 | f16 => 10 | e4m3 => 3 | e5m2 => 2 | e2m1 => 1
def bias : Fmt → Nat | f32 => 127 | bf16 => 127 | f16 => 15 | e4m3 => 7 | e5m2 => 15 | e2m1 => 1
def maxCode : Fmt → Nat
  | f32 => 0x7F7FFFFF | bf16 => 0x7F7F | f16 => 0x7BFF | e4m3 => 0x7E | e5m2 => 0x7B | e2m1 => 0x7
def nanCode : Fmt → Nat
  | f32 => 0x7FC00000 | bf16 => 0x7FC0 | f16 => 0x7E00 | e4m3 => 0x7F | e5m2 => 0x7E | e2m1 => 0x0
/-- The code of +∞ where the format has one (R91). -/
def infCode : Fmt → Option Nat
  | f32 => some 0x7F800000 | bf16 => some 0x7F80 | f16 => some 0x7C00 | e5m2 => some 0x7C | e4m3 => none | e2m1 => none
/-- The exponent of the smallest normal, and of the unit of the smallest subnormal. -/
def emin (f : Fmt) : Int := 1 - f.bias
def ulow (f : Fmt) : Int := f.emin - f.man
end Fmt

/-- The rounding modes (R36, R98); SR carries the LFSR's value (R100). -/
inductive Rnd where
  | rne | rtz | rup | rdn
  | sr (lfsr : Nat)
  deriving DecidableEq, Repr

/-- The rounding mode of MOD bits 10:8. -/
def Rnd.of (mod : BitVec 4) (lfsr : W32) : Rnd :=
  match bits mod.toNat 2 0 with
  | 0 => .rne
  | 1 => .rtz
  | 2 => .rup
  | 3 => .rdn
  | _ => .sr lfsr.toNat

/-- An exact value: a number (sign, magnitude m times 2 to the e; m = 0 is the zero of its sign), an infinity, or a NaN
with the sign, mantissa and mantissa width of the operand it comes from, none for an invalid operation (R96). -/
inductive FVal where
  | num (neg : Bool) (m : Nat) (e : Int)
  | inf (neg : Bool)
  | nan (src : Option (Bool × Nat × Nat))
  deriving DecidableEq, Repr

/-- The policy bits FIN, FOUT, NANP, OVFN, SZEQ (R95). -/
def polFin (p : Byte) : Bool := p.getLsbD 0
def polFout (p : Byte) : Bool := p.getLsbD 1
def polNanp (p : Byte) : Bool := p.getLsbD 2
def polOvfn (p : Byte) : Bool := p.getLsbD 3
def polSzeq (p : Byte) : Bool := p.getLsbD 4

/-- The sign bit, exponent field and mantissa field of a code. -/
def signOf (f : Fmt) (c : Nat) : Bool := c.testBit (f.width - 1)
def expOf (f : Fmt) (c : Nat) : Nat := bits c (f.width - 2) f.man
def manOf (f : Fmt) (c : Nat) : Nat := c % 2 ^ f.man

/-- Decode a code of a format (R91); `fin` reads subnormals as zeros (R95). -/
def decodeF (f : Fmt) (fin : Bool) (code : Nat) : FVal :=
  let c := code % 2 ^ f.width
  let s := signOf f c
  let e := expOf f c
  let m := manOf f c
  let a := c % 2 ^ (f.width - 1)
  if f.infCode = some a then .inf s
  else if f ≠ .e2m1 ∧ a > f.maxCode then .nan (some (s, m, f.man))
  else if e = 0 then (if fin then .num s 0 0 else .num s m f.ulow)
  else .num s (2 ^ f.man + m) (f.ulow + (e - 1 : Int))

/-- Place a sign on a code of a format. -/
def withSign (f : Fmt) (neg : Bool) (c : Nat) : Nat := if neg then c + 2 ^ (f.width - 1) else c

/-- The NaN a word delivers in a format (R96, R116). -/
def nanOut (f : Fmt) (p : Byte) (src : Option (Bool × Nat × Nat)) : Nat :=
  match f, src with
  | .e2m1, _ => 0
  | _, none => f.nanCode
  | .e4m3, some (s, _, _) => if polNanp p then withSign f s 0x7F else f.nanCode
  | _, some (s, m, w) =>
    if polNanp p then
      let al := if f.man ≥ w then m * 2 ^ (f.man - w) else m / 2 ^ (w - f.man)
      let al := if al.testBit (f.man - 1) then al else al + 2 ^ (f.man - 1)
      withSign f s (f.infCode.getD 0 + al)
    else f.nanCode

/-- Whether a mode rounds a value of a sign towards the largest finite magnitude (R99). -/
def towardsMax (mode : Rnd) (neg : Bool) : Bool :=
  match mode with
  | .rtz => true
  | .rup => neg
  | .rdn => !neg
  | _ => false

/-- A finite value that overflows (R99). -/
def overflowOut (f : Fmt) (neg : Bool) (mode : Rnd) (p : Byte) (sat : Bool) : Nat :=
  let mx := withSign f neg f.maxCode
  match f with
  | .e2m1 => mx
  | .e4m3 => if towardsMax mode neg || sat || !polOvfn p then mx else withSign f neg 0x7F
  | .e5m2 => if towardsMax mode neg || sat || !polOvfn p then mx else withSign f neg 0x7C
  | _ => if towardsMax mode neg || sat then mx else withSign f neg (f.infCode.getD 0)

/-- An infinite input to a conversion, or an infinite result (R99, R116). -/
def infOut (f : Fmt) (neg : Bool) (p : Byte) (sat : Bool) : Nat :=
  let mx := withSign f neg f.maxCode
  match f with
  | .e2m1 => mx
  | .e4m3 => if sat || !polOvfn p then mx else withSign f neg 0x7F
  | .e5m2 => if sat || !polOvfn p then mx else withSign f neg 0x7C
  | _ => if sat then mx else withSign f neg (f.infCode.getD 0)

/-- The multiple of 2 to the g to which a magnitude m times 2 to the e rounds (the middle part of R98). -/
def roundGrid (neg : Bool) (m : Nat) (e g : Int) (mode : Rnd) : Nat :=
  if e ≥ g then m * 2 ^ (e - g).toNat
  else
    let k := min (g - e).toNat (m.log2 + 40)
    let lo := m / 2 ^ k
    let rem := m % 2 ^ k
    if rem = 0 then lo
    else match mode with
      | .rne => if 2 * rem < 2 ^ k then lo else if 2 * rem > 2 ^ k then lo + 1 else if lo % 2 = 0 then lo else lo + 1
      | .rtz => lo
      | .rup => if neg then lo else lo + 1
      | .rdn => if neg then lo + 1 else lo
      | .sr l => if l < rem * 2 ^ 32 / 2 ^ k then lo + 1 else lo

/-- RoundTo of R98: the code of a format to which an exact value rounds. -/
def roundTo (x : FVal) (f : Fmt) (mode : Rnd) (p : Byte) (sat : Bool) : Nat :=
  match x with
  | .nan src => nanOut f p src
  | .inf neg => infOut f neg p sat
  | .num neg m e =>
    if m = 0 then withSign f neg 0
    else
      let top := (m.log2 : Int) + e
      if top > 2000 then overflowOut f neg mode p sat
      else
        let ex := max top f.emin
        let q := roundGrid neg m e (ex - f.man) mode
        let code := q + (ex - f.emin).toNat * 2 ^ f.man
        if code > f.maxCode then overflowOut f neg mode p sat
        else if polFout p && code < 2 ^ f.man then withSign f neg 0
        else withSign f neg code

/-- An exact value that a format holds, after FOUT (R107, R117). -/
def exactOut (x : FVal) (f : Fmt) (p : Byte) : Nat := roundTo x f .rne p false

/-- Sv of R76: the signed value of the low w bits. -/
def sv (x w : Nat) : Int :=
  let y := x % 2 ^ w
  if y.testBit (w - 1) then (y : Int) - 2 ^ w else y

/-- Wrap of R76: the low w bits of an integer. -/
def wrapInt (v : Int) (w : Nat) : Nat := (v % 2 ^ w).toNat

/-- IntOut of R101. -/
def intOut (x : FVal) (w : Nat) (signed : Bool) (mode : Rnd) : Nat :=
  let lo : Int := if signed then -2 ^ (w - 1) else 0
  let hi : Int := if signed then 2 ^ (w - 1) - 1 else 2 ^ w - 1
  match x with
  | .nan _ => 0
  | .inf neg => wrapInt (if neg then lo else hi) w
  | .num neg m e =>
    if m = 0 then 0
    else if (m.log2 : Int) + e > 200 then wrapInt (if neg then lo else hi) w
    else
      let q : Int := roundGrid neg m e 0 mode
      wrapInt (min (max (if neg then -q else q) lo) hi) w

/-! ## Exact arithmetic -/

def FVal.neg : FVal → FVal
  | .num s m e => .num (!s) m e
  | .inf s => .inf (!s)
  | .nan x => .nan x

def FVal.isNan : FVal → Bool | .nan _ => true | _ => false
def FVal.isInf : FVal → Bool | .inf _ => true | _ => false
def FVal.isZero : FVal → Bool | .num _ 0 _ => true | _ => false
def FVal.sign : FVal → Bool | .num s _ _ => s | .inf s => s | .nan _ => false

/-- The first NaN of a list of operands (R96). -/
def firstNan : List FVal → Option FVal
  | [] => none
  | .nan x :: _ => some (.nan x)
  | _ :: t => firstNan t

/-- The exact product of two values that are not NaN; 0 × ∞ is invalid (R96, R105). -/
def mulExact (a b : FVal) : FVal :=
  match a, b with
  | .nan x, _ => .nan x
  | _, .nan x => .nan x
  | .inf s, .inf t => .inf (s != t)
  | .inf s, .num t m _ => if m = 0 then .nan none else .inf (s != t)
  | .num t m _, .inf s => if m = 0 then .nan none else .inf (s != t)
  | .num s m e, .num t n f => .num (s != t) (m * n) (e + f)

/-- The signed magnitude of a number on the grid of exponent g, for g at most its own exponent. -/
def FVal.onGrid (g : Int) : FVal → Int
  | .num s m e => let v : Int := (m * 2 ^ (e - g).toNat : Nat); if s then -v else v
  | _ => 0

/-- The least exponent of the nonzero numbers of a list. -/
def minExp : List FVal → Option Int
  | [] => none
  | .num _ m e :: t => if m = 0 then minExp t else some (match minExp t with | some g => min e g | none => e)
  | _ :: t => minExp t

/-- The exact sum of terms (R105, R112, R187): NaN if a term is NaN or the infinities differ in sign; a zero sum takes
its sign by R102. -/
def sumExact (terms : List FVal) (mode : Rnd) : FVal :=
  match firstNan terms with
  | some n => n
  | none =>
    let infs := terms.filter FVal.isInf
    match infs with
    | i :: _ => if infs.all (fun j => j.sign == i.sign) then .inf i.sign else .nan none
    | [] =>
      let g := (minExp terms).getD 0
      let v := terms.foldl (fun (a : Int) t => a + (if t.isZero then 0 else t.onGrid g)) 0
      if v = 0 then
        if terms.all (fun t => t.isZero && t.sign) then .num true 0 0
        else if terms.all (fun t => t.isZero && !t.sign) then .num false 0 0
        else .num (mode == .rdn) 0 0
      else .num (v < 0) v.natAbs g

/-- Compare two numbers exactly: whether a < b (infinities ordered; no NaN). -/
def ltExact (a b : FVal) : Bool :=
  match a, b with
  | .inf s, .inf t => s && !t
  | .inf s, _ => s
  | _, .inf t => !t
  | .num s m e, .num t n f =>
    let g := min e f
    decide ((FVal.num s m e).onGrid g < (FVal.num t n f).onGrid g)
  | _, _ => false

/-! ## The functions of R111, correctly rounded -/

/-- The integer square root, bit by bit from bit k downwards. -/
def isqrtFrom : Nat → Nat → Nat → Nat
  | 0, n, r => if (r + 1) * (r + 1) ≤ n then r + 1 else r
  | k + 1, n, r => isqrtFrom k n (if (r + 2 ^ (k + 1)) * (r + 2 ^ (k + 1)) ≤ n then r + 2 ^ (k + 1) else r)

def isqrt (n : Nat) : Nat := isqrtFrom (n.log2 / 2) n 0

/-- A magnitude known to lie at or just above q times 2 to the e, with one more bit that says whether it lies above:
it rounds as the value itself does, for every grid that is coarser than q's by two bits. -/
def sticky (neg : Bool) (q : Nat) (above : Bool) (e : Int) : FVal := .num neg (2 * q + (if above then 1 else 0)) (e - 1)

/-- 1/a for a nonzero number. -/
def recipExact (neg : Bool) (m : Nat) (e : Int) : FVal :=
  let k := m.log2 + 64
  sticky neg (2 ^ k / m) (2 ^ k % m != 0) (-(k : Int) - e)

/-- 1/√a for a positive number. -/
def rsqrtExact (m : Nat) (e : Int) : FVal :=
  let m' := if e % 2 = 0 then m else 2 * m
  let e' := if e % 2 = 0 then e else e - 1
  let k := m'.log2 + 80
  let n := 2 ^ (2 * k) / m'
  let r := isqrt n
  sticky false r (2 ^ (2 * k) % m' != 0 || r * r != n) (-(k : Int) - e' / 2)

/-- The factor 2 to the f of a binary fraction f, times 2 to the p: `f` holds the fraction's bits still to be used, its
top bit at weight 2 to the (-i), and `c` is 2 to the p times 2 to the (2 to the (-i)). -/
def exp2Frac (p : Nat) : Nat → Nat → Nat → Nat → Nat
  | 0, _, _, acc => acc
  | k + 1, f, c, acc => exp2Frac p k f (isqrt (c * 2 ^ p)) (if f.testBit k then acc * c / 2 ^ p else acc)

/-- 2 to the a of a finite number that is neither 0 nor beyond F32's range by far. -/
def exp2Exact (neg : Bool) (m : Nat) (e : Int) : FVal :=
  let w : Nat := 100
  if (m.log2 : Int) + e > 12 then (if neg then .num false 1 (-5000) else .num false 1 5000)
  else
    -- a on the grid 2 to the (-w), rounded down, and whether bits were dropped
    let num : Int := if neg then -(m : Int) else m
    let v : Int := if e + w ≥ 0 then num * 2 ^ (e + w).toNat else num / 2 ^ (-(e + w)).toNat
    let cut : Bool := if e + w ≥ 0 then false else num % 2 ^ (-(e + w)).toNat != 0
    let n : Int := v / 2 ^ w
    let f : Nat := (v % 2 ^ w).toNat
    if f = 0 && !cut then .num false 1 n
    else
      let p := 140
      sticky false (exp2Frac p w f (isqrt (2 ^ (2 * p + 1))) (2 ^ p)) true (n - p)

/-- The bits of the binary logarithm of x / 2 to the p in [1, 2), most significant first. -/
def log2Frac (p : Nat) : Nat → Nat → Nat → Nat
  | 0, _, acc => acc
  | k + 1, x, acc =>
    let y := x * x / 2 ^ p
    if y ≥ 2 ^ (p + 1) then log2Frac p k (y / 2) (2 * acc + 1) else log2Frac p k y (2 * acc)

/-- The binary logarithm of a positive number. R111 gives no sign to the zero that is the logarithm of 1.0; it is +0 here (log 86). -/
def log2Exact (m : Nat) (e : Int) : FVal :=
  let t := m.log2
  let n : Int := (t : Int) + e
  if m = 2 ^ t then (if n < 0 then .num true n.natAbs 0 else .num false n.natAbs 0)
  else
    let w := 110
    let p := 260
    let v : Int := n * 2 ^ w + log2Frac p w (m * 2 ^ (p - t)) 0
    if v ≥ 0 then sticky false v.natAbs true (-(w : Int))
    else .num true (2 * v.natAbs - 1) (-(w : Int) - 1)

end Sys2Proof.Machine
end

