-- ==== Sys2Proof/Config.lean ====
section
/-! DEFINITION. What the spec leaves open: the opaque free values of the model. No definition gives any of them a value. -/
namespace Sys2Proof.Config

/-- The n-th choice among the machine's enabled events: which agent moves next, how long a reply takes, which cache
line is evicted (R29, R171, R244, R280, R352 leave these open). -/
opaque choice : Nat → Nat
/-- The n-th free 64-bit value: a sample phase, a fuse, a sensor (R302, R355). -/
opaque freeWord : Nat → BitVec 64
/-- The calibrated latency of the sideband lane to die `d` from die `n`, in 1/256 cycle (R301). -/
opaque laneLatency : Nat → Nat → BitVec 16
/-- Whether the action of a start step succeeds (step number, choice index) (R400, R401). -/
opaque startStepOk : Nat → Nat → Bool
/-- The device's Falcon-1024 signature over a digest (R404). -/
opaque falconSign : BitVec 512 → List (BitVec 8)
/-- The vendor key whose digest is fused, and the device's identity public key (R402, R404). -/
opaque vendorKey : List (BitVec 8)
opaque identityKey : List (BitVec 8)
/-- The vendor certificate for the identity public key, which INFO returns with the key (R404). -/
opaque identityCert : List (BitVec 8)
/-- The release notes of a firmware version (R398, R402). -/
opaque infoText : Nat → List (BitVec 8)
/-- What the header of a firmware image gives: VERSION, SVN, the state-table VERSION (R402), whose layout the spec leaves open. -/
opaque fwFields : List (BitVec 8) → Nat × Nat × Nat
/-- The signature that a firmware image carries (R402). -/
opaque fwSignature : List (BitVec 8) → List (BitVec 8)
/-- The digest of the stage-one firmware (R404). -/
opaque stageOneDigest : BitVec 512
/-- The bytes of a state table of a version (R389). -/
opaque tableSize : Nat → Nat
/-- The part number that INFO writes, of a part of the A or the H kind (R398). -/
opaque partNumber : Bool → BitVec 64
/-- The bits of the scratch banks that are stuck at a cold start: cluster, bank half (16 × HALF + BANK), row, bit of the row, and the
value it is stuck at (R400, R410). Rows 0x1800 to 0x1807 are the spare rows of the bank half. -/
opaque bankFaults : Nat → List (Nat × Nat × Nat × Nat × Bool)
/-- The bits of the q files that are stuck at a cold start: cluster, register (16 × cell of the cluster + index), bit, value (R400). -/
opaque qFaults : Nat → List (Nat × Nat × Nat × Bool)
/-- The clusters at which a record transfer of the boot run fails at a cold start (R410). -/
opaque transferFails : Nat → List Nat
/-- The first of the 4 MiB slots of die 0's HBM that the firmware reserves for the boot runs (R408, R409). -/
opaque bootSlot : Nat
/-- The sections of the boot image in pages of 64 KiB: the first page of the load address, the number of pages, the first physical page
(R409). -/
opaque bootSections : List (Nat × Nat × Nat)
/-- The entry address of the controller of a run cluster index in the boot image, and the digest of the image (R408). -/
opaque bootEntry : Nat → BitVec 64
opaque bootDigest : BitVec 512
/-- The estimated power of a cluster in watts at a sample (R355, R407). -/
opaque clusterPower : Nat → Nat → Nat

end Sys2Proof.Config
end

