-- ==== Sys2Proof/Machine/State.lean ====
section
/-! DEFINITION. The state of the machine as plain data: everything the spec gives the part, and the model's own
bookkeeping (agenda, inbox, focus, choices, seq), with the state after reset. -/
namespace Sys2Proof.Machine

/-- Why a step stops. Raised by `step` alone. Safe: nothing happens in the part until the outside acts. -/
inductive Fault where
  /-- No event of the part is enabled: it has no power and no request from outside waits. Raised by `step`; safe. -/
  | stopped
  deriving DecidableEq, Repr

/-- Why an instruction has no meaning in this model. -/
inductive Refusal where
  /-- The instruction of this mnemonic has no meaning yet. Raised by `exec`; safe. -/
  | notModelled (mnemonic : String)
  deriving DecidableEq, Repr


/-- A token (R120). -/
structure Tok where
  data : W32
  rank : BitVec 2
  ord : Bool
  ctl : Bool
  deriving DecidableEq, Repr

/-- What an ordering token releases: the writes that these memory nodes issued up to a stamp, at a scope (R135, R174). The model's
own. -/
structure Rel where
  nodes : List Nat
  stamp : Nat
  scope : Nat
  deriving DecidableEq, Repr

/-- A token in a queue, with the cycles until it may be popped (R125); `wall` counts every die cycle, not the
unfrozen ones alone (R73, R182). -/
structure QTok where
  tok : Tok
  rel : Option Rel
  dist : Nat
  wall : Bool
  deriving DecidableEq, Repr

/-- A queue of tokens; `freed` counts the places freed in the cycle in progress, free from the next one (R125). -/
structure TokQ where
  toks : List QTok
  freed : Nat
  deriving DecidableEq, Repr

/-- A row of a matrix node with its head (R183). -/
structure Row where
  data : List Byte
  scale : W32
  tag : Byte
  deriving DecidableEq, Repr

/-- A row in a queue, with the die cycles until it may be taken (R182). -/
structure QRow where
  row : Row
  dist : Nat
  deriving DecidableEq, Repr

/-- A queue of rows. -/
structure RowQ where
  rows : List QRow
  freed : Nat
  deriving DecidableEq, Repr

/-! ## Cells -/

/-- What a cell's landing slot does when it lands (R334). -/
inductive SlotKind where
  | value | pred | push | valuePush | mark | psend | exit | drop | chsend
  deriving DecidableEq, Repr

/-- A landing slot of a cell (R71, R334). `its` is the stage of the word's iteration, none once it is past stage 7 or
its pass has ended; `live` is then its last liveness; `scope` is the scope at which an ordering token releases (R135, R323). -/
structure Slot where
  kind : SlotKind
  value : W32
  dest : Nat
  wq : Bool
  out : Bool
  live : Bool
  dist : Nat
  rank : BitVec 2
  ord : Bool
  rel : Option Rel
  scope : Nat
  port : Nat
  its : Option Nat
  deriving DecidableEq, Repr

/-- A value on its way to a lane register (R126). -/
structure LaneVal where
  lane : Nat
  dist : Nat
  val : Bool
  deriving DecidableEq, Repr

/-- A cell (R65). `ores1` and `ores2` are ORES one and two unfrozen cycles ago (R70). -/
structure Cell where
  q : Vector W32 16
  ores : W32
  ores1 : W32
  ores2 : W32
  g : Vector Bool 7
  ins : Vector TokQ 4
  outq : TokQ
  slots : List Slot
  lfsr : W32
  pr : BitVec 2
  pl : Vector Bool 4
  lanes : List LaneVal
  deriving DecidableEq, Repr

/-! ## Memory nodes -/

/-- What an access of a memory node does at its location (R156 to R163). -/
inductive NodeOp where
  | load (width : Nat) (sx : Bool)
  | store (width : Nat) (data : W32)
  | atom (width sub : Nat) (uns : Bool) (b c : W32)
  | lookup (key : W32)
  deriving DecidableEq, Repr

/-- A landing slot of a memory node (R152, R335): value word, ST.REL, MFENCE or GIVE. `ident` ties it to its access, or is
the stamp of its issue; `range` is GIVE's range, or the scope of a word that acquires. -/
inductive NodeSlotKind where
  | value | strel | mfence | give
  deriving DecidableEq, Repr

structure NodeSlot where
  kind : NodeSlotKind
  value : Option W32
  dq : Nat
  out : Bool
  live : Bool
  its : Option Nat
  dist : Nat
  range : Nat
  ident : Nat
  deriving DecidableEq, Repr

/-- Where a near access is: on its way to the bank (unfrozen cycles left), held for a release (R174), or on its way back
(die cycles left) (R150). -/
inductive NearState where
  | going (left : Nat)
  | waiting
  | back (left : Nat)
  deriving DecidableEq, Repr

/-- A near access in flight. `stamp` is its place in issue order, `after` the releases it must follow, `rel` that it is
a release itself. -/
structure NearAcc where
  ident : Nat
  op : NodeOp
  off : Nat
  path : Nat
  st : NearState
  stamp : Nat
  after : List Rel
  rel : Bool
  value : W32
  deriving DecidableEq, Repr

/-- What a far access does: an operation on a word, or the write-through of a line's dirty words (R159). -/
inductive FarOp where
  | word (op : NodeOp)
  | line (mask : Nat) (data : List Byte)
  deriving DecidableEq, Repr

/-- A far access in flight, in issue order: physical address, key, and what it must follow. -/
structure FarAcc where
  ident : Nat
  op : FarOp
  pa : Nat
  key : Nat
  stamp : Nat
  after : List Rel
  rel : Bool
  deriving DecidableEq, Repr

/-- A line of the coalescing buffer: physical line address, key, dirty-word mask, data (R144, R159). -/
structure CoalLine where
  pa : Nat
  key : Nat
  mask : Nat
  data : List Byte
  stamp : Nat
  deriving DecidableEq, Repr

/-- A memory node (R144). -/
structure MNode where
  mi : Vector TokQ 4
  mo : Vector TokQ 4
  mores : W32
  slots : List NodeSlot
  coal : List CoalLine
  held : Vector Bool 8
  near : List NearAcc
  far : List FarAcc
  acqs : List Rel
  acqStamp : Nat
  deriving DecidableEq, Repr

/-! ## Matrix nodes -/

/-- The kinds of a matrix node's landing slots (R337). -/
inductive XSlotKind where
  | row | rows | acc | drn | cfg | ldb | clr | swb | stat
  deriving DecidableEq, Repr

/-- A landing slot of a matrix node (R189, R337). -/
structure XSlot where
  kind : XSlotKind
  tag : Nat
  vals : List W32
  ng : Nat
  fmt : Nat
  buf : Nat
  spbase : Nat
  cancel : Bool
  ovfg : Bool
  live : Bool
  its : Option Nat
  dist : Nat
  deriving DecidableEq, Repr

/-- The B load (R195): `busy` from the MXLDB's issue until complete, `begun` from its landing. -/
structure BLoad where
  busy : Bool
  begun : Bool
  buf : Nat
  mfmt : Nat
  spbase : Nat
  taken : Nat
  deriving DecidableEq, Repr

/-- A full drain slot: its 64 values and the next token or row of it to leave (R197). -/
structure Drain where
  vals : List W32
  next : Nat
  deriving DecidableEq, Repr

/-- A matrix node (R181, R201). Accumulator element (t, n) is at key 64 t + n; B byte j of buffer b at key 4608 b + j. -/
structure XNode where
  acc : Tab W32
  bbuf : Tab Byte
  routing : Tab Byte
  active : Nat
  cfmt : Nat
  ldb : BLoad
  a0 : RowQ
  a1 : RowQ
  b : RowQ
  c : TokQ
  drains : List Drain
  drainFreed : Nat
  s : TokQ
  slots : List XSlot
  discard : Bool
  nan : Bool
  ovf : Bool
  unused : Bool
  deriving DecidableEq, Repr

/-! ## Stream engines, ports, regions -/

/-- A leaf held by a TLB (R352): virtual page and size in bytes, physical page, rights and key. -/
structure TlbEnt where
  va : Nat
  size : Nat
  pa : Nat
  w : Bool
  x : Bool
  key : Nat
  deriving DecidableEq, Repr

/-- A page port: its 4 places, and whether a tack is held there (R121, R333). -/
structure Port where
  q : TokQ
  tack : Bool
  deriving DecidableEq, Repr

/-- A reply that a read binding holds for delivery (R336), or an element that a write binding has taken, with the die cycles until
it has reached the binding (R182). -/
structure Reply where
  data : List Byte
  scale : W32
  tag : Byte
  dist : Nat
  deriving DecidableEq, Repr

/-- The kinds of binding: from memory, by an index port (R218), a trigger binding (R219). -/
inductive BindKind where
  | plain | indexed | trigger
  deriving DecidableEq, Repr

/-- A binding of a stream engine (R214 to R219, R336). `rec` is its shape record as read; `moving` once its first access
has been issued; `entry` its place in the cluster's scheduler, `ended` that a
write or trigger binding has taken its end, `acqs` the releases that its later accesses follow, `trans` the translations that its
engine holds: 0 of the pattern, 1 of the index array, 2 of the scale words (R213). -/
structure Binding where
  seq : Nat
  kind : BindKind
  start : Nat
  port : Nat
  iport : Nat
  target : Nat
  record : List Byte
  moving : Bool
  cursor : Nat
  nextIdx : Nat
  lastIdx : Nat
  moved : Nat
  addBytes : Nat
  replies : List Reply
  entry : Nat
  acqStamp : Nat
  late : Bool
  stopping : Bool
  ended : Bool
  staticB : Bool
  acqs : List Rel
  trans : Tab TlbEnt
  deriving DecidableEq, Repr

/-- A channel of a stream engine: current and pending binding, sequence numbers, and the last completed binding
(R214, R236, R336). -/
structure Chan where
  cur : Option Binding
  pend : Option Binding
  nextSeq : Nat
  lastSeq : Nat
  lastMoved : Nat
  ended : Bool
  late : Bool
  stopped : Bool
  deriving DecidableEq, Repr

/-- An owned range of a memory node (R164, R274): space 0 near, 1 to 4 a far window. -/
structure OwnRange where
  base : Nat
  len : Nat
  space : Nat
  hovr : Bool
  initHeld : Bool
  deriving DecidableEq, Repr

/-- A region (R65, R144, R181, R272): its holder (page and SREG), its units already returned, its image and its units.
Word s of ring r is at key 16 r + s. -/
structure Region where
  holder : Option (Nat × Nat)
  returned : List Nat
  words : Tab (BitVec 48)
  k : Vector W32 16
  ctab : Tab W32
  policy : Vector Byte 8
  routes : Tab Nat
  laneRoutes : Tab Nat
  ranges : List OwnRange
  inmask : Nat
  outmask : Nat
  xoff : Bool
  cells : Tab Cell
  mn : MNode
  xn : XNode
  inp : Tab Port
  outp : Tab Port
  se : Vector Chan 4
  deriving DecidableEq, Repr

/-! ## Pages -/

/-- The state of the last SVSAVE or SVLOAD of a page (R362). -/
structure SvStat where
  state : Nat
  isLoad : Bool
  code : Nat
  deriving DecidableEq, Repr

/-- A page of a run (R130, R281, R296, R326). `level` is PGSTAT's STATE. `frzTotal` counts the cycles of the frozen run in
progress with some cause other than alignment (R355), `alnRun` by cell (64 × region + cell) the cycles for which its TKALNC has paused
(R325), `atCount` the cycles since `unfrozen` took its value (R215), `opened` that the gates have opened (R319, R332). -/
structure Page where
  run : Nat
  handle : Nat
  graph : Nat
  index : Nat
  die : Nat
  wave : Nat
  w : Nat
  h : Nat
  level : Nat
  cluster : Nat
  origin : Nat
  ii : Nat
  gated : Bool
  held : Bool
  svClosed : Bool
  counter : Nat
  base : Nat
  trip : Nat
  passes : Nat
  depth : Nat
  nextIt : Nat
  passIdx : Nat
  sm : BitVec 8
  lm : BitVec 8
  exitF : Bool
  exitIt : Nat
  retiring : Bool
  unfrozen : Nat
  atCount : Nat
  opened : Bool
  goff : Nat
  lastAln : Nat
  frozen : Bool
  causes : List Nat
  frzTotal : Nat
  alnRun : Tab Nat
  capReq : Bool
  svReq : Option (Nat × Nat)
  captured : Bool
  ptime : Nat
  faulted : Bool
  openAt : Option Nat
  sv : SvStat
  freeReq : Bool
  deriving DecidableEq, Repr

/-! ## Runs -/

/-- An edge of a run (R280, R345): its pages and port codes, and its buffer once carved. `rels` ghosts its tokens. -/
structure Edge where
  ppage : Nat
  pport : Nat
  cpage : Nat
  cport : Nat
  depth : Nat
  carved : Bool
  cluster : Nat
  off : Nat
  head : Nat
  count : Nat
  freed : Bool
  tacked : Bool
  rels : List (Option Rel)
  deriving DecidableEq, Repr

/-- A command of CHOPEN or CHCLOSE in the order of the channel's node (R321): where it has taken effect, and at which end it
comes after its target. -/
structure ChanCmd where
  opens : Bool
  elastic : Bool
  target : Nat
  atSend : Bool
  atRecv : Bool
  lateSend : Bool
  lateRecv : Bool
  deriving DecidableEq, Repr

/-- A channel of a run (R306, R307, R321). Each end holds its own state: 1 closed, 2 timed, 3 elastic, 4 pending. -/
structure XChan where
  ppage : Nat
  pport : Nat
  cpage : Nat
  cport : Nat
  margin : Nat
  elastic : Bool
  closed : Bool
  node : Option Nat
  sendSt : Nat
  recvSt : Nat
  credits : Nat
  toks : List QTok
  flight : List (W64 × QTok)
  creditFlight : List W64
  fault : Bool
  detour : Bool
  eos : Bool
  lateOpen : Bool
  sendAligned : Bool
  recvAligned : Bool
  sendHeld : Bool
  recvHeld : Bool
  cmds : List ChanCmd
  tacked : Bool
  freed : Bool
  deriving DecidableEq, Repr

/-- A page entry, binding entry, ctl entry of a graph (R271). -/
structure GPage where
  comb : Nat
  die : Nat
  wave : Nat
  name : Nat
  w : Nat
  h : Nat
  deriving DecidableEq, Repr

structure GBind where
  page : Nat
  port : Nat
  start : Nat
  shapeNone : Bool
  addr : Nat
  deriving DecidableEq, Repr

structure GCtl where
  entry : Nat
  cluster : Nat
  deriving DecidableEq, Repr

/-- A reduce entry of a graph: shape 0 linear, 1 pairwise, and its n leaves (R56, R271). -/
structure GRed where
  name : Nat
  shape : Nat
  n : Nat
  deriving DecidableEq, Repr

/-- A graph of a run (R270, R271, R293): state 1 loading, 2 loaded; its page images after relocation. -/
structure Graph where
  state : Nat
  addr : Nat
  symtab : Nat
  digest : BitVec 512
  base : Nat
  chanBase : Nat
  edgeBase : Nat
  pages : List GPage
  binds : List GBind
  ctls : List GCtl
  reds : List GRed
  images : Tab (List Byte)
  deriving DecidableEq, Repr

/-- A wave in the placement queue (R277); `by'` lists the clusters whose command queues have entered it (R292). -/
structure WaveEntry where
  graph : Nat
  wave : Nat
  placed : Bool
  by' : List Nat
  deriving DecidableEq, Repr

/-- An error record (R285). -/
structure ErrRec where
  cause : Nat
  code : Nat
  page : Nat
  ring : Nat
  slot : Nat
  sreg : Nat
  cluster : Nat
  word : Nat
  addr : Nat
  tick : W64
  deriving DecidableEq, Repr

/-- Why a run is being captured (R375, R376, R384). -/
inductive SwitchWhy where
  | scheduler | timing | request
  deriving DecidableEq, Repr

/-- Where a run stands: waiting for its triads, waiting for MAP, mapped and loading, running, being captured, captured
(its records in the save area), ending in error, ended. -/
inductive RunPhase where
  | waiting | mapping | active | switching | switched | erring | done
  deriving DecidableEq, Repr

/-- A quad multicast (R298): its lead port and its followers, each a page handle and a port code. -/
structure Seam where
  lead : Nat × Nat
  followers : List (Nat × Nat)
  deriving DecidableEq, Repr

/-- A copy slot of a captured cluster as the firmware keeps it, whose copy has ended: its generation, its state and the bytes that it wrote
(R237, R239). -/
structure KeptCopy where
  slot : Nat
  gen : Nat
  state : Nat
  bytes : Nat
  deriving DecidableEq, Repr

/-- An entry of a captured cluster's scheduler: a copy, or a binding of a page, of an SREG and a channel (R228, R240). -/
inductive KeptEntry where
  | copy (slot : Nat)
  | binding (handle sreg chan : Nat)
  deriving DecidableEq, Repr

/-- What the firmware keeps of a captured cluster, by run cluster index, and its record has no field for (log 68): how many messages are
parked, the order of its scheduler's entries, and its copy slots. -/
structure Kept where
  idx : Nat
  parked : Nat
  order : List KeptEntry
  copies : List KeptCopy
  deriving DecidableEq, Repr

/-- A run (R24, R269, R285 to R289, R304, R384). `moved` says that an engine has moved a byte since the last cycle of die 0, `seen` is
the number of instructions that its controllers had then retired (R26); `timingInfo` is the INFO of the timing fault that it is being
captured for (R309, R348). -/
structure Run where
  tenant : Nat
  queue : QueueId
  ctxtag : W32
  notify : Bool
  body : RunBody
  resume : Bool
  phase : RunPhase
  triads : List Nat
  epoch : W64
  runtHold : Nat
  hanglim : Nat
  grace : Nat
  resumes : Nat
  preq : Option Bool
  graphs : Tab Graph
  waves : List WaveEntry
  edges : Tab Edge
  chans : Tab XChan
  seams : List Seam
  edrop : Bool
  hang : Nat
  moved : Bool
  seen : Nat
  graceLeft : Option Nat
  err : Option ErrRec
  traps : Tab (List Byte)
  why : SwitchWhy
  tack : Bool
  elasticAll : Bool
  resumeAt : Option W64
  mappedAt : Nat
  waitSince : Nat
  exits : List (Nat × W32)
  timingInfo : W64
  kept : List Kept
  deriving DecidableEq, Repr

/-! ## Clusters -/

/-- A line of a controller's data or instruction cache. -/
structure CacheLine where
  addr : Nat
  key : Nat
  stamp : Nat
  data : List Byte
  deriving DecidableEq, Repr

/-- A trap record (R348). -/
structure TrapRec where
  cause : Byte
  flags : Byte
  cluster : BitVec 16
  insn : W32
  pc : W64
  addr : W64
  info : W64
  tick : W64
  runt : W64
  msg : List Byte
  deriving DecidableEq, Repr

/-- What a controller does: runs no program, retires instructions, waits (R25), has halted, or has stopped for a capture
or an error (R329). -/
inductive CtlState where
  | off | running | waiting | halted | stopped
  deriving DecidableEq, Repr

/-- The half of a controller's 8-byte access that has been made (R167): where the access is, whether it was the upper half, and the
bytes read. -/
structure HalfAcc where
  pa : Nat
  key : Nat
  hi : Bool
  data : List Byte
  deriving DecidableEq, Repr

/-- A parked message, in the layout of R342. -/
structure ParkMsg where
  payload : W64
  tag : Nat
  rel : Bool
  scope : Nat
  sender : Nat
  deriving DecidableEq, Repr

/-- A cluster controller (R19, R42, R342). `fetchStamp` is the stamp from which on its fetches see every earlier write (R261), `overflow` a
message that the park buffer had no place for, whose trap comes at the next instruction boundary (R257, R346). -/
structure Ctl where
  st : CtlState
  pc : W64
  x : Vector W64 32
  insn : W32
  comp : Bool
  cycle : W64
  instret : W64
  exitv : W32
  trap : TrapRec
  dcache : List CacheLine
  icache : List CacheLine
  acqStamp : Nat
  fetchStamp : Nat
  waitFrom : Nat
  waitWord : Bool
  half : Option HalfAcc
  overflow : Option ParkMsg
  deriving DecidableEq, Repr

/-- A handler entry (R254). -/
structure Handler where
  mbase : Nat
  logn : Nat
  valid : Bool
  en : Bool
  cred : Nat
  widx : Nat
  sem : Nat
  semen : Bool
  deriving DecidableEq, Repr

/-- A gauge share (R354, R356, R365). -/
structure Gauge where
  cfg : W32
  least : Nat
  most : Nat
  count : Nat
  sum : Nat
  bins : Tab Nat
  deriving DecidableEq, Repr

/-- A footprint (R224, R228). -/
structure Foot where
  near : Bool
  write : Bool
  base : Nat
  len : Nat
  deriving DecidableEq, Repr

/-- Who entered a copy: the controller, an armed template, a COPY packet (R358, R380). -/
inductive CopyBy where
  | controller | template | packet (q : QueueId) (ctxtag : W32)
  deriving DecidableEq, Repr

/-- The states of a copy slot (R239): 1 waiting or ready, 3 moving, 4 complete, 5 cancelled; 0 never used. `tenant` is the one
whose addresses it names (R380), `trans` the translations that its engine holds: 0 and 1 of the source's pattern and index array, 2 and
3 of the destination's (R213), `insn` and `rs2` the instruction that entered it, whose rs1 is `va` (R343). `fetched` holds the bytes that
it has read and not written yet, `target` where the first of them goes and how many go there in one write (R151, R225). -/
structure Copy where
  gen : Nat
  state : Nat
  entry : Nat
  owner : CopyBy
  va : Nat
  card : List Byte
  src : Option (List Byte)
  dst : Option (List Byte)
  cursor : Nat
  bytes : Nat
  since : W64
  stamp : Nat
  acqs : List Rel
  tenant : Nat
  trans : Tab TlbEnt
  insn : W32
  rs2 : W64
  fetched : List Byte
  target : Nat × Nat
  deriving DecidableEq, Repr

/-- An entry of a cluster's scheduler (R228): a copy slot, or a binding (region, channel), its footprints, and the earlier
entries it waits for. -/
structure SchedEnt where
  ident : Nat
  copy : Option Nat
  bind : Nat × Nat
  foots : List Foot
  preds : List Nat
  deriving DecidableEq, Repr

/-- A template slot (R231). -/
structure Template where
  loaded : Bool
  armed : Bool
  queue : Nat
  fires : Nat
  card : List Byte
  src : List Byte
  dst : List Byte
  deriving DecidableEq, Repr

/-- A trigger queue with the places reserved by tokens on their way (R219, R233). -/
structure TrigQ where
  toks : List QTok
  reserved : Nat
  deriving DecidableEq, Repr

/-- A command accepted but not in effect (R205, R206, R343). `graph` is the graph that it names; a binding has the shape record, and a
CPYT the card and records, that its acceptance read, and the stamp of that acceptance (R207, R235, R238). -/
structure Cmd where
  ident : Nat
  word : W32
  instr : Instr
  rs1 : W64
  rs2 : W64
  graph : Nat
  record : List Byte
  acq : Nat
  deriving DecidableEq, Repr

/-- A cluster (R19, R243). `bankHold` lists the words that an atomic holds with
the cycles left, 1 in the cycle of the hold (R162), `bankBusy` the banks that have made their access of this cycle (R151), `copied`
the bytes that its copy engine has written on it (R225), `gtenant` is the tenant whose gauges it keeps (R354), 64 for none. -/
structure Cluster where
  owner : Option Nat
  idx : Nat
  ctl : Ctl
  sems : Tab W64
  handlers : Tab Handler
  pending : Tab Bool
  park : List ParkMsg
  tqs : Tab TrigQ
  templates : Tab Template
  copies : Tab Copy
  sched : List SchedEnt
  cmds : List Cmd
  gauges : Tab Gauge
  tlb : List TlbEnt
  pool : List (Nat × Nat)
  bankHold : List (Nat × Nat)
  bankBusy : List Nat
  copied : Nat
  gtenant : Nat
  deriving DecidableEq, Repr

/-! ## Slices, dies, networks -/

/-- A line of a slice: physical line address, way, key, dirty-word bits, data, and its stamp of filling (R178, R262). -/
structure Line where
  addr : Nat
  way : Nat
  key : Nat
  dirty : Bool
  stamp : Nat
  data : List Byte
  deriving DecidableEq, Repr

/-- A slice (R263). `lines` runs from the most to the least recently used; `modes` gives each way's mode; `leaving` is a WAYSET whose
moment has come and that waits for writers: its controller, that moment, and the new mask (R266). -/
structure Slice where
  modes : Vector (BitVec 2) 16
  wayOwn : Vector Byte 16
  retOwn : Vector Byte 8
  retValid : Vector Bool 8
  retBase : Tab Nat
  retLast : Tab Nat
  lines : List Line
  leaving : Option (Nat × Nat × Nat)
  deriving DecidableEq, Repr

/-- What a die holds of another die's clock (R300, R302): `lat` is the stored latency of their lane. The entry of a die's own number is
not used, and its registers read 0. -/
structure Waggle where
  lat : Nat
  off : Int
  rate : Int
  tlast : W64
  seen : Bool
  quiet : Nat
  deriving DecidableEq, Repr

/-- A sample on a sideband lane (R302). -/
structure Sample where
  src : Nat
  ts : W64
  poff : W64
  deriving DecidableEq, Repr

/-- An entry of a comb cache (R283): its key, the relocated values given by the image that they make. -/
structure CombEnt where
  tenant : Nat
  digest : BitVec 512
  page : Nat
  sreg : Nat
  image : List Byte
  deriving DecidableEq, Repr

/-- A die (R300, R316, R352). `links` are L01, L02 and L12; `txc` its root's translation cache, by tenant. -/
structure Die where
  tick : W64
  pktime : W64
  poff : W64
  live : Vector Bool 3
  leader : Nat
  cal : Bool
  links : Vector Bool 3
  detour : Bool
  stepped : Bool
  fenced : Bool
  wag : Vector Waggle 3
  samples : List Sample
  combs : List CombEnt
  txc : List (Nat × TlbEnt)
  deriving DecidableEq, Repr

/-- What a message on the message network does on arrival (R244). -/
inductive MsgKind where
  | add (sem : Nat) (v : W64)
  | wake (sem : Nat) (v : W64)
  | handler (m : ParkMsg)
  | trigger (tq : Nat) (t : QTok)
  | post (c pa arrive bytes : Nat)
  deriving DecidableEq, Repr

/-- A message in flight: sender (a model name of the agent) and receiving cluster (R244). `scope` pairs it (R173). -/
structure Msg where
  ident : Nat
  sender : Nat
  run : Nat
  dest : Nat
  kind : MsgKind
  deriving DecidableEq, Repr

/-! ## Tenants, queues, device -/

/-- A memory window (R367). -/
structure Window where
  base : Nat
  len : Nat
  deriving DecidableEq, Repr

/-- A packet or link queue (R368 to R373). `cur` is the packet in progress, `ind` the INDIRECT buffer's address, count and
position and `indPkt` its packet, `pre` the prefetched packets by index, `uncommit` where the queue stood before a packet whose
effects are made and not committed (R366). -/
structure Queue where
  qbase : W64
  en : Bool
  log2 : Nat
  prio : Nat
  vec : Nat
  tail : W32
  head : W32
  state : Nat
  evovf : Bool
  redo : Bool
  cause : Nat
  errtag : W32
  skip : Bool
  evbase : W64
  evEn : Bool
  evLog2 : Nat
  evTail : W32
  evHead : W32
  cur : Option (List Byte)
  started : Bool
  waitFrom : W64
  ind : Option (Nat × Nat × Nat)
  indPkt : List Byte
  uncommit : Option (W32 × Option (Nat × Nat × Nat) × List Byte)
  pre : Tab (List Byte)
  copies : List (Nat × Nat × Nat)
  copyErr : Option (Nat × W32)
  run : Option Nat
  pendingWr : Option (WorkReq × Nat)
  deriving DecidableEq, Repr

/-- A grant of remote access (R398, RGRANT). -/
structure Grant where
  peer : Nat
  ptenant : Nat
  fabric : Nat
  deriving DecidableEq, Repr

/-- A tenant (R350, R367, R398). `newWindows` take effect at its next MAP. -/
structure Tenant where
  created : Bool
  port : Nat
  triads : List Nat
  windows : Tab Window
  newWindows : Option (Tab Window)
  txroot : W64
  keys : List Nat
  signers : Tab (List Byte)
  quant : Nat
  hanglim : Nat
  grace : Nat
  grants : List Grant
  invaddr : W64
  invlen : W64
  invDone : Bool
  invStamp : Option Nat
  queues : Tab Queue
  links : Tab Queue
  lastQueue : Nat
  vectors : List Nat
  deriving DecidableEq, Repr

/-- The life-cycle states (R403). -/
inductive LifeCycle where
  | manufacture | develop | production | rma | scrap
  deriving DecidableEq, Repr

/-- The two parts (R1, R2). -/
inductive Part where
  | a | h
  deriving DecidableEq, Repr

/-- A firmware image held by a complex or the parameter store (R389, R402). -/
structure Firmware where
  version : Nat
  svn : Nat
  tableVersion : Nat
  digest : BitVec 512
  deriving DecidableEq, Repr

/-- The device's registers, fuses and stores (R396, R400 to R407). `repair` is the repair table of the parameter store, `spares` the one that
is installed, each entry with its cluster (R400, R408). -/
structure Device where
  part : Part
  lc : LifeCycle
  svnFuse : Nat
  mbaddr : W64
  mbDone : Bool
  mbStatus : Nat
  safe : Bool
  warmfail : Nat
  start : Nat
  power : Nat
  tmax : Nat
  tstep : Nat
  sinceStep : Nat
  pwrcap : Nat
  ethMode : Nat
  endpoints : Tab Nat
  keys : List Nat
  nonce : List Byte
  stored : Firmware
  repair : List (Nat × Nat)
  spares : List (Nat × Nat)
  package : Nat
  stopped : Bool
  on : Bool
  deriving DecidableEq, Repr

/-- What the firmware keeps of a run that a yielding switch has ended, by tenant and save area (R310, R338, R386): the run and its
pages by handle. -/
structure Saved where
  tenant : Nat
  area : W64
  run : Run
  pages : List (Nat × Page)
  deriving DecidableEq, Repr

/-- The queue-controller complexes (R366, R375, R389, R391). `kept` holds the completions of runs (run, STATUS, cause or reason)
that a live update holds back (R390), `loading` the firmware that the standby boots for one. -/
structure Qc where
  active : Nat
  fw : Vector Firmware 2
  committed : Nat
  lastTenant : Nat
  quiet : Nat
  loading : Option Firmware
  kept : List (Nat × Nat × Nat)
  saved : List Saved
  deriving DecidableEq, Repr

/-- A post of an all-reduce of this package or a peer (R406). -/
structure AllredPost where
  ident : Nat
  package : Nat
  value : W64
  deriving DecidableEq, Repr

/-- An answer of a peer to a work request (R406), and a remote request's answer that leaves the package. -/
structure LinkReply where
  queue : QueueId
  ok : Bool
  data : List Byte
  deriving DecidableEq, Repr

/-! ## The model's bookkeeping -/

/-- What an event or a context word acts on. -/
structure Focus where
  cluster : Nat
  region : Nat
  unit : Nat
  page : Nat
  run : Nat
  die : Nat
  chan : Nat
  num : Nat
  queue : QueueId
  flag : Bool
  deriving DecidableEq, Repr

/-- The parts of a step that no row of the table names for itself. -/
inductive Sub where
  | dieCycle        -- one cycle of a die's fabric clock (R6, R20)
  | endCycle        -- the end of an unfrozen cycle of a page
  | barPost         -- a copy's barrier post reaches its record (R244, R252)
  | stopCtl         -- a controller whose run is being captured comes to an instruction boundary (R309, R329)
  | nearAccess      -- a near access reaches its bank (R150, R151)
  | farAccess       -- the oldest far access of a node is performed
  | copyMove        -- a moving copy copies its next bytes (R225)
  | cmdEffect       -- the oldest command of a queue takes effect (R206)
  | edgeIn          -- an edge takes a token from its producer's port (R280)
  | edgeOut         -- an edge delivers its head token (R280)
  | evictCache      -- a line leaves a controller cache
  | evictTlb        -- a leaf leaves a TLB (R352)
  | pageLoaded      -- every unit of a page has acknowledged (R22)
  | mailbox         -- the firmware takes up a GO (R396)
  | packet          -- a queue's next packet starts (R370)
  | packetRetry     -- a waiting packet looks again (R382)
  | decide          -- which pages of a die freeze on this cycle, and the events of the others (R21, R73, R151)
  | prefetch        -- the processor reads a packet ahead (R371)
  | commit          -- the active complex commits a packet (R366)
  | restore         -- the records of a mapped run are checked and loaded (R338)
  | handover        -- a live update reaches its packet boundary (R390)
  | sensors         -- the power and temperature sensors are read (R396, R407)
  deriving DecidableEq, Repr

/-- An entry of the agenda: an event of the table, a controller's next instruction, a unit's word of this cycle, a part of
a step. -/
inductive Job where
  | ev (i : Instr) (f : Focus)
  | ctl (c : Nat)
  | word (region unit : Nat)
  | sub (k : Sub) (f : Focus)
  deriving DecidableEq, Repr

/-- The machine. -/
structure State where
  dev : Device
  qc : Qc
  dies : Tab Die
  clusters : Tab Cluster
  regions : Tab Region
  pages : Tab Page
  runs : Tab Run
  nextRun : Nat
  tenants : Tab Tenant
  slices : Tab Slice
  mem : List Host.Cell
  granules : Tab Nat
  resvs : Tab Nat
  msgs : List Msg
  allred : List AllredPost
  linkOut : List LinkReply
  linkIn : List LinkReply
  linkReq : List (Nat × RemoteReq)
  agenda : List Job
  inbox : List Job
  focus : Focus
  choices : Nat
  seq : Nat
  deriving DecidableEq, Repr

/-! ## The values at load and at reset -/

def TokQ.none : TokQ := ⟨[], 0⟩
def RowQ.none : RowQ := ⟨[], 0⟩
def QueueId.zero : QueueId := ⟨0, false, 0⟩
def Focus.none : Focus := ⟨0, 0, 0, 0, 0, 0, 0, 0, QueueId.zero, false⟩

/-- A cell at page load but for its LFSR (R65). -/
def Cell.load : Cell :=
  { q := Vector.replicate 16 0, ores := 0, ores1 := 0, ores2 := 0, g := Vector.replicate 7 false,
    ins := Vector.replicate 4 TokQ.none, outq := TokQ.none, slots := [], lfsr := 0, pr := 0,
    pl := Vector.replicate 4 false, lanes := [] }

/-- A memory node at page load but for its holding flags (R144). -/
def MNode.load : MNode :=
  { mi := Vector.replicate 4 TokQ.none, mo := Vector.replicate 4 TokQ.none, mores := 0, slots := [], coal := [],
    held := Vector.replicate 8 false, near := [], far := [], acqs := [], acqStamp := 0 }

/-- A matrix node at page load (R181). -/
def XNode.load : XNode :=
  { acc := [], bbuf := [], routing := [], active := 0, cfmt := 0, ldb := ⟨false, false, 0, 0, 0, 0⟩, a0 := RowQ.none,
    a1 := RowQ.none, b := RowQ.none, c := TokQ.none, drains := [], drainFreed := 0, s := TokQ.none, slots := [],
    discard := false, nan := false, ovf := false, unused := false }

def Port.load : Port := ⟨TokQ.none, false⟩

/-- A channel of a stream engine at launch (R214). -/
def Chan.load : Chan := ⟨none, none, 0, 0, 0, false, false, false⟩

/-- A free region. -/
def Region.free : Region :=
  { holder := none, returned := [], words := [], k := Vector.replicate 16 0, ctab := [], policy := Vector.replicate 8 0,
    routes := [], laneRoutes := [], ranges := [], inmask := 0, outmask := 0, xoff := false, cells := [], mn := MNode.load,
    xn := XNode.load, inp := [], outp := [], se := Vector.replicate 4 Chan.load }

def TrapRec.none : TrapRec := ⟨0, 0, 0, 0, 0, 0, 0, 0, 0, []⟩

/-- A controller that runs no program; its registers hold 0 (log 3). -/
def Ctl.reset : Ctl :=
  { st := .off, pc := 0, x := Vector.replicate 32 0, insn := 0, comp := false, cycle := 0, instret := 0, exitv := 0,
    trap := TrapRec.none, dcache := [], icache := [], acqStamp := 0, fetchStamp := 0, waitFrom := 0, waitWord := false, half := none,
    overflow := none }

/-- A handler entry at run start (R243). -/
def Handler.reset : Handler := ⟨0, 0, false, false, 0, 0, 0, false⟩

/-- A cleared gauge (R356). -/
def Gauge.cleared : Gauge := ⟨0, 0xFFFFFFFF, 0, 0, 0, []⟩

def Template.empty : Template := ⟨false, false, 0, 0, [], [], []⟩
def TrigQ.empty : TrigQ := ⟨[], 0⟩
def Copy.unused : Copy := ⟨0, 0, 0, .controller, 0, [], none, none, 0, 0, 0, 0, [], 0, [], 0, 0, [], (0, 0)⟩

/-- A cluster that no run holds. -/
def Cluster.reset : Cluster :=
  { owner := none, idx := 0, ctl := Ctl.reset, sems := [], handlers := [], pending := [], park := [], tqs := [],
    templates := [], copies := [], sched := [], cmds := [], gauges := [], tlb := [], pool := [],
    bankHold := [], bankBusy := [], copied := 0, gtenant := 64 }

/-- A slice after a start (R263). -/
def Slice.reset : Slice :=
  { modes := Vector.replicate 16 0, wayOwn := Vector.replicate 16 0xFF, retOwn := Vector.replicate 8 0xFF,
    retValid := Vector.replicate 8 false, retBase := [], retLast := [], lines := [], leaving := none }

/-- A lane of 30.25 cycles, no sample yet (log 4). -/
def Waggle.reset : Waggle := ⟨7744, 0, 0, 0, false, 0⟩

/-- A die after a start: every die live, every link up, the lanes calibrated (R300; log 4). -/
def Die.reset : Die :=
  { tick := 0, pktime := 0, poff := 0, live := Vector.replicate 3 true, leader := 0, cal := true,
    links := Vector.replicate 3 true, detour := false, stepped := true, fenced := false,
    wag := Vector.replicate 3 Waggle.reset, samples := [], combs := [], txc := [] }

/-- A queue at reset (R368, R369). -/
def Queue.reset : Queue :=
  { qbase := 0, en := false, log2 := 0, prio := 0, vec := 0, tail := 0, head := 0, state := 0, evovf := false,
    redo := false, cause := 0, errtag := 0, skip := false, evbase := 0, evEn := false, evLog2 := 0, evTail := 0,
    evHead := 0, cur := none, started := false, waitFrom := 0, ind := none, indPkt := [], uncommit := none, pre := [], copies := [], copyErr := none,
    run := none, pendingWr := none }

/-- A tenant that does not exist; the limits are those of R287, R288 and R375. -/
def Tenant.reset : Tenant :=
  { created := false, port := 0, triads := [], windows := [], newWindows := none, txroot := 0, keys := [], signers := [], quant := 2000,
    hanglim := 0x1000000, grace := 80000, grants := [], invaddr := 0, invlen := 0, invDone := true, invStamp := none, queues := [],
    links := [], lastQueue := 0, vectors := [] }

def Firmware.reset : Firmware := ⟨0, 0, 0x0100, 0⟩

/-- The device after a start (R396, R407); part, life cycle and fused counter are log 5. -/
def Device.reset : Device :=
  { part := .a, lc := .develop, svnFuse := 0, mbaddr := 0, mbDone := true, mbStatus := 0, safe := false, warmfail := 0,
    start := 0, power := 0, tmax := 0, tstep := 0, sinceStep := 0, pwrcap := 2800, ethMode := 0, endpoints := [],
    keys := [0], nonce := [], stored := Firmware.reset, repair := [], spares := [], package := 0, stopped := false, on := true }

def Qc.reset : Qc :=
  { active := 0, fw := Vector.replicate 2 Firmware.reset, committed := 0, lastTenant := 63, quiet := 0, loading := none, kept := [], saved := [] }

/-- The machine right after a successful cold start (R9, R366, R400): nothing mapped, memory unwritten. -/
def State.reset : State :=
  { dev := Device.reset, qc := Qc.reset, dies := [], clusters := [], regions := [], pages := [], runs := [],
    nextRun := 0, tenants := [], slices := [], mem := [], granules := [], resvs := [], msgs := [], allred := [],
    linkOut := [], linkIn := [], linkReq := [], agenda := [], inbox := [], focus := Focus.none, choices := 0, seq := 0 }

end Sys2Proof.Machine
end

