-- ==== Sys2Proof/Machine/Ops.lean ====
section
/-! DEFINITION. The named operations over the state: reading and writing each kind of unit, the token queues, the free
values, error records, and taking a controller trap (R346 to R348) as one operation. -/
namespace Sys2Proof.Machine

/-- What a meaning answers. -/
abbrev Ans := Host.Outcome State Fault Refusal

/-! ## Default values of table entries -/

def Page.none : Page :=
  { run := 0, handle := 0, graph := 0, index := 0, die := 0, wave := 0, w := 1, h := 1, level := 0, cluster := 0, origin := 0,
    ii := 1, gated := false, held := false, svClosed := false, counter := 0, base := 0, trip := 0, passes := 1,
    depth := 1, nextIt := 0, passIdx := 0, sm := 0, lm := 0, exitF := false, exitIt := 0, retiring := false, unfrozen := 0, atCount := 0, opened := false,
    goff := 0, lastAln := 0, frozen := false, causes := [], frzTotal := 0, alnRun := [],
    capReq := false, svReq := Option.none, captured := false, ptime := 0, faulted := false,
    openAt := Option.none, sv := ⟨0, false, 0⟩, freeReq := false }

def RunBody.zero : RunBody := ⟨0, 0, 0, 0, 0, 0, 0, 0⟩

def Run.none : Run :=
  { tenant := 0, queue := QueueId.zero, ctxtag := 0, notify := false, body := RunBody.zero, resume := false, phase := .done,
    triads := [], epoch := 0, runtHold := 0, hanglim := 0x1000000, grace := 80000, resumes := 0, preq := Option.none,
    graphs := [], waves := [], edges := [], chans := [], seams := [], edrop := false, hang := 0, moved := false, seen := 0, graceLeft := Option.none,
    err := Option.none, traps := [], why := .scheduler, tack := false, elasticAll := false, resumeAt := Option.none,
    mappedAt := 0, waitSince := 0, exits := [], timingInfo := 0, kept := [] }

def Graph.none : Graph :=
  { state := 0, addr := 0, symtab := 0, digest := 0, base := 0, chanBase := 0, edgeBase := 0, pages := [], binds := [],
    ctls := [], reds := [], images := [] }

def Edge.none : Edge := ⟨0, 0, 0, 0, 64, false, 0, 0, 0, 0, true, false, []⟩

def XChan.none : XChan :=
  { ppage := 0, pport := 0, cpage := 0, cport := 0, margin := 0, elastic := true, closed := true, node := Option.none,
    sendSt := 0, recvSt := 0, credits := 256, toks := [], flight := [], creditFlight := [], fault := false, detour := false,
    eos := false, lateOpen := false, sendAligned := false, recvAligned := false, sendHeld := false, recvHeld := false,
    cmds := [], tacked := false, freed := false }

/-! ## Reading and writing the tables of the state -/

def State.cluster (s : State) (c : Nat) : Cluster := s.clusters.get Cluster.reset c
def State.setCluster (s : State) (c : Nat) (v : Cluster) : State := { s with clusters := s.clusters.set c v }
def State.region (s : State) (r : Nat) : Region := s.regions.get Region.free r
def State.setRegion (s : State) (r : Nat) (v : Region) : State := { s with regions := s.regions.set r v }
def State.page (s : State) (p : Nat) : Page := s.pages.get Page.none p
def State.setPage (s : State) (p : Nat) (v : Page) : State := { s with pages := s.pages.set p v }
def State.run (s : State) (r : Nat) : Run := s.runs.get Run.none r
def State.setRun (s : State) (r : Nat) (v : Run) : State := { s with runs := s.runs.set r v }
def State.tenant (s : State) (t : Nat) : Tenant := s.tenants.get Tenant.reset t
def State.setTenant (s : State) (t : Nat) (v : Tenant) : State := { s with tenants := s.tenants.set t v }
def State.die (s : State) (d : Nat) : Die := s.dies.get Die.reset d
def State.setDie (s : State) (d : Nat) (v : Die) : State := { s with dies := s.dies.set d v }
def State.slice (s : State) (n : Nat) : Slice := s.slices.get Slice.reset n
def State.setSlice (s : State) (n : Nat) (v : Slice) : State := { s with slices := s.slices.set n v }
def State.ctl (s : State) (c : Nat) : Ctl := (s.cluster c).ctl
def State.setCtl (s : State) (c : Nat) (v : Ctl) : State := s.setCluster c { s.cluster c with ctl := v }
def State.cell (s : State) (r u : Nat) : Cell := (s.region r).cells.get Cell.load u
def State.setCell (s : State) (r u : Nat) (v : Cell) : State :=
  s.setRegion r { s.region r with cells := (s.region r).cells.set u v }
def State.mn (s : State) (r : Nat) : MNode := (s.region r).mn
def State.setMn (s : State) (r : Nat) (v : MNode) : State := s.setRegion r { s.region r with mn := v }
def State.xn (s : State) (r : Nat) : XNode := (s.region r).xn
def State.setXn (s : State) (r : Nat) (v : XNode) : State := s.setRegion r { s.region r with xn := v }
def State.inp (s : State) (r p : Nat) : Port := (s.region r).inp.get Port.load p
def State.setInp (s : State) (r p : Nat) (v : Port) : State := s.setRegion r { s.region r with inp := (s.region r).inp.set p v }
def State.outp (s : State) (r p : Nat) : Port := (s.region r).outp.get Port.load p
def State.setOutp (s : State) (r p : Nat) (v : Port) : State :=
  s.setRegion r { s.region r with outp := (s.region r).outp.set p v }
/-- The queue of a tenant that an identifier names (R368, R405). -/
def State.queue (s : State) (q : QueueId) : Queue :=
  let t := s.tenant q.tenant
  (if q.link then t.links else t.queues).get Queue.reset q.num
def State.setQueue (s : State) (q : QueueId) (v : Queue) : State :=
  let t := s.tenant q.tenant
  s.setTenant q.tenant (if q.link then { t with links := t.links.set q.num v } else { t with queues := t.queues.set q.num v })

/-- Channel c of a region's stream engines: 2 × engine + direction (0 read, 1 write). -/
def State.chan (s : State) (r c : Nat) : Chan := (s.region r).se[c % 4]'(Nat.mod_lt _ (by decide))
def State.setChan (s : State) (r c : Nat) (v : Chan) : State :=
  s.setRegion r { s.region r with se := (s.region r).se.set (c % 4) v (Nat.mod_lt _ (by decide)) }

/-- Put jobs at the front, or at the back, of the agenda. -/
def State.pushJobs (s : State) (l : List Job) : State := { s with agenda := l ++ s.agenda }
def State.addJob (s : State) (j : Job) : State := { s with agenda := s.agenda ++ [j] }

/-! ## Positions (R12, R281) -/

def dieOf (c : Nat) : Nat := c / 64
def groupOf (c : Nat) : Nat := c / 16 % 4
def quadOf (c : Nat) : Nat := c / 4 % 4
def triadOf (c : Nat) : Nat := c % 64
/-- A cluster's position among the four of its quad, 0 to 3. -/
def leafOf (c : Nat) : Nat := c % 4
/-- The word of CLID: a cluster's number and its position (R13). -/
def clidWord (c : Nat) : Nat :=
  c + dieOf c * 2 ^ 8 + groupOf c * 2 ^ 10 + quadOf c * 2 ^ 12 + leafOf c * 2 ^ 14 + triadOf c * 2 ^ 16
def regionCluster (r : Nat) : Nat := r / 16
/-- A run's page by its handle (R270). -/
def pidOf (run handle : Nat) : Nat := run * 256 + handle
def State.handleOf (s : State) (pid : Nat) : Nat := (s.page pid).handle

/-- The region of a page's span that an SREG names (R281). -/
def Page.region (p : Page) (sreg : Nat) : Nat :=
  p.cluster * 16 + (p.origin / 4 + sreg / p.w) * 4 + (p.origin % 4 + sreg % p.w)

/-- The regions of a page, in SREG order. -/
def Page.regions (p : Page) : List Nat := (List.range (p.w * p.h)).map p.region

/-- Usable scratchpad bytes of the part (R14). -/
def State.scrcap (s : State) : Nat := match s.dev.part with | .a => 0xC00000 | .h => 0x600000

/-- The physical address of a near offset of a cluster (R15, R147). -/
def scratchAddr (c off : Nat) : Nat := 0x010000000000 + c * 0x1000000 + off

/-- Run cluster index i of a run names this physical cluster (R269). -/
def Run.clusterAt (r : Run) (i : Nat) : Option Nat :=
  if i < 3 * r.triads.length then (r.triads[i % r.triads.length]?).map (fun t => 64 * (i / r.triads.length) + t) else Option.none

/-- The physical clusters of a run in index order (R269). -/
def Run.clusters (r : Run) : List Nat := (List.range (3 * r.triads.length)).filterMap r.clusterAt

/-- The run that holds a cluster. -/
def State.runOf (s : State) (c : Nat) : Nat := (s.cluster c).owner.getD 0

/-- Whether a copy is one of a COPY packet (R380). -/
def Copy.ofPacket (k : Copy) : Bool := match k.owner with | .packet _ _ => true | _ => false

/-- Whether the gates of a page are open: it runs, or retires after it has run (R282, R284, R319). -/
def Page.gatesOpen (p : Page) : Bool := p.level == 4 || (p.level == 5 && p.opened)

/-- A run's time, PKTIME − EPOCH on a die; it stands still while the run is captured (R304, R310). -/
def State.runt (s : State) (run d : Nat) : W64 :=
  let r := s.run run
  if r.phase = .switched then BitVec.ofNat 64 r.runtHold else (s.die d).pktime - r.epoch

/-- A page's time, RUNT − GOFF (R304). -/
def State.pageTime (s : State) (pid : Nat) : W64 :=
  let p := s.page pid
  if p.captured then BitVec.ofNat 64 p.ptime else s.runt p.run p.die - BitVec.ofNat 64 p.goff

/-! ## Free values and order stamps (the model's own) -/

/-- The next free choice below n, and the state with the choice used up (log 1). -/
def State.choose (s : State) (n : Nat) : Nat × State := (Config.choice s.choices % (max n 1), { s with choices := s.choices + 1 })

/-- A free 64-bit value, and the state with it used up. -/
def State.free (s : State) : W64 × State := (Config.freeWord s.choices, { s with choices := s.choices + 1 })

/-- A new stamp of order. -/
def State.stamp (s : State) : Nat × State := (s.seq + 1, { s with seq := s.seq + 1 })

/-! ## Token queues (R125) -/

def Tok.zero : Tok := ⟨0, 0, false, false⟩
def QTok.of (t : Tok) (rel : Option Rel := Option.none) (dist : Nat := 0) (wall : Bool := false) : QTok := ⟨t, rel, dist, wall⟩

/-- Places taken at the start of the cycle: tokens held and places freed in this cycle (R125). -/
def TokQ.used (q : TokQ) : Nat := q.toks.length + q.freed
def TokQ.room (q : TokQ) (cap : Nat) : Bool := q.used < cap
def TokQ.push (q : TokQ) (t : QTok) : TokQ := { q with toks := q.toks ++ [t] }
/-- The head token if it may be popped on this cycle. -/
def TokQ.head? (q : TokQ) : Option QTok := match q.toks with | t :: _ => if t.dist = 0 then some t else Option.none | [] => Option.none
/-- The k-th token if it may be peeked on this cycle (R136). -/
def TokQ.nth? (q : TokQ) (k : Nat) : Option QTok := match q.toks[k]? with | some t => if t.dist = 0 then some t else Option.none | Option.none => Option.none
/-- The number of tokens that may be popped on this cycle. -/
def TokQ.avail (q : TokQ) : Nat := (q.toks.takeWhile (fun t => t.dist == 0)).length
def TokQ.pop (q : TokQ) : TokQ := match q.toks with | _ :: t => ⟨t, q.freed + 1⟩ | [] => q
/-- One cycle passes: places freed become free, and distances count down, those on the wall clock always, the others
when the page was not frozen. -/
def TokQ.tick (q : TokQ) (unfrozen : Bool) : TokQ :=
  ⟨q.toks.map (fun t => if t.wall || unfrozen then { t with dist := t.dist - 1 } else t), 0⟩

def RowQ.used (q : RowQ) : Nat := q.rows.length + q.freed
def RowQ.room (q : RowQ) : Bool := q.used < 4
def RowQ.push (q : RowQ) (r : QRow) : RowQ := { q with rows := q.rows ++ [r] }
def RowQ.head? (q : RowQ) : Option Row := match q.rows with | r :: _ => if r.dist = 0 then some r.row else Option.none | [] => Option.none
def RowQ.pop (q : RowQ) : RowQ := match q.rows with | _ :: t => ⟨t, q.freed + 1⟩ | [] => q
def RowQ.tick (q : RowQ) : RowQ := ⟨q.rows.map (fun r => { r with dist := r.dist - 1 }), 0⟩

/-- The four queues of a unit by number. -/
def qAt (v : Vector TokQ 4) (n : Nat) : TokQ := v[n % 4]'(Nat.mod_lt _ (by decide))
def qSet (v : Vector TokQ 4) (n : Nat) (q : TokQ) : Vector TokQ 4 := v.set (n % 4) q (Nat.mod_lt _ (by decide))

/-- A token as the 36-bit pattern of R120, and back. -/
def Tok.bits (t : Tok) : Nat :=
  t.data.toNat + t.rank.toNat * 2 ^ 32 + (if t.ord then 2 ^ 34 else 0) + (if t.ctl then 2 ^ 35 else 0)
def Tok.ofBits (n : Nat) : Tok := ⟨BitVec.ofNat 32 n, BitVec.ofNat 2 (n / 2 ^ 32), n.testBit 34, n.testBit 35⟩

/-- Whether two clusters lie in one instance of a scope of cluster or wider (R168). -/
def inInstance (scope a b : Nat) : Bool :=
  match scope with
  | 0 | 1 => a == b
  | 2 => a / 4 == b / 4
  | 3 => dieOf a == dieOf b
  | _ => true

/-- Whether the release of an ordering token pairs with an acquire by a unit of a region, or by another agent of a cluster: both must
lie in one instance of its scope, since the acquire is at package scope (R172, R174). -/
def Rel.pairsRegion (r : Rel) (rid : Nat) : Bool :=
  if r.scope = 0 then r.nodes.contains rid else r.nodes.any (fun n => inInstance r.scope (regionCluster n) (regionCluster rid))
def Rel.pairsCluster (r : Rel) (c : Nat) : Bool := r.scope != 0 && r.nodes.any (fun n => inInstance r.scope (regionCluster n) c)

/-- The releases that the pop of a token by a unit of a region pairs with (R172 to R174). -/
def QTok.acquires (t : QTok) (rid : Nat) : List Rel := t.rel.toList.filter (fun r => r.pairsRegion rid)

/-- A memory node takes part in an acquire of an ordering token: later accesses follow the released writes, and reads of
lines homed on another die are fresh (R174, R178). -/
def State.acquireNode (s : State) (r : Nat) (t : QTok) : State :=
  if t.tok.ord then
    let m := s.mn r
    { s.setMn r { m with acqs := t.acquires r ++ m.acqs, acqStamp := s.seq }
      with seq := s.seq + 1 }
  else s

/-! ## Run errors (R285, R286) -/

/-- The cause codes of R286. -/
inductive Cause where
  | config | image | access | translation | align | owner | mxfmt | shape | index | footprint | barrier | hang | place
  | kill | trap | link
  deriving DecidableEq, Repr

def Cause.code : Cause → Nat
  | .config => 1 | .image => 2 | .access => 3 | .translation => 4 | .align => 5 | .owner => 6 | .mxfmt => 7 | .shape => 8
  | .index => 9 | .footprint => 10 | .barrier => 11 | .hang => 12 | .place => 13 | .kill => 14 | .trap => 15 | .link => 16

/-- An error record with no place named (R285). -/
def ErrRec.of (cause : Cause) (tick : W64) : ErrRec := ⟨cause.code, 0, 0xFF, 0xFF, 0xFF, 0xFF, 0xFF, 0, 0, tick⟩

/-- A run ends in error: its first error is kept, and the RUN_ERROR event follows (R285). -/
def State.raise (s : State) (run : Nat) (e : ErrRec) : State :=
  let r := s.run run
  match r.err with
  | some _ => s
  | Option.none => (s.setRun run { r with err := some e, phase := .erring }).addJob (.ev .runError { Focus.none with run := run })

/-- A fabric unit's error names its page, ring, slot, SREG and cluster index (R285). -/
def State.raiseUnit (s : State) (cause : Cause) (rid ring : Nat) (word addr : Nat) : State :=
  match (s.region rid).holder with
  | Option.none => s
  | some (pid, sreg) =>
    let p := s.page pid
    s.raise p.run { ErrRec.of cause (s.die p.die).tick with
      page := p.handle, ring := ring, slot := p.counter, sreg := sreg, cluster := (s.cluster p.cluster).idx, word := word, addr := addr }

/-- A cluster's engine or controller ends the run of its cluster in error. -/
def State.raiseCluster (s : State) (cause : Cause) (c : Nat) (word addr : Nat) : State :=
  match (s.cluster c).owner with
  | Option.none => s
  | some run => s.raise run { ErrRec.of cause (s.die (dieOf c)).tick with cluster := (s.cluster c).idx, word := word, addr := addr }

/-! ## Controller registers -/

/-- Read register x_n; x0 reads 0 (R42). -/
def Ctl.reg (c : Ctl) (n : Reg) : W64 := if n = 0 then 0 else c.x[n.toNat]'n.isLt
/-- Write register x_n; a write of x0 is discarded (R42, R43). -/
def Ctl.setReg (c : Ctl) (n : Reg) (v : W64) : Ctl := if n = 0 then c else { c with x := c.x.set n.toNat v n.isLt }
def State.reg (s : State) (c : Nat) (n : Reg) : W64 := (s.ctl c).reg n
def State.setReg (s : State) (c : Nat) (n : Reg) (v : W64) : State := s.setCtl c ((s.ctl c).setReg n v)

/-- An instruction retires: the pc moves past it and instret counts it (R42). -/
def Ctl.retire (c : Ctl) : Ctl :=
  { c with pc := c.pc + (if c.comp then 2 else 4), instret := c.instret + 1, st := .running }
def State.retire (s : State) (c : Nat) : State := s.setCtl c (s.ctl c).retire
/-- Retire with a value for rd. -/
def State.retireWith (s : State) (c : Nat) (rd : Reg) (v : W64) : State := s.setCtl c ((s.ctl c).setReg rd v).retire
/-- The controller waits in the manner of R25; its instruction stays latched. -/
def State.wait (s : State) (c : Nat) : State :=
  let k := s.ctl c
  s.setCtl c { k with st := .waiting, waitFrom := if k.st = .waiting then k.waitFrom else (s.die (dieOf c)).tick.toNat }

/-! ## Taking a trap (R346 to R348) -/

def trapCode : TrapCause → Nat
  | .illegal => 1 | .access => 2 | .translation => 3 | .misalign => 4 | .timing => 5 | .msgovf => 6

/-- The trap record of a controller as it stands (R346, R348). A synchronous trap names its instruction; the two others name
the instruction that comes next, or the one that waits. -/
def State.trapRecord (s : State) (c : Nat) (cause : TrapCause) (addr info : W64) (msg : List Byte) : TrapRec :=
  let k := s.ctl c
  let sync := cause != .timing && cause != .msgovf
  let waits := k.st == .waiting || (k.st == .stopped && k.waitWord)
  let live := k.st == .running || k.st == .waiting || k.st == .stopped
  let comp := sync && k.comp
  { cause := BitVec.ofNat 8 (trapCode cause)
    flags := BitVec.ofNat 8 (1 + (if !sync && waits then 2 else 0) + (if cause == .timing then 4 else 0) +
      (if comp then 8 else 0))
    cluster := BitVec.ofNat 16 (s.cluster c).idx
    insn := if sync then (if comp then k.insn &&& 0xFFFF else k.insn) else 0
    pc := if sync || live then k.pc else 0
    addr := addr, info := info
    tick := (s.die (dieOf c)).tick
    runt := match (s.cluster c).owner with | some r => s.runt r (dieOf c) | Option.none => 0
    msg := msg }

/-- The 64 bytes of a trap record (R348). -/
def TrapRec.bytes (t : TrapRec) : List Byte :=
  toBytes 1 t.cause.toNat ++ toBytes 1 t.flags.toNat ++ toBytes 2 t.cluster.toNat ++ toBytes 4 t.insn.toNat ++
  toBytes 8 t.pc.toNat ++ toBytes 8 t.addr.toNat ++ toBytes 8 t.info.toNat ++ toBytes 8 t.tick.toNat ++
  toBytes 8 t.runt.toNat ++ (t.msg ++ toBytes 16 0).take 16

/-- Drop every LR reservation of a controller (R180, R329). -/
def State.clearResv (s : State) (c : Nat) : State := { s with resvs := s.resvs.del c }

/-- Take a trap: the controller's trap record is written and the controller stops; a trap other than TIMING also ends the
run in error with cause TRAP, and its record goes to the error area (R346, R347). The one way a trap is taken. -/
def State.takeTrap (s : State) (c : Nat) (cause : TrapCause) (addr info : W64) (msg : List Byte := []) : State :=
  let t := s.trapRecord c cause addr info msg
  let k := s.ctl c
  let s := (s.setCtl c { k with trap := t, half := Option.none, st := if k.st = .off ∨ k.st = .halted then k.st else .stopped }).clearResv c
  if cause = .timing then s
  else match (s.cluster c).owner with
    | Option.none => s
    | some run =>
      let r := s.run run
      let s := s.setRun run { r with traps := r.traps.set (s.cluster c).idx t.bytes }
      s.raiseCluster .trap c t.insn.toNat addr.toNat

/-- An illegal-instruction trap: a reserved operand bit, or an encoding that names no instruction (R42, R45). -/
def State.illegal (s : State) (c : Nat) : State := s.takeTrap c .illegal 0 0

/-- The bits of an operand above bit n are zero. -/
def fits (v : W64) (n : Nat) : Bool := v.toNat < 2 ^ n

/-! ## Gauges (R354 to R356) -/

/-- The bin of a sample (R356). -/
def gaugeBin (v : Nat) : Nat := if v = 0 then 0 else min (v.log2 + 1) 15

def Gauge.sample (g : Gauge) (v : Nat) : Gauge :=
  let b := gaugeBin v
  { g with least := min g.least v, most := max g.most v, count := min (g.count + 1) (2 ^ 48 - 1),
           sum := min (g.sum + v) (2 ^ 64 - 1), bins := g.bins.set b (min (g.bins.get 0 b + 1) (2 ^ 32 - 1)) }

/-- Whether a gauge takes samples of an event of a die, and of a region where the event has one (R355, R356, R365). -/
def Gauge.takes (g : Gauge) (ev d : Nat) (region : Option Nat) : Bool :=
  bits g.cfg.toNat 3 0 == ev && !g.cfg.getLsbD 4 && g.cfg.getLsbD (8 + d) &&
  (match region with | some n => g.cfg.getLsbD (16 + n) | Option.none => true)

/-- An event of a cluster is sampled by the cluster's share of every gauge that selects it (R355). -/
def State.sampleGauges (s : State) (c ev v : Nat) (region : Option Nat := Option.none) : State :=
  let k := s.cluster c
  if k.gauges.any (fun g => g.2.takes ev (dieOf c) region) then
    s.setCluster c { k with gauges := k.gauges.map (fun g =>
      if g.2.takes ev (dieOf c) region then (g.1, g.2.sample (min v (2 ^ 32 - 1))) else g) }
  else s

end Sys2Proof.Machine
end

