-- ==== Sys2Proof/Machine/Flags.lean ====
section
/-! DEFINITION. Predicates: guards (R32, R127), predicate selectors (R139), and the relations that CMP and FCMP write
(R87, R109). The part has no other flags: predicates g0 to g6 are its flags. -/
namespace Sys2Proof.Machine

/-- Predicate n of a file, 7 being the constant true (R32, R139). -/
def predAt (g : Vector Bool 7) (n : Nat) : Bool := if h : n < 7 then g[n] else true

/-- Write predicate n. -/
def predSet (g : Vector Bool 7) (n : Nat) (v : Bool) : Vector Bool 7 := if h : n < 7 then g.set n v else g

/-- The value of a guard field: bits 2:0 select, bit 3 inverts (R32). -/
def guardVal (g : Vector Bool 7) (grd : BitVec 4) : Bool :=
  predAt g (grd.extractLsb' 0 3).toNat != grd.getLsbD 3

/-- The value of a predicate selector: bits 2:0 select, bit 3 inverts (R139). -/
def predSel (g : Vector Bool 7) (sel : BitVec 6) : Bool :=
  predAt g (sel.extractLsb' 0 3).toNat != sel.getLsbD 3

/-- The relations of CMP (R87). -/
inductive CmpRel where
  | eq | ne | ltS | ltZ | leS | leZ
  deriving DecidableEq, Repr

def CmpRel.holds (r : CmpRel) (a b : W32) : Bool :=
  match r with
  | .eq => a == b
  | .ne => a != b
  | .ltS => a.slt b
  | .ltZ => a.ult b
  | .leS => a.sle b
  | .leZ => a.ule b

/-- The relations of FCMP (R109). -/
inductive FcmpRel where
  | eq | lt | le | un
  deriving DecidableEq, Repr

/-- A relation of FCMP under a policy: operands decoded under FIN, every relation but UN false on a NaN, the zeros
equal (R109). -/
def FcmpRel.holds (r : FcmpRel) (p : Byte) (a b : W32) : Bool :=
  let x := decodeF .f32 (polFin p) a.toNat
  let y := decodeF .f32 (polFin p) b.toNat
  let un := x.isNan || y.isNan
  match r with
  | .un => un
  | .lt => !un && ltExact x y
  | .le => !un && !ltExact y x
  | .eq => !un && !ltExact x y && !ltExact y x

end Sys2Proof.Machine
end

