-- ==== Sys2Proof/Machine/Operands.lean ====
section
/-! DEFINITION. How a cell word issues (R66 to R76, R127, R129): its iteration, its guard, its sources in every form of R33,
the pops of R34, and the landing slot it takes. -/
namespace Sys2Proof.Machine

/-- What a word's issue is about: its unit, its page, its stage, and whether its iteration is live. -/
structure Issue where
  rid : Nat
  unit : Nat
  pid : Nat
  stage : Nat
  live : Bool
  deriving DecidableEq, Repr

/-- The page and SREG of a region that holds one. -/
def State.pageOf (s : State) (rid : Nat) : Nat := match (s.region rid).holder with | some (pid, _) => pid | none => 0
def State.sregOf (s : State) (rid : Nat) : Nat := match (s.region rid).holder with | some (_, n) => n | none => 0

/-- The regions that a page still holds, in SREG order: a retiring page gives them back one by one (R23, R284). -/
def State.regionsOf (s : State) (pid : Nat) : List Nat :=
  (s.page pid).regions.filter (fun rid => match (s.region rid).holder with | some (q, _) => q == pid | none => false)

/-- Whether a stage of a page holds an iteration, and whether it holds a live one (R67, R130). -/
def Page.started (p : Page) (stg : Nat) : Bool := !p.retiring && p.sm.getLsbD stg
def Page.liveAt (p : Page) (stg : Nat) : Bool := p.started stg && p.lm.getLsbD stg

/-- The stage of the newest iteration in progress. -/
def lowestSet (m : BitVec 8) : Nat := ((List.range 8).find? m.getLsbD).getD 0

/-- The iteration index at a stage, modulo 2³² (R66, R131). -/
def Page.iteration (p : Page) (stg : Nat) : Nat := (p.nextIt + 2 ^ 32 - 1 + lowestSet p.sm - stg) % 2 ^ 32

/-- A word of stage STG and guard GRD of the focused unit issues as `k` says, unless its stage holds no iteration or its
guard is false: then it does nothing (R67, R76, R127). Guards of memory and matrix nodes read cell (0,0) (R144, R181). -/
def withIssue (s : State) (stg : BitVec 3) (grd : BitVec 4) (k : Issue → State) : State :=
  let rid := s.focus.region
  let u := s.focus.unit
  let pid := s.pageOf rid
  let p := s.page pid
  let g := (s.cell rid (if u < 64 then u else 0)).g
  if p.started stg.toNat && guardVal g grd then k ⟨rid, u, pid, stg.toNat, p.liveAt stg.toNat⟩ else s

/-- The physical register that a q name denotes under rotation base B (R68). -/
def physQ (base n : Nat) : Nat := (n + 16 - base % 16) % 16

/-- A q register by its name at issue. -/
def Cell.qReg (c : Cell) (base n : Nat) : W32 := c.q[physQ base n]'(Nat.mod_lt _ (by decide))

/-- ORES of the neighbour in a direction (0 north, 1 east, 2 south, 3 west) as the cell sees it: one unfrozen cycle old, two
across a seam, zero outside the page (R33, R70). -/
def State.neighbourOres (s : State) (x : Issue) (dir : Nat) : W32 :=
  let p := s.page x.pid
  let sreg := s.sregOf x.rid
  let gx := sreg % p.w * 8 + x.unit % 8
  let gy := sreg / p.w * 8 + x.unit / 8
  let t : Option (Nat × Nat) := match dir with
    | 0 => if gy = 0 then none else some (gx, gy - 1)
    | 1 => if gx + 1 < p.w * 8 then some (gx + 1, gy) else none
    | 2 => if gy + 1 < p.h * 8 then some (gx, gy + 1) else none
    | _ => if gx = 0 then none else some (gx - 1, gy)
  match t with
  | none => 0
  | some (nx, ny) =>
    let n := ny / 8 * p.w + nx / 8
    let c := s.cell (p.region n) (ny % 8 * 8 + nx % 8)
    if n = sreg then c.ores1 else c.ores2

/-- The head token that a queue selector gives the word: the all-zero token in a dead iteration (R34, R129). -/
def State.srcTok (s : State) (x : Issue) (sel : BitVec 6) : QTok :=
  if x.live then ((qAt (s.cell x.rid x.unit).ins (sel.toNat % 4)).head?).getD (QTok.of Tok.zero) else QTok.of Tok.zero

/-- The value of a source selector of a cell ring (R33). -/
def State.src (s : State) (x : Issue) (sel : BitVec 6) (imm : BitVec 8) : W32 :=
  let c := s.cell x.rid x.unit
  let p := s.page x.pid
  let r := s.region x.rid
  let n := sel.toNat
  if n < 0x10 then c.qReg p.base n
  else if n < 0x18 then (s.srcTok x sel).tok.data
  else if n < 0x1C then s.neighbourOres x (n - 0x18)
  else if n = 0x1C then c.ores
  else if n = 0x1D then imm.signExtend 32
  else if n = 0x1E then r.ctab.get 0 imm.toNat
  else if n = 0x1F then 0
  else if n < 0x30 then r.k[(n - 0x20) % 16]'(Nat.mod_lt _ (by decide))
  else if n = 0x30 then BitVec.ofNat 32 (p.iteration x.stage)
  else if n = 0x31 then BitVec.ofNat 32 p.passIdx
  else 0

/-- The queues that a word's sources pop, each once (R34). -/
def poppedQueues (sels : List (BitVec 6)) : List Nat :=
  (sels.filterMap (fun v => if 0x10 ≤ v.toNat ∧ v.toNat < 0x14 then some (v.toNat - 0x10) else none)).eraseDups

/-- Pop one input queue of a cell; a popped ordering token is an acquire of the region's memory node (R174). -/
def State.popIn (s : State) (rid u n : Nat) : State :=
  let c := s.cell rid u
  match (qAt c.ins n).head? with
  | none => s
  | some t => (s.setCell rid u { c with ins := qSet c.ins n (qAt c.ins n).pop }).acquireNode rid t

/-- Pop the queues that a live word's sources name (R34, R129). -/
def State.popSrcs (s : State) (x : Issue) (sels : List (BitVec 6)) : State :=
  if x.live then (poppedQueues sels).foldl (fun s n => s.popIn x.rid x.unit n) s else s

/-- Occupy a landing slot of the issuing cell (R71). -/
def State.addSlot (s : State) (x : Issue) (sl : Slot) : State :=
  let c := s.cell x.rid x.unit
  s.setCell x.rid x.unit { c with slots := c.slots ++ [sl] }

/-- A landing slot of the word's iteration, `lat` unfrozen cycles away. -/
def Issue.slot (x : Issue) (kind : SlotKind) (lat : Nat) (value : W32) : Slot :=
  { kind := kind, value := value, dest := 0, wq := false, out := false, live := x.live, dist := lat, rank := 0, ord := false,
    rel := none, scope := 0, port := 0, its := some x.stage }

/-- Deliver a value per R35: to ORES, to q[DQ] if WQ, as a token if OUT. -/
def State.deliver (s : State) (x : Issue) (lat : Nat) (dq : BitVec 4) (wq out : Bool) (v : W32) : State :=
  s.addSlot x { x.slot .value lat v with dest := physQ (s.page x.pid).base dq.toNat, wq := wq, out := out }

/-- Deliver a predicate to g[DQ] (R35). -/
def State.deliverPred (s : State) (x : Issue) (lat : Nat) (dq : BitVec 4) (v : Bool) : State :=
  s.addSlot x { x.slot .pred lat (if v then 1 else 0) with dest := dq.toNat }

/-- A C2 word that delivers f of its two sources after `lat` cycles (R76). A word with one source ignores the second. -/
def valueWord2 (lat : Nat) (w : C2) (f : W32 → W32 → W32) (s : State) : State :=
  withIssue s w.stg w.grd fun x =>
    (s.popSrcs x [w.sa, w.sb]).deliver x lat w.dq w.wq w.out (f (s.src x w.sa w.imm8) (s.src x w.sb w.imm8))

/-- A C3 word that delivers f of its three sources after `lat` cycles (R76). -/
def valueWord3 (lat : Nat) (w : C3) (f : W32 → W32 → W32 → W32) (s : State) : State :=
  withIssue s w.stg w.grd fun x =>
    (s.popSrcs x [w.sa, w.sb, w.sc]).deliver x lat w.dq w.wq w.out (f (s.src x w.sa 0) (s.src x w.sb 0) (s.src x w.sc 0))

/-- A C2 word that writes a predicate of its two sources (R76, R87). -/
def predWord2 (lat : Nat) (w : C2) (f : W32 → W32 → Bool) (s : State) : State :=
  withIssue s w.stg w.grd fun x =>
    (s.popSrcs x [w.sa, w.sb]).deliverPred x lat w.dq (f (s.src x w.sa w.imm8) (s.src x w.sb w.imm8))

/-- The policy entry that FPM selects (R95). -/
def State.policy (s : State) (rid : Nat) (fpm : BitVec 3) : Byte := (s.region rid).policy[fpm.toNat]'fpm.isLt

/-- One step of the stochastic-rounding LFSR (R100). -/
def lfsrStep (l : W32) : W32 := if l.getLsbD 0 then (l >>> 1) ^^^ 0x80200003 else l >>> 1

/-- The LFSR steps once, on issue, if the mode is SR (R100, R102). -/
def State.stepLfsr (s : State) (x : Issue) (mod : BitVec 4) : State :=
  if bits mod.toNat 2 0 = 4 then
    let c := s.cell x.rid x.unit
    s.setCell x.rid x.unit { c with lfsr := lfsrStep c.lfsr }
  else s

/-- What a floating-point operation computes with: policy, rounding mode, SAT (R102). -/
structure FpEnv where
  pol : Byte
  rnd : Rnd
  sat : Bool

def State.fpEnv (s : State) (x : Issue) (fpm : BitVec 3) (mod : BitVec 4) : FpEnv :=
  ⟨s.policy x.rid fpm, Rnd.of mod (lfsrStep (s.cell x.rid x.unit).lfsr), mod.getLsbD 3⟩

/-- A floating-point C2 word (R102). -/
def floatWord2 (lat : Nat) (w : C2) (f : FpEnv → W32 → W32 → W32) (s : State) : State :=
  withIssue s w.stg w.grd fun x =>
    ((s.popSrcs x [w.sa, w.sb]).stepLfsr x w.mod).deliver x lat w.dq w.wq w.out
      (f (s.fpEnv x w.fpm w.mod) (s.src x w.sa w.imm8) (s.src x w.sb w.imm8))

/-- A floating-point C3 word (R102). -/
def floatWord3 (lat : Nat) (w : C3) (f : FpEnv → W32 → W32 → W32 → W32) (s : State) : State :=
  withIssue s w.stg w.grd fun x =>
    ((s.popSrcs x [w.sa, w.sb, w.sc]).stepLfsr x w.mod).deliver x lat w.dq w.wq w.out
      (f (s.fpEnv x w.fpm w.mod) (s.src x w.sa 0) (s.src x w.sb 0) (s.src x w.sc 0))

end Sys2Proof.Machine
end

