-- ==== Sys2Proof/Machine/CrossDie.lean ====
section
/-! DEFINITION. Channels between dies and alignment (R304 to R325): the cell words, the controller instructions, and the
arrival of tokens, credits and commands. -/
namespace Sys2Proof.Machine

/-! ## Channels -/

/-- The link between two dies: L01, L02, L12 (R300). -/
def linkUp (s : State) (a b : Nat) : Bool := a == b || (s.die a).links[(a + b - 1) % 3]'(Nat.mod_lt _ (by decide))

/-- The page at an end of a channel, and its die. -/
def XChan.pageAt (c : XChan) (run : Nat) (send : Bool) : Nat := pidOf run (if send then c.ppage else c.cpage)
def State.chanDie (s : State) (run : Nat) (c : XChan) (send : Bool) : Nat := (s.page (c.pageAt run send)).die

/-- The channel of a run with an end at a port of a page's region (R271, R312). -/
def State.chanAt (s : State) (pid sreg port : Nat) (send : Bool) : Option (Nat × XChan) :=
  let p := s.page pid
  List.find? (fun (e : Nat × XChan) =>
    if send then e.2.ppage == p.handle && e.2.pport == port + 32 * sreg
    else e.2.cpage == p.handle && e.2.cport == port + 32 * sreg) (s.run p.run).chans

def State.chanOf (s : State) (run h : Nat) : XChan := (s.run run).chans.get XChan.none h
def State.setChanOf (s : State) (run h : Nat) (c : XChan) : State :=
  let r := s.run run
  s.setRun run { r with chans := r.chans.set h c }

/-- The latency of a token or a credit in package time (R306, R315). -/
def XChan.latency (c : XChan) : Nat := if c.detour then 64 else 40

/-- An end's state as it acts: a pending end acts as elastic; so do a timed end from a SWITCH, and every end from a timing fault (`fault`),
until the capture is complete (R307, R309, R310). 1 closed, 2 timed, 3 elastic. -/
def chanActs (elasticAll fault : Bool) (st : Nat) : Nat := if st = 4 ∨ (elasticAll ∧ (st = 2 ∨ (fault ∧ st = 1))) then 3 else st

/-- A push takes a credit and is in the node when the package time at the receiver has advanced by the latency (R306). -/
def State.chanPush (s : State) (run h : Nat) (t : QTok) : State :=
  let c := s.chanOf run h
  let at' := (s.die (s.chanDie run c true)).pktime + BitVec.ofNat 64 c.latency
  s.setChanOf run h { c with credits := c.credits - 1, flight := c.flight ++ [(at', t)] }

/-- A tack follows the tokens that a page has pushed into its channels, and takes no credit (R340). -/
def State.chanTacks (s : State) (pid : Nat) : State :=
  let p := s.page pid
  let r := s.run p.run
  let pk (c : XChan) : W64 := (s.die (s.chanDie p.run c true)).pktime + BitVec.ofNat 64 c.latency
  s.setRun p.run { r with chans := r.chans.map fun (e : Nat × XChan) =>
    (e.1, if e.2.ppage = p.handle ∧ !e.2.freed then { e.2 with flight := e.2.flight ++ [(pk e.2, QTok.of ⟨0, 0, false, true⟩)] } else e.2) }

/-- A pop returns a credit to the sender, and notes an end of stream (R306, R321). -/
def State.chanPop (s : State) (run h : Nat) : State :=
  let c := s.chanOf run h
  match c.toks with
  | [] => s
  | t :: rest =>
    let at' := (s.die (s.chanDie run c false)).pktime + BitVec.ofNat 64 c.latency
    s.setChanOf run h { c with toks := rest, creditFlight := c.creditFlight ++ [at'], eos := c.eos || t.tok.rank == 3 }

/-- A channel leaves the detour once its link is up and nothing is in flight on it (R317). -/
def State.endDetour (s : State) (run h : Nat) : State :=
  let c := s.chanOf run h
  if c.detour && c.flight.isEmpty && c.creditFlight.isEmpty && linkUp s (s.chanDie run c true) (s.chanDie run c false) then
    s.setChanOf run h { c with detour := false }
  else s

/-- WGSTAT.DETOUR of each die: a channel received there runs over two links (R315, R317). -/
def State.refreshDetour (s : State) : State :=
  (List.range 3).foldl (fun s d =>
    let any := s.runs.any (fun r => r.2.chans.any (fun c => c.2.detour && !c.2.freed && s.chanDie r.1 c.2 false == d))
    if (s.die d).detour = any then s else s.setDie d { s.die d with detour := any }) s

/-- A pending channel whose two ends have aligned is timed (R307). -/
def XChan.timedIfAligned (c : XChan) : XChan :=
  if c.sendSt = 4 ∧ c.recvSt = 4 ∧ c.sendAligned ∧ c.recvAligned then { c with sendSt := 2, recvSt := 2 } else c

/-- A page has completed an alignment in which it paused: every pending channel end of the page is aligned (R307). -/
def State.alignPage (s : State) (pid : Nat) : State :=
  let p := s.page pid
  let r := s.run p.run
  s.setRun p.run { r with chans := r.chans.map fun e =>
    let c := e.2
    (e.1, XChan.timedIfAligned { c with
      sendAligned := c.sendAligned || (c.ppage == p.handle && c.sendSt == 4),
      recvAligned := c.recvAligned || (c.cpage == p.handle && c.recvSt == 4) }) }

/-! ## Cell words -/

/-- CHSEND: a slot that pushes into the port's channel at landing (R323). -/
def chsendWord (w : C2) (s : State) : State :=
  withIssue s w.stg w.grd fun x =>
    (s.popSrcs x [w.sa]).addSlot x { x.slot .chsend 1 (s.src x w.sa w.imm8) with
      rank := w.mod.extractLsb' 0 2, ord := w.imm8.getLsbD 5, scope := 4, port := bits w.imm8.toNat 4 0 }

/-- CHRECV: the head token of the port's channel, popped (R324). -/
def chrecvWord (w : C2) (s : State) : State :=
  withIssue s w.stg w.grd fun x =>
    let ch := s.chanAt x.pid (s.sregOf x.rid) (bits w.imm8.toNat 3 0) false
    let t : QTok := match x.live, ch with
      | true, some (_, c) => (c.toks.head?).getD (QTok.of Tok.zero)
      | _, _ => QTok.of Tok.zero
    let s := match x.live, ch with
      | true, some (h, _) => (s.chanPop (s.page x.pid).run h).acquireNode x.rid t
      | _, _ => s
    s.addSlot x { x.slot (if w.out then .valuePush else .value) 1 t.tok.data with
      dest := physQ (s.page x.pid).base w.dq.toNat, wq := w.wq, rank := t.tok.rank, ord := t.tok.ord, rel := t.rel }

/-- TKALNC issues: its page's last alignment target moves on, and a pause that the word itself made is sampled and aligns the page's
channels (R308, R325). -/
def tkalncWord (w : C2) (s : State) : State :=
  withIssue s w.stg w.grd fun x =>
    let tgt := (s.src x w.sa w.imm8 + s.src x w.sb w.imm8).toNat
    let s := s.popSrcs x [w.sa, w.sb]
    if x.live then
      let p := s.page x.pid
      let now := (s.pageTime x.pid).toNat
      let s := s.setPage x.pid { p with lastAln := max p.lastAln (now - (now + 2 ^ 64 - tgt) % 2 ^ 32) }
      let run := p.alnRun.get 0 (64 * x.rid + x.unit)
      if 0 < run then (s.alignPage x.pid).sampleGauges p.cluster 3 run (some p.origin) else s
    else s

def execChsend (w : C2) (s : State) : Ans := .next (chsendWord w s)
def execChrecv (w : C2) (s : State) : Ans := .next (chrecvWord w s)
def execTkalnc (w : C2) (s : State) : Ans := .next (tkalncWord w s)

/-! ## Events of the channels -/

/-- A token in flight is present in the node once the receiver's package time allows (R306). A tack is held behind the node's
tokens (R340). -/
def chanArrive (run h : Nat) (s : State) : State :=
  let c := s.chanOf run h
  match c.flight with
  | (at', t) :: rest =>
    if at'.ule (s.die (s.chanDie run c false)).pktime then
      let c := { c with flight := rest }
      (s.setChanOf run h (if t.tok.ctl then { c with tacked := true } else { c with toks := c.toks ++ [t] })).endDetour run h |>.refreshDetour
    else s
  | [] => s

/-- A returned credit counts once the sender's package time allows (R306). -/
def creditArrive (run h : Nat) (s : State) : State :=
  let c := s.chanOf run h
  match c.creditFlight with
  | at' :: rest =>
    if at'.ule (s.die (s.chanDie run c true)).pktime then
      (s.setChanOf run h { c with creditFlight := rest, credits := c.credits + 1 }).endDetour run h |>.refreshDetour
    else s
  | [] => s

/-- One command takes effect at one end (R307, R321). -/
def XChan.applyCmd (c : XChan) (k : ChanCmd) (send : Bool) : XChan :=
  let old := if send then c.sendSt else c.recvSt
  let late := k.opens && (if send then k.lateSend else k.lateRecv)
  let st := if !k.opens then 1 else if k.elastic then 3 else 4
  let al := st == 4 && old == 1 && !late && (if send then c.sendHeld else c.recvHeld)
  XChan.timedIfAligned (if send then { c with sendSt := st, sendAligned := al, lateOpen := c.lateOpen || late }
    else { c with recvSt := st, recvAligned := al, lateOpen := c.lateOpen || late })

/-- Whether a command, as it takes effect at its target, releases a channel word held on a closed channel: an alignment of the end's
region (R307). -/
def XChan.releases (c : XChan) (k : ChanCmd) (send : Bool) : Bool :=
  k.opens && !(if send then k.lateSend else k.lateRecv) && (if send then c.sendSt == 1 && c.sendHeld else c.recvSt == 1 && c.recvHeld)

/-- Every command whose turn and target have come takes effect at one end, in the node's order; a command that has taken
effect at both ends is gone. The Bool says whether one of them released a held word. -/
def chanEffects (now : Nat) (send : Bool) : List ChanCmd → XChan → XChan × List ChanCmd × Bool
  | [], c => (c, [], false)
  | k :: t, c =>
    let fin := if send then k.atSend else k.atRecv
    if fin || !k.opens || k.target ≤ now then
      let rel := !fin && c.releases k send
      let c := if fin then c else c.applyCmd k send
      let k := if send then { k with atSend := true } else { k with atRecv := true }
      let (c, l, r) := chanEffects now send t c
      (c, if k.atSend && k.atRecv then l else k :: l, rel || r)
    else (c, k :: t, false)

/-- The commands that wait at an end whose target has come, while the end cannot act on them: they will take effect after it (R321). -/
def lateWhile (now : Nat) (send : Bool) (l : List ChanCmd) : List ChanCmd :=
  l.map (fun k => if !k.opens || decide (now < k.target) then k else if send then { k with lateSend := true } else { k with lateRecv := true })

/-- CHANNEL_COMMAND_EFFECT (R307, R321). Run time stands still once the run is captured, and so do its channels' commands (R304); while it
is being captured they take effect. A command that arrives before the channel's gates have opened waits for them (log 95). -/
def chanCommand (run h : Nat) (send : Bool) (s : State) : State :=
  let c := s.chanOf run h
  let r := s.run run
  let now := (s.runt run (s.chanDie run c send)).toNat
  if (r.phase ≠ .active ∧ r.phase ≠ .switching) ∨ r.resumeAt.isSome then s
  else if c.sendSt = 0 then s.setChanOf run h { c with cmds := lateWhile now send c.cmds }
  else
    let (c', l, released) := chanEffects now send c.cmds c
    let s := s.setChanOf run h { c' with cmds := l }
    if released then s.alignPage (c.pageAt run send) else s

def execChannelTokenArrival (s : State) : Ans := .next (chanArrive s.focus.run s.focus.chan s)
def execCreditReturn (s : State) : Ans := .next (creditArrive s.focus.run s.focus.chan s)
def execChannelCommandEffect (s : State) : Ans := .next (chanCommand s.focus.run s.focus.chan s.focus.flag s)

/-! ## Controller instructions -/

/-- The refusal code STALE of a command that names nothing of the run (R291). -/
def staleCode : W64 := BitVec.ofNat 64 (2 ^ 63 + 7)

def tkrdOp (rd : Reg) (s : State) : State :=
  let c := s.focus.cluster
  s.retireWith c rd (s.die (dieOf c)).tick

/-- PKRD (R319). A page whose gates are not open reads all ones. -/
def pkrdOp (rd rs1 : Reg) (s : State) : State :=
  let c := s.focus.cluster
  let v := s.reg c rs1
  let sel := bits v.toNat 1 0
  if sel = 3 ∨ bits v.toNat 7 2 ≠ 0 ∨ !fits v 16 then s.illegal c
  else
    let run := s.runOf c
    let t : W64 := match sel with
      | 0 => (s.die (dieOf c)).pktime
      | 1 => s.runt run (dieOf c)
      | _ =>
        let p := s.page (pidOf run (bits v.toNat 15 8))
        if p.gatesOpen ∧ p.run = run then s.runt run (dieOf c) - BitVec.ofNat 64 p.goff else BitVec.allOnes 64
    s.retireWith c rd t

/-- A 32-bit two's complement pattern that saturates (R300). -/
def sat32 (v : Int) : Nat := (min (max v (-2 ^ 31)) (2 ^ 31 - 1) % 2 ^ 32).toNat

/-- TKDRF (R319). -/
def tkdrfOp (rd rs1 : Reg) (s : State) : State :=
  let c := s.focus.cluster
  let v := s.reg c rs1
  let d := s.die (dieOf c)
  if h : v.toNat < 3 then
    let w := d.wag[v.toNat]
    s.retireWith c rd (if v.toNat = dieOf c then 0 else if !d.live[v.toNat] then 0x8000000080000000
      else BitVec.ofNat 64 (sat32 w.off + sat32 w.rate * 2 ^ 32))
  else s.illegal c

def sat32u (n : Nat) : Nat := min n (2 ^ 32 - 1)

/-- TKALN retires once run time has reached the target, and waits until then (R320). -/
def tkalnOp (rd rs1 : Reg) (s : State) : State :=
  let c := s.focus.cluster
  let k := s.ctl c
  let tgt := (s.reg c rs1).toNat
  let now := (s.runt (s.runOf c) (dieOf c)).toNat
  if now < tgt then s.wait c
  else
    let paused := if k.st = .waiting then (s.die (dieOf c)).tick.toNat - k.waitFrom else 0
    let late := if k.st = .waiting then 0 else now - tgt
    let s := if 0 < paused then s.sampleGauges c 3 paused else s
    s.retireWith c rd (BitVec.ofNat 64 (sat32u paused + sat32u late * 2 ^ 32))

/-- A CHOPEN or CHCLOSE reaches both ends in the node's order (R321). -/
def chanCmdOp (rd rs1 : Reg) (width : Nat) (mk : W64 → ChanCmd) (s : State) : State :=
  let c := s.focus.cluster
  let v := s.reg c rs1
  let run := s.runOf c
  let h := bits v.toNat 7 0
  if !fits v width then s.illegal c
  else match (s.run run).chans.find? h with
    | none => s.retireWith c rd staleCode
    | some ch =>
      let k := mk v
      let lateAt (send : Bool) : Bool := k.opens && (decide (k.target < (s.runt run (s.chanDie run ch send)).toNat) ||
        ch.cmds.any (fun j => j.opens && k.target < j.target && !(if send then j.atSend else j.atRecv)))
      let k := { k with lateSend := lateAt true, lateRecv := lateAt false }
      (s.setChanOf run h { ch with cmds := ch.cmds ++ [k] }).retireWith c rd 0

def chopenOp (rd rs1 rs2 : Reg) (s : State) : State :=
  chanCmdOp rd rs1 9 (fun v => ⟨true, v.getLsbD 8, (s.reg s.focus.cluster rs2).toNat, false, false, false, false⟩) s
def chcloseOp (rd rs1 : Reg) (s : State) : State :=
  chanCmdOp rd rs1 8 (fun _ => ⟨false, false, 0, false, false, false, false⟩) s

/-- The status word of CHSTAT (R321), from the node's end. -/
def XChan.status (c : XChan) : W64 :=
  BitVec.ofNat 64 (max 1 (min c.recvSt 3) + (if c.recvSt = 4 then 4 else 0) + (if c.fault then 8 else 0) +
    (if c.detour then 16 else 0) + (if c.eos then 32 else 0) + (if c.lateOpen then 64 else 0) +
    c.toks.length * 2 ^ 16 + c.margin * 2 ^ 32)

def chstatOp (rd rs1 : Reg) (s : State) : State :=
  let c := s.focus.cluster
  let v := s.reg c rs1
  if !fits v 8 then s.illegal c
  else s.retireWith c rd (match (s.run (s.runOf c)).chans.find? v.toNat with | none => 0 | some ch => ch.status)

def execTkrd (rd : Reg) (s : State) : Ans := .next (tkrdOp rd s)
def execPkrd (rd rs1 : Reg) (s : State) : Ans := .next (pkrdOp rd rs1 s)
def execTkdrf (rd rs1 : Reg) (s : State) : Ans := .next (tkdrfOp rd rs1 s)
def execTkaln (rd rs1 : Reg) (s : State) : Ans := .next (tkalnOp rd rs1 s)
def execChopen (rd rs1 rs2 : Reg) (s : State) : Ans := .next (chopenOp rd rs1 rs2 s)
def execChclose (rd rs1 : Reg) (s : State) : Ans := .next (chcloseOp rd rs1 s)
def execChstat (rd rs1 : Reg) (s : State) : Ans := .next (chstatOp rd rs1 s)

end Sys2Proof.Machine
end

