-- ==== Sys2Proof/Machine/Matrix.lean ====
section
/-! DEFINITION. The words of a matrix node (R181 to R202): what they do at issue and at landing, and the B load. -/
namespace Sys2Proof.Machine

/-! ## Formats and products (R183 to R186) -/

/-- The format of a CFMT or MFMT code, bit 3 ignored (R184). -/
def mxFmt (code : Nat) : Fmt :=
  match code % 8 with
  | 0 => .e4m3
  | 1 => .e5m2
  | 2 => .e2m1
  | 3 => .bf16
  | _ => .f16

/-- Physical depth K, groups NG, whether blocks have scales (R184). -/
def mxDepth (code : Nat) : Nat := match code % 8 with | 0 => 64 | 1 => 64 | 2 => 128 | _ => 32
def mxGroups (code : Nat) : Nat := mxDepth code / 16
def mxScaled (code : Nat) : Bool := decide (code % 8 < 3)

/-- Element e of packed bytes in a format (R183). -/
def elemAt (f : Fmt) (byte : Nat → Byte) (e : Nat) : Nat :=
  match f.width with
  | 4 => (byte (e / 2)).toNat / 16 ^ (e % 2) % 16
  | 8 => (byte e).toNat
  | _ => (byte (2 * e)).toNat + 256 * (byte (2 * e + 1)).toNat

/-- Scale byte j of a row head (R183). -/
def Row.scaleByte (r : Row) (j : Nat) : Nat := r.scale.toNat / 256 ^ j % 256

/-- Byte j of a B buffer (R185). -/
def XNode.bByte (x : XNode) (buf j : Nat) : Byte := x.bbuf.get 0 (4608 * buf + j)

/-- Element (k, n) of a B buffer, and the scale code of column n for a logical block (R185). -/
def XNode.bElem (x : XNode) (code buf k n : Nat) : Nat :=
  let f := mxFmt code
  elemAt f (fun j => x.bByte buf (k * (8 * f.width) + j)) n
def XNode.bScale (x : XNode) (buf j n : Nat) : Nat := (x.bByte buf (4096 + 64 * j + n)).toNat

/-- The selector of physical row p and column n at a routing base (R185). -/
def XNode.sel (x : XNode) (spbase p n : Nat) : Nat :=
  let i := 64 * p + n
  (x.routing.get 0 (16 * spbase + i / 4)).toNat / 4 ^ (i % 4) % 4

/-- The logical element that physical row p of column n multiplies (R185). -/
def XNode.logical (x : XNode) (spbase p n : Nat) : Nat := 4 * (p / 2) + x.sel spbase p n

/-- The exact product of two elements with their scale codes (R186). -/
def mxProduct (f : Fmt) (scaled : Bool) (a sa b sb : Nat) : FVal :=
  if scaled && (sa == 255 || sb == 255) then .nan none
  else match mulExact (decodeF f false a) (decodeF f false b) with
    | .num s m e => .num s m (if scaled then e + (sa : Int) + sb - 254 else e)
    | v => v

/-- F32 rounding in the node: RNE under the policy byte 0 (R186). -/
def mxRound (v : FVal) : W32 := BitVec.ofNat 32 (roundTo v .f32 .rne 0 false)
def mxDec (v : W32) : FVal := decodeF .f32 false v.toNat

/-- Whether an F32 pattern is infinite, is a NaN. -/
def isInf32 (v : W32) : Bool := (mxDec v).isInf
def isNan32 (v : W32) : Bool := (mxDec v).isNan

/-- One rounded group sum, and whether it is infinite though its operands are finite (R187, R201). -/
def groupSum (terms : List FVal) : W32 × Bool :=
  let v := sumExact terms .rne
  let r := mxRound v
  (r, isInf32 r && !v.isInf)

/-- The sums S(n, g) of a firing, in the order NG n + g, and whether one overflowed (R187, R188). `row l` gives element l and
its scale code, `lg` the logical element of a physical row and column. -/
def firingSums (x : XNode) (code buf : Nat) (row : Nat → Nat × Nat) (lg : Nat → Nat → Nat) : List W32 × Bool :=
  let f := mxFmt code
  let sums := (List.range 64).flatMap fun n =>
    (List.range (mxGroups code)).map fun g =>
      groupSum ((List.range 16).map fun i =>
        let p := 16 * g + i
        let l := lg p n
        let (a, sa) := row l
        mxProduct f (mxScaled code) a sa (x.bElem code buf p n) (x.bScale buf (l / 32) n))
  (sums.map Prod.fst, sums.any Prod.snd)

/-! ## Issue -/

/-- The row tag (R37). -/
def State.mxTag (s : State) (x : Issue) (w : Mx) (head : Byte) : Nat :=
  let p := s.page x.pid
  let t := w.tsrc.toNat
  let a := w.accrow.toNat
  if t = 0 then a
  else if t = 1 then (a + p.iteration x.stage) % 256
  else if t = 2 then (a + p.passIdx) % 256
  else if t = 3 then head.toNat
  else (a + ((s.region x.rid).k[(t - 0x20) % 16]'(Nat.mod_lt _ (by decide))).toNat) % 256

/-- The buffer that BSEL names at issue (R37). -/
def XNode.buffer (x : XNode) (bsel : BitVec 2) : Nat :=
  match bsel.toNat with
  | 0 => 0
  | 1 => 1
  | 2 => x.active
  | _ => 1 - x.active

def Issue.xslot (x : Issue) (kind : XSlotKind) (lat : Nat) : XSlot :=
  { kind := kind, tag := 0, vals := [], ng := 0, fmt := 0, buf := 0, spbase := 0, cancel := false, ovfg := false,
    live := x.live, its := some x.stage, dist := lat }

def State.addXSlot (s : State) (x : Issue) (sl : XSlot) : State :=
  let n := s.xn x.rid
  s.setXn x.rid { n with slots := n.slots ++ [sl] }

/-- A firing in a dead iteration, or one that only keeps its slot (R191). -/
def State.deadFiring (s : State) (x : Issue) (kind : XSlotKind) : State := s.addXSlot x (x.xslot kind 8)

def rowNone : Row := ⟨List.replicate 64 0, 0, 0⟩
def Row.byte (r : Row) (j : Nat) : Byte := (r.data[j]?).getD 0

/-- The format check of a firing, in a dead iteration as well, since its word issues there (R67, R202). -/
def State.mxError (s : State) (x : Issue) : State :=
  s.raiseUnit .mxfmt x.rid x.unit ((s.region x.rid).words.get 0 (16 * x.unit + (s.page x.pid).counter)).toNat 0

/-- MXROW (R187). -/
def mxrowWord (w : Mx) (s : State) : State :=
  withIssue s w.stg w.grd fun x =>
    let n := s.xn x.rid
    let code := w.mfmt.toNat
    if code % 8 ≠ n.cfmt then s.mxError x
    else if !x.live then s.deadFiring x .row
    else
        let r := (n.a0.head?).getD rowNone
        let (v, o) := firingSums n code (n.buffer w.bsel)
          (fun l => (elemAt (mxFmt code) r.byte l, r.scaleByte (l / 32))) (fun p _ => p)
        let tag := s.mxTag x w r.tag
        (s.setXn x.rid { n with a0 := n.a0.pop }).addXSlot x
          { x.xslot .row 8 with tag := tag, vals := v, ng := mxGroups code, ovfg := o }

/-- MXROWS (R188). -/
def mxrowsWord (w : Mx) (s : State) : State :=
  withIssue s w.stg w.grd fun x =>
    let n := s.xn x.rid
    let code := w.mfmt.toNat
    if code % 8 ≠ n.cfmt then s.mxError x
    else if !x.live then s.deadFiring x .rows
    else
        let r := (n.a0.head?).getD rowNone
        let q := (n.a1.head?).getD rowNone
        let e := mxDepth code
        let nb := e / 32
        let row (l : Nat) : Nat × Nat :=
          (if l < e then elemAt (mxFmt code) r.byte l else elemAt (mxFmt code) q.byte (l - e),
           if l / 32 < nb then r.scaleByte (l / 32) else q.scaleByte (l / 32 - nb))
        let (v, o) := firingSums n code (n.buffer w.bsel) row (n.logical w.spbase.toNat)
        let tag := s.mxTag x w r.tag
        (s.setXn x.rid { n with a0 := n.a0.pop, a1 := n.a1.pop }).addXSlot x
          { x.xslot .rows 8 with tag := tag, vals := v, ng := mxGroups code, ovfg := o }

/-- MXACC (R199): 64 tokens of c. -/
def mxaccWord (w : Mx) (s : State) : State :=
  withIssue s w.stg w.grd fun x =>
    if !x.live then s.deadFiring x .acc
    else
      let n := s.xn x.rid
      let ts := n.c.toks.take 64
      let tag := s.mxTag x w 0
      let s := s.setXn x.rid { n with c := { toks := n.c.toks.drop 64, freed := n.c.freed + ts.length } }
      let s := ts.foldl (fun s t => s.acquireNode x.rid t) s
      s.addXSlot x { x.xslot .acc 8 with tag := tag, vals := ts.map (fun t => t.tok.data) }

/-- MXDRN reads an accumulator row (R197). -/
def mxdrnWord (w : Mx) (s : State) : State :=
  withIssue s w.stg w.grd fun x =>
    if !x.live then s.addXSlot x (x.xslot .drn 6)
    else
      let tag := s.mxTag x w 0
      s.addXSlot x { x.xslot .drn 6 with tag := tag, vals := (List.range 64).map (fun n => (s.xn x.rid).acc.get 0 (64 * tag + n)) }

/-- MXLDB: a B load is in progress from its issue (R195). -/
def mxldbWord (w : Mx) (s : State) : State :=
  withIssue s w.stg w.grd fun x =>
    if !x.live then s.addXSlot x (x.xslot .ldb 1)
    else
      let n := s.xn x.rid
      let b := n.buffer w.bsel
      (s.setXn x.rid { n with ldb := ⟨true, false, b, w.mfmt.toNat, w.spbase.toNat, 0⟩ }).addXSlot x
        { x.xslot .ldb 1 with fmt := w.mfmt.toNat, buf := b, spbase := w.spbase.toNat }

/-- The MXSTAT register (R201). -/
def XNode.stat (n : XNode) : W32 :=
  BitVec.ofNat 32 (n.cfmt + 8 * n.active + (if n.ldb.busy then 16 else 0) + 32 * n.ldb.buf + 64 * n.drains.length +
    (if n.discard then 256 else 0) + (if n.nan then 512 else 0) + (if n.ovf then 1024 else 0) +
    (if n.unused then 2048 else 0) + n.ldb.taken * 2 ^ 16)

/-- A word that only takes a slot with operands resolved at issue (R194, R196, R198, R200); in a dead iteration it takes the slot
as well (R189), whose landing then has no effect (R191). -/
def mxSlotWord (w : Mx) (f : State → Issue → XSlot) (s : State) : State :=
  withIssue s w.stg w.grd fun x => s.addXSlot x (f s x)

def execMxcfg (w : Mx) (s : State) : Ans := .next (mxSlotWord w (fun _ x => { x.xslot .cfg 1 with fmt := w.mfmt.toNat }) s)
def execMxldb (w : Mx) (s : State) : Ans := .next (mxldbWord w s)
def execMxrow (w : Mx) (s : State) : Ans := .next (mxrowWord w s)
def execMxrows (w : Mx) (s : State) : Ans := .next (mxrowsWord w s)
def execMxdrn (w : Mx) (s : State) : Ans := .next (mxdrnWord w s)
def execMxclr (w : Mx) (s : State) : Ans := .next (mxSlotWord w (fun s x => { x.xslot .clr 1 with tag := s.mxTag x w 0 }) s)
def execMxswb (w : Mx) (s : State) : Ans := .next (mxSlotWord w (fun _ x => { x.xslot .swb 1 with buf := w.bsel.toNat }) s)
def execMxacc (w : Mx) (s : State) : Ans := .next (mxaccWord w s)
def execMxstat (w : Mx) (s : State) : Ans := .next (mxSlotWord w (fun s x => { x.xslot .stat 1 with vals := [(s.xn x.rid).stat] }) s)
/-- MXNOP has no effect (R200). -/
def execMxnop (_ : Mx) (s : State) : Ans := .next s

/-! ## Landing (R187, R189, R194 to R201) -/

/-- A write of MXSTAT: each of DISCARD, NAN and OVF that it names is cleared (R8, R201). -/
def XNode.writeStat (n : XNode) (v : W64) : XNode :=
  { n with discard := n.discard && !v.getLsbD 8, nan := n.nan && !v.getLsbD 9, ovf := n.ovf && !v.getLsbD 10 }

/-- Add a value into an accumulator element, and note NaN and overflow (R187, R201). -/
def XNode.accAdd (n : XNode) (key : Nat) (v : W32) : XNode :=
  let a := n.acc.get 0 key
  let r := mxRound (sumExact [mxDec a, mxDec v] .rne)
  { n with acc := n.acc.set key r, nan := n.nan || isNan32 r,
           ovf := n.ovf || (isInf32 r && !isInf32 a && !isInf32 v && !isNan32 a && !isNan32 v) }

/-- Add the values of a landing slot into row t, ng groups to a column in increasing order. -/
def XNode.accRow (n : XNode) (t ng : Nat) (vals : List W32) : XNode :=
  ((List.range 64).flatMap (fun c => (List.range ng).map (fun g => (64 * t + c, (vals[ng * c + g]?).getD 0)))).foldl
    (fun n p => n.accAdd p.1 p.2) n

/-- A slot lands, in an iteration of this liveness; `sl.live` is that of its issue. An MXDRN that was live at its issue and is dead at its
landing fills no drain slot (R191; log 91). -/
def XNode.land (n : XNode) (sl : XSlot) (live : Bool) : XNode :=
  match sl.kind with
  | .row | .rows =>
    if live && !sl.cancel && !sl.vals.isEmpty then
      let n := n.accRow sl.tag sl.ng sl.vals
      { n with ovf := n.ovf || sl.ovfg }
    else n
  | .acc => if live && !sl.cancel && !sl.vals.isEmpty then n.accRow sl.tag 1 sl.vals else n
  | .drn => if live then { n with drains := n.drains ++ [⟨sl.vals, 0⟩] } else n
  | .cfg =>
    if live && n.cfmt != sl.fmt then
      { n with cfmt := sl.fmt, acc := [], discard := true,
               slots := n.slots.map (fun k => if k.kind == .row || k.kind == .rows || k.kind == .acc then { k with cancel := true } else k) }
    else n
  | .ldb =>
    if live then { n with ldb := { n.ldb with begun := true } }
    -- the load of a word that was live at its issue never begins; one that was dead then has no load (R191, R195)
    else if sl.live then { n with ldb := { n.ldb with busy := false } } else n
  | .clr => if live then { n with acc := n.acc.filter (fun e => e.1 / 64 != sl.tag) } else n
  | .swb => if live then { n with active := n.buffer (BitVec.ofNat 2 sl.buf) } else n
  | .stat => if live then { n with s := n.s.push (QTok.of ⟨(sl.vals[0]?).getD 0, 0, false, false⟩) } else n

/-- The bits that a landing MXSTAT of a live iteration read as 1 are cleared before the cycle's other landings (R191, R200). -/
def XNode.clearRead (n : XNode) (sl : XSlot) (live : Bool) : XNode :=
  if sl.kind == .stat && live then
    let v := (sl.vals[0]?).getD 0
    { n with discard := n.discard && !v.getLsbD 8, nan := n.nan && !v.getLsbD 9, ovf := n.ovf && !v.getLsbD 10 }
  else n

/-! ## The B load (R195) -/

/-- Scale rows and routing rows of a load (R195). -/
def scaleRows (mfmt : Nat) : Nat :=
  match mfmt % 8 with
  | 0 => if mfmt < 8 then 2 else 4
  | 1 => if mfmt < 8 then 2 else 4
  | 2 => if mfmt < 8 then 4 else 8
  | _ => 0
def routingRows (mfmt : Nat) : Nat := if mfmt < 8 then 0 else 16 * mxDepth mfmt / 64
def loadRows (mfmt : Nat) : Nat := 64 + scaleRows mfmt + routingRows mfmt

def setBytes (t : Tab Byte) (a : Nat) (d : List Byte) : Tab Byte := (d.zipIdx).foldl (fun t p => t.set (a + p.2) p.1) t

/-- A load in progress takes the head row of b (R195). -/
def XNode.takeB (n : XNode) : XNode :=
  if n.ldb.busy && n.ldb.begun then
    match n.b.head? with
    | none => n
    | some r =>
      let j := n.ldb.taken
      let e := 64 + scaleRows n.ldb.mfmt
      let n := { n with b := n.b.pop, ldb := { n.ldb with taken := j + 1, busy := decide (j + 1 < loadRows n.ldb.mfmt) } }
      if j < 64 then { n with bbuf := setBytes n.bbuf (4608 * n.ldb.buf + 64 * j) r.data }
      else if j < e then { n with bbuf := setBytes n.bbuf (4608 * n.ldb.buf + 4096 + 64 * (j - 64)) r.data }
      else { n with routing := setBytes n.routing (16 * n.ldb.spbase + 64 * (j - e)) r.data }
  else n

def execBLoadRow (s : State) : Ans := .next (s.setXn s.focus.region (s.xn s.focus.region).takeB)

/-! ## What freezes the region (R190) -/

/-- A word that would issue in a live iteration finds no row, or a load on its buffer. -/
def XNode.blocked (n : XNode) (i : Instr) : Bool :=
  let loading (b : Nat) : Bool := n.ldb.busy && n.ldb.buf == b
  match i with
  | .mxrow w => n.a0.head?.isNone || loading (n.buffer w.bsel)
  | .mxrows w => n.a0.head?.isNone || n.a1.head?.isNone || loading (n.buffer w.bsel)
  | .mxacc _ => decide (n.c.avail < 64)
  | .mxldb _ => n.ldb.busy
  | .mxswb w => loading (n.buffer w.bsel)
  | _ => false

/-- A drain slot is free at the start of the cycle (R197). -/
def XNode.drainFree (n : XNode) (k : Nat) : Bool := decide (n.drains.length + n.drainFreed + k ≤ 2)

end Sys2Proof.Machine
end

