-- ==== Sys2Proof/Machine/Memory.lean ====
section
/-! DEFINITION. Memory: the physical address map (R15, R16), encrypted HBM in granules (R399), the slice tree (R17, R178, R179,
R262 to R265), translation (R350 to R352), and the reads and writes that every agent makes through them. -/
namespace Sys2Proof.Machine

/-! ## The byte memory, in canonical form -/

/-- What an address that memory does not list reads as (R399; log 2). -/
def unlisted : Byte := 0

/-- Addresses strictly rising from `lo`, and no entry equal to what an unlisted address reads as. -/
def memWfFrom : Nat → List Host.Cell → Bool
  | _, [] => true
  | lo, (a, b) :: t => decide (lo ≤ a) && b != unlisted && memWfFrom (a + 1) t

/-- The canonical form of memory. -/
def Memory.wf (m : List Host.Cell) : Bool := memWfFrom 0 m

def memGet : List Host.Cell → Nat → Byte
  | [], _ => unlisted
  | (a, b) :: t, n => if a = n then b else memGet t n

/-- Write one byte; writing what an unlisted address reads as removes the entry. -/
def memSet : List Host.Cell → Nat → Byte → List Host.Cell
  | [], n, v => if v = unlisted then [] else [(n, v)]
  | (a, b) :: t, n, v =>
    if n < a then (if v = unlisted then (a, b) :: t else (n, v) :: (a, b) :: t)
    else if n = a then (if v = unlisted then t else (n, v) :: t)
    else (a, b) :: memSet t n v

/-- Remove every listed byte of a range. -/
def memClear (m : List Host.Cell) (lo n : Nat) : List Host.Cell := m.filter (fun c => !(decide (lo ≤ c.1) && decide (c.1 < lo + n)))

def memPut (m : List Host.Cell) : Nat → List Byte → List Host.Cell
  | _, [] => m
  | a, b :: t => memPut (memSet m a b) (a + 1) t

def memBytes (m : List Host.Cell) (a n : Nat) : List Byte := (List.range n).map (fun i => memGet m (a + i))

/-! ## The address map (R15, R16, R264) -/

inductive Target where
  | hbm (die : Nat)
  | scratch (c off : Nat)
  | slice (n off : Nat)
  | reg
  | host
  | none
  deriving DecidableEq, Repr

/-- What a physical address names (R15). Slice n is 21 × die + number (R263). -/
def targetOf (pa : Nat) : Target :=
  if pa < 0xC000000000 then .hbm (pa / 0x4000000000)
  else if 0x10000000000 ≤ pa ∧ pa < 0x10000000000 + 192 * 0x1000000 then
    .scratch ((pa - 0x10000000000) / 0x1000000) (pa % 0x1000000)
  else if 0x20000000000 ≤ pa ∧ pa < 0x30000000000 then
    let o := pa - 0x20000000000
    let d := o / 0x1000000000
    let n := o % 0x1000000000 / 0x4000000
    if d < 3 ∧ n < 21 then .slice (21 * d + n) (o % 0x4000000) else .none
  else if 0x30000000000 ≤ pa ∧ pa < 0x30000000000 + 192 * 0x100000 then .reg
  else if 0x31000000000 ≤ pa ∧ pa < 0x31100000000 then .reg
  else if 0x800000000000 ≤ pa ∧ pa < 0x1000000000000 then .host
  else .none

/-- The HBM stack that holds an address: stack 4d + s of its die, in pieces of 4 KiB (R12, R15). -/
def stackOf (pa : Nat) : Option Nat :=
  match targetOf pa with
  | .hbm d => some (4 * d + pa / 4096 % 4)
  | _ => none

/-- The target kind of R364: HBM, scratch window, slice scratch, host memory. -/
def Target.kind : Target → Nat
  | .scratch _ _ => 1
  | .slice _ _ => 2
  | .host => 3
  | _ => 0

/-- Bytes of slice n: 4, 16 and 64 MiB (R11). -/
def sliceSize (n : Nat) : Nat := if n % 21 < 16 then 0x400000 else if n % 21 < 20 then 0x1000000 else 0x4000000
def sliceSets (n : Nat) : Nat := sliceSize n / 2048

/-- Mode of a way: 0 cache, 1 retain, 2 scratch (R263). -/
def Slice.mode (sl : Slice) (w : Nat) : Nat := (sl.modes[w % 16]'(Nat.mod_lt _ (by decide))).toNat
def Slice.ownerOf (sl : Slice) (w : Nat) : Nat := (sl.wayOwn[w % 16]'(Nat.mod_lt _ (by decide))).toNat

/-- Whether a physical address is backed for a tenant (R14 to R16, R264). -/
def State.backed (s : State) (tenant pa : Nat) : Bool :=
  match targetOf pa with
  | .hbm _ => true
  | .scratch _ off => off < s.scrcap
  | .slice n off =>
    let w := off / (sliceSize n / 16)
    off < sliceSize n && (s.slice n).mode w == 2 && (s.slice n).ownerOf w == tenant
  | .host => true
  | _ => false

/-- The slices on a cluster's path: its quad, its group, its die's root (R262). -/
def rootSlice (d : Nat) : Nat := 21 * d + 20
def pathSlices (c : Nat) : List Nat := [21 * dieOf c + c / 4 % 16, 21 * dieOf c + 16 + groupOf c, rootSlice (dieOf c)]

/-! ## HBM behind the root slices (R399) -/

def lineOf (pa : Nat) : Nat := pa / 128 * 128

/-- HBM bytes as read through a key: zero where the granule is unwritten or tagged otherwise. -/
def State.dramGet (s : State) (key a n : Nat) : List Byte :=
  if s.granules.find? (a / 4096) = some key then memBytes s.mem a n else List.replicate n 0

/-- A write of HBM through a key; a granule unwritten or tagged otherwise is tagged and zero-filled first. The bytes lie in
one granule. -/
def State.dramPut (s : State) (key a : Nat) (data : List Byte) : State :=
  let g := a / 4096
  if s.granules.find? g = some key then { s with mem := memPut s.mem a data }
  else { s with mem := memPut (memClear s.mem (4096 * g) 4096) a data, granules := s.granules.set g key }

/-! ## Slices -/

/-- The line of an address under a key that a slice holds. -/
def Slice.line? (sl : Slice) (addr key : Nat) : Option Line := sl.lines.find? (fun l => l.addr == addr && l.key == key)

/-- Whether slice n writes a line back to HBM: the home root slice does, a dirty line (R262), while its granule is tagged with the
line's key (R399) and its die has not fenced itself (R316). -/
def State.writesBack (s : State) (n : Nat) (l : Line) : Bool :=
  let d := l.addr / 0x4000000000
  l.dirty && n == rootSlice d && s.granules.find? (l.addr / 4096) == some l.key && !(s.die d).fenced

/-- A line leaves a slice, and is written back where it is to be; else what it alone holds is lost. -/
def State.dropLine (s : State) (n : Nat) (l : Line) : State :=
  let sl := s.slice n
  let s := s.setSlice n { sl with lines := sl.lines.filter (fun k => !(k.addr == l.addr && k.key == l.key)) }
  if s.writesBack n l then s.dramPut l.key l.addr l.data else s

/-- The granule of an address takes a key, as the first write through that key gives it: it reads as zero, and what its home die holds of
it under another key is lost (R399; log 96). -/
def State.tagGranule (s : State) (key pa : Nat) : State :=
  let g := pa / 4096
  if s.granules.find? g = some key then s
  else
    let sls : Tab Slice := s.slices.map (fun (e : Nat × Slice) =>
      if e.1 / 21 = pa / 0x4000000000 then (e.1, { e.2 with lines := e.2.lines.filter (fun l => !(l.addr / 4096 == g && l.key != key)) }) else e)
    { s with slices := sls, mem := memClear s.mem (4096 * g) 4096, granules := s.granules.set g key }

/-- Whether a line lies in an active retention range (R265). -/
def Slice.retains (sl : Slice) (addr : Nat) : Bool :=
  (List.range 8).any fun i => (sl.retValid[i]? == some true) && decide (sl.retBase.get 0 i ≤ addr) && decide (addr ≤ sl.retLast.get 0 i)

/-- The way that a fill of a line takes, and the line that it replaces (R262, R265). -/
def Slice.wayFor (sl : Slice) (n addr : Nat) : Nat × Option Line :=
  let set := sl.lines.filter (fun l => l.addr / 128 % sliceSets n == addr / 128 % sliceSets n)
  let ways (m : Nat) : List Nat := (List.range 16).filter (fun w => sl.mode w == m)
  let freeWay (m : Nat) : Option Nat := (ways m).find? (fun w => set.all (fun l => l.way != w))
  let lineAt (w : Nat) : Option Line := set.find? (fun l => l.way == w)
  let retain : Option (Nat × Option Line) :=
    if sl.retains addr then
      match freeWay 1 with
      | some w => some (w, none)
      | none => ((ways 1).find? (fun w => match lineAt w with | some l => !sl.retains l.addr | none => false)).map (fun w => (w, lineAt w))
    else none
  match retain with
  | some r => r
  | none =>
    match freeWay 0 with
    | some w => (w, none)
    | none =>
      match (set.filter (fun l => sl.mode l.way == 0)).getLast? with
      | some l => (l.way, some l)
      | none => (0, none)

/-- Fill a line into a slice. A line of the address under another key is lost (R399); a line that the fill replaces leaves.
EVF fills at the least-recent end (R213, R262). -/
def State.fill (s : State) (n : Nat) (l : Line) (evf : Bool) : State :=
  let sl := s.slice n
  let s := s.setSlice n { sl with lines := sl.lines.filter (fun k => k.addr != l.addr) }
  let (w, out) := (s.slice n).wayFor n l.addr
  let s := match out with | some o => s.dropLine n o | none => s
  let sl := s.slice n
  let l := { l with way := w }
  s.setSlice n { sl with lines := if evf then sl.lines ++ [l] else l :: sl.lines }

/-- A hit moves the line to the most-recent end, unless it has EVF (R262). -/
def State.touchLine (s : State) (n addr key : Nat) (evf : Bool) : State :=
  let sl := s.slice n
  match evf, sl.line? addr key with
  | false, some l => s.setSlice n { sl with lines := l :: sl.lines.filter (fun k => !(k.addr == addr && k.key == key)) }
  | _, _ => s

/-! ## Views: how an agent reaches memory -/

/-- An agent's die, cluster (none for the firmware and the host), the stamp of its last acquire at die scope or wider
(R178), key, EVF bit, and the controller it is, for reservations (R180). -/
structure View where
  die : Nat
  cluster : Option Nat
  acq : Nat
  key : Nat
  evf : Bool
  who : Option Nat
  deriving DecidableEq, Repr

def View.ofCluster (c acq key : Nat) : View := ⟨dieOf c, some c, acq, key, false, none⟩
def View.firmware (key : Nat) : View := ⟨0, none, 0, key, false, none⟩

/-- The slices between an agent and a line's home, nearest first, the home root slice last (R262). -/
def View.path (v : View) (home : Nat) : List Nat :=
  match v.cluster with
  | none => [rootSlice home]
  | some c => if v.die = home then pathSlices c else pathSlices c ++ [rootSlice home]

/-- Whether a copy that a slice holds may serve the agent (R178). -/
def View.fresh (v : View) (home n : Nat) (l : Line) : Bool := n / 21 == home || decide (v.acq ≤ l.stamp)

/-- The current bytes of a line at its home (R169): the home root slice's, or else HBM's. -/
def State.homeLine (s : State) (addr key : Nat) : List Byte :=
  match (s.slice (rootSlice (addr / 0x4000000000))).line? addr key with
  | some l => l.data
  | none => s.dramGet key addr 128

/-- The first slice of a path with a copy that may serve, and the slices before it. -/
def State.findCopy (s : State) (v : View) (home addr : Nat) : List Nat → List Nat × Option (Nat × Line)
  | [] => ([], none)
  | n :: t =>
    match (s.slice n).line? addr v.key with
    | some l => if v.fresh home n l then ([], some (n, l)) else let (b, r) := s.findCopy v home addr t; (n :: b, r)
    | none => let (b, r) := s.findCopy v home addr t; (n :: b, r)

/-- A read that has reached HBM is an HBMRD event of its cluster; its cycles are a free value (R355). -/
def State.sampleHbm (s : State) (v : View) : State :=
  match v.cluster with
  | some c =>
    if (s.cluster c).gauges.any (fun g => g.2.takes 5 (dieOf c) none) then
      let (w, s) := s.free
      s.sampleGauges c 5 (w.toNat % 2 ^ 32)
    else s
  | none => s

/-- A read of a line: served by the nearest copy that may serve, and filled into every slice before it; a read that reaches
HBM is an HBMRD event, its cycles a free value (R262, R355). -/
def State.readLine (s : State) (v : View) (addr : Nat) : List Byte × State :=
  let home := addr / 0x4000000000
  let (miss, hit) := s.findCopy v home addr (v.path home)
  let (data, stamp, s) : List Byte × Nat × State := match hit with
    | some (n, l) => (l.data, if n / 21 = home then s.seq else l.stamp, s.touchLine n addr v.key v.evf)
    | none => let t := s.sampleHbm v; (s.dramGet v.key addr 128, t.seq, t)
  let s := miss.reverse.foldl (fun s n => s.fill n ⟨addr, 0, v.key, false, stamp, data⟩ v.evf) s
  (data, { s with seq := s.seq + 1 })

/-- Replace bytes of a list from an offset. -/
def splice (l : List Byte) (off : Nat) (data : List Byte) : List Byte := l.take off ++ data ++ l.drop (off + data.length)

/-- The copies of a line in the slices of a die, with bytes replaced. -/
def State.updateCopies (s : State) (d addr key off : Nat) (data : List Byte) : State :=
  { s with slices := s.slices.map fun e =>
      if e.1 / 21 = d then
        (e.1, { e.2 with lines := e.2.lines.map fun l => if l.addr == addr && l.key == key then { l with data := splice l.data off data } else l })
      else e }

/-- Drop the copies of a line on a die that an acquire has made stale. -/
def State.dropStale (s : State) (v : View) (home addr : Nat) : State :=
  if v.die = home then s
  else { s with slices := s.slices.map fun e =>
    if e.1 / 21 = v.die then (e.1, { e.2 with lines := e.2.lines.filter (fun l => !(l.addr == addr && l.key == v.key && l.stamp < v.acq)) }) else e }

/-- Drop the reservations of other controllers on bytes of a range (R180). -/
def State.breakResv (s : State) (who : Option Nat) (pa n : Nat) : State :=
  { s with resvs := s.resvs.filter (fun r => some r.1 == who || decide (pa + n ≤ r.2) || decide (r.2 + 64 ≤ pa)) }

/-- A write of bytes of one HBM line (R179, R262): performed at the home root slice, with the writer's and the home's copies
updated. From another die, whole words go, with their other bytes as the writer's copy holds them; where the writer's die holds no
copy, only the written bytes go (log 90). -/
def State.writeLine (s : State) (v : View) (pa : Nat) (data : List Byte) : State :=
  let addr := lineOf pa
  let home := addr / 0x4000000000
  let off := pa - addr
  let s := (s.dropStale v home addr).tagGranule v.key addr
  let old := s.homeLine addr v.key
  let copy : Option Line := if v.die = home then none else (v.path home).findSome? (fun n => if n / 21 = home then none else (s.slice n).line? addr v.key)
  let lo := off / 4 * 4
  let hi := (off + data.length + 3) / 4 * 4
  let base := match copy with | some l => l.data | none => old
  let words := ((splice base off data).drop lo).take (hi - lo)
  let (off', data') := match copy with | some _ => (lo, words) | none => (off, data)
  -- the home root slice allocates on a write miss and holds the line dirty
  let rt := rootSlice home
  let s := match (s.slice rt).line? addr v.key with
    | some _ => s
    | none => s.fill rt ⟨addr, 0, v.key, false, s.seq, old⟩ v.evf
  -- a slice on the way that holds the line is hit, and moves it to its most-recent end (R262)
  let s := (v.path home).foldl (fun s n => s.touchLine n addr v.key v.evf) s
  let s := s.updateCopies v.die addr v.key off data
  let s := s.updateCopies home addr v.key off' data'
  let sl := s.slice rt
  { s.setSlice rt { sl with lines := sl.lines.map fun l => if l.addr == addr && l.key == v.key then { l with dirty := true } else l }
    with seq := s.seq + 1 }

/-! ## Physical reads and writes -/

/-- The next n bytes of a range that lie in one line. -/
def lineSpan (pa n : Nat) : Nat := min n (128 - pa % 128)

/-- Read a physical range through the slices, line by line. -/
def State.readSpan (s : State) (v : View) : Nat → Nat → Nat → List Byte × State
  | 0, _, _ => ([], s)
  | k + 1, pa, n =>
    if n = 0 then ([], s)
    else
      let m := lineSpan pa n
      match targetOf pa with
      | .hbm _ =>
        let (l, s) := s.readLine v (lineOf pa)
        let (r, s) := s.readSpan v k (pa + m) (n - m)
        ((l.drop (pa % 128)).take m ++ r, s)
      | _ =>
        let (r, s') := s.readSpan v k (pa + m) (n - m)
        (memBytes s.mem pa m ++ r, s')

def State.readPhys (s : State) (v : View) (pa n : Nat) : List Byte × State := s.readSpan v (n / 128 + 2) pa n

/-- Whether a write to host memory is blocked: by the agent's own die, or by the die of the port through which the tenant's accesses leave
(R316, R393). -/
def State.hostShut (s : State) (v : View) : Bool :=
  match v.cluster with
  | none => (s.die s.qc.active).fenced
  | some c => (s.die v.die).fenced || (match (s.cluster c).owner with | some run => (s.die (s.tenant (s.run run).tenant).port).fenced | none => false)

/-- Write a physical range through the slices, line by line. A die that has fenced itself blocks the writes to its HBM and to the host
(R316). -/
def State.writeSpan (s : State) (v : View) : Nat → Nat → List Byte → State
  | 0, _, _ => s
  | k + 1, pa, data =>
    if data.isEmpty then s
    else
      let m := lineSpan pa data.length
      let d := data.take m
      let s := match targetOf pa with
        | .hbm n => if (s.die n).fenced then s else s.writeLine v pa d
        | .host => if s.hostShut v then s else { s with mem := memPut s.mem pa d }
        | _ => { s with mem := memPut s.mem pa d }
      s.writeSpan v k (pa + m) (data.drop m)

def State.writePhys (s : State) (v : View) (pa : Nat) (data : List Byte) : State :=
  (s.breakResv v.who pa data.length).writeSpan v (data.length / 128 + 2) pa data

/-- The bytes at their point of performance, as an atomic, a table walk or the firmware reads them (R169). -/
def State.homeByte (s : State) (key pa : Nat) : Byte :=
  match targetOf pa with
  | .hbm _ => ((s.homeLine (lineOf pa) key)[pa % 128]?).getD 0
  | _ => memGet s.mem pa

def State.homeBytes (s : State) (key pa n : Nat) : List Byte := (List.range n).map (fun i => s.homeByte key (pa + i))

/-- An agent that reads a location at its home reads no older copy of it later: its die's copies of the line go (R171). -/
def State.dropAged (s : State) (v : View) (pa : Nat) : State :=
  match targetOf pa with
  | .hbm d => s.dropStale { v with acq := s.seq + 1 } d (lineOf pa)
  | _ => s

/-- A read of an atomic or an LR: the value is that of the point of performance (R169), and the line is read, filled and moved in the
order of its sets as by any read (R262, R355). -/
def State.homeRead (s : State) (v : View) (pa n : Nat) : Nat × State :=
  (ofBytes (s.homeBytes v.key pa n), ((s.dropAged v pa).readPhys v pa n).2)

/-- The key under which a granule of HBM is written; a walk reads its tables under it (log 10). -/
def State.granuleKey (s : State) (pa : Nat) : Nat := (s.granules.find? (pa / 4096)).getD 0

/-- A record, or a table entry, of an engine or a walk is read at its home: where the home root slice does not hold one of its lines, the
read reaches HBM, and is an HBMRD event of its cluster (R355). Such a read fills no slice (log 97). -/
def State.sampleReads (s : State) (c : Nat) (lines : List Nat) : State :=
  lines.foldl (fun s a => match targetOf a with
    | .hbm d => if (s.slice (rootSlice d)).lines.any (fun l => l.addr == lineOf a) then s else s.sampleHbm (View.ofCluster c 0 0)
    | _ => s) s

/-! ## Translation (R350 to R352) -/

/-- What a walk finds: the leaf, or the level and reason of its fault (R351, R364). -/
abbrev WalkResult := Except (Nat × Nat) TlbEnt

/-- A page lies in one window of the tenant. -/
def Tenant.covers (t : Tenant) (pa n : Nat) : Bool := t.windows.any (fun w => decide (w.2.base ≤ pa) && decide (pa + n ≤ w.2.base + w.2.len))

/-- Whether a range reaches a register space (R15). -/
def reachesRegs (pa n : Nat) : Bool :=
  (decide (pa < 0x3000C000000) && decide (0x30000000000 < pa + n)) || (decide (pa < 0x31100000000) && decide (0x31000000000 < pa + n))

/-- Check the leaf e of a level. -/
def State.leafOf (_s : State) (t : Tenant) (va level : Nat) (e : Nat) : WalkResult :=
  let size := 2 ^ (52 - 12 * level)
  let pa := bits e 47 12 * 4096
  let key := bits e 55 48
  let isHbm := match targetOf pa with | .hbm _ => true | _ => false
  if pa % size ≠ 0 then .error (level, 2)
  else if key ≠ 0 ∧ !isHbm then .error (level, 2)
  else if reachesRegs pa size ∨ !t.covers pa size then .error (level, 4)
  else if isHbm ∧ !t.keys.contains key then .error (level, 5)
  else .ok ⟨va / size * size, size, pa, e.testBit 2, e.testBit 3, key⟩

/-- A walk from a table at a level, `fuel` levels at most. -/
def State.walkFrom (s : State) (t : Tenant) (va : Nat) : Nat → Nat → Nat → WalkResult
  | 0, level, _ => .error (level, 3)
  | fuel + 1, level, table =>
    match targetOf table with
    | .hbm _ =>
      let a := table + 8 * (va / 2 ^ (52 - 12 * level) % 4096)
      let e := ofBytes (s.homeBytes (s.granuleKey a) a 8)
      if !e.testBit 0 then .error (level, 1)
      else if bits e 11 4 ≠ 0 ∨ bits e 63 56 ≠ 0 then .error (level, 2)
      else if e.testBit 1 then s.leafOf t va level e
      else if level = 3 then .error (3, 3)
      else if bits e 14 12 ≠ 0 then .error (level, 2)
      else s.walkFrom t va fuel (level + 1) (bits e 47 12 * 4096)
    | _ => .error (level, 4)

/-- The walk of a tenant's tables (R350, R351). -/
def State.walk (s : State) (tenant va : Nat) : WalkResult :=
  let t := s.tenant tenant
  if va ≥ 2 ^ 52 then .error (0, 6)
  else if !t.txroot.getLsbD 0 then .error (1, 1)
  else s.walkFrom t va 3 1 (bits t.txroot.toNat 47 15 * 32768)

/-- The addresses of the table entries that a walk reads, from a table at a level. -/
def State.entriesFrom (s : State) (va : Nat) : Nat → Nat → Nat → List Nat
  | 0, _, _ => []
  | fuel + 1, level, table =>
    match targetOf table with
    | .hbm _ =>
      let a := table + 8 * (va / 2 ^ (52 - 12 * level) % 4096)
      let e := ofBytes (s.homeBytes (s.granuleKey a) a 8)
      a :: (if e.testBit 0 && bits e 11 4 == 0 && bits e 63 56 == 0 && !e.testBit 1 && level != 3 && bits e 14 12 == 0
        then s.entriesFrom va fuel (level + 1) (bits e 47 12 * 4096) else [])
    | _ => []

/-- The table entries that the walk of an address reads. -/
def State.walkReads (s : State) (tenant va : Nat) : List Nat :=
  let t := s.tenant tenant
  if va ≥ 2 ^ 52 ∨ !t.txroot.getLsbD 0 then [] else s.entriesFrom va 3 1 (bits t.txroot.toNat 47 15 * 32768)

def TlbEnt.covers (e : TlbEnt) (va : Nat) : Bool := decide (e.va ≤ va) && decide (va < e.va + e.size)

/-- The leaf that serves a cluster's access: from its TLB, its die's translation cache, or a walk that fills both
(R352). -/
def State.leafFor (s : State) (c tenant va : Nat) : WalkResult × State :=
  let k := s.cluster c
  let d := s.die (dieOf c)
  match k.tlb.find? (TlbEnt.covers · va) with
  | some e => (.ok e, s)
  | none =>
    match List.find? (fun (e : Nat × TlbEnt) => e.1 == tenant && e.2.covers va) d.txc with
    | some e => (.ok e.2, s.setCluster c { k with tlb := (e.2 :: k.tlb).take 1024 })
    | none =>
      let t := s.sampleReads c (s.walkReads tenant va)
      match s.walk tenant va with
      | .error e => (.error e, t)
      | .ok e =>
        let k := t.cluster c
        (.ok e, (t.setCluster c { k with tlb := (e :: k.tlb).take 1024 }).setDie (dieOf c) { d with txc := ((tenant, e) :: d.txc).take 16384 })

/-- Why an access fails: translation, or a target that is not allowed or not backed (R16, R149, R346). -/
inductive AccErr where
  | translation (va level reason : Nat)
  | access (va kind : Nat)
  deriving DecidableEq, Repr

/-- What an access asks. -/
inductive AccKind where
  | read | write | fetch
  deriving DecidableEq, Repr

/-- A translated piece of an access, within one 64 KiB page: physical address, length, key. -/
structure Piece where
  pa : Nat
  len : Nat
  key : Nat
  deriving DecidableEq, Repr

/-- Whether a controller waits in WAYSET, which completes before a stop (R329). -/
def Ctl.inWayset (k : Ctl) : Bool := k.st == .waiting && (match decode32 k.insn with | .ok (.wayset _ _ _) => true | _ => false)

/-- Whether a WAYSET is taking the scratch way of a target away, from before the moment `since` on: for an access that comes after,
it is not backed any more (R266). -/
def State.wayLeaves (s : State) (since : Nat) (t : Target) : Bool :=
  match t with
  | .slice n off =>
    match (s.slice n).leaving with
    | some (c, at', mask) =>
      let w := off / (sliceSize n / 16)
      (s.ctl c).inWayset && decide (at' ≤ since) && (s.slice n).mode w == 2 && bits mask (2 * w + 1) (2 * w) != 2
    | none => false
  | _ => false

/-- Check one leaf for an access at va; `since` is the order stamp of the agent that accesses, none for one that comes now. -/
def State.checkLeaf (s : State) (tenant va : Nat) (kind : AccKind) (allow : Target → Bool) (e : TlbEnt) (n : Nat) (since : Option Nat := none) :
    Except AccErr Piece :=
  let pa := e.pa + (va - e.va)
  let t := targetOf pa
  if (kind = .write ∧ !e.w) ∨ (kind = .fetch ∧ !e.x) then .error (.translation va (if e.size = 2 ^ 40 then 1 else if e.size = 2 ^ 28 then 2 else 3) 7)
  else if !allow t ∨ !s.backed tenant pa ∨ !s.backed tenant (pa + n - 1) ∨ s.wayLeaves (since.getD s.seq) t then .error (.access va t.kind)
  else .ok ⟨pa, n, e.key⟩

/-- Translate an access, once for each 64 KiB page that it touches (R148, R352); `fuel` pages at most. -/
def State.pieces (s : State) (c tenant : Nat) (kind : AccKind) (allow : Target → Bool) : Nat → Nat → Nat → Except AccErr (List Piece) × State
  | 0, _, _ => (.ok [], s)
  | fuel + 1, va, n =>
    if n = 0 then (.ok [], s)
    else
      let m := min n (0x10000 - va % 0x10000)
      match s.leafFor c tenant va with
      | (.error (l, r), s) => (.error (.translation va l r), s)
      | (.ok e, s) =>
        match s.checkLeaf tenant va kind allow e m with
        | .error x => (.error x, s)
        | .ok p =>
          match s.pieces c tenant kind allow fuel (va + m) (n - m) with
          | (.error x, s) => (.error x, s)
          | (.ok l, s) => (.ok (p :: l), s)

def State.place (s : State) (c tenant : Nat) (kind : AccKind) (allow : Target → Bool) (va n : Nat) : Except AccErr (List Piece) × State :=
  s.pieces c tenant kind allow (n / 0x10000 + 2) va n

/-- Read, or write, the pieces of a translated access. -/
def State.readPieces (s : State) (v : View) : List Piece → List Byte × State
  | [] => ([], s)
  | p :: t =>
    let (d, s) := s.readPhys { v with key := p.key } p.pa p.len
    let (r, s) := s.readPieces v t
    (d ++ r, s)

def State.writePieces (s : State) (v : View) : List Piece → List Byte → State
  | [], _ => s
  | p :: t, d => (s.writePhys { v with key := p.key } p.pa (d.take p.len)).writePieces v t (d.drop p.len)

/-- The pieces of an access as the firmware and the pager read them, at the home. -/
def State.homePieces (s : State) (l : List Piece) : List Byte := l.flatMap (fun p => s.homeBytes p.key p.pa p.len)

/-- A read of a tenant's virtual range by the firmware, the pager or an engine's record fetch, at the home (log 10). -/
def State.tenantRead (s : State) (tenant va n : Nat) : Except AccErr (List Byte) :=
  let rec go : Nat → Nat → Nat → Except AccErr (List Byte)
    | 0, _, _ => .ok []
    | fuel + 1, va, n =>
      if n = 0 then .ok []
      else
        let m := min n (0x10000 - va % 0x10000)
        match s.walk tenant va with
        | .error (l, r) => .error (.translation va l r)
        | .ok e =>
          match s.checkLeaf tenant va .read (fun _ => true) e m with
          | .error x => .error x
          | .ok p => (go fuel (va + m) (n - m)).map (fun r => s.homeBytes p.key p.pa p.len ++ r)
  go (n / 0x10000 + 2) va n

/-- An engine's fetch of a record of a virtual range: its HBMRD events (R355). -/
def State.sampleFetch (s : State) (c tenant va n : Nat) : State :=
  match s.walk tenant va with
  | .ok e => s.sampleReads c ((List.range ((n + 127) / 128)).map (fun i => lineOf (e.pa + (va - e.va)) + 128 * i))
  | .error _ => s

/-- The pieces of a tenant's virtual range as the firmware or the pager reaches them. -/
def State.tenantPieces (s : State) (tenant : Nat) (kind : AccKind) (va n : Nat) : Except AccErr (List Piece) :=
  let rec go : Nat → Nat → Nat → Except AccErr (List Piece)
    | 0, _, _ => .ok []
    | fuel + 1, va, n =>
      if n = 0 then .ok []
      else
        let m := min n (0x10000 - va % 0x10000)
        match s.walk tenant va with
        | .error (l, r) => .error (.translation va l r)
        | .ok e =>
          match s.checkLeaf tenant va kind (fun _ => true) e m with
          | .error x => .error x
          | .ok p => (go fuel (va + m) (n - m)).map (fun r => p :: r)
  go (n / 0x10000 + 2) va n

/-- Whether the firmware cannot reach a place on a tenant's behalf: HBM of a die that has fenced itself, or host memory behind such a die
(R316, R393). -/
def State.blocked (s : State) (tenant : Nat) (p : Piece) : Bool :=
  match targetOf p.pa with
  | .hbm d => (s.die d).fenced
  | .host => (s.die s.qc.active).fenced || (s.die (s.tenant tenant).port).fenced
  | _ => false

/-- A write of a tenant's virtual range by the firmware or the pager, performed at its home. A range of which a part is blocked is not
reached (R316, R388; log 102). -/
def State.tenantWrite (s : State) (tenant va : Nat) (data : List Byte) : Except AccErr State :=
  match s.tenantPieces tenant .write va data.length with
  | .error e => .error e
  | .ok l => if l.any (s.blocked tenant) then .error (.access va 3) else .ok (s.writePieces (View.firmware 0) l data)

/-! ## Bulk moves of the firmware (R385) -/

/-- The listed bytes of a range under a key, as offsets from its start: what the home root slice holds, or else HBM. -/
def State.bulkGetPiece (s : State) (p : Piece) : List Host.Cell :=
  let inside (c : Host.Cell) : Bool := decide (p.pa ≤ c.1) && decide (c.1 < p.pa + p.len)
  match targetOf p.pa with
  | .hbm d =>
    let lines := (s.slice (rootSlice d)).lines.filter (fun l => l.key == p.key && decide (p.pa < l.addr + 128) && decide (l.addr < p.pa + p.len))
    let held (a : Nat) : Bool := lines.any (fun l => l.addr == lineOf a)
    let base := s.mem.filter (fun c => inside c && !held c.1 && s.granules.find? (c.1 / 4096) == some p.key)
    let cached := lines.flatMap (fun l => (l.data.zipIdx.map (fun e => (l.addr + e.2, e.1))).filter (fun c => inside c && c.2 != unlisted))
    (base ++ cached).map (fun c => (c.1 - p.pa, c.2))
  | _ => (s.mem.filter inside).map (fun c => (c.1 - p.pa, c.2))

/-- The listed bytes of a translated range. -/
def State.bulkGet (s : State) : Nat → List Piece → List Host.Cell
  | _, [] => []
  | off, p :: t => (s.bulkGetPiece p).map (fun c => (off + c.1, c.2)) ++ s.bulkGet (off + p.len) t

/-- Whether an address is HBM of a die that has fenced itself (R316). -/
def State.fencedHbm (s : State) (pa : Nat) : Bool := match targetOf pa with | .hbm d => (s.die d).fenced | _ => false

/-- Replace a range of whole 4 KiB granules by listed bytes; the copies of its lines on its home die go. -/
def State.bulkPutPiece (s : State) (p : Piece) (l : List Host.Cell) : State :=
  if s.fencedHbm p.pa then s
  else
  let s := s.breakResv none p.pa p.len
  let s := match targetOf p.pa with
    | .hbm d =>
      let keep (l : Line) : Bool := !(decide (p.pa ≤ l.addr) && decide (l.addr < p.pa + p.len))
      let sls : Tab Slice := s.slices.map (fun (e : Nat × Slice) => if e.1 / 21 = d then (e.1, { e.2 with lines := e.2.lines.filter keep }) else e)
      { s with slices := sls, granules := (List.range (p.len / 4096)).foldl (fun g i => Tab.set g (p.pa / 4096 + i) p.key) s.granules }
    | _ => s
  { s with mem := l.foldl (fun (m : List Host.Cell) (c : Host.Cell) => memSet m (p.pa + c.1) c.2) (memClear s.mem p.pa p.len) }

def State.bulkPut (s : State) : Nat → List Piece → List Host.Cell → State
  | _, [], _ => s
  | off, p :: t, l =>
    let here := (l.filter (fun c => decide (off ≤ c.1) && decide (c.1 < off + p.len))).map (fun c => (c.1 - off, c.2))
    (s.bulkPutPiece p here).bulkPut (off + p.len) t l

/-! ## Read-modify-write (R161, R162) -/

/-- The new value of a location of w bits under a sub-operation: 0 ADD, 1 MIN, 2 MAX, 3 AND, 4 OR, 5 XOR, 6 XCHG, 7 CAS; none
for a CAS that fails. -/
def atomNew (w sub : Nat) (uns : Bool) (old b cmp : Nat) : Option Nat :=
  let b := b % 2 ^ w
  match sub with
  | 0 => some ((old + b) % 2 ^ w)
  | 1 => some (if uns then min old b else if sv old w ≤ sv b w then old else b)
  | 2 => some (if uns then max old b else if sv old w ≥ sv b w then old else b)
  | 3 => some (old &&& b)
  | 4 => some (old ||| b)
  | 5 => some (old ^^^ b)
  | 6 => some b
  | _ => if old = cmp % 2 ^ w then some b else none
where
  sv (x w : Nat) : Int := if x.testBit (w - 1) then (x : Int) - 2 ^ w else x

/-- An atomic at its point of performance: the old value, and the state after it. -/
def State.atomic (s : State) (v : View) (pa w sub : Nat) (uns : Bool) (b cmp : Nat) : Nat × State :=
  let (old, s) := s.homeRead v pa (w / 8)
  match atomNew w sub uns old b cmp with
  | some n => (old, s.writePhys v pa (toBytes (w / 8) n))
  | none => (old, s)

end Sys2Proof.Machine
end

