-- ==== Sys2Proof/Machine/MemNode.lean ====
section
/-! DEFINITION. The words of a memory node (R144 to R166), and the performing of the accesses that they issue. -/
namespace Sys2Proof.Machine

/-! ## Sources, errors and slots -/

/-- The value of a source selector of the memory-node ring (R145). -/
def State.nodeSrc (s : State) (x : Issue) (sel : BitVec 6) : W32 :=
  let m := s.mn x.rid
  let p := s.page x.pid
  let n := sel.toNat
  if 0x10 ≤ n ∧ n < 0x18 then (if x.live then (((qAt m.mi (n % 4)).head?).getD (QTok.of Tok.zero)).tok.data else 0)
  else if n = 0x1C then m.mores
  else if 0x20 ≤ n ∧ n < 0x30 then (s.region x.rid).k[(n - 0x20) % 16]'(Nat.mod_lt _ (by decide))
  else if n = 0x30 then BitVec.ofNat 32 (p.iteration x.stage)
  else if n = 0x31 then BitVec.ofNat 32 p.passIdx
  else 0

/-- Pop one input queue of the node; a popped ordering token is an acquire (R145, R174). -/
def State.popMi (s : State) (rid n : Nat) : State :=
  let m := s.mn rid
  match (qAt m.mi n).head? with
  | none => s
  | some t => (s.setMn rid { m with mi := qSet m.mi n (qAt m.mi n).pop }).acquireNode rid t

def State.popNode (s : State) (x : Issue) (sels : List (BitVec 6)) : State :=
  if x.live then (poppedQueues sels).foldl (fun s n => s.popMi x.rid n) s else s

/-- The context word that a unit issues on this cycle (R20). -/
def State.wordAt (s : State) (x : Issue) : BitVec 48 := (s.region x.rid).words.get 0 (16 * x.unit + (s.page x.pid).counter)

/-- A word of a node ends its run in error (R149, R285). -/
def State.nodeError (s : State) (x : Issue) (cause : Cause) (addr : Nat) : State :=
  s.raiseUnit cause x.rid x.unit (s.wordAt x).toNat addr

def AccErr.cause : AccErr → Cause | .translation .. => .translation | .access .. => .access
def AccErr.addr : AccErr → Nat | .translation va _ _ => va | .access va _ => va

/-- The latency of a LAT code, and of a scope (R150, R153). -/
def nearLat (code : Nat) : Nat := match code with | 0 => 10 | 1 => 12 | 2 => 14 | _ => 16
def farLat (code : Nat) : Nat := match code with | 0 => 16 | 1 => 32 | 2 => 64 | _ => 128
def scopeLat (scope : Nat) : Nat := if scope ≤ 1 then 16 else if scope ≤ 3 then 64 else 128

def State.addNodeSlot (s : State) (x : Issue) (sl : NodeSlot) : State :=
  let m := s.mn x.rid
  s.setMn x.rid { m with slots := m.slots ++ [sl] }

def Issue.nodeSlot (x : Issue) (kind : NodeSlotKind) (lat ident : Nat) : NodeSlot :=
  { kind := kind, value := none, dq := 0, out := false, live := x.live, its := some x.stage, dist := lat, range := 0, ident := ident }

/-- What a value word of a dead iteration does: a slot that lands 0 and pushes nothing (R155). -/
def State.deadValue (s : State) (x : Issue) (lat dq : Nat) (out : Bool) : State :=
  s.addNodeSlot x { x.nodeSlot .value lat 0 with value := some 0, dq := dq, out := out }

/-! ## Near accesses (R147, R150) -/

/-- Bank of a near offset, and whether it lies in the upper half (R147). -/
def bankOf (off : Nat) : Nat := off % 0x600000 / 0x60000

/-- Whether a bank of a cluster has made its access of this cycle, and the state once it has (R151). -/
def State.bankTaken (s : State) (c bank : Nat) : Bool := (s.cluster c).bankBusy.contains bank
def State.useBanks (s : State) (c : Nat) (l : List Nat) : State :=
  if l.isEmpty then s else let k := s.cluster c; s.setCluster c { k with bankBusy := l ++ k.bankBusy }

/-- An atomic of the last cycle holds a word of a range of offsets (R162). -/
def State.wordHeld (s : State) (c off n : Nat) : Bool :=
  (s.cluster c).bankHold.any (fun h => h.2 == 1 && decide (h.1 < off + n) && decide (off < h.1 + 4))

/-- Whether an access to scratch offsets loses on this cycle: its bank has made another access, or an atomic holds a word of it (R151,
R162). -/
def State.shut (s : State) (c off n : Nat) : Bool := s.bankTaken c (bankOf off) || s.wordHeld c off n

/-- Whether an access to a physical range loses on this cycle; one that reaches no scratch bank does not. -/
def State.paShut (s : State) (pa n : Nat) : Bool := match targetOf pa with | .scratch c off => s.shut c off n | _ => false

/-- The cluster and bank of a physical scratch address. -/
def scratchBank (pa : Nat) : Option (Nat × Nat) :=
  match targetOf pa with
  | .scratch c _ => some (c, bankOf (pa % 0x1000000))
  | _ => none
def upperHalf (off : Nat) : Bool := decide (0x600000 ≤ off)

/-- Unfrozen cycles from a region to a bank (R150). -/
def pathOf (rid off : Nat) : Nat :=
  (if bankOf off = rid % 16 then 5 else 7) + (if upperHalf off then 1 else 0)

def NodeOp.width : NodeOp → Nat
  | .load w _ => w
  | .store w _ => w
  | .atom w _ _ _ _ => w / 8
  | .lookup _ => 32

def NodeOp.writes : NodeOp → Bool
  | .store _ _ => true
  | .atom _ _ _ _ _ => true
  | _ => false

/-- Whether a range of addresses lies in a range that the node holds: near ranges by offset, far ones by the virtual
addresses that R274 gives them (R164). -/
def State.owns (s : State) (rid : Nat) (near : Bool) (a n : Nat) : Bool :=
  let r := s.region rid
  (List.range r.ranges.length).any fun i =>
    match r.ranges[i]? with
    | some o =>
      ((r.mn.held[i]?) == some true) && (near == (o.space == 0)) &&
      (let b := if near then o.base else
          (r.k[(2 * (o.space - 1)) % 16]'(Nat.mod_lt _ (by decide))).toNat + (r.k[(2 * (o.space - 1) + 1) % 16]'(Nat.mod_lt _ (by decide))).toNat * 2 ^ 32 + o.base
       decide (b ≤ a) && decide (a + n ≤ b + o.len))
    | none => false

/-- Issue a near access after the checks of R149. -/
def State.issueNear (s : State) (x : Issue) (op : NodeOp) (off : Nat) (rel : Bool) (slot : Nat → Option NodeSlot) : State :=
  if s.scrcap < off + op.width then s.nodeError x .access off
  else if off % op.width ≠ 0 then s.nodeError x .align off
  else if op.writes ∧ !s.owns x.rid true off op.width then s.nodeError x .owner off
  else
    let (t, s) := s.stamp
    let m := s.mn x.rid
    let s := s.setMn x.rid { m with near := m.near ++ [⟨t, op, off, pathOf x.rid off, .going (pathOf x.rid off), t, m.acqs, rel, 0⟩] }
    match slot t with
    | some sl => s.addNodeSlot x sl
    | none => s

/-! ## Far accesses (R148, R159) -/

/-- The base of a far window (R148). -/
def State.farBase (s : State) (x : Issue) (w : Nat) : Nat :=
  let k := (s.region x.rid).k
  (k[(2 * w) % 16]'(Nat.mod_lt _ (by decide))).toNat + (k[(2 * w + 1) % 16]'(Nat.mod_lt _ (by decide))).toNat * 2 ^ 32

/-- The targets that a far access of a cluster's nodes may reach (R148). -/
def farAllowed (c : Nat) : Target → Bool
  | .hbm _ => true
  | .scratch d _ => d / 4 == c / 4
  | .slice n _ => n / 21 == dieOf c
  | _ => false

/-- Translate and check a far access (R149). -/
def State.farPlace (s : State) (x : Issue) (write : Bool) (va n : Nat) : Except (Cause × Nat) Piece × State :=
  let c := regionCluster x.rid
  if va ≥ 2 ^ 52 then (.error (.access, va), s)
  else match s.place c (s.run (s.page x.pid).run).tenant (if write then .write else .read) (farAllowed c) va n with
    | (.error e, s) => (.error (e.cause, e.addr), s)
    | (.ok l, s) =>
      if va % n ≠ 0 then (.error (.align, va), s)
      else if write ∧ !s.owns x.rid false va n then (.error (.owner, va), s)
      else match l with
        | p :: _ => (.ok p, s)
        | [] => (.error (.access, va), s)

/-- A line leaves the coalescing buffer and is written through in its turn (R159). -/
def MNode.flushLine (m : MNode) (l : CoalLine) : MNode :=
  { m with coal := m.coal.filter (fun k => !(k.pa == l.pa && k.key == l.key)),
           far := m.far ++ [⟨l.stamp, .line l.mask l.data, l.pa, l.key, l.stamp, m.acqs, false⟩] }

/-- The node releases: every buffered line is written through (R159). -/
def MNode.flush (m : MNode) : MNode := m.coal.foldl MNode.flushLine m

/-- The mask of a line all of whose words are dirty. -/
def fullMask : Nat := 2 ^ 32 - 1

/-- Merge a word into the coalescing buffer (R159). -/
def MNode.coalesce (m : MNode) (pa key stamp : Nat) (data : W32) : MNode :=
  let la := lineOf pa
  let bit := pa % 128 / 4
  let m : MNode := if m.coal.any (fun l => l.pa == la && l.key == key) then m
    else
      let m := match m.coal with
        | l :: _ => if 8 ≤ m.coal.length then m.flushLine l else m
        | [] => m
      { m with coal := m.coal ++ [⟨la, key, 0, List.replicate 128 0, stamp⟩] }
  let m : MNode := { m with coal := m.coal.map (fun l => if l.pa == la && l.key == key then
    { l with mask := l.mask ||| 2 ^ bit, data := splice l.data (pa - la) (toBytes 4 data.toNat) } else l) }
  match m.coal.find? (fun l => l.pa == la && l.key == key) with
  | some l => if l.mask = fullMask then m.flushLine l else m
  | none => m

/-- The buffered value of a word, if it is dirty (R156). -/
def MNode.buffered (m : MNode) (pa key : Nat) : Option W32 :=
  match m.coal.find? (fun l => l.pa == lineOf pa && l.key == key) with
  | some l => if l.mask.testBit (pa % 128 / 4) then some (BitVec.ofNat 32 (ofBytes ((l.data.drop (pa % 128)).take 4))) else none
  | none => none

/-- Issue a far access to the word at a piece, in issue order behind the node's others (R158). -/
def State.issueFar (s : State) (x : Issue) (op : NodeOp) (p : Piece) (rel : Bool) (slot : Nat → Option NodeSlot) : State :=
  let (t, s) := s.stamp
  let m := s.mn x.rid
  let s := s.setMn x.rid { m with far := m.far ++ [⟨t, .word op, p.pa, p.key, t, m.acqs, rel⟩] }
  match slot t with
  | some sl => s.addNodeSlot x sl
  | none => s

/-! ## The words -/

/-- A near load (R156). -/
def nearLoad (w : C2) (width : Nat) (sx : Bool) (scope : Nat) (x : Issue) (s : State) : State :=
  let lat := nearLat (bits w.mod.toNat 1 0)
  let off := (s.nodeSrc x w.sa + s.nodeSrc x w.sb <<< (bits w.imm8.toNat 1 0)).toNat
  if x.live then
    (s.popNode x [w.sa, w.sb]).issueNear x (.load width sx) off false
      (fun t => some { x.nodeSlot .value lat t with dq := w.dq.toNat, out := w.out, range := scope })
  else s.deadValue x lat w.dq.toNat w.out

/-- A far load through the coalescing buffer (R156). -/
def farLoad (w : C2) (scope : Nat) (x : Issue) (s : State) : State :=
  let lat := farLat (bits w.mod.toNat 1 0)
  let off := (s.nodeSrc x w.sa + s.nodeSrc x w.sb <<< (bits w.imm8.toNat 1 0)).toNat
  let va := s.farBase x (bits w.imm8.toNat 3 2) + off
  if x.live then
    match (s.popNode x [w.sa, w.sb]).farPlace x false va 4 with
    | (.error (c, a), s) => s.nodeError x c a
    | (.ok p, s) =>
      let sl (t : Nat) : NodeSlot := { x.nodeSlot .value lat t with dq := w.dq.toNat, out := w.out, range := scope }
      match (s.mn x.rid).buffered p.pa p.key with
      | some v => s.addNodeSlot x { sl 0 with value := some v }
      | none => s.issueFar x (.load 4 false) p false (fun t => some (sl t))
  else s.deadValue x lat w.dq.toNat w.out

/-- A near store (R158). -/
def nearStore (w : C3) (width : Nat) (x : Issue) (s : State) : State :=
  let off := (s.nodeSrc x w.sa + s.nodeSrc x w.sb <<< (bits w.mod.toNat 1 0)).toNat
  if x.live then (s.popNode x [w.sa, w.sb, w.sc]).issueNear x (.store width (s.nodeSrc x w.sc)) off false (fun _ => none) else s

/-- STF (R158). -/
def farStore (w : C3) (x : Issue) (s : State) : State :=
  let off := (s.nodeSrc x w.sa + s.nodeSrc x w.sb <<< (bits w.mod.toNat 1 0)).toNat
  let va := s.farBase x (bits w.mod.toNat 3 2) + off
  let d := s.nodeSrc x w.sc
  if x.live then
    match (s.popNode x [w.sa, w.sb, w.sc]).farPlace x true va 4 with
    | (.error (c, a), s) => s.nodeError x c a
    | (.ok p, s) =>
      let (t, s) := s.stamp
      s.setMn x.rid ((s.mn x.rid).coalesce p.pa p.key t d)
  else s

/-- ST.REL (R160): the buffer is written through, then the word is written after every earlier write of the node. -/
def relStore (w : C3) (x : Issue) (s : State) : State :=
  let lat := scopeLat (bits w.mod.toNat 2 0)
  let off := (s.nodeSrc x w.sa + s.nodeSrc x w.sb).toNat
  let d := s.nodeSrc x w.sc
  if x.live then
    let s := s.popNode x [w.sa, w.sb, w.sc]
    let s := s.setMn x.rid (s.mn x.rid).flush
    let sl (t : Nat) : Option NodeSlot := some (x.nodeSlot .strel lat t)
    if w.mod.getLsbD 3 then
      match s.farPlace x true (s.farBase x w.modx.toNat + off) 4 with
      | (.error (c, a), s) => s.nodeError x c a
      | (.ok p, s) => s.issueFar x (.store 4 d) p true sl
    else s.issueNear x (.store 4 d) off true sl
  else s

/-- ATOM.H and ATOM.W (R161). -/
def nearAtom (w : C3) (width : Nat) (x : Issue) (s : State) : State :=
  let lat := nearLat w.modx.toNat
  let off := (s.nodeSrc x w.sa).toNat
  if x.live then
    (s.popNode x [w.sa, w.sb, w.sc]).issueNear x
      (.atom (8 * width) (bits w.mod.toNat 2 0) (w.mod.getLsbD 3) (s.nodeSrc x w.sb) (s.nodeSrc x w.sc)) off false
      (fun t => some { x.nodeSlot .value lat t with dq := w.dq.toNat, out := w.out })
  else s.deadValue x lat w.dq.toNat w.out

/-- ATOMF.W (R161). -/
def farAtom (w : C3) (x : Issue) (s : State) : State :=
  let lat := farLat w.modx.toNat
  let a := s.nodeSrc x w.sa
  let va := s.farBase x (bits a.toNat 31 30) + bits a.toNat 29 0
  let op : NodeOp := .atom 32 (bits w.mod.toNat 2 0) (w.mod.getLsbD 3) (s.nodeSrc x w.sb) (s.nodeSrc x w.sc)
  if x.live then
    match (s.popNode x [w.sa, w.sb, w.sc]).farPlace x true va 4 with
    | (.error (c, b), s) => s.nodeError x c b
    | (.ok p, s) =>
      let m := s.mn x.rid
      -- a buffered store to the line goes first, in issue order (R158)
      let s := s.setMn x.rid (match m.coal.find? (fun l => l.pa == lineOf p.pa && l.key == p.key) with | some l => m.flushLine l | none => m)
      s.issueFar x op p false (fun t => some { x.nodeSlot .value lat t with dq := w.dq.toNat, out := w.out })
  else s.deadValue x lat w.dq.toNat w.out

/-- LKUP (R163): the address of the set, and all ones for the reserved key. -/
def lkupWord (w : C2) (x : Issue) (s : State) : State :=
  let lat := nearLat (bits w.mod.toNat 1 0)
  let key := s.nodeSrc x w.sa
  let base := s.nodeSrc x w.sb
  let ea := (base.toNat + key.toNat % 2 ^ bits w.imm8.toNat 4 0 * 32) % 2 ^ 32
  let sl (t : Nat) : NodeSlot := { x.nodeSlot .value lat t with dq := w.dq.toNat, out := w.out }
  if x.live then
    let s := s.popNode x [w.sa, w.sb]
    if key = 0xFFFFFFFF then s.addNodeSlot x { sl 0 with value := some 0xFFFFFFFF }
    else s.issueNear x (.lookup key) ea false (fun t => some (sl t))
  else s.deadValue x lat w.dq.toNat w.out

/-- The hand-over token of a range (R165). -/
def handoverData (r : Nat) : W32 := BitVec.ofNat 32 (0x484F0000 + r)

/-- Whether the node declares range r as a hand-over range (R165). -/
def State.declares (s : State) (rid r : Nat) : Bool := match (s.region rid).ranges[r]? with | some o => o.hovr | none => false

def setHeld (m : MNode) (r : Nat) (v : Bool) : MNode := if h : r < 8 then { m with held := m.held.set r v } else m

/-- HANDOVER in its GIVE form (R165). -/
def giveWord (w : C2) (x : Issue) (s : State) : State :=
  let r := bits w.imm8.toNat 2 0
  if !x.live then s
  else if !s.declares x.rid r ∨ (s.mn x.rid).held[r]? ≠ some true then s.nodeError x .owner r
  else
    let (t, s) := s.stamp
    (s.setMn x.rid (setHeld (s.mn x.rid) r false)).addNodeSlot x
      { x.nodeSlot .give 1 t with dq := w.dq.toNat, out := true, range := r }

/-- HANDOVER in its TAKE form (R165). -/
def takeWord (w : C2) (x : Issue) (s : State) : State :=
  let r := bits w.imm8.toNat 2 0
  if !x.live then s
  else
    let t := (((qAt (s.mn x.rid).mi (w.sa.toNat % 4)).head?).getD (QTok.of Tok.zero)).tok
    let s := s.popNode x [w.sa]
    if t.ord ∧ !t.ctl ∧ t.rank = 0 ∧ t.data = handoverData r ∧ s.declares x.rid r then
      s.setMn x.rid (setHeld (s.mn x.rid) r true)
    else s.nodeError x .owner r

/-- MFENCE (R166). -/
def mfenceWord (w : C2) (x : Issue) (s : State) : State :=
  let sc := bits w.mod.toNat 2 0
  if x.live then
    let (t, s) := s.stamp
    (s.setMn x.rid (s.mn x.rid).flush).addNodeSlot x { x.nodeSlot .mfence (scopeLat sc) t with range := sc }
  else s

def execLdB (w : C2) (s : State) : Ans := .next (withIssue s w.stg w.grd fun x => nearLoad w 1 (w.mod.getLsbD 2) 0 x s)
def execLdH (w : C2) (s : State) : Ans := .next (withIssue s w.stg w.grd fun x => nearLoad w 2 (w.mod.getLsbD 2) 0 x s)
def execLdW (w : C2) (s : State) : Ans := .next (withIssue s w.stg w.grd fun x => nearLoad w 4 false 0 x s)
def execLdAcq (w : C2) (s : State) : Ans :=
  .next (withIssue s w.stg w.grd fun x =>
    if w.mod.getLsbD 3 then farLoad w (bits w.imm8.toNat 6 4) x s else nearLoad w 4 false (bits w.imm8.toNat 6 4) x s)
def execLdf (w : C2) (s : State) : Ans := .next (withIssue s w.stg w.grd fun x => farLoad w 0 x s)
def execStB (w : C3) (s : State) : Ans := .next (withIssue s w.stg w.grd fun x => nearStore w 1 x s)
def execStH (w : C3) (s : State) : Ans := .next (withIssue s w.stg w.grd fun x => nearStore w 2 x s)
def execStW (w : C3) (s : State) : Ans := .next (withIssue s w.stg w.grd fun x => nearStore w 4 x s)
def execStRel (w : C3) (s : State) : Ans := .next (withIssue s w.stg w.grd fun x => relStore w x s)
def execStf (w : C3) (s : State) : Ans := .next (withIssue s w.stg w.grd fun x => farStore w x s)
def execAtomH (w : C3) (s : State) : Ans := .next (withIssue s w.stg w.grd fun x => nearAtom w 2 x s)
def execAtomW (w : C3) (s : State) : Ans := .next (withIssue s w.stg w.grd fun x => nearAtom w 4 x s)
def execLkup (w : C2) (s : State) : Ans := .next (withIssue s w.stg w.grd fun x => lkupWord w x s)
def execHandoverGive (w : C2) (s : State) : Ans := .next (withIssue s w.stg w.grd fun x => giveWord w x s)
def execHandoverTake (w : C2) (s : State) : Ans := .next (withIssue s w.stg w.grd fun x => takeWord w x s)
def execMfence (w : C2) (s : State) : Ans := .next (withIssue s w.stg w.grd fun x => mfenceWord w x s)
def execAtomfW (w : C3) (s : State) : Ans := .next (withIssue s w.stg w.grd fun x => farAtom w x s)

/-! ## Performing the accesses -/

/-- Whether an access still has to be performed. -/
def NearState.open : NearState → Bool
  | .back _ => false
  | _ => true

/-- Every write that a node issued before a stamp has been performed (R160, R166). -/
def State.writesDone (s : State) (rid stamp : Nat) : Bool :=
  let m := s.mn rid
  m.near.all (fun a => !(a.op.writes && a.st.open && decide (a.stamp < stamp))) &&
  m.far.all (fun a => !((match a.op with | .line _ _ => true | .word op => op.writes) && decide (a.stamp < stamp))) &&
  m.coal.all (fun l => !decide (l.stamp < stamp))

def State.relDone (s : State) (r : Rel) : Bool := r.nodes.all (fun n => s.writesDone n r.stamp)

/-- Whether a near access may be performed: what it must follow is done, and no earlier access of the node to its location
is still open (R158, R160, R174). -/
def State.nearReady (s : State) (rid : Nat) (a : NearAcc) : Bool :=
  a.after.all s.relDone && (!a.rel || s.writesDone rid a.stamp) &&
  (s.mn rid).near.all (fun b => !(b.st.open && decide (b.stamp < a.stamp) && decide (b.off / 4 * 4 < a.off + a.op.width) &&
    decide (a.off / 4 * 4 < b.off + b.op.width)))

/-- The value of a load of raw bytes (R156). -/
def loadValue (width : Nat) (sx : Bool) (raw : Nat) : W32 :=
  match width, sx with
  | 1, true => (BitVec.ofNat 8 raw).signExtend 32
  | 2, true => (BitVec.ofNat 16 raw).signExtend 32
  | _, _ => BitVec.ofNat 32 raw

/-- The value that a lookup finds in the 32 bytes of its set: the lowest way wins (R163). -/
def lookupValue (key : W32) (set : List Byte) : W32 :=
  let at' (o : Nat) : W32 := BitVec.ofNat 32 (ofBytes ((set.drop o).take 4))
  match (List.range 4).find? (fun k => at' (8 * k) == key) with
  | some k => at' (8 * k + 4)
  | none => 0xFFFFFFFF

/-- Perform an operation at a physical location; a store has no value. -/
def State.performOp (s : State) (v : View) (op : NodeOp) (pa : Nat) : W32 × State :=
  match op with
  | .load w sx => let (d, s) := s.readPhys v pa w; (loadValue w sx (ofBytes d), s)
  | .store w d => (0, s.writePhys v pa (toBytes w d.toNat))
  | .atom w sub uns b c => let (o, s) := s.atomic v pa w sub uns b.toNat c.toNat; (BitVec.ofNat 32 o, s)
  | .lookup key => (lookupValue key (memBytes s.mem pa 32), s)

/-- The view of a node's far accesses (R178). -/
def State.nodeView (s : State) (rid key : Nat) : View := View.ofCluster (regionCluster rid) (s.mn rid).acqStamp key

def fillSlot (ident : Nat) (v : W32) (l : List NodeSlot) : List NodeSlot :=
  l.map (fun sl => if sl.ident == ident && sl.value.isNone && ident != 0 then { sl with value := some v } else sl)

/-- Perform a near access at its bank: a value goes back to the node, a store is done (R150, R160, R162). -/
def State.performNear (s : State) (rid : Nat) (a : NearAcc) : State :=
  let c := regionCluster rid
  let (v, s) := s.performOp (s.nodeView rid 0) a.op (scratchAddr c a.off)
  let s := match a.op with
    | .atom _ _ _ _ _ => let k := s.cluster c; s.setCluster c { k with bankHold := (a.off / 4 * 4, 2) :: k.bankHold }
    | _ => s
  let m := s.mn rid
  match a.op with
  | .store _ _ => s.setMn rid { m with near := m.near.filter (fun b => b.ident != a.ident), slots := fillSlot a.ident 0 m.slots }
  | _ => s.setMn rid { m with near := m.near.map (fun b => if b.ident == a.ident then { b with st := .back b.path, value := v } else b) }

/-- A near access reaches its bank on an unfrozen cycle: it is performed, or waits there for what it must follow. -/
def nearReach (rid ident : Nat) (s : State) : State :=
  match (s.mn rid).near.find? (fun a => a.ident == ident) with
  | none => s
  | some a =>
    if s.nearReady rid a then s.performNear rid a
    else
      let m := s.mn rid
      s.setMn rid { m with near := m.near.map (fun b => if b.ident == ident then { b with st := .waiting } else b) }

/-- Write the dirty words of a line (R159). -/
def State.writeWords (s : State) (v : View) (pa mask : Nat) (data : List Byte) : State :=
  (List.range 32).foldl (fun s i => if mask.testBit i then s.writePhys v (pa + 4 * i) ((data.drop (4 * i)).take 4) else s) s

/-- Whether the oldest far access of a node may be performed. -/
def State.farReady (s : State) (rid : Nat) : Bool :=
  match (s.mn rid).far with
  | [] => false
  | a :: _ => a.after.all s.relDone && (!a.rel || (s.mn rid).near.all (fun b => !(b.op.writes && b.st.open && decide (b.stamp < a.stamp))))

/-- Perform the oldest far access of a node. -/
def State.performFar (s : State) (rid : Nat) : State :=
  match (s.mn rid).far with
  | [] => s
  | a :: rest =>
    let s := s.setMn rid { s.mn rid with far := rest }
    let v := s.nodeView rid a.key
    match a.op with
    | .line mask data => s.writeWords v a.pa mask data
    | .word op =>
      let (x, s) := s.performOp v op a.pa
      let s := match op, targetOf a.pa with
        | .atom _ _ _ _ _, .scratch c off => let k := s.cluster c; s.setCluster c { k with bankHold := (off / 4 * 4, 2) :: k.bankHold }
        | _, _ => s
      s.setMn rid { s.mn rid with slots := fillSlot a.ident x (s.mn rid).slots }

/-- The bytes that a far access of a node reaches. -/
def FarAcc.width (a : FarAcc) : Nat := match a.op with | .line _ _ => 128 | .word op => op.width

/-- The oldest far access of a node is performed if it may be (R158), and if it does not lose at the bank it reaches, where it reaches
one (R151, R162). -/
def farAccess (rid : Nat) (s : State) : State :=
  let banks := match (s.mn rid).far with | a :: _ => (scratchBank a.pa).toList | [] => []
  if s.farReady rid && (s.mn rid).far.head?.all (fun a => !s.paShut a.pa a.width) then
    banks.foldl (fun s b => s.useBanks b.1 [b.2]) (s.performFar rid)
  else s

/-- Every access that a node has issued is performed, its buffer written through (R159, R284). -/
def State.settleNode (s : State) (rid : Nat) : State :=
  let s := ((s.mn rid).near.filter (fun a => a.st.open)).foldl (fun s a => s.performNear rid a) s
  let s := s.setMn rid (s.mn rid).flush
  (List.range (s.mn rid).far.length).foldl (fun s _ => s.performFar rid) s

/-- A die cycle passes for the replies on their way back: those that arrive give their slots their values (R150). -/
def MNode.replies (m : MNode) : MNode :=
  let near := m.near.map (fun a => match a.st with | .back n => { a with st := .back (n - 1) } | _ => a)
  let arrived := near.filter (fun a => a.st == .back 0)
  { m with near := near.filter (fun a => a.st != .back 0), slots := arrived.foldl (fun l a => fillSlot a.ident a.value l) m.slots }

/-- Performed and acknowledged releases need not be followed any more. -/
def State.pruneAcqs (s : State) (rid : Nat) : State :=
  let m := s.mn rid
  s.setMn rid { m with acqs := m.acqs.filter (fun r => !s.relDone r) }

end Sys2Proof.Machine
end

