-- ==== Sys2Proof/Machine/Sync.lean ====
section
/-! DEFINITION. Synchronisation, messages and fences (R241 to R261): the message network, semaphores, barriers, handlers, and
the controller instructions over them. -/
namespace Sys2Proof.Machine

/-! ## Controllers as agents -/

/-- The tenant of a cluster's run, or the one that owns the cluster's triad while no run holds it (R367, R380). -/
def State.tenantOf (s : State) (c : Nat) : Nat :=
  match (s.cluster c).owner with
  | some run => (s.run run).tenant
  | none => match List.find? (fun (e : Nat × Tenant) => e.2.triads.contains (triadOf c)) s.tenants with | some e => e.1 | none => 0

/-- The view of a controller's accesses (R178, R180). -/
def State.ctlView (s : State) (c : Nat) : View := { View.ofCluster c (s.ctl c).acqStamp 0 with who := some c }

/-- An acquire of a controller: the data cache's copies of HBM lines go, and at die scope or wider R178 applies (R180, R248). -/
def State.acquireCtl (s : State) (c scope : Nat) : State :=
  let k := s.ctl c
  { s.setCtl c { k with dcache := [], acqStamp := if 3 ≤ scope then s.seq else k.acqStamp } with seq := s.seq + 1 }

/-- The trap of an access that fails (R346, R348). -/
def State.trapAcc (s : State) (c : Nat) (e : AccErr) (kind : AccKind) : State :=
  let w := if kind = .write then 1 else 0
  match e with
  | .translation va l r =>
    s.takeTrap c .translation (BitVec.ofNat 64 va)
      (BitVec.ofNat 64 (l + 16 * r + 256 * w + (if kind = .fetch then 512 else 0)))
  | .access va k => s.takeTrap c .access (BitVec.ofNat 64 va) (BitVec.ofNat 64 (k + 8 * w))

/-- The cluster that a run cluster index names for a controller, 0xFF naming its own (R242). -/
def State.indexed (s : State) (c idx : Nat) : Option Nat := if idx = 0xFF then some c else (s.run (s.runOf c)).clusterAt idx

/-- The bits of an operand outside a mask are zero. -/
def within (v : W64) (mask : Nat) : Bool := v &&& ~~~(BitVec.ofNat 64 mask) == 0

/-! ## The message network (R244) -/

/-- Model names of the senders: a controller by its cluster, a copy or a binding by its own entry in a scheduler. -/
def senderCtl (c : Nat) : Nat := c
def senderEntry (entry : Nat) : Nat := 1000 + entry

/-- Send a message to a cluster. -/
def State.send (s : State) (sender run dest : Nat) (kind : MsgKind) : State :=
  { s with msgs := s.msgs ++ [⟨s.seq, sender, run, dest, kind⟩], seq := s.seq + 1 }

def State.sem (s : State) (c n : Nat) : W64 := (s.cluster c).sems.get 0 n
def State.setSem (s : State) (c n : Nat) (v : W64) : State :=
  let k := s.cluster c
  s.setCluster c { k with sems := k.sems.set n v }

/-! ## Handlers (R254 to R259) -/

/-- The state word of a handler entry (R254). -/
def handlerWord (h : Handler) (pend : Bool) : W64 :=
  BitVec.ofNat 64 (h.mbase + h.logn * 2 ^ 24 + (if h.valid then 2 ^ 28 else 0) + (if h.en then 2 ^ 29 else 0) +
    (if pend then 2 ^ 30 else 0) + h.sem * 2 ^ 32 + (if h.semen then 2 ^ 38 else 0) + h.cred * 2 ^ 39 + h.widx % 4096 * 2 ^ 52)

def State.handler (s : State) (c tag : Nat) : Handler := (s.cluster c).handlers.get Handler.reset tag
def State.setHandler (s : State) (c tag : Nat) (h : Handler) : State :=
  let k := s.cluster c
  s.setCluster c { k with handlers := k.handlers.set tag h }
def State.pendBit (s : State) (c tag : Nat) : Bool := (s.cluster c).pending.get false tag

def Handler.ready (h : Handler) : Bool := h.valid && h.en && decide (0 < h.cred)

/-- The mailbox record of a message (R258). -/
def mailRecord (m : ParkMsg) (widx : Nat) : List Byte :=
  toBytes 8 m.payload.toNat ++ toBytes 1 m.tag ++ [0] ++ toBytes 2 m.sender ++ toBytes 4 widx

/-- Dispatch a message to its handler (R257). -/
def State.dispatch (s : State) (c : Nat) (m : ParkMsg) : State :=
  let h := s.handler c m.tag
  let s := s.acquireCtl c m.scope
  let s := s.writePhys (s.ctlView c) (scratchAddr c (h.mbase + 16 * (h.widx % 2 ^ h.logn))) (mailRecord m h.widx)
  let s := s.setHandler c m.tag { h with widx := (h.widx + 1) % 2 ^ 32, cred := h.cred - 1 }
  if h.semen then s.setSem c h.sem (s.sem c h.sem + 1) else s

/-- Retry: every parked message, oldest first, that no older one of its tag blocks and whose entry is ready (R257). -/
def retryPark (c : Nat) : List ParkMsg → List ParkMsg → State → State
  | [], kept, s => let k := s.cluster c; s.setCluster c { k with park := kept }
  | m :: rest, kept, s =>
    if kept.any (fun k => k.tag == m.tag) || !(s.handler c m.tag).ready then retryPark c rest (kept ++ [m]) s
    else
      let s := s.dispatch c m
      let k := s.cluster c
      let s := s.setCluster c { k with pending := k.pending.set m.tag (rest.any (fun j => j.tag == m.tag)) }
      retryPark c rest kept s

def State.retry (s : State) (c : Nat) : State := retryPark c (s.cluster c).park [] s

/-- A message in the park layout of R342. -/
def ParkMsg.bytes (m : ParkMsg) : List Byte :=
  toBytes 8 m.payload.toNat ++ toBytes 1 m.tag ++ [if m.rel then 1 else 0] ++ toBytes 1 m.scope ++ toBytes 2 m.sender

/-- The MSGOVF trap of a message that the park buffer has no place for (R257, R346). -/
def State.trapOverflow (s : State) (c : Nat) (m : ParkMsg) : State := s.takeTrap c .msgovf 0 (BitVec.ofNat 64 m.tag) m.bytes

/-- Whether a message that arrives is parked, or discarded for want of a place, and not dispatched (R257). -/
def State.parks (s : State) (c : Nat) (m : ParkMsg) : Bool := (s.cluster c).park.any (fun j => j.tag == m.tag) || !(s.handler c m.tag).ready

/-- A message arrives at a cluster (R257). A controller between the halves of an access is at no instruction boundary: its trap is
taken at the next one (R346). -/
def State.arrive (s : State) (c : Nat) (m : ParkMsg) : State :=
  let k := s.cluster c
  if s.parks c m then
    if 8 ≤ k.park.length then
      (if k.ctl.half.isSome then s.setCtl c { k.ctl with overflow := some (k.ctl.overflow.getD m) } else s.trapOverflow c m)
    else s.setCluster c { k with park := k.park ++ [m], pending := k.pending.set m.tag true }
  else s.dispatch c m

/-- The message that is next of its sender to its cluster (R244); a copy's barrier post follows its completion add, whichever cluster
that goes to (R229). -/
def State.firstOf (s : State) (m : Msg) : Bool :=
  let post : Bool := match m.kind with | .post _ _ _ _ => true | _ => false
  match s.msgs.find? (fun k => k.sender == m.sender && (post || k.dest == m.dest)) with
  | some k => k.ident == m.ident
  | none => false

/-- The message that an event names, taken off the network, if it is next of its sender to its cluster (R244). -/
def takeMsg (ident : Nat) (s : State) : Option (Msg × State) :=
  match s.msgs.find? (fun m => m.ident == ident) with
  | none => none
  | some m => if s.firstOf m then some (m, { s with msgs := s.msgs.filter (fun k => k.ident != ident) }) else none

/-- A message that reaches a cluster whose run has ended is discarded (R243). -/
def State.holds (s : State) (c run : Nat) : Bool := (s.cluster c).owner == some run

/-- A SEMADD, a wake write or a signal's add is performed at its unit (R245, R249). -/
def semArrival (s : State) : State :=
  match takeMsg s.focus.num s with
  | some (m, t) =>
    match m.kind with
    | .add sem v => if t.holds m.dest m.run then t.setSem m.dest sem (t.sem m.dest sem + v) else t
    | .wake sem v =>
      if t.holds m.dest m.run then t.setSem m.dest sem (if (t.sem m.dest sem).ult v then v else t.sem m.dest sem) else t
    | _ => s
  | none => s

/-- A handler message arrives (R257). -/
def msgArrival (s : State) : State :=
  match takeMsg s.focus.num s with
  | some (m, t) => match m.kind with | .handler p => (if t.holds m.dest m.run then t.arrive m.dest p else t) | _ => s
  | none => s

/-- A trigger token enters the place that it reserved (R219, R233). -/
def triggerArrival (s : State) : State :=
  match takeMsg s.focus.num s with
  | some (m, t) =>
    match m.kind with
    | .trigger q tok =>
      if t.holds m.dest m.run then
        let k := t.cluster m.dest
        let tq := k.tqs.get TrigQ.empty q
        t.setCluster m.dest { k with tqs := k.tqs.set q ⟨tq.toks ++ [tok], tq.reserved - 1⟩ }
      else t
    | _ => s
  | none => s

def execSemaphoreSignalArrival (s : State) : Ans := .next (semArrival s)
def execMessageArrival (s : State) : Ans := .next (msgArrival s)
def execTriggerTokenArrival (s : State) : Ans := .next (triggerArrival s)

/-! ## Semaphores (R246 to R249) -/

/-- A selector's semaphore, scope and cluster fields (R246). -/
def selSem (v : W64) : Nat := bits v.toNat 5 0
def selScope (v : W64) : Nat := bits v.toNat 10 8
def selCluster (v : W64) : Nat := bits v.toNat 23 16

/-- SEMADD and MSGWAKE: a signal to a semaphore of a cluster of the run (R247, R249). -/
def signalOp (rs1 rs2 : Reg) (mk : Nat → W64 → MsgKind) (s : State) : State :=
  let c := s.focus.cluster
  let v := s.reg c rs1
  if !within v 0xFF073F ∨ 5 < selScope v then s.illegal c
  else match s.indexed c (selCluster v) with
    | none => s.takeTrap c .access 0 0
    | some d => (s.send (senderCtl c) (s.runOf c) d (mk (selSem v) (s.reg c rs2))).retire c

def semsetOp (rd rs1 rs2 : Reg) (s : State) : State :=
  let c := s.focus.cluster
  let v := s.reg c rs1
  if !fits v 6 then s.illegal c
  else (s.setSem c v.toNat (s.reg c rs2)).retireWith c rd (s.sem c v.toNat)

def semrdOp (rd rs1 : Reg) (s : State) : State :=
  let c := s.focus.cluster
  let v := s.reg c rs1
  if !fits v 6 then s.illegal c else s.retireWith c rd (s.sem c v.toNat)

/-- SEMWAIT (R248). -/
def semwaitOp (rd rs1 rs2 : Reg) (s : State) : State :=
  let c := s.focus.cluster
  let v := s.reg c rs1
  let t := s.reg c rs2
  if !within v 0x173F ∨ 5 < selScope v then s.illegal c
  else
    let x := s.sem c (selSem v)
    if x.ult t then s.wait c
    else
      let s := if v.getLsbD 12 then s.setSem c (selSem v) (x - t) else s
      (s.acquireCtl c (selScope v)).retireWith c rd x

def execSemadd (rs1 rs2 : Reg) (s : State) : Ans := .next (signalOp rs1 rs2 .add s)
def execSemset (rd rs1 rs2 : Reg) (s : State) : Ans := .next (semsetOp rd rs1 rs2 s)
def execSemrd (rd rs1 : Reg) (s : State) : Ans := .next (semrdOp rd rs1 s)
def execSemwait (rd rs1 rs2 : Reg) (s : State) : Ans := .next (semwaitOp rd rs1 rs2 s)
def execMsgwake (rs1 rs2 : Reg) (s : State) : Ans := .next (signalOp rs1 rs2 .wake s)

/-! ## Accesses of the class -/

/-- A translated access of one aligned piece by a controller: illegal operands and misalignment trap first (R242). -/
def ctlPlace (c va n : Nat) (kind : AccKind) (allow : Target → Bool) (k : Piece → State → State) (s : State) : State :=
  if va % n ≠ 0 then s.takeTrap c .misalign (BitVec.ofNat 64 va) (BitVec.ofNat 64 (n % 16))
  else match s.place c (s.tenantOf c) kind allow va n with
    | (.error e, s) => s.trapAcc c e kind
    | (.ok (p :: _), s) => k p s
    | (.ok [], s) => s

/-- The words of a scratchpad atomic are held on the next cycle (R162). -/
def State.holdWords (s : State) (p : Piece) : State :=
  match targetOf p.pa with
  | .scratch d off =>
    let k := s.cluster d
    s.setCluster d { k with bankHold := (List.range ((p.len + 3) / 4)).map (fun i => (off / 4 * 4 + 4 * i, 2)) ++ k.bankHold }
  | _ => s

/-- SIGST (R250). A CLUSTER that names no participating cluster traps before the address is looked at (log 93). -/
def sigstOp (rs1 rs2 : Reg) (s : State) : State :=
  let c := s.focus.cluster
  let v := s.reg c rs2
  let sc := bits v.toNat 42 40
  let run := s.runOf c
  let allow : Target → Bool := fun t => match t with
    | .hbm _ => true
    | .scratch d _ => (s.cluster d).owner == some run
    | .slice n _ => n / 21 == dieOf c
    | _ => false
  if !within v 0xFF077FFFFFFFFF ∨ 5 < sc then s.illegal c
  else match s.indexed c (bits v.toNat 55 48) with
    | none => s.takeTrap c .access 0 0
    | some d =>
      ctlPlace c (s.reg c rs1).toNat 4 .write allow (fun p s =>
        let s := s.writePhys { s.ctlView c with key := p.key } p.pa (toBytes 4 (v.toNat % 2 ^ 32))
        let k := s.ctl c
        let s := s.setCtl c { k with dcache := k.dcache.filter (fun l => l.addr != lineOf p.pa) }
        let s := if v.getLsbD 38 then s.send (senderCtl c) run d (.add (bits v.toNat 37 32) 1) else s
        s.retire c) s

def execSigst (rs1 rs2 : Reg) (s : State) : Ans := .next (sigstOp rs1 rs2 s)

/-! ## Barriers (R251 to R253) -/

/-- Only scratch of the issuer's quad may hold a barrier (R251). -/
def barAllowed (c : Nat) : Target → Bool
  | .scratch d _ => d / 4 == c / 4
  | _ => false

/-- The fields of a barrier record (R251). -/
structure Bar where
  arr : Nat
  exparr : Nat
  bytes : Nat
  expbytes : Nat
  phase : Nat
  deriving DecidableEq, Repr

def State.bar (s : State) (pa : Nat) : Bar :=
  let b := memBytes s.mem pa 32
  let f (o n : Nat) : Nat := ofBytes ((b.drop o).take n)
  ⟨f 0 4, f 4 4, f 8 8, f 16 8, f 24 4⟩

def Bar.record (b : Bar) : List Byte :=
  toBytes 4 b.arr ++ toBytes 4 b.exparr ++ toBytes 8 b.bytes ++ toBytes 8 b.expbytes ++ toBytes 4 b.phase ++ toBytes 4 0

/-- Post of R252: none where it ends the run with cause BARRIER. -/
def Bar.post (b : Bar) (a n : Nat) : Option Bar :=
  if b.exparr < b.arr + a ∨ b.expbytes < b.bytes + n then none
  else if b.arr + a = b.exparr ∧ b.bytes + n = b.expbytes then some { b with phase := (b.phase + 1) % 2 ^ 32, arr := 0, bytes := 0 }
  else some { b with arr := b.arr + a, bytes := b.bytes + n }

/-- A post as one atomic on the record, which it holds on the next cycle; its word 0x1C is left as it stands (R162, R252). -/
def State.barPost (s : State) (v : View) (c pa a n : Nat) : State :=
  match (s.bar pa).post a n with
  | none => s.raiseCluster .barrier c 0 pa
  | some b => (s.writePhys v pa (b.record.take 28)).holdWords ⟨pa, 32, 0⟩

/-- The cluster whose scratch holds a barrier record (R251). -/
def barCluster (pa : Nat) : Nat := match targetOf pa with | .scratch c _ => c | _ => 0

/-- A copy's barrier post reaches the record (R229, R244, R252). -/
def postArrival (ident : Nat) (s : State) : State :=
  match takeMsg ident s with
  | some (m, t) =>
    match m.kind with
    | .post c pa a n => if t.holds c m.run then t.barPost (View.ofCluster c 0 0) c pa a n else t
    | _ => s
  | none => s

def barinitOp (rs1 rs2 : Reg) (s : State) : State :=
  let c := s.focus.cluster
  let v := (s.reg c rs2).toNat
  ctlPlace c (s.reg c rs1).toNat 32 .write (barAllowed c) (fun p s =>
    (s.writePhys (s.ctlView c) p.pa (Bar.record ⟨0, bits v 23 0, 0, bits v 63 24, 0⟩)).retire c) s

def bararrOp (rd rs1 rs2 : Reg) (s : State) : State :=
  let c := s.focus.cluster
  let v := (s.reg c rs2).toNat
  ctlPlace c (s.reg c rs1).toNat 32 .write (barAllowed c) (fun p s =>
    match (s.bar p.pa).post (bits v 23 0) (bits v 63 24) with
    | none => s.raiseCluster .barrier c (s.ctl c).insn.toNat (s.reg c rs1).toNat
    | some b => ((s.writePhys (s.ctlView c) p.pa (b.record.take 28)).holdWords p).retireWith c rd (BitVec.ofNat 64 (s.bar p.pa).phase)) s

/-- BARWAIT (R253). -/
def barwaitOp (rd rs1 rs2 : Reg) (s : State) : State :=
  let c := s.focus.cluster
  let v := s.reg c rs2
  if !fits v 32 then s.illegal c
  else ctlPlace c (s.reg c rs1).toNat 32 .read (barAllowed c) (fun p s =>
    let ph := (s.bar p.pa).phase
    let d := (ph + 2 ^ 32 - v.toNat) % 2 ^ 32
    if 1 ≤ d ∧ d ≤ 2 ^ 31 then (s.acquireCtl c 2).retireWith c rd (BitVec.ofNat 64 ph) else s.wait c) s

def execBarinit (rs1 rs2 : Reg) (s : State) : Ans := .next (barinitOp rs1 rs2 s)
def execBararr (rd rs1 rs2 : Reg) (s : State) : Ans := .next (bararrOp rd rs1 rs2 s)
def execBarwait (rd rs1 rs2 : Reg) (s : State) : Ans := .next (barwaitOp rd rs1 rs2 s)

/-! ## Messages and handler entries -/

/-- MSGSEND (R256). -/
def msgsendOp (rs1 rs2 : Reg) (s : State) : State :=
  let c := s.focus.cluster
  let v := s.reg c rs1
  let n := v.toNat
  if !fits v 20 ∨ 5 < bits n 19 17 then s.illegal c
  else match s.indexed c (bits n 7 0) with
    | none => s.takeTrap c .access 0 0
    | some d => (s.send (senderCtl c) (s.runOf c) d
        (.handler ⟨s.reg c rs2, bits n 15 8, v.getLsbD 16, bits n 19 17, (s.cluster c).idx⟩)).retire c

/-- A handler entry after HTSET (R254, R259). -/
def Handler.set (h : Handler) (v : W64) : Handler :=
  let n := v.toNat
  { h with mbase := bits n 23 0, logn := bits n 27 24, valid := v.getLsbD 28, cred := 2 ^ bits n 27 24, widx := 0, sem := bits n 37 32, semen := v.getLsbD 38 }

/-- A handler entry after HTEN (R255). -/
def Handler.enable (h : Handler) (v : W64) : Handler :=
  let h := if v.getLsbD 1 then { h with en := v.getLsbD 0 } else h
  if h.valid then { h with cred := min (h.cred + bits v.toNat 31 16) (2 ^ h.logn) } else h

/-- The records that dispatches to an entry write, of up to n messages: as many as it has credits for (R257). -/
def Handler.pieces (h : Handler) (c n : Nat) : List Piece :=
  if h.ready then (List.range (min n h.cred)).map (fun i => ⟨scratchAddr c (h.mbase + 16 * ((h.widx + i) % 2 ^ h.logn)), 16, 0⟩) else []

/-- HTSET (R254, R259). -/
def htsetOp (rd rs1 rs2 : Reg) (s : State) : State :=
  let c := s.focus.cluster
  let tag := s.reg c rs1
  let v := s.reg c rs2
  let n := v.toNat
  let logn := bits n 27 24
  if !fits tag 8 ∨ !within v 0x7F1FFFFFF0 ∨ 12 < logn then s.illegal c
  else if v.getLsbD 28 ∧ s.scrcap < bits n 23 0 + 16 * 2 ^ logn then s.takeTrap c .access 0 (BitVec.ofNat 64 1)
  else
    let t := tag.toNat
    let h := s.handler c t
    let old := handlerWord h (s.pendBit c t)
    let s := s.setHandler c t (h.set v)
    (s.retry c).retireWith c rd old

/-- HTEN (R255). -/
def htenOp (rd rs1 rs2 : Reg) (s : State) : State :=
  let c := s.focus.cluster
  let tag := s.reg c rs1
  let v := s.reg c rs2
  if !fits tag 8 ∨ !within v 0xFFFF0003 then s.illegal c
  else
    let t := tag.toNat
    let h := s.handler c t
    let old := handlerWord h (s.pendBit c t)
    ((s.setHandler c t (h.enable v)).retry c).retireWith c rd old

def htpendOp (rd rs1 : Reg) (s : State) : State :=
  let c := s.focus.cluster
  let v := s.reg c rs1
  if !fits v 2 then s.illegal c
  else s.retireWith c rd (BitVec.ofNat 64 (((List.range 64).map (fun j => if s.pendBit c (64 * v.toNat + j) then 2 ^ j else 0)).sum))

def htrdOp (rd rs1 : Reg) (s : State) : State :=
  let c := s.focus.cluster
  let v := s.reg c rs1
  if !fits v 8 then s.illegal c else s.retireWith c rd (handlerWord (s.handler c v.toNat) (s.pendBit c v.toNat))

def execMsgsend (rs1 rs2 : Reg) (s : State) : Ans := .next (msgsendOp rs1 rs2 s)
def execHtset (rd rs1 rs2 : Reg) (s : State) : Ans := .next (htsetOp rd rs1 rs2 s)
def execHten (rd rs1 rs2 : Reg) (s : State) : Ans := .next (htenOp rd rs1 rs2 s)
def execHtpend (rd rs1 : Reg) (s : State) : Ans := .next (htpendOp rd rs1 s)
def execHtrd (rd rs1 : Reg) (s : State) : Ans := .next (htrdOp rd rs1 s)

/-! ## Fences (R168, R260, R261) -/

/-- Whether two clusters lie in one instance of a scope; region scope acts as cluster scope for controllers (R168). -/
def sameInstance (scope a b : Nat) : Bool :=
  match scope with
  | 0 => a == b
  | 1 => a == b
  | 2 => a / 4 == b / 4
  | 3 => dieOf a == dieOf b
  | _ => true

/-- FENCE.S: every earlier access has been performed when it is executed; it acquires at its scope (R260). -/
def fenceSOp (scope : Reg) (s : State) : State :=
  let c := s.focus.cluster
  if 5 < scope.toNat then s.illegal c else (s.acquireCtl c scope.toNat).retire c

/-- IINV: every controller of the run in the instance discards its instruction cache, and fetches afresh (R261). -/
def iinvOp (scope : Reg) (s : State) : State :=
  let c := s.focus.cluster
  let sc := scope.toNat
  if 4 < sc then s.illegal c
  else
    let run := s.runOf c
    let s := (s.run run).clusters.foldl (fun s d =>
      if sameInstance sc c d then
        let k := s.ctl d
        s.setCtl d { k with icache := [], fetchStamp := s.seq }
      else s) s
    ({ s with seq := s.seq + 1 }).retire c

def execFenceS (scope : Reg) (s : State) : Ans := .next (fenceSOp scope s)
def execIinv (scope : Reg) (s : State) : Ans := .next (iinvOp scope s)

end Sys2Proof.Machine
end

