-- ==== Sys2Proof/Machine/Stream.lean ====
section
/-! DEFINITION. Stream engines (R208 to R222, R234 to R236): shape records, bindings, the footprint scheduler that they share
with copies (R227, R228), and the events of a binding. -/
namespace Sys2Proof.Machine

/-! ## Shape records (R208 to R212) -/

/-- A shape record, its fields as numbers (R208, R209). -/
structure ShapeRec where
  base : Nat
  ibase : Nat
  counts : List Nat
  strides : List Int
  ctrl : Nat
  sstride : Int
  tag0 : Nat
  taginc : Nat
  bsem : Nat
  bscope : Nat
  imax : Nat
  deriving DecidableEq, Repr

/-- A two's complement number of w bits. -/
def signed (v w : Nat) : Int := if v.testBit (w - 1) then (v : Int) - 2 ^ w else v

def ShapeRec.of (b : List Byte) : ShapeRec :=
  { base := fieldAt b 0 8, ibase := fieldAt b 8 8,
    counts := (List.range 4).map (fun d => fieldAt b (0x10 + 8 * d) 4),
    strides := (List.range 4).map (fun d => signed (fieldAt b (0x14 + 8 * d) 4) 32),
    ctrl := fieldAt b 0x30 4, sstride := signed (fieldAt b 0x34 4) 32, tag0 := fieldAt b 0x38 1, taginc := fieldAt b 0x39 1,
    bsem := fieldAt b 0x3A 1, bscope := fieldAt b 0x3B 1, imax := fieldAt b 0x3C 4 }

def ShapeRec.dir (r : ShapeRec) : Bool := r.ctrl.testBit 0
def ShapeRec.virt (r : ShapeRec) : Bool := r.ctrl.testBit 1
def ShapeRec.indir (r : ShapeRec) : Bool := r.ctrl.testBit 2
def ShapeRec.idim (r : ShapeRec) : Nat := bits r.ctrl 4 3
def ShapeRec.evf (r : ShapeRec) : Bool := r.ctrl.testBit 5
def ShapeRec.mx (r : ShapeRec) : Bool := r.ctrl.testBit 6
def ShapeRec.rk (r : ShapeRec) (k : Nat) : Nat := bits r.ctrl (8 + 2 * k) (7 + 2 * k)
def ShapeRec.eos (r : ShapeRec) : Bool := r.ctrl.testBit 13
def ShapeRec.relr (r : ShapeRec) : Bool := r.ctrl.testBit 14
def ShapeRec.count (r : ShapeRec) (d : Nat) : Nat := (r.counts[d]?).getD 0
def ShapeRec.stride (r : ShapeRec) (d : Nat) : Int := (r.strides[d]?).getD 0
/-- T (R210). -/
def ShapeRec.total (r : ShapeRec) : Nat := r.counts.foldl (· * ·) 1
/-- P: the product of the counts below IDIM (R210). -/
def ShapeRec.below (r : ShapeRec) : Nat := (r.counts.take r.idim).foldl (· * ·) 1

/-- What the record is used for: a token port, a row port, a copy. -/
inductive ShapeUse where
  | token | row | copy
  deriving DecidableEq, Repr

/-- The conditions of R212 other than DIR: whether the record breaks one. -/
def ShapeRec.bad (r : ShapeRec) (use : ShapeUse) : Bool :=
  let copy := use == .copy
  decide (2 ^ 15 ≤ r.ctrl) || r.bsem.testBit 6 || decide (5 < r.bscope) ||
  decide (2 ^ (if r.virt then 52 else 24) ≤ r.base) ||
  (r.ibase != 0 && !r.indir && !r.mx) || (r.imax != 0 && !r.indir) ||
  (!copy && r.total == 0) || decide (2 ^ 48 ≤ r.total) || (r.indir && r.imax == 0) ||
  (copy && r.indir && r.idim == 0) || (copy && r.stride 0 != 1) ||
  (r.mx && (use != .row || r.indir)) ||
  (use != .token && (r.rk 0 != 0 || r.rk 1 != 0 || r.rk 2 != 0 || r.eos)) ||
  (r.relr && (copy || !r.dir)) ||
  (use != .row && (r.tag0 != 0 || r.taginc != 0 || r.sstride != 0)) ||
  (copy && (r.bsem != 0 || r.bscope != 0))

/-- Addr(n) with the gathered index x (R210). -/
def ShapeRec.addr (r : ShapeRec) (n x : Nat) : Int :=
  ((List.range 4).foldl (fun (p : Int × Nat) d =>
    let i := if r.indir && d == r.idim then x else p.2 % r.count d
    (p.1 + (i : Int) * r.stride d, p.2 / r.count d)) ((r.base : Int), n)).1

/-- Rank(n) (R210). -/
def ShapeRec.rank (r : ShapeRec) (n : Nat) : Nat :=
  let p (k : Nat) : Nat := (r.counts.take (k + 1)).foldl (· * ·) 1
  let at' (k : Nat) : Nat := if (n + 1) % p k = 0 then r.rk k else 0
  if n + 1 = r.total ∧ r.eos then 3 else max (at' 0) (max (at' 1) (at' 2))

/-- The extent of the pattern: its lowest byte and the byte past its highest (R227). -/
def ShapeRec.extent (r : ShapeRec) (esize : Nat) : Int × Int :=
  if r.total = 0 then (r.base, r.base)
  else
    let (lo, hi) := (List.range 4).foldl (fun (p : Int × Int) d =>
      let m : Int := (if r.indir && d == r.idim then r.imax else r.count d) - 1
      let v := r.stride d * m
      (p.1 + min 0 v, p.2 + max 0 v)) ((r.base : Int), (r.base : Int))
    (lo, hi + esize)

/-- Bytes of a range that are addresses, as a footprint. -/
def footOf (near write : Bool) (lo hi : Int) : Foot := ⟨near, write, (max lo 0).toNat, (hi - max lo 0).toNat⟩

/-- The footprints that a record implies (R211, R227); `ported` where its indices come from a page port, and none from memory (R218). -/
def ShapeRec.foots (r : ShapeRec) (esize : Nat) (ported : Bool := false) : List Foot :=
  let (lo, hi) := r.extent esize
  let s := r.sstride * ((r.total : Int) - 1)
  [footOf (!r.virt) r.dir lo hi] ++
  (if r.indir && !ported then [⟨false, false, r.ibase, 4 * (r.total / r.below)⟩] else []) ++
  (if r.mx then [footOf false false ((r.ibase : Int) + min 0 s) ((r.ibase : Int) + max 0 s + 4)] else [])

/-! ## The scheduler (R228) -/

def Foot.clash (a b : Foot) : Bool :=
  a.near == b.near && (a.write || b.write) && decide (a.base < b.base + b.len) && decide (b.base < a.base + a.len) &&
  a.len != 0 && b.len != 0

/-- An entry arrives: it waits for every earlier entry whose footprints clash with its own (R228). -/
def State.schedEnter (s : State) (c : Nat) (copy : Option Nat) (bind : Nat × Nat) (foots : List Foot) : Nat × State :=
  let (t, s) := s.stamp
  let k := s.cluster c
  let preds := (k.sched.filter (fun e => e.foots.any (fun f => foots.any f.clash))).map (·.ident)
  (t, s.setCluster c { k with sched := k.sched ++ [⟨t, copy, bind, foots, preds⟩] })

/-- An entry completes or is removed: nothing waits for it any more (R228, R230). -/
def State.schedLeave (s : State) (c ident : Nat) : State :=
  let k := s.cluster c
  s.setCluster c { k with sched := (k.sched.filter (fun e => e.ident != ident)).map (fun e => { e with preds := e.preds.filter (· != ident) }) }

/-- The number of incomplete predecessors of an entry. -/
def Cluster.preds (k : Cluster) (ident : Nat) : Nat :=
  match k.sched.find? (fun e => e.ident == ident) with
  | some e => e.preds.length
  | none => 0

/-- Whether an accepted PGPLACE that an entry follows has not taken effect (R294). -/
def Cluster.behindPlace (k : Cluster) (ident : Nat) : Bool :=
  k.cmds.any (fun m => decide (m.ident < ident) && (match m.instr with | .pgplace _ _ => true | _ => false))

/-! ## Ports of a page -/

/-- The destinations of a source code in the regions of a page: region and destination index (R275). -/
def State.destsOf (s : State) (pid code : Nat) : List (Nat × Nat) :=
  (s.regionsOf pid).flatMap (fun rid => ((s.region rid).routes.filter (fun e => e.2 == code)).map (fun e => (rid, e.1)))

/-- The source code of a page input port (R275). -/
def inCode (sreg p : Nat) : Nat := sreg * 4096 + 0x40 + p

/-- The row queues that an input port feeds: region, and 276 a0, 277 a1, 278 b (R182). -/
def State.rowDests (s : State) (pid sreg p : Nat) : List (Nat × Nat) :=
  (s.destsOf pid (inCode sreg p)).filter (fun d => decide (276 ≤ d.2) && decide (d.2 ≤ 278))

/-- The region whose xnode.d feeds an output port (R182). -/
def State.drainOf (s : State) (pid sreg p : Nat) : Option Nat :=
  let pg := s.page pid
  match (s.region (pg.region sreg)).routes.find? (256 + p) with
  | some code => if code % 4096 = 0x54 then some (pg.region (code / 4096)) else none
  | none => none

/-- Whether a port code names a row port. -/
def State.rowPort (s : State) (pid code : Nat) : Bool :=
  let p := code % 32
  let sreg := code / 32
  if p < 16 then !(s.rowDests pid sreg p).isEmpty else (s.drainOf pid sreg (p - 16)).isSome

/-- Whether a page has a port of a code (R273). -/
def State.hasPort (s : State) (pid code : Nat) : Bool :=
  let pg := s.page pid
  let r := s.region (pg.region (code / 32))
  decide (code / 32 < pg.w * pg.h) && (if code % 32 < 16 then r.inmask.testBit (code % 32) else r.outmask.testBit (code % 32 - 16))

/-- What a port is connected to (R55). -/
inductive PortConn where
  | edge (e : Nat)
  | chan (h : Nat)
  | static
  | follower
  | opened
  | absent
  deriving DecidableEq, Repr

/-- The connection of a port of a page. -/
def State.portConn (s : State) (pid code : Nat) : PortConn :=
  let pg := s.page pid
  let r := s.run pg.run
  let g := r.graphs.get Graph.none pg.graph
  let out := decide (16 ≤ code % 32)
  match List.find? (fun (e : Nat × Edge) => if out then e.2.ppage == pg.handle && e.2.pport == code else e.2.cpage == pg.handle && e.2.cport == code) r.edges with
  | some e => .edge e.1
  | none =>
    match List.find? (fun (e : Nat × XChan) => if out then e.2.ppage == pg.handle && e.2.pport == code else e.2.cpage == pg.handle && e.2.cport == code) r.chans with
    | some e => .chan e.1
    | none =>
      if r.seams.any (fun m => m.followers.contains (pg.handle, code)) then .follower
      else match g.binds.find? (fun b => b.page == pg.index && b.port == code) with
        | some b => if b.shapeNone then .opened else .static
        | none => .absent

/-! ## Installing (R214, R235) -/

def Binding.shape (b : Binding) : ShapeRec := ShapeRec.of b.record
/-- Whether channel c of a region reads from memory (R214). -/
def chanReads (c : Nat) : Bool := c % 2 == 0

/-- The element size of a binding (R210). -/
def State.esize (s : State) (pid sreg : Nat) (b : Binding) : Nat := if s.rowPort pid (b.port + 32 * sreg) then 64 else 4

/-- A binding becomes current: it enters the scheduler (R228). -/
def State.makeCurrent (s : State) (rid ch : Nat) (b : Binding) : State :=
  let foots := if b.kind = .trigger then [] else b.shape.foots (s.esize (s.pageOf rid) (s.sregOf rid) b) (b.kind == .indexed)
  let (t, s) := s.schedEnter (regionCluster rid) none (rid, ch) foots
  s.setChan rid ch { s.chan rid ch with cur := some { b with entry := t } }

/-- A channel with a binding that it accepts, with the next SEQ: current if the channel is empty, and pending otherwise (R214, R235). -/
def Chan.accept (k : Chan) (b : Binding) : Chan :=
  let b := { b with seq := k.nextSeq }
  let k := { k with nextSeq := (k.nextSeq + 1) % 65536 }
  match k.cur with
  | none => { k with cur := some b }
  | some _ => { k with pend := some b }

/-- A channel accepts a binding, with the next SEQ (R214, R235). -/
def State.installBinding (s : State) (rid ch : Nat) (b : Binding) : State :=
  let k := s.chan rid ch
  let b := { b with seq := k.nextSeq }
  let s := s.setChan rid ch { k with nextSeq := (k.nextSeq + 1) % 65536 }
  match k.cur with
  | none => s.makeCurrent rid ch b
  | some _ => s.setChan rid ch { s.chan rid ch with pend := some b }

def Binding.fresh (kind : BindKind) (start port iport target : Nat) (record : List Byte) (acq : Nat) : Binding :=
  { seq := 0, kind := kind, start := start, port := port, iport := iport, target := target, record := record, moving := false,
    cursor := 0, nextIdx := 0, lastIdx := 0, moved := 0, addBytes := 0, replies := [], entry := 0, acqStamp := acq, late := false,
    stopping := false, ended := false, staticB := false, acqs := [], trans := [] }

/-- A command is refused (R205). -/
def State.refuse (s : State) (c : Nat) (rd : Reg) (code : Nat) : State := s.retireWith c rd (BitVec.ofNat 64 (2 ^ 63 + code))

/-- The page of a run that a handle names, if it is resident on a cluster and has not retired (R205). -/
def State.resident (s : State) (c handle : Nat) : Option Nat :=
  let pid := pidOf (s.runOf c) handle
  let p := s.page pid
  if p.run = s.runOf c ∧ 3 ≤ p.level ∧ p.level ≤ 5 ∧ p.cluster = c then some pid else none

/-- Whether an accepted PGPLACE that has not taken effect places the page (R205). -/
def State.placePending (s : State) (c handle : Nat) : Bool :=
  let p := s.page (pidOf (s.runOf c) handle)
  p.run == s.runOf c && decide (p.level < 3) &&
  (s.cluster c).cmds.any (fun m => match m.instr with
    | .pgplace _ _ => m.graph == p.graph && bits m.rs1.toNat 7 0 == p.wave
    | _ => false)

/-! ## Bindings behind accepted commands (R205, R206) -/

/-- The page handle, SREG and channel of the binding that a queued command installs. -/
def Cmd.binds (m : Cmd) : Option (Nat × Nat × Nat) :=
  let v := m.rs2.toNat
  match m.instr with
  | .stbind _ _ _ | .stbindi _ _ _ => some (bits v 23 16, bits v 32 29, 2 * bits v 33 33 + (if 16 ≤ bits v 28 24 then 1 else 0))
  | _ => none

/-- The command is accepted: its instruction retires with a result, and it takes effect in the queue's order. -/
def State.enqueue (s : State) (c : Nat) (rd : Reg) (i : Instr) (v1 v2 : W64) (graph : Nat) (result : W64) (record : List Byte := []) : State :=
  let (t, s) := s.stamp
  let k := s.cluster c
  let s := s.setCluster c { k with cmds := k.cmds ++ [⟨t, (s.ctl c).insn, i, v1, v2, graph, record, s.seq⟩] }
  s.retireWith c rd result

/-- The binding of a queued STBIND or STBINDI. -/
def Cmd.binding (m : Cmd) : Binding :=
  let v := m.rs2.toNat
  let kind : BindKind := match m.instr with | .stbindi _ _ _ => .indexed | _ => if v.testBit 34 then .trigger else .plain
  Binding.fresh kind (bits v 15 0) (bits v 28 24) (bits v 39 35) (if v.testBit 34 then m.rs1.toNat else 0) m.record m.acq

/-- A queued binding takes effect, if its page is still there; one that finds two bindings on its channel, as an SVLOAD may have put them
there, waits in the queue for one to end (log 99). -/
def State.installQueued (s : State) (c : Nat) (m : Cmd) : Bool × State :=
  match m.binds with
  | none => (true, s)
  | some (h, sreg, ch) =>
    match s.resident c h with
    | none => (true, s)
    | some pid =>
      let rid := (s.page pid).region sreg
      let k := s.chan rid ch
      if k.cur.isSome ∧ k.pend.isSome then (false, s) else (true, s.installBinding rid ch m.binding)

/-! ## Completion (R217, R220, R221) -/

/-- A binding that STSTOP or retirement ends: a read discards its replies, a write writes what it has taken (R221). -/
def Binding.halt (b : Binding) (reads : Bool) : Binding := { b with stopping := true, replies := if reads then [] else b.replies }

/-- Whether a current binding has completed: a read binding with its last delivery (R216), a write binding once element T − 1, or the
token of rank 3, and all that it took before are written (R217). -/
def Binding.complete (b : Binding) (reads : Bool) : Bool :=
  if b.kind = .trigger then b.ended || b.stopping
  else if reads then b.stopping || decide (b.shape.total ≤ b.cursor)
  else b.replies.isEmpty && (b.ended || b.stopping || decide (b.shape.total ≤ b.cursor))

/-- The add of a binding: at its completion (R220), and with RELR = 1 at the end of each run of dimension 0, of the bytes written since
the last add (R217). -/
def State.bindingAdd (s : State) (rid _ch : Nat) (b : Binding) : State :=
  let sh := b.shape
  let c := regionCluster rid
  if b.kind = .trigger ∨ !sh.bsem.testBit 7 then s
  else s.send (senderEntry b.entry) (s.runOf c) c (.add (bits sh.bsem 5 0) (BitVec.ofNat 64 b.addBytes))

/-- A channel whose current binding has ended, and whose pending one is removed or taken over (R214, R236). -/
def Chan.finish (k : Chan) (b : Binding) : Chan :=
  { k with cur := none, pend := none, lastSeq := b.seq, lastMoved := b.moved, ended := true, late := b.late, stopped := b.stopping }

/-- The current binding ends: its add is made, and the pending binding becomes current (R214, R220). A page that has been
captured keeps it pending (R327). -/
def State.endBinding (s : State) (rid ch : Nat) : State :=
  let k := s.chan rid ch
  match k.cur with
  | none => s
  | some b =>
    let s := if b.shape.relr ∧ b.addBytes = 0 then s else s.bindingAdd rid ch b
    let s := s.schedLeave (regionCluster rid) b.entry
    let k := k.finish b
    let p := s.page (s.pageOf rid)
    match s.chan rid ch |>.pend with
    | none => s.setChan rid ch k
    | some n => if p.captured then s.setChan rid ch { k with pend := some n } else (s.setChan rid ch k).makeCurrent rid ch n

/-- BINDING_COMPLETION (R217, R220, R221): a current binding that has moved and written all that it has to ends. -/
def bindingCompletion (s : State) : State :=
  let rid := s.focus.region
  let ch := s.focus.num
  match (s.chan rid ch).cur with
  | some b =>
    -- a read binding that a page which already retires has accepted ends at once (R221)
    if chanReads ch ∧ (s.page (s.pageOf rid)).level = 5 then (s.setChan rid ch { s.chan rid ch with cur := some (b.halt true) }).endBinding rid ch
    else if b.complete (chanReads ch) then s.endBinding rid ch else s
  | none => s

def execBindingCompletion (s : State) : Ans := .next (bindingCompletion s)

/-! ## Moving data (R210, R211, R215 to R219) -/

def State.setCur (s : State) (rid ch : Nat) (b : Binding) : State := s.setChan rid ch { s.chan rid ch with cur := some b }

/-- An engine of a cluster has moved a byte for its run (R26). -/
def State.noteMove (s : State) (c : Nat) : State :=
  match (s.cluster c).owner with
  | some run => s.setRun run { s.run run with moved := true }
  | none => s

/-- A binding ends its run in error, naming its page and region; the offending value is an address, or of an INDEX error the index (R285). -/
def State.raiseBinding (s : State) (cause : Cause) (rid value : Nat) : State :=
  let p := s.page (s.pageOf rid)
  let e := { ErrRec.of cause (s.die p.die).tick with page := p.handle, sreg := s.sregOf rid, cluster := (s.cluster p.cluster).idx }
  s.raise p.run (if cause = .index then { e with word := value } else { e with addr := value })

/-- A binding may issue its first access (R215). -/
def State.canStart (s : State) (rid : Nat) (b : Binding) : Bool :=
  let p := s.page (s.pageOf rid)
  let k := s.cluster (regionCluster rid)
  !b.moving && !p.captured && decide (4 ≤ p.level) && decide (p.level ≤ 5) && decide (b.start ≤ p.unfrozen) && k.preds b.entry == 0 && !k.behindPlace b.entry

/-- Whether the cycle on which the count of unfrozen cycles reached a start has passed (R215). -/
def Page.passed (p : Page) (start : Nat) : Bool := decide (start < p.unfrozen) || (p.unfrozen == start && p.atCount != 0)

def bindingStart (s : State) : State :=
  let rid := s.focus.region
  let ch := s.focus.num
  match (s.chan rid ch).cur with
  | some b => if s.canStart rid b then s.setCur rid ch { b with moving := true, late := (s.page (s.pageOf rid)).passed b.start } else s
  | none => s

def execBindingStart (s : State) : Ans := .next (bindingStart s)

/-- The view of a binding's accesses, those to its index array and its scale words among them (R207, R213). -/
def Binding.view (b : Binding) (rid : Nat) : View := { View.ofCluster (regionCluster rid) b.acqStamp 0 with evf := b.shape.evf }

/-- Translate an access of one stream of an engine's addresses: the leaf that it holds serves while the access stays in its page, and
the last leaf used is held (R213); `since` is its place in its cluster's scheduler (R266), `fuel` pages of 64 KiB at most. -/
def State.enginePieces (s : State) (c tenant since : Nat) (kind : AccKind) (held : Option TlbEnt) : Nat → Nat → Nat → Except AccErr (List Piece × Option TlbEnt) × State
  | 0, _, _ => (.ok ([], held), s)
  | fuel + 1, va, n =>
    if n = 0 then (.ok ([], held), s)
    else
      let m := min n (0x10000 - va % 0x10000)
      let (leaf, s) : WalkResult × State := match held with
        | some e => if e.covers va then (.ok e, s) else s.leafFor c tenant va
        | none => s.leafFor c tenant va
      match leaf with
      | .error (l, r) => (.error (.translation va l r), s)
      | .ok e =>
        match s.checkLeaf tenant va kind (fun _ => true) e m (some since) with
        | .error x => (.error x, s)
        | .ok p =>
          match s.enginePieces c tenant since kind (some e) fuel (va + m) (n - m) with
          | (.error x, s) => (.error x, s)
          | (.ok (l, h), s) => (.ok (p :: l, h), s)

/-- The agent that an engine's access is made for: its cluster, its tenant, its entry in the scheduler. -/
structure EngineOf where
  cluster : Nat
  tenant : Nat
  entry : Nat
  deriving DecidableEq, Repr

/-- The pieces of a virtual access of an engine, and the translations it then holds (R16, R213): `n` is the stream of addresses. -/
def State.enginePlace (s : State) (g : EngineOf) (kind : AccKind) (trans : Tab TlbEnt) (n : Nat) (va : Int) (len : Nat) :
    Except AccErr (List Piece × Tab TlbEnt) × State :=
  if va < 0 ∨ (2 ^ 52 : Int) ≤ va then (.error (.access va.toNat 0), s)
  else match s.enginePieces g.cluster g.tenant g.entry kind (trans.find? n) (len / 0x10000 + 2) va.toNat len with
    | (.error e, s) => (.error e, s)
    | (.ok (l, h), s) =>
    let s := (l.filterMap (fun p => scratchBank p.pa)).foldl (fun s b => s.useBanks b.1 [b.2]) s
    (.ok (l, match h with | some e => trans.set n e | none => trans), s)

/-- Whether an access to a virtual range of a tenant reaches a scratch bank and loses there (R151, R162). -/
def State.virtTaken (s : State) (tenant va n : Nat) : Bool :=
  match s.walk tenant va with
  | .ok e => s.paShut (e.pa + (va - e.va)) n
  | .error _ => false

/-- A virtual read or write of an engine of a cluster. -/
def State.engineRead (s : State) (v : View) (g : EngineOf) (trans : Tab TlbEnt) (n : Nat) (va : Int) (len : Nat) :
    Except AccErr (List Byte × Tab TlbEnt) × State :=
  match s.enginePlace g .read trans n va len with
  | (.error e, s) => (.error e, s)
  | (.ok (l, tr), s) => let (d, s) := s.readPieces v l; (.ok (d, tr), s)
def State.engineWrite (s : State) (v : View) (g : EngineOf) (trans : Tab TlbEnt) (n : Nat) (va : Int) (d : List Byte) :
    Except AccErr (State × Tab TlbEnt) × State :=
  match s.enginePlace g .write trans n va d.length with
  | (.error e, s) => (.error e, s)
  | (.ok (l, tr), s) => (.ok (s.writePieces v l d, tr), s)

def State.engineOf (s : State) (rid : Nat) (b : Binding) : EngineOf := ⟨regionCluster rid, s.tenantOf (regionCluster rid), b.entry⟩

/-- Whether another channel's STBINDI binding holds an output port as its index port (R218): a write binding of the port waits for
it, and so does a later index binding. -/
def State.portHeld (s : State) (rid : Nat) (b : Binding) (port : Nat) : Bool :=
  (List.range 4).any (fun ch => match (s.chan rid ch).cur with
    | some x => x.kind == .indexed && x.iport == port && x.entry != b.entry && (b.kind != .indexed || decide (x.entry < b.entry))
    | none => false)

/-- The index of element n, read or taken in pattern order where a new ordinal begins (R210, R211, R218); none where no index token
is present. A token of rank 0 to 3 alike is peeked here, and popped with the last element of its ordinal (log 16). -/
def State.nextIndex (s : State) (rid : Nat) (b : Binding) (n : Nat) : Option (Except (Cause × Nat) Nat × Binding × State) :=
  let sh := b.shape
  let j := n / sh.below
  if !sh.indir then some (.ok 0, b, s)
  else if j < b.nextIdx then some (.ok b.lastIdx, b, s)
  else
    let check (x : Nat) (b : Binding) (s : State) : Except (Cause × Nat) Nat × Binding × State :=
      let b := { b with nextIdx := j + 1, lastIdx := x }
      if sh.imax ≤ x then (.error (.index, x), b, s) else (.ok x, b, s)
    if b.kind = .indexed then
      match (s.outp rid (b.iport - 16)).q.head? with
      | none => none
      | some t =>
        if s.portHeld rid b b.iport then none
        else
          let b := if t.tok.ord then { b with acqs := t.acquires rid ++ b.acqs, acqStamp := s.seq } else b
          some (check t.tok.data.toNat b { s with seq := s.seq + 1 })
    else
      match s.engineRead (b.view rid) (s.engineOf rid b) b.trans 1 ((sh.ibase : Int) + 4 * j) 4 with
      | (.error e, s) => some (.error (e.cause, e.addr), b, s)
      | (.ok (d, tr), s) => some (check (ofBytes d) { b with trans := tr } s)

/-- The index token of an ordinal is popped once the last element of the ordinal has been accessed (R218; log 16). -/
def State.dropIndex (s : State) (rid : Nat) (b : Binding) (n : Nat) : State :=
  if b.kind = .indexed ∧ (n + 1) % b.shape.below = 0 then
    let o := s.outp rid (b.iport - 16)
    s.setOutp rid (b.iport - 16) { o with q := o.q.pop }
  else s

/-- The checked address of an element (R210). -/
def State.elemAddr (s : State) (rid : Nat) (b : Binding) (n x : Nat) : Except (Cause × Nat) Nat :=
  let sh := b.shape
  let a := sh.addr n x
  let e := s.esize (s.pageOf rid) (s.sregOf rid) b
  let top : Int := if sh.virt then 2 ^ 52 else s.scrcap
  if a < 0 ∨ top ≤ a then .error (.access, a.toNat)
  else if a.toNat % e ≠ 0 then .error (.align, a.toNat)
  else .ok a.toNat

/-- Whether a read binding may issue its next access (R215). -/
def Binding.mayRead (b : Binding) : Bool := b.moving && !b.stopping && decide (b.replies.length < 64) && decide (b.cursor + b.replies.length < b.shape.total)

/-- A read binding accesses its next element: the reply waits for delivery (R215, R216). -/
def State.readElement (s : State) (rid ch : Nat) (b : Binding) : State :=
  let n := b.cursor + b.replies.length
  let sh := b.shape
  let c := regionCluster rid
  match s.nextIndex rid b n with
  | none => s
  | some (.error (k, a), b, s) => (s.setCur rid ch b).raiseBinding k rid a
  | some (.ok x, b, s) =>
    match s.elemAddr rid b n x with
    | .error (k, a) => (s.setCur rid ch b).raiseBinding k rid a
    | .ok a =>
      -- what an index token with ORD has acquired comes first (R218)
      if !b.acqs.all s.relDone then s.setCur rid ch b
      else
        let e := s.esize (s.pageOf rid) (s.sregOf rid) b
        let (d, s) : Except AccErr (List Byte × Tab TlbEnt) × State :=
          if sh.virt then s.engineRead (b.view rid) (s.engineOf rid b) b.trans 0 a e else (.ok (memBytes s.mem (scratchAddr c a) e, b.trans), s)
        match d with
        | .error x => (s.setCur rid ch b).raiseBinding x.cause rid x.addr
        | .ok (d, tr) =>
          let (sc, s) : Except AccErr (List Byte × Tab TlbEnt) × State :=
            if sh.mx then s.engineRead (b.view rid) (s.engineOf rid b) tr 2 ((sh.ibase : Int) + n * sh.sstride) 4
            else (.ok (toBytes 4 0x7F7F7F7F, tr), s)
          match sc with
          | .error x => (s.setCur rid ch b).raiseBinding x.cause rid x.addr
          | .ok (w, tr) =>
            ((s.dropIndex rid b n).noteMove c).setCur rid ch { b with
              trans := tr, replies := b.replies ++ [⟨d, BitVec.ofNat 32 (ofBytes w), BitVec.ofNat 8 (sh.tag0 + n * sh.taginc), 0⟩] }

/-- A write binding writes the oldest element that it has taken at its Addr(n), in order of arrival; with RELR = 1 the end of a run of
dimension 0 makes the add of the bytes written since the last (R217). -/
def State.writeElement (s : State) (rid ch : Nat) (b : Binding) : State :=
  match b.replies with
  | [] => s
  | r :: rest =>
    let n := b.cursor - b.replies.length
    let sh := b.shape
    let c := regionCluster rid
    if r.dist ≠ 0 then s
    else match s.nextIndex rid b n with
    | none => s
    | some (.error (k, a), b, s) => (s.setCur rid ch b).raiseBinding k rid a
    | some (.ok x, b, s) =>
      match s.elemAddr rid b n x with
      | .error (k, a) => (s.setCur rid ch b).raiseBinding k rid a
      | .ok a =>
        let done : Except AccErr (State × Tab TlbEnt) × State :=
          if sh.virt then s.engineWrite (b.view rid) (s.engineOf rid b) b.trans 0 a r.data
          else (.ok (s.writePhys (b.view rid) (scratchAddr c a) r.data, b.trans), s)
        match done with
        | (.error e, s) => (s.setCur rid ch b).raiseBinding e.cause rid e.addr
        | (.ok (s, tr), _) =>
          let s := s.noteMove c
          let b := { b with trans := tr, replies := rest, addBytes := b.addBytes + r.data.length }
          let last := b.complete false
          if sh.relr ∧ (n + 1) % sh.count 0 = 0 ∧ !last then (s.bindingAdd rid ch b).setCur rid ch { b with addBytes := 0 }
          else s.setCur rid ch b

/-- Whether a page takes tokens from outside at its input ports: gates open, not captured, not retiring (R282, R284, R327). -/
def State.takesIn (s : State) (pid : Nat) : Bool := let p := s.page pid; p.level == 4 && !p.captured

/-- The ports that a read binding delivers to: its own and the followers of its port (R298). -/
def State.leadPorts (s : State) (pid code : Nat) : List (Nat × Nat) :=
  let p := s.page pid
  (pid, code) :: (((s.run p.run).seams.filter (fun m => m.lead == (p.handle, code))).flatMap (fun m =>
    m.followers.map (fun f => (pidOf p.run f.1, f.2)))).filter (fun f => (s.page f.1).level < 5)

/-- Whether every queue that an input port delivers into has room (R125, R182). -/
def State.portRoom (s : State) (pid code : Nat) : Bool :=
  let rid := (s.page pid).region (code / 32)
  let rows := s.rowDests pid (code / 32) (code % 32)
  s.takesIn pid &&
  (if rows.isEmpty then (s.inp rid (code % 32)).q.room 4
   else rows.all (fun d =>
     let x := s.xn d.1
     let q := if d.2 = 276 then x.a0 else if d.2 = 277 then x.a1 else x.b
     -- a row port takes one row in a cycle, and one that has entered on this cycle is two cycles away (R182)
     !(s.inp rid (code % 32)).tack && q.room && q.rows.all (fun r => decide (r.dist < 2))))

def State.setRows (s : State) (rid idx : Nat) (f : RowQ → RowQ) : State :=
  let x := s.xn rid
  s.setXn rid (if idx = 276 then { x with a0 := f x.a0 } else if idx = 277 then { x with a1 := f x.a1 } else { x with b := f x.b })

/-- An element enters an input port: a token the port, a row the queues that it feeds (R182, R216). -/
def State.enterPort (s : State) (pid code : Nat) (t : Tok) (r : Reply) : State :=
  let rid := (s.page pid).region (code / 32)
  let rows := s.rowDests pid (code / 32) (code % 32)
  if rows.isEmpty then
    let o := s.inp rid (code % 32)
    s.setInp rid (code % 32) { o with q := o.q.push (QTok.of t none 1 true) }
  else rows.foldl (fun s d => s.setRows d.1 d.2 (fun q => q.push ⟨⟨r.data, r.scale, r.tag⟩, 2⟩)) s

/-- BINDING_DELIVER (R216, R298). -/
def bindingDeliver (s : State) : State :=
  let rid := s.focus.region
  let ch := s.focus.num
  match (s.chan rid ch).cur with
  | some b =>
    match b.replies with
    | r :: rest =>
      let pid := s.pageOf rid
      let ports := s.leadPorts pid (b.port + 32 * s.sregOf rid)
      if chanReads ch ∧ ports.all (fun p => s.portRoom p.1 p.2) then
        let t : Tok := ⟨BitVec.ofNat 32 (ofBytes (r.data.take 4)), BitVec.ofNat 2 (b.shape.rank b.cursor), false, false⟩
        let s := ports.foldl (fun s p => s.enterPort p.1 p.2 t r) (s.noteMove (regionCluster rid))
        s.setCur rid ch { b with replies := rest, cursor := b.cursor + 1, moved := b.moved + 1, addBytes := b.addBytes + r.data.length }
      else s
    | [] => s
  | none => s

def execBindingDeliver (s : State) : Ans := .next (bindingDeliver s)

/-- Whether a write or trigger binding takes from its port: it is moving, and its end has not come. From a page that has been
captured it takes what the port's tack follows, then the tack, and then nothing more (R217, R221, R327, R340). -/
def State.takes (s : State) (rid : Nat) (b : Binding) : Bool :=
  b.moving && !b.stopping && !b.ended && !s.portHeld rid b b.port && (!(s.page (s.pageOf rid)).captured || (s.outp rid (b.port - 16)).tack) &&
  (b.kind == .trigger || decide (b.cursor < b.shape.total))

/-! ## Drains (R182, R197) -/

/-- Where a drain of a matrix node goes: an edge or a channel behind an output port takes tokens, a binding rows. -/
inductive DrainDest where
  | tokens (rid port : Nat)
  | rows (rid ch : Nat)
  | unbound
  deriving DecidableEq, Repr

/-- The destinations of xnode.d of a region. -/
def State.drainDests (s : State) (src : Nat) : List DrainDest :=
  let pid := s.pageOf src
  (s.destsOf pid (s.sregOf src * 4096 + 0x54)).map fun d =>
    let p := d.2 - 256
    match s.portConn pid (16 + p + 32 * s.sregOf d.1) with
    | .edge _ | .chan _ => .tokens d.1 p
    | _ =>
      match [1, 3].find? (fun ch => match (s.chan d.1 ch).cur with | some b => b.port == 16 + p && b.kind == .plain | none => false) with
      | some ch => .rows d.1 ch
      | none => .unbound

/-- Whether a destination has room for what leaves next: a port for a token, a binding for a row. -/
def State.drainRoom (s : State) : DrainDest → Bool
  | .tokens rid p => (s.outp rid p).q.room 4
  | .rows rid ch => match (s.chan rid ch).cur with | some b => s.takes rid b && decide (b.replies.length < 64) | none => false
  | .unbound => false

/-- A destination takes token `n` of a drain slot, or the row whose last token that is: it has it two die cycles later (R182). -/
def State.drainTo (s : State) (vals : List W32) (n : Nat) : DrainDest → State
  | .tokens rid p =>
    let o := s.outp rid p
    s.setOutp rid p { o with q := o.q.push (QTok.of ⟨(vals[n]?).getD 0, if 63 ≤ n then 1 else 0, false, false⟩ none 2 true) }
  | .rows rid ch =>
    match (s.chan rid ch).cur with
    | some b =>
      let row := ((vals.drop (n / 16 * 16)).take 16).flatMap (fun v => toBytes 4 v.toNat)
      if n % 16 = 15 then
        (s.noteMove (regionCluster rid)).setCur rid ch { b with cursor := b.cursor + 1, moved := b.moved + 1, replies := b.replies ++ [⟨row, 0, 0, 2⟩] }
      else s
    | none => s
  | .unbound => s

/-- The oldest drain slot of a region's matrix node gives up its next token, or, where no edge and no channel takes from it, its next
row; it goes where every destination has room (R125, R182, R197). With destinations of both kinds, a row goes with the last of its
tokens (log 76). -/
def State.drainOut (s : State) (src : Nat) : State :=
  let x := s.xn src
  let l := s.drainDests src
  match x.drains with
  | [] => s
  | d :: rest =>
    let tokens := l.any (fun t => match t with | .tokens _ _ => true | _ => false)
    let n := if tokens then d.next else 16 * d.next + 15
    if l.isEmpty ∨ (s.page (s.pageOf src)).captured ∨ !l.all s.drainRoom then s
    else
      let s := l.foldl (fun s t => s.drainTo d.vals n t) s
      s.setXn src (if 63 ≤ n then { x with drains := rest, drainFreed := x.drainFreed + 1 } else { x with drains := { d with next := d.next + 1 } :: rest })

/-- A binding takes the tack of a port whose tokens it has all taken (R340). -/
def State.takeTack (s : State) (rid n : Nat) : State :=
  let o := s.outp rid n
  if o.tack ∧ o.q.toks.isEmpty then s.setOutp rid n { o with tack := false } else s

/-- BINDING_TAKE (R217): one token or row, held until it is written. -/
def State.takeElement (s : State) (rid ch : Nat) (b : Binding) : State :=
  let pid := s.pageOf rid
  if !s.takes rid b ∨ 64 ≤ b.replies.length then s
  else match s.drainOf pid (s.sregOf rid) (b.port - 16) with
    | some src => s.drainOut src
    | none =>
      let o := s.outp rid (b.port - 16)
      match o.q.head? with
      | none => s.takeTack rid (b.port - 16)
      | some t =>
        let s := (s.noteMove (regionCluster rid)).setOutp rid (b.port - 16) { o with q := o.q.pop }
        let b := if t.tok.ord then { b with acqs := t.acquires rid ++ b.acqs, acqStamp := s.seq } else b
        let b := { b with
          cursor := b.cursor + 1, moved := b.moved + 1, ended := t.tok.rank == 3
          replies := b.replies ++ [⟨toBytes 4 t.tok.data.toNat, 0, 0, 0⟩] }
        { s.setCur rid ch b with seq := s.seq + 1 }

def bindingTake (s : State) : State :=
  let rid := s.focus.region
  let ch := s.focus.num
  match (s.chan rid ch).cur with
  | some b => if !chanReads ch ∧ b.kind = .plain then s.takeElement rid ch b else s
  | none => s

def execBindingTake (s : State) : Ans := .next (bindingTake s)

/-- BINDING_ACCESS: one element is accessed (R210). What it must follow has been performed. -/
def bindingAccess (s : State) : State :=
  let rid := s.focus.region
  let ch := s.focus.num
  match (s.chan rid ch).cur with
  | some b =>
    if !b.acqs.all s.relDone then s
    else if chanReads ch then (if b.mayRead then s.readElement rid ch b else s)
    else
      -- the first element of a write is taken and written on the cycle of its start (R215)
      let s := if b.replies.isEmpty ∧ b.cursor = 0 then s.takeElement rid ch b else s
      match (s.chan rid ch).cur with
      | some b => if b.acqs.all s.relDone then s.writeElement rid ch b else s
      | none => s
  | none => s

def execBindingAccess (s : State) : Ans := .next (bindingAccess s)

/-- TRIGGER_FORWARD (R219): a token goes to the trigger queue once a place there is reserved for it. -/
def triggerForward (s : State) : State :=
  let rid := s.focus.region
  let ch := s.focus.num
  match (s.chan rid ch).cur with
  | some b =>
    let c := regionCluster rid
    let o := s.outp rid (b.port - 16)
    match s.indexed c (bits b.target 15 8), o.q.head? with
    | some d, some t =>
      let k := s.cluster d
      let q := bits b.target 3 0
      let tq := k.tqs.get TrigQ.empty q
      if b.kind = .trigger ∧ s.takes rid b ∧ tq.toks.length + tq.reserved < 16 then
        let s := (s.noteMove c).setOutp rid (b.port - 16) { o with q := o.q.pop }
        let s := s.setCluster d { s.cluster d with tqs := k.tqs.set q { tq with reserved := tq.reserved + 1 } }
        let s := s.setCur rid ch { b with cursor := b.cursor + 1, moved := b.moved + 1, ended := t.tok.rank == 3 }
        s.send (senderEntry b.entry) (s.runOf c) d (.trigger q { t with dist := 0, wall := false })
      else s
    | some _, none => if b.kind = .trigger ∧ s.takes rid b then s.takeTack rid (b.port - 16) else s
    | _, _ => s
  | none => s

def execTriggerForward (s : State) : Ans := .next (triggerForward s)

/-- DRAIN_DEPARTURE (R197). -/
def drainDeparture (s : State) : State := s.drainOut s.focus.region

def execDrainDeparture (s : State) : Ans := .next (drainDeparture s)

end Sys2Proof.Machine
end

