-- ==== Sys2Proof/Machine/Copy.lean ====
section
/-! DEFINITION. The copy engine (R223 to R233, R237 to R239): job cards, copies, templates and trigger queues. -/
namespace Sys2Proof.Machine

/-! ## Job cards (R223, R224) -/

/-- Which of its fields a card may use: one of CPY, CPYSNAP or COPY; one of CPYT; a `.tmpl` section (R223, R238). -/
inductive CardUse where
  | issued | template | launch
  deriving DecidableEq, Repr

def cardSrc (b : List Byte) : Nat := fieldAt b 0 8
def cardDst (b : List Byte) : Nat := fieldAt b 8 8
def cardSem (b : List Byte) : Nat := fieldAt b 0x10 1
def cardNfp (b : List Byte) : Nat := fieldAt b 0x12 1
def cardArm (b : List Byte) : Nat := fieldAt b 0x13 1
def cardSemcl (b : List Byte) : Nat := fieldAt b 0x14 2
def cardBar (b : List Byte) : Nat := fieldAt b 0x18 8
def cardArrive (b : List Byte) : Nat := fieldAt b 0x20 4
def cardReps (b : List Byte) : Nat := fieldAt b 0x24 4

/-- The footprints that a card declares (R224). -/
def cardFoots (b : List Byte) : List Foot :=
  (List.range (cardNfp b)).map fun f =>
    let base := fieldAt b (0x40 + 16 * f) 8
    ⟨base.testBit 62, base.testBit 63, bits base 51 0, fieldAt b (0x48 + 16 * f) 8⟩

/-- Whether a card breaks R223 or R224. -/
def cardBad (b : List Byte) (use : CardUse) (nclusters : Nat) : Bool :=
  (cardSem b).testBit 6 || decide (5 < fieldAt b 0x11 1) || decide (4 < cardNfp b) || fieldAt b 0x16 2 != 0 || fieldAt b 0x38 8 != 0 ||
  (cardSemcl b != 0xFFFF && decide (nclusters ≤ cardSemcl b)) ||
  (match use with
    | .issued => cardArm b != 0 || cardReps b != 0 || fieldAt b 0x28 8 != 0 || fieldAt b 0x30 8 != 0
    | .template => cardArm b != 0
    | .launch => bits (cardArm b) 6 4 != 0 || cardSrc b != 0 || cardDst b != 0) ||
  cardSrc b % 64 != 0 || cardDst b % 64 != 0 ||
  (List.range 4).any (fun f =>
    let base := fieldAt b (0x40 + 16 * f) 8
    let len := fieldAt b (0x48 + 16 * f) 8
    if f < cardNfp b then bits base 61 52 != 0 || decide (2 ^ 52 < len) else base != 0 || len != 0)

/-! ## Entering a copy (R228, R237) -/

def State.copy (s : State) (c slot : Nat) : Copy := (s.cluster c).copies.get Copy.unused slot
def State.setCopy (s : State) (c slot : Nat) (v : Copy) : State :=
  let k := s.cluster c
  s.setCluster c { k with copies := k.copies.set slot v }

/-- A copy slot that no copy in progress holds. -/
def Copy.isFree (k : Copy) : Bool := k.state == 0 || k.state == 4 || k.state == 5

/-- Whether a controller waits in CPYWAIT for the copy of a slot: the slot serves no other copy before it has looked (R239). -/
def State.awaited (s : State) (c slot : Nat) : Bool :=
  let k := s.ctl c
  k.st == .waiting && (match decode32 k.insn with
    | .ok (.cpywait _ rs1) => bits (k.reg rs1).toNat 7 0 == slot && bits (k.reg rs1).toNat 15 8 == (s.copy c slot).gen && (s.copy c slot).state != 0
    | _ => false)

def State.freeCopies (s : State) (c : Nat) : List Nat := (List.range 256).filter (fun i => (s.copy c i).isFree && !s.awaited c i)

/-- A copy's handle (R237). -/
def copyHandle (slot gen : Nat) : Nat := slot + 256 * gen

/-- The place of a copy's barrier, or what is wrong with its address (R251). -/
def State.barPlace (s : State) (c tenant bar : Nat) : Except (Cause × Nat) Nat × State :=
  if bar % 32 ≠ 0 then (.error (.align, bar), s)
  else if 2 ^ 52 ≤ bar then (.error (.access, bar), s)
  else match s.place c tenant .write (barAllowed c) bar 32 with
    | (.error e, s) => (.error (e.cause, e.addr), s)
    | (.ok (p :: _), s) => (.ok p.pa, s)
    | (.ok [], s) => (.error (.access, bar), s)

/-- A copy enters a free slot, which one being free, and the scheduler; its barrier is
checked (R228, R237, R251). `tenant` is the one whose addresses it names. -/
def State.enterCopy (s : State) (c tenant va : Nat) (card : List Byte) (recs : Option (List Byte × List Byte)) (owner : CopyBy)
    (acqs : List Rel) (insn : W32 := 0) (rs2 : W64 := 0) : Option (Nat × State) :=
  let l := s.freeCopies c
  if l.isEmpty then none
  else
    let (i, s) := s.choose l.length
    let slot := (l[i]?).getD 0
    let old := s.copy c slot
    let gen := if old.state = 0 then old.gen else (old.gen + 1) % 256
    let (t, s) := s.schedEnter c (some slot) (0, 0) (cardFoots card)
    let s := s.setCopy c slot
      { gen := gen, state := 1, entry := t, owner := owner, va := va, card := card, src := recs.map Prod.fst, dst := recs.map Prod.snd,
        cursor := 0, bytes := 0, since := (s.die (dieOf c)).tick, stamp := s.seq, acqs := acqs,
        tenant := tenant, trans := [], insn := insn, rs2 := rs2, fetched := [], target := (0, 0) }
    let s := if cardBar card = 0 then s else match s.barPlace c tenant (cardBar card) with
      | (.error (k, d), s) => s.raiseCluster k c 0 d
      | (.ok _, s) => s
    some (copyHandle slot gen, s)

/-- The addresses of a card's records (R223). -/
def recordAddrs (va : Nat) (card : List Byte) : Nat × Nat :=
  (if cardSrc card = 0 then va + 0x80 else cardSrc card, if cardDst card = 0 then va + 0xC0 else cardDst card)

/-- The engine of a cluster reads both records of a card. -/
def State.readRecords (s : State) (c tenant va : Nat) (card : List Byte) : Except AccErr (List Byte × List Byte) × State :=
  let (a, b) := recordAddrs va card
  match s.tenantRead tenant a 64, s.tenantRead tenant b 64 with
  | .ok x, .ok y => (.ok (x, y), (s.sampleFetch c tenant a 64).sampleFetch c tenant b 64)
  | .error e, _ => (.error e, s)
  | _, .error e => (.error e, s)

/-- Whether records that have been read break R212: each is checked when it is read. -/
def recordsBad : Option (List Byte × List Byte) → Bool
  | some (a, b) => (ShapeRec.of a).bad .copy || (ShapeRec.of b).bad .copy || (ShapeRec.of a).dir || !(ShapeRec.of b).dir
  | none => false

/-- CPY and CPYSNAP (R237). CPY reads its records at acceptance or at its dispatch: which is a free choice. -/
def cpyOp (rd rs1 : Reg) (snap : Bool) (s : State) : State :=
  let c := s.focus.cluster
  let va := (s.reg c rs1).toNat
  let t := s.tenantOf c
  let w := (s.ctl c).insn.toNat
  if va % 64 ≠ 0 then s.refuse c rd 6
  else if (s.freeCopies c).isEmpty then s.refuse c rd 1
  else match s.tenantRead t va 128 with
    | .error e => s.raiseCluster e.cause c w e.addr
    | .ok card =>
      if cardBad card .issued (s.run (s.runOf c)).clusters.length then s.raiseCluster .shape c w va
      else
        let (n, s) := if snap then (0, s) else s.choose 2
        let s := s.sampleFetch c t va 128
        let recs : Except AccErr (Option (List Byte × List Byte)) × State := if n = 0 then (s.readRecords c t va card).map (Except.map some) id else (.ok none, s)
        match recs with
        | (.error e, s) => s.raiseCluster e.cause c w e.addr
        | (.ok r, s) =>
          if recordsBad r then s.raiseCluster .shape c w va
          else match s.enterCopy c t va card r .controller [] (s.ctl c).insn with
            | none => s.refuse c rd 1
            | some (h, s) => s.retireWith c rd (BitVec.ofNat 64 h)

def execCpy (rd rs1 : Reg) (s : State) : Ans := .next (cpyOp rd rs1 false s)
def execCpysnap (rd rs1 : Reg) (s : State) : Ans := .next (cpyOp rd rs1 true s)

/-! ## Moving (R225 to R227, R229) -/

/-- How far the footprints of one space and direction cover the bytes from `lo` on, each of them used once. -/
def coverFrom (near write : Bool) (lo : Int) : Nat → List Foot → Int
  | 0, _ => lo
  | fuel + 1, l =>
    match l.find? (fun f => f.near == near && f.write == write && decide ((f.base : Int) ≤ lo) && decide (lo < (f.base : Int) + f.len)) with
    | some f => coverFrom near write ((f.base : Int) + f.len) fuel l
    | none => lo

/-- Whether every byte of an extent lies within the declared footprints (R227). -/
def insideFoot (l : List Foot) (near write : Bool) (lo hi : Int) : Bool := decide (hi ≤ coverFrom near write lo l.length l)

/-- Whether a record's accesses lie within the footprints of the card. -/
def ShapeRec.inside (r : ShapeRec) (l : List Foot) (write : Bool) : Bool :=
  let (lo, hi) := r.extent 1
  insideFoot l (!r.virt) write lo hi &&
  (!r.indir || r.total == 0 || insideFoot l false false r.ibase ((r.ibase : Int) + 4 * ((r.total / r.below : Nat) : Int)))

/-- What a copy's records break, if anything (R212, R225, R227). -/
def copyFault (card : List Byte) (x y : ShapeRec) : Option Cause :=
  let (lo, hi) := x.extent 1
  let (lo', hi') := y.extent 1
  if x.bad .copy ∨ y.bad .copy ∨ x.dir ∨ !y.dir then some .shape
  else if x.total ≠ y.total then some .shape
  else if x.virt = y.virt ∧ lo < hi' ∧ lo' < hi ∧ x.total ≠ 0 then some .shape
  else if !x.inside (cardFoots card) false ∨ !y.inside (cardFoots card) true then some .footprint
  else none

/-- Whether a copy is ready (R229): its predecessors have completed, and what its trigger token released has been performed. -/
def State.copyReady (s : State) (c slot : Nat) : Bool :=
  let k := s.cluster c
  let x := s.copy c slot
  x.state == 1 && k.preds x.entry == 0 && !k.behindPlace x.entry && x.acqs.all s.relDone

/-- A cluster's engine ends the run in error; the offending value is an address, or of an INDEX error the index (R285). -/
def State.raiseValue (s : State) (cause : Cause) (c value : Nat) : State :=
  if cause = .index then s.raiseCluster cause c value 0 else s.raiseCluster cause c 0 value

/-- A copy ends with an error: it ends its run in error, or, for a COPY packet, is noted for its queue (R372, R380). -/
def State.raiseCopy (s : State) (cause : Cause) (c slot addr : Nat) : State :=
  let x := s.copy c slot
  match x.owner with
  | .packet id tag =>
    let s := (s.schedLeave c x.entry).setCopy c slot { x with state := 5 }
    let q := s.queue id
    if q.copyErr.isSome then s else s.setQueue id { q with copyErr := some (cause.code, tag) }
  | _ => s.raiseValue cause c addr

/-- The barrier post of a copy's completion goes to the cluster whose scratch holds the record (R229, R244, R252). -/
def State.copyPost (s : State) (c slot tenant a n : Nat) (bar : Nat) : State :=
  if bar = 0 then s
  else match s.barPlace c tenant bar with
    | (.error (k, d), s) => s.raiseCluster k c 0 d
    | (.ok pa, s) => s.send (senderEntry (s.copy c slot).entry) (s.runOf c) (barCluster pa) (.post c pa a n)

/-- A copy completes (R229). -/
def State.completeCopy (s : State) (c slot : Nat) : State :=
  let x := s.copy c slot
  let s := (s.schedLeave c x.entry).setCopy c slot { x with state := 4 }
  let s := s.sampleGauges c 1 ((s.die (dieOf c)).tick - x.since).toNat
  let sem := cardSem x.card
  let s := if sem.testBit 7 then
      match (if cardSemcl x.card = 0xFFFF then some c else (s.run (s.runOf c)).clusterAt (cardSemcl x.card)) with
      | some d => s.send (senderEntry x.entry) (s.runOf c) d (.add (bits sem 5 0) (BitVec.ofNat 64 x.bytes))
      | none => s
    else s
  s.copyPost c slot x.tenant (cardArrive x.card) x.bytes (cardBar x.card)

/-- COPY_DISPATCH: the oldest ready copy begins moving data (R225, R229). -/
def copyDispatch (s : State) : State :=
  let c := s.focus.cluster
  let slot := s.focus.num
  let k := s.cluster c
  let x := s.copy c slot
  let older := k.copies.any (fun e => decide (e.2.entry < x.entry) && s.copyReady c e.1)
  if !s.copyReady c slot ∨ older ∨ 16 ≤ (k.copies.filter (fun e => e.2.state == 3)).length then s
  else
    let recs : Except AccErr (List Byte × List Byte) × State := match x.src, x.dst with
      | some a, some b => (.ok (a, b), s)
      | _, _ => s.readRecords c x.tenant x.va x.card
    match recs with
    | (.error e, s) => s.raiseCopy e.cause c slot e.addr
    | (.ok (a, b), s) =>
      match copyFault x.card (ShapeRec.of a) (ShapeRec.of b) with
      | some f => s.raiseCopy f c slot x.va
      | none =>
        -- a copy that an ordering token has fired reads no copy of a line filled before what it acquires (R178, R233)
        let stamp := if x.acqs.isEmpty then x.stamp else s.seq
        let s := { s.setCopy c slot { x with state := 3, src := some a, dst := some b, stamp := stamp } with seq := s.seq + 1 }
        if (ShapeRec.of a).total = 0 then s.completeCopy c slot else s

/-- COPY_COMPLETION: every byte has been written (R229). -/
def copyCompletion (s : State) : State :=
  let c := s.focus.cluster
  let slot := s.focus.num
  let x := s.copy c slot
  if x.state = 3 ∧ (ShapeRec.of (x.src.getD [])).total ≤ x.cursor then s.completeCopy c slot else s

def execCopyDispatch (s : State) : Ans := .next (copyDispatch s)
def execCopyCompletion (s : State) : Ans := .next (copyCompletion s)

/-- The address of byte n of a record, with its index read from memory, and the translations then held (R210, R211, R213); `k` is the
stream of the record's pattern. -/
def State.copyAddr (s : State) (v : View) (g : EngineOf) (trans : Tab TlbEnt) (k : Nat) (r : ShapeRec) (n : Nat) :
    Except (Cause × Nat) (Nat × Tab TlbEnt) × State :=
  let finish (x : Nat) (tr : Tab TlbEnt) : Except (Cause × Nat) (Nat × Tab TlbEnt) :=
    let a := r.addr n x
    let top : Int := if r.virt then 2 ^ 52 else s.scrcap
    if a < 0 ∨ top ≤ a then .error (.access, a.toNat) else .ok (a.toNat, tr)
  if r.indir then
    match s.engineRead v g trans (k + 1) ((r.ibase : Int) + 4 * (n / r.below : Nat)) 4 with
    | (.error e, s) => (.error (e.cause, e.addr), s)
    | (.ok (d, tr), s) => if r.imax ≤ ofBytes d then (.error (.index, ofBytes d), s) else (finish (ofBytes d) tr, s)
  else (finish 0 trans, s)

/-- The addresses of up to `fuel` bytes of a record from byte n on, stopping before one that has none: the error of that one is met when
it comes first (R210). -/
def State.copyAddrs (s : State) (v : View) (g : EngineOf) (k : Nat) (r : ShapeRec) : Nat → Nat → Tab TlbEnt → Except (Cause × Nat) (List Nat × Tab TlbEnt) × State
  | 0, _, tr => (.ok ([], tr), s)
  | fuel + 1, n, tr =>
    if r.total ≤ n then (.ok ([], tr), s)
    else match s.copyAddr v g tr k r n with
      | (.error e, s) => (.error e, s)
      | (.ok (a, tr), s) =>
        match s.copyAddrs v g k r fuel (n + 1) tr with
        | (.error _, s) => (.ok ([a], tr), s)
        | (.ok (l, tr), s) => (.ok (a :: l, tr), s)

/-- How many of a list's leading addresses are consecutive. -/
def runLength : List Nat → Nat
  | a :: b :: t => if b = a + 1 then runLength (b :: t) + 1 else 1
  | [_] => 1
  | [] => 0

/-- The leading addresses that one access reaches: those that follow one another in a line of 64 bytes, of which each lies in one bank
(R147, R151). -/
def oneAccess (l : List Nat) : List Nat :=
  match l with
  | [] => []
  | a :: _ => l.take (min (runLength l) (64 - a % 64))

/-- How many of the next bytes one step writes: those of one aligned word of the destination that follow one another there, which are
written single-copy atomically, or, from a word boundary, whole words (R225). -/
def copyStep (l : List Nat) : Nat :=
  match l with
  | [] => 0
  | a :: _ =>
    let n := runLength l
    if a % 4 = 0 ∧ 4 ≤ n then n / 4 * 4 else min n (4 - a % 4)

/-- Whether an access of a cluster's engine loses at the bank that it reaches (R151, R162). -/
def State.engineShut (s : State) (g : EngineOf) (virt : Bool) (a n : Nat) : Bool := if virt then s.virtTaken g.tenant a n else s.shut g.cluster a n

/-- The bytes at an address of an engine's pattern, near or virtual. -/
def State.copyRead (s : State) (v : View) (g : EngineOf) (k : Nat) (virt : Bool) (tr : Tab TlbEnt) (a n : Nat) : Except AccErr (List Byte × Tab TlbEnt) × State :=
  if virt then s.engineRead v g tr k a n else (.ok (memBytes s.mem (scratchAddr g.cluster a) n, tr), s.useBanks g.cluster [bankOf a])

def State.copyWrite (s : State) (v : View) (g : EngineOf) (k : Nat) (virt : Bool) (tr : Tab TlbEnt) (a : Nat) (d : List Byte) : Except AccErr (State × Tab TlbEnt) × State :=
  if virt then s.engineWrite v g tr k a d else (.ok ((s.useBanks g.cluster [bankOf a]).writePhys v (scratchAddr g.cluster a) d, tr), s)

/-- A moving copy takes its next step: it fixes where its next write goes, or reads bytes for it from wherever in the source they
come, or writes them. Each read and write is one access of a bank; a cluster's copies write 256 bytes at most on a cycle (R151, R225).
A copy makes its accesses in the order of the pattern, though the spec gives those to different locations no order (R167; log 88). -/
def copyMove (c slot : Nat) (s : State) : State :=
  let x := s.copy c slot
  let a := ShapeRec.of (x.src.getD [])
  let b := ShapeRec.of (x.dst.getD [])
  let v := View.ofCluster c x.stamp 0
  let g : EngineOf := ⟨c, x.tenant, x.entry⟩
  let (da, n) := x.target
  if x.state ≠ 3 ∨ a.total ≤ x.cursor then s
  else if n = 0 then
    match s.copyAddrs { v with evf := b.evf } g 2 b 64 x.cursor x.trans with
    | (.error (k, d), s) => s.raiseCopy k c slot d
    | (.ok (l, tr), s) => s.setCopy c slot { s.copy c slot with target := ((l.head?).getD 0, copyStep (oneAccess l)), trans := tr }
  else if x.fetched.length < n then
    match s.copyAddrs { v with evf := a.evf } g 0 a (n - x.fetched.length) (x.cursor + x.fetched.length) x.trans with
    | (.error (k, d), s) => s.raiseCopy k c slot d
    | (.ok (l, tr), t) =>
      let m := (oneAccess l).length
      let sa := (l.head?).getD 0
      if s.engineShut g a.virt sa m then s
      else match t.copyRead { v with evf := a.evf } g 0 a.virt tr sa m with
        | (.error e, s) => s.raiseCopy e.cause c slot e.addr
        | (.ok (d, tr), s) => s.setCopy c slot { s.copy c slot with fetched := x.fetched ++ d, trans := tr }
  else if s.engineShut g b.virt da n ∨ 256 < (s.cluster c).copied + n then s
  else match s.copyWrite { v with evf := b.evf } g 2 b.virt x.trans da x.fetched with
    | (.error e, s) => s.raiseCopy e.cause c slot e.addr
    | (.ok (s, tr), _) =>
      let s := s.noteMove c
      let s := s.setCluster c { s.cluster c with copied := (s.cluster c).copied + n }
      s.setCopy c slot { s.copy c slot with cursor := x.cursor + n, bytes := x.bytes + n, trans := tr, fetched := [], target := (0, 0) }

/-! ## Templates and trigger queues (R231 to R233, R238) -/

def State.template (s : State) (c n : Nat) : Template := (s.cluster c).templates.get Template.empty n
def State.setTemplate (s : State) (c n : Nat) (t : Template) : State :=
  let k := s.cluster c
  s.setCluster c { k with templates := k.templates.set n t }

/-- A record with its BASE moved (R232). -/
def moveBase (r : List Byte) (k : Nat) (step : Int) : List Byte := toBytes 8 (((fieldAt r 0 8 : Int) + k * step) % 2 ^ 64).toNat ++ r.drop 8

/-- A firing of a template enters a copy, if a copy slot is free (R232). -/
def State.fire (s : State) (c : Nat) (t : Template) (owner : CopyBy) (acqs : List Rel) (insn : W32 := 0) : Option (Nat × State) :=
  let reps := cardReps t.card
  let k := if reps ≤ 1 then 0 else t.fires % reps
  let src := moveBase t.src k (signed (fieldAt t.card 0x28 8) 64)
  let dst := moveBase t.dst k (signed (fieldAt t.card 0x30 8) 64)
  s.enterCopy c (s.tenantOf c) 0 t.card (some (src, dst)) owner acqs insn

/-- TEMPLATE_FIRING (R232, R233). -/
def templateFiring (s : State) : State :=
  let c := s.focus.cluster
  let n := s.focus.num
  let t := s.template c n
  let q := (s.cluster c).tqs.get TrigQ.empty t.queue
  match q.toks with
  | [] => s
  | tok :: rest =>
    if !t.loaded ∨ !t.armed then s
    else match s.fire c t .template (if tok.tok.ord then tok.rel.toList.filter (fun r => r.pairsCluster c) else []) with
      | none => s
      | some (_, s) =>
        let k := s.cluster c
        let s := s.setCluster c { k with tqs := k.tqs.set t.queue { q with toks := rest } }
        s.setTemplate c n { t with fires := (t.fires + 1) % 2 ^ 32, armed := tok.tok.rank != 3 }

def execTemplateFiring (s : State) : Ans := .next (templateFiring s)

/-- What a template command does to a slot (R238): CPYT's card and records are those that it read at acceptance. -/
def Cmd.onTemplate (m : Cmd) : Option (Nat × (Template → Template)) :=
  match m.instr with
  | .cpyt _ _ _ => some (m.rs2.toNat, fun _ => ⟨true, false, 0, 0, m.record.take 128, (m.record.drop 128).take 64, m.record.drop 192⟩)
  | .cpytd _ _ => some (m.rs1.toNat, fun _ => Template.empty)
  | .cpyarm _ _ _ => some (m.rs1.toNat, fun t => { t with armed := true, queue := m.rs2.toNat })
  | .cpydis _ _ => some (m.rs1.toNat, fun t => { t with armed := false })
  | .cpyfire _ _ => some (m.rs1.toNat, fun t => { t with fires := (t.fires + 1) % 2 ^ 32 })
  | _ => none

/-- A template slot once the accepted commands of its cluster's queue have taken effect (R205). -/
def State.templateAfter (s : State) (c n : Nat) : Template :=
  (s.cluster c).cmds.foldl (fun t m => match m.onTemplate with | some (i, f) => if i = n then f t else t | none => t) (s.template c n)

/-- A template command takes effect (R206, R238). -/
def State.templateEffect (s : State) (c : Nat) (m : Cmd) : State :=
  match m.onTemplate with
  | some (n, f) => s.setTemplate c n (f (s.template c n))
  | none => s

/-! ## CPYWAIT, CPYSTAT, CPYCAN (R230, R239) -/

/-- The slot that a handle names, if the handle is not stale (R237). -/
def State.copyOf (s : State) (c : Nat) (v : W64) : Option Nat :=
  let slot := bits v.toNat 7 0
  let k := s.copy c slot
  if k.state ≠ 0 ∧ k.gen = bits v.toNat 15 8 then some slot else none

def cpywaitOp (rd rs1 : Reg) (s : State) : State :=
  let c := s.focus.cluster
  let v := s.reg c rs1
  if !fits v 16 then s.refuse c rd 6
  else match s.copyOf c v with
    | none => s.retireWith c rd 0
    | some slot =>
      let k := s.copy c slot
      if k.state = 4 then (s.acquireCtl c 4).retireWith c rd (BitVec.ofNat 64 k.bytes)
      else if k.state = 5 then s.retireWith c rd 0
      else s.wait c

def cpystatOp (rd rs1 : Reg) (s : State) : State :=
  let c := s.focus.cluster
  let v := s.reg c rs1
  let k := s.cluster c
  if v.getLsbD 16 then
    if !within v 0x1003F then s.refuse c rd 6
    else
      let t := s.template c (bits v.toNat 5 0)
      let n := (k.tqs.get TrigQ.empty t.queue).toks.length
      s.retireWith c rd (BitVec.ofNat 64 ((if t.loaded then 1 else 0) + (if t.armed then 2 + 4 * t.queue + 256 * n else 0) + t.fires * 2 ^ 16))
  else if !fits v 16 then s.refuse c rd 6
  else match s.copyOf c v with
    | none => s.refuse c rd 7
    | some slot =>
      let x := s.copy c slot
      let st := if x.state = 1 ∧ s.copyReady c slot then 2 else x.state
      s.retireWith c rd (BitVec.ofNat 64 (st + 256 * min (if x.state = 1 then k.preds x.entry else 0) 255 + x.bytes * 2 ^ 16))

def cpycanOp (rd rs1 : Reg) (s : State) : State :=
  let c := s.focus.cluster
  let v := s.reg c rs1
  if !fits v 16 then s.refuse c rd 6
  else match s.copyOf c v with
    | none => s.refuse c rd 7
    | some slot =>
      let x := s.copy c slot
      if x.state = 1 then ((s.schedLeave c x.entry).setCopy c slot { x with state := 5 }).retireWith c rd 0
      else s.retireWith c rd 1

def execCpywait (rd rs1 : Reg) (s : State) : Ans := .next (cpywaitOp rd rs1 s)
def execCpystat (rd rs1 : Reg) (s : State) : Ans := .next (cpystatOp rd rs1 s)
def execCpycan (rd rs1 : Reg) (s : State) : Ans := .next (cpycanOp rd rs1 s)

end Sys2Proof.Machine
end

