-- ==== Sys2Proof/Machine/Cache.lean ====
section
/-! DEFINITION. Cache control (R262 to R268): way modes, retention ranges, and the discard and write-back of lines. -/
namespace Sys2Proof.Machine

/-- The slice at a level on a cluster's path: quad, group, root (R266). -/
def sliceAt (c level : Nat) : Nat := ((pathSlices c)[level]?).getD 0

/-- The base of a slice's scratch window (R264). -/
def sliceWindow (n : Nat) : Nat := 0x20000000000 + n / 21 * 0x1000000000 + n % 21 * 0x4000000
def waySize (n : Nat) : Nat := sliceSize n / 16

/-! ## Ranges of HBM -/

/-- The pieces of a range that must lie in HBM, or the trap that its first bad byte raises (R242, R268). -/
def State.hbmPieces (s : State) (c va n : Nat) : Except AccErr (List Piece) × State :=
  match s.place c (s.tenantOf c) .read (fun t => match t with | .hbm _ => true | _ => false) va (min n (2 ^ 52 - va)) with
  | (.ok l, s) => if 2 ^ 52 < va + n ∧ 0 < n then (.error (.translation (max va (2 ^ 52)) 0 6), s) else (.ok l, s)
  | r => r

/-- Whether a line lies in a piece, under whichever key it is held. -/
def Piece.holds (p : Piece) (l : Line) : Bool := decide (p.pa < l.addr + 128) && decide (l.addr < p.pa + p.len)

/-! ## SLCINV and SLCWB (R268) -/

/-- Discard the copies of the lines of a piece in the slices of a set of dies, but for the home root slice. -/
def State.invPiece (s : State) (dies : List Nat) (p : Piece) : State :=
  { s with slices := s.slices.map fun e =>
      if dies.contains (e.1 / 21) ∧ e.1 ≠ rootSlice (p.pa / 0x4000000000) then (e.1, { e.2 with lines := e.2.lines.filter (fun l => !p.holds l) }) else e }

/-- Write the dirty lines of a piece back to HBM from its home root slice. -/
def State.wbPiece (s : State) (p : Piece) : State :=
  let n := rootSlice (p.pa / 0x4000000000)
  let sl := s.slice n
  let out := sl.lines.filter (fun l => p.holds l && s.writesBack n l)
  let s := out.foldl (fun s l => s.dramPut l.key l.addr l.data) s
  s.setSlice n { sl with lines := sl.lines.map (fun l => if out.contains l then { l with dirty := false } else l) }

def slcinvOp (rs1 rs2 : Reg) (s : State) : State :=
  let c := s.focus.cluster
  let v := (s.reg c rs2).toNat
  let sc := bits v 50 48
  if 2 ^ 51 ≤ v ∨ (sc ≠ 3 ∧ sc ≠ 4) then s.illegal c
  else match s.hbmPieces c (s.reg c rs1).toNat (bits v 47 0) with
    | (.error e, s) => s.trapAcc c e .read
    | (.ok l, s) => (l.foldl (fun s p => s.invPiece (if sc = 3 then [dieOf c] else [0, 1, 2]) p) s).retire c

def slcwbOp (rs1 rs2 : Reg) (s : State) : State :=
  let c := s.focus.cluster
  let v := (s.reg c rs2).toNat
  if 2 ^ 48 ≤ v then s.illegal c
  else match s.hbmPieces c (s.reg c rs1).toNat v with
    | (.error e, s) => s.trapAcc c e .read
    | (.ok l, s) => (l.foldl State.wbPiece s).retire c

def execSlcinv (rs1 rs2 : Reg) (s : State) : Ans := .next (slcinvOp rs1 rs2 s)
def execSlcwb (rs1 rs2 : Reg) (s : State) : Ans := .next (slcwbOp rs1 rs2 s)

/-! ## Retention ranges (R265, R267) -/

/-- RETSET: the range, which must lie in HBM and in one translation page, goes to the lowest register of the slice that the tenant
owns and that is not valid. -/
def retsetOp (rd rs1 rs2 : Reg) (s : State) : State :=
  let c := s.focus.cluster
  let va := (s.reg c rs1).toNat
  let v := (s.reg c rs2).toNat
  let len := bits v 47 0
  let level := bits v 49 48
  let t := s.tenantOf c
  if 2 ^ 50 ≤ v ∨ level = 3 ∨ len = 0 ∨ len % 128 ≠ 0 then s.illegal c
  else if va % 128 ≠ 0 then s.takeTrap c .misalign (BitVec.ofNat 64 va) (BitVec.ofNat 64 (128 % 16))
  else if 2 ^ 52 ≤ va then s.trapAcc c (.translation va 0 6) .read
  else match s.leafFor c t va with
    | (.error (l, r), s) => s.trapAcc c (.translation va l r) .read
    | (.ok e, s) =>
      let pa := e.pa + (va - e.va)
      if 0xC000000000 < pa + len ∨ e.va + e.size < va + len then s.trapAcc c (.access va (targetOf pa).kind) .read
      else
        let n := sliceAt c level
        let sl := s.slice n
        match (List.range 8).find? (fun i => (sl.retOwn[i]?).map (·.toNat) == some t && sl.retValid[i]? == some false) with
        | none => s.retireWith c rd (BitVec.ofNat 64 (2 ^ 63 + 1))
        | some i =>
          (s.setSlice n { sl with
            retValid := sl.retValid.set (i % 8) true (Nat.mod_lt _ (by decide)), retBase := sl.retBase.set i pa
            retLast := sl.retLast.set i (pa + len - 128) }).retireWith c rd (BitVec.ofNat 64 (level + 4 * i))

def retclrOp (rs1 : Reg) (s : State) : State :=
  let c := s.focus.cluster
  let v := (s.reg c rs1).toNat
  let i := bits v 4 2
  if 2 ^ 5 ≤ v ∨ bits v 1 0 = 3 then s.illegal c
  else
    let n := sliceAt c (bits v 1 0)
    let sl := s.slice n
    if (sl.retOwn[i]?).map (·.toNat) ≠ some (s.tenantOf c) then s.takeTrap c .access 0 0
    else (s.setSlice n { sl with retValid := sl.retValid.set (i % 8) false (Nat.mod_lt _ (by decide)) }).retire c

def execRetset (rd rs1 rs2 : Reg) (s : State) : Ans := .next (retsetOp rd rs1 rs2 s)
def execRetclr (rs1 : Reg) (s : State) : Ans := .next (retclrOp rs1 s)

/-! ## Way modes (R263, R264, R266) -/

def Slice.waymask (sl : Slice) : Nat := ((List.range 16).map (fun w => sl.mode w * 4 ^ w)).sum

/-- Whether a virtual range reaches a physical range, found leaf by leaf; `fuel` leaves or holes at most. -/
def State.reaches (s : State) (tenant lo hi : Nat) : Nat → Nat → Nat → Bool
  | 0, _, _ => false
  | fuel + 1, va, stop =>
    if stop ≤ va then false
    else match s.walk tenant va with
      | .ok e =>
        let pa := e.pa + (va - e.va)
        let m := min (e.va + e.size - va) (stop - va)
        (decide (pa < hi) && decide (lo < pa + m)) || s.reaches tenant lo hi fuel (e.va + e.size) stop
      | .error (l, _) => let size := 2 ^ (52 - 12 * max 1 l); s.reaches tenant lo hi fuel ((va / size + 1) * size) stop

/-- Whether a writer in flight of before a moment reaches a physical range: an access that was issued, of a memory node or a controller
of which half is made, or a copy or binding with a write footprint that reaches it (R266). -/
def State.writerIn (s : State) (lo hi at' : Nat) : Bool :=
  s.clusters.any (fun k => match k.2.ctl.half with | some h => decide (h.pa < hi) && decide (lo < h.pa + 8) | none => false) ||
  s.regions.any (fun e => e.2.mn.far.any (fun a => decide (a.stamp < at') && decide (a.pa < hi) && decide (lo < a.pa + 128)) ||
    e.2.mn.coal.any (fun l => decide (l.stamp < at') && decide (l.pa < hi) && decide (lo < l.pa + 128))) ||
  s.clusters.any (fun k => k.2.sched.any (fun e => decide (e.ident < at') && e.foots.any (fun f => !f.near && f.write &&
    s.reaches (s.tenantOf k.1) lo hi (f.len / 0x10000 + 2) f.base (f.base + f.len))))

/-- A way changes its mode (R266). -/
def State.setWay (s : State) (n w mode : Nat) : State :=
  let old := (s.slice n).mode w
  if old = mode then s
  else
    let base := sliceWindow n + w * waySize n
    let s := if old = 2 ∨ mode = 2 then
        let s := ((s.slice n).lines.filter (fun l => l.way == w)).foldl (fun s l => s.dropLine n l) s
        { s with mem := memClear s.mem base (waySize n) }
      else s
    let sl := s.slice n
    let lines := if mode = 0 then sl.lines.filter (fun l => l.way != w) ++ sl.lines.filter (fun l => l.way == w) else sl.lines
    s.setSlice n { sl with lines := lines, modes := sl.modes.set (w % 16) (BitVec.ofNat 2 mode) (Nat.mod_lt _ (by decide)) }

/-- The WAYSET of a slice that has come to its moment and waits for writers. -/
def State.leavingOf (s : State) (n : Nat) : Option (Nat × Nat × Nat) :=
  match (s.slice n).leaving with
  | some (c, x) => if (s.ctl c).inWayset then some (c, x) else none
  | none => none

/-- The ways whose mode a mask changes, and the mode that it gives a way (R264). -/
def maskMode (v w : Nat) : Nat := bits v (2 * w + 1) (2 * w)
def Slice.changed (sl : Slice) (v : Nat) : List Nat := (List.range 16).filter (fun w => maskMode v w != sl.mode w)

/-- A new mask takes effect; lines that enter cache mode join the least-recent end, those of the lowest way the least recent of all (R266,
R420). -/
def State.setWays (s : State) (n v : Nat) : State :=
  ((s.slice n).changed v).reverse.foldl (fun s w => s.setWay n w (maskMode v w)) (s.setSlice n { s.slice n with leaving := none })

/-- WAYSET (R266). Its moment A is when it is first looked at with no other WAYSET of its slice before it: what comes later finds a way
that leaves scratch not backed. It is done once no writer of before A reaches such a way any more. -/
def waysetOp (rd rs1 rs2 : Reg) (s : State) : State :=
  let c := s.focus.cluster
  let level := (s.reg c rs1).toNat
  let v := (s.reg c rs2).toNat
  let n := sliceAt c level
  let sl := s.slice n
  let changed := sl.changed v
  if 2 < level ∨ 2 ^ 32 ≤ v ∨ (List.range 16).any (fun w => maskMode v w == 3) then s.illegal c
  else if changed.any (fun w => sl.ownerOf w != s.tenantOf c) ∨ ((List.range 16).filter (fun w => maskMode v w == 0)).length < 4 then s.takeTrap c .access 0 0
  else
    let mine := (s.leavingOf n).filter (fun x => x.1 == c)
    let at' := match mine with | some x => x.2.1 | none => s.seq + 1
    if (s.leavingOf n).isSome ∧ mine.isNone then s.wait c
    else if changed.any (fun w => sl.mode w == 2 && s.writerIn (sliceWindow n + w * waySize n) (sliceWindow n + (w + 1) * waySize n) at') then
      { s.setSlice n { sl with leaving := some (c, at', v) } with seq := s.seq + 1 }.wait c
    else (s.setWays n v).retireWith c rd (BitVec.ofNat 64 sl.waymask)

/-- The slices at which a controller's WAYSET has come to its moment, with their new masks. -/
def State.waysetsOf (s : State) (c : Nat) : List (Nat × Nat) :=
  if (s.ctl c).inWayset then
    s.slices.filterMap (fun e => match e.2.leaving with | some (d, _, v) => if d = c then some (e.1, v) else none | none => none)
  else []

def wayrdOp (rd rs1 : Reg) (s : State) : State :=
  let c := s.focus.cluster
  let level := (s.reg c rs1).toNat
  if 2 < level then s.illegal c else s.retireWith c rd (BitVec.ofNat 64 (s.slice (sliceAt c level)).waymask)

def execWayset (rd rs1 rs2 : Reg) (s : State) : Ans := .next (waysetOp rd rs1 rs2 s)
def execWayrd (rd rs1 : Reg) (s : State) : Ans := .next (wayrdOp rd rs1 s)

end Sys2Proof.Machine
end

