-- ==== Sys2Proof/Machine/CellFloat.lean ====
section
/-! DEFINITION. The floating-point and conversion operations of a cell (R102 to R119), each a function of its policy, rounding
mode and source values delivered through the shared word forms of Operands.lean. -/
namespace Sys2Proof.Machine

/-- An F32 operand under the word's policy (R94, R95). -/
def FpEnv.dec (e : FpEnv) (v : W32) : FVal := decodeF .f32 (polFin e.pol) v.toNat
/-- An F32 result rounded in the word's mode (R98). -/
def FpEnv.out (e : FpEnv) (x : FVal) : W32 := BitVec.ofNat 32 (roundTo x .f32 e.rnd e.pol false)
/-- An F32 result that is exact, or rounded by RNE, before FOUT (R107, R111, R117). -/
def FpEnv.exact (e : FpEnv) (x : FVal) : W32 := BitVec.ofNat 32 (exactOut x .f32 e.pol)
/-- A result in a format, zero-extended (R94). -/
def FpEnv.narrow (e : FpEnv) (f : Fmt) (x : FVal) : W32 := BitVec.ofNat 32 (roundTo x f e.rnd e.pol e.sat)

/-- The first NaN of the operands, or else `x` (R96). -/
def orNan (ops : List FVal) (x : FVal) : FVal := (firstNan ops).getD x

/-- A × B + C as a value, the sign of the product inverted on request (R105). -/
def fmaExact (neg : Bool) (a b c : FVal) (rnd : Rnd) : FVal :=
  let p := mulExact a b
  orNan [a, b, c] (sumExact [if neg then p.neg else p, c] rnd)

/-- The lesser operand of two, or the greater (R107). -/
def minMax (max szeq : Bool) (a b : FVal) : FVal :=
  if a.isNan then (if b.isNan then a else b)
  else if b.isNan then a
  else if a.isZero && b.isZero then (if szeq || a.sign == b.sign then a else if a.sign != max then a else b)
  else if max then (if ltExact a b then b else a) else (if ltExact b a then b else a)

/-- A value with sign + . -/
def FVal.mag : FVal → FVal
  | .num _ m e => .num false m e
  | .inf _ => .inf false
  | .nan x => .nan x

def famaxVal (e : FpEnv) (a b : W32) : W32 :=
  let x := (e.dec a).mag
  let y := (e.dec b).mag
  e.exact (orNan [x, y] (if ltExact x y then y else x)) &&& 0x7FFFFFFF

/-- The class of a pattern (R110). -/
def fclassVal (a : W32) : W32 :=
  let s := a.getLsbD 31
  let x := bits a.toNat 30 23
  let m := bits a.toNat 22 0
  let k : Nat :=
    if x = 255 then (if m ≠ 0 then (if a.getLsbD 22 then 9 else 8) else if s then 0 else 7)
    else if x = 0 then (if m = 0 then (if s then 3 else 4) else if s then 2 else 5)
    else if s then 1 else 6
  BitVec.ofNat 32 (2 ^ k)

/-- A × 2 to the n (R106). -/
def fscaleExact (a : FVal) (n : Int) : FVal :=
  match a with
  | .num s m e => .num s m (e + n)
  | x => x

/-- The functions of R111 with their special operands. -/
def frcpExact : FVal → FVal
  | .num s m e => if m = 0 then .inf s else recipExact s m e
  | .inf s => .num s 0 0
  | .nan x => .nan x
def frsqExact : FVal → FVal
  | .num s m e => if m = 0 then .inf s else if s then .nan none else rsqrtExact m e
  | .inf s => if s then .nan none else .num false 0 0
  | .nan x => .nan x
def fexp2Exact : FVal → FVal
  | .num s m e => if m = 0 then .num false 1 0 else exp2Exact s m e
  | .inf s => if s then .num false 0 0 else .inf false
  | .nan x => .nan x
def flog2Exact : FVal → FVal
  | .num s m e => if m = 0 then .inf true else if s then .nan none else log2Exact m e
  | .inf s => if s then .nan none else .inf false
  | .nan x => .nan x

/-- The lanes of a packed operand (R94). -/
def lanesOf (f : Fmt) (fin : Bool) (v : W32) : List FVal :=
  (List.range (32 / f.width)).map fun j => decodeF f fin (v.toNat / 2 ^ (f.width * j))

/-- A dot product of packed lanes plus C, rounded once (R112). -/
def fdotVal (f : Fmt) (e : FpEnv) (a b c : W32) : W32 :=
  let xs := lanesOf f (polFin e.pol) a
  let ys := lanesOf f (polFin e.pol) b
  let z := e.dec c
  e.out (orNan (xs ++ ys ++ [z]) (sumExact (List.zipWith mulExact xs ys ++ [z]) e.rnd))

/-- The largest exponent of MXSC's formats (R113). -/
def mxscEmax (code : Nat) : Int := match code with | 0 => 8 | 1 => 15 | _ => 2

/-- The E8M0 code of a block maximum (R113). -/
def mxscVal (code : Nat) (x : FVal) : W32 :=
  match x with
  | .num _ m e =>
    if m = 0 then 0x7F
    else BitVec.ofInt 32 (min (max ((m.log2 : Int) + e - mxscEmax code) (-127)) 127 + 127)
  | _ => 0xFF

/-- What a narrow-format code of IMM8 names: a floating-point format, or a signed integer of a width (R97). -/
inductive Narrow where
  | fp (f : Fmt)
  | int (w : Nat)
  deriving DecidableEq, Repr

def Narrow.of (imm8 : BitVec 8) : Narrow :=
  match bits imm8.toNat 2 0 with
  | 0 => .fp .e4m3
  | 1 => .fp .e5m2
  | 2 => .fp .e2m1
  | 3 => .int 8
  | 4 => .int 4
  | 5 => .fp .bf16
  | _ => .fp .f16

def Narrow.width : Narrow → Nat | .fp f => f.width | .int w => w

/-- A value converted to a narrow format (R114, R118). -/
def Narrow.code (n : Narrow) (e : FpEnv) (x : FVal) : Nat :=
  match n with
  | .fp f => roundTo x f e.rnd e.pol e.sat
  | .int w => intOut x w true e.rnd

def qntVal (imm8 : BitVec 8) (e : FpEnv) (a b : W32) : W32 :=
  let x := e.dec a
  let y := e.dec b
  BitVec.ofNat 32 ((Narrow.of imm8).code e (orNan [x, y] (mulExact x y)))

/-- An integer as an exact value; 0 is +0 (R115). -/
def intVal (v : Int) : FVal := .num (v < 0) v.natAbs 0

/-- A narrow code as F32 (R117, R119). -/
def widen (n : Narrow) (e : FpEnv) (code : Nat) : W32 :=
  match n with
  | .fp f => e.exact (decodeF f (polFin e.pol) code)
  | .int w => e.exact (intVal (sv code w))

/-- PACK: an element enters a packed word at the top (R118). -/
def packVal (imm8 : BitVec 8) (e : FpEnv) (a b : W32) : W32 :=
  let n := Narrow.of imm8
  let code := if imm8.getLsbD 3 then a.toNat % 2 ^ n.width else n.code e (e.dec a) % 2 ^ n.width
  BitVec.ofNat 32 (b.toNat / 2 ^ n.width + code * 2 ^ (32 - n.width))

/-- UNPACK: one lane as F32 (R119). -/
def unpackVal (imm8 : BitVec 8) (e : FpEnv) (a : W32) : W32 :=
  let n := Narrow.of imm8
  widen n e (a.toNat / 2 ^ (n.width * bits imm8.toNat 5 3))

/-! ## The words -/

def execFadd (w : C2) (s : State) : Ans :=
  .next (floatWord2 3 w (fun e a b => e.out (sumExact [e.dec a, e.dec b] e.rnd)) s)
def execFsub (w : C2) (s : State) : Ans :=
  .next (floatWord2 3 w (fun e a b => e.out (sumExact [e.dec a, (e.dec b).neg] e.rnd)) s)
def execFmul (w : C2) (s : State) : Ans :=
  .next (floatWord2 3 w (fun e a b => e.out (mulExact (e.dec a) (e.dec b))) s)
def execFma (w : C3) (s : State) : Ans :=
  .next (floatWord3 4 w (fun e a b c => e.out (fmaExact false (e.dec a) (e.dec b) (e.dec c) e.rnd)) s)
def execFnma (w : C3) (s : State) : Ans :=
  .next (floatWord3 4 w (fun e a b c => e.out (fmaExact true (e.dec a) (e.dec b) (e.dec c) e.rnd)) s)
def execFmin (w : C2) (s : State) : Ans :=
  .next (floatWord2 2 w (fun e a b => e.exact (minMax false (polSzeq e.pol) (e.dec a) (e.dec b))) s)
def execFmax (w : C2) (s : State) : Ans :=
  .next (floatWord2 2 w (fun e a b => e.exact (minMax true (polSzeq e.pol) (e.dec a) (e.dec b))) s)
def execFabs (w : C2) (s : State) : Ans := .next (floatWord2 1 w (fun _ a _ => a &&& 0x7FFFFFFF) s)
def execFneg (w : C2) (s : State) : Ans := .next (floatWord2 1 w (fun _ a _ => a ^^^ 0x80000000) s)

/-- FCMP: a predicate of two operands under the word's policy (R109). -/
def fcmpWord (r : FcmpRel) (w : C2) (s : State) : State :=
  predWord2 2 w (r.holds (s.policy s.focus.region w.fpm)) s

def execFcmpEq (w : C2) (s : State) : Ans := .next (fcmpWord .eq w s)
def execFcmpLt (w : C2) (s : State) : Ans := .next (fcmpWord .lt w s)
def execFcmpLe (w : C2) (s : State) : Ans := .next (fcmpWord .le w s)
def execFcmpUn (w : C2) (s : State) : Ans := .next (fcmpWord .un w s)
def execFclass (w : C2) (s : State) : Ans := .next (floatWord2 1 w (fun _ a _ => fclassVal a) s)
def execFscale (w : C2) (s : State) : Ans :=
  .next (floatWord2 2 w (fun e a b => e.out (fscaleExact (e.dec a) b.toInt)) s)
def execFamax (w : C2) (s : State) : Ans := .next (floatWord2 2 w famaxVal s)
def execFrcp (w : C2) (s : State) : Ans := .next (floatWord2 6 w (fun e a _ => e.exact (frcpExact (e.dec a))) s)
def execFrsq (w : C2) (s : State) : Ans := .next (floatWord2 6 w (fun e a _ => e.exact (frsqExact (e.dec a))) s)
def execFexp2 (w : C2) (s : State) : Ans := .next (floatWord2 6 w (fun e a _ => e.exact (fexp2Exact (e.dec a))) s)
def execFlog2 (w : C2) (s : State) : Ans := .next (floatWord2 6 w (fun e a _ => e.exact (flog2Exact (e.dec a))) s)
def execFdot2Bf16 (w : C3) (s : State) : Ans := .next (floatWord3 4 w (fdotVal .bf16) s)
def execFdot4E4m3 (w : C3) (s : State) : Ans := .next (floatWord3 4 w (fdotVal .e4m3) s)
def execFdot4E5m2 (w : C3) (s : State) : Ans := .next (floatWord3 4 w (fdotVal .e5m2) s)
def execMxsc (w : C2) (s : State) : Ans :=
  .next (floatWord2 2 w (fun e a _ => mxscVal (bits w.imm8.toNat 1 0) (e.dec a)) s)
def execQnt (w : C2) (s : State) : Ans := .next (floatWord2 3 w (qntVal w.imm8) s)
def execCvtF32S32 (w : C2) (s : State) : Ans := .next (floatWord2 2 w (fun e a _ => e.out (intVal a.toInt)) s)
def execCvtS32F32 (w : C2) (s : State) : Ans :=
  .next (floatWord2 2 w (fun e a _ => BitVec.ofNat 32 (intOut (e.dec a) 32 true e.rnd)) s)
def execCvtF32Z32 (w : C2) (s : State) : Ans := .next (floatWord2 2 w (fun e a _ => e.out (intVal a.toNat)) s)
def execCvtZ32F32 (w : C2) (s : State) : Ans :=
  .next (floatWord2 2 w (fun e a _ => BitVec.ofNat 32 (intOut (e.dec a) 32 false e.rnd)) s)
def execCvtBf16F32 (w : C2) (s : State) : Ans := .next (floatWord2 2 w (fun e a _ => e.narrow .bf16 (e.dec a)) s)
def execCvtF16F32 (w : C2) (s : State) : Ans := .next (floatWord2 2 w (fun e a _ => e.narrow .f16 (e.dec a)) s)
def execCvtF32Bf16 (w : C2) (s : State) : Ans := .next (floatWord2 2 w (fun e a _ => widen (.fp .bf16) e a.toNat) s)
def execCvtF32F16 (w : C2) (s : State) : Ans := .next (floatWord2 2 w (fun e a _ => widen (.fp .f16) e a.toNat) s)
def execCvtE4m3F32 (w : C2) (s : State) : Ans := .next (floatWord2 2 w (fun e a _ => e.narrow .e4m3 (e.dec a)) s)
def execCvtE5m2F32 (w : C2) (s : State) : Ans := .next (floatWord2 2 w (fun e a _ => e.narrow .e5m2 (e.dec a)) s)
def execCvtE2m1F32 (w : C2) (s : State) : Ans := .next (floatWord2 2 w (fun e a _ => e.narrow .e2m1 (e.dec a)) s)
def execCvtF32E4m3 (w : C2) (s : State) : Ans := .next (floatWord2 2 w (fun e a _ => widen (.fp .e4m3) e a.toNat) s)
def execCvtF32E5m2 (w : C2) (s : State) : Ans := .next (floatWord2 2 w (fun e a _ => widen (.fp .e5m2) e a.toNat) s)
def execCvtF32E2m1 (w : C2) (s : State) : Ans := .next (floatWord2 2 w (fun e a _ => widen (.fp .e2m1) e a.toNat) s)
def execPackX2 (w : C2) (s : State) : Ans := .next (floatWord2 2 w (packVal w.imm8) s)
def execPackX4 (w : C2) (s : State) : Ans := .next (floatWord2 2 w (packVal w.imm8) s)
def execUnpackX2 (w : C2) (s : State) : Ans := .next (floatWord2 2 w (fun e a _ => unpackVal w.imm8 e a) s)
def execUnpackX4 (w : C2) (s : State) : Ans := .next (floatWord2 2 w (fun e a _ => unpackVal w.imm8 e a) s)

end Sys2Proof.Machine
end

