-- ==== Sys2Proof/Machine/CellFlow.lean ====
section
/-! DEFINITION. The flow operations of a cell (R120 to R142): tokens, predicate logic, lanes, and the words that end or thin
out iterations. What a word does on its landing cycle is in Fabric.lean. -/
namespace Sys2Proof.Machine

/-- MOD bits 9:8. -/
def modRank (w : C2) : BitVec 2 := w.mod.extractLsb' 0 2

/-- A word that only occupies a slot of some kind (R137, R140, R141). -/
def slotWord (w : C2) (kind : SlotKind) (value : W32) (s : State) : State :=
  withIssue s w.stg w.grd fun x => s.addSlot x (x.slot kind 1 value)

/-- OUT and ORDMK: a token of A at landing (R135). -/
def pushWord (w : C2) (ord : Bool) (s : State) : State :=
  withIssue s w.stg w.grd fun x =>
    (s.popSrcs x [w.sa]).addSlot x { x.slot .push 1 (s.src x w.sa w.imm8) with
      rank := modRank w, ord := ord, scope := if ord then bits w.imm8.toNat 2 0 else 0 }

/-- PASS: the head token's data delivered, and the token forwarded with its ORD bit and the higher rank (R135). -/
def passWord (w : C2) (s : State) : State :=
  withIssue s w.stg w.grd fun x =>
    let t := s.srcTok x w.sa
    (s.popSrcs x [w.sa]).addSlot x { x.slot .valuePush 1 t.tok.data with
      dest := physQ (s.page x.pid).base w.dq.toNat, wq := w.wq, rank := if t.tok.rank.ult (modRank w) then modRank w else t.tok.rank,
      ord := t.tok.ord, rel := t.rel }

/-- POP: the heads of the masked queues, all on one cycle (R136). -/
def popWord (w : C2) (s : State) : State :=
  withIssue s w.stg w.grd fun x =>
    if x.live then ((List.range 4).filter w.imm8.getLsbD).foldl (fun s n => s.popIn x.rid x.unit n) s else s

/-- PEEK: the data of the token at a depth (R136). -/
def peekWord (w : C2) (s : State) : State :=
  withIssue s w.stg w.grd fun x =>
    let v := if x.live then
        (((qAt (s.cell x.rid x.unit).ins (w.sa.toNat % 4)).nth? (modRank w).toNat).getD (QTok.of Tok.zero)).tok.data
      else 0
    s.deliver x 1 w.dq w.wq w.out v

/-- ISMARK: whether the head token's rank reaches a threshold (R138). -/
def ismarkWord (w : C2) (s : State) : State :=
  withIssue s w.stg w.grd fun x =>
    (s.popSrcs x [w.sa]).deliverPred x 1 w.dq ((modRank w).ule (s.srcTok x w.sa).tok.rank)

/-- The sideband of a token as RANKRD delivers it (R138). -/
def Tok.sideband (t : Tok) : W32 :=
  BitVec.ofNat 32 (t.rank.toNat + (if t.ord then 4 else 0) + (if t.ctl then 8 else 0))

def rankrdWord (w : C2) (s : State) : State :=
  withIssue s w.stg w.grd fun x => (s.popSrcs x [w.sa]).deliver x 1 w.dq w.wq w.out (s.srcTok x w.sa).tok.sideband

/-- A word that writes a predicate from the cell's predicates, lanes and loop state alone (R139, R142). -/
def stateWord (w : C2) (f : Issue → Cell → Page → Bool) (s : State) : State :=
  withIssue s w.stg w.grd fun x => s.deliverPred x 1 w.dq (f x (s.cell x.rid x.unit) (s.page x.pid))

/-- The predicate of ITER (R142). -/
def iterVal (sel : BitVec 2) (x : Issue) (p : Page) : Bool :=
  match sel.toNat with
  | 0 => p.iteration x.stage == 0
  | 1 => p.trip != 0 && p.iteration x.stage == p.trip - 1
  | 2 => p.passIdx == 0
  | _ => p.passes != 0 && p.passIdx == p.passes - 1

def execOut (w : C2) (s : State) : Ans := .next (pushWord w false s)
def execPass (w : C2) (s : State) : Ans := .next (passWord w s)
def execPop (w : C2) (s : State) : Ans := .next (popWord w s)
def execPeek (w : C2) (s : State) : Ans := .next (peekWord w s)
def execMark (w : C2) (s : State) : Ans := .next (slotWord w .mark ((modRank w).zeroExtend 32) s)
def execIsmark (w : C2) (s : State) : Ans := .next (ismarkWord w s)
def execOrdmk (w : C2) (s : State) : Ans := .next (pushWord w true s)
def execRankrd (w : C2) (s : State) : Ans := .next (rankrdWord w s)
def execPand (w : C2) (s : State) : Ans := .next (stateWord w (fun _ c _ => predSel c.g w.sa && predSel c.g w.sb) s)
def execPor (w : C2) (s : State) : Ans := .next (stateWord w (fun _ c _ => predSel c.g w.sa || predSel c.g w.sb) s)
def execPxor (w : C2) (s : State) : Ans := .next (stateWord w (fun _ c _ => predSel c.g w.sa != predSel c.g w.sb) s)
def execPnot (w : C2) (s : State) : Ans := .next (stateWord w (fun _ c _ => !predSel c.g w.sa) s)
def execPset (w : C2) (s : State) : Ans := .next (predWord2 1 w (fun a _ => a != 0) s)
def execPsend (w : C2) (s : State) : Ans :=
  .next (slotWord w .psend (if predSel (s.cell s.focus.region s.focus.unit).g w.sa then 1 else 0) s)
def execPrecv (w : C2) (s : State) : Ans :=
  .next (stateWord w (fun _ c _ => c.pl[bits w.imm8.toNat 1 0 % 4]'(Nat.mod_lt _ (by decide))) s)
def execPtest (w : C2) (s : State) : Ans := .next (predWord2 1 w (fun a _ => a.getLsbD (bits w.imm8.toNat 4 0)) s)
def execExit (w : C2) (s : State) : Ans := .next (slotWord w .exit 0 s)
def execIter (w : C2) (s : State) : Ans := .next (stateWord w (fun x _ p => iterVal (modRank w) x p) s)
def execLive (w : C2) (s : State) : Ans := .next (stateWord w (fun x _ _ => x.live) s)
def execDrop (w : C2) (s : State) : Ans := .next (slotWord w .drop 0 s)

end Sys2Proof.Machine
end

