-- ==== Sys2Proof/Machine/CellInt.lean ====
section
/-! DEFINITION. The integer, bit and address operations of a cell (R75 to R89), each a function of its source values delivered
through the shared word forms of Operands.lean. -/
namespace Sys2Proof.Machine

/-! ## Lanes (R77) -/

/-- One source, lane by lane, at the width of MOD bits 11:10. -/
def lanes1 (mod : BitVec 4) (f : (n : Nat) → BitVec n → BitVec n) (a : W32) : W32 :=
  match (mod.extractLsb' 2 2).toNat with
  | 1 => f 16 (a.extractLsb' 16 16) ++ f 16 (a.extractLsb' 0 16)
  | 2 => f 8 (a.extractLsb' 24 8) ++ f 8 (a.extractLsb' 16 8) ++ f 8 (a.extractLsb' 8 8) ++ f 8 (a.extractLsb' 0 8)
  | _ => f 32 a

/-- Two sources, lane by lane. -/
def lanes2 (mod : BitVec 4) (f : (n : Nat) → BitVec n → BitVec n → BitVec n) (a b : W32) : W32 :=
  match (mod.extractLsb' 2 2).toNat with
  | 1 => f 16 (a.extractLsb' 16 16) (b.extractLsb' 16 16) ++ f 16 (a.extractLsb' 0 16) (b.extractLsb' 0 16)
  | 2 => f 8 (a.extractLsb' 24 8) (b.extractLsb' 24 8) ++ f 8 (a.extractLsb' 16 8) (b.extractLsb' 16 8) ++
      f 8 (a.extractLsb' 8 8) (b.extractLsb' 8 8) ++ f 8 (a.extractLsb' 0 8) (b.extractLsb' 0 8)
  | _ => f 32 a b

/-- SatS and SatZ of R76. -/
def satS (n : Nat) (v : Int) : BitVec n := BitVec.ofInt n (min (max v (-(2 ^ (n - 1) : Int))) (2 ^ (n - 1) - 1))
def satZ (n : Nat) (v : Int) : BitVec n := BitVec.ofInt n (min (max v 0) (2 ^ n - 1))

/-! ## Results as functions of the sources -/

/-- ADDC: the sum or, with CO, the carry out (R79). -/
def addcVal (co : Bool) (a b c : W32) : W32 :=
  let t := a.toNat + b.toNat + c.toNat % 2
  BitVec.ofNat 32 (if co then t / 2 ^ 32 else t)

/-- SUBB: the difference or, with CO, the borrow out (R79). -/
def subbVal (co : Bool) (a b c : W32) : W32 :=
  if co then (if a.toNat < b.toNat + c.toNat % 2 then 1 else 0) else a - b - (c &&& 1)

/-- The sum of the signed products of n-bit lanes (R80). -/
def dotVal (n k : Nat) (a b c : W32) : W32 :=
  BitVec.ofInt 32 (c.toInt + ((List.range k).map fun j =>
    (a.extractLsb' (n * j) n).toInt * (b.extractLsb' (n * j) n).toInt).foldl (· + ·) 0)

/-- The number of leading zero bits (R84). -/
def clzNat (n x : Nat) : Nat := if x = 0 then n else n - 1 - x.log2
/-- The number of one bits (R84). -/
def popcNat (n x : Nat) : Nat := ((List.range n).filter x.testBit).length
/-- The bits, or the bytes, in reverse order (R84). -/
def brevVal (a : W32) : W32 := BitVec.ofNat 32 ((List.range 32).foldl (fun r j => 2 * r + (if a.getLsbD j then 1 else 0)) 0)
def bswapVal (a : W32) : W32 := a.extractLsb' 0 8 ++ a.extractLsb' 8 8 ++ a.extractLsb' 16 8 ++ a.extractLsb' 24 8

/-- Position and effective length of a bit field (R85). -/
def fieldPos (ctl : W32) : Nat := bits ctl.toNat 4 0
def fieldLen (ctl : W32) : Nat := min (bits ctl.toNat 13 8) (32 - fieldPos ctl)
def bfxVal (sgn : Bool) (a ctl : W32) : W32 :=
  let f := a.toNat / 2 ^ fieldPos ctl % 2 ^ fieldLen ctl
  if sgn then BitVec.ofInt 32 (sv f (fieldLen ctl)) else BitVec.ofNat 32 f
def bfiVal (a b ctl : W32) : W32 :=
  let m := BitVec.ofNat 32 ((2 ^ fieldLen ctl - 1) * 2 ^ fieldPos ctl)
  (a &&& ~~~m) ||| BitVec.ofNat 32 (b.toNat % 2 ^ fieldLen ctl * 2 ^ fieldPos ctl)

/-- The 64-bit carry-less product (R86). -/
def clmulNat (a b : W32) : Nat :=
  (List.range 32).foldl (fun p j => if b.getLsbD j then p ^^^ (a.toNat * 2 ^ j) else p) 0

def rotVal (a b : W32) : W32 := a.rotateLeft (b.toNat % 32)
def funnelVal (a b c : W32) : W32 := BitVec.ofNat 32 ((a.toNat * 2 ^ 32 + b.toNat) / 2 ^ (c.toNat % 64))

/-! ## The words -/

/-- NOP (R38): no source, no slot, no effect. -/
def execNop (s : State) : Ans := .next s

def execAdd (w : C2) (s : State) : Ans := .next (valueWord2 1 w (lanes2 w.mod fun _ a b => a + b) s)
def execSub (w : C2) (s : State) : Ans := .next (valueWord2 1 w (lanes2 w.mod fun _ a b => a - b) s)
def execAddc (w : C3) (s : State) : Ans := .next (valueWord3 1 w (addcVal (w.modx.getLsbD 0)) s)
def execSubb (w : C3) (s : State) : Ans := .next (valueWord3 1 w (subbVal (w.modx.getLsbD 0)) s)
def execAddSatS (w : C2) (s : State) : Ans := .next (valueWord2 1 w (lanes2 w.mod fun n a b => satS n (a.toInt + b.toInt)) s)
def execAddSatZ (w : C2) (s : State) : Ans := .next (valueWord2 1 w (lanes2 w.mod fun n a b => satZ n (a.toNat + b.toNat)) s)
def execSubSatS (w : C2) (s : State) : Ans := .next (valueWord2 1 w (lanes2 w.mod fun n a b => satS n (a.toInt - b.toInt)) s)
def execSubSatZ (w : C2) (s : State) : Ans :=
  .next (valueWord2 1 w (lanes2 w.mod fun n a b => satZ n ((a.toNat : Int) - b.toNat)) s)
def execAddsh (w : C2) (s : State) : Ans := .next (valueWord2 1 w (fun a b => a + b <<< (bits w.imm8.toNat 2 0)) s)
def execMulLo (w : C2) (s : State) : Ans := .next (valueWord2 3 w (lanes2 w.mod fun _ a b => a * b) s)
def execMulHiS (w : C2) (s : State) : Ans :=
  .next (valueWord2 3 w (fun a b => BitVec.ofInt 32 (a.toInt * b.toInt / 2 ^ 32)) s)
def execMulHiZ (w : C2) (s : State) : Ans :=
  .next (valueWord2 3 w (fun a b => BitVec.ofNat 32 (a.toNat * b.toNat / 2 ^ 32)) s)
def execMad (w : C3) (s : State) : Ans := .next (valueWord3 3 w (fun a b c => a * b + c) s)
def execDot4S8 (w : C3) (s : State) : Ans := .next (valueWord3 3 w (dotVal 8 4) s)
def execDot2S16 (w : C3) (s : State) : Ans := .next (valueWord3 3 w (dotVal 16 2) s)
def execMinS (w : C2) (s : State) : Ans := .next (valueWord2 1 w (lanes2 w.mod fun _ a b => if a.sle b then a else b) s)
def execMinZ (w : C2) (s : State) : Ans := .next (valueWord2 1 w (lanes2 w.mod fun _ a b => if a.ule b then a else b) s)
def execMaxS (w : C2) (s : State) : Ans := .next (valueWord2 1 w (lanes2 w.mod fun _ a b => if b.sle a then a else b) s)
def execMaxZ (w : C2) (s : State) : Ans := .next (valueWord2 1 w (lanes2 w.mod fun _ a b => if b.ule a then a else b) s)
def execAbs (w : C2) (s : State) : Ans := .next (valueWord2 1 w (fun a _ => lanes1 w.mod (fun _ a => if a.msb then -a else a) a) s)
def execNeg (w : C2) (s : State) : Ans := .next (valueWord2 1 w (fun a _ => lanes1 w.mod (fun _ a => -a) a) s)
def execAnd (w : C2) (s : State) : Ans := .next (valueWord2 1 w (fun a b => a &&& b) s)
def execOr (w : C2) (s : State) : Ans := .next (valueWord2 1 w (fun a b => a ||| b) s)
def execXor (w : C2) (s : State) : Ans := .next (valueWord2 1 w (fun a b => a ^^^ b) s)
def execAndn (w : C2) (s : State) : Ans := .next (valueWord2 1 w (fun a b => a &&& ~~~b) s)
def execShl (w : C2) (s : State) : Ans := .next (valueWord2 1 w (lanes2 w.mod fun n a b => a <<< (b.toNat % n)) s)
def execShrZ (w : C2) (s : State) : Ans := .next (valueWord2 1 w (lanes2 w.mod fun n a b => a >>> (b.toNat % n)) s)
def execShrS (w : C2) (s : State) : Ans := .next (valueWord2 1 w (lanes2 w.mod fun n a b => a.sshiftRight (b.toNat % n)) s)
def execRot (w : C2) (s : State) : Ans := .next (valueWord2 1 w rotVal s)
def execFunnel (w : C3) (s : State) : Ans := .next (valueWord3 1 w funnelVal s)
def execClz (w : C2) (s : State) : Ans := .next (valueWord2 1 w (fun a _ => BitVec.ofNat 32 (clzNat 32 a.toNat)) s)
def execPopc (w : C2) (s : State) : Ans := .next (valueWord2 1 w (fun a _ => BitVec.ofNat 32 (popcNat 32 a.toNat)) s)
def execBrev (w : C2) (s : State) : Ans := .next (valueWord2 1 w (fun a _ => brevVal a) s)
def execBswap (w : C2) (s : State) : Ans := .next (valueWord2 1 w (fun a _ => bswapVal a) s)
def execBfxS (w : C2) (s : State) : Ans := .next (valueWord2 1 w (bfxVal true) s)
def execBfxZ (w : C2) (s : State) : Ans := .next (valueWord2 1 w (bfxVal false) s)
def execBfi (w : C3) (s : State) : Ans := .next (valueWord3 1 w bfiVal s)
def execClmulLo (w : C2) (s : State) : Ans := .next (valueWord2 2 w (fun a b => BitVec.ofNat 32 (clmulNat a b)) s)
def execClmulHi (w : C2) (s : State) : Ans := .next (valueWord2 2 w (fun a b => BitVec.ofNat 32 (clmulNat a b / 2 ^ 32)) s)
def execCmpEq (w : C2) (s : State) : Ans := .next (predWord2 1 w CmpRel.eq.holds s)
def execCmpNe (w : C2) (s : State) : Ans := .next (predWord2 1 w CmpRel.ne.holds s)
def execCmpLtS (w : C2) (s : State) : Ans := .next (predWord2 1 w CmpRel.ltS.holds s)
def execCmpLtZ (w : C2) (s : State) : Ans := .next (predWord2 1 w CmpRel.ltZ.holds s)
def execCmpLeS (w : C2) (s : State) : Ans := .next (predWord2 1 w CmpRel.leS.holds s)
def execCmpLeZ (w : C2) (s : State) : Ans := .next (predWord2 1 w CmpRel.leZ.holds s)
def execSel (w : C3) (s : State) : Ans := .next (valueWord3 1 w (fun a b c => if c ≠ 0 then a else b) s)
def execMov (w : C2) (s : State) : Ans := .next (valueWord2 1 w (fun a _ => a) s)

/-- A word with an immediate in place of its sources (R89): f of the old q[DQ]. -/
def immWord (w : Li) (f : W32 → W32) (s : State) : State :=
  withIssue s w.stg w.grd fun x =>
    s.deliver x 1 w.dq w.wq w.out (f ((s.cell x.rid x.unit).qReg (s.page x.pid).base w.dq.toNat))

def execLi (w : Li) (s : State) : Ans := .next (immWord w (fun _ => w.imm.signExtend 32) s)
def execHi16 (w : Li) (s : State) : Ans := .next (immWord w (fun q => w.imm.extractLsb' 0 16 ++ q.extractLsb' 0 16) s)

end Sys2Proof.Machine
end

