-- ==== Sys2Proof/Machine/Crypto.lean ====
section
/-! DEFINITION. SHAKE256 (FIPS 202) and the Falcon-1024 keys and signatures that R63, R64, R398 and R402 to R404 name. The spec
gives neither function; both are PRESUMED from their public definitions (log 71). -/
namespace Sys2Proof.Machine

/-! ## Keccak-f[1600] and SHAKE256 -/

/-- The register of 8 bits that gives the round constants, after t steps: it shifts up, and a bit that leaves it goes to places 0, 4, 5
and 6. -/
def constantRegister : Nat → Nat
  | 0 => 1
  | t + 1 => let r := constantRegister t; if r < 128 then 2 * r else (2 * r - 256) ^^^ 0x71

/-- The constant that round r adds to lane (0, 0): place 2^j - 1 holds the lowest bit of the register after 7 r + j steps. -/
def roundConstant (r : Nat) : W64 :=
  (List.range 7).foldl (fun w j => if (constantRegister (7 * r + j)).testBit 0 then w ||| (1#64 <<< (2 ^ j - 1)) else w) 0

/-- A walk over the 24 lanes other than (0, 0): from (x, y) to (y, 2 x + 3 y). -/
def laneWalk : Nat → Nat × Nat
  | 0 => (1, 0)
  | t + 1 => let p := laneWalk t; (p.2, (2 * p.1 + 3 * p.2) % 5)

/-- A state of 25 lanes; lane (x, y) is entry x + 5 y. -/
abbrev Sponge := List W64

def Sponge.at (a : Sponge) (p : Nat × Nat) : W64 := a.getD (p.1 % 5 + 5 * (p.2 % 5)) 0
def Sponge.put (a : Sponge) (p : Nat × Nat) (v : W64) : Sponge := a.set (p.1 + 5 * p.2) v
/-- Every lane changed by a function of its place. -/
def Sponge.change (a : Sponge) (f : Nat × Nat → W64 → W64) : Sponge := a.mapIdx (fun i v => f (i % 5, i / 5) v)

/-- The parities of the five columns of lanes. -/
def columnParity (a : Sponge) (x : Nat) : W64 := (List.range 5).foldl (fun w y => w ^^^ a.at (x, y)) 0

/-- Theta. -/
def mixColumns (a : Sponge) : Sponge :=
  let c := (List.range 5).map (columnParity a)
  a.change (fun p v => v ^^^ c.getD ((p.1 + 4) % 5) 0 ^^^ (c.getD ((p.1 + 1) % 5) 0).rotateLeft 1)

/-- Rho and pi: the lane at place t of the walk is turned by the sum of the numbers up to t + 1, and goes to the next place. -/
def turnLanes (a : Sponge) : Sponge :=
  (List.range 24).foldl (fun b t => b.put (laneWalk (t + 1)) ((a.at (laneWalk t)).rotateLeft ((t + 1) * (t + 2) / 2 % 64))) a

/-- Chi. -/
def mixRows (a : Sponge) : Sponge :=
  a.change (fun p v => v ^^^ (a.at (p.1 + 2, p.2) &&& ~~~(a.at (p.1 + 1, p.2))))

/-- A round. -/
def spongeRound (a : Sponge) (r : Nat) : Sponge :=
  let b := mixRows (turnLanes (mixColumns a))
  b.put (0, 0) (b.at (0, 0) ^^^ roundConstant r)

/-- The permutation Keccak-f[1600]. -/
def keccak (a : Sponge) : Sponge := (List.range 24).foldl spongeRound a

/-- A state with a block of at most 136 bytes added to its first lanes, permuted. -/
def absorb (a : Sponge) (block : List Byte) : Sponge :=
  keccak (a.zipIdx.map (fun e => e.1 ^^^ BitVec.ofNat 64 (fieldAt block (8 * e.2) 8)))

/-- A message with the suffix of SHAKE256 and its padding to whole blocks of 136 bytes. -/
def shakePad (m : List Byte) : List Byte :=
  let n := 135 - m.length % 136
  if n = 0 then m ++ [0x9F] else m ++ 0x1F :: (List.replicate (n - 1) 0 ++ [0x80])

/-- The first 136 bytes of a state. -/
def stateBytes (a : Sponge) : List Byte := (a.take 17).flatMap (fun l => toBytes 8 l.toNat)

/-- The sponge of SHAKE256 after a message. -/
def shakeState (m : List Byte) : Sponge :=
  let p := shakePad m
  (List.range (p.length / 136)).foldl (fun a i => absorb a ((p.drop (136 * i)).take 136)) (List.replicate 25 0)

/-- The first n blocks of 136 bytes that a sponge gives. -/
def squeeze : Nat → Sponge → List Byte
  | 0, _ => []
  | n + 1, a => stateBytes a ++ squeeze n (keccak a)

/-- SHAKE256 of a string of bytes with 64 bytes of output, byte 0 in bits 7:0 (R63). -/
def shake256 (m : List Byte) : BitVec 512 := BitVec.ofNat 512 (ofBytes ((squeeze 1 (shakeState m)).take 64))

/-! ## Falcon-1024 -/

/-- The modulus q, and the greatest squared length of a signature. -/
def falconQ : Nat := 12289
def falconBound : Nat := 70265242

/-- A string of bytes as a number, its first byte highest. -/
def ofBytesHigh (b : List Byte) : Nat := b.foldl (fun n x => 256 * n + x.toNat) 0

/-- The 1,024 coefficients of a public key: 14 bits each, highest bits first, after a header byte 0x0A. -/
def falconKey (key : List Byte) : List Nat :=
  let n := ofBytesHigh (key.drop 1)
  (List.range 1024).map (fun i => bits n (14 * (1023 - i) + 13) (14 * (1023 - i)))

/-- Whether a public key is well formed (R398). -/
def falconKeyOk (key : List Byte) : Bool :=
  key.length == 1793 && key.head? == some 0x0A && (falconKey key).all (fun c => decide (c < falconQ))

/-- The point that a salt and a message hash to: 16-bit numbers of SHAKE256, those of 61,445 and more passed over, modulo q.
The model squeezes 64 blocks, 4,352 numbers for the 1,024 that are needed. -/
def falconPoint (salted : List Byte) : List Nat :=
  let out := squeeze 64 (shakeState salted)
  (((List.range 4352).map (fun i => ofBytesHigh ((out.drop (2 * i)).take 2))).filter (fun t => decide (t < 5 * falconQ))).map (· % falconQ)
    |>.take 1024

/-- The zeros before the first one of a list of bits, and what follows that one. -/
def unary : List Bool → Option (Nat × List Bool)
  | [] => none
  | true :: t => some (0, t)
  | false :: t => (unary t).map (fun r => (r.1 + 1, r.2))

/-- n coefficients of a compressed signature: a sign, 7 low bits, the high part in unary; no zero with a sign, and no coefficient
above 2,047; the bits left over are zeros. -/
def decompress : Nat → List Bool → Option (List Int)
  | 0, b => if b.any id then none else some []
  | n + 1, b =>
    match b with
    | sg :: b6 :: b5 :: b4 :: b3 :: b2 :: b1 :: b0 :: t =>
      match unary t with
      | none => none
      | some (h, t') =>
        let v := [b6, b5, b4, b3, b2, b1, b0].foldl (fun m x => 2 * m + x.toNat) 0 + 128 * h
        if 2047 < v ∨ (v = 0 ∧ sg) then none
        else (decompress n t').map (fun l => (if sg then -(v : Int) else v) :: l)
    | _ => none

/-- The bits of a string of bytes, highest first. -/
def bitsOf (b : List Byte) : List Bool := b.flatMap (fun x => (List.range 8).map (fun i => x.getLsbD (7 - i)))

/-- Coefficient k of the product of two polynomials modulo x^1024 + 1. -/
def negacyclic (f g : List Int) (k : Nat) : Int :=
  ((List.range 1024).map (fun i =>
    if i ≤ k then f.getD i 0 * g.getD (k - i) 0 else -(f.getD i 0 * g.getD (1024 + k - i) 0))).sum

/-- The representative of a number modulo q of least magnitude. -/
def centred (v : Int) : Int :=
  let r := v % falconQ
  if (falconQ : Int) < 2 * r then r - falconQ else r

/-- Whether a Falcon-1024 signature verifies over a message under a public key. -/
def falconCheck (key msg sig : List Byte) : Bool :=
  falconKeyOk key && sig.head? == some 0x3A &&
  match decompress 1024 (bitsOf (sig.drop 41)) with
  | none => false
  | some s2 =>
    let c := falconPoint ((sig.drop 1).take 40 ++ msg)
    let h := (falconKey key).map Int.ofNat
    let s1 := (List.range 1024).map (fun k => centred (c.getD k 0 - negacyclic s2 h k))
    c.length == 1024 && decide ((s1.map (fun v => v * v)).sum + (s2.map (fun v => v * v)).sum ≤ falconBound)

/-- Whether a signature verifies over a 64-byte digest under a public key (R63, R402, R403). -/
def falconVerify (key : List Byte) (digest : BitVec 512) (sig : List Byte) : Bool := falconCheck key (toBytes 64 digest.toNat) sig

end Sys2Proof.Machine
end

