-- ==== Sys2Proof/Machine/Checks.lean ====
section
/-! DEFINITION. The pager's checks of context words (R39, R78, R104, R134, R154, R192, R322) and what each opcode uses
of its fields, with its latency. -/
namespace Sys2Proof

/-- What an opcode takes in a source field: nothing, a selector of R33, a queue, a peek selector, a predicate selector
(R139), a memory-node selector (R145), or TAKE's queue (R154). -/
inductive SelKind where
  | unused | src | queue | peek | pred | node | take
  deriving DecidableEq, Repr

/-- What an opcode writes (R35, R146): a value, PASS's value, a predicate, a memory-node value, GIVE's token, nothing. -/
inductive DestKind where
  | value | noOut | pred | mval | give | none
  deriving DecidableEq, Repr

/-- An opcode's use of its fields: `imm` is the mask of IMM8's control bits where it has any, `mods` and `modxs` list
as set bits the values of MOD and MODX it accepts, `fpm` says whether FPM is used. -/
structure Shape where
  a : SelKind
  b : SelKind
  c : SelKind
  imm : Option (BitVec 8)
  dest : DestKind
  mods : Nat
  modxs : Nat
  fpm : Bool
  lat : Nat
  deriving DecidableEq, Repr

/-- The shape of each C2, C3 and LI-format context word. The latency of a memory-node value word is its class's. -/
def Instr.shape : Instr → Option Shape
  | .add _ => some ⟨.src, .src, .unused, none, .value, 0x0111, 0x1, false, 1⟩
  | .sub _ => some ⟨.src, .src, .unused, none, .value, 0x0111, 0x1, false, 1⟩
  | .addc _ => some ⟨.src, .src, .src, none, .value, 0x0001, 0x3, false, 1⟩
  | .subb _ => some ⟨.src, .src, .src, none, .value, 0x0001, 0x3, false, 1⟩
  | .addSatS _ => some ⟨.src, .src, .unused, none, .value, 0x0111, 0x1, false, 1⟩
  | .addSatZ _ => some ⟨.src, .src, .unused, none, .value, 0x0111, 0x1, false, 1⟩
  | .subSatS _ => some ⟨.src, .src, .unused, none, .value, 0x0111, 0x1, false, 1⟩
  | .subSatZ _ => some ⟨.src, .src, .unused, none, .value, 0x0111, 0x1, false, 1⟩
  | .mulLo _ => some ⟨.src, .src, .unused, none, .value, 0x0111, 0x1, false, 3⟩
  | .mulHiS _ => some ⟨.src, .src, .unused, none, .value, 0x0001, 0x1, false, 3⟩
  | .mulHiZ _ => some ⟨.src, .src, .unused, none, .value, 0x0001, 0x1, false, 3⟩
  | .mad _ => some ⟨.src, .src, .src, none, .value, 0x0001, 0x1, false, 3⟩
  | .abs _ => some ⟨.src, .unused, .unused, none, .value, 0x0111, 0x1, false, 1⟩
  | .neg _ => some ⟨.src, .unused, .unused, none, .value, 0x0111, 0x1, false, 1⟩
  | .addsh _ => some ⟨.src, .src, .unused, some 0x07, .value, 0x0001, 0x1, false, 1⟩
  | .minS _ => some ⟨.src, .src, .unused, none, .value, 0x0111, 0x1, false, 1⟩
  | .minZ _ => some ⟨.src, .src, .unused, none, .value, 0x0111, 0x1, false, 1⟩
  | .maxS _ => some ⟨.src, .src, .unused, none, .value, 0x0111, 0x1, false, 1⟩
  | .maxZ _ => some ⟨.src, .src, .unused, none, .value, 0x0111, 0x1, false, 1⟩
  | .and _ => some ⟨.src, .src, .unused, none, .value, 0x0001, 0x1, false, 1⟩
  | .or _ => some ⟨.src, .src, .unused, none, .value, 0x0001, 0x1, false, 1⟩
  | .xor _ => some ⟨.src, .src, .unused, none, .value, 0x0001, 0x1, false, 1⟩
  | .andn _ => some ⟨.src, .src, .unused, none, .value, 0x0001, 0x1, false, 1⟩
  | .shl _ => some ⟨.src, .src, .unused, none, .value, 0x0111, 0x1, false, 1⟩
  | .shrZ _ => some ⟨.src, .src, .unused, none, .value, 0x0111, 0x1, false, 1⟩
  | .shrS _ => some ⟨.src, .src, .unused, none, .value, 0x0111, 0x1, false, 1⟩
  | .rot _ => some ⟨.src, .src, .unused, none, .value, 0x0001, 0x1, false, 1⟩
  | .funnel _ => some ⟨.src, .src, .src, none, .value, 0x0001, 0x1, false, 1⟩
  | .clz _ => some ⟨.src, .unused, .unused, none, .value, 0x0001, 0x1, false, 1⟩
  | .popc _ => some ⟨.src, .unused, .unused, none, .value, 0x0001, 0x1, false, 1⟩
  | .brev _ => some ⟨.src, .unused, .unused, none, .value, 0x0001, 0x1, false, 1⟩
  | .bswap _ => some ⟨.src, .unused, .unused, none, .value, 0x0001, 0x1, false, 1⟩
  | .bfxS _ => some ⟨.src, .src, .unused, none, .value, 0x0001, 0x1, false, 1⟩
  | .bfxZ _ => some ⟨.src, .src, .unused, none, .value, 0x0001, 0x1, false, 1⟩
  | .bfi _ => some ⟨.src, .src, .src, none, .value, 0x0001, 0x1, false, 1⟩
  | .clmulLo _ => some ⟨.src, .src, .unused, none, .value, 0x0001, 0x1, false, 2⟩
  | .clmulHi _ => some ⟨.src, .src, .unused, none, .value, 0x0001, 0x1, false, 2⟩
  | .dot4S8 _ => some ⟨.src, .src, .src, none, .value, 0x0001, 0x1, false, 3⟩
  | .dot2S16 _ => some ⟨.src, .src, .src, none, .value, 0x0001, 0x1, false, 3⟩
  | .cmpEq _ => some ⟨.src, .src, .unused, none, .pred, 0x0001, 0x1, false, 1⟩
  | .cmpNe _ => some ⟨.src, .src, .unused, none, .pred, 0x0001, 0x1, false, 1⟩
  | .cmpLtS _ => some ⟨.src, .src, .unused, none, .pred, 0x0001, 0x1, false, 1⟩
  | .cmpLtZ _ => some ⟨.src, .src, .unused, none, .pred, 0x0001, 0x1, false, 1⟩
  | .cmpLeS _ => some ⟨.src, .src, .unused, none, .pred, 0x0001, 0x1, false, 1⟩
  | .cmpLeZ _ => some ⟨.src, .src, .unused, none, .pred, 0x0001, 0x1, false, 1⟩
  | .sel _ => some ⟨.src, .src, .src, none, .value, 0x0001, 0x1, false, 1⟩
  | .mov _ => some ⟨.src, .unused, .unused, none, .value, 0x0001, 0x1, false, 1⟩
  | .li _ => some ⟨.unused, .unused, .unused, none, .value, 0x0001, 0x1, false, 1⟩
  | .hi16 _ => some ⟨.unused, .unused, .unused, none, .value, 0x0001, 0x1, false, 1⟩
  | .fadd _ => some ⟨.src, .src, .unused, none, .value, 0x001F, 0x1, true, 3⟩
  | .fsub _ => some ⟨.src, .src, .unused, none, .value, 0x001F, 0x1, true, 3⟩
  | .fmul _ => some ⟨.src, .src, .unused, none, .value, 0x001F, 0x1, true, 3⟩
  | .fma _ => some ⟨.src, .src, .src, none, .value, 0x001F, 0x1, true, 4⟩
  | .fnma _ => some ⟨.src, .src, .src, none, .value, 0x001F, 0x1, true, 4⟩
  | .fmin _ => some ⟨.src, .src, .unused, none, .value, 0x0001, 0x1, true, 2⟩
  | .fmax _ => some ⟨.src, .src, .unused, none, .value, 0x0001, 0x1, true, 2⟩
  | .fabs _ => some ⟨.src, .unused, .unused, none, .value, 0x0001, 0x1, true, 1⟩
  | .fneg _ => some ⟨.src, .unused, .unused, none, .value, 0x0001, 0x1, true, 1⟩
  | .fcmpEq _ => some ⟨.src, .src, .unused, none, .pred, 0x0001, 0x1, true, 2⟩
  | .fcmpLt _ => some ⟨.src, .src, .unused, none, .pred, 0x0001, 0x1, true, 2⟩
  | .fcmpLe _ => some ⟨.src, .src, .unused, none, .pred, 0x0001, 0x1, true, 2⟩
  | .fcmpUn _ => some ⟨.src, .src, .unused, none, .pred, 0x0001, 0x1, true, 2⟩
  | .fclass _ => some ⟨.src, .unused, .unused, none, .value, 0x0001, 0x1, true, 1⟩
  | .fscale _ => some ⟨.src, .src, .unused, none, .value, 0x001F, 0x1, true, 2⟩
  | .famax _ => some ⟨.src, .src, .unused, none, .value, 0x0001, 0x1, true, 2⟩
  | .frcp _ => some ⟨.src, .unused, .unused, none, .value, 0x0001, 0x1, true, 6⟩
  | .frsq _ => some ⟨.src, .unused, .unused, none, .value, 0x0001, 0x1, true, 6⟩
  | .fexp2 _ => some ⟨.src, .unused, .unused, none, .value, 0x0001, 0x1, true, 6⟩
  | .flog2 _ => some ⟨.src, .unused, .unused, none, .value, 0x0001, 0x1, true, 6⟩
  | .fdot2Bf16 _ => some ⟨.src, .src, .src, none, .value, 0x001F, 0x1, true, 4⟩
  | .fdot4E4m3 _ => some ⟨.src, .src, .src, none, .value, 0x001F, 0x1, true, 4⟩
  | .fdot4E5m2 _ => some ⟨.src, .src, .src, none, .value, 0x001F, 0x1, true, 4⟩
  | .mxsc _ => some ⟨.src, .unused, .unused, some 0x03, .value, 0x0001, 0x1, true, 2⟩
  | .qnt _ => some ⟨.src, .src, .unused, some 0x07, .value, 0x1F1F, 0x1, true, 3⟩
  | .cvtF32S32 _ => some ⟨.src, .unused, .unused, none, .value, 0x001F, 0x1, true, 2⟩
  | .cvtS32F32 _ => some ⟨.src, .unused, .unused, none, .value, 0x1F1F, 0x1, true, 2⟩
  | .cvtF32Z32 _ => some ⟨.src, .unused, .unused, none, .value, 0x001F, 0x1, true, 2⟩
  | .cvtZ32F32 _ => some ⟨.src, .unused, .unused, none, .value, 0x1F1F, 0x1, true, 2⟩
  | .cvtBf16F32 _ => some ⟨.src, .unused, .unused, none, .value, 0x1F1F, 0x1, true, 2⟩
  | .cvtF16F32 _ => some ⟨.src, .unused, .unused, none, .value, 0x1F1F, 0x1, true, 2⟩
  | .cvtF32Bf16 _ => some ⟨.src, .unused, .unused, none, .value, 0x0001, 0x1, true, 2⟩
  | .cvtF32F16 _ => some ⟨.src, .unused, .unused, none, .value, 0x0001, 0x1, true, 2⟩
  | .cvtE4m3F32 _ => some ⟨.src, .unused, .unused, none, .value, 0x1F1F, 0x1, true, 2⟩
  | .cvtE5m2F32 _ => some ⟨.src, .unused, .unused, none, .value, 0x1F1F, 0x1, true, 2⟩
  | .cvtE2m1F32 _ => some ⟨.src, .unused, .unused, none, .value, 0x1F1F, 0x1, true, 2⟩
  | .cvtF32E4m3 _ => some ⟨.src, .unused, .unused, none, .value, 0x0001, 0x1, true, 2⟩
  | .cvtF32E5m2 _ => some ⟨.src, .unused, .unused, none, .value, 0x0001, 0x1, true, 2⟩
  | .cvtF32E2m1 _ => some ⟨.src, .unused, .unused, none, .value, 0x0001, 0x1, true, 2⟩
  | .packX2 _ => some ⟨.src, .src, .unused, some 0x0F, .value, 0x1F1F, 0x1, true, 2⟩
  | .packX4 _ => some ⟨.src, .src, .unused, some 0x0F, .value, 0x1F1F, 0x1, true, 2⟩
  | .unpackX2 _ => some ⟨.src, .unused, .unused, some 0x3F, .value, 0x0001, 0x1, true, 2⟩
  | .unpackX4 _ => some ⟨.src, .unused, .unused, some 0x3F, .value, 0x0001, 0x1, true, 2⟩
  | .out _ => some ⟨.src, .unused, .unused, none, .none, 0x000F, 0x1, false, 1⟩
  | .pass _ => some ⟨.queue, .unused, .unused, none, .noOut, 0x000F, 0x1, false, 1⟩
  | .pop _ => some ⟨.unused, .unused, .unused, some 0x0F, .none, 0x0001, 0x1, false, 1⟩
  | .peek _ => some ⟨.peek, .unused, .unused, none, .value, 0x000F, 0x1, false, 1⟩
  | .mark _ => some ⟨.unused, .unused, .unused, none, .none, 0x000E, 0x1, false, 1⟩
  | .ismark _ => some ⟨.queue, .unused, .unused, none, .pred, 0x000F, 0x1, false, 1⟩
  | .ordmk _ => some ⟨.src, .unused, .unused, some 0x07, .none, 0x000F, 0x1, false, 1⟩
  | .rankrd _ => some ⟨.queue, .unused, .unused, none, .value, 0x0001, 0x1, false, 1⟩
  | .pand _ => some ⟨.pred, .pred, .unused, none, .pred, 0x0001, 0x1, false, 1⟩
  | .por _ => some ⟨.pred, .pred, .unused, none, .pred, 0x0001, 0x1, false, 1⟩
  | .pxor _ => some ⟨.pred, .pred, .unused, none, .pred, 0x0001, 0x1, false, 1⟩
  | .pnot _ => some ⟨.pred, .unused, .unused, none, .pred, 0x0001, 0x1, false, 1⟩
  | .pset _ => some ⟨.src, .unused, .unused, none, .pred, 0x0001, 0x1, false, 1⟩
  | .psend _ => some ⟨.pred, .unused, .unused, none, .none, 0x0001, 0x1, false, 1⟩
  | .precv _ => some ⟨.unused, .unused, .unused, some 0x03, .pred, 0x0001, 0x1, false, 1⟩
  | .ptest _ => some ⟨.src, .unused, .unused, some 0x1F, .pred, 0x0001, 0x1, false, 1⟩
  | .exit _ => some ⟨.unused, .unused, .unused, none, .none, 0x0001, 0x1, false, 1⟩
  | .iter _ => some ⟨.unused, .unused, .unused, none, .pred, 0x000F, 0x1, false, 1⟩
  | .live _ => some ⟨.unused, .unused, .unused, none, .pred, 0x0001, 0x1, false, 1⟩
  | .drop _ => some ⟨.unused, .unused, .unused, none, .none, 0x0001, 0x1, false, 1⟩
  | .chsend _ => some ⟨.src, .unused, .unused, some 0x3F, .none, 0x000F, 0x1, false, 1⟩
  | .chrecv _ => some ⟨.unused, .unused, .unused, some 0x0F, .value, 0x0001, 0x1, false, 1⟩
  | .tkalnc _ => some ⟨.src, .src, .unused, none, .none, 0x0001, 0x1, false, 1⟩
  | .ldB _ => some ⟨.node, .node, .unused, some 0x03, .mval, 0x00FF, 0x1, false, 1⟩
  | .ldH _ => some ⟨.node, .node, .unused, some 0x03, .mval, 0x00FF, 0x1, false, 1⟩
  | .ldW _ => some ⟨.node, .node, .unused, some 0x03, .mval, 0x000F, 0x1, false, 1⟩
  | .ldAcq _ => some ⟨.node, .node, .unused, some 0x7F, .mval, 0x0F0F, 0x1, false, 1⟩
  | .ldf _ => some ⟨.node, .node, .unused, some 0x0F, .mval, 0x000F, 0x1, false, 1⟩
  | .stB _ => some ⟨.node, .node, .node, none, .none, 0x000F, 0x1, false, 1⟩
  | .stH _ => some ⟨.node, .node, .node, none, .none, 0x000F, 0x1, false, 1⟩
  | .stW _ => some ⟨.node, .node, .node, none, .none, 0x000F, 0x1, false, 1⟩
  | .stRel _ => some ⟨.node, .node, .node, none, .none, 0x3F3F, 0xF, false, 1⟩
  | .stf _ => some ⟨.node, .node, .node, none, .none, 0xFFFF, 0x1, false, 1⟩
  | .atomH _ => some ⟨.node, .node, .node, none, .mval, 0x06FF, 0xF, false, 1⟩
  | .atomW _ => some ⟨.node, .node, .node, none, .mval, 0x06FF, 0xF, false, 1⟩
  | .lkup _ => some ⟨.node, .node, .unused, some 0x1F, .mval, 0x000F, 0x1, false, 1⟩
  | .handoverGive _ => some ⟨.unused, .unused, .unused, some 0x07, .give, 0x0001, 0x1, false, 1⟩
  | .handoverTake _ => some ⟨.take, .unused, .unused, some 0x07, .none, 0x0002, 0x1, false, 1⟩
  | .mfence _ => some ⟨.unused, .unused, .unused, none, .none, 0x003F, 0x1, false, 1⟩
  | .atomfW _ => some ⟨.node, .node, .node, none, .mval, 0x06FF, 0xF, false, 1⟩
  | _ => none

/-- The C2 fields of a context word that has them. -/
def Instr.c2 : Instr → Option C2
  | .add w => some w
  | .sub w => some w
  | .addSatS w => some w
  | .addSatZ w => some w
  | .subSatS w => some w
  | .subSatZ w => some w
  | .mulLo w => some w
  | .mulHiS w => some w
  | .mulHiZ w => some w
  | .abs w => some w
  | .neg w => some w
  | .addsh w => some w
  | .minS w => some w
  | .minZ w => some w
  | .maxS w => some w
  | .maxZ w => some w
  | .and w => some w
  | .or w => some w
  | .xor w => some w
  | .andn w => some w
  | .shl w => some w
  | .shrZ w => some w
  | .shrS w => some w
  | .rot w => some w
  | .clz w => some w
  | .popc w => some w
  | .brev w => some w
  | .bswap w => some w
  | .bfxS w => some w
  | .bfxZ w => some w
  | .clmulLo w => some w
  | .clmulHi w => some w
  | .cmpEq w => some w
  | .cmpNe w => some w
  | .cmpLtS w => some w
  | .cmpLtZ w => some w
  | .cmpLeS w => some w
  | .cmpLeZ w => some w
  | .mov w => some w
  | .fadd w => some w
  | .fsub w => some w
  | .fmul w => some w
  | .fmin w => some w
  | .fmax w => some w
  | .fabs w => some w
  | .fneg w => some w
  | .fcmpEq w => some w
  | .fcmpLt w => some w
  | .fcmpLe w => some w
  | .fcmpUn w => some w
  | .fclass w => some w
  | .fscale w => some w
  | .famax w => some w
  | .frcp w => some w
  | .frsq w => some w
  | .fexp2 w => some w
  | .flog2 w => some w
  | .mxsc w => some w
  | .qnt w => some w
  | .cvtF32S32 w => some w
  | .cvtS32F32 w => some w
  | .cvtF32Z32 w => some w
  | .cvtZ32F32 w => some w
  | .cvtBf16F32 w => some w
  | .cvtF16F32 w => some w
  | .cvtF32Bf16 w => some w
  | .cvtF32F16 w => some w
  | .cvtE4m3F32 w => some w
  | .cvtE5m2F32 w => some w
  | .cvtE2m1F32 w => some w
  | .cvtF32E4m3 w => some w
  | .cvtF32E5m2 w => some w
  | .cvtF32E2m1 w => some w
  | .packX2 w => some w
  | .packX4 w => some w
  | .unpackX2 w => some w
  | .unpackX4 w => some w
  | .out w => some w
  | .pass w => some w
  | .pop w => some w
  | .peek w => some w
  | .mark w => some w
  | .ismark w => some w
  | .ordmk w => some w
  | .rankrd w => some w
  | .pand w => some w
  | .por w => some w
  | .pxor w => some w
  | .pnot w => some w
  | .pset w => some w
  | .psend w => some w
  | .precv w => some w
  | .ptest w => some w
  | .exit w => some w
  | .iter w => some w
  | .live w => some w
  | .drop w => some w
  | .chsend w => some w
  | .chrecv w => some w
  | .tkalnc w => some w
  | .ldB w => some w
  | .ldH w => some w
  | .ldW w => some w
  | .ldAcq w => some w
  | .ldf w => some w
  | .lkup w => some w
  | .handoverGive w => some w
  | .handoverTake w => some w
  | .mfence w => some w
  | _ => none

/-- The C3 fields of a context word that has them. -/
def Instr.c3 : Instr → Option C3
  | .addc w => some w
  | .subb w => some w
  | .mad w => some w
  | .funnel w => some w
  | .bfi w => some w
  | .dot4S8 w => some w
  | .dot2S16 w => some w
  | .sel w => some w
  | .fma w => some w
  | .fnma w => some w
  | .fdot2Bf16 w => some w
  | .fdot4E4m3 w => some w
  | .fdot4E5m2 w => some w
  | .stB w => some w
  | .stH w => some w
  | .stW w => some w
  | .stRel w => some w
  | .stf w => some w
  | .atomH w => some w
  | .atomW w => some w
  | .atomfW w => some w
  | _ => none

/-- The M fields of a context word that has them. -/
def Instr.mx : Instr → Option Mx
  | .mxcfg w => some w
  | .mxldb w => some w
  | .mxrow w => some w
  | .mxrows w => some w
  | .mxdrn w => some w
  | .mxclr w => some w
  | .mxswb w => some w
  | .mxacc w => some w
  | .mxstat w => some w
  | .mxnop w => some w
  | _ => none

/-- Whether a source selector is one the field may hold (R33, R133, R139, R145, R154). A field that the opcode does not use
holds no reserved selector either (R78, R104, R134, R322); that R39 says so of a memory-node word too is DEDUCED, log 70. The
codes 0x04 and 0x05 are of the selectors that an opcode uses (log 70). -/
def SelKind.accepts (k : SelKind) (v : BitVec 6) : Bool :=
  match k with
  | .unused => v.toNat ≤ 0x31
  | .src => v.toNat ≤ 0x31
  | .queue => 0x10 ≤ v.toNat && v.toNat ≤ 0x17
  | .peek => 0x14 ≤ v.toNat && v.toNat ≤ 0x17
  | .pred => v.toNat ≤ 0x0F
  | .node => (0x10 ≤ v.toNat && v.toNat ≤ 0x17) || v.toNat == 0x1C || v.toNat == 0x1F || (0x20 ≤ v.toNat && v.toNat ≤ 0x31)
  | .take => 0x10 ≤ v.toNat && v.toNat ≤ 0x13

/-- Whether a selector names IMM8 (0x1D or 0x1E, R33). -/
def namesImm (v : BitVec 6) : Bool := v == 0x1D#6 || v == 0x1E#6

/-- Whether a field that the opcode reads as a selector of R33 names IMM8. -/
def SelKind.immSel (k : SelKind) (v : BitVec 6) : Bool := k == .src && namesImm v

/-- The fault codes of the fields that C2 and C3 words share (R39). -/
def commonFaults (sh : Shape) (grd : BitVec 4) (sa sb : BitVec 6) (dq : BitVec 4) (wq out : Bool) (fpm : BitVec 3)
    (mod : BitVec 4) : List Nat :=
  (if sh.a.accepts sa && sh.b.accepts sb then [] else [0x03]) ++
  (if grd = 0xF#4 then [0x06] else []) ++
  (let bad := match sh.dest with
    | .value => false
    | .noOut => out
    | .pred => dq.toNat ≥ 7 || wq || out
    | .mval => dq.toNat ≥ 4 || wq
    | .give => dq.toNat ≥ 4 || wq || !out
    | .none => dq != 0#4 || wq || out
   if bad then [0x07] else []) ++
  (if sh.mods.testBit mod.toNat then [] else [0x08]) ++
  (if (sh.a == .unused && sa != 0#6) || (sh.b == .unused && sb != 0#6) || (!sh.fpm && fpm != 0#3) then [0x0B] else [])

/-- The format codes that an opcode with a format accepts (R97, R103, R104), with the lanes of each. -/
def formatFault (i : Instr) (imm : BitVec 8) : Bool :=
  let code := bits imm.toNat 2 0
  let lane := bits imm.toNat 5 3
  let raw := bit imm.toNat 3
  match i with
  | .mxsc _ => bits imm.toNat 1 0 > 2
  | .qnt _ => code > 4
  | .packX2 w => (code != 5 && code != 6) || (raw && w.mod != 0#4)
  | .packX4 w => code > 4 || (raw && w.mod != 0#4)
  | .unpackX2 _ => (code != 5 && code != 6) || lane > 1
  | .unpackX4 _ => code > 4 || (code != 2 && code != 4 && lane > 3)
  | .pop _ => bits imm.toNat 3 0 == 0
  | .ordmk _ => code > 5
  | .chsend _ => !bit imm.toNat 4
  | .ldAcq w => bits imm.toNat 6 4 > 5 || (!w.mod.getLsbD 3 && bits imm.toNat 3 2 != 0)
  | .lkup _ => bits imm.toNat 4 0 > 16
  | _ => false

/-- The faults of a C2 word (R39). An opcode with IMM8 control takes neither 0x1D nor 0x1E in any source field (R104,
R322; of R134's words DEDUCED, log 70). -/
def C2.faults (i : Instr) (sh : Shape) (w : C2) : List Nat :=
  let immUse := sh.a.immSel w.sa || sh.b.immSel w.sb
  let cUse := (sh.a == .src && w.sa == 0x1E#6) || (sh.b == .src && w.sb == 0x1E#6)
  commonFaults sh w.grd w.sa w.sb w.dq w.wq w.out w.fpm w.mod ++
  (if sh.imm.isSome && (namesImm w.sa || namesImm w.sb) then [0x03] else []) ++
  (if cUse && w.imm8.toNat ≥ 64 then [0x05] else []) ++
  (if formatFault i w.imm8 then [0x08] else []) ++
  (match sh.imm with
   | some m => if w.imm8 &&& ~~~m = 0 then [] else [0x0B]
   | none => if immUse || w.imm8 = 0 then [] else [0x0B])

/-- Whether a C3 word's third source is one its sub-operation does not use: only CAS compares (R154). -/
def casUnused (i : Instr) : Bool :=
  match i with
  | .atomH w => bits w.mod.toNat 2 0 != 7
  | .atomW w => bits w.mod.toNat 2 0 != 7
  | .atomfW w => bits w.mod.toNat 2 0 != 7
  | _ => false

/-- The faults of a C3 word (R39). -/
def C3.faults (i : Instr) (sh : Shape) (w : C3) : List Nat :=
  let c := if casUnused i then SelKind.unused else sh.c
  commonFaults sh w.grd w.sa w.sb w.dq w.wq w.out w.fpm w.mod ++
  (if c.accepts w.sc then [] else [0x03]) ++
  (if sh.a.immSel w.sa || sh.b.immSel w.sb || c.immSel w.sc then [0x04] else []) ++
  (if sh.modxs.testBit w.modx.toNat then [] else [0x08]) ++
  (match i with
   | .stRel v => if !v.mod.getLsbD 3 && v.modx != 0#2 then [0x08] else []
   | _ => []) ++
  (if c == .unused && w.sc != 0#6 then [0x0B] else [])

/-- The faults of an LI or HI16 word (R78, R89). -/
def Li.faults (hi : Bool) (w : Li) : List Nat :=
  (if w.grd = 0xF#4 then [0x06] else []) ++ (if w.mod = 0 then [] else [0x08]) ++
  (if w.fpm = 0 && (!hi || w.imm.extractLsb' 16 4 == 0#4) then [] else [0x0B])

/-- Whether an MFMT is dense, and whether it is sparse (R37). -/
def mfmtDense (f : BitVec 4) : Bool := f.toNat ≤ 4
def mfmtSparse (f : BitVec 4) : Bool := 8 ≤ f.toNat && f.toNat ≤ 12

/-- The bytes of the routing area of a format: 16 K (R184, R185). -/
def routingBytes (f : BitVec 4) : Nat :=
  match bits f.toNat 2 0 with
  | 0 => 1024
  | 1 => 1024
  | 2 => 2048
  | _ => 512

/-- Whether a row-tag source is one the opcode takes (R37, R192). -/
def tsrcOk (head : Bool) (t : BitVec 6) : Bool :=
  t.toNat ≤ 2 || (head && t.toNat == 3) || (0x20 ≤ t.toNat && t.toNat ≤ 0x2F)

/-- Whether an MFMT is a format of R37. -/
def mfmtOk (f : BitVec 4) : Bool := mfmtDense f || mfmtSparse f

/-- The faults of a format M word (R39, R192), where a reserved TSRC or MFMT is 0x08 in a field marked with a dash too:
`tag` says whether the opcode takes a row tag and `head` whether from the row's head;
`buf` whether it names a buffer; `fmt` gives the formats it takes and `sp` whether it takes a routing base. -/
def Mx.faults (w : Mx) (tag head buf : Bool) (fmt : Option (BitVec 4 → Bool)) (sp : Bool) : List Nat :=
  (if w.grd = 0xF#4 then [0x06] else []) ++
  (let bad := !tsrcOk true w.tsrc || !mfmtOk w.mfmt || (tag && !tsrcOk head w.tsrc) ||
      (match fmt with | some ok => !ok w.mfmt | none => false) ||
      (sp && mfmtSparse w.mfmt && w.spbase.toNat * 16 + routingBytes w.mfmt > 2048)
   if bad then [0x08] else []) ++
  (let bad := (!tag && (w.tsrc != 0#6 || w.accrow != 0#8)) || (!buf && w.bsel != 0#2) ||
      (fmt.isNone && w.mfmt != 0#4) || (!(sp && mfmtSparse w.mfmt) && w.spbase != 0#10) || w.low != 0#3
   if bad then [0x0B] else [])

/-- Every R39 code that a context word breaks by itself (not 0x01, 0x02, 0x09 and 0x0A, which are of its place). -/
def Instr.faults (i : Instr) : List Nat :=
  match i with
  | .nop => []
  | .li w => w.faults false
  | .hi16 w => w.faults true
  | .mxcfg w => w.faults false false false (some mfmtDense) false ++ (if w.bsel.toNat ≥ 2 then [0x08] else [])
  | .mxldb w => w.faults false false true (some mfmtOk) true
  | .mxrow w => w.faults true true true (some mfmtDense) false
  | .mxrows w => w.faults true true true (some mfmtSparse) true
  | .mxdrn w => w.faults true false false none false
  | .mxclr w => w.faults true false false none false
  | .mxswb w => w.faults false false true none false
  | .mxacc w => w.faults true false false none false
  | .mxstat w => w.faults false false false none false
  | .mxnop w => w.faults false false false none false
  | _ => match i.shape, i.c2, i.c3 with
    | some sh, some w, _ => C2.faults i sh w
    | some sh, none, some w => C3.faults i sh w
    | _, _, _ => []

/-- The ring kinds a context word's opcode is legal in (R41): 0 cell, 1 memory node, 2 matrix node. -/
def opRing (op : Nat) : Nat := if op < 0xA0 then 0 else if op < 0xC0 then 1 else 2

/-- The fields of a word with OP 0x00, which is a C2 word (R40) that uses none of them (R38). -/
def nopShape : Shape := ⟨.unused, .unused, .unused, none, .none, 0x0001, 0x1, false, 0⟩

/-- Every R39 code of a raw word in slot `slot` of a ring of a kind, in a page of initiation interval `ii`. -/
def rawFaults (kind slot ii : Nat) (w : BitVec 48) : List Nat :=
  if w = 0 then []
  else
    let op := (w.extractLsb' 40 8).toNat
    (if slot ≥ ii then [0x09] else []) ++
    (match decodeContext w with
     | .error .zeroOpWithBits => 0x0A :: C2.faults .nop nopShape (C2.of w)
     | .error _ => [0x01]
     | .ok i => (if opRing op = kind then [] else [0x02]) ++ i.faults)

/-- The lowest of a list of codes, which is the one recorded (R39). -/
def lowestCode (l : List Nat) : Option Nat := l.foldl (fun o c => some (match o with | some m => min m c | none => c)) none

end Sys2Proof
end

