-- ==== Sys2Proof/Machine/Fabric.lean ====
section
/-! DEFINITION. The cycle of a page: what freezes it (R21, R73, R74, R190), the period start and pass end of its loop unit (R131,
R132), landings (R69), departures (R125, R182), edges (R280), and the return of its units (R284). -/
namespace Sys2Proof.Machine

/-! ## Landing (R69, R122, R129, R152, R189) -/

/-- The liveness of a slot whose word's iteration is at a stage, or was live or dead when it left the loop unit (R129). -/
def Page.slotLive (p : Page) (its : Option Nat) (live : Bool) : Bool := match its with | some k => p.lm.getLsbD k | .none => live

/-- The release of an ordering token: the writes that the nodes of a page's regions issued before now, their buffers written
through (R159, R174). -/
def State.releaseNodes (s : State) (rids : List Nat) (scope : Nat) : Rel × State :=
  let (t, s) := s.stamp
  (⟨rids, t, scope⟩, rids.foldl (fun s r => s.setMn r (s.mn r).flush) s)

/-- Hops between two cells of a page (R124). -/
def Page.hops (p : Page) (sa ua sb ub : Nat) : Nat :=
  let xa := sa % p.w * 8 + ua % 8
  let ya := sa / p.w * 8 + ua / 8
  let xb := sb % p.w * 8 + ub % 8
  let yb := sb / p.w * 8 + ub / 8
  let d (a b : Nat) : Nat := (a - b) + (b - a)
  max 1 (d xa xb + d ya yb + d (xa / 8) (xb / 8) + d (ya / 8) (yb / 8))

/-- A predicate leaves on a cell's lane output (R126). -/
def State.sendLane (s : State) (rid u : Nat) (v : Bool) : State :=
  let pid := s.pageOf rid
  let p := s.page pid
  let sreg := s.sregOf rid
  (s.regionsOf pid).foldl (fun s r =>
    ((s.region r).laneRoutes.filter (fun e => e.2 == sreg * 4096 + u)).foldl (fun s e =>
      let c := s.cell r (e.1 / 4)
      s.setCell r (e.1 / 4) { c with lanes := c.lanes ++ [⟨e.1 % 4, p.hops sreg u (s.sregOf r) (e.1 / 4), v⟩] }) s) s

/-- A cell pushes a token at landing: the higher of its own rank and PR, which it takes (R122, R135). -/
def State.pushCell (s : State) (rid u : Nat) (data : W32) (rank : BitVec 2) (ord : Bool) (rel : Option Rel) : State :=
  let c := s.cell rid u
  let rk := if rank.ult c.pr then c.pr else rank
  s.setCell rid u { c with pr := 0, outq := c.outq.push (QTok.of ⟨data, rk, ord, false⟩ rel) }

/-- A value lands in ORES, and in its register if WQ (R69, R35). -/
def State.landValue (s : State) (rid u : Nat) (sl : Slot) : State :=
  let c := s.cell rid u
  let c := { c with ores := sl.value }
  s.setCell rid u (if sl.wq then { c with q := c.q.set (sl.dest % 16) sl.value (Nat.mod_lt _ (by decide)) } else c)

/-- One slot of a cell lands (R69, R76, R135, R137, R139, R323). EXIT and DROP have landed before (R129). -/
def State.landSlot (s : State) (rid u : Nat) (sl : Slot) : State :=
  let pid := s.pageOf rid
  let p := s.page pid
  let live := p.slotLive sl.its sl.live
  match sl.kind with
  | .value =>
    let s := s.landValue rid u sl
    if sl.out && live then s.pushCell rid u sl.value 0 false none else s
  | .pred => let c := s.cell rid u; s.setCell rid u { c with g := predSet c.g sl.dest (sl.value != 0) }
  | .push =>
    if !live then s
    else if sl.ord then let (r, s) := s.releaseNodes (s.regionsOf pid) sl.scope; s.pushCell rid u sl.value sl.rank true (some r)
    else s.pushCell rid u sl.value sl.rank false none
  | .valuePush =>
    let s := s.landValue rid u sl
    if live then s.pushCell rid u sl.value sl.rank sl.ord sl.rel else s
  | .mark => s
  | .psend => if live then s.sendLane rid u (sl.value != 0) else s
  | .exit => s
  | .drop => s
  | .chsend =>
    match live, s.chanAt pid (s.sregOf rid) sl.port true with
    | true, some (h, _) =>
      let (rel, s) : Option Rel × State := if sl.ord then let (r, s) := s.releaseNodes (s.regionsOf pid) sl.scope; (some r, s) else (none, s)
      s.chanPush p.run h (QTok.of ⟨sl.value, sl.rank, sl.ord, false⟩ rel)
    | _, _ => s

/-- The due slots of a cell land in issue order, MARKs before the pushes (R122). -/
def State.landCell (s : State) (rid u : Nat) : State :=
  let p := s.page (s.pageOf rid)
  let c := s.cell rid u
  let due := c.slots.filter (fun sl => sl.dist == 1)
  let pr := due.foldl (fun r sl => if sl.kind == .mark && p.slotLive sl.its sl.live && r.ult (sl.value.truncate 2) then sl.value.truncate 2 else r) c.pr
  let s := s.setCell rid u { c with pr := pr, slots := (c.slots.filter (fun sl => sl.dist != 1)).map (fun sl => { sl with dist := sl.dist - 1 }) }
  due.foldl (fun s sl => s.landSlot rid u sl) s

/-- A token enters an output queue of a memory node. -/
def MNode.pushMo (m : MNode) (n : Nat) (t : QTok) : MNode := { m with mo := qSet m.mo n ((qAt m.mo n).push t) }

/-- One slot of a memory node lands (R146, R157, R160, R165, R166). -/
def State.landNodeSlot (s : State) (rid : Nat) (sl : NodeSlot) : State :=
  let live := (s.page (s.pageOf rid)).slotLive sl.its sl.live
  match sl.kind with
  | .value =>
    let v := sl.value.getD 0
    let m := { s.mn rid with mores := v }
    let m := if sl.out && live then m.pushMo sl.dq (QTok.of ⟨v, 0, false, false⟩) else m
    s.setMn rid (if 3 ≤ sl.range then { m with acqStamp := s.seq + 1 } else m)
  | .strel => s
  | .mfence => s.setMn rid (if 3 ≤ sl.range then { s.mn rid with acqStamp := s.seq + 1 } else s.mn rid)
  | .give =>
    if live then
      let s := s.setMn rid (s.mn rid).flush
      s.setMn rid ((s.mn rid).pushMo sl.dq (QTok.of ⟨handoverData sl.range, 0, true, false⟩ (some ⟨[rid], sl.ident, 4⟩)))
    else s.setMn rid (setHeld (s.mn rid) sl.range true)

def State.landNode (s : State) (rid : Nat) : State :=
  let m := s.mn rid
  let due := m.slots.filter (fun sl => sl.dist == 1)
  let s := s.setMn rid { m with slots := (m.slots.filter (fun sl => sl.dist != 1)).map (fun sl => { sl with dist := sl.dist - 1 }) }
  due.foldl (fun s sl => s.landNodeSlot rid sl) { s with seq := s.seq + 1 }

def State.landMatrix (s : State) (rid : Nat) : State :=
  let p := s.page (s.pageOf rid)
  let n := s.xn rid
  let due := n.slots.filter (fun sl => sl.dist == 1)
  let n := { n with slots := (n.slots.filter (fun sl => sl.dist != 1)).map (fun sl => { sl with dist := sl.dist - 1 }) }
  let n := due.foldl (fun n sl => n.clearRead sl (p.slotLive sl.its sl.live)) n
  s.setXn rid (due.foldl (fun n sl => n.land sl (p.slotLive sl.its sl.live)) n)

/-- The earlier of two iterations of one pass, whose numbers wrap at 2³² (R131): no two that exist together are 8 apart. -/
def lowerIt (a b : Nat) : Nat := if (b + 2 ^ 32 - a) % 2 ^ 32 < 2 ^ 31 then a else b

/-- The arrivals on a page that come before its other events: lane values (R126), and the EXITs and DROPs that land, by the
liveness at the start of the cycle (R129, R140, R141). An EXIT of a pass that has ended on the cycle before lands on nothing: it has
no iteration in the pass that has begun, and R131, R132 and R140 give it no effect there (the model's choice, log 74). -/
def State.landLoop (s : State) (pid : Nat) : State :=
  let p := s.page pid
  (s.regionsOf pid).foldl (fun s rid => (List.range 64).foldl (fun s u =>
    let c := s.cell rid u
    let pl := c.lanes.foldl (fun pl l => if l.dist == 1 then pl.set (l.lane % 4) l.val (Nat.mod_lt _ (by decide)) else pl) c.pl
    let s := if c.lanes.isEmpty then s
      else s.setCell rid u { c with pl := pl, lanes := (c.lanes.filter (fun l => l.dist != 1)).map (fun l => { l with dist := l.dist - 1 }) }
    (c.slots.filter (fun sl => sl.dist == 1 && p.slotLive sl.its sl.live)).foldl (fun s sl =>
      match sl.kind, sl.its with
      | .exit, some k =>
        let q := s.page pid
        let it := p.iteration k
        let lowest := if q.exitF then lowerIt q.exitIt it else it
        s.setPage pid { q with exitF := true, exitIt := lowest, lm := (q.lm >>> k) <<< k }
      | .drop, some k => let q := s.page pid; s.setPage pid { q with lm := q.lm &&& ~~~(1#8 <<< k) }
      | _, _ => s) s) s) s

/-- RESULT_LANDING: of a page's loop unit and lanes, or of one unit. -/
def resultLanding (s : State) : State :=
  if s.focus.flag then s.landLoop s.focus.page
  else if s.focus.unit < 64 then s.landCell s.focus.region s.focus.unit
  else if s.focus.unit = 64 then s.landNode s.focus.region
  else s.landMatrix s.focus.region

def execResultLanding (s : State) : Ans := .next (resultLanding s)

/-! ## The loop unit (R131, R132) -/

/-- Change the iteration stage and last liveness of every slot of a page. -/
def State.mapIts (s : State) (pid : Nat) (f : Option Nat → Bool → Option Nat × Bool) : State :=
  (s.regionsOf pid).foldl (fun s rid =>
    let r := s.region rid
    let cells := r.cells.map (fun e => (e.1, { e.2 with slots := e.2.slots.map (fun sl => let (i, l) := f sl.its sl.live; { sl with its := i, live := l }) }))
    let mn := { r.mn with slots := r.mn.slots.map (fun sl => let (i, l) := f sl.its sl.live; { sl with its := i, live := l }) }
    let xn := { r.xn with slots := r.xn.slots.map (fun sl => let (i, l) := f sl.its sl.live; { sl with its := i, live := l }) }
    s.setRegion rid { r with cells := cells, mn := mn, xn := xn }) s

/-- The last iteration of the pass, once it is known (R132). -/
def Page.lastIt (p : Page) : Option Nat :=
  match p.trip, p.exitF with
  | 0, false => Option.none
  | 0, true => some p.exitIt
  | t, false => some (t - 1)
  | t, true => some (min (t - 1) p.exitIt)

/-- Whether the period whose masks the loop unit holds is the last of its pass (R132): the numbers of the iterations wrap only where
TRIP is 0 (R131). -/
def Page.passOver (p : Page) : Bool :=
  !p.retiring && p.sm != 0 && (match p.lastIt with
    | some l =>
      let now := p.nextIt + lowestSet p.sm
      if p.trip = 0 then now % 2 ^ 32 == (l + p.depth) % 2 ^ 32 else now == l + p.depth
    | .none => false)

/-- The iterations of a page end with their pass, or with the page's retirement: the results in flight keep the liveness that they have, as
the EXITs and DROPs that are in flight too, and land first, leave it (R129, R132, R141; log 98). -/
def State.settleIts (s : State) (pid : Nat) : State :=
  let p := (s.landLoop pid).page pid
  s.mapIts pid (fun i l => (none, p.slotLive i l))

/-- The tokens and rows in the input queues and ports of a region of a retiring page go (R284); one that enters such a queue later goes
with the end of its cycle (log 94). -/
def Region.discardInputs (r : Region) : Region :=
  { r with
    cells := r.cells.map (fun e => (e.1, { e.2 with ins := Vector.replicate 4 TokQ.none })), mn := { r.mn with mi := Vector.replicate 4 TokQ.none }
    xn := { r.xn with a0 := RowQ.none, a1 := RowQ.none, b := RowQ.none, c := TokQ.none }, inp := [] }

/-- A page begins to retire: it issues no more, tokens in its input queues and ports go, its read bindings end and its pending
bindings are removed (R221, R284). -/
def State.retirePage (s : State) (pid : Nat) : State :=
  let p := s.page pid
  -- results in flight still land with the liveness they have, and the nodes' buffers are written through (R129, R284)
  let s := s.settleIts pid
  let s := (s.regionsOf pid).foldl (fun s rid => s.setMn rid (s.mn rid).flush) s
  let s := s.setPage pid { p with retiring := true, level := 5, sm := 0, lm := 0 }
  (s.regionsOf pid).foldl (fun s rid =>
    let r := (s.region rid).discardInputs
    let s := s.setRegion rid { r with
      xn := { r.xn with ldb := { r.xn.ldb with busy := false, begun := false } }, se := r.se.map (fun k => { k with pend := none }) }
    [0, 2].foldl (fun s ch =>
      match (s.chan rid ch).cur with
      | some b => (s.setCur rid ch { b with stopping := true, replies := [] }).endBinding rid ch
      | none => s) s) s

/-- PASS_END (R132): buffers are written through, and the next pass or retirement follows. -/
def passEnd (s : State) : State :=
  let pid := s.focus.page
  let p := s.page pid
  if !p.passOver ∨ p.counter ≠ 0 then s
  else
    let s := s.settleIts pid
    let s := (s.regionsOf pid).foldl (fun s rid => s.setMn rid (s.mn rid).flush) s
    if p.passes ≠ 0 ∧ p.passIdx + 1 = p.passes then s.retirePage pid
    else s.setPage pid { p with passIdx := (p.passIdx + 1) % 2 ^ 32, exitF := false, exitIt := 0, nextIt := 0, sm := 0, lm := 0 }

def execPassEnd (s : State) : Ans := .next (passEnd s)

/-- PERIOD_START (R131), after a pass that an EXIT of its last cycle has ended (R143). -/
def periodStart (s : State) : State :=
  let pid := s.focus.page
  let s := passEnd s
  let p := s.page pid
  if p.retiring ∨ p.counter ≠ 0 then s
  else
    let s := s.mapIts pid (fun i l => match i with | some k => if k < 7 then (some (k + 1), l) else (none, p.lm.getLsbD k) | none => (none, l))
    let go := !p.exitF && (p.trip == 0 || decide (p.nextIt < p.trip))
    let b : BitVec 8 := if go then 1 else 0
    s.setPage pid { p with sm := (p.sm <<< 1) ||| b, lm := (p.lm <<< 1) ||| b, nextIt := if go then (p.nextIt + 1) % 2 ^ 32 else p.nextIt }

def execPeriodStart (s : State) : Ans := .next (periodStart s)

/-! ## What freezes a page (R21, R73) -/

/-- A blocked event: its unit, its cause in the order of R21, its queue or port, and for a channel word its channel and the kind of
timing fault (R348). -/
structure Block where
  rid : Nat
  unit : Nat
  why : Nat
  queue : Nat
  chan : Option Nat
  kind : Nat
  deriving DecidableEq, Repr

def Block.of (rid unit why queue : Nat) : Block := ⟨rid, unit, why, queue, none, 0⟩

/-- The state as the words that issue on this cycle see it: exits, period start and landings done (R127). -/
def State.seen (s : State) (pid : Nat) : State :=
  let s := s.landLoop pid
  let s := periodStart { s with focus := { s.focus with page := pid } }
  (s.regionsOf pid).foldl (fun s rid => ((List.range 64).foldl (fun s u => if (s.cell rid u).slots.isEmpty then s else s.landCell rid u) s).landNode rid |>.landMatrix rid) s

/-- Whether a region's last alignment is more than 16,384 cycles of page time ago (R308). -/
def State.farFromAlign (s : State) (pid : Nat) : Bool := decide ((s.page pid).lastAln + 16384 < (s.pageTime pid).toNat)

/-- What blocks a channel word at an end of a channel (R307, R308): `has` says that a token, or a credit, is there. -/
def State.chanBlock (s : State) (rid u h : Nat) (send has : Bool) : List Block :=
  let pid := s.pageOf rid
  let p := s.page pid
  let c := s.chanOf p.run h
  let st := chanActs (s.run p.run).elasticAll ((s.run p.run).why == .timing) (if send then c.sendSt else c.recvSt)
  let why := if send then 1 else 0
  let port := (if send then c.pport else c.cport) % 32
  if st ≤ 1 then (if send || !has then [⟨rid, u, why, port, some h, 0⟩] else [])
  else if st = 2 then
    if !has then [⟨rid, u, 6, port, some h, if send then 2 else 1⟩]
    else if s.farFromAlign pid then [⟨rid, u, 6, port, some h, 3⟩] else []
  else if has then [] else [⟨rid, u, why, port, some h, 0⟩]

/-- The queue selectors of a word's used sources. -/
def queueSels (i : Instr) : List (BitVec 6) :=
  match i.shape with
  | none => []
  | some sh =>
    let use (k : SelKind) (v : BitVec 6) : List (BitVec 6) :=
      if k != .unused && k != .pred && decide (0x10 ≤ v.toNat) && decide (v.toNat < 0x18) then [v] else []
    match i.c2, i.c3 with
    | some w, _ => use sh.a w.sa ++ use sh.b w.sb
    | none, some w => use sh.a w.sa ++ use sh.b w.sb ++ use sh.c w.sc
    | none, none => []

/-- What blocks the issue of a live cell word (R74, R136, R324, R325); `q` gives the tokens that may be popped of a queue. -/
def State.cellIssueBlocks (s : State) (rid u : Nat) (i : Instr) (stage : Nat) : List Block :=
  let c := s.cell rid u
  let avail (n : Nat) : Nat := (qAt c.ins n).avail
  let empty := ((queueSels i).filter (fun v => avail (v.toNat % 4) == 0)).map (fun v => Block.of rid u 0 (v.toNat % 4))
  match i with
  | .peek w => if avail (w.sa.toNat % 4) ≤ (w.mod.toNat % 4) then [Block.of rid u 0 (w.sa.toNat % 4)] else []
  | .pop w => ((List.range 4).filter (fun n => w.imm8.getLsbD n && avail n == 0)).map (fun n => Block.of rid u 0 n)
  | .chrecv w =>
    match s.chanAt (s.pageOf rid) (s.sregOf rid) (bits w.imm8.toNat 3 0) false with
    | some (h, ch) => s.chanBlock rid u h false (!ch.toks.isEmpty)
    | none => []
  | .tkalnc w =>
    let x : Issue := ⟨rid, u, s.pageOf rid, stage, true⟩
    let d := ((s.src x w.sa w.imm8 + s.src x w.sb w.imm8).toNat + 2 ^ 32 - (s.pageTime (s.pageOf rid)).toNat % 2 ^ 32) % 2 ^ 32
    empty ++ (if empty.isEmpty && decide (1 ≤ d) && decide (d ≤ 2 ^ 31) then [Block.of rid u 5 255] else [])
  | _ => empty

/-- The stage and guard of a context word. -/
def stageGuard (i : Instr) : Option (BitVec 3 × BitVec 4) :=
  match i.c2, i.c3, i.mx, i with
  | some w, _, _, _ => some (w.stg, w.grd)
  | none, some w, _, _ => some (w.stg, w.grd)
  | none, none, some w, _ => some (w.stg, w.grd)
  | _, _, _, .li w => some (w.stg, w.grd)
  | _, _, _, .hi16 w => some (w.stg, w.grd)
  | _, _, _, _ => none

/-- The instruction that a unit's ring holds at the page's counter. -/
def State.ringInstr (s : State) (rid u : Nat) : Option Instr :=
  match decodeContext ((s.region rid).words.get 0 (16 * u + (s.page (s.pageOf rid)).counter)) with
  | .ok i => some i
  | .error _ => none

/-- What blocks the issue of a unit's word, in the state that the word sees (R73, R127, R129). -/
def State.issueBlocks (s : State) (rid u : Nat) : List Block :=
  match s.ringInstr rid u with
  | none => []
  | some i =>
    match stageGuard i with
    | none => []
    | some (stg, grd) =>
      let p := s.page (s.pageOf rid)
      let g := (s.cell rid (if u < 64 then u else 0)).g
      if !(p.liveAt stg.toNat && guardVal g grd) then []
      else if u < 64 then s.cellIssueBlocks rid u i stg.toNat
      else if u = 64 then
        ((queueSels i).filter (fun v => (qAt (s.mn rid).mi (v.toNat % 4)).avail == 0)).map (fun v => Block.of rid u 0 (v.toNat % 4))
      else if (s.xn rid).blocked i then [Block.of rid u 4 255] else []

/-- What blocks the landings of a cell (R72, R74, R307): `p` is the page with the exits and drops of the cycle landed. -/
def State.cellLandBlocks (s : State) (p : Page) (rid u : Nat) : List Block :=
  let c := s.cell rid u
  let due := c.slots.filter (fun sl => sl.dist == 1 && p.slotLive sl.its sl.live)
  let pushes := (due.filter (fun sl => (sl.kind == .value && sl.out) || sl.kind == .push || sl.kind == .valuePush)).length
  (if 0 < pushes ∧ 4 < c.outq.used + pushes then [Block.of rid u 1 255] else []) ++
  (due.filter (fun sl => sl.kind == .chsend)).zipIdx.flatMap (fun e =>
    match s.chanAt (s.pageOf rid) (s.sregOf rid) e.1.port true with
    | some (h, ch) => s.chanBlock rid u h true (decide (e.2 < ch.credits))
    | none => [])

/-- What blocks the landings of a memory node (R150, R160, R166). -/
def State.nodeLandBlocks (s : State) (p : Page) (rid : Nat) : List Block :=
  let m := s.mn rid
  let due := m.slots.filter (fun sl => sl.dist == 1)
  let late := due.any (fun sl => match sl.kind with
    | .value => sl.value.isNone
    | .strel => sl.value.isNone
    | .mfence => p.slotLive sl.its sl.live && !s.writesDone rid sl.ident
    | .give => false)
  (if late then [Block.of rid 64 2 255] else []) ++
  (List.range 4).flatMap (fun n =>
    let k := (due.filter (fun sl => sl.out && sl.dq == n && p.slotLive sl.its sl.live)).length
    if 0 < k ∧ 4 < (qAt m.mo n).used + k then [Block.of rid 64 1 n] else [])

/-- What blocks the landings of a matrix node (R190). -/
def State.matrixLandBlocks (s : State) (p : Page) (rid : Nat) : List Block :=
  let n := s.xn rid
  let due := n.slots.filter (fun sl => sl.dist == 1 && p.slotLive sl.its sl.live)
  let k := (due.filter (fun sl => sl.kind == .drn)).length
  (if 0 < k ∧ !n.drainFree k then [Block.of rid 65 4 255] else []) ++
  (if due.any (fun sl => sl.kind == .stat) ∧ !n.s.room 4 then [Block.of rid 65 1 255] else [])

/-- Every event of a page that cannot take place on this cycle, but for the banks (R73). A landing takes the liveness that the
exits and drops of the cycle leave (R129), in the stages that its slot still names before the period start shifts both. -/
def State.pageBlocks (s : State) (pid : Nat) : List Block :=
  let v := s.seen pid
  let p := (s.landLoop pid).page pid
  (s.regionsOf pid).flatMap fun rid =>
    ((List.range 64).flatMap fun u => s.cellLandBlocks p rid u) ++ s.nodeLandBlocks p rid ++ s.matrixLandBlocks p rid ++
    (if (v.page pid).retiring then [] else (List.range 66).flatMap (fun u => v.issueBlocks rid u))

/-! ## Banks (R151) -/

/-- The requesters of a bank; `held` is an access that has waited at its bank, and freezes nothing (R174). -/
inductive Requester where
  | node (rid ident : Nat)
  | engine (rid chan : Nat)
  | held (rid ident : Nat)
  deriving DecidableEq, Repr

/-- A request for a bank with its priority, lowest first. -/
structure BankReq where
  bank : Nat
  prio : Nat
  who : Requester
  deriving DecidableEq, Repr

/-- How far a region is from a bank around the ring: 0 for the bank's own region. -/
def ringDistance (rid bank : Nat) : Nat := (rid % 16 + 16 - bank) % 16

/-- The matrix ports that a binding serves: the region of each node, and its port's rank in the order d, a0, a1, b (R183). -/
def State.engineNodes (s : State) (rid : Nat) (b : Binding) : List (Nat × Nat) :=
  let pid := s.pageOf rid
  let sreg := s.sregOf rid
  if b.port ≥ 16 then (match s.drainOf pid sreg (b.port - 16) with | some m => [(m, 0)] | none => [])
  else (s.rowDests pid sreg b.port).map (fun d => (d.1, d.2 - 275))

/-- The priority of a binding's access to a bank (R151, R183): that of its matrix port at the bank of the node's own region; else that
of its engine, the bindings of a region's own matrix node first where the access goes over the ring. Of the two channels of one engine
the read channel comes first (log 77). -/
def State.enginePrio (s : State) (rid ch bank : Nat) (b : Binding) : Nat :=
  let l := s.engineNodes rid b
  let d := ringDistance rid bank
  match l.find? (fun m => m.1 % 16 == bank) with
  | some m => m.2
  | none =>
    match l.find? (fun m => m.1 == rid) with
    | some m => 10000 * d + (if d = 0 then 2000 + ch else m.2)
    | none => 10000 * d + 2000 + ch

/-- Requests of a region's node for the banks of some of its near accesses. -/
def State.nearReqs (s : State) (rid : Nat) (who : Nat → Nat → Requester) (p : NearAcc → Bool) : List BankReq :=
  ((s.mn rid).near.filter p).zipIdx.map fun e => ⟨bankOf e.1.off, 10000 * ringDistance rid (bankOf e.1.off) + 1000 + e.2, who rid e.1.ident⟩

/-- The accesses of a region's node that reach a bank on this cycle if the page is not frozen, and those that have waited there and may
be performed. -/
def State.nodeReqs (s : State) (rid : Nat) : List BankReq :=
  s.nearReqs rid .node (fun a => a.st == .going 0 || (a.st == .waiting && s.nearReady rid a))

/-- The accesses of the node of a page that does not go on: those that have waited at their bank, and, of a captured page, its oldest
one that is open (R327). -/
def State.heldReqs (s : State) (rid : Nat) : List BankReq :=
  let first := ((s.mn rid).near.find? (fun a => a.st.open)).map (fun a => a.ident)
  s.nearReqs rid .held (fun a => if (s.page (s.pageOf rid)).captured then some a.ident == first else a.st == .waiting && s.nearReady rid a)

/-- The near address of the next element of a binding, if its next access is a near one. -/
def State.nextNear (s : State) (rid chan : Nat) (b : Binding) : Option Nat :=
  let n := if chanReads chan then b.cursor + b.replies.length else b.cursor - b.replies.length
  if b.shape.virt then none
  else match s.nextIndex rid b n with
    | some (.ok x, _, _) => some (b.shape.addr n x).toNat
    | _ => none

/-- The virtual address of the next element of a binding of virtual memory whose index is known, 0 where there is none. -/
def State.nextVirt (s : State) (rid chan : Nat) (b : Binding) : Nat :=
  let n := if chanReads chan then b.cursor + b.replies.length else b.cursor - b.replies.length
  match s.nextIndex rid b n with
  | some (.ok x, _, _) => (b.shape.addr n x).toNat
  | _ => 0

/-- Whether a write binding takes and writes its first element on the cycle of its start: one that lies in its port (R215). -/
def State.firstWrite (s : State) (rid : Nat) (b : Binding) : Bool :=
  s.canStart rid b && b.kind == .plain && b.replies.isEmpty && (s.drainOf (s.pageOf rid) (s.sregOf rid) (b.port - 16)).isNone &&
  s.takes rid { b with moving := true } && (s.outp rid (b.port - 16)).q.head?.isSome

/-- Whether a channel has an access to make now, its first included on the cycle of its start (R215); one of a captured page writes
what it has taken, and reads no more (R327). What a write binding has taken has reached it two cycles later (R182). -/
def State.wantsAccess (s : State) (rid chan : Nat) : Bool :=
  match (s.chan rid chan).cur with
  | some b => b.kind != .trigger && (b.moving || s.canStart rid b) && b.acqs.all s.relDone &&
      (if chanReads chan then { b with moving := true }.mayRead && !(s.page (s.pageOf rid)).captured
       else (match b.replies with | r :: _ => r.dist == 0 | [] => s.firstWrite rid b))
  | none => false

def State.engineReqs (s : State) (rid : Nat) : List BankReq :=
  (List.range 4).filterMap fun ch =>
    match (s.chan rid ch).cur with
    | some b =>
      if s.wantsAccess rid ch then
        (s.nextNear rid ch b).map (fun a => ⟨bankOf a, s.enginePrio rid ch (bankOf a) b, .engine rid ch⟩)
      else none
    | none => none

/-- Whether a request finds its word held by an atomic of the last cycle (R162). -/
def State.heldReq (s : State) (c : Nat) (q : BankReq) : Bool :=
  match q.who with
  | .node rid ident | .held rid ident => match (s.mn rid).near.find? (fun a => a.ident == ident) with | some a => s.wordHeld c a.off a.op.width | none => false
  | .engine rid ch => match (s.chan rid ch).cur with
    | some b => match s.nextNear rid ch b with | some a => s.wordHeld c a (s.esize (s.pageOf rid) (s.sregOf rid) b) | none => false
    | none => false

/-- The requests that their banks serve: of each bank the one first in priority among those whose words are not held. -/
def served (l : List BankReq) : List BankReq := l.filter (fun q => l.all (fun r => r.bank != q.bank || decide (q.prio ≤ r.prio)))

/-! ## Departures (R125, R182) -/

/-- Whether a destination of the route table has a free place, and a token put into it with a distance. -/
def State.destRoom (s : State) (rid idx : Nat) : Bool :=
  if idx < 256 then (qAt (s.cell rid (idx / 4)).ins idx).room 4
  else if idx < 272 then (s.outp rid (idx - 256)).q.room 4 && !(s.outp rid (idx - 256)).tack
  else if idx < 276 then (qAt (s.mn rid).mi (idx - 272)).room 4
  else if idx = 279 then (s.xn rid).c.room 128
  else false

def State.enterDest (s : State) (rid idx : Nat) (t : QTok) : State :=
  if idx < 256 then let c := s.cell rid (idx / 4); s.setCell rid (idx / 4) { c with ins := qSet c.ins idx ((qAt c.ins idx).push t) }
  else if idx < 272 then let o := s.outp rid (idx - 256); s.setOutp rid (idx - 256) { o with q := o.q.push t }
  else if idx < 276 then let m := s.mn rid; s.setMn rid { m with mi := qSet m.mi (idx - 272) ((qAt m.mi (idx - 272)).push t) }
  else let x := s.xn rid; s.setXn rid { x with c := x.c.push t }

/-- The queue of a source (R275), and the source with its queue replaced. -/
def State.sourceQ (s : State) (rid src : Nat) : TokQ :=
  if src < 0x40 then (s.cell rid src).outq
  else if src < 0x50 then (if (s.inp rid (src - 0x40)).tack then TokQ.none else (s.inp rid (src - 0x40)).q)
  else if src < 0x54 then qAt (s.mn rid).mo (src - 0x50)
  else (s.xn rid).s

def State.popSource (s : State) (rid src : Nat) : State :=
  if src < 0x40 then let c := s.cell rid src; s.setCell rid src { c with outq := c.outq.pop }
  else if src < 0x50 then let o := s.inp rid (src - 0x40); s.setInp rid (src - 0x40) { o with q := o.q.pop }
  else if src < 0x54 then let m := s.mn rid; s.setMn rid { m with mo := qSet m.mo (src - 0x50) (qAt m.mo (src - 0x50)).pop }
  else let x := s.xn rid; s.setXn rid { x with s := x.s.pop }

/-- Whether every branch of a source crosses the page boundary, so that its departures go on in frozen cycles (R73). -/
def State.crosses (s : State) (pid rid src : Nat) : Bool :=
  (decide (0x40 ≤ src) && decide (src < 0x50)) ||
  (s.destsOf pid (s.sregOf rid * 4096 + src)).all (fun d => decide (256 ≤ d.2) && decide (d.2 < 272))

/-- A source's head token can depart. -/
def State.canDepart (s : State) (pid rid src : Nat) : Bool :=
  let ds := s.destsOf pid (s.sregOf rid * 4096 + src)
  (s.sourceQ rid src).head?.isSome && !ds.isEmpty && ds.all (fun d => s.destRoom d.1 d.2)

/-- TOKEN_DEPARTURE: the head token of a source departs to every destination (R124, R125, R182). -/
def tokenDeparture (s : State) : State :=
  let rid := s.focus.region
  let src := s.focus.num
  let pid := s.pageOf rid
  let p := s.page pid
  match (s.sourceQ rid src).head? with
  | none => s
  | some t =>
    if !s.canDepart pid rid src then s
    else
      let ds := s.destsOf pid (s.sregOf rid * 4096 + src)
      let s := s.popSource rid src
      ds.foldl (fun s d =>
        let cellToCell := decide (src < 0x40) && decide (d.2 < 256)
        let port := (decide (0x40 ≤ src) && decide (src < 0x50)) || (decide (256 ≤ d.2) && decide (d.2 < 272))
        let h := if cellToCell then p.hops (s.sregOf rid) src (s.sregOf d.1) (d.2 / 4) else 2
        s.enterDest d.1 d.2 { t with dist := h, wall := port }) s

def execTokenDeparture (s : State) : Ans := .next (tokenDeparture s)

/-! ## Edges (R280) -/

def State.edge (s : State) (run e : Nat) : Edge := (s.run run).edges.get Edge.none e
def State.setEdge (s : State) (run e : Nat) (v : Edge) : State :=
  let r := s.run run
  s.setRun run { r with edges := r.edges.set e v }

/-- Space of the edge pools may serve the wave at the head of the queue (R277). -/
def State.tryPlace (s : State) (run : Nat) : State := s.addJob (.ev .placementAttempt { Focus.none with run := run })

/-- A buffer is freed (R280). -/
def State.freeEdge (s : State) (run e : Nat) : State :=
  let x := s.edge run e
  if x.freed then s
  else
    let k := s.cluster x.cluster
    let s := if x.carved then s.setCluster x.cluster { k with pool := k.pool.filter (fun b => b != (x.off, 8 * x.depth)) } else s
    (s.setEdge run e { x with freed := true, carved := false, count := 0, rels := [] }).tryPlace run

/-- Whether the head token of an output port can leave: to its edge, or to a binding that takes from the port. -/
def State.portLeaves (s : State) (pid rid n : Nat) : Bool :=
  match s.portConn pid (16 + n + 32 * s.sregOf rid) with
  | .edge e => let x := s.edge (s.page pid).run e; x.freed || (x.carved && decide (x.count < x.depth))
  | _ => [1, 3].any (fun ch => match (s.chan rid ch).cur with
    | some b => b.port == 16 + n && s.takes rid b && decide (b.replies.length < 64) &&
        (b.kind != .trigger || (match s.indexed (regionCluster rid) (bits b.target 15 8) with
          | some d => let q := (s.cluster d).tqs.get TrigQ.empty (bits b.target 3 0); decide (q.toks.length + q.reserved < 16)
          | none => false))
    | none => false)

/-- The ring of a source, and its queue. -/
def srcUnit (src : Nat) : Nat × Nat := if src < 0x40 then (src, 255) else if src < 0x54 then (64, src % 4) else (65, 255)

/-- What a retiring page still holds in output queues and output ports, on a cycle on which none of it departs: pushes to full
queues (R284); a port's entry names the ring that feeds the port (log 18). -/
def State.retireBlocks (s : State) (pid : Nat) : List Block :=
  let p := s.page pid
  if p.level ≠ 5 ∨ p.captured then []
  else
    let srcs := (s.regionsOf pid).flatMap (fun rid => ((List.range 64 ++ [0x50, 0x51, 0x52, 0x53, 0x55]).filter (fun k => !(s.sourceQ rid k).toks.isEmpty)).map (fun k => (rid, k)))
    let ports := (s.regionsOf pid).flatMap (fun rid => ((List.range 16).filter (fun n => !(s.outp rid n).q.toks.isEmpty)).map (fun n => (rid, n)))
    if srcs.any (fun e => s.canDepart pid e.1 e.2) || ports.any (fun e => (s.outp e.1 e.2).q.head?.isSome && s.portLeaves pid e.1 e.2) then []
    else srcs.map (fun e => let u := srcUnit e.2; Block.of e.1 u.1 1 u.2) ++
      ports.map (fun e => Block.of e.1 (srcUnit ((s.region e.1).routes.get 0 (256 + e.2) % 4096)).1 1 (16 + e.2))

/-- The physical address of the k-th place of a buffer. -/
def Edge.placeAddr (e : Edge) (k : Nat) : Nat := scratchAddr e.cluster (e.off + 8 * (k % e.depth))

/-- An edge takes the head token of its producer's port, once the buffer's bank has no other access on the cycle (R151), or discards it
where it has been freed. A port of a captured page sends
on what its tack follows, and then the tack (R340). -/
def edgeIn (run e : Nat) (s : State) : State :=
  let x := s.edge run e
  let pid := pidOf run x.ppage
  let p := s.page pid
  let rid := p.region (x.pport / 32)
  let o := s.outp rid (x.pport % 32 - 16)
  if 6 ≤ p.level ∨ ((p.level < 4 ∨ p.captured) ∧ !o.tack) then s
  else match o.q.head? with
    | none => if o.tack ∧ o.q.toks.isEmpty then (s.setOutp rid (x.pport % 32 - 16) { o with tack := false }).setEdge run e { x with tacked := true } else s
    | some t =>
      let bank := bankOf (x.off + 8 * ((x.head + x.count) % x.depth))
      let s' := s.setOutp rid (x.pport % 32 - 16) { o with q := o.q.pop }
      if x.freed then s'.setRun run { s'.run run with edrop := true }
      else if x.carved ∧ x.count < x.depth ∧ !s.shut x.cluster (x.off + 8 * ((x.head + x.count) % x.depth)) 8 then
        let s' := s'.useBanks x.cluster [bank]
        let s' := { s' with mem := memPut s'.mem (x.placeAddr (x.head + x.count)) (toBytes 8 t.tok.bits) }
        s'.setEdge run e { x with count := x.count + 1, rels := x.rels ++ [t.rel] }
      else s

/-- An edge delivers its head token to its consumer's port; a token of rank 3 frees it. A tack comes behind the last token. -/
def edgeOut (run e : Nat) (s : State) : State :=
  let x := s.edge run e
  let pid := pidOf run x.cpage
  let p := s.page pid
  let rid := p.region (x.cport / 32)
  let o := s.inp rid (x.cport % 32)
  if !s.takesIn pid then s
  else if x.count = 0 then
    (if x.tacked then (s.setEdge run e { x with tacked := false }).addJob (.ev .tackTokenArrival { Focus.none with page := pid, num := x.cport }) else s)
  else if !o.q.room 4 ∨ s.shut x.cluster (x.off + 8 * (x.head % x.depth)) 8 then s
  else
    let s := s.useBanks x.cluster [bankOf (x.off + 8 * (x.head % x.depth))]
    let t := Tok.ofBits (ofBytes (memBytes s.mem (x.placeAddr x.head) 8) % 2 ^ 36)
    let s := s.setInp rid (x.cport % 32) { o with q := o.q.push (QTok.of t ((x.rels.head?).getD none) 1 true) }
    let s := s.setEdge run e { x with head := (x.head + 1) % x.depth, count := x.count - 1, rels := x.rels.drop 1 }
    if t.rank = 3 then s.freeEdge run e else s

/-! ## Tacks (R121, R340) -/

/-- TACK_TOKEN_ARRIVAL: a tack that reaches a page input port is held there as a flag (R121, R333, R340). -/
def tackArrival (s : State) : State :=
  let pid := s.focus.page
  let code := s.focus.num
  let rid := (s.page pid).region (code / 32)
  let o := s.inp rid (code % 32)
  s.setInp rid (code % 32) { o with tack := true }

def execTackTokenArrival (s : State) : Ans := .next (tackArrival s)

/-! ## Returning units (R284) -/

/-- Whether a unit of a retiring page may be returned. -/
def State.unitEmpty (s : State) (rid u : Nat) : Bool :=
  if u < 64 then let c := s.cell rid u; c.slots.isEmpty && c.outq.toks.isEmpty
  else if u = 64 then let m := s.mn rid; m.slots.isEmpty && m.coal.isEmpty && m.near.all (fun a => !(a.op.writes && a.st.open)) && m.far.isEmpty
  else let x := s.xn rid; x.slots.isEmpty && x.drains.isEmpty

/-- A region that holds none of a page any more keeps the sequence numbers of its channels (R214) and what MXSTAT reads, which only
a page load or a start sets anew (R201). -/
def Region.release (r : Region) : Region :=
  { Region.free with
    se := r.se.map (fun k => { k with cur := none, pend := none })
    xn := { XNode.load with cfmt := r.xn.cfmt, active := r.xn.active, ldb := r.xn.ldb, discard := r.xn.discard, nan := r.xn.nan,
                            ovf := r.xn.ovf, unused := r.xn.unused } }

/-- The channel nodes of a run whose end pages have both retired or been freed are returned, with the tokens in them (R313). -/
def State.returnNodes (s : State) (run : Nat) : State :=
  let r := s.run run
  let gone (h : Nat) : Bool := decide (6 ≤ (s.page (pidOf run h)).level)
  (s.setRun run { r with chans := r.chans.map (fun (e : Nat × XChan) =>
    (e.1, if gone e.2.ppage && gone e.2.cpage && !e.2.freed then
        { e.2 with node := none, toks := [], flight := [], creditFlight := [], freed := true } else e.2)) }).refreshDetour

/-- A region is returned once its units are, its output ports are empty, and its write bindings have written what they took;
the last region of a page makes it retired (R23, R221, R284). -/
def State.returnRegion (s : State) (rid : Nat) : State :=
  let r := s.region rid
  let pid := s.pageOf rid
  let idle := [1, 3].all (fun ch => match (s.chan rid ch).cur with | some b => b.replies.isEmpty | none => true)
  if r.holder.isNone ∨ (s.page pid).level ≠ 5 ∨ r.returned.length < 66 ∨ !(r.outp.all (fun o => o.2.q.toks.isEmpty)) ∨ !(r.mn.mo.toList.all (fun q => q.toks.isEmpty)) ∨ !r.xn.s.toks.isEmpty ∨ !idle then s
  else
    let run := (s.page pid).run
    let s := (List.range 4).foldl (fun s ch => match (s.chan rid ch).cur with
      | some b => (s.setChan rid ch { s.chan rid ch with cur := some { b with stopping := true }, pend := none }).endBinding rid ch
      | none => s) s
    let s := s.setRegion rid (s.region rid).release
    let p := s.page pid
    let s := if p.regions.all (fun n => match (s.region n).holder with | some (q, _) => q != pid | none => true) then
        let s := s.setPage pid { p with level := if p.freeReq then 7 else 6 }
        let r := s.run run
        let s := s.setRun run { r with seams := (r.seams.filter (fun m => m.lead.1 != p.handle)).map (fun m => { m with followers := m.followers.filter (fun f => f.1 != p.handle) }) }
        (r.edges.filter (fun e => e.2.cpage == p.handle)).foldl (fun s e => s.freeEdge run e.1) (s.returnNodes run)
      else s
    s.tryPlace run

/-- UNIT_RETURN (R284). -/
def unitReturn (s : State) : State :=
  let rid := s.focus.region
  let u := s.focus.unit
  let r := s.region rid
  let p := s.page (s.pageOf rid)
  if p.level = 5 ∧ r.holder.isSome ∧ !p.captured ∧ s.unitEmpty rid u then
    let s := if r.returned.contains u then s else s.setRegion rid { r with returned := u :: r.returned }
    s.returnRegion rid
  else s

def execUnitReturn (s : State) : Ans := .next (unitReturn s)

/-! ## The end of a cycle -/

/-- A die cycle passes for the rows on their way to a channel's binding (R182). -/
def Chan.tick (k : Chan) : Chan :=
  { k with cur := k.cur.map (fun b => { b with replies := b.replies.map (fun r => { r with dist := r.dist - 1 }) }) }

/-- The queues of a region after a cycle. -/
def Region.tick (r : Region) (unfrozen : Bool) : Region :=
  let tq (v : Vector TokQ 4) : Vector TokQ 4 := v.map (fun q => q.tick unfrozen)
  { r with
    cells := r.cells.map (fun e =>
      let c := { e.2 with ins := tq e.2.ins, outq := e.2.outq.tick unfrozen }
      (e.1, if unfrozen then { c with ores2 := c.ores1, ores1 := c.ores } else c))
    mn := ({ r.mn with
      mi := tq r.mn.mi, mo := tq r.mn.mo
      near := if unfrozen then r.mn.near.map (fun a => match a.st with | .going n => { a with st := .going (n - 1) } | _ => a) else r.mn.near } : MNode).replies
    xn := { r.xn with a0 := r.xn.a0.tick, a1 := r.xn.a1.tick, b := r.xn.b.tick, c := r.xn.c.tick true, s := r.xn.s.tick true, drainFreed := 0 }
    se := r.se.map Chan.tick
    inp := r.inp.map (fun e => (e.1, { e.2 with q := e.2.q.tick unfrozen }))
    outp := r.outp.map (fun e => (e.1, { e.2 with q := e.2.q.tick unfrozen })) }

/-- The end of a page's cycle: the counter and the base advance on an unfrozen one (R66, R68), and a pass may end (R132). -/
def State.endCycle (s : State) (pid : Nat) (unfrozen : Bool) : State :=
  let p := s.page pid
  let s := (s.regionsOf pid).foldl (fun s rid =>
    let r := (s.region rid).tick unfrozen
    s.setRegion rid (if p.retiring then r.discardInputs else r)) s
  if !unfrozen then s.setPage pid { p with atCount := p.atCount + 1 }
  else
    let wrap := decide (p.ii ≤ p.counter + 1)
    let s := s.setPage pid { p with
      counter := if wrap then 0 else p.counter + 1
      base := if wrap then (p.base + 1) % 16 else p.base
      unfrozen := p.unfrozen + 1, atCount := 0, alnRun := [], frzTotal := 0 }
    if wrap ∧ (s.page pid).passOver then s.pushJobs [.ev .passEnd { Focus.none with page := pid }] else s

end Sys2Proof.Machine
end

