-- ==== Sys2Proof/Machine/Image.lean ====
section
/-! DEFINITION. Llynry images and page images (R59 to R64, R271 to R276, R293, R312): reading, checking, relocating, and loading a
region. -/
namespace Sys2Proof.Machine

/-! ## Llynry images (R59 to R64) -/

/-- A section entry (R60). -/
structure Sect where
  kind : Nat
  off : Nat
  size : Nat
  info : Nat
  deriving DecidableEq, Repr

/-- What a graph section gives (R271). -/
structure GraphData where
  digest : BitVec 512
  pages : List GPage
  edges : List Edge
  binds : List GBind
  ctls : List GCtl
  chans : List XChan
  reds : List GRed
  images : Tab (List Byte)
  templates : List (Nat × List Byte)
  deriving DecidableEq, Repr

def subBytes (b : List Byte) (off n : Nat) : List Byte := (b.drop off).take n
def patch (b : List Byte) (off : Nat) (d : List Byte) : List Byte := b.take off ++ d ++ b.drop (off + d.length)

/-- Entry i of the section table. -/
def sectAt (b : List Byte) (i : Nat) : Sect :=
  let o := fieldAt b 0x0C 4 + 32 * i
  ⟨fieldAt b (o + 4) 1, fieldAt b (o + 8) 4, fieldAt b (o + 0xC) 4, fieldAt b (o + 0x10) 4⟩

def sectsOf (b : List Byte) : List Sect := (List.range (fieldAt b 8 4)).map (sectAt b)

/-- Whether a table of the image lies outside its TOTAL bytes (R59, R64). That a section's bytes must lie inside too is the
model's choice (log 72). -/
def tableOutside (b : List Byte) : Bool :=
  let total := fieldAt b 0x2C 4
  decide (total < fieldAt b 0x0C 4 + 32 * fieldAt b 8 4) || decide (total < fieldAt b 0x14 4 + 16 * fieldAt b 0x10 4) ||
  decide (total < fieldAt b 0x1C 4 + 24 * fieldAt b 0x18 4) || decide (total < fieldAt b 0x20 4 + fieldAt b 0x24 4) ||
  (sectsOf b).any (fun e => decide (total < e.off + e.size))

/-- The checks of R64 that need the 64-byte header alone, with their codes of R293. -/
def headerCode (head : List Byte) : Option Nat :=
  if subBytes head 0 4 ≠ [0x4C, 0x59, 0x52, 0x1A] ∨ fieldAt head 4 2 ≠ 1 then some 0x20
  else if fieldAt head 0x2C 4 ≠ fieldAt head 0x28 4 + 1360 then some 0x21
  else none

/-- The other checks of R64 with their codes. Which code is recorded of an image that fails several is the model's choice: the
first of headerCode, then of this order (log 72); in SCRAP, where no image is loaded, the code is that of an unsigned one. -/
def State.imageCode (s : State) (tenant : Nat) (b : List Byte) : Option Nat :=
  let sig := fieldAt b 0x28 4
  let signer := fieldAt b (sig + 4) 4
  let digest := BitVec.ofNat 512 (fieldAt b (sig + 0x10) 64)
  if subBytes b sig 4 ≠ [0x53, 0x47, 0x4E, 0x1A] then some 0x20
  else if tableOutside b then some 0x21
  else if !(fieldAt b 6 2).testBit (match s.dev.part with | .a => 0 | .h => 1) then some 0x22
  else if shake256 (b.take sig) ≠ digest then some 0x23
  else if s.dev.lc = .scrap then some 0x25
  else if signer = 0xFFFFFFFF then (if s.dev.lc = .production then some 0x25 else none)
  else match (s.tenant tenant).signers.find? signer with
    | none => some 0x24
    | some k => if fieldAt b (sig + 8) 2 ≤ 1280 ∧ falconVerify k digest (subBytes b (sig + 0x50) (fieldAt b (sig + 8) 2)) then none else some 0x24

/-- Whether an offset of a kind-2 section is a page constant or a constant-table word of an image (R61, R272). -/
def constWord (off : Nat) : Bool := decide (0xC0 ≤ off % 8192) && decide (off % 8192 < 0x200) && off % 4 == 0

/-- Apply the relocations of types 1, 2 and 8 that fall in sections of the given kinds, in table order (R61, R293); `sym` gives
a symbol's address. One that names no section, no symbol or no place of its section is refused (log 72). -/
def relocate (kinds : List Nat) (sym : Nat → Option Nat) (b : List Byte) : Option (List Byte) :=
  let sects := sectsOf b
  (List.range (fieldAt b 0x10 4)).foldl (fun acc i =>
    match acc with
    | none => none
    | some img =>
      let o := fieldAt b 0x14 4 + 16 * i
      let ty := fieldAt b (o + 2) 2
      let at' := fieldAt b (o + 4) 4
      let n := if ty = 1 then 8 else 4
      match sects[fieldAt b o 2]? with
      | none => none
      | some e =>
        if ty < 1 ∨ 8 < ty then none
        else if !kinds.contains e.kind ∨ (ty ≠ 1 ∧ ty ≠ 2 ∧ ty ≠ 8) then some img
        else if e.size < at' + n ∨ fieldAt b 0x18 4 ≤ fieldAt b (o + 8) 4 ∨ (ty = 8 ∧ (e.kind ≠ 2 ∨ !constWord at')) then none
        else match sym (fieldAt b (o + 8) 4) with
          | none => none
          | some v =>
            let x : Int := v + signed (fieldAt b (o + 12) 4) 32
            if ty = 2 ∧ (x < 0 ∨ 2 ^ 32 ≤ x) then none
            else some (patch img (e.off + at') (toBytes n (x % 2 ^ (8 * n)).toNat))) (some b)

/-- A page entry of the graph section (R271). -/
def gpageAt (g : List Byte) (o : Nat) : GPage :=
  let sp := fieldAt g (o + 8) 1
  ⟨fieldAt g o 2, fieldAt g (o + 2) 1, fieldAt g (o + 3) 1, fieldAt g (o + 4) 4, bits sp 1 0 + 1, bits sp 3 2 + 1⟩

def gedgeAt (g : List Byte) (o : Nat) : Edge :=
  { Edge.none with
    ppage := fieldAt g o 2, pport := fieldAt g (o + 2) 2, cpage := fieldAt g (o + 4) 2, cport := fieldAt g (o + 6) 2
    depth := fieldAt g (o + 8) 4, freed := false }

def gbindAt (g : List Byte) (o : Nat) : GBind :=
  ⟨fieldAt g o 2, fieldAt g (o + 2) 2, fieldAt g (o + 4) 2, (fieldAt g (o + 6) 2).testBit 0, fieldAt g (o + 8) 8⟩

def gchanAt (g : List Byte) (o : Nat) : XChan :=
  let f := fieldAt g (o + 0xD) 1
  { XChan.none with
    ppage := fieldAt g (o + 4) 2, pport := fieldAt g (o + 6) 2, cpage := fieldAt g (o + 8) 2, cport := fieldAt g (o + 0xA) 2
    margin := fieldAt g (o + 0xC) 1, elastic := f.testBit 0, closed := f.testBit 1 }

def gredAt (g : List Byte) (o : Nat) : GRed := ⟨fieldAt g o 4, fieldAt g (o + 4) 2, fieldAt g (o + 6) 2⟩

/-- Whether the bytes and bits of a graph section that R271 and R312 leave unnamed are zero; o1 to o6 are its tables and nP to nR
their entries. -/
def unnamedZero (g : List Byte) (o1 nP o2 nE o3 nB o4 nT o5 nC o6 nR : Nat) : Bool :=
  zeroBytes g 0x10 0x20 &&
  (List.range nP).all (fun i => decide (fieldAt g (o1 + 16 * i + 8) 1 < 16) && zeroBytes g (o1 + 16 * i + 9) (o1 + 16 * i + 16)) &&
  (List.range nE).all (fun i => zeroBytes g (o2 + 16 * i + 12) (o2 + 16 * i + 16)) &&
  (List.range nB).all (fun i => decide (fieldAt g (o3 + 16 * i + 6) 2 < 2)) &&
  (List.range nT).all (fun i => zeroBytes g (o4 + 16 * i + 10) (o4 + 16 * i + 16)) &&
  (List.range nC).all (fun i => decide (fieldAt g (o5 + 32 * i + 0xD) 1 < 4) && zeroBytes g (o5 + 32 * i + 0xE) (o5 + 32 * i + 32)) &&
  (List.range nR).all (fun i => decide (fieldAt g (o6 + 16 * i + 4) 2 < 2) && zeroBytes g (o6 + 16 * i + 8) (o6 + 16 * i + 16))

/-- The port codes that the masks of a page's images declare (R273). -/
def portsOf (d : GraphData) (i : Nat) (p : GPage) : List Nat :=
  (List.range (p.w * p.h)).flatMap fun sreg =>
    let im := d.images.get [] (16 * i + sreg)
    ((List.range 16).filter (fieldAt im 0xE 2).testBit).map (· + 32 * sreg) ++
    ((List.range 16).filter (fieldAt im 0x10 2).testBit).map (· + 16 + 32 * sreg)

def outPort (code : Nat) : Bool := decide (16 ≤ code % 32)

/-- Whether a graph breaks R55, R271 or R312 (code 0x26). -/
def graphBad (d : GraphData) (sects : List Sect) (ncl prior : Nat) : Bool :=
  let np := d.pages.length
  let die (i : Nat) : Nat := match d.pages[i]? with | some p => p.die | none => 3
  let wave (i : Nat) : Nat := match d.pages[i]? with | some p => p.wave | none => 256
  let conns : List (Nat × Nat) := d.edges.flatMap (fun e => [(e.ppage, e.pport), (e.cpage, e.cport)]) ++
    d.chans.flatMap (fun e => [(e.ppage, e.pport), (e.cpage, e.cport)]) ++ d.binds.map (fun b => (b.page, b.port))
  let declared : List (Nat × Nat) := d.pages.zipIdx.flatMap (fun e => (portsOf d e.2 e.1).map (fun c => (e.2, c)))
  decide (256 < np + prior) ||
  d.pages.any (fun p => decide (2 < p.die) || (match sects[p.comb]? with | some e => e.kind != 2 || decide (e.size < 8192 * p.w * p.h) | none => true)) ||
  d.edges.any (fun e => decide (np ≤ e.ppage) || decide (np ≤ e.cpage) || die e.ppage != die e.cpage || !outPort e.pport || outPort e.cport ||
    decide (e.depth < 64) || decide (65536 < e.depth) || 2 ^ e.depth.log2 != e.depth) ||
  d.chans.any (fun e => decide (np ≤ e.ppage) || decide (np ≤ e.cpage) || die e.ppage == die e.cpage || wave e.ppage != wave e.cpage ||
    !outPort e.pport || outPort e.cport || (!e.elastic && decide (e.margin < 10))) ||
  (List.range 256).any (fun w => (List.range 3).any (fun k => decide (64 < (d.chans.filter (fun e => wave e.cpage == w && die e.cpage == k)).length))) ||
  d.ctls.any (fun c => decide (ncl ≤ c.cluster)) ||
  conns.any (fun c => !declared.contains c) || declared.any (fun c => conns.count c != 1)

/-- Build a graph from a checked and relocated image. That an image with no kind-3 section, or with several, is refused is the
model's choice (log 72). -/
def buildGraph (b : List Byte) (digest : BitVec 512) : Option GraphData :=
  let sects := sectsOf b
  match sects.filter (fun e => e.kind == 3) with
  | [e] =>
    let g := subBytes b e.off e.size
    let n (k : Nat) : Nat := fieldAt g (4 + 2 * k) 2
    let o1 := 32
    let o2 := o1 + 16 * n 0
    let o3 := o2 + 16 * n 1
    let o4 := o3 + 16 * n 2
    let o5 := o4 + 16 * n 3
    let o6 := o5 + 32 * n 4
    let pages := (List.range (n 0)).map (fun i => gpageAt g (o1 + 16 * i))
    let images := pages.zipIdx.flatMap (fun p =>
      match sects[p.1.comb]? with
      | some c => (List.range (p.1.w * p.1.h)).map (fun r => (16 * p.2 + r, subBytes b (c.off + 8192 * r) 8192))
      | none => [])
    if subBytes g 0 4 ≠ [0x47, 0x52, 0x50, 0x48] ∨ g.length < o6 + 16 * n 5 ∨
        !unnamedZero g o1 (n 0) o2 (n 1) o3 (n 2) o4 (n 3) o5 (n 4) o6 (n 5) then none
    else some
      { digest := digest, pages := pages, edges := (List.range (n 1)).map (fun i => gedgeAt g (o2 + 16 * i))
        binds := (List.range (n 2)).map (fun i => gbindAt g (o3 + 16 * i))
        ctls := (List.range (n 3)).map (fun i => ⟨fieldAt g (o4 + 16 * i) 8, fieldAt g (o4 + 16 * i + 8) 2⟩)
        chans := (List.range (n 4)).map (fun i => gchanAt g (o5 + 32 * i))
        reds := (List.range (n 5)).map (fun i => gredAt g (o6 + 16 * i))
        images := images
        templates := (sects.filter (fun e => e.kind == 4)).map (fun e => (e.info, subBytes b e.off 256)) }
  | _ => none

/-- Two templates armed on one trigger queue (R231). -/
def armsClash (l : List (Nat × List Byte)) : Bool :=
  let qs := (l.filter (fun t => (cardArm t.2).testBit 7)).map (fun t => cardArm t.2 % 16)
  qs.eraseDups.length != qs.length

/-- Load the image at an address: its graph, or the cause and code of the run error (R293). `launch` is the RUN load. -/
def State.loadImage (s : State) (tenant addr symtab : Nat) (launch : Bool) (ncl prior : Nat) : Except (Cause × Nat) GraphData :=
  match s.tenantRead tenant addr 64 with
  | .error e => .error (e.cause, 0)
  | .ok head =>
    match headerCode head with
    | some c => .error (.image, c)
    | none =>
      match s.tenantRead tenant addr (fieldAt head 0x2C 4) with
      | .error _ => .error (.image, 0x21)
      | .ok b =>
        match s.imageCode tenant b with
        | some c => .error (.image, c)
        | none =>
          let sym (i : Nat) : Option Nat :=
            if symtab = 0 then none
            else match s.tenantRead tenant (symtab + 8 * i) 8 with | .ok d => some (ofBytes d) | .error _ => none
          match relocate (if launch then [2, 3, 4] else [2, 3]) sym b with
          | none => .error (.image, 0x27)
          | some r =>
            match buildGraph r (BitVec.ofNat 512 (fieldAt b (fieldAt b 0x28 4 + 0x10) 64)) with
            | none => .error (.image, 0x26)
            | some d =>
              if graphBad d (sectsOf b) ncl prior ∨ armsClash d.templates ∨ (!launch ∧ (!d.ctls.isEmpty ∨ !d.templates.isEmpty)) ∨
                  d.templates.any (fun t => decide (64 ≤ t.1) || decide (t.2.length < 256)) then .error (.image, 0x26)
              else .ok d

/-! ## Page images (R272 to R276) -/

def imgWord (im : List Byte) (ring slot : Nat) : BitVec 48 := BitVec.ofNat 48 (fieldAt im (0x740 + 96 * ring + 6 * slot) 6)
def imgK (im : List Byte) (n : Nat) : Nat := fieldAt im (0xC0 + 4 * n) 4
def imgC (im : List Byte) (n : Nat) : Nat := fieldAt im (0x100 + 4 * n) 4
def imgRoute (im : List Byte) (i : Nat) : Nat := fieldAt im (0x210 + 2 * i) 2
def imgLane (im : List Byte) (i : Nat) : Nat := fieldAt im (0x440 + 2 * i) 2
def imgXoff (im : List Byte) : Bool := (fieldAt im 6 1).testBit 0
def imgTrip (im : List Byte) : Nat := fieldAt im 8 4
def imgPasses (im : List Byte) : Nat := fieldAt im 0xC 2

def rangeAt (im : List Byte) (i : Nat) : OwnRange :=
  let o := 0x40 + 16 * i
  ⟨fieldAt im o 8, fieldAt im (o + 8) 4, fieldAt im (o + 12) 1, (fieldAt im (o + 13) 1).testBit 0, (fieldAt im (o + 13) 1).testBit 1⟩

def rangesOf (im : List Byte) : List OwnRange := (List.range (fieldAt im 7 1)).map (rangeAt im)

/-- A configuration fault: code, ring, slot, word (R285). -/
structure CfgFault where
  code : Nat
  ring : Nat
  slot : Nat
  word : Nat
  deriving DecidableEq, Repr

/-- The landing slots that a memory-node word needs: ceil(L / II) (R152). -/
def slotNeed (ii : Nat) (w : BitVec 48) : Nat :=
  let up (l : Nat) : Nat := (l + ii - 1) / ii
  match decodeContext w with
  | .ok i => match i with
    | .ldB w | .ldH w | .ldW w | .lkup w => up (nearLat (bits w.mod.toNat 1 0))
    | .ldAcq w => up (if w.mod.getLsbD 3 then farLat (bits w.mod.toNat 1 0) else nearLat (bits w.mod.toNat 1 0))
    | .ldf w => up (farLat (bits w.mod.toNat 1 0))
    | .atomH w | .atomW w => up (nearLat w.modx.toNat)
    | .atomfW w => up (farLat w.modx.toNat)
    | .stRel w => up (scopeLat (bits w.mod.toNat 2 0))
    | .mfence w => up (scopeLat (bits w.mod.toNat 2 0))
    | .handoverGive _ => up 1
    | _ => 0
  | .error _ => 0

/-- The segments of the path between two cells, x first, each as the number of its start and its direction (R124). -/
def pathSegs (xa ya xb yb : Nat) : List Nat :=
  let hx := (List.range (xb - xa)).map (fun i => ((ya * 32 + xa + i) * 4)) ++ (List.range (xa - xb)).map (fun i => ((ya * 32 + xa - i) * 4 + 1))
  let hy := (List.range (yb - ya)).map (fun i => (((ya + i) * 32 + xb) * 4 + 2)) ++ (List.range (ya - yb)).map (fun i => (((ya - i) * 32 + xb) * 4 + 3))
  hx ++ hy

/-- Every route of a page: (source code, region of the destination, index), from a table of n entries. -/
def routesOf (ims : List (List Byte)) (get : List Byte → Nat → Nat) (n : Nat) : List (Nat × Nat × Nat) :=
  ims.zipIdx.flatMap fun e => ((List.range n).map (fun i => (get e.1 i, e.2, i))).filter (fun r => r.1 != 0xFFFF)

/-- Whether some segment carries more than m routes from cells to cells (R124, R126). The branches of one multicast count once on a segment
that they share, those of a lane too, of which R126 says nothing (log 87). -/
def overloaded (w m : Nat) (rs : List (Nat × Nat × Nat)) : Bool :=
  let cells := rs.filter (fun r => decide (r.1 % 4096 < 64) && decide (r.2.2 < 256))
  let gx (sreg c : Nat) : Nat := sreg % w * 8 + c % 8
  let gy (sreg c : Nat) : Nat := sreg / w * 8 + c / 8
  let srcs := (cells.map Prod.fst).eraseDups
  let segs := srcs.flatMap fun c => ((cells.filter (fun r => r.1 == c)).flatMap (fun r =>
    pathSegs (gx (c / 4096) (c % 64)) (gy (c / 4096) (c % 64)) (gx r.2.1 (r.2.2 / 4)) (gy r.2.1 (r.2.2 / 4)))).eraseDups
  segs.eraseDups.any (fun k => decide (m < segs.count k))

/-- Whether a word pushes a token into its cell's output queue. -/
def pushesToken : Instr → Bool
  | .out _ | .pass _ | .ordmk _ => true
  | .li w => w.out
  | .hi16 w => w.out
  | i => match i.c2, i.c3 with | some w, _ => w.out | none, some w => w.out | none, none => false

/-- The channel ports that the words of an image name, each with its cell (R322). -/
def chanPorts (im : List Byte) : List (Nat × Nat) :=
  (List.range 64).flatMap fun u => (List.range 16).filterMap fun k =>
    match decodeContext (imgWord im u k) with
    | .ok (.chsend w) => some (u, bits w.imm8.toNat 4 0)
    | .ok (.chrecv w) => some (u, bits w.imm8.toNat 3 0)
    | _ => none

/-- Whether the port that a channel word of image `sreg` names breaks R322 (code 0x12). `chans` lists the channel port codes of the
page. -/
def chanWordBad (ims : List (List Byte)) (sreg : Nat) (chans : List Nat) (u port : Nat) : Bool :=
  let im := (ims[sreg]?).getD []
  let all := routesOf ims imgRoute 280
  !(if port < 16 then (fieldAt im 0xE 2).testBit port else (fieldAt im 0x10 2).testBit (port - 16)) ||
  (chanPorts im).any (fun d => d.2 == port && d.1 != u) || !chans.contains (port + 32 * sreg) ||
  (if port < 16 then all.any (fun r => r.1 == sreg * 4096 + 0x40 + port)
   else all.any (fun r => r.2.1 == sreg && r.2.2 == 256 + port - 16))

/-- Whether the route tables and ports of image `sreg` break a rule (code 0x12: R123, R124, R126, R182). A limit that the images of a page
break together is the fault of the first image, in SREG order, with which it is broken (R276). `bound` holds the codes of the page's ports
that the graph binds: a row port takes rows from one of these only, to which a quad multicast also delivers (R182, R298). -/
def routeBad (ims : List (List Byte)) (w sreg : Nat) (bound : List Nat) : Bool :=
  let im := (ims[sreg]?).getD []
  let inm (r p : Nat) : Bool := (fieldAt ((ims[r]?).getD []) 0xE 2).testBit p
  let outm (p : Nat) : Bool := (fieldAt im 0x10 2).testBit p
  let all := routesOf ims imgRoute 280
  let mine := all.filter (fun r => r.2.1 == sreg)
  let upTo (l : List (Nat × Nat × Nat)) : List (Nat × Nat × Nat) := l.filter (fun r => decide (r.2.1 ≤ sreg))
  let lanes := routesOf ims imgLane 256
  let badSrc (c : Nat) : Bool := decide (ims.length ≤ c / 4096) ||
    !(decide (c % 4096 < 0x40) || (decide (c % 4096 < 0x50) && inm (c / 4096) (c % 16)) || (decide (0x50 ≤ c % 4096) && decide (c % 4096 < 0x56)))
  mine.any (fun r => badSrc r.1 ||
    (decide (256 ≤ r.2.2) && decide (r.2.2 < 272) && !outm (r.2.2 - 256)) ||
    (decide (276 ≤ r.2.2) && !(decide (0x40 ≤ r.1 % 4096) && decide (r.1 % 4096 < 0x50))) ||
    (decide (276 ≤ r.2.2) && decide (r.2.2 ≤ 278) && !bound.contains (r.1 / 4096 * 32 + r.1 % 16)) ||
    (decide (0x54 ≤ r.1 % 4096) && !(decide (256 ≤ r.2.2) && decide (r.2.2 < 272)))) ||
  mine.any (fun r => decide (8 < ((upTo all).filter (fun q => q.1 == r.1)).length)) ||
  (lanes.filter (fun r => r.2.1 == sreg)).any (fun r => decide (ims.length ≤ r.1 / 4096) || decide (64 ≤ r.1 % 4096) ||
    decide (8 < ((upTo lanes).filter (fun q => q.1 == r.1)).length)) ||
  overloaded w 4 (upTo all) || overloaded w 2 (upTo lanes) ||
  (List.range 64).any (fun u => (List.range 16).any (fun k => match decodeContext (imgWord im u k) with | .ok i => pushesToken i | .error _ => false) &&
    all.all (fun r => r.1 != sreg * 4096 + u))

/-- The bytes that a range covers in its space: near offsets, or virtual addresses (R274). -/
def rangeBase (k : Nat → Nat) (r : OwnRange) : Nat := if r.space = 0 then r.base else k (2 * (r.space - 1)) + k (2 * (r.space - 1) + 1) * 2 ^ 32 + r.base

/-- Whether two ranges of two nodes overlap and are not one hand-over range (R164). Ranges of the near space and of the virtual space are
not compared with each other, and a hand-over range that no node holds at first is let pass (the model's choices, log 73). -/
def rangesClash (k k' : Nat → Nat) (sameCluster : Bool) (a b : OwnRange) : Bool :=
  let x := rangeBase k a
  let y := rangeBase k' b
  (a.space == 0) == (b.space == 0) && (a.space != 0 || sameCluster) && decide (x < y + b.len) && decide (y < x + a.len) &&
  !(a.hovr && b.hovr && x == y && a.len == b.len && !(a.initHeld && b.initHeld))

def rangeBad (im : List Byte) (i : Nat) : Bool :=
  let o := 0x40 + 16 * i
  let r := rangeAt im i
  if i < fieldAt im 7 1 then
    (if r.space = 0 then decide (2 ^ 24 ≤ r.base) else decide (2 ^ 32 ≤ r.base)) || r.len == 0 || decide (4 < r.space) ||
    decide (4 ≤ fieldAt im (o + 13) 1) || (!r.hovr && !r.initHeld) || fieldAt im (o + 14) 2 != 0
  else !zeroBytes im o (o + 16)

/-- Whether a near range of a cluster reaches SCRCAP or the run's edge pool (R3, R280). -/
def State.reachesPool (s : State) (run lo len : Nat) : Bool := decide (s.scrcap < lo + len + (s.run run).body.epool.toNat)

/-- Code 0x14 for a region's ranges (R276); `others` gives the other ranges resident in the run, with their constants and
whether they are of the same cluster. -/
def State.rangesBad (s : State) (run : Nat) (k : Nat → Nat) (ranges : List OwnRange) (others : List (OwnRange × (Nat → Nat) × Bool)) : Bool :=
  ranges.any (fun r => r.space == 0 && s.reachesPool run r.base r.len) ||
  ranges.zipIdx.any (fun a => ranges.zipIdx.any (fun b => decide (a.2 < b.2) && rangesClash k k true a.1 b.1)) ||
  ranges.any (fun a => others.any (fun o => rangesClash k o.2.1 o.2.2 a o.1))

/-- The ranges of the resident regions of a run but those of one page. -/
def State.otherRanges (s : State) (run pid cluster : Nat) : List (OwnRange × (Nat → Nat) × Bool) :=
  s.regions.flatMap fun e =>
    match e.2.holder with
    | some (q, _) =>
      if (s.page q).run = run ∧ q ≠ pid then
        e.2.ranges.map (fun r => (r, (fun n => (e.2.k[n % 16]'(Nat.mod_lt _ (by decide))).toNat), regionCluster e.1 == cluster))
      else []
    | none => []

/-- Whether a physical range reaches the edge pool of a cluster of the run (R280). -/
def State.inPool (s : State) (run pa n : Nat) : Bool :=
  match targetOf pa with
  | .scratch c off => (s.run run).clusters.contains c && s.reachesPool run off n
  | _ => false

/-- Whether a virtual range reaches, on some page that translates, an address that is not backed, or the edge pool. -/
def State.badFrom (s : State) (run : Nat) : Nat → Nat → Nat → Bool
  | 0, _, _ => false
  | fuel + 1, va, n =>
    if n = 0 then false
    else
      let t := (s.run run).tenant
      let m := min n (0x10000 - va % 0x10000)
      (match s.walk t va with
        | .ok e => let pa := e.pa + (va - e.va); !s.backed t pa || !s.backed t (pa + m - 1) || s.inPool run pa m
        | .error _ => false) || s.badFrom run fuel (va + m) (n - m)

/-- Code 0x15 for one static binding's record (R276). -/
def State.bindBad (s : State) (run : Nat) (r : ShapeRec) (esize : Nat) : Bool :=
  (r.foots esize).any fun f =>
    if f.near then s.reachesPool run f.base f.len
    else s.badFrom run (f.len / 0x10000 + 2) f.base f.len

/-- More than two static bindings of one direction on the ports of one region of a page (R214). -/
def tooManyStatics (binds : List GBind) (page sreg : Nat) : Bool :=
  let l := (binds.filter (fun b => b.page == page && !b.shapeNone && b.port / 32 == sreg)).map (fun b => outPort b.port)
  l.any (fun k => decide (2 < l.count k))

/-- Whether the images of a page make a port a row port (R182). -/
def imageRowPort (ims : List (List Byte)) (code : Nat) : Bool :=
  let sreg := code / 32
  if code % 32 < 16 then
    (routesOf ims imgRoute 280).any (fun r => r.1 == sreg * 4096 + 0x40 + code % 32 && decide (276 ≤ r.2.2) && decide (r.2.2 ≤ 278))
  else imgRoute ((ims[sreg]?).getD []) (256 + code % 32 - 16) % 4096 == 0x54

/-- Whether a static binding on a region of a page has a good record that reaches what it may not (code 0x15, R276). -/
def State.staticBad (s : State) (run : Nat) (ims : List (List Byte)) (binds : List GBind) (page sreg : Nat) : Bool :=
  (binds.filter (fun b => b.page == page && !b.shapeNone && b.port / 32 == sreg)).any fun b =>
    match s.tenantRead (s.run run).tenant b.addr 64 with
    | .error _ => false
    | .ok rec =>
      let sh := ShapeRec.of rec
      let row := imageRowPort ims b.port
      sh.dir == outPort b.port && !sh.bad (if row then .row else .token) && s.bindBad run sh (if row then 64 else 4)

/-- What the header and tables of image `sreg` of a page break, lowest code first (R276); 0x14 and 0x15 apart, which depend on
the placement. -/
def tableCode (ims : List (List Byte)) (gp : GPage) (sreg : Nat) (binds : List GBind) (page : Nat) : Option Nat :=
  let im := (ims[sreg]?).getD []
  let im0 := (ims[0]?).getD []
  let ii := fieldAt im 4 1
  let sp := fieldAt im 5 1
  if subBytes im 0 4 ≠ [0x43, 0x4F, 0x4D, 0x42] ∨ ii < 1 ∨ 16 < ii ∨ ii ≠ fieldAt im0 4 1 ∨ imgTrip im ≠ imgTrip im0 ∨ imgPasses im ≠ imgPasses im0 ∨
      sp ≠ gp.w - 1 + 4 * (gp.h - 1) + 16 * sreg ∨ 1 < fieldAt im 6 1 ∨ 8 < fieldAt im 7 1 ∨ !zeroBytes im 0x12 0x40 then some 0x10
  else if (List.range 8).any (fun i => decide (32 ≤ fieldAt im (0x200 + i) 1)) then some 0x11
  else if routeBad ims gp.w sreg ((binds.filter (fun b => b.page == page)).map (fun b => b.port)) then some 0x12
  else if (List.range 8).any (rangeBad im) then some 0x14
  else if tooManyStatics binds page sreg then some 0x15
  else if !zeroBytes im 0x208 0x210 ∨ !zeroBytes im 0x640 0x740 then some 0x16
  else none

/-- What word k of ring r of image `sreg` breaks (R39, R181, R322). -/
def wordCodes (ims : List (List Byte)) (sreg : Nat) (chans : List Nat) (r k : Nat) : List Nat :=
  let im := (ims[sreg]?).getD []
  let w := imgWord im r k
  rawFaults (if r < 64 then 0 else if r = 64 then 1 else 2) k (fieldAt im 4 1) w ++
  (if r = 65 ∧ imgXoff im ∧ w ≠ 0 then [0x02] else []) ++
  (if 64 ≤ r then [] else match decodeContext w with
    | .ok (.chsend x) => if chanWordBad ims sreg chans r (bits x.imm8.toNat 4 0) then [0x12] else []
    | .ok (.chrecv x) => if chanWordBad ims sreg chans r (bits x.imm8.toNat 3 0) then [0x12] else []
    | _ => [])

/-- Whether the words of the memory node exceed its landing slots (R152). -/
def slotsOver (im : List Byte) : Bool :=
  let ii := fieldAt im 4 1
  decide (16 < ((List.range ii).map (fun k => slotNeed ii (imgWord im 64 k))).sum)

/-- The first fault of the rings of an image, in ring order (R39, R276). -/
def ringFault (ims : List (List Byte)) (sreg : Nat) (chans : List Nat) : Option CfgFault :=
  (List.range 66).findSome? fun r =>
    match (List.range 16).findSome? (fun k => (lowestCode (wordCodes ims sreg chans r k)).map (fun c =>
        CfgFault.mk c r k (imgWord ((ims[sreg]?).getD []) r k).toNat)) with
    | some f => some f
    | none => if r = 64 ∧ slotsOver ((ims[sreg]?).getD []) then some ⟨0x13, 64, 0xFF, 0⟩ else none

/-- The first fault of image `sreg` of a page: its header and tables, the lowest code of theirs and of those that depend on its
placement (`placed`), then its rings. A fault of the header or of a table has no word: WORD is 0, as RING and SLOT are 0xFF (log 57). -/
def imageFault (ims : List (List Byte)) (gp : GPage) (sreg : Nat) (chans : List Nat) (binds : List GBind) (page : Nat) (placed : List Nat) : Option CfgFault :=
  match lowestCode ((tableCode ims gp sreg binds page).toList ++ placed) with
  | some c => some ⟨c, 0xFF, 0xFF, 0⟩
  | none => ringFault ims sreg chans

/-- Depth D: one more than the highest stage of any word but the canonical no-op (R130). -/
def depthOf (ims : List (List Byte)) : Nat :=
  1 + (ims.flatMap (fun im => (List.range 66).flatMap (fun r => (List.range 16).map (fun k =>
    let w := imgWord im r k
    if w = 0 then 0 else bits w.toNat 39 37)))).foldl max 0

/-- Load a region from its image (R65, R100, R144, R181); its stream engines keep their sequence numbers. -/
def State.loadRegion (s : State) (rid pid sreg w : Nat) (im : List Byte) : State :=
  let r := s.region rid
  let seed (u : Nat) : W32 :=
    let x := sreg % w * 8 + u % 8
    let y := sreg / w * 8 + u / 8
    let v := BitVec.ofNat 32 (imgC im 63) ^^^ (BitVec.ofNat 32 (256 * y + x + 1) * 0x9E3779B9)
    if v = 0 then 1 else v
  let ranges := rangesOf im
  s.setRegion rid
    { Region.free with
      holder := some (pid, sreg), se := r.se
      words := ((List.range 66).flatMap (fun g => (List.range 16).map (fun k => (16 * g + k, imgWord im g k)))).filter (fun e => e.2 != 0)
      k := Vector.ofFn (fun n : Fin 16 => BitVec.ofNat 32 (imgK im n))
      ctab := (List.range 64).map (fun n => (n, BitVec.ofNat 32 (imgC im n)))
      policy := Vector.ofFn (fun n : Fin 8 => BitVec.ofNat 8 (fieldAt im (0x200 + n) 1))
      routes := ((List.range 280).map (fun i => (i, imgRoute im i))).filter (fun e => e.2 != 0xFFFF)
      laneRoutes := ((List.range 256).map (fun i => (i, imgLane im i))).filter (fun e => e.2 != 0xFFFF)
      ranges := ranges, inmask := fieldAt im 0xE 2, outmask := fieldAt im 0x10 2, xoff := imgXoff im
      cells := (List.range 64).map (fun u => (u, { Cell.load with lfsr := seed u }))
      mn := { MNode.load with held := Vector.ofFn (fun n : Fin 8 => match ranges[n.val]? with | some o => o.initHeld | none => false) }
      xn := { XNode.load with unused := imgXoff im } }

end Sys2Proof.Machine
end

