-- ==== Sys2Proof/Machine/Pager.lean ====
section
/-! DEFINITION. The pager (R22, R270, R277 to R283, R293, R304, R313): graphs of a run, the placement queue, placement attempts,
loading, gate opening, and the state of pages as PGSTAT and PGWAIT give it. -/
namespace Sys2Proof.Machine

/-! ## Graphs of a run (R270, R293) -/

def State.graphOf (s : State) (run gh : Nat) : Graph := (s.run run).graphs.get Graph.none gh
def State.setGraph (s : State) (run gh : Nat) (g : Graph) : State :=
  let r := s.run run
  s.setRun run { r with graphs := r.graphs.set gh g }

/-- The next graph handle, if fewer than four graphs are loaded or being loaded (R270). -/
def Run.nextGraph (r : Run) : Option Nat := if r.graphs.length < 4 then some r.graphs.length else Option.none

/-- The pages of a wave, by handle, in page-table order. -/
def Graph.wavePages (g : Graph) (w : Nat) : List Nat := (g.pages.zipIdx.filter (fun e => e.1.wave == w)).map (fun e => g.base + e.2)

/-- A loaded graph joins its run: its pages, edges and channels take their handles (R270, R312). -/
def State.installGraph (s : State) (run gh addr symtab : Nat) (d : GraphData) : State :=
  let r := s.run run
  let base := (r.graphs.map (fun e => if e.2.state = 2 then e.2.pages.length else 0)).sum
  let cb := r.chans.length
  let eb := r.edges.length
  let g : Graph :=
    { state := 2, addr := addr, symtab := symtab, digest := d.digest, base := base, chanBase := cb, edgeBase := eb,
      pages := d.pages, binds := d.binds, ctls := d.ctls, reds := d.reds, images := d.images }
  let edges := d.edges.zipIdx.map (fun e => (eb + e.2, { e.1 with ppage := e.1.ppage + base, cpage := e.1.cpage + base }))
  let chans := d.chans.zipIdx.map (fun e => (cb + e.2, { e.1 with ppage := e.1.ppage + base, cpage := e.1.cpage + base }))
  let die (h : Nat) : Nat := ((d.pages[h - base]?).map (fun (p : GPage) => p.die)).getD 0
  -- a channel between two dies whose link is down runs over the detour (R315)
  let chans := chans.map (fun (e : Nat × XChan) => (e.1, { e.2 with detour := !linkUp s (die e.2.ppage) (die e.2.cpage) }))
  let s := s.setRun run { r with graphs := r.graphs.set gh g, edges := r.edges ++ edges, chans := r.chans ++ chans }
  State.refreshDetour <| d.pages.zipIdx.foldl (fun s e =>
    let ims := (List.range (e.1.w * e.1.h)).map (fun i => d.images.get [] (16 * e.2 + i))
    let im := (ims[0]?).getD []
    s.setPage (pidOf run (base + e.2)) { Page.none with
      run := run, handle := base + e.2, graph := gh, index := e.2, die := e.1.die, wave := e.1.wave, w := e.1.w, h := e.1.h
      ii := fieldAt im 4 1, trip := imgTrip im, passes := imgPasses im, depth := depthOf ims
      held := d.binds.any (fun b => b.page == e.2 && b.shapeNone) }) s

/-- A wave enters the placement queue (R277, R294); `by'` is the cluster whose command queue enters it. -/
def State.enterWave (s : State) (run gh w : Nat) (by' : List Nat) : State :=
  let r := s.run run
  if r.waves.any (fun e => e.graph == gh && e.wave == w) then
    s.setRun run { r with waves := r.waves.map (fun e => if e.graph == gh && e.wave == w then { e with by' := by' ++ e.by' } else e) }
  else
    let s := s.setRun run { r with waves := r.waves ++ [⟨gh, w, false, by'⟩] }
    let s := ((s.graphOf run gh).wavePages w).foldl (fun s h =>
      let p := s.page (pidOf run h)
      if p.level = 0 then s.setPage (pidOf run h) { p with level := 1 } else s) s
    s.tryPlace run

/-! ## Placement (R278, R280, R313) -/

/-- The first origin of a free W × H rectangle of a cluster (R278). -/
def State.originIn (s : State) (c w h : Nat) : Option Nat :=
  (List.range 16).find? (fun o => decide (o % 4 + w ≤ 4) && decide (o / 4 + h ≤ 4) &&
    (List.range (w * h)).all (fun i => (s.region (16 * c + (o / 4 + i / w) * 4 + o % 4 + i % w)).holder.isNone))

def State.placeFor (s : State) (run : Nat) (p : Page) : Option (Nat × Nat) :=
  ((s.run run).clusters.filter (fun c => dieOf c == p.die)).findSome? (fun c => (s.originIn c p.w p.h).map (fun o => (c, o)))

/-- A page takes regions of a cluster. -/
def State.takeRegions (s : State) (pid c origin level : Nat) : State :=
  let p := { s.page pid with cluster := c, origin := origin, level := level }
  (List.range (p.w * p.h)).foldl (fun s i =>
    let rid := p.region i
    s.setRegion rid { s.region rid with holder := some (pid, i), returned := [] }) (s.setPage pid p)

def State.takePages (run : Nat) : List Nat → State → Option State
  | [], s => some s
  | h :: t, s =>
    let pid := pidOf run h
    match s.placeFor run (s.page pid) with
    | none => none
    | some (c, o) => State.takePages run t (s.takeRegions pid c o 2)

/-- The lowest free offset of a pool for a buffer aligned to its size (R280). -/
def poolFit (pool : List (Nat × Nat)) (lo hi size : Nat) : Option Nat :=
  let first := (lo + size - 1) / size
  ((List.range (hi / size - first)).map (fun i => (first + i) * size)).find? (fun o =>
    pool.all (fun b => decide (b.1 + b.2 ≤ o) || decide (o + size ≤ b.1)))

/-- Carve a buffer in a cluster's pool. -/
def State.carve (s : State) (run e c : Nat) : Option State :=
  let x := s.edge run e
  let k := s.cluster c
  match poolFit k.pool (s.scrcap - (s.run run).body.epool.toNat) s.scrcap (8 * x.depth) with
  | none => none
  | some o => some ((s.setCluster c { k with pool := (o, 8 * x.depth) :: k.pool }).setEdge run e { x with carved := true, cluster := c, off := o, head := 0, count := 0 })

/-- Carve every buffer that a wave requires: in the producer's cluster if the producer is of the wave (R280). -/
def State.carveEdges (run : Nat) (wave : List Nat) : List (Nat × Edge) → State → Option State
  | [], s => some s
  | (e, x) :: t, s =>
    if x.carved ∨ x.freed ∨ !(wave.contains x.ppage || wave.contains x.cpage) then State.carveEdges run wave t s
    else match s.carve run e (s.page (pidOf run (if wave.contains x.ppage then x.ppage else x.cpage))).cluster with
      | none => none
      | some s => State.carveEdges run wave t s

/-- The channel nodes in use at a die root (R313). -/
def State.nodesUsed (s : State) (d : Nat) : List Nat :=
  s.runs.flatMap (fun r => r.2.chans.filterMap (fun c => if s.chanDie r.1 c.2 false = d then c.2.node else none))

/-- Take a node for every channel of a wave (R313). -/
def State.takeNodes (run : Nat) (wave : List Nat) : List (Nat × XChan) → State → Option State
  | [], s => some s
  | (h, c) :: t, s =>
    if !wave.contains c.ppage ∨ c.node.isSome ∨ c.freed then State.takeNodes run wave t s
    else
      let used := s.nodesUsed (s.chanDie run c false)
      match (List.range 64).find? (fun n => !used.contains n) with
      | none => none
      | some n => State.takeNodes run wave t (s.setChanOf run h { c with node := some n })

/-- An attempt to place a wave: all of it, or nothing (R278). -/
def State.attempt (s : State) (run gh w : Nat) : Option State :=
  let wave := (s.graphOf run gh).wavePages w
  match State.takePages run (wave.filter (fun h => (s.page (pidOf run h)).level ≤ 1)) s with
  | none => none
  | some s =>
    match State.carveEdges run wave (s.run run).edges s with
    | none => none
    | some s => State.takeNodes run wave (s.run run).chans s

/-- Whether a wave would not fit even in the run's clusters when empty; buffers that an entered wave carves or has carved do
not count (R278). -/
def State.nofit (s : State) (run gh w : Nat) : Bool :=
  let r := s.run run
  let entered := r.waves.flatMap (fun e => (s.graphOf run e.graph).wavePages e.wave)
  let s := r.clusters.foldl (fun s c =>
    let s := s.setCluster c { s.cluster c with pool := [] }
    (List.range 16).foldl (fun s i => s.setRegion (16 * c + i) Region.free) s) s
  let edges := r.edges.map (fun e => (e.1, { e.2 with carved := e.2.carved || entered.contains e.2.ppage || entered.contains e.2.cpage }))
  let wave := (s.graphOf run gh).wavePages w
  match State.takePages run wave s with
  | none => true
  | some s => (State.carveEdges run wave edges s).isNone

/-- PLACEMENT_ATTEMPT: the wave at the head of the queue is placed whole, or waits (R277, R278). -/
def placementAttempt (s : State) : State :=
  let run := s.focus.run
  let r := s.run run
  match r.waves.find? (fun e => !e.placed) with
  | none => s
  | some w =>
    if r.phase ≠ .active ∨ r.err.isSome then s
    else match s.attempt run w.graph w.wave with
      | none => s
      | some s =>
        let r := s.run run
        (s.setRun run { r with waves := r.waves.map (fun e => if e.graph == w.graph && e.wave == w.wave then { e with placed := true } else e) }).tryPlace run

def execPlacementAttempt (s : State) : Ans := .next (placementAttempt s)

/-! ## Loading (R22, R276) -/

/-- The images of a page in SREG order. -/
def State.imagesOf (s : State) (pid : Nat) : List (List Byte) :=
  let p := s.page pid
  let g := s.graphOf p.run p.graph
  (List.range (p.w * p.h)).map (fun i => g.images.get [] (16 * p.index + i))

/-- The port codes of a page that channels use. -/
def State.chanCodes (s : State) (pid : Nat) : List Nat :=
  let p := s.page pid
  (s.run p.run).chans.flatMap (fun c => (if c.2.ppage = p.handle then [c.2.pport] else []) ++ (if c.2.cpage = p.handle then [c.2.cport] else []))

/-- The constants of a region as numbers. -/
def Region.konst (r : Region) (n : Nat) : Nat := (r.k[n % 16]'(Nat.mod_lt _ (by decide))).toNat

/-- The static bindings of a page, in table order. -/
def State.staticBinds (s : State) (pid : Nat) : List GBind :=
  let p := s.page pid
  (s.graphOf p.run p.graph).binds.filter (fun b => b.page == p.index && !b.shapeNone)

/-- A configuration fault ends the run in error (R39, R276). -/
def State.raiseConfig (s : State) (pid sreg : Nat) (f : CfgFault) : State :=
  let p := s.page pid
  s.raise p.run { ErrRec.of .config (s.die p.die).tick with
    code := f.code, page := p.handle, ring := f.ring, slot := f.slot, sreg := sreg, cluster := (s.cluster p.cluster).idx, word := f.word }

/-- The pager installs a page's static bindings: a channel of SE0 first, then of SE1 (R214). A record whose address is not a multiple of
64, or that breaks R212, ends the run with SHAPE (R208). -/
def State.installStatic (s : State) (pid : Nat) (b : GBind) : State :=
  let p := s.page pid
  let sreg := b.port / 32
  let rid := p.region sreg
  let out := outPort b.port
  match s.tenantRead (s.run p.run).tenant b.addr 64 with
  | .error e => s.raise p.run { ErrRec.of e.cause (s.die p.die).tick with page := p.handle, sreg := sreg, cluster := (s.cluster p.cluster).idx, addr := e.addr }
  | .ok rec =>
    let sh := ShapeRec.of rec
    if b.addr % 64 ≠ 0 ∨ sh.dir ≠ out ∨ sh.bad (if s.rowPort pid b.port then .row else .token) then
      s.raise p.run { ErrRec.of .shape (s.die p.die).tick with page := p.handle, sreg := sreg, cluster := (s.cluster p.cluster).idx, addr := b.addr }
    else
      let ch (se : Nat) : Nat := 2 * se + (if out then 1 else 0)
      let se := if (s.chan rid (ch 0)).cur.isSome then 1 else 0
      s.installBinding rid (ch se) { Binding.fresh .plain b.start (b.port % 32) 0 0 rec s.seq with staticB := true }

/-- Check and load the regions of a page from an SREG on; the first fault ends the run (R276). -/
def State.loadFrom (pid : Nat) (ims : List (List Byte)) : List Nat → State → State
  | [], s => s
  | sreg :: t, s =>
    let p := s.page pid
    let g := s.graphOf p.run p.graph
    let gp : GPage := (g.pages[p.index]?).getD ⟨0, 0, 0, 0, 1, 1⟩
    let im := (ims[sreg]?).getD []
    let others := s.otherRanges p.run pid p.cluster ++ (List.range sreg).flatMap (fun i =>
      let r := s.region (p.region i)
      r.ranges.map (fun o => (o, r.konst, true)))
    let placed := (if s.rangesBad p.run (imgK im) (rangesOf im) others then [0x14] else []) ++
      (if s.staticBad p.run ims g.binds p.index sreg then [0x15] else [])
    let fault := imageFault ims gp sreg (s.chanCodes pid) g.binds p.index placed
    match fault with
    | some f => s.raiseConfig pid sreg f
    | none => State.loadFrom pid ims t (s.loadRegion (p.region sreg) pid sreg p.w im)

/-- The images that each tenant has in a comb cache of 256: an equal share, so that none can cause another's miss (R283; log 78). -/
def combShare : Nat := 4

/-- The comb cache of a die root holds a page's images from now on: of the tenant's own, the least recently used are replaced (R283). -/
def State.cacheComb (s : State) (pid : Nat) : State :=
  let p := s.page pid
  let g := s.graphOf p.run p.graph
  let d := s.die p.die
  let t := (s.run p.run).tenant
  let ents := (s.imagesOf pid).zipIdx.map (fun e => CombEnt.mk t g.digest p.index e.2 e.1)
  let mine := (ents.reverse ++ d.combs.filter (fun e => e.tenant == t && !ents.contains e)).take combShare
  s.setDie p.die { d with combs := mine ++ d.combs.filter (fun e => e.tenant != t) }

def State.loadPage (s : State) (pid : Nat) : State :=
  let p := s.page pid
  if p.level ≠ 2 ∨ (s.run p.run).err.isSome then s
  else
    let s := State.loadFrom pid (s.imagesOf pid) (List.range (p.w * p.h)) (s.cacheComb pid)
    (s.staticBinds pid).foldl (fun s b => if (s.run p.run).err.isSome then s else s.installStatic pid b) s

/-- The oldest wave of a run that is being loaded. -/
def State.loadingWave (s : State) (run : Nat) : Option WaveEntry :=
  (s.run run).waves.find? (fun e => e.placed && ((s.graphOf run e.graph).wavePages e.wave).any (fun h => (s.page (pidOf run h)).level == 2))

/-- Every unit of every page of a wave has acknowledged (a fault in a later wave's page is found as that wave is loaded, after pages of
earlier waves have run: log 72): its pages are placed, and the pager will open the gates of those
that it opens itself (R22, R282). -/
def pageLoaded (run : Nat) (s : State) : State :=
  match s.loadingWave run with
  | none => s
  | some e =>
    let pids := ((s.graphOf run e.graph).wavePages e.wave).map (pidOf run)
    let s := pids.foldl State.loadPage s
    if (s.run run).err.isSome then s
    else pids.foldl (fun s pid =>
      let p := s.page pid
      if p.level = 2 then s.setPage pid { p with level := 3, gated := !p.held } else s) s

/-! ## Gate opening (R282, R297, R304) -/

/-- Whether a page is an end of a channel (R304). -/
def State.inGroup (s : State) (pid : Nat) : Bool := !(s.chanCodes pid).isEmpty

/-- The pages of the channel group of a page. -/
def State.groupOf (s : State) (pid : Nat) : List Nat :=
  let p := s.page pid
  (((s.graphOf p.run p.graph).wavePages p.wave).map (pidOf p.run)).filter s.inGroup

/-- A channel group may be given its opening time: every page of it that has not retired is acknowledged and to be opened, or
open (R304, R310). -/
def State.groupReady (s : State) (pid : Nat) : Bool :=
  let l := (s.groupOf pid).filter (fun q => (s.page q).level < 5)
  l.any (fun q => (s.page q).openAt.isNone && (s.page q).level == 3) && l.all (fun q => (s.page q).level == 4 || ((s.page q).level == 3 && (s.page q).gated))

/-- The package time at which a channel group opens: 256 cycles on (R304), or, for what a capture has left closed of a group that had
begun to open, the time at which the others opened. -/
def State.groupTime (s : State) (pid : Nat) : Nat :=
  match (s.groupOf pid).find? (fun q => (s.page q).level == 4) with
  | some q => ((s.run (s.page pid).run).epoch + BitVec.ofNat 64 (s.page q).goff).toNat
  | none => (s.die 0).pktime.toNat + 256

/-- Whether the gates of a page open on this cycle of its die. -/
def State.opensNow (s : State) (pid : Nat) : Bool :=
  let p := s.page pid
  p.level == 3 && p.gated && (s.run p.run).phase == .active &&
  (!s.inGroup pid || (match p.openAt with | some g => decide (g ≤ (s.die p.die).pktime.toNat) | none => false))

/-- The checks of codes 0x14 and 0x15 with the constants in force (R276). -/
def State.gateFault (s : State) (pid : Nat) : Option (Nat × CfgFault) :=
  let p := s.page pid
  (List.range (p.w * p.h)).findSome? fun i =>
    let r := s.region (p.region i)
    let others := s.otherRanges p.run pid p.cluster ++ (List.range i).flatMap (fun j =>
      let q := s.region (p.region j)
      q.ranges.map (fun o => (o, q.konst, true)))
    if s.rangesBad p.run r.konst r.ranges others then some (i, ⟨0x14, 0xFF, 0xFF, 0⟩)
    else if (List.range 4).any (fun ch => match (s.chan (p.region i) ch).cur with
        | some b => b.staticB && s.bindBad p.run b.shape (s.esize pid i b)
        | none => false) then some (i, ⟨0x15, 0xFF, 0xFF, 0⟩)
    else none

/-- The ends of a page's channels open as their entries declare (R307). -/
def State.openChans (s : State) (pid : Nat) : State :=
  let p := s.page pid
  let r := s.run p.run
  let st (c : XChan) : Nat := if c.closed then 1 else if c.elastic then 3 else 2
  s.setRun p.run { r with chans := r.chans.map fun e =>
    let c := e.2
    let c := if c.ppage = p.handle ∧ c.sendSt = 0 then { c with sendSt := st c } else c
    (e.1, if c.cpage = p.handle ∧ c.recvSt = 0 then { c with recvSt := st c } else c) }

/-- A page's gates open: a fresh page starts its first pass, a page that SVSAVE or SVLOAD left closed goes on from the state
it holds (R282, R339, R360, R361). The pages of a channel group have one GOFF: the run time of their opening (R304). -/
def State.openPage (s : State) (pid : Nat) : State :=
  match s.gateFault pid with
  | some (sreg, f) => s.raiseConfig pid sreg f
  | none =>
    let p := s.page pid
    let runt := match p.openAt with
      | some g => (BitVec.ofNat 64 g - (s.run p.run).epoch).toNat
      | none => (s.runt p.run p.die).toNat
    -- the channels' ends open with their page, whose records an SVLOAD may have given it before (R307)
    if p.svClosed then
      (s.setPage pid { p with
        level := if p.retiring then 5 else 4, gated := false, svClosed := false, captured := false, opened := true
        goff := (runt + 2 ^ 64 - p.ptime) % 2 ^ 64, lastAln := max p.lastAln p.ptime }).openChans pid
    else (s.setPage pid { p with level := 4, gated := false, goff := runt, lastAln := 0, unfrozen := 0, atCount := 0, opened := true }).openChans pid

/-- GATE_OPENING: a channel group is given its opening time (flag), or the gates of a page open. -/
def gateOpening (s : State) : State :=
  let pid := s.focus.page
  if s.focus.flag then
    if s.groupReady pid then
      let g := s.groupTime pid
      (s.groupOf pid).foldl (fun s q => let p := s.page q; if p.level = 3 ∧ p.openAt.isNone then s.setPage q { p with openAt := some g } else s) s
    else s
  else if s.opensNow pid then s.openPage pid else s

def execGateOpening (s : State) : Ans := .next (gateOpening s)

/-! ## PGSTAT, PGWAIT, GRSTAT (R293, R296) -/

/-- The state word of a page (R296). -/
def State.pageWord (s : State) (pid : Nat) : W64 :=
  let p := s.page pid
  let placed := decide (3 ≤ p.level) && decide (p.level ≤ 5)
  BitVec.ofNat 64 (p.level + (if p.frozen then 8 else 0) + (if placed then p.origin * 16 + (s.cluster p.cluster).idx * 256 else 0xFF00) +
    p.die * 2 ^ 16 + (p.w - 1) * 2 ^ 18 + (p.h - 1) * 2 ^ 20 + p.passIdx * 2 ^ 32)

/-- The page that a handle names, if the run has one. -/
def State.pageNamed (s : State) (c handle : Nat) : Option Nat :=
  let pid := pidOf (s.runOf c) handle
  match s.pages.find? pid with
  | some _ => some pid
  | none => none

def pgstatOp (rd rs1 : Reg) (s : State) : State :=
  let c := s.focus.cluster
  let v := s.reg c rs1
  if !fits v 8 then s.illegal c
  else s.retireWith c rd (match s.pageNamed c v.toNat with | some pid => s.pageWord pid | none => 0)

/-- PGWAIT (R296): events 0, 1 and 2 wait for levels 3, 4 and 6. -/
def pgwaitOp (rd rs1 rs2 : Reg) (s : State) : State :=
  let c := s.focus.cluster
  let v := s.reg c rs1
  let e := (s.reg c rs2).toNat
  if !fits v 8 ∨ 2 < e then s.illegal c
  else match s.pageNamed c v.toNat with
    | none => s.retireWith c rd 0
    | some pid =>
      let lv := (s.page pid).level
      if lv < (if e = 0 then 3 else if e = 1 then 4 else 6) then s.wait c
      else (if 6 ≤ lv then s.acquireCtl c 4 else s).retireWith c rd (s.pageWord pid)

/-- GRSTAT (R293). -/
def grstatOp (rd rs1 : Reg) (s : State) : State :=
  let c := s.focus.cluster
  let v := s.reg c rs1
  let r := s.run (s.runOf c)
  if !fits v 2 then s.illegal c
  else
    let g := r.graphs.get Graph.none v.toNat
    let next := ((r.waves.filter (fun e => e.graph == v.toNat && !e.placed)).map (·.wave)).foldl min 0xFF
    s.retireWith c rd (BitVec.ofNat 64 (g.state + (if r.edrop then 4 else 0) + g.base * 2 ^ 8 + g.pages.length * 2 ^ 16 + next * 2 ^ 32))

def execPgstat (rd rs1 : Reg) (s : State) : Ans := .next (pgstatOp rd rs1 s)
def execPgwait (rd rs1 rs2 : Reg) (s : State) : Ans := .next (pgwaitOp rd rs1 rs2 s)
def execGrstat (rd rs1 : Reg) (s : State) : Ans := .next (grstatOp rd rs1 s)

end Sys2Proof.Machine
end

