-- ==== Sys2Proof/Machine/Records.lean ====
section
/-! DEFINITION. The records of a capture (R331 to R345): the region, cluster, edge and channel records as bytes, reading them back, and
the capture of a page (R326 to R328). -/
namespace Sys2Proof.Machine

/-! ## Building and cutting blocks -/

/-- The bytes from position `pos` up to `size`, with pieces at rising offsets and zeros between. -/
def layout (size : Nat) : Nat → List (Nat × List Byte) → List Byte
  | pos, [] => List.replicate (size - pos) 0
  | pos, (o, d) :: t => List.replicate (o - pos) 0 ++ d ++ layout size (max pos o + d.length) t

def block (size : Nat) (l : List (Nat × List Byte)) : List Byte := layout size 0 l
def boolBit (b : Bool) (k : Nat) : Nat := if b then 2 ^ k else 0
def words4 (l : List W32) : List Byte := l.flatMap (fun v => toBytes 4 v.toNat)
def word4 (b : List Byte) (off : Nat) : W32 := BitVec.ofNat 32 (fieldAt b off 4)

/-- A token in five bytes (R333), and in eight with its DIST (R334). -/
def tok5 (t : QTok) : List Byte := toBytes 5 t.tok.bits
def tok8 (t : QTok) : List Byte := toBytes 8 (t.tok.bits + t.dist * 2 ^ 40)
def toks8 (q : TokQ) : List Byte := q.toks.flatMap tok8
def untok5 (b : List Byte) (off : Nat) : QTok := QTok.of (Tok.ofBits (fieldAt b off 5 % 2 ^ 36))
def untok8 (b : List Byte) (off : Nat) : QTok :=
  let n := fieldAt b off 8
  QTok.of (Tok.ofBits (n % 2 ^ 36)) none (bits n 47 40)
def untoks8 (b : List Byte) (off n : Nat) : TokQ := ⟨(List.range n).map (fun k => untok8 b (off + 8 * k)), 0⟩

/-! ## Landing slots of a cell (R334) -/

/-- The stage of a slot's word for the next unfrozen cycle, saturating at 7. -/
def nextStage (its : Option Nat) (counter : Nat) : Nat := match its with | some k => min 7 (if counter = 0 then k + 1 else k) | none => 7

def SlotKind.code : SlotKind → Nat
  | .value => 0 | .pred => 1 | .push => 2 | .valuePush => 3 | .mark => 4 | .psend => 5 | .exit => 6 | .drop => 6 | .chsend => 7

def SlotKind.ofCode (k dest : Nat) : SlotKind :=
  match k with
  | 0 => .value | 1 => .pred | 2 => .push | 3 => .valuePush | 4 => .mark | 5 => .psend | 6 => if dest = 1 then .drop else .exit | _ => .chsend

def Slot.word (sl : Slot) (p : Page) : Nat :=
  let dest := match sl.kind with | .exit => 0 | .drop => 1 | _ => sl.dest
  sl.value.toNat + dest * 2 ^ 32 + sl.kind.code * 2 ^ 36 + boolBit sl.wq 39 + boolBit sl.out 40 + boolBit (p.slotLive sl.its sl.live) 41 +
  sl.dist * 2 ^ 42 + sl.rank.toNat * 2 ^ 45 + boolBit sl.ord 47 + sl.port * 2 ^ 48 + nextStage sl.its p.counter * 2 ^ 53 + 2 ^ 56

/-- The stage and last liveness of a restored slot: its iteration's, unless that is no longer started (R334). -/
def restoredIts (its : Nat) (live : Bool) (p : Page) : Option Nat × Bool :=
  if !live then (none, false)
  else
    let k := if p.counter = 0 then its - 1 else its
    if p.sm.getLsbD k ∧ !(p.counter = 0 ∧ its = 0) then (some k, live) else (none, live)

/-- A landing slot of a record, which has no scope: the writes that a restored ordering token releases were performed before the
capture (R327), so that its scope orders nothing (log 75). -/
def Slot.ofWord (n : Nat) (p : Page) : Slot :=
  let kind := SlotKind.ofCode (bits n 38 36) (bits n 35 32)
  let (its, live) := restoredIts (bits n 55 53) (n.testBit 41) p
  { kind := kind, value := BitVec.ofNat 32 n, dest := bits n 35 32, wq := n.testBit 39, out := n.testBit 40, live := live,
    dist := bits n 44 42, rank := BitVec.ofNat 2 (bits n 46 45), ord := n.testBit 47, rel := none, scope := 4, port := bits n 52 48, its := its }

/-! ## Cells (R334) -/

def Cell.bytes (c : Cell) (p : Page) : List Byte :=
  let qn (k : Nat) : Nat := (qAt c.ins k).toks.length
  let lane (k : Nat) : List Byte :=
    let l := c.lanes.filter (fun l => l.lane == k)
    toBytes 8 ((l.map (fun v => boolBit v.val (v.dist - 1))).foldl (· ||| ·) 0) ++ toBytes 8 ((l.map (fun v => 2 ^ (v.dist - 1))).foldl (· ||| ·) 0)
  block 0x180 ([(0, words4 c.q.toList), (0x40, toBytes 4 c.ores.toNat), (0x44, toBytes 4 c.lfsr.toNat),
    (0x48, toBytes 1 ((List.range 7).map (fun i => boolBit (predAt c.g i) i)).sum),
    (0x49, toBytes 1 (((List.range 4).map (fun i => boolBit ((c.pl[i]?).getD false) i)).sum + c.pr.toNat * 16)),
    (0x4A, toBytes 2 (qn 0 + qn 1 * 8 + qn 2 * 64 + qn 3 * 512 + c.outq.toks.length * 4096)),
    (0x50, c.slots.flatMap (fun sl => toBytes 8 (sl.word p)))] ++
    (List.range 4).map (fun n => (0x90 + 32 * n, toks8 (qAt c.ins n))) ++ [(0x110, toks8 c.outq)] ++
    (List.range 4).map (fun n => (0x130 + 16 * n, lane n)) ++ [(0x170, toBytes 4 c.ores2.toNat)])

def Cell.parse (b : List Byte) (p : Page) : Cell :=
  let cn := fieldAt b 0x4A 2
  let flags := fieldAt b 0x49 1
  { q := Vector.ofFn (fun i : Fin 16 => word4 b (4 * i.val)), ores := word4 b 0x40, ores1 := word4 b 0x40, ores2 := word4 b 0x170,
    g := Vector.ofFn (fun i : Fin 7 => (fieldAt b 0x48 1).testBit i.val),
    ins := Vector.ofFn (fun i : Fin 4 => untoks8 b (0x90 + 32 * i.val) (bits cn (3 * i.val + 2) (3 * i.val))),
    outq := untoks8 b 0x110 (bits cn 14 12),
    slots := (List.range 8).filterMap (fun k => let n := fieldAt b (0x50 + 8 * k) 8; if n.testBit 56 then some (Slot.ofWord n p) else none),
    lfsr := word4 b 0x44, pr := BitVec.ofNat 2 (flags / 16), pl := Vector.ofFn (fun i : Fin 4 => flags.testBit i.val),
    lanes := (List.range 4).flatMap (fun n =>
      let v := fieldAt b (0x130 + 16 * n) 8
      let m := fieldAt b (0x138 + 16 * n) 8
      (List.range 64).filterMap (fun k => if m.testBit k then some ⟨n, k + 1, v.testBit k⟩ else none)) }

/-! ## Memory nodes (R335) -/

def NodeSlotKind.code : NodeSlotKind → Nat | .value => 1 | .strel => 2 | .mfence => 3 | .give => 4
def NodeSlotKind.ofCode (k : Nat) : NodeSlotKind := match k with | 1 => .value | 2 => .strel | 3 => .mfence | _ => .give

def NodeSlot.bytes (sl : NodeSlot) (p : Page) : List Byte :=
  block 16 [(0, toBytes 4 (sl.value.getD 0).toNat), (4, toBytes 1 sl.kind.code),
    (5, toBytes 1 (sl.dq + boolBit sl.out 2 + boolBit (p.slotLive sl.its sl.live) 3 + nextStage sl.its p.counter * 16 + 128)),
    (6, toBytes 2 sl.dist), (8, toBytes 1 (match sl.kind with | .give => sl.range | _ => 0))]

def NodeSlot.parse (b : List Byte) (p : Page) : NodeSlot :=
  let f := fieldAt b 5 1
  let (its, live) := restoredIts (bits f 6 4) (f.testBit 3) p
  { kind := NodeSlotKind.ofCode (fieldAt b 4 1), value := some (word4 b 0), dq := bits f 1 0, out := f.testBit 2, live := live,
    its := its, dist := fieldAt b 6 2, range := bits (fieldAt b 8 1) 2 0, ident := 0 }

def counts3 (v : Vector TokQ 4) : Nat := ((List.range 4).map (fun k => (qAt v k).toks.length * 8 ^ k)).sum

def MNode.bytes (m : MNode) (p : Page) : List Byte :=
  block 0x400 ([(0, toBytes 4 m.mores.toNat), (4, toBytes 1 ((List.range 8).map (fun i => boolBit ((m.held[i]?).getD false) i)).sum),
    (8, toBytes 2 (counts3 m.mi)), (0xA, toBytes 2 (counts3 m.mo))] ++
    (List.range 4).map (fun n => (0x10 + 32 * n, toks8 (qAt m.mi n))) ++ (List.range 4).map (fun n => (0x90 + 32 * n, toks8 (qAt m.mo n))) ++
    [(0x200, m.slots.flatMap (fun sl => sl.bytes p))])

def MNode.parse (b : List Byte) (p : Page) (stamp : Nat) : MNode :=
  let ci := fieldAt b 8 2
  let co := fieldAt b 0xA 2
  { MNode.load with
    mores := word4 b 0
    held := Vector.ofFn (fun i : Fin 8 => (fieldAt b 4 1).testBit i.val)
    mi := Vector.ofFn (fun i : Fin 4 => untoks8 b (0x10 + 32 * i.val) (ci / 8 ^ i.val % 8))
    mo := Vector.ofFn (fun i : Fin 4 => untoks8 b (0x90 + 32 * i.val) (co / 8 ^ i.val % 8))
    slots := (List.range 16).filterMap (fun k =>
      let d := subBytes b (0x200 + 16 * k) 16
      if (fieldAt d 5 1).testBit 7 then some (NodeSlot.parse d p) else none)
    acqStamp := stamp }

/-! ## Matrix nodes (R337) -/

def XSlotKind.code : XSlotKind → Nat
  | .row => 1 | .rows => 2 | .acc => 3 | .drn => 4 | .cfg => 5 | .ldb => 6 | .clr => 7 | .swb => 8 | .stat => 9
def XSlotKind.ofCode (k : Nat) : XSlotKind :=
  match k with
  | 1 => .row | 2 => .rows | 3 => .acc | 4 => .drn | 5 => .cfg | 6 => .ldb | 7 => .clr | 8 => .swb | _ => .stat

def XSlot.bytes (sl : XSlot) (p : Page) : List Byte :=
  block 0x820 [(0, toBytes 1 sl.kind.code), (1, toBytes 1 sl.tag),
    (2, toBytes 1 (boolBit (p.slotLive sl.its sl.live) 0 + 2 + nextStage sl.its p.counter * 4 + boolBit sl.cancel 5 + boolBit sl.ovfg 6)),
    (3, toBytes 1 sl.dist), (4, toBytes 1 sl.ng), (5, toBytes 1 sl.fmt), (6, toBytes 1 sl.buf), (8, toBytes 2 sl.spbase), (0x20, words4 sl.vals)]

def XSlot.parse (b : List Byte) (p : Page) : XSlot :=
  let f := fieldAt b 2 1
  let kind := XSlotKind.ofCode (fieldAt b 0 1)
  let ng := fieldAt b 4 1
  let (its, live) := restoredIts (bits f 4 2) (f.testBit 0) p
  let n := match kind with | .row | .rows => 64 * ng | .acc | .drn => 64 | .stat => 1 | _ => 0
  { kind := kind, tag := fieldAt b 1 1, vals := (List.range n).map (fun k => word4 b (0x20 + 4 * k)), ng := ng,
    fmt := fieldAt b 5 1, buf := fieldAt b 6 1, spbase := fieldAt b 8 2, cancel := f.testBit 5, ovfg := f.testBit 6, live := live,
    its := its, dist := fieldAt b 3 1 }

def Row.bytes (r : Row) : List Byte := block 80 [(0, r.data.take 64), (64, toBytes 4 r.scale.toNat), (68, [r.tag])]
def Row.parse (b : List Byte) : Row := ⟨subBytes b 0 64, word4 b 64, (b[68]?).getD 0⟩

def XNode.bytes (n : XNode) (p : Page) : List Byte :=
  let rows (q : RowQ) : List Byte := q.rows.flatMap (fun r => r.row.bytes)
  block 0x17F00 [(0, toBytes 1 (n.cfmt % 8 + n.active * 8)), (1, toBytes 1 (boolBit n.ldb.busy 0 + n.ldb.buf * 2)), (2, toBytes 1 n.ldb.mfmt),
    (4, toBytes 2 n.ldb.spbase), (6, toBytes 1 n.ldb.taken), (8, toBytes 4 n.stat.toNat),
    (12, toBytes 1 (n.a0.rows.length + 8 * n.a1.rows.length)), (13, toBytes 1 n.b.rows.length), (14, toBytes 1 n.c.toks.length),
    (15, toBytes 1 (n.drains.length + 4 * (match n.drains with | d :: _ => d.next | [] => 0))), (16, toBytes 1 n.s.toks.length),
    (24, n.s.toks.flatMap tok5), (0x100, rows n.a0), (0x240, rows n.a1), (0x380, rows n.b), (0x500, toks8 n.c),
    (0x900, n.drains.flatMap (fun d => words4 d.vals)), (0xB00, n.slots.flatMap (fun sl => sl.bytes p)),
    (0x4C00, (List.range 4608).map (n.bbuf.get 0)), (0x5E00, (List.range 4608).map (fun j => n.bbuf.get 0 (4608 + j))),
    (0x7000, (List.range 2048).map (n.routing.get 0)), (0x7F00, (List.range 16384).flatMap (fun k => toBytes 4 (n.acc.get 0 k).toNat))]

def XNode.parse (b : List Byte) (p : Page) : XNode :=
  let rows (off n : Nat) : RowQ := ⟨(List.range n).map (fun k => ⟨Row.parse (subBytes b (off + 80 * k) 80), 0⟩), 0⟩
  let f0 := fieldAt b 0 1
  let f1 := fieldAt b 1 1
  let st := fieldAt b 8 4
  let dr := fieldAt b 15 1
  let slots := (List.range 8).filterMap (fun k =>
    let d := subBytes b (0xB00 + 0x820 * k) 0x820
    if (fieldAt d 2 1).testBit 1 then some (XSlot.parse d p) else none)
  -- an MXLDB slot that was live at its issue, which at the capture point it still is, has the load that has not begun (R195)
  let unbegun := (List.range 8).any (fun k => fieldAt b (0xB00 + 0x820 * k) 1 == XSlotKind.ldb.code && (fieldAt b (0xB02 + 0x820 * k) 1) % 4 == 3)
  let tab (off n : Nat) : Tab Byte := ((List.range n).map (fun j => (j, (b[off + j]?).getD 0))).filter (fun e => e.2 != 0)
  { acc := ((List.range 16384).map (fun k => (k, word4 b (0x7F00 + 4 * k)))).filter (fun e => e.2 != 0), bbuf := tab 0x4C00 9216,
    routing := tab 0x7000 2048, active := bits f0 3 3, cfmt := bits f0 2 0,
    ldb := ⟨f1.testBit 0, f1.testBit 0 && !unbegun, bits f1 1 1, fieldAt b 2 1, fieldAt b 4 2, fieldAt b 6 1⟩,
    a0 := rows 0x100 (bits (fieldAt b 12 1) 2 0), a1 := rows 0x240 (bits (fieldAt b 12 1) 5 3), b := rows 0x380 (fieldAt b 13 1),
    c := untoks8 b 0x500 (fieldAt b 14 1),
    drains := (List.range (bits dr 1 0)).map (fun k => ⟨(List.range 64).map (fun j => word4 b (0x900 + 256 * k + 4 * j)), if k = 0 then bits dr 7 2 else 0⟩),
    drainFreed := 0, s := ⟨(List.range (fieldAt b 16 1)).map (fun k => untok5 b (24 + 5 * k)), 0⟩, slots := slots,
    discard := st.testBit 8, nan := st.testBit 9, ovf := st.testBit 10, unused := st.testBit 11 }

/-! ## Stream channels (R336) -/

def Reply.bytes (r : Reply) : List Byte := block 72 [(0, r.data.take 64), (64, toBytes 4 r.scale.toNat), (68, [r.tag])]

/-- NEXTIDX: the ordinal of the next index to take. A STBINDI binding takes an index token away with the last element that uses it,
so that between two elements of one index its ordinal is that index's own (R218, R336; log 16). -/
def Binding.ordinal (b : Binding) : Nat :=
  let n := b.cursor + b.replies.length
  if !b.shape.indir then 0 else if b.kind = .indexed then n / b.shape.below else (n + b.shape.below - 1) / b.shape.below

def Chan.bytes (k : Chan) (reads : Bool) : List Byte :=
  let c := k.cur.getD (Binding.fresh .plain 0 0 0 0 [] 0)
  let q := k.pend.getD (Binding.fresh .plain 0 0 0 0 [] 0)
  let late := match k.cur with | some b => b.late | none => k.late
  block (if reads then 0x1300 else 0x100)
    [(0, toBytes 1 (match k.cur with | none => 0 | some b => if b.moving then 2 else 1)),
     (1, toBytes 1 (boolBit k.pend.isSome 0 + boolBit late 1 + boolBit (c.kind == .indexed) 2 + boolBit (c.kind == .trigger) 3 +
       boolBit (q.kind == .indexed) 4 + boolBit (q.kind == .trigger) 5 + boolBit k.stopped 6)),
     (2, toBytes 2 c.seq), (4, toBytes 2 q.seq), (6, toBytes 2 c.start), (8, toBytes 2 q.start), (0xA, toBytes 1 c.iport),
     (0xB, toBytes 1 (if reads then c.replies.length else 0)), (0xC, toBytes 2 c.target), (0x10, toBytes 8 c.cursor), (0x18, toBytes 8 c.addBytes),
     (0x20, toBytes 8 c.ordinal), (0x28, toBytes 8 (match k.cur with | some b => b.moved | none => k.lastMoved)), (0x30, toBytes 1 c.port),
     (0x31, toBytes 1 q.port), (0x32, toBytes 1 q.iport), (0x34, toBytes 2 q.target), (0x36, toBytes 2 k.nextSeq), (0x38, toBytes 2 k.lastSeq),
     (0x40, c.record.take 64), (0x80, q.record.take 64), (0xC0, if reads then c.replies.flatMap Reply.bytes else [])]

def BindKind.ofBits (indexed trigger : Bool) : BindKind := if trigger then .trigger else if indexed then .indexed else .plain

/-- A channel as its block records it. Its next element takes its index again, from memory or from the index token that is still in
the port's queue (log 16); its reads begin anew at the stamp of the restore (R207). -/
def Chan.parse (b : List Byte) (stamp : Nat) : Chan :=
  let f := fieldAt b 1 1
  let st := fieldAt b 0 1
  let kind := BindKind.ofBits (f.testBit 2) (f.testBit 3)
  let record := subBytes b 0x40 64
  let sh := ShapeRec.of record
  let cursor := fieldAt b 0x10 8
  let nrep := fieldAt b 0xB 1
  let cur : Option Binding := if st = 0 then none else some
    { Binding.fresh kind (fieldAt b 6 2) (fieldAt b 0x30 1) (fieldAt b 0xA 1) (fieldAt b 0xC 2) (if kind = .trigger then [] else record) stamp with
      seq := fieldAt b 2 2, moving := st == 2, cursor := cursor, late := f.testBit 1
      nextIdx := if sh.indir then (cursor + nrep) / sh.below else 0
      moved := fieldAt b 0x28 8, addBytes := fieldAt b 0x18 8
      replies := (List.range nrep).map (fun i => ⟨subBytes b (0xC0 + 72 * i) 64, word4 b (0xC0 + 72 * i + 64), (b[0xC0 + 72 * i + 68]?).getD 0, 0⟩) }
  let pk := BindKind.ofBits (f.testBit 4) (f.testBit 5)
  let pend : Option Binding := if f.testBit 0 then some
      { Binding.fresh pk (fieldAt b 8 2) (fieldAt b 0x31 1) (fieldAt b 0x32 1) (fieldAt b 0x34 2) (if pk = .trigger then [] else subBytes b 0x80 64) stamp with
        seq := fieldAt b 4 2 }
    else none
  let nextSeq := fieldAt b 0x36 2
  { cur := cur, pend := pend, nextSeq := nextSeq, lastSeq := fieldAt b 0x38 2, lastMoved := if st = 0 then fieldAt b 0x28 8 else 0,
    ended := nextSeq != (if cur.isSome then 1 else 0) + (if pend.isSome then 1 else 0), late := f.testBit 1, stopped := f.testBit 6 }

/-! ## Region records (R331 to R333) -/

/-- The header fields of a region record that its page gives (R332). -/
structure RegHead where
  frz : Bool
  tack : Bool
  sreg : Nat
  cluster : Nat
  origin : Nat
  imgid : Nat
  combsec : Nat
  causes : Nat
  deriving DecidableEq, Repr

def portBytes (o : Port) : List Byte :=
  block 32 [(0, toBytes 1 o.q.toks.length), (1, toBytes 1 (boolBit o.tack 0)), (4, o.q.toks.flatMap tok5)]
def portParse (b : List Byte) : Port := ⟨⟨(List.range (fieldAt b 0 1)).map (fun k => untok5 b (4 + 5 * k)), 0⟩, (fieldAt b 1 1).testBit 0⟩

def regHead (h : RegHead) (p : Page) (r : Region) : List Byte :=
  block 0x100 [(0, [0x53, 0x56, 0x52, 0x47]), (4, toBytes 2 1),
    (6, toBytes 1 (boolBit h.frz 0 + boolBit (!r.xoff) 1 + boolBit p.gatesOpen 2 + boolBit p.retiring 3 + boolBit h.tack 4)),
    (7, toBytes 1 (p.w - 1 + 4 * (p.h - 1) + 16 * h.sreg)), (8, toBytes 4 (if r.xoff then 0x9100 else 0x21000)), (0xC, toBytes 1 p.handle),
    (0xD, toBytes 1 h.cluster), (0xE, toBytes 1 h.origin), (0xF, toBytes 1 p.ii), (0x10, toBytes 1 p.counter), (0x11, toBytes 1 p.base),
    (0x12, toBytes 1 p.depth), (0x13, toBytes 1 p.sm.toNat), (0x14, toBytes 1 p.lm.toNat), (0x15, toBytes 1 (boolBit p.exitF 0)),
    (0x16, toBytes 2 p.passes), (0x18, toBytes 4 p.trip), (0x1C, toBytes 4 p.nextIt), (0x20, toBytes 4 p.passIdx), (0x24, toBytes 4 p.exitIt),
    (0x28, toBytes 8 p.ptime), (0x30, toBytes 8 p.lastAln), (0x38, toBytes 8 p.unfrozen), (0x40, toBytes 8 h.imgid), (0x48, toBytes 2 h.combsec),
    (0x4A, toBytes 1 p.graph), (0x4C, toBytes 4 h.causes), (0x80, words4 r.k.toList)]

/-- The record of a region. -/
def regionBytes (h : RegHead) (p : Page) (r : Region) : List Byte :=
  let ports := (List.range 16).flatMap (fun n => portBytes (r.inp.get Port.load n)) ++ (List.range 16).flatMap (fun n => portBytes (r.outp.get Port.load n))
  regHead h p r ++ ports ++ (List.range 64).flatMap (fun u => (r.cells.get Cell.load u).bytes p) ++ r.mn.bytes p ++
  (List.range 4).flatMap (fun c => (r.se[c % 4]'(Nat.mod_lt _ (by decide))).bytes (chanReads c)) ++
  (if r.xoff then [] else r.xn.bytes p)

/-- The record of a region of a captured page. -/
def State.regionRecord (s : State) (rid : Nat) (tack : Bool) : List Byte :=
  let pid := s.pageOf rid
  let p := s.page pid
  let g := s.graphOf p.run p.graph
  let comb := match g.pages[p.index]? with | some e => e.comb | none => 0
  let h : RegHead :=
    { frz := p.frozen, tack := tack, sreg := s.sregOf rid, cluster := (s.cluster p.cluster).idx, origin := p.origin,
      imgid := g.digest.toNat % 2 ^ 64, combsec := comb, causes := (p.causes.map (fun c => 2 ^ c)).foldl (· ||| ·) 0 }
  regionBytes h p (s.region rid)

/-- The page as a record's header gives its loop unit; the placement stays the target's. -/
def pageParse (b : List Byte) (p : Page) : Page :=
  let f := fieldAt b 6 1
  { p with
    ii := fieldAt b 0xF 1, counter := fieldAt b 0x10 1, base := fieldAt b 0x11 1, depth := fieldAt b 0x12 1
    sm := BitVec.ofNat 8 (fieldAt b 0x13 1), lm := BitVec.ofNat 8 (fieldAt b 0x14 1), exitF := (fieldAt b 0x15 1).testBit 0
    passes := fieldAt b 0x16 2, trip := fieldAt b 0x18 4, nextIt := fieldAt b 0x1C 4, passIdx := fieldAt b 0x20 4, exitIt := fieldAt b 0x24 4
    ptime := fieldAt b 0x28 8, lastAln := fieldAt b 0x30 8, unfrozen := fieldAt b 0x38 8, retiring := f.testBit 3, opened := f.testBit 2
    level := if f.testBit 3 then 5 else if f.testBit 2 then 4 else 3 }

/-- The region as a record gives it, on the configuration that its image gave. -/
def regionParse (b : List Byte) (p : Page) (r : Region) (stamp : Nat) : Region :=
  let se (c : Nat) : Nat := if c = 0 then 0x6900 else if c = 1 then 0x7C00 else if c = 2 then 0x7D00 else 0x9000
  -- what a page port feeds comes on on frozen cycles too, after a restore as before it (R73; log 11)
  let fed (idx : Nat) : Bool := let src := r.routes.get 0xFFFF idx % 4096; decide (0x40 ≤ src) && decide (src < 0x50)
  let across (idx : Nat) (q : TokQ) : TokQ := if fed idx then { q with toks := q.toks.map (fun t => { t with wall := true }) } else q
  let cell (u : Nat) : Cell := let c := Cell.parse (subBytes b (0x500 + 0x180 * u) 0x180) p; { c with ins := Vector.ofFn (fun n : Fin 4 => across (4 * u + n.val) c.ins[n]) }
  let mn := MNode.parse (subBytes b 0x6500 0x400) p stamp
  { r with
    k := Vector.ofFn (fun i : Fin 16 => word4 b (0x80 + 4 * i.val))
    inp := (List.range 16).map (fun n => (n, portParse (subBytes b (0x100 + 32 * n) 32)))
    outp := (List.range 16).map (fun n => (n, portParse (subBytes b (0x300 + 32 * n) 32)))
    cells := (List.range 64).map (fun u => (u, cell u))
    mn := { mn with mi := Vector.ofFn (fun n : Fin 4 => across (272 + n.val) mn.mi[n]) }
    se := Vector.ofFn (fun i : Fin 4 => Chan.parse (subBytes b (se i.val) (if chanReads i.val then 0x1300 else 0x100)) stamp)
    xn := if r.xoff then r.xn else XNode.parse (subBytes b 0x9100 0x17F00) p }

/-- The header fields that are the record's own. -/
def headParse (b : List Byte) : RegHead :=
  { frz := (fieldAt b 6 1).testBit 0, tack := (fieldAt b 6 1).testBit 4, sreg := fieldAt b 7 1 / 16, cluster := fieldAt b 0xD 1,
    origin := fieldAt b 0xE 1, imgid := fieldAt b 0x40 8, combsec := fieldAt b 0x48 2, causes := fieldAt b 0x4C 4 }

/-- Why a record may not be loaded onto region `sreg` of a page, by the codes of R362: 1 magic or version, 2 size, 3 comb or span,
4 a byte that should be zero. -/
def State.recordBad (s : State) (b : List Byte) (pid sreg : Nat) (r : Region) : Option Nat :=
  let p := s.page pid
  let g := s.graphOf p.run p.graph
  let comb := match g.pages[p.index]? with | some e => e.comb | none => 0
  let h := headParse b
  if subBytes b 0 4 ≠ [0x53, 0x56, 0x52, 0x47] ∨ fieldAt b 4 2 ≠ 1 then some 1
  else if fieldAt b 8 4 ≠ (if r.xoff then 0x9100 else 0x21000) ∨ b.length ≠ fieldAt b 8 4 then some 2
  else if h.imgid ≠ g.digest.toNat % 2 ^ 64 ∨ h.combsec ≠ comb ∨ fieldAt b 7 1 ≠ p.w - 1 + 4 * (p.h - 1) + 16 * sreg ∨
      (fieldAt b 6 1).testBit 1 ≠ !r.xoff then some 3
  else
    let q := { pageParse b p with handle := fieldAt b 0xC 1, graph := fieldAt b 0x4A 1 }
    if (regionBytes h q (regionParse b q r 0)).length = b.length ∧
        !((b.zip (regionBytes h q (regionParse b q r 0))).any (fun e => e.1 != e.2 && e.2 == 0)) then none else some 4

/-! ## Cluster records (R342, R343) -/

/-- The KIND, instruction word, operands and handle of a command entry. -/
def Cmd.entry (m : Cmd) : List Byte :=
  block 320 [(0, [2]), (4, toBytes 4 m.word.toNat), (8, toBytes 8 m.rs1.toNat), (16, toBytes 8 m.rs2.toNat)]

/-- A copy that has not begun; `slot` and its generation make its handle. -/
def Copy.entryBytes (k : Copy) (slot : Nat) : List Byte :=
  block 320 [(0, [1, if k.src.isSome then 1 else 0]), (4, toBytes 4 k.insn.toNat), (8, toBytes 8 k.va), (16, toBytes 8 k.rs2.toNat), (24, toBytes 2 (copyHandle slot k.gen)), (0x40, k.card.take 128),
    (0xC0, (k.src.getD []).take 64), (0x100, (k.dst.getD []).take 64)]

/-- Insert an entry in acceptance order. -/
def insertEntry (e : Nat × List Byte) : List (Nat × List Byte) → List (Nat × List Byte)
  | [] => [e]
  | h :: t => if e.1 ≤ h.1 then e :: h :: t else h :: insertEntry e t

/-- The command entries of a cluster: accepted commands and the run's copies that have not begun, in acceptance order (R343). -/
def Cluster.entries (k : Cluster) : List (List Byte) :=
  let l := k.cmds.map (fun m => (m.ident, m.entry)) ++ (k.copies.filter (fun e => e.2.state == 1 && !e.2.ofPacket)).map (fun e => (e.2.entry, e.2.entryBytes e.1))
  (l.foldr insertEntry []).map Prod.snd

def Cluster.record (k : Cluster) : List Byte :=
  let ents := k.entries
  let c := k.ctl
  let size := 0x7000 + 320 * ents.length
  block size ([(0, [0x53, 0x56, 0x43, 0x43]), (4, toBytes 2 1), (6, toBytes 2 k.idx), (8, toBytes 2 (boolBit c.waitWord 0 + boolBit (c.st == .halted) 1)),
    (0xA, toBytes 2 ents.length), (0xC, toBytes 4 size), (0x40, toBytes 8 c.pc.toNat),
    (0x48, (c.x.toList.drop 1).flatMap (fun v => toBytes 8 v.toNat)), (0x140, toBytes 8 c.cycle.toNat), (0x148, toBytes 8 c.instret.toNat),
    (0x180, if c.trap.cause = 0 then [] else c.trap.bytes), (0x200, (List.range 64).flatMap (fun n => toBytes 8 (k.sems.get 0 n).toNat)),
    (0x400, (List.range 256).flatMap (fun n =>
      let h := k.handlers.get Handler.reset n
      block 16 [(0, toBytes 8 (handlerWord h (k.pending.get false n)).toNat), (8, toBytes 4 h.widx)])),
    (0x1400, toBytes 32 ((List.range 256).map (fun n => boolBit (k.pending.get false n) n)).sum),
    (0x1420, k.park.flatMap (fun m => block 32 [(0, m.bytes)])),
    (0x1600, (List.range 16).flatMap (fun n => let q := k.tqs.get TrigQ.empty n; block 96 [(0, toBytes 1 q.toks.length), (8, q.toks.flatMap tok5)])),
    (0x1C00, (List.range 64).flatMap (fun n =>
      let t := k.templates.get Template.empty n
      block 320 [(0, toBytes 1 (boolBit t.loaded 0 + boolBit t.armed 1)), (1, toBytes 1 t.queue), (4, toBytes 4 t.fires), (0x40, t.card.take 128),
        (0xC0, t.src.take 64), (0x100, t.dst.take 64)])),
    (0x7000, ents.flatten)])

/-- The trap record in 64 bytes, read back (R348). -/
def TrapRec.parse (b : List Byte) : TrapRec :=
  { cause := (b[0]?).getD 0, flags := (b[1]?).getD 0, cluster := BitVec.ofNat 16 (fieldAt b 2 2), insn := word4 b 4,
    pc := BitVec.ofNat 64 (fieldAt b 8 8), addr := BitVec.ofNat 64 (fieldAt b 16 8), info := BitVec.ofNat 64 (fieldAt b 24 8),
    tick := BitVec.ofNat 64 (fieldAt b 32 8), runt := BitVec.ofNat 64 (fieldAt b 40 8), msg := subBytes b 48 16 }

def handlerParse (b : List Byte) : Handler :=
  let n := fieldAt b 0 8
  ⟨bits n 23 0, bits n 27 24, n.testBit 28, n.testBit 29, bits n 51 39, fieldAt b 8 4, bits n 37 32, n.testBit 38⟩

def parkParse (b : List Byte) : ParkMsg := ⟨BitVec.ofNat 64 (fieldAt b 0 8), fieldAt b 8 1, fieldAt b 9 1 != 0, fieldAt b 10 1, fieldAt b 11 2⟩

/-- The park buffer, oldest first, of which a record gives no count. Where the firmware has kept none either: the messages up to the last with a bit that is set, and one more
that has none where tag 0 is pending and no other parked message has it (log 79). -/
def parkedIn (l : List (List Byte)) (pending0 : Bool) : List ParkMsg :=
  let ms := ((l.reverse.dropWhile (fun d => d.all (· == 0))).reverse).map parkParse
  if pending0 ∧ !ms.any (fun m => m.tag == 0) then ms ++ [parkParse []] else ms

/-- A cluster's units as its record gives them, but for its command entries; a controller that had not halted runs on (R342). -/
def Cluster.parse (b : List Byte) (k : Cluster) (program : Bool) : Cluster :=
  let f := fieldAt b 8 2
  { k with
    ctl := { Ctl.reset with
      st := if !program then .off else if f.testBit 1 then .halted else .running
      pc := BitVec.ofNat 64 (fieldAt b 0x40 8)
      x := Vector.ofFn (fun i : Fin 32 => if i.val = 0 then 0 else BitVec.ofNat 64 (fieldAt b (0x40 + 8 * i.val) 8))
      cycle := BitVec.ofNat 64 (fieldAt b 0x140 8), instret := BitVec.ofNat 64 (fieldAt b 0x148 8)
      exitv := k.ctl.exitv, trap := TrapRec.parse (subBytes b 0x180 64) }
    sems := (List.range 64).map (fun n => (n, BitVec.ofNat 64 (fieldAt b (0x200 + 8 * n) 8)))
    handlers := (List.range 256).map (fun n => (n, handlerParse (subBytes b (0x400 + 16 * n) 16)))
    pending := (List.range 256).map (fun n => (n, (fieldAt b 0x1400 32).testBit n))
    park := parkedIn ((List.range 8).map (fun n => subBytes b (0x1420 + 32 * n) 32)) ((fieldAt b 0x1400 32).testBit 0)
    tqs := (List.range 16).map (fun n =>
      let o := 0x1600 + 96 * n
      (n, ⟨(List.range (fieldAt b o 1)).map (fun i => untok5 b (o + 8 + 5 * i)), 0⟩))
    templates := (List.range 64).map (fun n =>
      let o := 0x1C00 + 320 * n
      (n, ⟨(fieldAt b o 1).testBit 0, (fieldAt b o 1).testBit 1, fieldAt b (o + 1) 1, fieldAt b (o + 4) 4, subBytes b (o + 0x40) 128,
        subBytes b (o + 0xC0) 64, subBytes b (o + 0x100) 64⟩)) }

/-! ## Edge and channel records (R345); the order of their fields is the model's (log 17) -/

def Edge.bytes (e : Edge) (idx cidx : Nat) : List Byte :=
  block 64 [(0, [0x53, 0x56, 0x45, 0x44]), (4, toBytes 2 1), (6, toBytes 2 64), (8, toBytes 2 e.ppage), (0xA, toBytes 2 e.cpage), (0xC, toBytes 2 idx),
    (0xE, toBytes 2 (boolBit e.freed 0 + boolBit e.carved 1)), (0x10, toBytes 4 e.off), (0x14, toBytes 4 e.depth), (0x18, toBytes 4 e.head),
    (0x1C, toBytes 4 e.count), (0x20, toBytes 2 cidx)]

def XChan.bytes (c : XChan) (h : Nat) : List Byte :=
  let size := 64 + 8 * c.toks.length
  block size [(0, [0x53, 0x56, 0x43, 0x48]), (4, toBytes 2 1), (6, toBytes 2 h), (8, toBytes 4 size), (0xC, toBytes 1 (c.sendSt + 16 * c.recvSt)),
    (0xD, toBytes 1 (boolBit c.elastic 0 + boolBit c.eos 1 + boolBit c.lateOpen 2 + boolBit c.fault 3)), (0xE, toBytes 2 c.credits), (0x10, toBytes 2 c.toks.length), (0x12, toBytes 1 c.margin),
    (64, c.toks.flatMap (fun t => toBytes 8 t.tok.bits))]

/-! ## The capture of a page (R326 to R328, R340, R360) -/

/-- Whether an input port of a page holds a tack, or counts as holding one (R340). -/
def State.portTacked (s : State) (pid code : Nat) : Bool :=
  let p := s.page pid
  let gone (h : Nat) (left : Bool) : Bool := let q := s.page (pidOf p.run h); left && (decide (6 ≤ q.level))
  (s.inp (p.region (code / 32)) (code % 32)).tack ||
  (match s.portConn pid code with
   | .edge e => let x := s.edge p.run e; x.freed || gone x.ppage (x.count == 0)
   | .chan h => let c := s.chanOf p.run h; c.freed || gone c.ppage (c.toks.isEmpty && c.flight.isEmpty)
   | _ => false)

def State.inPorts (s : State) (pid : Nat) : List Nat :=
  let p := s.page pid
  (List.range (p.w * p.h)).flatMap (fun i => ((List.range 16).filter (s.region (p.region i)).inmask.testBit).map (· + 32 * i))

/-- Whether a request to capture a page waits: an SVSAVE, or a capture of its run. In a tack capture a page with open gates that
is not retiring waits until its inputs hold tacks (R326, R340). -/
def State.captureWanted (s : State) (pid : Nat) : Bool :=
  let p := s.page pid
  !p.captured && decide (3 ≤ p.level) && decide (p.level ≤ 5) &&
  (p.svReq.isSome || (p.capReq && (!(s.run p.run).tack || p.level != 4 || (s.inPorts pid).all (s.portTacked pid))))

/-- Whether the start of this cycle is a capture point of a page: it is frozen, or its counter is 0, or its gates are not open,
or it is retiring (R326). -/
def Page.capturePoint (p : Page) : Bool := p.frozen || p.counter == 0 || p.level != 4

/-- Whether a port is the end of a channel. -/
def State.chanPort (s : State) (pid code : Nat) : Bool := match s.portConn pid code with | .chan _ => true | _ => false

/-- A page is latched at its capture point: its buffers are written through, and in a tack capture its outputs take tacks. -/
def State.latchPage (s : State) (pid : Nat) : State :=
  let p := s.page pid
  let t := if p.svClosed then p.ptime else if p.level = 3 then 0 else (s.pageTime pid).toNat
  let tack := (s.run p.run).tack && p.svReq.isNone
  let s := s.setPage pid { p with captured := true, ptime := t }
  let s := if tack then s.chanTacks pid else s
  (s.regionsOf pid).foldl (fun s rid =>
    let r := s.region rid
    let outp := if tack then (List.range 16).map (fun n => let o := r.outp.get Port.load n; (n, { o with tack := o.tack || (r.outmask.testBit n && !s.chanPort pid (16 + n + 32 * s.sregOf rid)) })) else r.outp
    s.setRegion rid { r with mn := r.mn.flush, outp := outp }) s

/-- Whether everything that a captured page had begun is done (R327). -/
def State.captureQuiet (s : State) (pid : Nat) : Bool :=
  (s.regionsOf pid).all fun rid =>
    let m := s.mn rid
    m.near.isEmpty && m.far.isEmpty && m.coal.isEmpty &&
    [0, 1, 2, 3].all (fun ch => match (s.chan rid ch).cur with
      | some b => (chanReads ch || b.replies.isEmpty) && !b.complete (chanReads ch)
      | none => true)

/-- Write the records of a page for SVSAVE, in SREG order. -/
def State.writeRecords (s : State) (tenant va : Nat) : List Nat → Except AccErr State
  | [] => .ok s
  | rid :: t =>
    let b := s.regionRecord rid false
    match s.tenantWrite tenant va b with
    | .error e => .error e
    | .ok s => s.writeRecords tenant (va + b.length) t

/-- The bindings of a page are removed without an add. -/
def State.dropBindings (s : State) (pid : Nat) : State :=
  (s.regionsOf pid).foldl (fun s rid => (List.range 4).foldl (fun s ch =>
    let k := s.chan rid ch
    let s := match k.cur with | some b => s.schedLeave (regionCluster rid) b.entry | none => s
    s.setChan rid ch { k with cur := none, pend := none }) s) s

/-- The status that SVSTAT gives a page of a command that has ended, unless a later one of that page waits, whose status it keeps (R362). -/
def State.setSv (s : State) (pid ident : Nat) (v : SvStat) : State :=
  let p := s.page pid
  let later := (s.run p.run).clusters.any (fun c => (s.cluster c).cmds.any (fun m =>
    (match m.instr with | .svsave _ _ _ => true | .svload _ _ _ => true | _ => false) && bits m.rs1.toNat 7 0 == p.handle && decide (ident < m.ident)))
  if later then s else s.setPage pid { p with sv := v }

/-- A command has taken effect: it leaves its queue. -/
def State.dropCmd (s : State) (run ident : Nat) : State :=
  (s.run run).clusters.foldl (fun s c => let k := s.cluster c; s.setCluster c { k with cmds := k.cmds.filter (fun m => m.ident != ident) }) s

/-- The SVSAVE that a page is captured for is done: the page stays placed with its gates closed and its bindings removed (R360). -/
def State.saveDone (s : State) (pid va ident : Nat) : State :=
  let p := s.page pid
  match s.writeRecords (s.run p.run).tenant va (s.regionsOf pid) with
  | .error e => s.raise p.run { ErrRec.of e.cause (s.die p.die).tick with page := p.handle, cluster := (s.cluster p.cluster).idx, addr := e.addr }
  | .ok s =>
    let s := s.dropBindings pid
    let s := s.setPage pid { s.page pid with
      level := 3, svClosed := true, opened := false, captured := false, gated := false, svReq := none, frozen := false, causes := [] }
    (s.setSv pid ident ⟨2, false, 0⟩).dropCmd p.run ident

/-- REGION_CAPTURE: a page with a capture request is latched at its capture point; once what it had begun is done, an SVSAVE
writes its records. A capture of the run writes them all together (R344). -/
def regionCapture (s : State) : State :=
  let pid := s.focus.page
  let p := s.page pid
  if p.captured then
    match p.svReq with
    | some (va, ident) => if s.captureQuiet pid then s.saveDone pid va ident else s
    | none => s
  else if s.captureWanted pid ∧ p.capturePoint then s.latchPage pid
  else s

def execRegionCapture (s : State) : Ans := .next (regionCapture s)

end Sys2Proof.Machine
end

