-- ==== Sys2Proof/Machine/Commands.lean ====
section
/-! DEFINITION. The fabric command queue of a cluster (R205, R206, R291 to R298, R357, R360 to R362): acceptance of the
configuration commands against the state that the queue will have produced, and their effects in order. -/
namespace Sys2Proof.Machine

/-! ## What the earlier commands of the queue will have produced (R205, R292) -/

/-- An accepted GRLOAD of the queue has not taken effect. -/
def Cluster.loadPending (k : Cluster) : Bool := k.cmds.any (fun m => match m.instr with | .grload _ _ _ => true | _ => false)

/-- An accepted PGPLACE of the queue enters this wave. -/
def Cluster.entersWave (k : Cluster) (gh w : Nat) : Bool :=
  k.cmds.any (fun m => match m.instr with | .pgplace _ _ => m.graph == gh && bits m.rs1.toNat 7 0 == w | _ => false)

/-- Whether some earlier effect has entered a page's wave. -/
def State.entered (s : State) (c pid : Nat) : Bool :=
  let p := s.page pid
  decide (1 ≤ p.level) || (s.cluster c).entersWave p.graph p.wave

/-- The followers that SEAMSET names (R298). -/
def seamFollowers (v : Nat) : List (Nat × Nat) :=
  (List.range 3).filterMap (fun f => let x := bits v (20 * f + 19) (20 * f); if x.testBit 17 then some (bits x 7 0, bits x 16 8) else none)

/-- The multicasts of a run once a SEAMSET has taken effect (R298). -/
def seamsWith (l : List Seam) (v1 v2 : W64) : List Seam :=
  let lead := (bits v1.toNat 7 0, bits v1.toNat 16 8)
  let fol := seamFollowers v2.toNat
  l.filter (fun m => m.lead != lead) ++ (if fol.isEmpty then [] else [⟨lead, fol⟩])

/-- The multicasts of a cluster's run after its queue's accepted commands. -/
def State.seamsAfter (s : State) (c : Nat) : List Seam :=
  (s.cluster c).cmds.foldl (fun l m => match m.instr with | .seamset _ _ _ => seamsWith l m.rs1 m.rs2 | _ => l) (s.run (s.runOf c)).seams

/-- Whether a page's gates are open or will be opened, and whether an SVSAVE or SVLOAD leaves them closed, after the queue's
accepted commands. -/
def gateView (h : Nat) : List Cmd → Bool × Bool → Bool × Bool
  | [], v => v
  | m :: t, (o, sv) =>
    gateView h t (if bits m.rs1.toNat 7 0 = h then
      (match m.instr with | .gateopen _ _ => (true, false) | .svsave _ _ _ => (false, true) | .svload _ _ _ => (false, true) | _ => (o, sv))
      else (o, sv))

/-- The gates of a page, closed for a command of R297: closed, and with a port declared `shape=none` or closed by SVSAVE or
SVLOAD. -/
def State.closedFor (s : State) (c pid : Nat) : Bool :=
  let p := s.page pid
  let (o, sv) := gateView p.handle (s.cluster c).cmds (decide (4 ≤ p.level) || p.gated, p.svClosed)
  !o && (p.held || sv)

/-! ## Effects (R293 to R298, R360, R361) -/

/-- PGFREE takes effect (R295). -/
def State.freePage (s : State) (pid : Nat) : State :=
  let p := s.page pid
  if 5 ≤ p.level then s
  else
    let s := s.setPage pid { p with freeReq := true, gated := false }
    if p.level = 4 then s else s.retirePage pid

/-- PGCONST takes effect (R297). -/
def State.setConst (s : State) (pid : Nat) (v1 v2 : W64) : State :=
  let p := s.page pid
  let n := v1.toNat
  ((List.range (p.w * p.h)).filter (fun i => n.testBit 16 || i == bits n 15 12)).foldl (fun s i =>
    let r := s.region (p.region i)
    s.setRegion (p.region i) { r with k := r.k.set (bits n 11 8 % 16) (v2.truncate 32) (Nat.mod_lt _ (by decide)) }) s

def State.setSeam (s : State) (run : Nat) (v1 v2 : W64) : State :=
  let r := s.run run
  s.setRun run { r with seams := seamsWith r.seams v1 v2 }

/-- Load the records of a page, region by region; `none` once each has been found good (R338, R361). -/
def State.recordsBad (s : State) (pid : Nat) : List Nat → List Byte → Option Nat
  | [], _ => none
  | i :: t, b =>
    let r := s.region ((s.page pid).region i)
    let n := if r.xoff then 0x9100 else 0x21000
    match s.recordBad (b.take n) pid i r with
    | some c => some c
    | none => s.recordsBad pid t (b.drop n)

/-- A restored region has no tacks (R339). -/
def Region.untacked (r : Region) : Region :=
  let off (t : Tab Port) : Tab Port := t.map (fun e => (e.1, { e.2 with tack := false }))
  { r with inp := off r.inp, outp := off r.outp }

/-- A page takes the state of its records; a pending binding without a current one becomes current (R327, R339). -/
def State.loadRecords (s : State) (pid : Nat) : List Nat → List Byte → State
  | [], _ => s
  | i :: t, b =>
    let rid := (s.page pid).region i
    let r := s.region rid
    let n := if r.xoff then 0x9100 else 0x21000
    let s := s.setPage pid (pageParse b (s.page pid))
    let s := s.setRegion rid (regionParse (b.take n) (s.page pid) r s.seq).untacked
    let s := (List.range 4).foldl (fun s ch =>
      let k := s.chan rid ch
      match k.cur, k.pend with
      | some x, p => let s := s.makeCurrent rid ch x; s.setChan rid ch { s.chan rid ch with pend := p }
      | none, some x => (s.setChan rid ch { k with pend := none }).makeCurrent rid ch x
      | none, none => s) s
    State.loadRecords { s with seq := s.seq + 1 } pid t (b.drop n)

/-- SVLOAD takes effect (R361). -/
def State.svloadEffect (s : State) (c pid va ident : Nat) : State :=
  let p := s.page pid
  let n := p.w * p.h * (if (s.region (p.region 0)).xoff then 0x9100 else 0x21000)
  match s.tenantRead (s.tenantOf c) va n with
  | .error e => s.raiseCluster e.cause c 0 e.addr
  | .ok b =>
    let bound := p.regions.any (fun rid => (List.range 4).any (fun ch => (s.chan rid ch).cur.isSome || (s.chan rid ch).pend.isSome))
    match s.recordsBad pid (List.range (p.w * p.h)) b with
    | some e => s.setSv pid ident ⟨3, true, e⟩
    | none =>
      if bound then s.setSv pid ident ⟨3, true, 5⟩
      else
        let s := s.loadRecords pid (List.range (p.w * p.h)) b
        (s.setPage pid { s.page pid with level := 3, svClosed := true, opened := false, gated := false }).setSv pid ident ⟨2, true, 0⟩

/-! ## The bindings that a queue will have left (R205, R206, R221) -/

def hasSeq (b : Option Binding) (seq : Nat) : Bool := match b with | some b => b.seq == seq | none => false

/-- A channel after a STSTOP of a SEQ: a pending binding is removed, a current one ends, or is ending (R221). -/
def Chan.afterStop (k : Chan) (reads : Bool) (seq : Nat) : Chan :=
  if hasSeq k.pend seq then { k with pend := none }
  else match k.cur with
    | some b =>
      let b' := b.halt reads
      if b.seq ≠ seq then k else if b'.complete reads then { k.finish b' with cur := k.pend } else { k with cur := some b' }
    | none => k

/-- STSTOP of a SEQ takes effect (R221, R236). -/
def State.stopBinding (s : State) (rid ch seq : Nat) : State :=
  let k := s.chan rid ch
  if hasSeq k.pend seq then s.setChan rid ch { k with pend := none }
  else match k.cur with
    | some b =>
      let b' := b.halt (chanReads ch)
      let s' := s.setChan rid ch { k with cur := some b' }
      if b.seq ≠ seq then s else if b'.complete (chanReads ch) then s'.endBinding rid ch else s'
    | none => s

/-- The region and channel that a handle names; a retired page's channel can still be asked for its last binding (R236; log 19). -/
def State.handleChan (s : State) (c : Nat) (v : W64) : Option (Nat × Nat) :=
  let p := s.page (pidOf (s.runOf c) (bits v.toNat 7 0))
  let sreg := bits v.toNat 16 13
  if p.run = s.runOf c ∧ 3 ≤ p.level ∧ p.cluster = c ∧ sreg < p.w * p.h then
    some (p.region sreg, 2 * bits v.toNat 17 17 + bits v.toNat 18 18)
  else none

/-- The channels of a page, by SREG and channel, once a command of its cluster's queue has taken effect: for an SVLOAD by the records
that are now in memory (log 99). -/
def State.chansWith (s : State) (c pid : Nat) (k : Nat → Nat → Chan) (m : Cmd) : Nat → Nat → Chan :=
  let p := s.page pid
  let named := bits m.rs1.toNat 7 0 == p.handle
  let at' (i j : Nat) (f : Chan → Chan) : Nat → Nat → Chan := fun a b => if a = i ∧ b = j then f (k a b) else k a b
  match m.instr with
  | .stbind _ _ _ | .stbindi _ _ _ => match m.binds with
    | some (h, i, j) => if h = p.handle then at' i j (fun x => if x.cur.isSome ∧ x.pend.isSome then x else x.accept m.binding) else k
    | none => k
  | .ststop _ _ =>
    let v := m.rs1.toNat
    let j := 2 * bits v 17 17 + bits v 18 18
    if named then at' (bits v 16 13) j (fun x => x.afterStop (chanReads j) (bits v 47 32)) else k
  | .pgfree _ _ =>
    if named ∧ p.level ≤ 3 then fun a b => match (k a b).cur with
      | some x => if chanReads b then (k a b).finish (x.halt true) else { k a b with pend := none }
      | none => k a b
    else k
  | .svsave _ _ _ => if named then fun a b => { k a b with cur := none, pend := none } else k
  | .svload _ _ _ =>
    let n := p.w * p.h
    let size := if (s.region (p.region 0)).xoff then 0x9100 else 0x21000
    let bound := (List.range n).any (fun a => (List.range 4).any (fun b => (k a b).cur.isSome || (k a b).pend.isSome))
    match s.tenantRead (s.tenantOf c) m.rs2.toNat (n * size) with
    | .error _ => k
    | .ok d =>
      if !named ∨ bound ∨ (s.recordsBad pid (List.range n) d).isSome then k
      else fun a b =>
        let x := (regionParse (subBytes d (a * size) size) (pageParse d p) (s.region (p.region a)) s.seq).se[b % 4]'(Nat.mod_lt _ (by decide))
        if x.cur.isSome then x else { x with cur := x.pend, pend := none }
  | _ => k

/-- The channels of a page once commands of its cluster's queue have taken effect (R205, R292). -/
def State.chansAfter (s : State) (c pid : Nat) (l : List Cmd) : Nat → Nat → Chan :=
  l.foldl (s.chansWith c pid) (fun a b => s.chan ((s.page pid).region a) b)

/-- The SEQs of the bindings of a channel that wait in a queue (R206). -/
def State.queuedSeqs (s : State) (c pid sreg ch : Nat) : List Nat :=
  let l := (s.cluster c).cmds
  (List.range l.length).filterMap (fun n =>
    if (l[n]?).bind Cmd.binds = some ((s.page pid).handle, sreg, ch) then some (s.chansAfter c pid (l.take n) sreg ch).nextSeq else none)

/-- The effect of the oldest command of a queue, or the state it waits in: whether it has taken effect (R206). An SVSAVE waits until
its own capture is done, which takes it from the queue (R360). -/
def State.cmdEffect (s : State) (c : Nat) (m : Cmd) : Bool × State :=
  let run := s.runOf c
  let pid := pidOf run (bits m.rs1.toNat 7 0)
  let p := s.page pid
  match m.instr with
  | .pgplace _ _ =>
    let w := bits m.rs1.toNat 7 0
    let r := s.run run
    let s := if r.waves.any (fun e => e.graph == m.graph && e.wave == w && e.by'.contains c) then s else s.enterWave run m.graph w [c]
    (((s.graphOf run m.graph).wavePages w).all (fun h => decide (3 ≤ (s.page (pidOf run h)).level)), s)
  | .pgfree _ _ => if p.level < 2 then (false, s) else (true, s.freePage pid)
  | .gateopen _ _ =>
    if p.level < 3 then (false, s)
    else if p.level = 3 then (true, s.setPage pid { p with gated := true })
    else (true, s)
  | .tripset _ _ _ =>
    if p.level < 3 then (false, s)
    else if p.level = 3 then (true, s.setPage pid { p with trip := bits m.rs2.toNat 31 0, passes := bits m.rs2.toNat 47 32 })
    else (true, s)
  | .pgconst _ _ _ => if p.level < 3 then (false, s) else if p.level = 3 then (true, s.setConst pid m.rs1 m.rs2) else (true, s)
  | .seamset _ _ _ => (true, s.setSeam run m.rs1 m.rs2)
  | .svsave _ _ _ =>
    if 6 ≤ p.level then (true, s.setSv pid m.ident ⟨3, false, 0⟩)
    else if p.svReq.isNone then (false, s.setPage pid { p with svReq := some (m.rs2.toNat, m.ident) })
    else (false, s)
  | .svload _ _ _ => if 5 < p.level then (true, s.setSv pid m.ident ⟨3, true, 0⟩) else (true, s.svloadEffect c pid m.rs2.toNat m.ident)
  | .stbind _ _ _ => s.installQueued c m
  | .stbindi _ _ _ => s.installQueued c m
  | .ststop _ _ => match s.handleChan c m.rs1 with
    | some (rid, ch) => (true, s.stopBinding rid ch (bits m.rs1.toNat 47 32))
    | none => (true, s)
  | .cpyt _ _ _ => (true, s.templateEffect c m)
  | .cpytd _ _ => (true, s.templateEffect c m)
  | .cpyarm _ _ _ => (true, s.templateEffect c m)
  | .cpydis _ _ => (true, s.templateEffect c m)
  | .cpyfire _ _ => (true, s.templateEffect c m)
  | _ => (false, s)

/-- Commands take effect from the head of a queue while they can. -/
def State.drainFrom (c : Nat) : Nat → State → State
  | 0, s => s
  | fuel + 1, s =>
    match (s.cluster c).cmds with
    | [] => s
    | m :: rest =>
      let (done, s) := s.cmdEffect c m
      if done then
        let s := s.setCluster c { s.cluster c with cmds := rest }
        State.drainFrom c fuel s
      else s

def State.drain (s : State) (c : Nat) : State := State.drainFrom c ((s.cluster c).cmds.length) s

/-- GRAPH_LOAD_EFFECT: the graph that the oldest command of a queue loads is checked and built, or the run ends (R293). -/
def graphLoadEffect (s : State) : State :=
  let c := s.focus.cluster
  let run := s.runOf c
  match (s.cluster c).cmds with
  | m :: rest =>
    match m.instr with
    | .grload _ _ _ =>
      let r := s.run run
      let prior := (r.graphs.map (fun e => e.2.pages.length)).sum
      match s.loadImage r.tenant m.rs1.toNat m.rs2.toNat false r.clusters.length prior with
      | .error (k, code) =>
        s.raise run { ErrRec.of k (s.die (dieOf c)).tick with code := code, cluster := (s.cluster c).idx, word := m.word.toNat, addr := m.rs1.toNat }
      | .ok d =>
        let s := s.installGraph run m.graph m.rs1.toNat m.rs2.toNat d
        (s.setCluster c { s.cluster c with cmds := rest }).drain c
    | _ => s
  | [] => s

def execGraphLoadEffect (s : State) : Ans := .next (graphLoadEffect s)

/-! ## The instructions -/

/-- A queued instruction accepted with a result: it retires, and takes effect at once where nothing holds it back. -/
def State.accept (s : State) (c : Nat) (rd : Reg) (i : Instr) (v1 v2 : W64) (graph : Nat) (result : W64) : State :=
  (s.enqueue c rd i v1 v2 graph result).drain c

/-- GRLOAD (R293). -/
def grloadOp (rd rs1 rs2 : Reg) (s : State) : State :=
  let c := s.focus.cluster
  let run := s.runOf c
  match (s.run run).nextGraph with
  | none => s.refuse c rd 0xC
  | some gh =>
    let s' := s.setGraph run gh { Graph.none with state := 1, addr := (s.reg c rs1).toNat, symtab := (s.reg c rs2).toNat }
    s'.accept c rd (.grload rd rs1 rs2) (s.reg c rs1) (s.reg c rs2) gh (BitVec.ofNat 64 gh)

/-- PGPLACE (R294). -/
def pgplaceOp (rd rs1 : Reg) (s : State) : State :=
  let c := s.focus.cluster
  let run := s.runOf c
  let v := s.reg c rs1
  let w := bits v.toNat 7 0
  let gh := bits v.toNat 9 8
  let g := s.graphOf run gh
  if !fits v 10 then s.refuse c rd 6
  else if g.state = 0 then s.refuse c rd 0xA
  else if g.state = 1 ∧ (s.cluster c).loadPending then s.wait c
  else if (s.cluster c).entersWave gh w ∨ (s.run run).waves.any (fun e => e.graph == gh && e.wave == w && e.by'.contains c) then s.refuse c rd 0xA
  else if (g.wavePages w).isEmpty then s.refuse c rd 2
  else if s.nofit run gh w then s.refuse c rd 0xB
  else s.accept c rd (.pgplace rd rs1) v 0 gh 0

/-- Operate on a page that a handle operand names, waiting for a graph that the queue loads (R205). -/
def withPage (rd : Reg) (handle : Nat) (s : State) (k : Nat → State) : State :=
  let c := s.focus.cluster
  match s.pageNamed c handle with
  | some pid => k pid
  | none => if (s.cluster c).loadPending then s.wait c else s.refuse c rd 2

/-- PGFREE (R295). -/
def pgfreeOp (rd rs1 : Reg) (s : State) : State :=
  let c := s.focus.cluster
  let v := s.reg c rs1
  if !fits v 8 then s.refuse c rd 6
  else withPage rd v.toNat s fun pid =>
    if !s.entered c pid then s.refuse c rd 2
    else if 6 ≤ (s.page pid).level then s.retireWith c rd 1
    else s.accept c rd (.pgfree rd rs1) v 0 0 0

/-- What GATEOPEN, TRIPSET and PGCONST check (R297). -/
def gateCmd (rd : Reg) (i : Instr) (v1 v2 : W64) (bad : Nat → Bool) (s : State) : State :=
  let c := s.focus.cluster
  withPage rd (bits v1.toNat 7 0) s fun pid =>
    if !s.entered c pid then s.refuse c rd 2
    else if 6 ≤ (s.page pid).level then s.refuse c rd 7
    else if !s.closedFor c pid then s.refuse c rd 9
    else if bad pid then s.refuse c rd 6
    else s.accept c rd i v1 v2 0 0

def gateopenOp (rd rs1 : Reg) (s : State) : State :=
  let c := s.focus.cluster
  let v := s.reg c rs1
  if !fits v 8 then s.refuse c rd 6 else gateCmd rd (.gateopen rd rs1) v 0 (fun _ => false) s

def tripsetOp (rd rs1 rs2 : Reg) (s : State) : State :=
  let c := s.focus.cluster
  let v := s.reg c rs1
  let x := s.reg c rs2
  if !fits v 8 ∨ !fits x 48 then s.refuse c rd 6 else gateCmd rd (.tripset rd rs1 rs2) v x (fun _ => false) s

def pgconstOp (rd rs1 rs2 : Reg) (s : State) : State :=
  let c := s.focus.cluster
  let v := s.reg c rs1
  let x := s.reg c rs2
  if !fits v 17 ∨ !fits x 32 then s.refuse c rd 6
  else gateCmd rd (.pgconst rd rs1 rs2) v x (fun pid => let p := s.page pid; decide (p.w * p.h ≤ bits v.toNat 15 12)) s

/-- A port of a page is declared `shape=none` (R214). -/
def State.declaredNone (s : State) (pid code : Nat) : Bool :=
  let p := s.page pid
  s.hasPort pid code && decide (code % 32 < 16) && (s.graphOf p.run p.graph).binds.any (fun b => b.page == p.index && b.port == code && b.shapeNone)

/-- SEAMSET (R298). -/
def seamsetOp (rd rs1 rs2 : Reg) (s : State) : State :=
  let c := s.focus.cluster
  let run := s.runOf c
  let v := s.reg c rs1
  let x := s.reg c rs2
  let lead := bits v.toNat 16 8
  let fol := (seamFollowers x.toNat).map (fun f => (pidOf run f.1, f.2))
  if !fits v 17 ∨ !within x 0x03FFFF3FFFF3FFFF then s.refuse c rd 6
  else if s.placePending c (bits v.toNat 7 0) ∨ (seamFollowers x.toNat).any (fun f => s.placePending c f.1) then s.wait c
  else match s.resident c (bits v.toNat 7 0) with
    | none => s.refuse c rd 2
    | some pid =>
      if fol.any (fun f => let p := s.page f.1; p.run != run || decide (p.level < 3) || decide (5 < p.level)) then s.refuse c rd 2
      else if !s.declaredNone pid lead ∨ fol.any (fun f => !s.declaredNone f.1 f.2 || s.rowPort f.1 f.2 != s.rowPort pid lead) then s.refuse c rd 3
      else
        let cl := fol.map (fun f => (s.page f.1).cluster)
        if cl.any (fun k => k == c || k / 4 != c / 4) ∨ cl.eraseDups.length ≠ cl.length then s.refuse c rd 8
        else if [0, 2].any (fun ch =>
            let k := s.chansAfter c pid (s.cluster c).cmds (lead / 32) ch
            [k.cur, k.pend].any (fun b => match b with | some b => b.port == lead % 32 | none => false)) then s.refuse c rd 9
        else s.accept c rd (.seamset rd rs1 rs2) v x 0 0

def execGrload (rd rs1 rs2 : Reg) (s : State) : Ans := .next (grloadOp rd rs1 rs2 s)
def execPgplace (rd rs1 : Reg) (s : State) : Ans := .next (pgplaceOp rd rs1 s)
def execPgfree (rd rs1 : Reg) (s : State) : Ans := .next (pgfreeOp rd rs1 s)
def execGateopen (rd rs1 : Reg) (s : State) : Ans := .next (gateopenOp rd rs1 s)
def execTripset (rd rs1 rs2 : Reg) (s : State) : Ans := .next (tripsetOp rd rs1 rs2 s)
def execPgconst (rd rs1 rs2 : Reg) (s : State) : Ans := .next (pgconstOp rd rs1 rs2 s)
def execSeamset (rd rs1 rs2 : Reg) (s : State) : Ans := .next (seamsetOp rd rs1 rs2 s)

/-! ## STBIND, STBINDI (R235) -/

/-- The handle of the binding: SEQ and the fields of the control operand (R235). -/
def bindHandle (page port sreg se dir seq : Nat) : W64 :=
  BitVec.ofNat 64 (page + port * 2 ^ 8 + sreg * 2 ^ 13 + se * 2 ^ 17 + dir * 2 ^ 18 + seq * 2 ^ 32)

/-- Whether a port of a page may be bound: declared `shape=none`, and no follower after the queue's accepted commands (R205, R298). -/
def State.bindable (s : State) (c pid code : Nat) : Bool :=
  let conn := s.portConn pid code
  s.hasPort pid code && (conn == .opened || conn == .follower) && !(s.seamsAfter c).any (fun m => m.followers.contains ((s.page pid).handle, code))

/-- A binding is accepted: it takes effect behind the commands of its cluster's queue (R206). -/
def State.acceptBinding (s : State) (c : Nat) (rd : Reg) (i : Instr) (rid ch : Nat) (b : Binding) (v1 v2 hdl : W64) : State :=
  if (s.cluster c).cmds.isEmpty then (s.installBinding rid ch b).retireWith c rd hdl else s.enqueue c rd i v1 v2 0 hdl b.record

/-- STBIND and STBINDI (R205, R218, R219, R235). -/
def stbindOp (rd rs1 rs2 : Reg) (indexed : Bool) (s : State) : State :=
  let c := s.focus.cluster
  let v := (s.reg c rs2).toNat
  let a := (s.reg c rs1).toNat
  let port := bits v 28 24
  let sreg := bits v 32 29
  let trig := v.testBit 34
  let iport := bits v 39 35
  let out := decide (16 ≤ port)
  let code := port + 32 * sreg
  let h := bits v 23 16
  let instr : Instr := if indexed then .stbindi rd rs1 rs2 else .stbind rd rs1 rs2
  if 2 ^ 40 ≤ v ∨ (!indexed ∧ iport ≠ 0) ∨ (indexed ∧ (trig ∨ iport < 16)) then s.refuse c rd 6
  else if s.placePending c h then s.wait c
  else match s.resident c h with
    | none => s.refuse c rd 2
    | some pid =>
      let icode := iport + 32 * sreg
      if !s.bindable c pid code ∨ (indexed ∧ out) ∨ (trig ∧ (!out ∨ s.rowPort pid code)) ∨
          (indexed ∧ (!s.bindable c pid icode ∨ s.rowPort pid icode)) then s.refuse c rd 3
      else
        let rid := (s.page pid).region sreg
        let se := bits v 33 33
        let ch := 2 * se + (if out then 1 else 0)
        let k := s.chansAfter c pid (s.cluster c).cmds sreg ch
        let hdl := bindHandle h port sreg se (if out then 1 else 0) k.nextSeq
        let full := k.cur.isSome && k.pend.isSome
        if trig then
          match s.indexed c (bits a 15 8) with
          | some _ =>
            if a % 2 ^ 16 ≠ a ∨ bits a 7 4 ≠ 0 ∨ bits a 15 8 = 0xFF then s.refuse c rd 6
            else if full then s.refuse c rd 1
            else s.acceptBinding c rd instr rid ch (Binding.fresh .trigger (bits v 15 0) port 0 a [] s.seq) (s.reg c rs1) (s.reg c rs2) hdl
          | none => s.refuse c rd 6
        else if a % 64 ≠ 0 then s.refuse c rd 6
        else if full then s.refuse c rd 1
        else match s.tenantRead (s.tenantOf c) a 64 with
          | .error e => s.raiseCluster e.cause c (s.ctl c).insn.toNat e.addr
          | .ok rec =>
            let s := s.sampleFetch c (s.tenantOf c) a 64
            let sh := ShapeRec.of rec
            if sh.dir ≠ out then s.refuse c rd 3
            else if sh.bad (if s.rowPort pid code then .row else .token) ∨ (indexed ∧ !sh.indir) then
              s.raiseCluster .shape c (s.ctl c).insn.toNat a
            else
              s.acceptBinding c rd instr rid ch (Binding.fresh (if indexed then .indexed else .plain) (bits v 15 0) port iport 0 rec s.seq)
                (s.reg c rs1) (s.reg c rs2) hdl

def execStbind (rd rs1 rs2 : Reg) (s : State) : Ans := .next (stbindOp rd rs1 rs2 false s)
def execStbindi (rd rs1 rs2 : Reg) (s : State) : Ans := .next (stbindOp rd rs1 rs2 true s)

/-! ## STSTOP, STCUR, STSTAT, STWAIT (R236) -/

/-- Operate on the channel that a handle names, as it is and as the queue's accepted commands will have left it (R205). -/
def withHandle (rd rs1 : Reg) (s : State) (k : Nat → Nat → Chan → Nat → State) : State :=
  let c := s.focus.cluster
  let v := s.reg c rs1
  if !within v 0xFFFF0007FFFF then s.refuse c rd 6
  else if s.placePending c (bits v.toNat 7 0) then s.wait c
  else match s.handleChan c v with
    | none => s.refuse c rd 2
    | some (rid, ch) => k rid ch (s.chansAfter c (pidOf (s.runOf c) (bits v.toNat 7 0)) (s.cluster c).cmds (bits v.toNat 16 13) ch) (bits v.toNat 47 32)

/-- The SEQs of the bindings of a handle's channel that wait in the command queue. -/
def State.seqsBehind (s : State) (c : Nat) (v : W64) (ch : Nat) : List Nat :=
  s.queuedSeqs c (pidOf (s.runOf c) (bits v.toNat 7 0)) (bits v.toNat 16 13) ch

/-- Whether a SEQ names a channel's current, pending or last completed binding (R236). -/
def Chan.knows (k : Chan) (seq : Nat) : Bool := hasSeq k.cur seq || hasSeq k.pend seq || (k.ended && k.lastSeq == seq)

/-- STSTOP (R221, R236): it takes effect behind the commands of its cluster's queue (R206). -/
def ststopOp (rd rs1 : Reg) (s : State) : State :=
  let c := s.focus.cluster
  withHandle rd rs1 s fun rid ch k seq =>
    if !k.knows seq then s.refuse c rd 7
    else
      let r : W64 := if hasSeq k.cur seq || hasSeq k.pend seq then 0 else 1
      if (s.cluster c).cmds.isEmpty then (s.stopBinding rid ch seq).retireWith c rd r else s.enqueue c rd (.ststop rd rs1) (s.reg c rs1) 0 0 r

def stcurOp (rd rs1 : Reg) (s : State) : State :=
  let c := s.focus.cluster
  withHandle rd rs1 s fun rid ch k seq =>
    let now := s.chan rid ch
    if !k.knows seq then s.refuse c rd 7
    else s.retireWith c rd (BitVec.ofNat 64 (if hasSeq now.pend seq then 0 else match now.cur with
      | some b => if b.seq = seq then b.moved else if now.ended ∧ now.lastSeq = seq then now.lastMoved else 0
      | none => if now.ended ∧ now.lastSeq = seq then now.lastMoved else 0))

/-- The status word of STSTAT (R236). -/
def Chan.status (k : Chan) (held queued : Bool) : W64 :=
  let st := match k.cur with | some b => if b.moving then 2 else 1 | none => if k.ended then 3 else 0
  let late := match k.cur with | some b => b.late | none => k.late
  let seq := match k.cur with | some b => b.seq | none => k.lastSeq
  BitVec.ofNat 64 (st + (if k.pend.isSome || queued then 4 else 0) + (if late then 8 else 0) + (if held then 16 else 0) +
    (if k.stopped then 32 else 0) + seq * 2 ^ 16)

def ststatOp (rd rs1 : Reg) (s : State) : State :=
  let c := s.focus.cluster
  withHandle rd rs1 s fun rid ch _ _ =>
    let k := s.chan rid ch
    s.retireWith c rd (k.status (match k.cur with | some b => !b.moving && (s.cluster c).preds b.entry != 0 | none => false)
      !(s.seqsBehind c (s.reg c rs1) ch).isEmpty)

/-- STWAIT (R236): an acquire at package scope once the named binding has completed. -/
def stwaitOp (rd rs1 : Reg) (s : State) : State :=
  let c := s.focus.cluster
  let v := s.reg c rs1
  if (s.ctl c).st = .waiting ∧ (s.handleChan c v).isNone ∧ !s.placePending c (bits v.toNat 7 0) then s.retireWith c rd 0
  else withHandle rd rs1 s fun rid ch _ seq =>
    let k := s.chan rid ch
    if (s.seqsBehind c v ch).contains seq ∨ hasSeq k.pend seq ∨ hasSeq k.cur seq then s.wait c
    else if k.ended ∧ k.lastSeq = seq then (s.acquireCtl c 4).retireWith c rd (BitVec.ofNat 64 k.lastMoved)
    else if (s.ctl c).st = .waiting then s.retireWith c rd 0
    else s.refuse c rd 7

def execStstop (rd rs1 : Reg) (s : State) : Ans := .next (ststopOp rd rs1 s)
def execStcur (rd rs1 : Reg) (s : State) : Ans := .next (stcurOp rd rs1 s)
def execStstat (rd rs1 : Reg) (s : State) : Ans := .next (ststatOp rd rs1 s)
def execStwait (rd rs1 : Reg) (s : State) : Ans := .next (stwaitOp rd rs1 s)

/-! ## Templates (R231, R238) -/

/-- An operand that names a template slot, or refusal with CTL (R238); the slot is as the queue's accepted commands will have left it. -/
def withSlot (rd rs1 : Reg) (s : State) (k : Nat → Template → State) : State :=
  let c := s.focus.cluster
  let v := s.reg c rs1
  if fits v 6 then k v.toNat (s.templateAfter c v.toNat) else s.refuse c rd 6

/-- A template command is accepted: it takes effect behind the commands of its cluster's queue (R206). -/
def State.acceptTemplate (s : State) (c : Nat) (rd : Reg) (i : Instr) (v1 v2 result : W64) (record : List Byte) : State :=
  if (s.cluster c).cmds.isEmpty then (s.templateEffect c ⟨0, 0, i, v1, v2, 0, record, 0⟩).retireWith c rd result
  else s.enqueue c rd i v1 v2 0 result record

def cpytOp (rd rs1 rs2 : Reg) (s : State) : State :=
  let c := s.focus.cluster
  let va := (s.reg c rs1).toNat
  let w := (s.ctl c).insn.toNat
  let g := s.tenantOf c
  if va % 64 ≠ 0 then s.refuse c rd 6
  else withSlot rd rs2 s fun _ t =>
    if t.armed then s.refuse c rd 4
    else match s.tenantRead g va 128 with
      | .error e => s.raiseCluster e.cause c w e.addr
      | .ok card =>
        let s := s.sampleFetch c g va 128
        if cardSrc card % 64 ≠ 0 ∨ cardDst card % 64 ≠ 0 then s.refuse c rd 6
        else if cardBad card .template (s.run (s.runOf c)).clusters.length then s.raiseCluster .shape c w va
        else match s.readRecords c g va card with
          | (.error e, s) => s.raiseCluster e.cause c w e.addr
          | (.ok (x, y), s) =>
            if recordsBad (some (x, y)) then s.raiseCluster .shape c w va
            else s.acceptTemplate c rd (.cpyt rd rs1 rs2) (s.reg c rs1) (s.reg c rs2) 0 (card ++ x ++ y)

def cpytdOp (rd rs1 : Reg) (s : State) : State :=
  let c := s.focus.cluster
  withSlot rd rs1 s fun _ t => if t.armed then s.refuse c rd 4 else s.acceptTemplate c rd (.cpytd rd rs1) (s.reg c rs1) 0 0 []

def cpyarmOp (rd rs1 rs2 : Reg) (s : State) : State :=
  let c := s.focus.cluster
  let q := s.reg c rs2
  if !fits q 4 then s.refuse c rd 6
  else withSlot rd rs1 s fun _ t =>
    if !t.loaded ∨ t.armed then s.refuse c rd 4
    else if (List.range 64).any (fun n => (s.templateAfter c n).armed && (s.templateAfter c n).queue == q.toNat) then s.refuse c rd 5
    else s.acceptTemplate c rd (.cpyarm rd rs1 rs2) (s.reg c rs1) q 0 []

def cpydisOp (rd rs1 : Reg) (s : State) : State :=
  let c := s.focus.cluster
  withSlot rd rs1 s fun _ t => if !t.armed then s.refuse c rd 4 else s.acceptTemplate c rd (.cpydis rd rs1) (s.reg c rs1) 0 0 []

/-- CPYFIRE (R238): the copy enters the scheduler, and its firing is counted, at acceptance (R232); neither takes order from the commands
that wait (R206), but that a queued command of the same slot comes before the count. -/
def cpyfireOp (rd rs1 : Reg) (s : State) : State :=
  let c := s.focus.cluster
  withSlot rd rs1 s fun n t =>
    if !t.loaded then s.refuse c rd 4
    else match s.fire c t .controller [] (s.ctl c).insn with
      | none => s.refuse c rd 1
      | some (h, s) =>
        let v := s.reg c rs1
        if (s.cluster c).cmds.any (fun m => (m.onTemplate.map Prod.fst) == some n) then s.enqueue c rd (.cpyfire rd rs1) v 0 0 (BitVec.ofNat 64 h)
        else (s.templateEffect c ⟨0, 0, .cpyfire rd rs1, v, 0, 0, [], 0⟩).retireWith c rd (BitVec.ofNat 64 h)

def execCpyt (rd rs1 rs2 : Reg) (s : State) : Ans := .next (cpytOp rd rs1 rs2 s)
def execCpytd (rd rs1 : Reg) (s : State) : Ans := .next (cpytdOp rd rs1 s)
def execCpyarm (rd rs1 rs2 : Reg) (s : State) : Ans := .next (cpyarmOp rd rs1 rs2 s)
def execCpydis (rd rs1 : Reg) (s : State) : Ans := .next (cpydisOp rd rs1 s)
def execCpyfire (rd rs1 : Reg) (s : State) : Ans := .next (cpyfireOp rd rs1 s)

/-! ## SVSAVE, SVLOAD, SVSIZE, SVSTAT (R360 to R362) -/

/-- A placed page that a handle operand names; acceptance waits for a PGPLACE of the queue that places it. -/
def withPlaced (rd : Reg) (handle : Nat) (s : State) (k : Nat → State) : State :=
  let c := s.focus.cluster
  withPage rd handle s fun pid =>
    let p := s.page pid
    if p.level < 3 ∧ (s.cluster c).entersWave p.graph p.wave then s.wait c
    else if p.level < 3 ∨ 5 < p.level then s.refuse c rd 2
    else k pid

def svsaveOp (rd rs1 rs2 : Reg) (s : State) : State :=
  let c := s.focus.cluster
  let v := s.reg c rs1
  let a := s.reg c rs2
  if !fits v 8 ∨ a.toNat % 4096 ≠ 0 then s.refuse c rd 6
  else withPlaced rd v.toNat s fun pid =>
    if s.inGroup pid then s.refuse c rd 3
    else (s.setPage pid { s.page pid with sv := ⟨1, false, 0⟩ }).accept c rd (.svsave rd rs1 rs2) v a 0 0

def svloadOp (rd rs1 rs2 : Reg) (s : State) : State :=
  let c := s.focus.cluster
  let v := s.reg c rs1
  let a := s.reg c rs2
  if !fits v 8 then s.refuse c rd 6
  else withPlaced rd v.toNat s fun pid =>
    let p := s.page pid
    if (gateView p.handle (s.cluster c).cmds (decide (4 ≤ p.level) || p.gated, p.svClosed)).1 then s.refuse c rd 9
    else (s.setPage pid { p with sv := ⟨1, true, 0⟩ }).accept c rd (.svload rd rs1 rs2) v a 0 0

/-- SIZE of a page's region records (R331). -/
def State.recordSize (s : State) (pid : Nat) : Nat := if imgXoff (((s.imagesOf pid)[0]?).getD []) then 0x9100 else 0x21000

def svsizeOp (rd rs1 : Reg) (s : State) : State :=
  let c := s.focus.cluster
  let v := s.reg c rs1
  if !fits v 8 then s.illegal c
  else s.retireWith c rd (match s.pageNamed c v.toNat with
    | some pid => BitVec.ofNat 64 ((s.page pid).w * (s.page pid).h * s.recordSize pid)
    | none => 0)

def svstatOp (rd rs1 : Reg) (s : State) : State :=
  let c := s.focus.cluster
  let v := s.reg c rs1
  if !fits v 8 then s.illegal c
  else match s.pageNamed c v.toNat with
    | none => s.retireWith c rd 0
    | some pid =>
      let q := (s.page pid).sv
      (if q.state = 2 then s.acquireCtl c 4 else s).retireWith c rd (BitVec.ofNat 64 (q.state + boolBit q.isLoad 2 + q.code * 256))

def execSvsave (rd rs1 rs2 : Reg) (s : State) : Ans := .next (svsaveOp rd rs1 rs2 s)
def execSvload (rd rs1 rs2 : Reg) (s : State) : Ans := .next (svloadOp rd rs1 rs2 s)
def execSvsize (rd rs1 : Reg) (s : State) : Ans := .next (svsizeOp rd rs1 s)
def execSvstat (rd rs1 : Reg) (s : State) : Ans := .next (svstatOp rd rs1 s)

end Sys2Proof.Machine
end

