-- ==== Sys2Proof/Machine/Events.lean ====
section
/-! DEFINITION. What a queue reports (R370 to R373, R387, R388): events, vectors, the error state, and the completion of a packet. -/
namespace Sys2Proof.Machine

/-- Raise a vector of a tenant (R367, R369). -/
def State.raiseVec (s : State) (id : QueueId) : State :=
  let t := s.tenant id.tenant
  s.setTenant id.tenant { t with vectors := t.vectors ++ [(s.queue id).vec] }

/-- The 32 bytes of an event (R387). -/
def eventBytes (code queue source : Nat) (ctxtag : W32) (status : Nat) (data pktime : W64) : List Byte :=
  toBytes 4 code ++ toBytes 2 queue ++ toBytes 2 source ++ toBytes 4 ctxtag.toNat ++ toBytes 4 status ++ toBytes 8 data.toNat ++
  toBytes 8 pktime.toNat

/-- Post an event at EVTAIL, or drop it and set EVOVF (R387, R388). PKTIME is that of the active complex's die. -/
def State.postEvent (s : State) (id : QueueId) (code source : Nat) (ctxtag : W32) (status : Nat) (data : W64) : State :=
  let q := s.queue id
  let room := q.evEn && q.evTail - q.evHead != BitVec.ofNat 32 (2 ^ q.evLog2)
  let drop : State := s.setQueue id { q with evovf := true }
  if !room then drop
  else match s.tenantWrite id.tenant (q.evbase.toNat + 32 * (q.evTail.toNat % 2 ^ q.evLog2))
      (eventBytes code id.num source ctxtag status data (s.die s.qc.active).pktime) with
    | .error _ => drop
    | .ok s => s.setQueue id { s.queue id with evTail := q.evTail + 1 }

/-- An event of a packet: its vector is raised with NOTIFY (R387). -/
def State.packetEvent (s : State) (id : QueueId) (code : Nat) (notify : Bool) (ctxtag : W32) (status : Nat) (data : W64) : State :=
  let s := s.postEvent id code 0xFFFF ctxtag status data
  if notify then s.raiseVec id else s

/-- FLAGS.NOTIFY and CTXTAG of the bytes of a packet (R46). -/
def pktNotify (b : List Byte) : Bool := (fieldAt b 1 1).testBit 1
def pktTag (b : List Byte) : W32 := BitVec.ofNat 32 (fieldAt b 4 4)

/-- The state of a queue that no packet occupies (R369). -/
def Queue.idle (q : Queue) : Nat :=
  if q.state = 5 then 5 else if q.run.isSome then 4 else if !q.en then 0 else if q.head = q.tail then 1 else 2

/-- A queue enters the error state: its cause, a queue-error event, its vector; `skip` says that CLR steps past a failed packet
(R372, R373). -/
def State.queueError (s : State) (id : QueueId) (cause : Nat) (ctxtag : W32) (skip : Bool) : State :=
  let q := s.queue id
  let s := s.setQueue id { q with
    state := 5, cause := cause, errtag := ctxtag, skip := skip, cur := if q.run.isSome then q.cur else none, started := false }
  (s.postEvent id 4 0xFFFF ctxtag cause 0).raiseVec id

/-- The packet in progress fails (R372). -/
def State.failPacket (s : State) (id : QueueId) (cause : Nat) : State :=
  let tag := match (s.queue id).cur with | some b => pktTag b | none => 0
  s.queueError id cause tag true

/-- The packet-complete event of a packet with NOTIFY (R387). -/
def State.notifyEvent (s : State) (id : QueueId) (b : List Byte) : State :=
  if pktNotify b then s.packetEvent id 1 true (pktTag b) 0 0 else s

/-- The cycles of a packet wait, a QWAIT sample in the shares on die 0 of the tenant's triads (R355). -/
def State.sampleWait (s : State) (id : QueueId) : State :=
  let q := s.queue id
  if q.started then
    let v := ((s.die 0).tick - q.waitFrom).toNat
    (s.tenant id.tenant).triads.foldl (fun s t => s.sampleGauges t 4 v) s
  else s

/-- The packet in progress completes: QHEAD, or the place in an indirect buffer, advances, and an INDIRECT whose last packet this
is completes with it (R370, R381, R387). -/
def State.completePacket (s : State) (id : QueueId) : State :=
  match (s.queue id).cur with
  | none => s
  | some b =>
    let s := (s.sampleWait id).notifyEvent id b
    let q := s.queue id
    let done : Queue := { q with
      cur := none, started := false, run := none, uncommit := some (q.head, q.ind, q.indPkt) }
    match q.ind with
    | some (a, n, k) =>
      if k + 1 < n then
        let q := { done with ind := some (a, n, k + 1) }
        s.setQueue id { q with state := q.idle }
      else
        let q := { done with ind := none, indPkt := [], head := q.head + 1 }
        (s.setQueue id { q with state := q.idle }).notifyEvent id done.indPkt
    | none =>
      let q := { done with head := q.head + 1 }
      s.setQueue id { q with state := q.idle }

/-- The waiting WAITSEMs of a tenant look at their words again (R382). -/
def State.rereads (s : State) (tenant : Nat) : State :=
  s.pushJobs (((s.tenant tenant).queues.filter (fun e => e.2.state == 3)).map (fun e =>
    .ev .waitsemReread { Focus.none with queue := ⟨tenant, false, e.1⟩ }))

/-- A packet waits (R25, R373). -/
def State.waitPacket (s : State) (id : QueueId) : State :=
  let q := s.queue id
  s.setQueue id { q with state := 3, started := true, waitFrom := if q.started then q.waitFrom else (s.die 0).tick }

end Sys2Proof.Machine
end

