-- ==== Sys2Proof/Machine/Rv.lean ====
section
/-! DEFINITION. The controller's standard instructions (R42, R180): fetching an instruction, integer arithmetic, branches, CSR
reads, loads and stores through the data cache, fences, atomics and reservations. -/
namespace Sys2Proof.Machine

/-! ## Fetch (R42, R261, R346) -/

/-- The lines of 128 bytes that each of a controller's two caches of 64 KiB holds (R19). -/
def cacheLines : Nat := 512

/-- Read one halfword of code, through the instruction cache (R261). -/
def State.fetchHalf (s : State) (c va : Nat) : Except AccErr Nat × State :=
  match s.place c (s.tenantOf c) .fetch (fun t => t != .none && t != .reg) va 2 with
  | (.error e, s) => (.error e, s)
  | (.ok [], s) => (.ok 0, s)
  | (.ok (p :: _), s) =>
    let (d, s) : List Byte × State := match (s.ctl c).icache.find? (fun l => l.addr == lineOf p.pa && l.key == p.key) with
      | some l => (l.data, s)
      | none =>
        let (d, s) := s.readPhys { s.ctlView c with key := p.key, acq := max (s.ctl c).acqStamp (s.ctl c).fetchStamp } (lineOf p.pa) 128
        let k := s.ctl c
        (d, s.setCtl c { k with icache := (⟨lineOf p.pa, p.key, s.seq, d⟩ :: k.icache).take cacheLines })
    (.ok (fieldAt d (p.pa % 128) 2), s)

/-- Latch the instruction at the pc, or trap: whether an instruction is latched. -/
def State.fetch (s : State) (c : Nat) : Bool × State :=
  let k := s.ctl c
  let s := s.setCtl c { k with insn := 0, comp := false }
  match s.fetchHalf c k.pc.toNat with
  | (.error e, s) => (false, s.trapAcc c e .fetch)
  | (.ok lo, s) =>
    if lo % 4 ≠ 3 then (true, s.setCtl c { s.ctl c with insn := BitVec.ofNat 32 lo, comp := true })
    else match s.fetchHalf c (k.pc + 2).toNat with
      | (.error e, s) => (false, s.trapAcc c e .fetch)
      | (.ok hi, s) => (true, s.setCtl c { s.ctl c with insn := BitVec.ofNat 32 (lo + 65536 * hi), comp := false })

/-- The latched instruction. -/
def Ctl.latched (k : Ctl) : Except DecodeError Instr := if k.comp then decode16 (k.insn.truncate 16) else decode32 k.insn

/-- Fetch and decode the next instruction of a controller; one that names no instruction traps (R42, R45). -/
def State.fetchDecode (s : State) (c : Nat) : Option Instr × State :=
  let (ok, s) := s.fetch c
  if !ok then (none, s)
  else match (s.ctl c).latched with
    | .ok i => (some i, { s with focus := { s.focus with cluster := c } })
    | .error _ => (none, s.illegal c)

/-- The instruction that a running controller executes next: one in progress (R167), or the one at its pc. -/
def State.nextInstr (s : State) (c : Nat) : Option Instr × State :=
  if (s.ctl c).half.isSome then ((s.ctl c).latched.toOption, s) else s.fetchDecode c

/-! ## Integer arithmetic (R42) -/

def sext32 (v : BitVec 32) : W64 := v.signExtend 64
def low32 (v : W64) : BitVec 32 := v.truncate 32

def divS {w : Nat} (a b : BitVec w) : BitVec w := if b = 0 then BitVec.allOnes w else a.sdiv b
def divU {w : Nat} (a b : BitVec w) : BitVec w := if b = 0 then BitVec.allOnes w else a / b
def remS {w : Nat} (a b : BitVec w) : BitVec w := if b = 0 then a else a.srem b
def remU {w : Nat} (a b : BitVec w) : BitVec w := if b = 0 then a else a % b
/-- The high half of a product of two 65-bit signed values. -/
def mulHigh (a b : BitVec 128) : W64 := (a * b).extractLsb' 64 64

/-- Register-register operations (RV64I, M, Zba, Zbb). -/
def aluEval (op : AluOp) (a b : W64) : W64 :=
  let sh := b.toNat % 64
  let shw := b.toNat % 32
  let aw := low32 a
  let bw := low32 b
  let zw : W64 := aw.zeroExtend 64
  match op with
  | .add => a + b
  | .sub => a - b
  | .sll => a <<< sh
  | .slt => if a.slt b then 1 else 0
  | .sltu => if a.ult b then 1 else 0
  | .xor => a ^^^ b
  | .srl => a >>> sh
  | .sra => a.sshiftRight sh
  | .or => a ||| b
  | .and => a &&& b
  | .addw => sext32 (aw + bw)
  | .subw => sext32 (aw - bw)
  | .sllw => sext32 (aw <<< shw)
  | .srlw => sext32 (aw >>> shw)
  | .sraw => sext32 (aw.sshiftRight shw)
  | .mul => a * b
  | .mulh => mulHigh (a.signExtend 128) (b.signExtend 128)
  | .mulhsu => mulHigh (a.signExtend 128) (b.zeroExtend 128)
  | .mulhu => mulHigh (a.zeroExtend 128) (b.zeroExtend 128)
  | .div => divS a b
  | .divu => divU a b
  | .rem => remS a b
  | .remu => remU a b
  | .mulw => sext32 (aw * bw)
  | .divw => sext32 (divS aw bw)
  | .divuw => sext32 (divU aw bw)
  | .remw => sext32 (remS aw bw)
  | .remuw => sext32 (remU aw bw)
  | .addUw => b + zw
  | .sh1add => b + (a <<< 1)
  | .sh2add => b + (a <<< 2)
  | .sh3add => b + (a <<< 3)
  | .sh1addUw => b + (zw <<< 1)
  | .sh2addUw => b + (zw <<< 2)
  | .sh3addUw => b + (zw <<< 3)
  | .andn => a &&& ~~~b
  | .orn => a ||| ~~~b
  | .xnor => ~~~(a ^^^ b)
  | .min => if a.slt b then a else b
  | .max => if a.slt b then b else a
  | .minu => if a.ult b then a else b
  | .maxu => if a.ult b then b else a
  | .rol => a.rotateLeft sh
  | .ror => a.rotateRight sh
  | .rolw => sext32 (aw.rotateLeft shw)
  | .rorw => sext32 (aw.rotateRight shw)
  | .zextH => (a.truncate 16).zeroExtend 64

/-- Register-immediate operations. -/
def aluiEval (op : AluiOp) (a : W64) (imm : BitVec 12) : W64 :=
  let i : W64 := imm.signExtend 64
  let sh := imm.toNat % 64
  let shw := imm.toNat % 32
  let aw := low32 a
  match op with
  | .addi => a + i
  | .slti => if a.slt i then 1 else 0
  | .sltiu => if a.ult i then 1 else 0
  | .xori => a ^^^ i
  | .ori => a ||| i
  | .andi => a &&& i
  | .addiw => sext32 (aw + low32 i)
  | .slli => a <<< sh
  | .srli => a >>> sh
  | .srai => a.sshiftRight sh
  | .slliw => sext32 (aw <<< shw)
  | .srliw => sext32 (aw >>> shw)
  | .sraiw => sext32 (aw.sshiftRight shw)
  | .slliUw => (aw.zeroExtend 64 : W64) <<< sh
  | .rori => a.rotateRight sh
  | .roriw => sext32 (aw.rotateRight shw)

def leadingZeros (w n : Nat) : Nat := if n = 0 then w else w - 1 - n.log2
def trailingZeros (w n : Nat) : Nat := ((List.range w).find? n.testBit).getD w
def onesIn (w n : Nat) : Nat := ((List.range w).filter n.testBit).length

/-- One-operand operations of Zbb. -/
def unEval (op : UnOp) (a : W64) : W64 :=
  let n := a.toNat
  let nw := n % 2 ^ 32
  match op with
  | .clz => BitVec.ofNat 64 (leadingZeros 64 n)
  | .ctz => BitVec.ofNat 64 (trailingZeros 64 n)
  | .cpop => BitVec.ofNat 64 (onesIn 64 n)
  | .clzw => BitVec.ofNat 64 (leadingZeros 32 nw)
  | .ctzw => BitVec.ofNat 64 (trailingZeros 32 nw)
  | .cpopw => BitVec.ofNat 64 (onesIn 32 nw)
  | .sextB => (a.truncate 8).signExtend 64
  | .sextH => (a.truncate 16).signExtend 64
  | .rev8 => BitVec.ofNat 64 (ofBytes (toBytes 8 n).reverse)
  | .orcB => BitVec.ofNat 64 (ofBytes ((toBytes 8 n).map (fun b => if b = 0 then 0 else 0xFF)))

/-- The condition of a branch. -/
def brHolds (op : BrOp) (a b : W64) : Bool :=
  match op with
  | .beq => a == b
  | .bne => a != b
  | .blt => a.slt b
  | .bge => !a.slt b
  | .bltu => a.ult b
  | .bgeu => !a.ult b

/-- The address of the instruction after a controller's. -/
def Ctl.nextPc (k : Ctl) : W64 := k.pc + (if k.comp then 2 else 4)

/-- A jump retires: the link goes to rd, and the pc to its target. -/
def State.jump (s : State) (c : Nat) (rd : Reg) (target : W64) : State :=
  let k := s.ctl c
  s.setCtl c { (k.setReg rd k.nextPc).retire with pc := target }

/-- The value of a CSR that the run's program may read (R42). -/
def State.csrRead (s : State) (c num : Nat) : Option W64 :=
  match num with
  | 0xC00 => some (s.ctl c).cycle
  | 0xC01 => some (s.die (dieOf c)).tick
  | 0xC02 => some (s.ctl c).instret
  | _ => none

/-- Zicsr: only reads of cycle, time and instret are legal (R42). A set or clear of no bits is not a write. -/
def csrOp (op : CsrOp) (rd rs1 : Reg) (num : BitVec 12) (s : State) : State :=
  let c := s.focus.cluster
  let writes := match op with | .rw => true | .rwi => true | _ => rs1 != 0
  match writes, s.csrRead c num.toNat with
  | false, some v => s.retireWith c rd v
  | _, _ => s.illegal c

/-- A standard instruction (R42). -/
def standardOp (op : StdOp) (s : State) : State :=
  let c := s.focus.cluster
  let k := s.ctl c
  match op with
  | .lui rd imm => s.retireWith c rd ((imm ++ 0#12 : BitVec 32).signExtend 64)
  | .auipc rd imm => s.retireWith c rd (k.pc + (imm ++ 0#12 : BitVec 32).signExtend 64)
  | .jal rd off => s.jump c rd (k.pc + off.signExtend 64)
  | .jalr rd rs1 imm => s.jump c rd ((k.reg rs1 + imm.signExtend 64) &&& ~~~1)
  | .branch b rs1 rs2 off => if brHolds b (k.reg rs1) (k.reg rs2) then s.jump c 0 (k.pc + off.signExtend 64) else s.retire c
  | .alu a rd rs1 rs2 => s.retireWith c rd (aluEval a (k.reg rs1) (k.reg rs2))
  | .alui a rd rs1 imm => s.retireWith c rd (aluiEval a (k.reg rs1) imm)
  | .unary u rd rs1 => s.retireWith c rd (unEval u (k.reg rs1))
  | .csr o rd rs1 num => csrOp o rd rs1 num s

def execStandardInstruction (op : StdOp) (s : State) : Ans := .next (standardOp op s)

/-! ## Loads and stores (R180) -/

def loadWidth : LoadKind → Nat
  | .lb => 1 | .lh => 2 | .lw => 4 | .ld => 8 | .lbu => 1 | .lhu => 2 | .lwu => 4

/-- The value of a load of raw bytes. -/
def loadKindValue (k : LoadKind) (raw : Nat) : W64 :=
  match k with
  | .lb => (BitVec.ofNat 8 raw).signExtend 64
  | .lh => (BitVec.ofNat 16 raw).signExtend 64
  | .lw => (BitVec.ofNat 32 raw).signExtend 64
  | _ => BitVec.ofNat 64 raw

def storeWidth : StoreKind → Nat
  | .sb => 1 | .sh => 2 | .sw => 4 | .sd => 8

/-- Any target but a register space or an unmapped address; R16 checks that it is backed. -/
def plainTarget (t : Target) : Bool := t != .none && t != .reg

/-- The targets of AMO, LR and SC (R180). -/
def amoTarget (t : Target) : Bool := t != .none && t != .reg && t != .host

/-- Read a physical range as a controller does: HBM lines through its data cache (R180). -/
def State.ctlRead (s : State) (c : Nat) (p : Piece) : List Byte × State :=
  match targetOf p.pa with
  | .hbm _ =>
    match (s.ctl c).dcache.find? (fun l => l.addr == lineOf p.pa && l.key == p.key) with
    | some l => ((l.data.drop (p.pa % 128)).take p.len, s)
    | none =>
      let (d, s) := s.readLine { s.ctlView c with key := p.key } (lineOf p.pa)
      let k := s.ctl c
      ((d.drop (p.pa % 128)).take p.len, s.setCtl c { k with dcache := (⟨lineOf p.pa, p.key, s.seq, d⟩ :: k.dcache).take cacheLines })
  | _ => s.readPhys (s.ctlView c) p.pa p.len

/-- Write a physical range as a controller does: through its data cache (R180). -/
def State.ctlWrite (s : State) (c : Nat) (p : Piece) (data : List Byte) : State :=
  let s := s.writePhys { s.ctlView c with key := p.key } p.pa data
  let k := s.ctl c
  s.setCtl c { k with dcache := k.dcache.map (fun l =>
    if l.addr == lineOf p.pa && l.key == p.key then { l with data := splice l.data (p.pa % 128) data } else l) }

/-- A half of an 8-byte access. -/
def halfPiece (pa key : Nat) (hi : Bool) : Piece := ⟨if hi then pa + 4 else pa, 4, key⟩

/-- A controller's 8-byte access, which is two accesses of 4 bytes, in a free order (R167): the first leaves the instruction in progress,
and the second, made with `act`, ends it with the bytes of both. Other agents may act between the two. -/
def doubleAccess (c va : Nat) (kind : AccKind) (act : Piece → Bool → State → List Byte × State) (finish : List Byte → State → State) (s : State) : State :=
  match (s.ctl c).half with
  | some h =>
    let (d, s) := act (halfPiece h.pa h.key (!h.hi)) (!h.hi) s
    finish (if h.hi then d ++ h.data else h.data ++ d) (s.setCtl c { s.ctl c with half := none })
  | none => ctlPlace c va 8 kind plainTarget (fun p s =>
      let (n, s) := s.choose 2
      let hi := n == 1
      let (d, s) := act (halfPiece p.pa p.key hi) hi s
      s.setCtl c { s.ctl c with half := some ⟨p.pa, p.key, hi, d⟩ }) s

def loadOp (k : LoadKind) (rd rs1 : Reg) (imm : BitVec 12) (s : State) : State :=
  let c := s.focus.cluster
  let va := (s.reg c rs1 + imm.signExtend 64).toNat
  if loadWidth k = 8 then
    doubleAccess c va .read (fun p _ s => s.ctlRead c p) (fun d s => s.retireWith c rd (loadKindValue k (ofBytes d))) s
  else ctlPlace c va (loadWidth k) .read plainTarget (fun p s =>
    let (d, s) := s.ctlRead c p
    s.retireWith c rd (loadKindValue k (ofBytes d))) s

def storeOp (k : StoreKind) (rs1 rs2 : Reg) (imm : BitVec 12) (s : State) : State :=
  let c := s.focus.cluster
  let va := (s.reg c rs1 + imm.signExtend 64).toNat
  let v := (s.reg c rs2).toNat
  if storeWidth k = 8 then
    doubleAccess c va .write (fun p hi s => ([], s.ctlWrite c p (toBytes 4 (if hi then v / 2 ^ 32 else v)))) (fun _ s => s.retire c) s
  else ctlPlace c va (storeWidth k) .write plainTarget (fun p s => (s.ctlWrite c p (toBytes (storeWidth k) v)).retire c) s

/-- A controller that is to stop between the halves of an access makes the second half first (R329). -/
def State.finishHalf (s : State) (c : Nat) : State :=
  if (s.ctl c).half.isNone then s
  else
    let on := { s with focus := { s.focus with cluster := c } }
    let t := match (s.ctl c).latched with
      | .ok (.controllerLoad k rd rs1 imm) => loadOp k rd rs1 imm on
      | .ok (.controllerStore k rs1 rs2 imm) => storeOp k rs1 rs2 imm on
      | _ => s
    { t with focus := s.focus }

/-- FENCE: MFENCE at cluster scope, and the data cache's HBM lines go (R180). -/
def fenceOp (s : State) : State := (s.acquireCtl s.focus.cluster 1).retire s.focus.cluster

/-- FENCE.I: the controller's later fetches follow its earlier stores (R180). -/
def fenceIOp (s : State) : State :=
  let c := s.focus.cluster
  (s.setCtl c { s.ctl c with icache := [] }).retire c

def execControllerLoad (k : LoadKind) (rd rs1 : Reg) (imm : BitVec 12) (s : State) : Ans := .next (loadOp k rd rs1 imm s)
def execControllerStore (k : StoreKind) (rs1 rs2 : Reg) (imm : BitVec 12) (s : State) : Ans := .next (storeOp k rs1 rs2 imm s)
def execFence (_fm _pred _succ : BitVec 4) (_rs1 _rd : Reg) (s : State) : Ans := .next (fenceOp s)
def execFenceI (_imm : BitVec 12) (_rs1 _rd : Reg) (s : State) : Ans := .next (fenceIOp s)

/-! ## Atomics and reservations (R161, R162, R180) -/

/-- The sub-operation of R161 and its U bit. -/
def amoSub : AmoOp → Nat × Bool
  | .add => (0, false) | .min => (1, false) | .minu => (1, true) | .max => (2, false) | .maxu => (2, true)
  | .and => (3, false) | .or => (4, false) | .xor => (5, false) | .swap => (6, false)

/-- The value of a word or doubleword read for rd. -/
def amoValue (dbl : Bool) (old : Nat) : W64 := if dbl then BitVec.ofNat 64 old else sext32 (BitVec.ofNat 32 old)

/-- The copy of a line in a controller's data cache goes. -/
def State.dropCached (s : State) (c : Nat) (p : Piece) : State :=
  let k := s.ctl c
  s.setCtl c { k with dcache := k.dcache.filter (fun l => !(l.addr == lineOf p.pa && l.key == p.key)) }

/-- aq: an acquire at cluster scope (R180). -/
def State.aqCtl (s : State) (c : Nat) (aq : Bool) : State := if aq then s.acquireCtl c 1 else s

def amoOp (op : AmoOp) (dbl aq : Bool) (rd rs1 rs2 : Reg) (s : State) : State :=
  let c := s.focus.cluster
  let n := if dbl then 8 else 4
  ctlPlace c (s.reg c rs1).toNat n .write amoTarget (fun p s =>
    let (old, s) := s.atomic { s.ctlView c with key := p.key } p.pa (8 * n) (amoSub op).1 (amoSub op).2 (s.reg c rs2).toNat 0
    (((s.dropCached c p).holdWords p).aqCtl c aq).retireWith c rd (amoValue dbl old)) s

def lrOp (dbl aq : Bool) (rd rs1 : Reg) (s : State) : State :=
  let c := s.focus.cluster
  let n := if dbl then 8 else 4
  ctlPlace c (s.reg c rs1).toNat n .read amoTarget (fun p s =>
    let v := { s.ctlView c with key := p.key }
    let (old, s) := s.homeRead v p.pa n
    let s := s.dropCached c p
    let s := { s with resvs := s.resvs.set c (p.pa / 64 * 64) }
    ((s.holdWords p).aqCtl c aq).retireWith c rd (amoValue dbl old)) s

/-- SC succeeds while the controller's reservation covers its address; either way the reservation goes (R180). One that fails writes nothing,
and holds no word on the next cycle (log 89). -/
def scOp (dbl aq : Bool) (rd rs1 rs2 : Reg) (s : State) : State :=
  let c := s.focus.cluster
  let n := if dbl then 8 else 4
  ctlPlace c (s.reg c rs1).toNat n .write amoTarget (fun p s =>
    let held := s.resvs.find? c == some (p.pa / 64 * 64)
    let s := s.clearResv c
    let s := if held then (s.ctlWrite c p (toBytes n (s.reg c rs2).toNat)).holdWords p else s
    (s.aqCtl c aq).retireWith c rd (if held then 0 else 1)) s

def execAmo (op : AmoOp) (dbl aq _rl : Bool) (rd rs1 rs2 : Reg) (s : State) : Ans := .next (amoOp op dbl aq rd rs1 rs2 s)
def execLr (dbl aq _rl : Bool) (rd rs1 : Reg) (s : State) : Ans := .next (lrOp dbl aq rd rs1 s)
def execSc (dbl aq _rl : Bool) (rd rs1 rs2 : Reg) (s : State) : Ans := .next (scOp dbl aq rd rs1 rs2 s)

end Sys2Proof.Machine
end

