-- ==== Sys2Proof/Machine/System.lean ====
section
/-! DEFINITION. System instructions (R357 to R365), the end of a run in error (R285 to R290, R347), and the start and end of a
capture of a run (R27, R309, R329, R340, R344). -/
namespace Sys2Proof.Machine

/-! ## HALT, EVPOST, TRAPREC (R358, R359) -/

/-- Whether a copy of a controller has not ended (R358). -/
def Copy.openBy (k : Copy) : Bool := k.owner == .controller && (k.state == 1 || k.state == 3)

/-- HALT waits for its controller's commands and copies, then stops it with an exit value (R358). -/
def haltOp (rs1 : Reg) (s : State) : State :=
  let c := s.focus.cluster
  let v := s.reg c rs1
  if !fits v 32 then s.illegal c
  else if !(s.cluster c).cmds.isEmpty || (s.cluster c).copies.any (fun e => e.2.openBy) then s.wait c
  else (s.setCtl c { (s.ctl c).retire with st := .halted, exitv := v.truncate 32 }).clearResv c

/-- EVPOST posts an event to the queue of the run's packet; its vector is raised if that packet has NOTIFY (R358, R387). -/
def evpostOp (rs1 rs2 : Reg) (s : State) : State :=
  let c := s.focus.cluster
  let v := s.reg c rs1
  if !fits v 32 then s.illegal c
  else
    let r := s.run (s.runOf c)
    let s := s.postEvent r.queue 6 (s.cluster c).idx r.ctxtag v.toNat (s.reg c rs2)
    (if r.notify then s.raiseVec r.queue else s).retire c

/-- TRAPREC stores the trap record where asked, and returns its first 8 bytes (R359). -/
def traprecOp (rd rs1 : Reg) (s : State) : State :=
  let c := s.focus.cluster
  let a := s.reg c rs1
  let b := (s.ctl c).trap.bytes
  let v := BitVec.ofNat 64 (fieldAt b 0 8)
  if a = 0 then s.retireWith c rd v
  else ctlPlace c a.toNat 64 .write (fun t => t != .none && t != .reg) (fun p s =>
    let s := s.writePhys { s.ctlView c with key := p.key } p.pa b
    let k := s.ctl c
    (s.setCtl c { k with dcache := k.dcache.filter (fun l => !(l.addr == lineOf p.pa && l.key == p.key)) }).retireWith c rd v) s

def execHalt (rs1 : Reg) (s : State) : Ans := .next (haltOp rs1 s)
def execEvpost (rs1 rs2 : Reg) (s : State) : Ans := .next (evpostOp rs1 rs2 s)
def execTraprec (rd rs1 : Reg) (s : State) : Ans := .next (traprecOp rd rs1 s)

/-! ## PREQ, TXLAT (R363, R364) -/

/-- PREQ (R363). -/
def preqOp (rd rs1 : Reg) (s : State) : State :=
  let c := s.focus.cluster
  let v := s.reg c rs1
  let run := s.runOf c
  if !fits v 2 then s.illegal c
  else
    let r := s.run run
    let r := if v.getLsbD 0 ∧ r.preq.isNone then { r with preq := some (v.getLsbD 1) } else r
    (s.setRun run r).retireWith c rd (BitVec.ofNat 64 (r.resumes % 2 ^ 32 + (if r.preq.isSome then 2 ^ 32 else 0)))

/-- The word that TXLAT returns for a leaf (R364). -/
def txlatWord (s : State) (run va : Nat) (e : TlbEnt) : Nat :=
  let pa := e.pa + (va - e.va)
  let t := targetOf pa
  let die := match t with | .hbm d => d | .scratch x _ => dieOf x | .slice n _ => n / 21 | _ => 0
  let cl := match t with | .scratch x _ => if (s.cluster x).owner = some run then (s.cluster x).idx else 0xFF | _ => 0xFF
  1 + (if e.size = 2 ^ 40 then 2 else if e.size = 2 ^ 28 then 1 else 0) * 2 + (if e.w then 8 else 0) + (if e.x then 16 else 0) + t.kind * 32 +
    die * 256 + cl * 1024 + e.key * 2 ^ 18

/-- TXLAT walks an address without a fault and without an access (R364). -/
def txlatOp (rd rs1 : Reg) (s : State) : State :=
  let c := s.focus.cluster
  let va := (s.reg c rs1).toNat
  match s.leafFor c (s.tenantOf c) va with
  | (.error (l, r), s) => s.retireWith c rd (BitVec.ofNat 64 (l * 2 ^ 56 + r * 2 ^ 60))
  | (.ok e, s) => s.retireWith c rd (BitVec.ofNat 64 (txlatWord s (s.runOf c) va e))

def execPreq (rd rs1 : Reg) (s : State) : Ans := .next (preqOp rd rs1 s)
def execTxlat (rd rs1 : Reg) (s : State) : Ans := .next (txlatOp rd rs1 s)

/-! ## Gauges (R354 to R356, R365, R383) -/

/-- The clusters of a triad. -/
def triadClusters (t : Nat) : List Nat := [t, 64 + t, 128 + t]
def State.gauge (s : State) (c n : Nat) : Gauge := (s.cluster c).gauges.get Gauge.cleared n
def State.setGauge (s : State) (c n : Nat) (g : Gauge) : State :=
  let k := s.cluster c
  s.setCluster c { k with gauges := k.gauges.set n g }

/-- The fields of a configuration that must be zero are, and its EVENT is one of R355. -/
def gaugeCfgOk (v : Nat) : Bool := bits v 3 0 ≤ 6 && bits v 7 5 == 0 && bits v 15 11 == 0 && v < 2 ^ 32

/-- Set a gauge's configuration in its three shares; a change of EVENT clears it (R365). -/
def State.selectGauge (s : State) (t n : Nat) (cfg : W32) : State :=
  (triadClusters t).foldl (fun s c =>
    let g := s.gauge c n
    s.setGauge c n { (if bits g.cfg.toNat 3 0 = bits cfg.toNat 3 0 then g else Gauge.cleared) with cfg := cfg }) s

/-- Clear a gauge, but for its configuration (R356, R365). -/
def State.clearGauge (s : State) (t n : Nat) : State :=
  (triadClusters t).foldl (fun s c => s.setGauge c n { Gauge.cleared with cfg := (s.gauge c n).cfg }) s

/-- A field of a gauge over its three shares (R354, R365): 0 MIN, 1 MAX, 2 COUNT, 3 SUM, 4 to 19 the bins, 20 the configuration. -/
def State.gaugeField (s : State) (t n f : Nat) : Nat :=
  let gs := (triadClusters t).map (fun c => s.gauge c n)
  match f with
  | 0 => (gs.map (·.least)).foldl min 0xFFFFFFFF
  | 1 => (gs.map (·.most)).foldl max 0
  | 2 => min (gs.map (·.count)).sum (2 ^ 48 - 1)
  | 3 => min (gs.map (·.sum)).sum (2 ^ 64 - 1)
  | 20 => (s.gauge t n).cfg.toNat
  | f => min (gs.map (fun g => g.bins.get 0 (f - 4))).sum (2 ^ 32 - 1)

def gaugeselOp (rd rs1 rs2 : Reg) (s : State) : State :=
  let c := s.focus.cluster
  let v := s.reg c rs1
  let cfg := s.reg c rs2
  if !fits v 4 ∨ !gaugeCfgOk cfg.toNat then s.illegal c
  else
    let old := (s.gauge c v.toNat).cfg
    (s.selectGauge (triadOf c) v.toNat (cfg.truncate 32)).retireWith c rd (old.zeroExtend 64)

def gaugerdOp (rd rs1 : Reg) (s : State) : State :=
  let c := s.focus.cluster
  let v := s.reg c rs1
  if !fits v 10 ∨ 20 < bits v.toNat 9 4 then s.illegal c
  else s.retireWith c rd (BitVec.ofNat 64 (s.gaugeField (triadOf c) (bits v.toNat 3 0) (bits v.toNat 9 4)))

/-- Clear the gauges of a mask (R365). -/
def State.clearGauges (s : State) (t mask : Nat) : State :=
  ((List.range 16).filter mask.testBit).foldl (fun s n => s.clearGauge t n) s

def gaugeclrOp (rs1 : Reg) (s : State) : State :=
  let c := s.focus.cluster
  let v := s.reg c rs1
  if !fits v 16 then s.illegal c else (s.clearGauges (triadOf c) v.toNat).retire c

def execGaugesel (rd rs1 rs2 : Reg) (s : State) : Ans := .next (gaugeselOp rd rs1 rs2 s)
def execGaugerd (rd rs1 : Reg) (s : State) : Ans := .next (gaugerdOp rd rs1 s)
def execGaugeclr (rs1 : Reg) (s : State) : Ans := .next (gaugeclrOp rs1 s)

/-! ## The pages of a run -/

/-- The page identifiers of a run. -/
def State.pagesOf (s : State) (run : Nat) : List Nat := (s.pages.filter (fun e => e.2.run == run && e.1 == pidOf run e.2.handle)).map Prod.fst

/-- The pages of a run that hold regions and take part in a capture (R326). -/
def State.livePages (s : State) (run : Nat) : List Nat := (s.pagesOf run).filter (fun p => decide (3 ≤ (s.page p).level) && decide ((s.page p).level ≤ 5))

/-- Take the regions of a page back from it. -/
def State.dropRegions (s : State) (pid : Nat) : State :=
  (s.regionsOf pid).foldl (fun s rid => if (s.region rid).holder.isSome && s.pageOf rid == pid then s.setRegion rid (s.region rid).release else s) s

/-! ## The end of a run in error (R285, R289, R347) -/

/-- The 64 bytes of an error record with a number of snag entries (R285). -/
def errorBytes (e : ErrRec) (ctxtag : W32) (nsnag : Nat) : List Byte :=
  block 64 [(0, toBytes 2 e.cause), (2, toBytes 1 e.code), (4, toBytes 4 ctxtag.toNat), (8, toBytes 1 e.page), (9, toBytes 1 e.ring),
    (0xA, toBytes 1 e.slot), (0xB, toBytes 1 e.sreg), (0xC, toBytes 1 e.cluster), (0x10, toBytes 8 e.word), (0x18, toBytes 8 e.addr),
    (0x20, toBytes 8 e.tick.toNat), (0x28, toBytes 4 nsnag)]

/-- Write a run's error area (R285, R290, R347); one that does not translate is not written. -/
def State.writeErrorArea (s : State) (run : Nat) (snags : List (List Byte)) : State :=
  let r := s.run run
  match r.err with
  | none => s
  | some e =>
    let body : List Byte := if e.cause = 0xF then
        (List.range 192).flatMap (fun i => r.traps.get (toBytes 64 0) i)
      else (snags.take 4092).flatten
    let body := if e.cause = 0xF then body.take (64 * ((r.traps.keys.foldl max 0) + 1)) else body
    match s.tenantWrite r.tenant r.body.errarea.toNat (errorBytes e r.ctxtag (if e.cause = 0xF then 0 else snags.length) ++ body) with
    | .ok s => s
    | .error _ => s

/-- Every controller of a run stops, an access of which half is made once the other half is (R329, R347). -/
def State.stopControllers (s : State) (run : Nat) : State :=
  (s.run run).clusters.foldl (fun s c =>
    let s := if (s.ctl c).st = .running then s.finishHalf c else s
    let k := s.ctl c
    if k.st = .running ∨ k.st = .waiting then
      (s.setCtl c { k with st := .stopped, waitWord := k.st == .waiting, dcache := [], icache := [], overflow := none }).clearResv c
    else s) s

/-- The pages of a run are torn down as if freed, and its bindings, copies and controllers stopped (R289). -/
def State.tearDown (s : State) (run : Nat) : State :=
  -- a WAYSET that has come to its moment completes (R329): its writers are those of the run, which stop here
  let ways := (s.run run).clusters.flatMap s.waysetsOf
  let s := s.stopControllers run
  let s := (s.pagesOf run).foldl (fun s pid =>
    let p := s.page pid
    if 6 ≤ p.level then s
    else
      let s := (s.regionsOf pid).foldl (fun s rid => if 2 ≤ p.level then s.settleNode rid else s) s
      let s := if 2 ≤ p.level then (s.dropBindings pid).dropRegions pid else s
      s.setPage pid { s.page pid with level := 7, captured := false, svReq := none }) s
  let s := (s.run run).edges.foldl (fun s e => s.freeEdge run e.1) s
  let r := s.run run
  let s := s.setRun run { r with waves := [], chans := r.chans.map (fun e => (e.1, { e.2 with node := none, freed := true, toks := [], flight := [], creditFlight := [] })) }
  State.refreshDetour <| r.clusters.foldl (fun s c =>
    let k := s.cluster c
    let mine (x : Copy) : Bool := match x.owner with | .packet _ _ => false | _ => x.state == 1 || x.state == 3
    let ids := (k.copies.filter (fun e => mine e.2)).map (fun e => e.2.entry)
    s.setCluster c { k with
      copies := k.copies.map (fun e => (e.1, if mine e.2 then { e.2 with state := 5 } else e.2))
      sched := (k.sched.filter (fun x => !ids.contains x.ident)).map (fun x => { x with preds := x.preds.filter (fun i => !ids.contains i) })
      cmds := [] }) (ways.foldl (fun s w => s.setWays w.1 w.2) s)

/-! ## The snag map (R290) -/

/-- One entry of the snag map. -/
def snagEntry (cluster region page unit why queue slot detail : Nat) : List Byte :=
  toBytes 1 cluster ++ toBytes 1 region ++ toBytes 1 page ++ toBytes 1 unit ++ toBytes 1 why ++ toBytes 1 queue ++ toBytes 1 slot ++ [0] ++
  toBytes 8 detail

/-- The SEQ of the binding that is current on a port, or 0xFFFF. -/
def State.seqOn (s : State) (pid code : Nat) : Nat :=
  let rid := (s.page pid).region (code / 32)
  ((List.range 4).findSome? (fun ch => match (s.chan rid ch).cur with | some b => if b.port == code % 32 then some b.seq else none | none => none)).getD 0xFFFF

/-- What lies beyond the page boundary at a port: its edge index, or its binding's SEQ, or 0xFFFF; a follower's binding is its lead's. -/
def State.beyond (s : State) (pid code : Nat) : Nat :=
  let p := s.page pid
  match s.portConn pid code with
  | .edge e => e
  | .chan _ => 0xFFFF
  | .follower =>
    match (s.run p.run).seams.find? (fun m => m.followers.contains (p.handle, code)) with
    | some m => s.seqOn (pidOf p.run m.lead.1) m.lead.2
    | none => 0xFFFF
  | _ => s.seqOn pid code

/-- The route index of a unit's input queue, and the source code of its output queue (R275). -/
def inIndex (unit queue : Nat) : Nat := if unit < 64 then 4 * unit + queue % 4 else if unit = 64 then 272 + queue % 4 else 276 + queue % 4
def outCode (unit queue : Nat) : Nat := if unit < 64 then unit else if unit = 64 then 0x50 + queue % 4 else 0x55

/-- DETAIL of a blocked pop or push (R290). -/
def State.snagDetail (s : State) (pid : Nat) (b : Block) : Nat :=
  let sreg := s.sregOf b.rid
  if b.why = 0 ∧ b.chan.isSome then sreg * 4096 + 0x40 + b.queue + 0xFFFF * 65536
  else if b.why = 0 then
    let src := (s.region b.rid).routes.get 0xFFFF (inIndex b.unit (b.queue % 4))
    let port := decide (0x40 ≤ src % 4096) && decide (src % 4096 < 0x50)
    src + (if port && src != 0xFFFF then s.beyond pid (src / 4096 * 32 + (src % 4096 - 0x40)) else 0xFFFF) * 65536
  else if b.why = 1 ∧ 16 ≤ b.queue ∧ b.queue < 32 then 240 + b.queue + s.beyond pid (sreg * 32 + b.queue) * 65536
  else if b.why = 1 then
    match (s.destsOf pid (sreg * 4096 + outCode b.unit (b.queue % 4))).find? (fun d => !s.destRoom d.1 d.2) with
    | some d =>
      let port := decide (256 ≤ d.2) && decide (d.2 < 272)
      d.2 + (if port then s.beyond pid (s.sregOf d.1 * 32 + 16 + (d.2 - 256)) else 0xFFFF) * 65536
    | none => 0xFFFFFFFF
  else 0

/-- WHY of a cause in the order of R21 (R290). -/
def snagWhy (cause : Nat) : Nat := if cause = 6 then 8 else cause + 1

/-- What a page's banks have blocked on its last cycle: the near accesses of its nodes that were turned away (R151, R290). -/
def State.bankBlocks (s : State) (pid : Nat) : List Block :=
  let p := s.page pid
  if p.frozen ∧ p.causes.contains 3 then (s.regionsOf pid).flatMap (fun rid => (s.nodeReqs rid).map (fun _ => Block.of rid 64 3 255)) else []

/-- What blocks a binding that has begun: WHY, its queue or port, and the code of that (R290): an index token that is not there, a full
input port or trigger queue, or an empty output port. One that waits for its start has no entry (log 101). -/
def State.bindingSnag (s : State) (rid ch : Nat) (b : Binding) : Option (Nat × Nat × Nat) :=
  let taken (code : Nat) : Bool := (s.outp rid (code - 16)).q.toks.isEmpty
  if !b.moving then none
  else if chanReads ch then
    if b.replies.isEmpty ∧ b.kind = .indexed ∧ taken b.iport then some (1, b.iport, 240 + b.iport)
    else some (2, b.port, s.sregOf rid * 4096 + 0x40 + b.port)
  else if b.kind = .trigger ∧ !taken b.port then some (2, bits b.target 3 0, 240 + b.port)
  else some (1, b.port, 240 + b.port)

/-- The entries of a page that holds regions (R26, R290). -/
def State.pageSnags (s : State) (pid : Nat) : List (List Byte) :=
  let p := s.page pid
  let ci := (s.cluster p.cluster).idx
  (s.regionsOf pid).flatMap fun rid =>
    let blocks := if p.level < 4 then [snagEntry ci (rid % 16) p.handle 0 9 0xFF p.counter 0]
      else ((List.range 66).flatMap (fun u => (s.pageBlocks pid ++ s.bankBlocks pid ++ s.retireBlocks pid).filter (fun b => b.rid == rid && b.unit == u))).map (fun b =>
        snagEntry ci (rid % 16) p.handle b.unit (snagWhy b.why) b.queue p.counter (s.snagDetail pid b))
    blocks ++ [0, 1, 2, 3].filterMap (fun ch => match (s.chan rid ch).cur with
      | some b => (s.bindingSnag rid ch b).map (fun x => snagEntry ci (rid % 16) p.handle (66 + ch / 2) x.1 x.2.1 p.counter (x.2.2 + b.seq * 65536))
      | none => none)

/-- The snag map of a run, by cluster index, then region, then unit (R290). -/
def State.snagMap (s : State) (run : Nat) : List (List Byte) :=
  (s.run run).clusters.flatMap fun c =>
    let pids := (List.range 16).filterMap (fun i => match (s.region (16 * c + i)).holder with | some (pid, _) => some (i, pid) | none => none)
    (pids.flatMap fun e => (s.pageSnags e.2).filter (fun b => b[1]? == some (BitVec.ofNat 8 e.1))) ++
    (if (s.ctl c).st = .waiting then [snagEntry (s.cluster c).idx 0xFF 0xFF 68 7 0xFF 0 (s.ctl c).insn.toNat] else [])

/-! ## The end of a run (R374, R384) -/

/-- A cluster that its run gives back: its synchronisation unit, its gauges and the trap record stay, and so do the copies of COPY packets,
which wait for the entries that have gone no longer (R228, R243, R349, R354, R380). -/
def Cluster.returned (k : Cluster) : Cluster :=
  let kept := k.copies.filter (fun e => match e.2.owner with | .packet _ _ => true | _ => false)
  let stays (x : SchedEnt) : Bool := match x.copy with | some n => kept.any (fun e => e.1 == n) | none => false
  let gone := (k.sched.filter (fun x => !stays x)).map (fun x => x.ident)
  { Cluster.reset with
    ctl := { Ctl.reset with trap := k.ctl.trap }
    sems := k.sems, handlers := k.handlers, pending := k.pending, park := k.park
    gauges := k.gauges, gtenant := k.gtenant, copies := kept
    sched := (k.sched.filter stays).map (fun x => { x with preds := x.preds.filter (fun i => !gone.contains i) }) }

/-- UNMAP: the clusters of a run go back, their scratchpads filled with zeros and their TLBs discarded (R374). -/
def State.unmapRun (s : State) (run : Nat) : State :=
  (s.run run).clusters.foldl (fun s c =>
    if (s.cluster c).owner == some run then
      let s := (List.range 16).foldl (fun s i => s.setRegion (16 * c + i) (s.region (16 * c + i)).release) s
      { s.setCluster c (s.cluster c).returned with mem := memClear s.mem (scratchAddr c 0) 0x1000000, resvs := s.resvs.del c }
    else s) s

def execUnmap (s : State) : Ans := .next (s.unmapRun s.focus.run)

/-- A run and its pages leave the run list. -/
def State.forgetRun (s : State) (run : Nat) : State :=
  State.refreshDetour { s with runs := s.runs.del run, pages := s.pages.filter (fun e => e.2.run != run) }

/-- Write the exit values, one word for each cluster of the run (R384). -/
def State.writeExits (s : State) (run : Nat) : State :=
  let r := s.run run
  let d := r.clusters.flatMap (fun c => toBytes 4 (s.ctl c).exitv.toNat)
  match s.tenantWrite r.tenant r.body.exits.toNat d with
  | .ok s => s
  | .error _ => s

/-- The packet of a run completes with a STATUS: 0 completed, 1 error with a cause, 2 pre-empted with a reason (R384). -/
def State.finishRun (s : State) (run status what : Nat) : State :=
  let r := s.run run
  let s := if status = 0 then s.writeExits run else s
  let s := (s.unmapRun run).forgetRun run
  let q := s.queue r.queue
  let s := s.setQueue r.queue { q with run := none, state := if q.state = 5 then 5 else 2, started := false }
  let s := if status = 1 then s.queueError r.queue what r.ctxtag true
    else ((s.postEvent r.queue 2 0xFFFF r.ctxtag status (BitVec.ofNat 64 what)).raiseVec r.queue).completePacket r.queue
  s.rereads r.queue.tenant

/-- Complete a run, or hold its completion while a live update has stopped the processor (R390). -/
def State.endRun (s : State) (run status what : Nat) : State :=
  if s.qc.quiet = 0 then s.finishRun run status what
  else { s.setRun run { s.run run with phase := .done } with qc := { s.qc with kept := s.qc.kept ++ [(run, status, what)] } }

/-- The end of a run in error: the error area, teardown, the queue's error state (R285, R289). -/
def State.endInError (s : State) (run : Nat) (snags : List (List Byte)) : State :=
  let s := (s.writeErrorArea run snags).tearDown run
  match (s.run run).err with
  | some e => s.endRun run 1 e.cause
  | none => s

/-- RUN_ERROR (R285). -/
def runError (s : State) : State :=
  if (s.run s.focus.run).phase = .erring then s.endInError s.focus.run [] else s

/-- HANG_LIMIT_EXPIRY: the snag map, the error record, teardown (R289). -/
def hangLimitExpiry (s : State) : State :=
  let run := s.focus.run
  let r := s.run run
  if (r.phase = .active ∨ r.phase = .switching) ∧ r.hanglim ≠ 0 ∧ r.hanglim ≤ r.hang then
    let snags := s.snagMap run
    (s.setRun run { r with phase := .erring, err := some (ErrRec.of .hang (s.die 0).tick) }).endInError run snags
  else s

/-- Whether the edge buffers of a run are as a tack capture leaves them: empty, but for those of a retiring consumer, whose tokens are
discarded with it (R284, R341). -/
def State.edgesDrained (s : State) (run : Nat) : Bool :=
  let r := s.run run
  !r.tack || r.edges.all (fun e => e.2.freed || e.2.count == 0 || (s.page (pidOf run e.2.cpage)).level == 5)

/-- GRACE_EXPIRY: a run with a region that is not captured in time, or in a tack capture with a buffer that is not empty, is killed
(R27, R288, R341). -/
def graceExpiry (s : State) : State :=
  let run := s.focus.run
  let r := s.run run
  if r.phase = .switching ∧ r.graceLeft = some 0 ∧ !((s.livePages run).all (fun p => (s.page p).captured) && s.edgesDrained run) then
    s.raise run (ErrRec.of .kill (s.die 0).tick)
  else s

def execRunError (s : State) : Ans := .next (runError s)
def execHangLimitExpiry (s : State) : Ans := .next (hangLimitExpiry s)
def execGraceExpiry (s : State) : Ans := .next (graceExpiry s)

/-- Whether a run has come to its end (R384). -/
def State.runOver (s : State) (run : Nat) : Bool :=
  let r := s.run run
  r.phase == .active && r.err.isNone && r.resumeAt.isNone &&
  r.clusters.all (fun c => (s.ctl c).st == .halted || (s.ctl c).st == .off) &&
  r.waves.all (fun e => ((s.graphOf run e.graph).wavePages e.wave).all (fun h => decide (6 ≤ (s.page (pidOf run h)).level))) &&
  r.clusters.all (fun c => (s.cluster c).copies.all (fun e => !(e.2.owner == .template && (e.2.state == 1 || e.2.state == 3))))

/-- RUN_COMPLETION (R384). -/
def runCompletion (s : State) : State := if s.runOver s.focus.run then s.endRun s.focus.run 0 0 else s

def execRunCompletion (s : State) : Ans := .next (runCompletion s)

/-! ## A capture of a run begins (R27, R309, R310, R329, R340) -/

/-- Whether a run's controllers have all halted and its pages all retired, so that a SWITCH has no effect (R374). -/
def State.nothingLeft (s : State) (run : Nat) : Bool :=
  (s.run run).clusters.all (fun c => (s.ctl c).st == .halted || (s.ctl c).st == .off) && (s.pagesOf run).all (fun p => decide (6 ≤ (s.page p).level))

/-- Whether a controller is at no instruction boundary yet: it waits in WAYSET, or half of an access is made (R167, R329), or a trap waits to be
taken at that boundary (R346). -/
def Ctl.finishing (k : Ctl) : Bool := k.inWayset || k.half.isSome || k.overflow.isSome

/-- A controller stops at its instruction boundary; an instruction that waits is abandoned, but for WAYSET, which completes
first (R329). -/
def State.stopForCapture (s : State) (c : Nat) : State :=
  let k := s.ctl c
  if (k.st = .running ∨ k.st = .waiting) ∧ !k.finishing then
    (s.setCtl c { k with st := .stopped, waitWord := k.st == .waiting, dcache := [], icache := [] }).clearResv c
  else s

/-- The tacks that a tack capture appends to the input ports that no edge and no channel node feeds (R340). -/
def State.kickJobs (s : State) (run : Nat) : List Job :=
  (s.livePages run).flatMap fun pid =>
    ((s.inPorts pid).filter (fun code => match s.portConn pid code with | .edge _ => false | .chan _ => false | _ => true)).map (fun code =>
      .ev .tackTokenArrival { Focus.none with page := pid, num := code })

/-- A capture of a run begins, in a mode and for a reason. -/
def State.beginCapture (s : State) (run : Nat) (tack : Bool) (why : SwitchWhy) : State :=
  let r := s.run run
  if r.phase ≠ .active ∨ r.resumeAt.isSome ∨ s.nothingLeft run then s
  else
    let s := s.setRun run { r with phase := .switching, why := why, tack := tack, elasticAll := true, graceLeft := some r.grace, preq := none }
    let s := (s.livePages run).foldl (fun s pid => s.setPage pid { s.page pid with capReq := true }) s
    let s := r.clusters.foldl (fun s c =>
      let k := s.ctl c
      if why = .timing ∧ (k.st = .running ∨ k.st = .waiting) then s else s.stopForCapture c) s
    if tack then s.pushJobs (s.kickJobs run) else s

/-- SWITCH (R27, R374): `focus.flag` is its mode, `focus.num` says why: 0 the scheduler, 2 a request. -/
def switchRun (s : State) : State := s.beginCapture s.focus.run s.focus.flag (if s.focus.num = 2 then .request else .scheduler)

def execSwitch (s : State) : Ans := .next (switchRun s)

/-- INFO of a TIMING trap: the channel handle and the kind (R348). -/
def timingInfo (chan kind : Nat) : W64 := BitVec.ofNat 64 (chan + kind * 256)

/-- A controller takes the timing-fault trap of its run (R309). -/
def State.timingTrap (s : State) (c : Nat) : State :=
  let k := s.ctl c
  let s := s.takeTrap c .timing 0 (s.run (s.runOf c)).timingInfo
  s.setCtl c { s.ctl c with waitWord := k.st == .waiting, dcache := [], icache := [] }

/-- A controller whose run is being captured is at an instruction boundary, as after a WAYSET that was waiting: it stops, or takes the
trap of the timing fault (R309, R329). -/
def State.stopCtl (s : State) (c : Nat) : State :=
  let r := s.run (s.runOf c)
  if r.phase ≠ .switching ∨ (s.ctl c).st ≠ .running ∨ (s.ctl c).finishing then s
  else if r.why = .timing then s.timingTrap c else s.stopForCapture c

/-- TIMING_FAULT: the channel's FAULT is set, the run is pre-empted, and every running or waiting controller traps (R308, R309). -/
def timingFault (s : State) : State :=
  let run := s.focus.run
  let r := s.run run
  let h := s.focus.chan
  let s := if h < r.chans.length then s.setChanOf run h { s.chanOf run h with fault := true } else s
  if r.phase ≠ .active ∨ r.resumeAt.isSome then s
  else
    let s := s.beginCapture run false .timing
    let s := s.setRun run { s.run run with timingInfo := timingInfo h s.focus.num }
    r.clusters.foldl (fun s c => let k := s.ctl c; if (k.st = .running ∨ k.st = .waiting) ∧ !k.finishing then s.timingTrap c else s) s

def execTimingFault (s : State) : Ans := .next (timingFault s)

end Sys2Proof.Machine
end

