-- ==== Sys2Proof/Machine/Link.lean ====
section
/-! DEFINITION. External links (R405, R406): link work requests, requests that arrive from a peer, and their completion. A request
leaves in `linkReq` beside the package or the Ethernet address that it goes to, and is carried out there; the peer's answer arrives in `linkIn`, and
what this package answers leaves in `linkOut`. -/
namespace Sys2Proof.Machine

/-- Whether a work request breaks the layout of R405 for its operation. -/
def workBad (r : WorkReq) (op : Nat) : Bool :=
  r.junk || decide (1 < r.fabric.toNat) || (op == 4 && r.fabric.toNat != 1) || r.len == 0 || (decide (3 ≤ op) && r.len != 8) ||
  (op != 4 && r.domain != 0) || (r.fabric.toNat == 1 && decide (47 < r.peer.toNat))

/-- An atomic 8-byte add at a tenant's address, at its point of performance; not on host memory (R161, R382). -/
def State.tenantAdd (s : State) (tenant va : Nat) (v : W64) : Except AccErr State :=
  match s.tenantPieces tenant .write va 8 with
  | .error e => .error e
  | .ok (p :: _) =>
    match targetOf p.pa with
    | .host => .error (.access va 3)
    | _ => .ok (s.atomic (View.firmware p.key) p.pa 64 0 true v.toNat 0).2
  | .ok [] => .error (.access va 0)

/-- A request as it leaves for a peer, with the bytes that it carries (R405, R406). -/
def State.outRequest (s : State) (id : QueueId) (r : WorkReq) (op : Nat) (d : List Byte) : RemoteReq :=
  ⟨op, r.fabric.toNat, s.dev.package, id.tenant, r.rtenant.toNat, r.raddr.toNat, r.len.toNat, d, id.num⟩

/-- Where a request goes: the package of its peer, or the Ethernet address of its endpoint in the table that the PF has written (R405). -/
def State.peerOf (s : State) (r : WorkReq) : Nat := if r.fabric = 0 then s.dev.endpoints.get 0 r.peer.toNat else r.peer.toNat

/-- Requests leave for their peers, and the one that has begun waits for its answer. -/
def State.linkWait (s : State) (id : QueueId) (r : WorkReq) (op : Nat) (out : List (Nat × RemoteReq)) : State :=
  ({ s with linkReq := s.linkReq ++ out } : State).setQueue id { s.queue id with pendingWr := some (r, op) }

/-- A work request completes with a packet-complete event (R406). -/
def State.linkDone (s : State) (id : QueueId) (tag : W32) : State :=
  let s := s.setQueue id { s.queue id with pendingWr := none }
  (s.postEvent id 1 0xFFFF tag 0 0).completePacket id

/-- A work request completes with an error event, and its queue goes on (R406; log 12). -/
def State.linkFailed (s : State) (id : QueueId) (tag : W32) : State :=
  let s := s.setQueue id { s.queue id with pendingWr := none }
  ((s.postEvent id 4 0xFFFF tag 0x22 0).raiseVec id).completePacket id

/-- LINK_WRITE: the local bytes are read and sent to the peer. -/
def linkWriteOp (r : WorkReq) (s : State) : State :=
  let id := s.focus.queue
  if workBad r 1 then s.failPacket id 0x20
  else match s.tenantRead id.tenant r.laddr.toNat r.len.toNat with
    | .error _ => s.failPacket id 0x22
    | .ok d => s.linkWait id r 1 [(s.peerOf r, s.outRequest id r 1 d)]

/-- LINK_READ: the local bytes must be writable; the peer is asked. -/
def linkReadOp (r : WorkReq) (s : State) : State :=
  let id := s.focus.queue
  if workBad r 2 then s.failPacket id 0x20
  else match s.tenantPieces id.tenant .write r.laddr.toNat r.len.toNat with
    | .error _ => s.failPacket id 0x22
    | .ok _ => s.linkWait id r 2 [(s.peerOf r, s.outRequest id r 2 [])]

/-- LINK_ADD: the local 8 bytes are read and sent to the peer. -/
def linkAddOp (r : WorkReq) (s : State) : State :=
  let id := s.focus.queue
  if workBad r 3 then s.failPacket id 0x20
  else match s.tenantRead id.tenant r.laddr.toNat 8 with
    | .error _ => s.failPacket id 0x22
    | .ok d => s.linkWait id r 3 [(s.peerOf r, s.outRequest id r 3 d)]

/-- The packages and the ID that an ALLRED names. -/
def allredId (r : WorkReq) : Nat := r.domain.toNat / 2 ^ 48
def allredMask (r : WorkReq) : List Nat := (List.range 48).filter r.domain.toNat.testBit

/-- Whether every package of a domain has posted, and then the sum in package order (R406). -/
def State.allredSum (s : State) (r : WorkReq) : Option W64 :=
  (allredMask r).foldl (fun acc p =>
    match acc, s.allred.find? (fun a => a.ident == allredId r && a.package == p) with
    | some v, some a => some (v + a.value)
    | _, _ => none) (some 0)

/-- Use up one post of each package of a domain. -/
def State.takePosts (s : State) (r : WorkReq) : State :=
  (allredMask r).foldl (fun s p => { s with allred := s.allred.eraseP (fun a => a.ident == allredId r && a.package == p) }) s

/-- The post of this package goes to every other package of the domain, with its ID in place of a queue (R406). -/
def State.outPosts (s : State) (id : QueueId) (r : WorkReq) (d : List Byte) : List (Nat × RemoteReq) :=
  ((allredMask r).filter (fun p => p != s.dev.package)).map (fun p => (p, { s.outRequest id r 4 d with ident := allredId r }))

/-- ALLRED: this package posts its value. -/
def allredOp (r : WorkReq) (s : State) : State :=
  let id := s.focus.queue
  if workBad r 4 then s.failPacket id 0x20
  else match s.tenantRead id.tenant r.laddr.toNat 8, s.tenantPieces id.tenant .write r.laddr.toNat 8 with
    | .ok d, .ok _ =>
      let post : AllredPost := ⟨allredId r, s.dev.package, BitVec.ofNat 64 (ofBytes d)⟩
      State.linkWait { s with allred := s.allred ++ [post] } id r 4 (s.outPosts id r d)
    | _, _ => s.failPacket id 0x22

/-- A waiting ALLRED of a queue gives up: its posts go, and every package of its domain hears of it (R406). -/
def State.allredGone (s : State) (id : QueueId) : State :=
  match (s.queue id).pendingWr with
  | some (r, 4) => { s.takePosts r with linkOut := s.linkOut ++ [⟨id, false, toBytes 8 r.domain.toNat⟩] }
  | _ => s

/-- A queue that is disabled while its ALLRED waits: the request completes with an error event at every package (R406). -/
def State.allredAbort (s : State) (id : QueueId) : State :=
  match (s.queue id).pendingWr with
  | some (r, 4) => (s.allredGone id).linkFailed id r.ctxtag
  | _ => s

/-- The post that a queue's waiting ALLRED has made at this package is taken back: the request starts again and posts again (R391). -/
def State.dropPost (s : State) (id : QueueId) : State :=
  match (s.queue id).pendingWr with
  | some (r, 4) => { s with allred := s.allred.eraseP (fun a => a.ident == allredId r && a.package == s.dev.package) }
  | _ => s

/-- Whether a tenant has granted requests of a peer's tenant on a fabric (R398, R406). -/
def Tenant.granted (t : Tenant) (r : RemoteReq) : Bool :=
  t.created && t.grants.any (fun g => (g.peer == 0xFF || g.peer == r.package) && g.ptenant == r.ptenant && g.fabric == r.fabric)

/-- REMOTE_REQUEST: a peer's request is performed at the tenant, or refused with the tenant unchanged (R406); `op` 4 is a peer's
ALLRED post. -/
def remoteOp (r : RemoteReq) (s : State) : State :=
  let back : QueueId := ⟨r.ptenant, true, r.ident⟩
  let answer (s : State) (ok : Bool) (d : List Byte) : State := { s with linkOut := s.linkOut ++ [⟨back, ok, d⟩] }
  if s.dev.safe then s
  else if r.op = 4 then { s with allred := s.allred ++ [⟨r.ident, r.package, BitVec.ofNat 64 (ofBytes r.data)⟩] }
  else if !(s.tenant r.rtenant).granted r then answer s false []
  else match r.op with
    | 1 => match s.tenantWrite r.rtenant r.raddr r.data with
      | .ok s => answer s true []
      | .error _ => answer s false []
    | 2 => match s.tenantRead r.rtenant r.raddr r.len with
      | .ok d => answer s true d
      | .error _ => answer s false []
    | 3 => if r.raddr % 8 ≠ 0 then answer s false []
      else match s.tenantAdd r.rtenant r.raddr (BitVec.ofNat 64 (ofBytes r.data)) with
        | .ok s => answer s true []
        | .error _ => answer s false []
    | _ => answer s false []

/-- WORK_REQUEST_COMPLETION: the answer of the peer, or the last post of an ALLRED, has arrived, or word that the queue of a package
that takes part has been disabled (R406). -/
def workRequestCompletion (s : State) : State :=
  let id := s.focus.queue
  match (s.queue id).pendingWr with
  | none => s
  | some (r, op) =>
    match s.linkIn.find? (fun a => a.queue == id) with
    | some a =>
      let s := { s with linkIn := s.linkIn.eraseP (fun a => a.queue == id) }
      if !a.ok then (if op = 4 then s.takePosts r else s).linkFailed id r.ctxtag
      else if op = 2 then
        match s.tenantWrite id.tenant r.laddr.toNat ((a.data ++ List.replicate (r.len.toNat - a.data.length) 0).take r.len.toNat) with
        | .ok s => s.linkDone id r.ctxtag
        | .error _ => s.linkFailed id r.ctxtag
      else s.linkDone id r.ctxtag
    | none =>
      if op = 4 then
        match s.allredSum r with
        | none => s
        | some v => match (s.takePosts r).tenantWrite id.tenant r.laddr.toNat (toBytes 8 v.toNat) with
          | .ok s => s.linkDone id r.ctxtag
          | .error _ => (s.takePosts r).linkFailed id r.ctxtag
      else s

def execLinkWrite (r : WorkReq) (s : State) : Ans := .next (linkWriteOp r s)
def execLinkRead (r : WorkReq) (s : State) : Ans := .next (linkReadOp r s)
def execLinkAdd (r : WorkReq) (s : State) : Ans := .next (linkAddOp r s)
def execAllred (r : WorkReq) (s : State) : Ans := .next (allredOp r s)
def execRemoteRequest (r : RemoteReq) (s : State) : Ans := .next (remoteOp r s)
def execWorkRequestCompletion (s : State) : Ans := .next (workRequestCompletion s)

end Sys2Proof.Machine
end

