-- ==== Sys2Proof/Machine/Restore.lean ====
section
/-! DEFINITION. The save area of a run (R342 to R345, R385): the end of a capture, the checks and steps of a restore (R338), and
the resumption of restored regions (R310, R339). -/
namespace Sys2Proof.Machine

/-! ## The save area (R344, R385) -/

/-- A record with its directory kind and ID (R344). -/
structure Rec where
  kind : Nat
  id : Nat
  data : List Byte
  deriving DecidableEq, Repr

/-- A region that an entry of kind 1 names: 16 × handle + SREG. -/
def regionId (handle sreg : Nat) : Nat := 16 * handle + sreg

/-- The records of a captured run: regions, clusters, edges, channels (R344). -/
def State.records (s : State) (run : Nat) : List Rec :=
  let r := s.run run
  let idx (c : Nat) : Nat := (s.cluster c).idx
  (s.livePages run).flatMap (fun pid => (s.regionsOf pid).map (fun rid => ⟨1, regionId (s.page pid).handle (s.sregOf rid), s.regionRecord rid r.tack⟩)) ++
  r.clusters.map (fun c => ⟨2, idx c, (s.cluster c).record⟩) ++
  r.edges.map (fun e => ⟨3, e.1, e.2.bytes e.1 (idx e.2.cluster)⟩) ++
  r.chans.map (fun c => ⟨4, c.1, c.2.bytes c.1⟩)

/-- The next 4 KiB boundary. -/
def pad4k (n : Nat) : Nat := (n + 4095) / 4096 * 4096

/-- The offset of each record in the save area. -/
def recOffsets : Nat → List Rec → List (Nat × Rec)
  | _, [] => []
  | o, r :: t => (o, r) :: recOffsets (pad4k (o + r.data.length)) t

/-- The header of a save area (R344). -/
def saveHeader (r : Run) (digest : BitVec 512) (ndir resumes : Nat) (capt : Bool) : List Byte :=
  block 4096 [(0, [0x53, 0x56, 0x52, 0x4E]), (4, toBytes 2 1), (6, toBytes 2 (boolBit r.tack 0)), (8, toBytes 4 ndir), (0xC, toBytes 4 resumes),
    (0x10, toBytes 1 r.tenant), (0x11, toBytes 1 r.triads.length), (0x12, toBytes 1 (boolBit capt 0)), (0x18, toBytes 8 digest.toNat)]

/-- The offset of the scratch image of run cluster index i (R385). -/
def State.imageOff (s : State) (r : Run) (i : Nat) : Nat := r.body.savesz.toNat * 65536 - (3 * r.triads.length - i) * s.scrcap

/-- Write a list of pieces of a save area, each at its offset. -/
def State.writeArea (s : State) (tenant base : Nat) : List (Nat × List Byte) → Except AccErr State
  | [] => .ok s
  | (o, d) :: t => match s.tenantWrite tenant (base + o) d with
    | .error e => .error e
    | .ok s => s.writeArea tenant base t

/-- Save the scratch windows of a run's clusters (R385). -/
def State.saveScratch (s : State) (r : Run) : List (Nat × Nat) → Except AccErr State
  | [] => .ok s
  | (c, i) :: t => match s.tenantPieces r.tenant .write (r.body.savearea.toNat + s.imageOff r i) s.scrcap with
    | .error e => .error e
    | .ok l => (s.bulkPut 0 l (s.bulkGet 0 [⟨scratchAddr c 0, s.scrcap, 0⟩])).saveScratch r t

/-- Write everything of a captured run into its save area: the records and images, then the header with CAPT 1. -/
def State.writeSave (s : State) (run : Nat) : Except AccErr State :=
  let r := s.run run
  let base := r.body.savearea.toNat
  let l := recOffsets 0x21000 (s.records run)
  let dir := l.flatMap (fun e => block 16 [(0, toBytes 1 e.2.kind), (2, toBytes 2 e.2.id), (4, toBytes 4 e.2.data.length), (8, toBytes 8 e.1)])
  let digest := (s.graphOf run 0).digest
  match s.saveScratch r (r.clusters.zipIdx) with
  | .error e => .error e
  | .ok s =>
    s.writeArea r.tenant base ((0x1000, dir) :: l.map (fun e => (e.1, e.2.data)) ++ [(0, saveHeader r digest l.length r.resumes true)])

/-- Whether the records fit below the scratch images and in the directory (R344, R385). -/
def State.saveFits (s : State) (run : Nat) : Bool :=
  let r := s.run run
  let l := recOffsets 0x21000 (s.records run)
  decide (l.length ≤ 8192) && l.all (fun e => decide (e.1 + e.2.data.length ≤ s.imageOff r 0))

/-! ## The end of a capture (R310, R329) -/

/-- Whether every agent of a run that is being captured has stopped, what had begun has completed, and nothing is in flight. -/
def State.captureDone (s : State) (run : Nat) : Bool :=
  let r := s.run run
  r.phase == .switching && r.err.isNone &&
  (s.livePages run).all (fun p => (s.page p).captured && s.captureQuiet p) &&
  r.clusters.all (fun c =>
    let k := s.cluster c
    k.ctl.st != .running && k.ctl.st != .waiting &&
    k.copies.all (fun e => !(e.2.state == 3 && !e.2.ofPacket))) && s.edgesDrained run &&
  s.msgs.all (fun m => m.run != run) && r.chans.all (fun c => c.2.flight.isEmpty && c.2.creditFlight.isEmpty)

/-- The run time at which a captured run will resume: the least page time at a capture, plus that page's GOFF, as 64-bit times (R310). -/
def State.holdTime (s : State) (run : Nat) : Nat :=
  match (s.livePages run).filter (fun p => (s.page p).level ≥ 4) with
  | [] => (s.runt run 0).toNat
  | t :: l =>
    let p := s.page (l.foldl (fun a b => if (s.page b).ptime < (s.page a).ptime then b else a) t)
    (p.ptime + p.goff) % 2 ^ 64

/-- What the firmware keeps of a cluster that its record has no field for (log 68). -/
def State.keptOf (s : State) (c : Nat) : Kept :=
  let k := s.cluster c
  { idx := k.idx, parked := k.park.length
    order := k.sched.filterMap (fun e => match e.copy with
      | some n => if (s.copy c n).ofPacket then none else some (.copy n)
      | none => some (.binding (s.page (s.pageOf e.bind.1)).handle (s.sregOf e.bind.1) e.bind.2))
    copies := (k.copies.filter (fun e => !e.2.ofPacket && (e.2.state == 4 || e.2.state == 5))).map (fun e => ⟨e.1, e.2.gen, e.2.state, e.2.bytes⟩) }

/-- A captured run keeps what no record holds: its time, exit values, and the waves whose pages were being loaded. A tack capture leaves
no token in an edge (R341). -/
def State.settleCapture (s : State) (run : Nat) : State :=
  let r := s.run run
  let loading := (s.pagesOf run).filter (fun p => (s.page p).level == 2)
  let s := loading.foldl (fun s pid => (s.dropRegions pid).setPage pid { s.page pid with level := 1 }) s
  let waves := r.waves.map (fun e => if ((s.graphOf run e.graph).wavePages e.wave).any (fun h => loading.contains (pidOf run h)) then { e with placed := false } else e)
  let s := (s.livePages run).foldl (fun s pid => s.setPage pid { s.page pid with svReq := none, capReq := false, openAt := none }) s
  s.setRun run { s.run run with
    kept := r.clusters.map s.keptOf, waves := waves, runtHold := s.holdTime run, exits := r.clusters.map (fun c => ((s.cluster c).idx, (s.ctl c).exitv))
    chans := r.chans.map (fun c => (c.1, { c.2 with node := none }))
    edges := if r.tack then r.edges.map (fun e => (e.1, if e.2.freed then e.2 else { e.2 with count := 0, rels := [] })) else r.edges
    waitSince := (s.die 0).tick.toNat, graceLeft := none }

/-- CAPTURE_COMPLETE: the records and images are written, and the capture ends: a scheduler's switch leaves the run with its
queue, a yielding one completes its packet with PREEMPTED (R329, R344, R375, R384). -/
def captureComplete (s : State) : State :=
  let run := s.focus.run
  if !s.captureDone run then s
  else
    let s := s.settleCapture run
    let r := s.run run
    if !s.saveFits run then
      let s := match s.tenantWrite r.tenant r.body.savearea.toNat (saveHeader r (s.graphOf run 0).digest 0 r.resumes false) with | .ok s => s | .error _ => s
      s.raise run (ErrRec.of .kill (s.die 0).tick)
    else match s.writeSave run with
      | .error e => s.raise run { ErrRec.of e.cause (s.die 0).tick with addr := e.addr }
      | .ok s =>
        match r.why with
        | .scheduler => (s.unmapRun run).setRun run { r with phase := .switched }
        | why =>
          let pages := (s.pagesOf run).map (fun p => ((s.page p).handle, s.page p))
          let kept := s.qc.saved.filter (fun x => !(x.tenant == r.tenant && x.area == r.body.savearea))
          { s with qc := { s.qc with saved := ⟨r.tenant, r.body.savearea, r, pages⟩ :: kept } }.endRun run 2 (if why = SwitchWhy.timing then 1 else 2)

def execCaptureComplete (s : State) : Ans := .next (captureComplete s)

/-! ## The checks of a restore (R338) -/

/-- The bytes that a record leaves unnamed are zero: those where its own form has a zero. -/
def zerosKept (own b : List Byte) : Bool := own.length == b.length && !((b.zip own).any (fun e => e.1 != e.2 && e.2 == 0))

/-- A page's region before it is loaded: only whether its matrix node is used matters to the form of its record. -/
def State.blankRegion (s : State) (pid sreg : Nat) : Region := { Region.free with xoff := imgXoff (((s.imagesOf pid)[sreg]?).getD []) }

/-- A command or copy entry whose unnamed bytes are zero (R343). -/
def entryOk (b : List Byte) : Bool :=
  if fieldAt b 0 1 = 2 then zerosKept (block 320 [(0, [2]), (4, subBytes b 4 4), (8, subBytes b 8 16)]) b
  else fieldAt b 0 1 == 1 && zerosKept (block 320 [(0, subBytes b 0 2), (4, subBytes b 4 20), (24, subBytes b 24 2), (0x40, subBytes b 0x40 0x100)]) b

/-- The bytes of a cluster record but for its first 16 are those its own form has, or named. -/
def clusterOk (b : List Byte) (idx : Nat) : Bool :=
  let n := fieldAt b 0xA 2
  let own := (Cluster.parse b Cluster.reset true).record
  subBytes b 0 4 == [0x53, 0x56, 0x43, 0x43] && fieldAt b 4 2 == 1 && fieldAt b 6 2 == idx && decide (fieldAt b 8 2 < 4) &&
  fieldAt b 0xC 4 == b.length && b.length == 0x7000 + 320 * n && zerosKept (own.drop 16) ((b.take 0x7000).drop 16) &&
  (List.range n).all (fun i => entryOk (subBytes b (0x7000 + 320 * i) 320))

/-- An edge as its record gives it; the buffer lies in the run's cluster of the recorded index. -/
def Edge.parse (b : List Byte) (e : Edge) (r : Run) : Edge :=
  { e with
    off := fieldAt b 0x10 4, depth := fieldAt b 0x14 4, head := fieldAt b 0x18 4, count := fieldAt b 0x1C 4, freed := (fieldAt b 0xE 2).testBit 0
    carved := (fieldAt b 0xE 2).testBit 1, cluster := (r.clusterAt (fieldAt b 0x20 2)).getD 0, rels := List.replicate (fieldAt b 0x1C 4) Option.none, tacked := false }

/-- The state of a restored channel end: a timed one becomes pending (R307, R310). -/
def restoredState (st : Nat) : Nat := if st = 2 then 4 else st

/-- A channel as its record gives it. -/
def XChan.parse (b : List Byte) (c : XChan) : XChan :=
  let f := fieldAt b 0xD 1
  let n := fieldAt b 0x10 2
  { c with
    sendSt := fieldAt b 0xC 1 % 16, recvSt := fieldAt b 0xC 1 / 16, elastic := f.testBit 0, eos := f.testBit 1, lateOpen := f.testBit 2
    fault := f.testBit 3, credits := fieldAt b 0xE 2, margin := fieldAt b 0x12 1, flight := [], creditFlight := [], tacked := false
    toks := (List.range n).map (fun i => QTok.of (Tok.ofBits (fieldAt b (64 + 8 * i) 8 % 2 ^ 36))) }

/-- Whether a record of the directory may be loaded (R338). -/
def State.recOk (s : State) (run : Nat) (x : Rec) : Bool :=
  let r := s.run run
  match x.kind with
  | 1 =>
    let pid := pidOf run (x.id / 16)
    let p := s.page pid
    (s.pages.find? pid).isSome && decide (x.id % 16 < p.w * p.h) && (s.recordBad x.data pid (x.id % 16) (s.blankRegion pid (x.id % 16))).isNone &&
    fieldAt x.data 0xC 1 == p.handle && (match r.clusterAt (fieldAt x.data 0xD 1) with | some c => dieOf c == p.die | none => false)
  | 2 => (r.clusterAt x.id).isSome && clusterOk x.data x.id
  | 3 => match r.edges.find? x.id with
    | some e => (Edge.parse x.data e r).bytes x.id (fieldAt x.data 0x20 2) == x.data && fieldAt x.data 0x14 4 == e.depth
    | none => false
  | 4 => match r.chans.find? x.id with
    | some c => (XChan.parse x.data c).bytes x.id == x.data
    | none => false
  | _ => false


/-! ## The steps of a restore (R338, R343, R345) -/

/-- The records of a save area, as its directory gives them. -/
def State.readSave (s : State) (tenant base : Nat) : Except AccErr (List Rec) :=
  match s.tenantRead tenant base 64 with
  | .error e => .error e
  | .ok h => match s.tenantRead tenant (base + 0x1000) (16 * fieldAt h 8 4) with
    | .error e => .error e
    | .ok d => (List.range (fieldAt h 8 4)).foldr (fun i acc =>
        match acc, s.tenantRead tenant (base + fieldAt d (16 * i + 8) 8) (min (fieldAt d (16 * i + 4) 4) 0x400000) with
        | .ok l, .ok b => .ok (⟨fieldAt d (16 * i) 1, fieldAt d (16 * i + 2) 2, b⟩ :: l)
        | .error e, _ => .error e
        | _, .error e => .error e) (.ok [])

/-- The records of the regions of a page, in SREG order. -/
def pageRecs (l : List Rec) (h : Nat) : List (Nat × List Byte) :=
  (List.range 16).filterMap (fun i => (l.find? (fun x => x.kind == 1 && x.id == regionId h i)).map (fun x => (i, x.data)))

/-- The pages that records restore, by handle. -/
def pagesIn (l : List Rec) : List Nat := (List.range 256).filter (fun h => l.any (fun x => x.kind == 1 && x.id / 16 == h))

/-- A page that is not retiring has a record of each of its regions; every cluster has one (R338). -/
def State.recsWhole (s : State) (run : Nat) (l : List Rec) : Bool :=
  (pagesIn l).all (fun h =>
    let rs := pageRecs l h
    let p := s.page (pidOf run h)
    rs.length == p.w * p.h || rs.all (fun e => (fieldAt e.2 6 1).testBit 3)) &&
  (List.range (3 * (s.run run).triads.length)).all (fun i => l.any (fun x => x.kind == 2 && x.id == i))

/-- The captured pages take regions: first fit on the same run cluster index, all or none, or else their recorded origins (R338). -/
def State.placeFirst (run : Nat) (l : List Rec) : List Nat → State → Option State
  | [], s => some s
  | h :: t, s =>
    let pid := pidOf run h
    let b := (((pageRecs l h)[0]?).map Prod.snd).getD []
    match (s.run run).clusterAt (fieldAt b 0xD 1) with
    | none => none
    | some c => match s.originIn c (s.page pid).w (s.page pid).h with
      | none => none
      | some o => State.placeFirst run l t (s.takeRegions pid c o 2)

def State.placeSaved (s : State) (run : Nat) (l : List Rec) : State :=
  match State.placeFirst run l (pagesIn l) s with
  | some s => s
  | none => (pagesIn l).foldl (fun s h =>
      let b := (((pageRecs l h)[0]?).map Prod.snd).getD []
      s.takeRegions (pidOf run h) (((s.run run).clusterAt (fieldAt b 0xD 1)).getD 0) (fieldAt b 0xE 1 % 16) 2) s

/-- A page takes the state of its records; it stays captured until it resumes, and its tacks are gone (R338, R339). -/
def State.restorePage (s : State) (run h : Nat) (rs : List (Nat × List Byte)) : State :=
  let pid := pidOf run h
  let ims := s.imagesOf pid
  let p0 := s.page pid
  let s := rs.foldl (fun s e => s.loadRegion (p0.region e.1) pid e.1 p0.w ((ims[e.1]?).getD [])) s
  let s := s.loadRecords pid (rs.map Prod.fst) (rs.flatMap Prod.snd)
  let s := (List.range (p0.w * p0.h)).foldl (fun s i =>
    let rid := p0.region i
    let r := s.region rid
    if rs.any (fun e => e.1 == i) then
      let stat (b : Binding) : Binding := { b with staticB := (s.staticBinds pid).any (fun g => g.port == b.port + 32 * i) }
      s.setRegion rid { r with se := r.se.map (fun k => { k with cur := k.cur.map stat }) }
    else s.setRegion rid r.release) s
  let p := s.page pid
  s.setPage pid { p with
    captured := true, capReq := false, svReq := none, frozen := false, causes := [], faulted := false, openAt := none
    gated := p0.gated && p.level == 3, svClosed := p.level == 3 && (p0.svClosed || p.ptime != 0 || p.unfrozen != 0) }

/-- A copy of a COPY packet that has a slot of the cluster leaves it to the copy whose slot a record names; no handle names it, and its queue
waits for it in its new slot (R383). -/
def State.vacate (s : State) (c slot : Nat) : State :=
  let x := s.copy c slot
  if !x.ofPacket || x.isFree then s
  else match (s.freeCopies c).find? (· != slot) with
    | none => s
    | some n =>
      let k := s.cluster c
      let gen := ((s.copy c n).gen + 1) % 256
      let s := s.setCluster c { k with
        copies := k.copies.set n { x with gen := gen }
        sched := k.sched.map (fun e => if e.copy = some slot then { e with copy := some n } else e) }
      match x.owner with
      | .packet id _ =>
        let q := s.queue id
        s.setQueue id { q with copies := q.copies.map (fun e => if e = (c, slot, x.gen) then (c, n, gen) else e) }
      | _ => s

/-- A binding of a restored page enters its scheduler anew, behind what has entered it since (R228, R240). -/
def State.reenter (s : State) (run : Nat) (e : KeptEntry) : State :=
  match e with
  | .copy _ => s
  | .binding h sreg ch =>
    let rid := (s.page (pidOf run h)).region sreg
    match (s.chan rid ch).cur with
    | some b => (s.schedLeave (regionCluster rid) b.entry).makeCurrent rid ch b
    | none => s

/-- The card and records that a queued CPYT loads, or the shape record of a queued binding, which each read again. -/
def State.readAgain (s : State) (run : Nat) (i : Instr) (v1 v2 : W64) : Except AccErr (List Byte) :=
  let t := (s.run run).tenant
  match i with
  | .stbind _ _ _ => if v2.getLsbD 34 then .ok [] else s.tenantRead t v1.toNat 64
  | .stbindi _ _ _ => s.tenantRead t v1.toNat 64
  | .cpyt _ _ _ => match s.tenantRead t v1.toNat 128 with
    | .error e => .error e
    | .ok card => match s.tenantRead t (recordAddrs v1.toNat card).1 64, s.tenantRead t (recordAddrs v1.toNat card).2 64 with
      | .ok x, .ok y => .ok (card ++ x ++ y)
      | .error e, _ => .error e
      | _, .error e => .error e
  | _ => .ok []

/-- A command entry enters its queue, or its copy the scheduler, again (R343). -/
def State.enterEntry (s : State) (run c : Nat) (b : List Byte) : State :=
  if fieldAt b 0 1 = 2 then
    match decode32 (word4 b 4) with
    | .error _ => s
    | .ok i =>
      let v1 := BitVec.ofNat 64 (fieldAt b 8 8)
      let v2 := BitVec.ofNat 64 (fieldAt b 16 8)
      let g : Nat := match i with
        | .grload _ _ _ => match List.find? (fun (e : Nat × Graph) => e.2.state == 1 && e.2.addr == v1.toNat && e.2.symtab == v2.toNat) (s.run run).graphs with
          | some e => e.1
          | none => 0
        | .pgplace _ _ => bits v1.toNat 9 8
        | _ => 0
      let (t, s) := s.stamp
      let k := s.cluster c
      match s.readAgain run i v1 v2 with
      | .error e => s.raise run { ErrRec.of e.cause (s.die (dieOf c)).tick with cluster := (s.cluster c).idx, addr := e.addr }
      | .ok r => s.setCluster c { k with cmds := k.cmds ++ [⟨t, word4 b 4, i, v1, v2, g, r, s.seq⟩] }
  else
    let card := subBytes b 0x40 128
    let slot := fieldAt b 24 1
    let read := (fieldAt b 1 1).testBit 0
    let s := s.vacate c slot
    let (t, s) := s.schedEnter c (some slot) (0, 0) (cardFoots card)
    s.setCopy c slot
      -- a copy that no instruction entered is one that a template fired (R384)
      { gen := fieldAt b 25 1, state := 1, entry := t, owner := if word4 b 4 = 0 then .template else .controller, va := fieldAt b 8 8, card := card
        src := if read then some (subBytes b 0xC0 64) else none, dst := if read then some (subBytes b 0x100 64) else none
        cursor := 0, bytes := 0, since := (s.die (dieOf c)).tick, stamp := s.seq, acqs := []
        tenant := (s.run run).tenant, trans := [], insn := word4 b 4, rs2 := BitVec.ofNat 64 (fieldAt b 16 8), fetched := [], target := (0, 0) }

/-- The command entries of a record enter again, in order, each copy behind the bindings that were before it in the order that the
firmware kept (R228, R240; without it, behind every binding: log 100). -/
def State.enterEntries (run c : Nat) : List (List Byte) → List KeptEntry → State → State
  | [], o, s => o.foldl (fun s e => s.reenter run e) s
  | b :: t, o, s =>
    let slot := fieldAt b 24 1
    if fieldAt b 0 1 = 1 ∧ o.contains (.copy slot) then
      let s := (o.takeWhile (· != .copy slot)).foldl (fun s e => s.reenter run e) s
      State.enterEntries run c t ((o.dropWhile (· != .copy slot)).drop 1) (s.enterEntry run c b)
    else State.enterEntries run c t o (s.enterEntry run c b)

/-- A cluster takes the state of its record, and what the firmware has kept beside it (log 68); its controller stands until the run
resumes (R342, R343). -/
def State.restoreCluster (s : State) (run idx : Nat) (b : List Byte) : State :=
  match (s.run run).clusterAt idx with
  | none => s
  | some c =>
    let k := Cluster.parse b (s.cluster c) ((s.graphOf run 0).ctls.any (fun e => e.cluster == idx))
    let exitv := match List.find? (fun (e : Nat × W32) => e.1 == idx) (s.run run).exits with | some e => e.2 | none => 0
    let kept := (s.run run).kept.find? (fun e => e.idx == idx)
    let park := match kept with | some e => (List.range e.parked).map (fun n => parkParse (subBytes b (0x1420 + 32 * n) 32)) | none => k.park
    let s := s.setCluster c { k with ctl := { k.ctl with exitv := exitv, st := if k.ctl.st = .running then .stopped else k.ctl.st }, park := park, cmds := [] }
    let s := ((kept.map (·.copies)).getD []).foldl (fun s e =>
      (s.vacate c e.slot).setCopy c e.slot { Copy.unused with gen := e.gen, state := e.state, bytes := e.bytes }) s
    State.enterEntries run c ((List.range (fieldAt b 0xA 2)).map (fun i => subBytes b (0x7000 + 320 * i) 320)) ((kept.map (·.order)).getD []) s

/-- The scratch images return to the run's clusters (R385). -/
def State.loadScratch (s : State) (r : Run) : List (Nat × Nat) → Except AccErr State
  | [] => .ok s
  | (c, i) :: t => match s.tenantPieces r.tenant .read (r.body.savearea.toNat + s.imageOff r i) s.scrcap with
    | .error e => .error e
    | .ok l => (s.bulkPut 0 [⟨scratchAddr c 0, s.scrcap, 0⟩] (s.bulkGet 0 l)).loadScratch r t

/-- Edges and channels as their records give them; buffers and nodes are held again (R345), and a channel whose link is down takes the
detour (R315). -/
def State.restoreEdge (s : State) (run e : Nat) (b : List Byte) : State :=
  let x := Edge.parse b (s.edge run e) (s.run run)
  let k := s.cluster x.cluster
  let s := if x.carved then s.setCluster x.cluster { k with pool := (x.off, 8 * x.depth) :: k.pool } else s
  s.setEdge run e x

def State.restoreChan (s : State) (run h : Nat) (b : List Byte) : State :=
  let c := XChan.parse b (s.chanOf run h)
  let c := { c with sendSt := restoredState c.sendSt, recvSt := restoredState c.recvSt, sendAligned := false, recvAligned := false, sendHeld := false, recvHeld := false }
  let used := s.nodesUsed (s.chanDie run c false)
  let node := if c.freed ∨ (c.sendSt = 0 ∧ c.toks.isEmpty) then none else (List.range 64).find? (fun n => !used.contains n)
  let detour := !linkUp s (s.chanDie run c true) (s.chanDie run c false)
  s.setChanOf run h { c with node := node, detour := detour }

/-- The restore of a mapped run from its save area: the checks, the images, the pages, the clusters, edges and channels; the run
resumes 256 cycles of package time later (R310, R338). -/
def State.restoreFrom (s : State) (run : Nat) (l : List Rec) : Except AccErr State :=
  let r := s.run run
  match s.loadScratch r r.clusters.zipIdx with
  | .error e => .error e
  | .ok s =>
    let s := s.placeSaved run l
    let s := (pagesIn l).foldl (fun s h => s.restorePage run h (pageRecs l h)) s
    let s := (l.filter (fun x => x.kind == 2)).foldl (fun s x => s.restoreCluster run x.id x.data) s
    let s := (l.filter (fun x => x.kind == 3)).foldl (fun s x => s.restoreEdge run x.id x.data) s
    let s := ((l.filter (fun x => x.kind == 4)).foldl (fun s x => s.restoreChan run x.id x.data) s).refreshDetour
    let at' := (s.die 0).pktime + 256
    let r := s.run run
    .ok (s.setRun run { r with
      phase := .active, resumeAt := some at', epoch := at' - BitVec.ofNat 64 r.runtHold, elasticAll := false, tack := false, hang := 0
      preq := none, graceLeft := none, resumes := (r.resumes + 1) % 2 ^ 32 })

def State.restoreRun (s : State) (run : Nat) : State :=
  let r := s.run run
  let tick := (s.die 0).tick
  match s.readSave r.tenant r.body.savearea.toNat with
  | .error e => s.raise run { ErrRec.of e.cause tick with addr := e.addr }
  | .ok l =>
    if !(l.all (s.recOk run) && s.recsWhole run l) then s.raise run { ErrRec.of .config tick with code := 0x17 }
    else match s.restoreFrom run l with
      | .error e => s.raise run { ErrRec.of e.cause tick with addr := e.addr }
      | .ok s =>
        let s := match s.tenantWrite r.tenant (r.body.savearea.toNat + 0xC) (toBytes 4 (s.run run).resumes) with | .ok s => s | .error _ => s
        s.tryPlace run

/-- A run that RESUME maps again keeps the HANGLIM that its RUN read (R287) and becomes the run that the firmware kept of its save
area, on its new triads; without one, the waves up to the last that has a region record were placed, and their pages without a record had retired (R338, R386). -/
def State.adopt (s : State) (run : Nat) (d : GraphData) (l : List Rec) (count : Nat) : State :=
  let r := s.run run
  match s.qc.saved.find? (fun x => x.tenant == r.tenant && x.area == r.body.savearea) with
  | some x =>
    let g := x.run.graphs.get Graph.none 0
    let graphs := x.run.graphs.set 0 { g with addr := r.body.image.toNat, symtab := r.body.symtab.toNat, binds := d.binds, ctls := d.ctls, reds := d.reds, images := d.images }
    let s := s.setRun run { x.run with
      queue := r.queue, ctxtag := r.ctxtag, notify := r.notify, body := r.body, resume := true, phase := r.phase, triads := r.triads
      grace := r.grace, mappedAt := r.mappedAt, waitSince := r.waitSince, graphs := graphs, err := none, traps := [] }
    let s := x.pages.foldl (fun s e => s.setPage (pidOf run e.1) { e.2 with run := run }) s
    { s with qc := { s.qc with saved := s.qc.saved.filter (fun y => !(y.tenant == r.tenant && y.area == r.body.savearea)) } }
  | none =>
    let s := s.installGraph run 0 r.body.image.toNat r.body.symtab.toNat d
    let have' := pagesIn l
    let last := (have'.map (fun h => (s.page (pidOf run h)).wave)).foldl max 0
    let waves := ((d.pages.map (·.wave)).filter (fun w => decide (w ≤ last))).eraseDups
    let s := s.setRun run { s.run run with
      resumes := count
      waves := (List.range 256).filterMap (fun w => if waves.contains w then some ⟨0, w, true, []⟩ else none)
      runtHold := ((l.filter (fun x => x.kind == 1 && (fieldAt x.data 6 1).testBit 2)).map (fun x => fieldAt x.data 0x28 8)).foldl max 0 }
    let s := (s.pagesOf run).foldl (fun s pid =>
      let p := s.page pid
      let t := match (pageRecs l p.handle)[0]? with | some e => fieldAt e.2 0x28 8 | none => 0
      if have'.contains p.handle then s.setPage pid { p with goff := (s.run run).runtHold - t }
      else if p.wave ≤ last then s.setPage pid { p with level := 6 } else s) s
    (List.range 256).foldl (fun s w => if decide (last < w) && d.pages.any (fun p => p.wave == w) then s.enterWave run 0 w [] else s) s

/-! ## Resumption (R310, R339) -/

/-- A restored page resumes: its page time goes on from PTIME, or, for a page with a channel port, from its GOFF (R310, R339). Its last
alignment is the largest of the recorded one and the page time of the restore (R308). -/
def State.resumePage (s : State) (pid : Nat) : State :=
  let p := s.page pid
  let runt := (s.runt p.run p.die).toNat
  if p.svClosed then s.setPage pid { p with captured := false }
  else
    let goff := if s.inGroup pid then p.goff else (runt + 2 ^ 64 - p.ptime) % 2 ^ 64
    s.setPage pid { p with captured := false, goff := goff, lastAln := max p.lastAln ((runt + 2 ^ 64 - goff) % 2 ^ 64) }

/-- REGION_RESUMPTION: on the first cycle of a die whose package time has come, the restored regions and controllers of the
run on that die resume. -/
def regionResumption (s : State) : State :=
  let run := s.focus.run
  let d := s.focus.die
  let r := s.run run
  match r.resumeAt with
  | none => s
  | some at' =>
    if !at'.ule (s.die d).pktime then s
    else
      let s := (s.pagesOf run).foldl (fun s pid => if (s.page pid).captured ∧ (s.page pid).die = d then s.resumePage pid else s) s
      let s := r.clusters.foldl (fun s c =>
        let k := s.ctl c
        if dieOf c = d ∧ k.st = .stopped then s.setCtl c { k with st := .running, waitWord := false } else s) s
      let left := (s.pagesOf run).any (fun pid => (s.page pid).captured) || r.clusters.any (fun c => (s.ctl c).st == .stopped)
      s.setRun run { s.run run with resumeAt := if left then r.resumeAt else none }

def execRegionResumption (s : State) : Ans := .next (regionResumption s)

end Sys2Proof.Machine
end

