-- ==== Sys2Proof/Machine/Queue.lean ====
section
/-! DEFINITION. Packet queues (R367 to R373, R377 to R383), the RUN and RESUME packets (R384, R386), MAP and the RUN load (R22, R374),
the scheduling policy (R375, R376), and INVT (R353). -/
namespace Sys2Proof.Machine

/-! ## The bytes of packets, and prefetch (R370, R371, R379) -/

/-- The address of packet i of a ring (R370). -/
def Queue.slotAddr (q : Queue) (i : Nat) : Nat := q.qbase.toNat + 64 * (i % 2 ^ q.log2)

/-- The name of a prefetched packet: its ring index, or its place in the indirect buffer of a ring index. -/
def bufKey (i pos : Nat) : Nat := 2 ^ 32 + i * 2 ^ 17 + pos
def keyIndex (k : Nat) : Nat := if k < 2 ^ 32 then k else (k - 2 ^ 32) / 2 ^ 17

/-- The name and the address of the packet at the head. -/
def Queue.headPlace (q : Queue) : Nat × Nat :=
  match q.ind with
  | some (a, _, k) => (bufKey q.head.toNat k, a + 64 * k)
  | none => (q.head.toNat, q.slotAddr q.head.toNat)

/-- Whether a packet of a queue may start (R370, R375, R380). -/
def Queue.ready (q : Queue) : Bool :=
  q.en && decide (q.state ≤ 2) && q.cur.isNone && q.run.isNone && q.uncommit.isNone && q.copyErr.isNone && (q.head != q.tail || q.ind.isSome)

/-- The next packet of a queue starts, from its prefetched bytes or from memory (R370, R371). -/
def startPacket (id : QueueId) (s : State) : State :=
  let q := s.queue id
  if !q.ready ∨ s.qc.quiet ≠ 0 then s
  else
    let (key, addr) := q.headPlace
    let got : Except AccErr (List Byte) := match q.pre.find? key with
      | some b => .ok b
      | none => s.tenantRead id.tenant addr 64
    match got with
    | .error _ => s.queueError id 0x21 0 true
    | .ok b =>
      let s := s.setQueue id { q with cur := some b, state := 2, pre := Tab.del q.pre key }
      let f := { Focus.none with queue := id }
      if id.link then
        match decodeWork b with
        | some i => s.pushJobs [.ev i f]
        | none => s.failPacket id 0x20
      else s.pushJobs [.ev (decodePacket b) f]

/-- The processor reads one packet ahead, up to 64 beyond the one that it processes, of the ring or of an indirect buffer that it has
read (R371). -/
def prefetch (id : QueueId) (s : State) : State :=
  let q := s.queue id
  let (k, s) := s.choose 65
  let (inBuf, s) := s.choose 2
  let i := (q.head.toNat + k) % 2 ^ 32
  let (pos, s) := s.choose 64
  let place : Option (Nat × Nat) :=
    if inBuf = 0 then (if k = (if q.cur.isSome ∨ q.ind.isSome then 0 else 64) then none else some (i, q.slotAddr i))
    else match q.ind with
      | some (a, n, p) => if k = 0 ∧ p + 1 + pos < n then some (bufKey i (p + 1 + pos), a + 64 * (p + 1 + pos)) else none
      | none => match q.pre.find? i with
        | some b => if fieldAt b 0 1 = 7 ∧ pos < fieldAt b 0x10 4 then some (bufKey i pos, fieldAt b 8 8 + 64 * pos) else none
        | none => none
  match place with
  | none => s
  | some (key, addr) =>
    if !q.en ∨ 64 ≤ q.pre.length ∨ (q.pre.find? key).isSome then s
    else match s.tenantRead id.tenant addr 64 with
      | .ok b => s.setQueue id { q with pre := Tab.set q.pre key b }
      | .error _ => s

/-! ## The queue registers (R368 to R370, R372, R373) -/

/-- A waiting packet is abandoned with no effect; a run that is mapped is not (R373). -/
def State.abandon (s : State) (id : QueueId) : State :=
  let q := s.queue id
  match q.run with
  | some run =>
    if (s.run run).phase = .waiting then
      (s.forgetRun run).setQueue id { q with run := none, cur := none, started := false }
    else s
  | none => if q.state = 3 then s.setQueue id { q with cur := none, started := false } else s

/-- QTAIL_WRITE: the doorbell, or an overrun (R370, R371, R373). -/
def qtailOp (id : QueueId) (v : W64) (s : State) : State :=
  let q := s.queue id
  let new : W32 := v.truncate 32
  if 2 ^ q.log2 < (new - q.head).toNat then
    if q.state = 5 then s else (s.abandon id).queueError id 0x25 0 false
  else
    let old := (q.tail - q.head).toNat
    let keep (k : Nat) : Bool := decide ((keyIndex k + 2 ^ 32 - q.head.toNat) % 2 ^ 32 < old)
    let q := { q with tail := new, pre := q.pre.filter (fun e => keep e.1) }
    s.setQueue id { q with state := if q.state = 1 then q.idle else q.state }

/-- A write of QCTL (R369, R372, R373). A queue that CLR takes out of the error state reads 1 until its next packet starts. -/
def qctlOp (id : QueueId) (v : W64) (s : State) : State :=
  let q := s.queue id
  let en := v.getLsbD 0
  let clr := v.getLsbD 1 && q.state == 5
  let q := if !clr then q else
    let q := if q.skip then { q with head := q.head + 1, ind := none, indPkt := [] } else q
    { q with state := 1, cause := 0, errtag := 0, skip := false }
  let log2 := if q.en then q.log2 else bits v.toNat 12 8
  let ok := q.qbase != 0 && decide (4 ≤ log2) && decide (log2 ≤ 16)
  let off := q.en && !en
  let q := { q with log2 := log2, en := en && ok, prio := bits v.toNat 17 16, vec := bits v.toNat 28 24 }
  let s := s.setQueue id q
  let s := if off then (s.allredAbort id).abandon id else s
  let q := s.queue id
  let busy := q.cur.isSome && (q.state == 2 || q.state == 3)
  s.setQueue id { q with state := if busy || (clr && q.en && q.run.isNone) then q.state else q.idle }

def execQtailWrite (q : QueueId) (v : W64) (s : State) : Ans := .next (qtailOp q v s)
def execQueueEnable (q : QueueId) (v : W64) (s : State) : Ans := .next (qctlOp q v s)
def execQueueDisable (q : QueueId) (v : W64) (s : State) : Ans := .next (qctlOp q v s)
def execQueueClear (q : QueueId) (v : W64) (s : State) : Ans := .next (qctlOp q v s)

/-- INVCTL_GO: DONE reads 0 until an INVT completes (R353, R368). -/
def invctlOp (tenant : Nat) (s : State) : State :=
  s.setTenant tenant { s.tenant tenant with invDone := false, invStamp := none }

def execInvctlGo (s : State) : Ans := .next (invctlOp s.focus.queue.tenant s)

/-- A write of a queue's register (R368, R369). -/
def queueReg (id : QueueId) (off : Nat) (v : W64) (s : State) : State :=
  let q := s.queue id
  let page (v : W64) : W64 := v &&& ~~~0xFFF
  match off with
  | 0x00 => if q.en then s else s.setQueue id { q with qbase := page v }
  | 0x08 => qctlOp id v s
  | 0x10 => qtailOp id v s
  | 0x20 => s.setQueue id { q with evovf := q.evovf && !v.getLsbD 3, redo := q.redo && !v.getLsbD 4 }
  | 0x28 => if q.evEn then s else s.setQueue id { q with evbase := page v }
  | 0x30 => s.setQueue id { q with evEn := v.getLsbD 0, evLog2 := bits v.toNat 12 8 }
  | 0x40 => s.setQueue id { q with evHead := v.truncate 32 }
  | _ => s

/-- A write in a virtual function's BAR0 (R368, R394, R405). -/
def vfReg (tenant off : Nat) (v : W64) (s : State) : State :=
  let t := s.tenant tenant
  if !t.created ∨ s.dev.safe then s
  else if off = 0x00 then s.setTenant tenant { t with invaddr := v }
  else if off = 0x08 then s.setTenant tenant { t with invlen := v }
  else if off = 0x10 then (if v.getLsbD 0 then invctlOp tenant s else s)
  else if 0x1000 ≤ off ∧ off < 0x2000 then queueReg ⟨tenant, false, off / 0x100 % 16⟩ (off % 0x100) v s
  else if 0x8000 ≤ off ∧ off < 0x9000 then queueReg ⟨tenant, true, off / 0x100 % 16⟩ (off % 0x100) v s
  else s

/-- An owner byte as it reads (R263). -/
def ownByte (v : W64) (j : Nat) : Byte :=
  let b := bits v.toNat (8 * j + 7) (8 * j)
  BitVec.ofNat 8 (if 64 ≤ b then 0xFF else b)

/-- A write of a slice's register (R263). -/
def sliceReg (n off : Nat) (v : W64) (s : State) : State :=
  let sl := s.slice n
  match off with
  | 0x08 => s.setSlice n { sl with wayOwn := Vector.ofFn (fun w => if w.val < 8 then ownByte v w.val else sl.wayOwn[w]) }
  | 0x10 => s.setSlice n { sl with wayOwn := Vector.ofFn (fun w => if w.val < 8 then sl.wayOwn[w] else ownByte v (w.val - 8)) }
  | 0x18 => s.setSlice n { sl with retOwn := Vector.ofFn (fun w => ownByte v w.val) }
  | _ => s

/-- A write of a tenant's limit or root register (R287, R288, R350). -/
def limitReg (tenant off : Nat) (v : W64) (s : State) : State :=
  let t := s.tenant tenant
  match off with
  | 0x2000 => s.setTenant tenant { t with hanglim := bits v.toNat 47 0 }
  | 0x3000 => s.setTenant tenant { t with grace := max 1600 (bits v.toNat 31 0) }
  | 0x4000 => s.setTenant tenant { t with txroot := v &&& 0xFFFFFFFF8001 }
  | _ => s

/-- A write of a physical function's register (R396). -/
def pfReg (port off : Nat) (v : W64) (s : State) : State :=
  if s.dev.safe ∧ port ≠ 0 then s
  else match off with
    | 0x00 => { s with dev := { s.dev with mbaddr := v &&& ~~~0xFFF } }
    | 0x08 => if v.getLsbD 0 then { s with dev := { s.dev with mbDone := false } } else s
    | _ => s

/-- A write of a cluster's register: of its fields only DISCARD, NAN and OVF of MXSTAT, at 0x2000 + 8n, are not read-only (R8, R201). -/
def clusterReg (c off : Nat) (v : W64) (s : State) : State :=
  if 0x2000 ≤ off ∧ off < 0x2080 ∧ off % 8 = 0 then
    let rid := 16 * c + (off - 0x2000) / 8
    s.setXn rid ((s.xn rid).writeStat v)
  else s

/-- The 8 bytes of a cluster's register at an offset: CLID, SCRCAP, the semaphores' values, MXSTAT of a region, the trap record; 0 where
no register is (R13, R14, R201, R245, R349). -/
def State.clusterWord (s : State) (c off : Nat) : W64 :=
  if off = 0 then BitVec.ofNat 64 (clidWord c)
  else if off = 8 then BitVec.ofNat 64 s.scrcap
  else if 0x1000 ≤ off ∧ off < 0x1200 then s.sem c ((off - 0x1000) / 8)
  else if 0x2000 ≤ off ∧ off < 0x2080 then ((s.xn (16 * c + (off - 0x2000) / 8)).stat).zeroExtend 64
  else if 0x3000 ≤ off ∧ off < 0x3040 then BitVec.ofNat 64 (fieldAt (s.ctl c).trap.bytes (off - 0x3000) 8)
  else 0

/-- The code of a life-cycle state (R403). -/
def lcCode : LifeCycle → Nat
  | .manufacture => 0 | .develop => 1 | .production => 2 | .rma => 3 | .scrap => 4

/-- A register of a queue as it reads: QBASE, QCTL, QTAIL, QHEAD, QSTAT and the registers of its event ring (R368, R369). -/
def State.queueWord (s : State) (id : QueueId) (off : Nat) : W64 :=
  let q := s.queue id
  let bit (b : Bool) (k : Nat) : Nat := if b then 2 ^ k else 0
  match off with
  | 0x00 => q.qbase
  | 0x08 => BitVec.ofNat 64 (bit q.en 0 + q.log2 * 2 ^ 8 + q.prio * 2 ^ 16 + q.vec * 2 ^ 24)
  | 0x10 => q.tail.setWidth 64
  | 0x18 => q.head.setWidth 64
  | 0x20 => BitVec.ofNat 64 (q.state + bit q.evovf 3 + bit q.redo 4 + q.cause * 2 ^ 8 + q.errtag.toNat * 2 ^ 32)
  | 0x28 => q.evbase
  | 0x30 => BitVec.ofNat 64 (bit q.evEn 0 + q.evLog2 * 2 ^ 8)
  | 0x38 => q.evTail.setWidth 64
  | 0x40 => q.evHead.setWidth 64
  | _ => 0

/-- What the BAR0 of a virtual function reads (R368, R394, R405). -/
def State.vfWord (s : State) (tenant off : Nat) : W64 :=
  let t := s.tenant tenant
  if off = 0x00 then t.invaddr
  else if off = 0x08 then t.invlen
  else if off = 0x10 then (if t.invDone then 2 else 0)
  else if 0x1000 ≤ off ∧ off < 0x2000 then s.queueWord ⟨tenant, false, off / 0x100 % 16⟩ (off % 0x100)
  else if 0x8000 ≤ off ∧ off < 0x9000 then s.queueWord ⟨tenant, true, off / 0x100 % 16⟩ (off % 0x100)
  else 0

/-- What the BAR0 of a physical function reads: MBADDR, MBCTL, DEVSTAT, THERM (R396). -/
def State.pfWord (s : State) (off : Nat) : W64 :=
  let d := s.dev
  let bit (b : Bool) (k : Nat) : Nat := if b then 2 ^ k else 0
  match off with
  | 0x00 => d.mbaddr
  | 0x08 => BitVec.ofNat 64 (bit d.mbDone 1 + d.mbStatus * 2 ^ 8)
  | 0x10 => BitVec.ofNat 64 (lcCode d.lc + bit d.safe 3 + s.qc.active * 2 ^ 4 + d.warmfail * 2 ^ 5 + d.start * 2 ^ 8 + bit (decide (d.tstep ≠ 0)) 16)
  | 0x18 => BitVec.ofNat 64 (d.power + d.tmax * 2 ^ 16 + d.tstep * 2 ^ 24)
  | _ => 0

/-- A register of a slice as it reads: WAYMASK, the owners, and the bounds of the retained ranges (R263). -/
def State.sliceWord (s : State) (n off : Nat) : W64 :=
  let sl := s.slice n
  let bytes (l : List Byte) : W64 := BitVec.ofNat 64 (ofBytes l)
  if off = 0x00 then BitVec.ofNat 64 sl.waymask
  else if off = 0x08 then bytes (sl.wayOwn.toList.take 8)
  else if off = 0x10 then bytes (sl.wayOwn.toList.drop 8)
  else if off = 0x18 then bytes sl.retOwn.toList
  else if 0x20 ≤ off ∧ off < 0xA0 then
    let i := (off - 0x20) / 16
    if off % 16 = 0 then BitVec.ofNat 64 (sl.retBase.get 0 i / 128 * 128 + (if sl.retValid[i]? = some true then 1 else 0))
    else BitVec.ofNat 64 (sl.retLast.get 0 i / 128 * 128)
  else 0

/-- The limits and the root of a tenant as they read (R287, R288, R350). -/
def State.limitWord (s : State) (tenant off : Nat) : W64 :=
  let t := s.tenant tenant
  match off with
  | 0x2000 => BitVec.ofNat 64 t.hanglim
  | 0x3000 => BitVec.ofNat 64 t.grace
  | 0x4000 => t.txroot
  | _ => 0

/-- The latency that a die holds of the lane from another. -/
def State.storedLat (s : State) (d n : Nat) : Nat := ((s.die d).wag[n % 3]'(Nat.mod_lt _ (by decide))).lat

/-- WGLATn of die d: 0 for the die's own number; else the stored latency, or the sum over the two lanes of a relay plus 2 cycles (R300, R315). -/
def State.wglat (s : State) (d n : Nat) : Nat :=
  let t := 3 - d - n
  if n = d then 0 else if linkUp s d n then s.storedLat d n else s.storedLat d t + s.storedLat t n + 512

/-- A tick register of a die as it reads: TICK, PKTIME, POFF, WGSTAT and what the die holds of each die, 0 of itself (R300). -/
def State.tickWord (s : State) (d off : Nat) : W64 :=
  let x := s.die d
  let bit (b : Bool) (k : Nat) : Nat := if b then 2 ^ k else 0
  let of (n : Nat) (v : Waggle → W64) : W64 := if n = d then 0 else v (x.wag[n % 3]'(Nat.mod_lt _ (by decide)))
  if off = 0x00 then x.tick
  else if off = 0x08 then x.pktime
  else if off = 0x10 then x.poff
  else if off = 0x18 then
    BitVec.ofNat 64 (bit x.live[0] 0 + bit x.live[1] 1 + bit x.live[2] 2 + x.leader * 2 ^ 3 + bit x.cal 5 + bit x.links[0] 6 + bit x.links[1] 7 +
      bit x.links[2] 8 + bit x.detour 9)
  else if 0x20 ≤ off ∧ off < 0x38 then (let n := (off - 0x20) / 8; if n = d then 0 else BitVec.ofNat 64 (s.wglat d n % 2 ^ 16))
  else if 0x38 ≤ off ∧ off < 0x50 then of ((off - 0x38) / 8) (fun w => BitVec.ofNat 64 (sat32 w.off))
  else if 0x50 ≤ off ∧ off < 0x68 then of ((off - 0x50) / 8) (fun w => BitVec.ofNat 64 (sat32 w.rate))
  else 0

/-- What a register reads: a read has no effect on the machine (R8; log 64). The endpoint table reads as it was written. -/
def State.registerWord (s : State) (sp : RegSpace) (off : Nat) : W64 :=
  match sp with
  | .vf t => if !(s.tenant t).created ∨ s.dev.safe then 0 else s.vfWord t off
  | .pf p => if s.dev.safe ∧ p ≠ 0 then 0 else s.pfWord off
  | .slice d n => s.sliceWord (21 * d + n) off
  | .tenantLimits t => s.limitWord t off
  | .cluster c => s.clusterWord c off
  | .dieTicks d => s.tickWord d off
  | .endpoints _ => BitVec.ofNat 64 (s.dev.endpoints.get 0 off)

/-- The PF writes an entry of the endpoint table: the 48-bit Ethernet address of endpoint 0 to 65,535 (R405; log 103). -/
def endpointReg (port off : Nat) (v : W64) (s : State) : State :=
  if 65535 < off ∨ (s.dev.safe ∧ port ≠ 0) then s
  else { s with dev := { s.dev with endpoints := Tab.set s.dev.endpoints off (v.toNat % 2 ^ 48) } }

/-- REGISTER_WRITE: each field by its access code (R8); the tick registers are read-only (R300). -/
def registerWriteOp (sp : RegSpace) (off : Nat) (v : W64) (s : State) : State :=
  match sp with
  | .vf t => vfReg t off v s
  | .pf p => pfReg p off v s
  | .slice d n => sliceReg (21 * d + n) off v s
  | .tenantLimits t => limitReg t off v s
  | .cluster c => clusterReg c off v s
  | .dieTicks _ => s
  | .endpoints p => endpointReg p off v s

def execRegisterWrite (sp : RegSpace) (off : Nat) (v : W64) (s : State) : Ans := .next (registerWriteOp sp off v s)

/-! ## Packets without a run (R377 to R383) -/

/-- A packet that has no effect but its completion. -/
def plainPacket (h : PktHdr) (k : State → State) (s : State) : State :=
  if h.junk then s.failPacket s.focus.queue 0x20 else (k s).completePacket s.focus.queue

/-- SEAL discards the prefetch of every later packet (R371, R379). -/
def sealOp (s : State) : State := s.setQueue s.focus.queue { s.queue s.focus.queue with pre := [] }

def execNopPacket (h : PktHdr) (s : State) : Ans := .next (plainPacket h id s)
def execSealPacket (h : PktHdr) (s : State) : Ans := .next (plainPacket h sealOp s)
def execBadPacketType (_h : PktHdr) (_typ : Byte) (s : State) : Ans := .next (s.failPacket s.focus.queue 0x20)

/-- COPY (R380). -/
def copyPacketOp (h : PktHdr) (card : W64) (cluster die : Byte) (s : State) : State :=
  let id := s.focus.queue
  let c := 64 * die.toNat + cluster.toNat
  let va := card.toNat
  if h.junk ∨ va % 64 ≠ 0 ∨ 2 < die.toNat ∨ 63 < cluster.toNat then s.failPacket id 0x20
  else if !(s.tenant id.tenant).triads.contains cluster.toNat then s.failPacket id 0x23
  else match s.tenantRead id.tenant va 128 with
    | .error _ => s.failPacket id 0x22
    | .ok b =>
      if cardSem b ≠ 0 ∨ cardBar b ≠ 0 then s.failPacket id 0x20
      else if cardBad b .issued 192 then s.failPacket id Cause.shape.code
      else match (s.sampleFetch c id.tenant va 128).readRecords c id.tenant va b with
        | (.error e, t) => t.failPacket id e.cause.code
        | (.ok r, t) =>
          if recordsBad (some r) then t.failPacket id Cause.shape.code
          else match t.enterCopy c id.tenant va b (some r) (.packet id h.ctxtag) [] with
            | none => s.waitPacket id
            | some (n, t) =>
              let q := t.queue id
              (t.setQueue id { q with copies := q.copies ++ [(c, n % 256, n / 256)] }).completePacket id

def execCopyPacket (h : PktHdr) (card : W64) (cluster die : Byte) (s : State) : Ans := .next (copyPacketOp h card cluster die s)

/-- Whether a WAITSEM is satisfied by a word (R382). -/
def semHolds (word value mask : W64) (cond : Nat) : Bool :=
  match cond with
  | 0 => value.ule (word &&& mask)
  | 1 => word &&& mask == value
  | _ => word &&& mask != value

/-- WAITSEM (R382). -/
def waitsemPacketOp (h : PktHdr) (addr value mask : W64) (cond : Byte) (s : State) : State :=
  let id := s.focus.queue
  if h.junk ∨ addr.toNat % 8 ≠ 0 ∨ 2 < cond.toNat then s.failPacket id 0x20
  else match s.tenantRead id.tenant addr.toNat 8 with
    | .error _ => s.failPacket id 0x22
    | .ok d => if semHolds (BitVec.ofNat 64 (ofBytes d)) value mask cond.toNat then s.completePacket id else s.waitPacket id

def execWaitsemPacket (h : PktHdr) (addr value mask : W64) (cond : Byte) (s : State) : Ans := .next (waitsemPacketOp h addr value mask cond s)

/-- WAITSEM_REREAD: the word of a waiting WAITSEM is read again (R382). -/
def waitsemReread (s : State) : State :=
  let q := s.queue s.focus.queue
  match q.cur with
  | some b =>
    match decodePacket b with
    | .waitsemPacket h a v m c => if q.state = 3 then waitsemPacketOp h a v m c s else s
    | _ => s
  | none => s

def execWaitsemReread (s : State) : Ans := .next (waitsemReread s)

/-- SIGNAL: a write, or an atomic add, at system scope; waiting WAITSEMs of the tenant look again (R382). -/
def signalPacketOp (h : PktHdr) (addr value : W64) (op : Byte) (s : State) : State :=
  let id := s.focus.queue
  let n := if op.toNat = 2 then 4 else 8
  if h.junk ∨ 2 < op.toNat ∨ addr.toNat % n ≠ 0 then s.failPacket id 0x20
  else
    let done : Except AccErr State := if op.toNat = 1 then s.tenantAdd id.tenant addr.toNat value
      else s.tenantWrite id.tenant addr.toNat (toBytes n value.toNat)
    match done with
    | .error _ => s.failPacket id 0x22
    | .ok s => (s.completePacket id).rereads id.tenant

def execSignalPacket (h : PktHdr) (addr value : W64) (op : Byte) (s : State) : Ans := .next (signalPacketOp h addr value op s)

/-- Whether a queue's packet in progress is a BARRIER of a mask and an ID. -/
def Queue.atBarrier (q : Queue) (qmask : BitVec 16) (n : W32) : Bool :=
  q.en && decide (q.state ≠ 5) &&
  (match q.cur with
    | some b => match decodePacket b with | .barrierPacket _ m k => m == qmask && k == n | _ => false
    | none => false)

/-- BARRIER (R382). -/
def barrierPacketOp (h : PktHdr) (qmask : BitVec 16) (n : W32) (s : State) : State :=
  let id := s.focus.queue
  let named : List QueueId := ((List.range 16).filter qmask.toNat.testBit).map (fun k => ⟨id.tenant, false, k⟩)
  if h.junk ∨ !qmask.toNat.testBit id.num then s.failPacket id 0x20
  else if named.all (fun k => (s.queue k).atBarrier qmask n) then named.foldl (fun s k => s.completePacket k) s
  else s.waitPacket id

def execBarrierPacket (h : PktHdr) (qmask : BitVec 16) (n : W32) (s : State) : Ans := .next (barrierPacketOp h qmask n s)

/-- INDIRECT: its buffer's packets stand in its place; SEAL discards their prefetch (R371, R381). -/
def indirectPacketOp (h : PktHdr) (addr : W64) (count : W32) (s : State) : State :=
  let id := s.focus.queue
  let q := s.queue id
  if h.junk ∨ addr.toNat % 64 ≠ 0 ∨ count = 0 ∨ 65536 < count.toNat ∨ q.ind.isSome then s.failPacket id 0x20
  else
    let sealed := h.flags.getLsbD 0
    let q := { q with
      ind := some (addr.toNat, count.toNat, 0), indPkt := q.cur.getD [], cur := none
      pre := if sealed then q.pre.filter (fun e => !(decide (2 ^ 32 ≤ e.1) && keyIndex e.1 == q.head.toNat)) else q.pre }
    s.setQueue id { q with state := q.idle }

def execIndirectPacket (h : PktHdr) (addr : W64) (count : W32) (s : State) : Ans := .next (indirectPacketOp h addr count s)

/-- Whether a copy of an earlier COPY packet is still in progress. -/
def State.copyOpen (s : State) (e : Nat × Nat × Nat) : Bool :=
  let k := s.copy e.1 e.2.1
  k.gen == e.2.2 && (k.state == 1 || k.state == 3)

/-- FENCE completes once every copy of an earlier COPY has (R383); its writes are performed as they are made. -/
def fencePacketOp (h : PktHdr) (scope : Byte) (s : State) : State :=
  let id := s.focus.queue
  let q := s.queue id
  if h.junk ∨ 5 < scope.toNat then s.failPacket id 0x20
  else if q.copies.any s.copyOpen then s
  else (s.setQueue id { q with copies := [] }).completePacket id

def execFencePacket (h : PktHdr) (scope : Byte) (s : State) : Ans := .next (fencePacketOp h scope s)

/-- A packet that writes bytes at a tenant's address, and completes. -/
def State.packetWrite (s : State) (addr : W64) (d : List Byte) : State :=
  let id := s.focus.queue
  match s.tenantWrite id.tenant addr.toNat d with
  | .error _ => s.failPacket id 0x22
  | .ok s => s.completePacket id

/-- TIMESTAMP, WRDATA, EVENT (R383). -/
def timestampPacketOp (h : PktHdr) (addr : W64) (src : Byte) (s : State) : State :=
  let d := s.die s.qc.active
  if h.junk ∨ addr.toNat % 8 ≠ 0 ∨ 1 < src.toNat then s.failPacket s.focus.queue 0x20
  else s.packetWrite addr (toBytes 8 (if src = 0 then d.pktime else d.tick).toNat)

def wrdataPacketOp (h : PktHdr) (addr : W64) (len : Byte) (data : BitVec 320) (s : State) : State :=
  if h.junk ∨ len = 0 ∨ 40 < len.toNat then s.failPacket s.focus.queue 0x20
  else s.packetWrite addr ((toBytes 40 data.toNat).take len.toNat)

def eventPacketOp (h : PktHdr) (code : W32) (data : W64) (s : State) : State :=
  let id := s.focus.queue
  if h.junk then s.failPacket id 0x20
  else (s.packetEvent id 5 (h.flags.getLsbD 1) h.ctxtag code.toNat data).completePacket id

def execTimestampPacket (h : PktHdr) (addr : W64) (src : Byte) (s : State) : Ans := .next (timestampPacketOp h addr src s)
def execWrdataPacket (h : PktHdr) (addr : W64) (len : Byte) (data : BitVec 320) (s : State) : Ans := .next (wrdataPacketOp h addr len data s)
def execEventPacket (h : PktHdr) (code : W32) (data : W64) (s : State) : Ans := .next (eventPacketOp h code data s)

/-- The 96 bytes of a gauge in a GAUGE read (R383). -/
def State.gaugeBytes (s : State) (t n : Nat) : List Byte :=
  let f := s.gaugeField t n
  toBytes 4 (f 0) ++ toBytes 4 (f 1) ++ toBytes 8 (f 2) ++ toBytes 8 (f 3) ++ (List.range 16).flatMap (fun b => toBytes 4 (f (4 + b))) ++
  toBytes 4 (f 20) ++ toBytes 4 0

/-- GAUGE (R383). -/
def gaugePacketOp (h : PktHdr) (addr : W64) (triad op : Byte) (gmask : BitVec 16) (config : W64) (s : State) : State :=
  let id := s.focus.queue
  let t := triad.toNat
  let gs := (List.range 16).filter gmask.toNat.testBit
  if h.junk ∨ addr.toNat % 64 ≠ 0 ∨ 2 < op.toNat ∨ (op.toNat = 1 ∧ !gaugeCfgOk config.toNat) then s.failPacket id 0x20
  else if !(s.tenant id.tenant).triads.contains t then s.failPacket id 0x23
  else match op.toNat with
    | 0 => s.packetWrite addr (gs.flatMap (s.gaugeBytes t))
    | 1 => (gs.foldl (fun s n => s.selectGauge t n (config.truncate 32)) s).completePacket id
    | _ => (s.clearGauges t gmask.toNat).completePacket id

def execGaugePacket (h : PktHdr) (addr : W64) (triad op : Byte) (gmask : BitVec 16) (config : W64) (s : State) : Ans :=
  .next (gaugePacketOp h addr triad op gmask config s)

/-! ## Triads (R375) -/

/-- Whether a run waits for its triads: not yet mapped, or switched out by the scheduler. -/
def Run.waits (r : Run) : Bool := r.phase == .waiting || r.phase == .switched

def sharesTriad (a b : Run) : Bool := a.triads.any (fun t => b.triads.contains t)
def State.prioOf (s : State) (r : Run) : Nat := (s.queue r.queue).prio

/-- Whether the first of two waiting runs is mapped before the second: higher PRIO, or the longer wait (R375). -/
def State.before (s : State) (a b : Nat × Run) : Bool :=
  decide (s.prioOf b.2 < s.prioOf a.2) || (s.prioOf a.2 == s.prioOf b.2 && (decide (a.2.waitSince < b.2.waitSince) ||
    (a.2.waitSince == b.2.waitSince && decide (a.1 < b.1))))

def State.insertWaiting (s : State) (e : Nat × Run) : List (Nat × Run) → List (Nat × Run)
  | [] => [e]
  | x :: t => if s.before e x then e :: x :: t else x :: s.insertWaiting e t

/-- The waiting runs in the order in which they are mapped. -/
def State.waitingRuns (s : State) : List (Nat × Run) :=
  (s.runs.filter (fun e => e.2.waits)).foldl (fun l e => s.insertWaiting e l) []

/-- The waiting runs that are mapped: a RUN or RESUME whose triads are all free, and a run that was switched out whose triads are free
and wanted by none before it (R375, steps 3 and 5). `taken` lists the triads of those mapped before it, `wanted` of all before it. -/
def State.mappable (s : State) (taken wanted : List Nat) : List (Nat × Run) → List Nat
  | [] => []
  | e :: t =>
    let free := e.2.triads.all (fun k => !taken.contains k) && s.runs.all (fun h => h.2.waits || !sharesTriad h.2 e.2)
    let go := free && (e.2.phase == .waiting || e.2.triads.all (fun k => !wanted.contains k))
    (if go then [e.1] else []) ++ s.mappable (if go then e.2.triads ++ taken else taken) (e.2.triads ++ wanted) t

/-- MAP is issued for every run that may be mapped now; none before the dies' TICK has stepped (R301), none on a fenced die (R316). -/
def State.mapWaiting (s : State) : State :=
  if s.qc.quiet ≠ 0 ∨ !(List.range 3).all (fun d => (s.die d).stepped && !(s.die d).fenced) then s
  else
    let l := s.mappable [] [] s.waitingRuns
    (l.foldl (fun s r => s.setRun r { s.run r with phase := .mapping }) s).pushJobs (l.map (fun r => .ev .map { Focus.none with run := r }))

/-! ## RUN and RESUME (R384, R386) -/

/-- The triads that a packet names. -/
def packetTriads (b : RunBody) : List Nat := (List.range 64).filter b.triads.toNat.testBit

/-- Whether a RUN or RESUME breaks R384. -/
def State.runBad (s : State) (b : RunBody) : Bool :=
  let n := (packetTriads b).length
  n == 0 || b.epool.toNat % 0x10000 != 0 || decide (s.scrcap / 2 < b.epool.toNat) || b.errarea.toNat % 0x10000 != 0 ||
  b.savearea.toNat % 4096 != 0 || decide (b.savesz.toNat < 3 * n * s.scrcap / 65536 + 3) || b.exits.toNat % 4 != 0

/-- The checks of a save area and an image against a RESUME (R386): the cause of its failure. -/
def State.resumeBad (s : State) (tenant : Nat) (b : RunBody) (head : List Byte) : Option Nat :=
  match s.tenantRead tenant b.savearea.toNat 4096 with
  | .error _ => some 0x22
  | .ok h =>
    let digest : List Byte := match s.tenantRead tenant (b.image.toNat + fieldAt head 0x28 4 + 0x10) 8 with | .ok d => d | .error _ => []
    let magic : List Byte := [0x53, 0x56, 0x52, 0x4E]
    let bad : Bool := subBytes h 0 4 != magic || fieldAt h 4 2 != 1 || !(fieldAt h 0x12 1).testBit 0 || fieldAt h 0x10 1 != tenant ||
      fieldAt h 0x11 1 != (packetTriads b).length || subBytes h 0x18 8 != digest
    if bad then some 0x24
    else none

/-- RUN and RESUME up to the wait for their triads (R384, R386). In SCRAP no run is accepted (R64, R403): the packet fails with BADPKT,
which is the model's choice of cause (log 80). -/
def runPacketOp (h : PktHdr) (b : RunBody) (resume : Bool) (s : State) : State :=
  let id := s.focus.queue
  let ts := packetTriads b
  if h.junk ∨ s.dev.lc = .scrap ∨ s.runBad b then s.failPacket id 0x20
  else if !ts.all (fun t => (s.tenant id.tenant).triads.contains t) then s.failPacket id 0x23
  else match s.tenantRead id.tenant b.image.toNat 64 with
    | .error _ => s.failPacket id 0x22
    | .ok head =>
      match (if resume then s.resumeBad id.tenant b head else none) with
      | some c => s.failPacket id c
      | none =>
        let run := s.nextRun
        let s := { s with nextRun := run + 1 }
        let s := s.setRun run { Run.none with
          tenant := id.tenant, queue := id, ctxtag := h.ctxtag, notify := h.flags.getLsbD 1, body := b, resume := resume, phase := .waiting
          triads := ts, waitSince := (s.die 0).tick.toNat }
        let s := (s.setQueue id { s.queue id with run := some run }).mapWaiting
        if (s.run run).phase = .waiting then s.waitPacket id else s

def execRunPacket (h : PktHdr) (b : RunBody) (s : State) : Ans := .next (runPacketOp h b false s)
def execResumePacket (h : PktHdr) (b : RunBody) (s : State) : Ans := .next (runPacketOp h b true s)

/-! ## MAP and the RUN load (R22, R231, R277, R374, R384) -/

/-- A cluster goes to a run: its synchronisation unit and its trap record are cleared, its channels count SEQ from 0, and its gauges stay
with their tenant (R214, R243, R349, R354, R374). -/
def State.giveCluster (s : State) (run tenant c i : Nat) : State :=
  let k := s.cluster c
  let s := (List.range 16).foldl (fun s j => let r := s.region (16 * c + j); s.setRegion (16 * c + j) { r with se := Vector.replicate 4 Chan.load }) s
  s.setCluster c { k with
    ctl := { k.ctl with trap := Ctl.reset.trap }
    sems := [], handlers := [], pending := [], park := []
    owner := some run, idx := i, gtenant := tenant, gauges := if k.gtenant = tenant ∨ k.gtenant = 64 then k.gauges else [] }

/-- The templates of an image go to their slots in a cluster, as CPYT would load them (R231). -/
def State.loadTemplates (s : State) (run c : Nat) (l : List (Nat × List Byte)) : State :=
  l.foldl (fun s e =>
    let card := subBytes e.2 0 128
    let a := subBytes e.2 128 64
    let b := subBytes e.2 192 64
    let x := ShapeRec.of a
    let y := ShapeRec.of b
    if cardBad card .launch (s.run run).clusters.length ∨ x.bad .copy ∨ y.bad .copy ∨ x.dir ∨ !y.dir then s.raiseCluster .shape c 0 0
    else s.setTemplate c e.1 ⟨true, (cardArm card).testBit 7, cardArm card % 16, 0, card, a, b⟩) s

/-- The waves of a graph that hold a page, in increasing number. -/
def Graph.waves (g : Graph) : List Nat := (List.range 256).filter (fun w => g.pages.any (fun p => p.wave == w))

/-- The RUN load: graph 0, its waves, its templates and its controllers (R277, R293, R384). -/
def State.launch (s : State) (run : Nat) : State :=
  let r := s.run run
  let tick := (s.die 0).tick
  match s.loadImage r.tenant r.body.image.toNat r.body.symtab.toNat true r.clusters.length 0 with
  | .error (k, code) =>
    s.raise run { ErrRec.of (if code = 0 then Cause.image else k) tick with code := if code = 0 then 0x21 else code, addr := r.body.image.toNat }
  | .ok d =>
    let s := s.installGraph run 0 r.body.image.toNat r.body.symtab.toNat d
    let s := (s.graphOf run 0).waves.foldl (fun s w =>
      if (s.run run).err.isSome then s else if s.nofit run 0 w then s.raise run (ErrRec.of .place tick) else s.enterWave run 0 w []) s
    let s := r.clusters.foldl (fun s c => s.loadTemplates run c d.templates) s
    d.ctls.foldl (fun s e => match r.clusterAt e.cluster with
      | some c => s.setCtl c { Ctl.reset with st := .running, pc := BitVec.ofNat 64 e.entry }
      | none => s) s

/-- What a RESUME loads before its restore: the graph of the image, and the run that its save area holds (R386). -/
def State.reload (s : State) (run : Nat) : State :=
  let r := s.run run
  let tick := (s.die 0).tick
  match s.loadImage r.tenant r.body.image.toNat r.body.symtab.toNat true r.clusters.length 0 with
  | .error (k, code) =>
    s.raise run { ErrRec.of (if code = 0 then Cause.image else k) tick with code := if code = 0 then 0x21 else code, addr := r.body.image.toNat }
  | .ok d =>
    match s.readSave r.tenant r.body.savearea.toNat, s.tenantRead r.tenant (r.body.savearea.toNat + 0xC) 4 with
    | .ok l, .ok n => (s.adopt run d l (ofBytes n)).pushJobs [.sub .restore { Focus.none with run := run }]
    | .error e, _ => s.raise run { ErrRec.of e.cause tick with addr := e.addr }
    | _, .error e => s.raise run { ErrRec.of e.cause tick with addr := e.addr }

/-- MAP: the run takes its clusters, EPOCH is set, and the load or the restore starts (R374). -/
def mapOp (s : State) : State :=
  let run := s.focus.run
  let r := s.run run
  if r.phase ≠ .mapping ∨ !r.clusters.all (fun c => (s.cluster c).owner.isNone) then s
  else
    let t := { s.tenant r.tenant with windows := (s.tenant r.tenant).newWindows.getD (s.tenant r.tenant).windows, newWindows := none }
    let s := s.setTenant r.tenant t
    let s := r.clusters.zipIdx.foldl (fun s e => s.giveCluster run r.tenant e.1 e.2) s
    let s := s.sampleWait r.queue
    let s := s.setQueue r.queue { s.queue r.queue with started := false, state := 4 }
    let first := r.graphs.isEmpty
    let s := s.setRun run { r with
      phase := if first && !r.resume then .active else .mapping
      epoch := (s.die 0).pktime, hanglim := if first then t.hanglim else r.hanglim, grace := t.grace, mappedAt := (s.die 0).tick.toNat }
    if !first then s.pushJobs [.sub .restore { Focus.none with run := run }]
    else if r.resume then s.reload run
    else s.launch run

def execMap (s : State) : Ans := .next (mapOp s)

/-! ## The scheduling policy (R375, R376, R380) -/

/-- Whether a run can be switched now. -/
def Run.switchable (r : Run) : Bool := r.phase == .active && r.resumeAt.isNone && r.err.isNone

/-- The SWITCH of a run as the firmware issues it: `why` 0 the scheduler, 2 a request. -/
def switchJob (run : Nat) (tack : Bool) (why : Nat) : Job := .ev .switch { Focus.none with run := run, flag := tack, num := why }

/-- The pre-emption requests that are honoured now (R376). -/
def State.requestJobs (s : State) : List Job :=
  s.runs.filterMap (fun e => match e.2.preq with | some m => if e.2.switchable then some (switchJob e.1 m 2) else none | none => none)

/-- The runs that a waiting run of higher PRIO displaces (R375). -/
def State.displaceJobs (s : State) : List Job :=
  s.runs.filterMap (fun h =>
    if h.2.switchable && h.2.preq.isNone && s.runs.any (fun w => w.2.waits && sharesTriad w.2 h.2 && decide (s.prioOf h.2 < s.prioOf w.2)) then
      some (switchJob h.1 false 0)
    else none)

/-- A copy that ended with an error puts its queue in the error state at its next packet boundary (R380). -/
def State.copyErrors (s : State) : State :=
  (s.tenants.flatMap (fun t => t.2.queues.map (fun q => (⟨t.1, false, q.1⟩ : QueueId)))).foldl (fun s id =>
    let q := s.queue id
    match q.copyErr with
    | none => s
    | some (cause, tag) =>
      let mapped : Bool := match q.run with | some r => (s.run r).phase != RunPhase.waiting | none => false
      if q.state = 5 ∨ mapped ∨ (q.cur.isSome ∧ q.state ≠ 3) then s
      else
        let s := s.abandon id
        (s.setQueue id { s.queue id with copyErr := none }).queueError id cause tag false) s

/-- The queue of a tenant whose packet starts next: highest PRIO, then in turn (R375). -/
def Tenant.nextQueue (t : Tenant) : Option Nat :=
  let l := (t.queues.filter (fun e => e.2.ready)).map (fun e => (e.1, e.2.prio))
  let top := (l.map Prod.snd).foldl max 0
  ((List.range 16).map (fun k => (t.lastQueue + 1 + k) % 16)).find? (fun k => l.any (fun e => e.1 == k && e.2 == top))

/-- One round over the tenants after the one last visited: at most one packet of each starts. -/
def State.visits (s : State) : List QueueId :=
  ((List.range 64).map (fun k => (s.qc.lastTenant + 1 + k) % 64)).filterMap (fun m =>
    let t := s.tenant m
    if t.created then t.nextQueue.map (fun k => ⟨m, false, k⟩) else none)

/-- SCHEDULING_STEP (R375, R376). -/
def schedulingStep (s : State) : State :=
  if s.qc.quiet ≠ 0 ∨ s.dev.safe then s
  else
    let s := s.copyErrors
    let l := s.visits
    let s := l.foldl (fun s id => s.setTenant id.tenant { s.tenant id.tenant with lastQueue := id.num }) s
    let s := match l.getLast? with
      | some id => { s with qc := { s.qc with lastTenant := id.tenant } }
      | none => s
    let s := s.pushJobs (l.map (fun id => .sub .packet { Focus.none with queue := id }))
    let switches := s.requestJobs ++ s.displaceJobs
    s.mapWaiting.pushJobs switches

def execSchedulingStep (s : State) : Ans := .next (schedulingStep s)

/-- The microseconds of QUANT in cycles at the present clock (R375, R407). -/
def State.quantOver (s : State) (r : Run) : Bool :=
  decide ((s.tenant r.tenant).quant * 1600 * (64 - s.dev.tstep) ≤ ((s.die 0).tick.toNat - r.mappedAt) * 64)

/-- QUANT_EXPIRY: a run that has held its triads for QUANT gives them to a waiting run of equal PRIO (R375). A request of the run that
is pending comes first, at the next scheduling step (R376). -/
def quantExpiry (s : State) : State :=
  let run := s.focus.run
  let h := s.run run
  if s.qc.quiet = 0 ∧ h.switchable ∧ h.preq.isNone ∧ s.quantOver h ∧ s.runs.any (fun w => w.2.waits && sharesTriad w.2 h && s.prioOf w.2 == s.prioOf h) then
    s.pushJobs [switchJob run false 0]
  else s

def execQuantExpiry (s : State) : Ans := .next (quantExpiry s)

/-! ## INVT (R353) -/

/-- The range of an INVT: its first byte and the byte past its last; the whole space for a length of 0 (R368). -/
def Tenant.invRange (t : Tenant) : Nat × Nat :=
  let a := t.invaddr.toNat / 0x10000 * 0x10000
  if t.invlen = 0 then (0, 2 ^ 52) else (a, a + (t.invlen.toNat + 0xFFFF) / 0x10000 * 0x10000)

/-- Moment A: translations of the range go from every TLB and translation cache, and from the engines that hold them (R213), and
buffered lines are written through. -/
def State.invalidate (s : State) (tenant lo hi : Nat) : State :=
  let touches (e : TlbEnt) : Bool := decide (e.va < hi) && decide (lo < e.va + e.size)
  let keep (t : Tab TlbEnt) : Tab TlbEnt := t.filter (fun (e : Nat × TlbEnt) => !touches e.2)
  let held (b : Binding) : Binding := { b with trans := keep b.trans }
  let mine := (s.clusters.map Prod.fst).filter (fun c => s.tenantOf c == tenant)
  let s : State := { s with
    clusters := s.clusters.map (fun (e : Nat × Cluster) => (e.1, { e.2 with
      copies := e.2.copies.map (fun (x : Nat × Copy) => (x.1, if x.2.tenant = tenant then { x.2 with trans := keep x.2.trans } else x.2)) }))
    regions := s.regions.map (fun (e : Nat × Region) => (e.1, if mine.contains (regionCluster e.1) then
      { e.2 with se := e.2.se.map (fun k => { k with cur := k.cur.map held, pend := k.pend.map held }) } else e.2)) }
  let s := mine.foldl (fun s c =>
    let k := s.cluster c
    (List.range 16).foldl (fun s i => if (s.mn (16 * c + i)).coal.isEmpty then s else s.setMn (16 * c + i) (s.mn (16 * c + i)).flush)
      (s.setCluster c { k with tlb := k.tlb.filter (fun e => !touches e) })) s
  (List.range 3).foldl (fun s d =>
    let x := s.die d
    s.setDie d { x with txc := List.filter (fun (e : Nat × TlbEnt) => !(e.1 == tenant && touches e.2)) x.txc }) s

/-- INVT: translations go at one moment; it completes once every access through them has been performed. -/
def invtOp (s : State) : State :=
  let tenant := s.focus.queue.tenant
  let t := s.tenant tenant
  if t.invDone then s
  else match t.invStamp with
    | none =>
      if s.qc.quiet ≠ 0 then s
      else
        let s := s.invalidate tenant t.invRange.1 t.invRange.2
        let (n, s) := s.stamp
        s.setTenant tenant { s.tenant tenant with invStamp := some n }
    | some n =>
      let mine := (s.clusters.map Prod.fst).filter (fun c => s.tenantOf c == tenant)
      -- a controller between the halves of an access holds the address that it has translated (R167)
      if mine.all (fun c => (s.ctl c).half.isNone && (List.range 16).all (fun i => (s.mn (16 * c + i)).far.all (fun a => decide (n < a.stamp)))) then
        s.setTenant tenant { t with invDone := true, invStamp := none }
      else s

def execInvt (s : State) : Ans := .next (invtOp s)

/-! ## Commit and takeover (R366, R391) -/

/-- The table of every queue of a tenant is copied. -/
def Tenant.commit (t : Tenant) : Tenant :=
  let done (e : Nat × Queue) : Nat × Queue := (e.1, { e.2 with uncommit := none })
  { t with queues := t.queues.map done, links := t.links.map done }

/-- The packets of a tenant whose effects are made and not committed: one at most of each queue. -/
def Tenant.uncommitted (t : Tenant) : Nat :=
  t.queues.countP (fun q => q.2.uncommit.isSome) + t.links.countP (fun q => q.2.uncommit.isSome)

/-- The state table is copied after a packet of a queue: what every queue has done is committed (R366). -/
def commitQueue (id : QueueId) (s : State) : State :=
  if (s.queue id).uncommit.isNone then s
  else { s with
    tenants := s.tenants.map (fun (t : Nat × Tenant) => (t.1, t.2.commit))
    qc := { s.qc with committed := (s.qc.committed + (s.tenants.map (fun t => t.2.uncommitted)).sum) % 2 ^ 64 } }

/-- A queue as the new active complex takes it from the table: a packet not committed is processed again, in a queue in the error state
once CLR is written; a work request in progress starts again, and an ALLRED posts again. -/
def State.takeQueue (s : State) (id : QueueId) : State :=
  let s := match (s.queue id).run with
    | some run => if (s.run run).phase = RunPhase.waiting then s.abandon id else s
    | none => s
  let s := s.dropPost id
  let q : Queue := { s.queue id with pre := [] }
  if q.run.isSome then s.setQueue id q
  else
    let q := if q.state = 5 then q else { q with redo := q.redo || q.pendingWr.isSome, cur := none, started := false, pendingWr := none }
    let q := match q.uncommit with
      | some (h, i, p) => { q with head := h, ind := i, indPkt := p, uncommit := none, redo := true }
      | none => q
    s.setQueue id { q with state := q.idle }

/-- Every queue of every tenant. -/
def State.allQueues (s : State) : List QueueId :=
  s.tenants.flatMap (fun t => t.2.queues.map (fun q => (⟨t.1, false, q.1⟩ : QueueId)) ++ t.2.links.map (fun q => (⟨t.1, true, q.1⟩ : QueueId)))

/-- The held completions of a live update are applied (R390). -/
def State.applyKept (s : State) : State :=
  let l := s.qc.kept
  l.foldl (fun s k => s.finishRun k.1 k.2.1 k.2.2) { s with qc := { s.qc with kept := [], quiet := 0 } }

/-- TAKEOVER (R391). A complex on a fenced die does not take over (R316). A firmware image on its way to the standby complex is
dropped with its mailbox command, which is processed again (log 43). -/
def takeoverOp (s : State) : State :=
  let other := 1 - s.qc.active
  if (s.die other).fenced ∨ s.dev.safe then s
  else
    let s := { s with qc := { s.qc with active := other, loading := none }, linkIn := [] }
    (s.allQueues.foldl (fun s id => s.takeQueue id) s).applyKept

def execTakeover (s : State) : Ans := .next (takeoverOp s)

end Sys2Proof.Machine
end

