-- ==== Sys2Proof/Machine/Firmware.lean ====
section
/-! DEFINITION. The management mailbox (R396 to R398) and its commands: tenants, keys (R399), firmware (R390, R402), life cycle
(R403), attestation (R404). -/
namespace Sys2Proof.Machine

/-! ## The command page (R397) -/

/-- Host memory as the firmware reaches it: host bus addresses begin at physical 0x8000_0000_0000 (R15). -/
def hostPa (a : Nat) : Nat := 0x800000000000 + a % 2 ^ 47
def State.hostRead (s : State) (a n : Nat) : List Byte := memBytes s.mem (hostPa a) n
def State.hostWrite (s : State) (a : Nat) (d : List Byte) : State := s.writePhys (View.firmware 0) (hostPa a) d

/-- The command and its arguments. -/
def State.mbPage (s : State) : List Byte := s.hostRead s.dev.mbaddr.toNat 0x800
def pageOpc (b : List Byte) : Nat := fieldAt b 0 2
def pageTenant (b : List Byte) : Nat := fieldAt b 4 1
def arg (b : List Byte) (off : Nat) : Nat := fieldAt b off 8

/-- The argument fields of a command: offset, size, least and greatest value (R398). -/
def cmdFields (opc : Nat) : Option (List (Nat × Nat × Nat × Nat)) :=
  let top := 2 ^ 64 - 1
  match opc with
  | 0x01 => some [(8, 8, 0, 1)]
  | 0x02 => some []
  | 0x03 => some [(8, 8, 0, top)]
  | 0x04 => some [(8, 8, 0, 15), (0x10, 8, 0, 2 ^ 48 - 1), (0x18, 8, 0, 2 ^ 48)]
  | 0x05 => some [(8, 8, 0, top)]
  | 0x06 => some []
  | 0x07 => some [(8, 8, 0, 255)]
  | 0x08 => some [(8, 8, 0, 15), (0x10, 8, 0, top)]
  | 0x09 => some [(8, 8, 100, 1000000), (0x10, 8, 0, 2 ^ 48 - 1), (0x18, 8, 1600, 2 ^ 32 - 1)]
  | 0x0A => some [(8, 1, 0, 255), (9, 1, 0, 63), (0xA, 1, 0, 1), (0xB, 1, 0, 1)]
  | 0x10 => some [(8, 8, 0, top), (0x10, 8, 1, 2 ^ 32)]
  | 0x11 => some [(8, 32, 0, 2 ^ 256 - 1), (0x28, 8, 0, top)]
  | 0x12 => some [(8, 8, 0, 4), (0x10, 8, 0, top)]
  | 0x13 => some [(8, 8, 0, 1)]
  | 0x14 => some [(8, 8, 800, 2800)]
  | 0x15 => some [(8, 8, 0, 2)]
  | 0x16 => some []
  | _ => none

/-- Whether the TENANT field of a command is in range: TNEW names any of 64, the other tenant commands one that exists, ATTEST
may name 0xFF. -/
def State.tenantFieldOk (s : State) (opc t : Nat) : Bool :=
  if opc = 1 then decide (t < 64)
  else if opc ≤ 0xA then decide (t < 64) && (s.tenant t).created
  else if opc = 0x11 then t == 0xFF || (decide (t < 64) && (s.tenant t).created)
  else true

/-- What a command needs beyond the range of each field (R398). -/
def State.argsFit (s : State) (b : List Byte) : Bool :=
  match pageOpc b with
  | 0x04 => arg b 0x18 % 0x10000 == 0 && decide (arg b 0x10 + arg b 0x18 ≤ 2 ^ 48)
  | 0x07 => (s.tenant (pageTenant b)).keys.contains (arg b 8)
  | 0x0A => decide (fieldAt b 8 1 ≤ 47) || fieldAt b 8 1 == 0xFF
  | _ => true

/-- Whether a page holds a command as R397 and R398 ask. -/
def State.pageOk (s : State) (b : List Byte) : Bool :=
  match cmdFields (pageOpc b) with
  | none => false
  | some l =>
    l.all (fun f => decide (f.2.2.1 ≤ fieldAt b f.1 f.2.1) && decide (fieldAt b f.1 f.2.1 ≤ f.2.2.2)) &&
    (List.range (0x800 - 8)).all (fun i => l.any (fun f => decide (f.1 ≤ i + 8) && decide (i + 8 < f.1 + f.2.1)) || (b[i + 8]?).getD 0 == 0) &&
    s.tenantFieldOk (pageOpc b) (pageTenant b) && s.argsFit b

/-- The response is written, then DONE becomes 1 with the STATUS (R397). -/
def State.respond (s : State) (status : Nat) (d : List Byte) : State :=
  let s := if d.isEmpty then s else s.hostWrite (s.dev.mbaddr.toNat + 0x800) (d.take 0x800)
  { s with dev := { s.dev with mbDone := true, mbStatus := status } }

/-- The event of a command (R398). -/
def opcInstr (opc : Nat) : Instr :=
  match opc with
  | 0x01 => .tnew | 0x02 => .tdel | 0x03 => .triads | 0x04 => .window | 0x05 => .txrootCommand | 0x06 => .keynew | 0x07 => .keydel
  | 0x08 => .signer | 0x09 => .tune | 0x0A => .rgrant | 0x10 => .fwload | 0x11 => .attest | 0x12 => .lcset | 0x13 => .reset
  | 0x14 => .pwrcap | 0x15 => .linkcfg | 0x16 => .info | _ => .unknownOpc

/-- The commands that safe mode accepts: FWLOAD, ATTEST, LCSET to RMA or SCRAP, RESET and INFO (R398). -/
def safeAccepts (b : List Byte) : Bool :=
  match pageOpc b with
  | 0x10 | 0x11 | 0x13 | 0x16 => true
  | 0x12 => arg b 8 == 3 || arg b 8 == 4
  | _ => false

/-- Whether a page names a command that safe mode turns away (R398). -/
def State.shunned (s : State) (b : List Byte) : Bool := s.dev.safe && (cmdFields (pageOpc b)).isSome && !safeAccepts b

/-- The firmware takes up a GO (R396). -/
def mailboxJob (s : State) : State :=
  if s.dev.mbDone ∨ s.qc.quiet ≠ 0 then s
  else s.pushJobs [.ev (if s.shunned s.mbPage || s.pageOk s.mbPage then opcInstr (pageOpc s.mbPage) else .unknownOpc) Focus.none]

/-- A command in progress: in safe mode only some are accepted, and every other returns SAFE; of one that is accepted the page must fit
(R397, R398). `k` answers for it. -/
def command (opc : Nat) (k : List Byte → State → State) (s : State) : State :=
  let b := s.mbPage
  if s.dev.mbDone ∨ pageOpc b ≠ opc then s
  else if s.shunned b then s.respond 7 []
  else if !s.pageOk b then s
  else k b s

/-- A command on the tenant that its page names. -/
def tenantCommand (opc : Nat) (k : Nat → List Byte → State → State) (s : State) : State :=
  command opc (fun b s => k (pageTenant b) b s) s

/-- UNKNOWN_OPC (R397). -/
def unknownOpcOp (s : State) : State := if s.dev.mbDone ∨ s.shunned s.mbPage ∨ s.pageOk s.mbPage then s else s.respond 1 []

def execUnknownOpc (s : State) : Ans := .next (unknownOpcOp s)

/-! ## Tenants (R398) -/

/-- Whether a run holds its clusters. -/
def Run.mapped (r : Run) : Bool := !r.waits
def State.hasMapped (s : State) (t : Nat) : Bool := s.runs.any (fun e => e.2.tenant == t && e.2.mapped)

/-- The life-cycle states in which tenants may hold keys and signers (R403). -/
def State.tenantsServed (s : State) : Bool := s.dev.lc == .develop || s.dev.lc == .production

def tnewOp (t : Nat) (b : List Byte) (s : State) : State :=
  if (s.tenant t).created then s.respond 2 []
  else (s.setTenant t { Tenant.reset with created := true, port := arg b 8 }).respond 0 []

/-- KEYDEL of one key (R399). -/
def State.dropKey (s : State) (key : Nat) : State :=
  let tens : Tab Tenant := s.tenants.map (fun (e : Nat × Tenant) => (e.1, { e.2 with keys := e.2.keys.filter (· != key) }))
  let sls : Tab Slice := s.slices.map (fun (e : Nat × Slice) => (e.1, { e.2 with lines := e.2.lines.filter (fun l => l.key != key) }))
  { s with
    tenants := tens, slices := sls, granules := s.granules.filter (fun g => g.2 != key)
    dev := { s.dev with keys := s.dev.keys.filter (· != key) } }

/-- TDEL of a tenant that has no mapped run. -/
def State.deleteTenant (s : State) (t : Nat) : State :=
  let x := s.tenant t
  let s := x.keys.foldl (fun s k => if k = 0 then s else s.dropKey k) s
  let s := x.triads.foldl (fun s k => (triadClusters k).foldl (fun s c => s.setCluster c { s.cluster c with gauges := [], gtenant := 64 }) s) s
  let s := (s.runs.filter (fun e => e.2.tenant == t)).foldl (fun s e => s.forgetRun e.1) s
  { s.setTenant t Tenant.reset with qc := { s.qc with saved := s.qc.saved.filter (fun x => x.tenant != t) } }

def tdelOp (t : Nat) (_b : List Byte) (s : State) : State :=
  if s.hasMapped t then s.respond 2 [] else (s.deleteTenant t).respond 0 []

def triadsOp (t : Nat) (b : List Byte) (s : State) : State :=
  let new := (List.range 64).filter (arg b 8).testBit
  let other := s.tenants.any (fun e => e.1 != t && new.any e.2.triads.contains)
  let held := s.runs.any (fun e => e.2.tenant == t && e.2.mapped && e.2.triads.any (fun k => !new.contains k))
  if other ∨ held then s.respond 2 [] else (s.setTenant t { s.tenant t with triads := new }).respond 0 []

def windowsClash (a b : Window) : Bool := decide (a.base < b.base + b.len) && decide (b.base < a.base + a.len)

/-- A tenant's windows as they will be at its next MAP. -/
def Tenant.nextWindows (t : Tenant) : Tab Window := t.newWindows.getD t.windows

def windowOp (t : Nat) (b : List Byte) (s : State) : State :=
  let w : Window := ⟨arg b 0x10, arg b 0x18⟩
  let clash := s.tenants.any (fun (e : Nat × Tenant) => e.1 != t &&
    ((e.2.windows.any (fun (x : Nat × Window) => windowsClash w x.2)) || (e.2.nextWindows.any (fun (x : Nat × Window) => windowsClash w x.2))))
  if clash ∧ w.len ≠ 0 then s.respond 2 []
  else
    let x := s.tenant t
    let new : Tab Window := if w.len = 0 then Tab.del x.nextWindows (arg b 8) else Tab.set x.nextWindows (arg b 8) w
    let x := if s.hasMapped t then { x with newWindows := some new } else { x with windows := new, newWindows := none }
    (s.setTenant t x).respond 0 []

def txrootOp (t : Nat) (b : List Byte) (s : State) : State :=
  if s.hasMapped t then s.respond 2 []
  else (s.setTenant t { s.tenant t with txroot := BitVec.ofNat 64 (arg b 8) &&& 0xFFFFFFFF8001 }).respond 0 []

/-- KEYNEW (R399): the lowest free index. -/
def keynewOp (t : Nat) (_b : List Byte) (s : State) : State :=
  if !s.tenantsServed then s.respond 4 []
  else match (List.range 256).find? (fun k => !s.dev.keys.contains k) with
    | none => s.respond 3 []
    | some k =>
      let x := s.tenant t
      ({ s.setTenant t { x with keys := x.keys ++ [k] } with dev := { s.dev with keys := k :: s.dev.keys } } : State).respond 0 (toBytes 8 k)

def keydelOp (t : Nat) (b : List Byte) (s : State) : State :=
  if s.hasMapped t then s.respond 2 [] else (s.dropKey (arg b 8)).respond 0 []

def signerOp (t : Nat) (b : List Byte) (s : State) : State :=
  let x := s.tenant t
  let a := arg b 0x10
  let key := s.hostRead a 1793
  if !s.tenantsServed then s.respond 4 []
  else if a = 0 then (s.setTenant t { x with signers := Tab.del x.signers (arg b 8) }).respond 0 []
  else if !falconKeyOk key then s.respond 5 []
  else (s.setTenant t { x with signers := Tab.set x.signers (arg b 8) key }).respond 0 []

def tuneOp (t : Nat) (b : List Byte) (s : State) : State :=
  (s.setTenant t { s.tenant t with quant := arg b 8, hanglim := arg b 0x10, grace := arg b 0x18 }).respond 0 []

/-- RGRANT (R398, R406). -/
def rgrantOp (t : Nat) (b : List Byte) (s : State) : State :=
  let g : Grant := ⟨fieldAt b 8 1, fieldAt b 9 1, fieldAt b 0xA 1⟩
  let x := s.tenant t
  let rest := x.grants.filter (fun h => !(h == g))
  (s.setTenant t { x with grants := if fieldAt b 0xB 1 = 1 then rest ++ [g] else rest }).respond 0 []

def execTnew (s : State) : Ans := .next (tenantCommand 0x01 tnewOp s)
def execTdel (s : State) : Ans := .next (tenantCommand 0x02 tdelOp s)
def execTriads (s : State) : Ans := .next (tenantCommand 0x03 triadsOp s)
def execWindow (s : State) : Ans := .next (tenantCommand 0x04 windowOp s)
def execTxrootCommand (s : State) : Ans := .next (tenantCommand 0x05 txrootOp s)
def execKeynew (s : State) : Ans := .next (tenantCommand 0x06 keynewOp s)
def execKeydel (s : State) : Ans := .next (tenantCommand 0x07 keydelOp s)
def execSigner (s : State) : Ans := .next (tenantCommand 0x08 signerOp s)
def execTune (s : State) : Ans := .next (tenantCommand 0x09 tuneOp s)
def execRgrant (s : State) : Ans := .next (tenantCommand 0x0A rgrantOp s)

/-! ## Firmware and live update (R389, R390, R402) -/

/-- A firmware image as a complex holds it: its VERSION and the table's are 2 bytes each, its SVN is 0 to 63 (R389, R402). -/
def firmwareOf (image : List Byte) : Firmware :=
  let f := Config.fwFields image
  ⟨f.1 % 2 ^ 16, f.2.1 % 64, f.2.2 % 2 ^ 16, shake256 image⟩

/-- FWLOAD: the image is verified; outside safe mode a live update begins, which answers when it is done. In safe mode the parameter store
takes it, for the next cold start. -/
def fwloadOp (b : List Byte) (s : State) : State :=
  let image := s.hostRead (arg b 8) (arg b 0x10)
  let f := firmwareOf image
  if !falconVerify Config.vendorKey f.digest (Config.fwSignature image) then s.respond 5 []
  else if f.svn < s.dev.svnFuse then s.respond 6 []
  else if s.dev.safe then ({ s with dev := { s.dev with stored := f } } : State).respond 0 []
  else { s with qc := { s.qc with quiet := 1, loading := some f } }

/-- Whether the active complex is at the quiescent packet boundary (R390). -/
def State.quiescent (s : State) : Bool :=
  s.runs.all (fun e => e.2.phase != .mapping && e.2.phase != .switching) &&
  s.allQueues.all (fun id => let q := s.queue id; q.cur.isNone || q.state == 3 || q.run.isSome || q.pendingWr.isSome || !q.copies.isEmpty) &&
  s.tenants.all (fun t => t.2.invDone || t.2.invStamp.isNone)

/-- Whether firmware accepts a state table of a version (R389): its major equals, its minor is at most its own. -/
def Firmware.accepts (f : Firmware) (v : Nat) : Bool := f.tableVersion / 256 == v / 256 && decide (v % 256 ≤ f.tableVersion % 256)

/-- The version of the table that the active complex writes. -/
def State.tableVersion (s : State) : Nat := (s.qc.fw[s.qc.active % 2]'(Nat.mod_lt _ (by decide))).tableVersion

/-- The header of the state table: TMAGIC, VERSION, SIZE, which is not stated, and SEQ (R389). -/
def State.tableHeader (s : State) : List Byte :=
  block 32 [(0, [0x51, 0x53, 0x54, 0x42]), (4, toBytes 2 s.tableVersion), (8, toBytes 8 (Config.tableSize s.tableVersion)), (0x10, toBytes 8 s.qc.committed)]

/-- A live update reaches its boundary: the standby becomes active, or refuses (R390). A standby on a die that has fenced itself cannot
become active, and the active complex goes on as after a refusal (R316; log 104). -/
def handover (s : State) : State :=
  match s.qc.loading with
  | none => s
  | some f =>
    let other := 1 - s.qc.active
    if s.qc.quiet = 0 ∨ !s.quiescent then s
    else if f.accepts s.tableVersion ∧ !(s.die other).fenced then
      let qc := { s.qc with active := other, loading := none, fw := s.qc.fw.set (other % 2) f (Nat.mod_lt _ (by decide)) }
      (State.applyKept { s with qc := qc, dev := { s.dev with stored := f } }).respond 0 []
    else
      let v := s.tableVersion
      (State.applyKept { s with qc := { s.qc with loading := none } }).respond 6 (toBytes 8 v)

def execFwload (s : State) : Ans := .next (command 0x10 fwloadOp s)

/-! ## Attestation (R404) -/

/-- The bytes whose digest a report gives for a tenant: windows, TXROOT, and the digests of signers, in index order. -/
def Tenant.evidence (t : Tenant) : List Byte :=
  t.windows.flatMap (fun w => toBytes 1 w.1 ++ toBytes 8 w.2.base ++ toBytes 8 w.2.len) ++ toBytes 8 t.txroot.toNat ++
  t.signers.flatMap (fun k => toBytes 1 k.1 ++ toBytes 64 (shake256 k.2).toNat)

/-- The report of ATTEST. -/
def State.report (s : State) (t : Nat) (nonce : List Byte) : List Byte :=
  let x := s.tenant t
  let dev := t == 0xFF
  let body := block 0x140 [(0, [0x41, 0x54, 0x53, 0x54]), (4, toBytes 2 1), (6, toBytes 1 (lcCode s.dev.lc)), (7, toBytes 1 t), (8, nonce),
    (0x28, toBytes 64 (shake256 Config.identityKey).toNat), (0x68, toBytes 64 Config.stageOneDigest.toNat),
    (0xA8, toBytes 64 (s.qc.fw[s.qc.active % 2]'(Nat.mod_lt _ (by decide))).digest.toNat), (0xE8, toBytes 4 s.dev.svnFuse),
    (0xEC, toBytes 2 s.tableVersion), (0xF0, toBytes 8 (if dev then 0 else (x.triads.map (2 ^ ·)).sum)),
    (0xF8, toBytes 64 (if dev then 0 else (shake256 x.evidence).toNat)), (0x138, toBytes 8 (s.die s.qc.active).pktime.toNat)]
  let digest := shake256 body
  let sig := (Config.falconSign digest).take 1280
  block 1680 [(0, body), (0x140, toBytes 64 digest.toNat), (0x180, toBytes 2 sig.length), (0x190, sig)]

def attestOp (b : List Byte) (s : State) : State :=
  let nonce := subBytes b 8 32
  let s := s.hostWrite (arg b 0x28) (s.report (pageTenant b) nonce)
  ({ s with dev := { s.dev with nonce := nonce } } : State).respond 0 []

def execAttest (s : State) : Ans := .next (command 0x11 attestOp s)

/-! ## Life cycle (R403), RESET, PWRCAP, LINKCFG, INFO (R398) -/

/-- Every mapped run is lost and no events are posted: no cluster, region or page is held any more. -/
def State.loseRuns (s : State) : State :=
  { s with runs := [], pages := [], regions := [], clusters := [], msgs := [], resvs := [], qc := { s.qc with kept := [], saved := [] } }

/-- A wipe (R403). -/
def State.wipe (s : State) : State :=
  let sls : Tab Slice := s.slices.map (fun (e : Nat × Slice) => (e.1, { e.2 with lines := [] }))
  let dies : Tab Die := s.dies.map (fun (e : Nat × Die) => (e.1, { e.2 with combs := [], txc := [] }))
  let tens : Tab Tenant := s.tenants.map (fun (e : Nat × Tenant) => (e.1, { e.2 with keys := [] }))
  let cls : Tab Cluster := s.clusters.map (fun (e : Nat × Cluster) => (e.1, { e.2 with tlb := [], ctl := { e.2.ctl with dcache := [], icache := [] } }))
  let regs : Tab Region := s.regions.map (fun (e : Nat × Region) => (e.1, { e.2 with xn := { e.2.xn with acc := [], bbuf := [], routing := [] } }))
  { s with
    slices := sls, dies := dies, tenants := tens, clusters := cls, regions := regs, granules := []
    mem := s.mem.filter (fun c => decide (0x800000000000 ≤ c.1)), dev := { s.dev with keys := [0] } }

/-- The life-cycle state that a code names. -/
def lcOf (n : Nat) : LifeCycle :=
  match n with | 0 => .manufacture | 1 => .develop | 2 => .production | 3 => .rma | _ => .scrap

/-- LCSET: an authorised transition, TDEL on every tenant, a wipe, a cold start (R403). -/
def lcsetOp (b : List Byte) (s : State) : State :=
  let t := arg b 8
  let body := toBytes 64 (shake256 Config.identityKey).toNat ++ toBytes 1 t ++ s.dev.nonce
  if t ≠ 4 ∧ t ≠ lcCode s.dev.lc + 1 then s.respond 4 []
  else if t ≠ 4 ∧ !falconVerify Config.vendorKey (shake256 body) (s.hostRead (arg b 0x10) 1280) then s.respond 5 []
  else
    let s := { s with dev := { s.dev with lc := lcOf t } }
    let s := s.respond 0 []
    let s := s.loseRuns
    let s := (s.tenants.map Prod.fst).foldl (fun s t => s.deleteTenant t) s
    s.wipe.pushJobs [.ev .coldStart Focus.none]

/-- RESET starts a warm or a cold start (R398, R400). -/
def resetOp (b : List Byte) (s : State) : State := (s.respond 0 []).pushJobs [.ev (if arg b 8 = 0 then .warmStart else .coldStart) Focus.none]

def pwrcapOp (b : List Byte) (s : State) : State := ({ s with dev := { s.dev with pwrcap := arg b 8 } } : State).respond 0 []

def linkcfgOp (b : List Byte) (s : State) : State :=
  if s.tenants.any (fun t => t.2.links.any (fun q => q.2.en)) then s.respond 2 []
  else ({ s with dev := { s.dev with ethMode := arg b 8 } } : State).respond 0 []

/-- INFO: the numbers in 8 bytes each, then the identity public key with its certificate (R404), and the release notes, as far as the
page has room (log 45). -/
def infoOp (_b : List Byte) (s : State) : State :=
  let f := s.qc.fw[s.qc.active % 2]'(Nat.mod_lt _ (by decide))
  s.respond 0 (toBytes 8 (Config.partNumber (s.dev.part == .a)).toNat ++ toBytes 8 s.scrcap ++ toBytes 8 (lcCode s.dev.lc) ++ toBytes 8 f.version ++
    toBytes 8 f.svn ++ toBytes 8 f.tableVersion ++ Config.identityKey ++ Config.identityCert ++ Config.infoText f.version)

def execLcset (s : State) : Ans := .next (command 0x12 lcsetOp s)
def execReset (s : State) : Ans := .next (command 0x13 resetOp s)
def execPwrcap (s : State) : Ans := .next (command 0x14 pwrcapOp s)
def execLinkcfg (s : State) : Ans := .next (command 0x15 linkcfgOp s)
def execInfo (s : State) : Ans := .next (command 0x16 infoOp s)

end Sys2Proof.Machine
end

