-- ==== Sys2Proof/Machine/Boot.lean ====
section
/-! DEFINITION. The boot march test of a cold start (R400, R408 to R411): what the march finds of the part's faulty bits, the repair
table, when step 6 fails; and the boot runs in the machine's state: their tables and boot areas in memory, their launch, what the
controllers leave at HALT, and their end. A fault is a stuck bit (log 81). -/
namespace Sys2Proof.Machine

/-! ## Rows, entries and status words (R410) -/

/-- A stuck bit of a scratch bank. -/
structure BankFault where
  cluster : Nat
  unit : Nat
  row : Nat
  bit : Nat
  val : Bool
  deriving DecidableEq, Repr

/-- A stuck bit of a q file. -/
structure QFault where
  cluster : Nat
  word : Nat
  bit : Nat
  val : Bool
  deriving DecidableEq, Repr

/-- The faulty bits of the part at a cold start. -/
def bankFaultsAt (n : Nat) : List BankFault := (Config.bankFaults n).map (fun e => ⟨e.1, e.2.1, e.2.2.1, e.2.2.2.1, e.2.2.2.2⟩)
def qFaultsAt (n : Nat) : List QFault := (Config.qFaults n).map (fun e => ⟨e.1, e.2.1, e.2.2.1, e.2.2.2⟩)

/-- The scratch offset of a row of a bank half; `unit` is 16 × HALF + BANK. -/
def rowOffset (unit row : Nat) : Nat := unit / 16 * 0x600000 + unit % 16 * 0x60000 + 64 * row
/-- The bank half and the row of a scratch offset. -/
def unitOf (off : Nat) : Nat := off / 0x600000 * 16 + off % 0x600000 / 0x60000
def rowOf (off : Nat) : Nat := off % 0x60000 / 64

/-- A repair entry. -/
def repairEntry (unit spare row : Nat) : Nat := unit + 32 * spare + 2 ^ 8 * row + 2 ^ 31
def entryUnit (e : Nat) : Nat := bits e 4 0
def entrySpare (e : Nat) : Nat := bits e 7 5
def entryRow (e : Nat) : Nat := bits e 20 8

/-- What a boot run finds on one of its clusters. -/
structure MarchResult where
  fails : Nat
  qfails : Nat
  spent : Bool
  entries : List Nat
  deriving DecidableEq, Repr

/-- The status word, which is also the exit value of the cluster's controller. -/
def MarchResult.status (r : MarchResult) : Nat :=
  min r.fails 255 + r.entries.length * 2 ^ 8 + (if r.spent then 2 ^ 17 else 0) + min r.qfails 255 * 2 ^ 18 + 2 ^ 31

/-! ## The march (R410) -/

/-- The descriptors of the elements M0 to M5. -/
def marchElements : List Nat := [2, 19, 11, 23, 15, 1]

/-- Insert a number in rising order, once. -/
def insertOnce (n : Nat) : List Nat → List Nat
  | [] => [n]
  | h :: t => if n = h then h :: t else if n < h then n :: h :: t else h :: insertOnce n t

/-- The row of a bank half that a physical row stands for under a repair table: a spare row that replaces a row, or a row that none
replaces. -/
def logicalRow (reps : List Nat) (unit row : Nat) : Option Nat :=
  if 0x1800 ≤ row then (reps.find? (fun e => entryUnit e == unit && entrySpare e == row - 0x1800)).map entryRow
  else if reps.any (fun e => entryUnit e == unit && entryRow e == row) then none else some row

/-- The scratch offset of the 8-byte word that holds a stuck bit, where the scratchpad reaches it. -/
def BankFault.word (f : BankFault) (reps : List Nat) (scrcap : Nat) : Option Nat :=
  match logicalRow reps f.unit f.row with
  | some r => let o := rowOffset f.unit r + f.bit / 64 * 8; if o < scrcap then some o else none
  | none => none

/-- What an element reads wrong, in its order: a word all of whose bits were last written with the value that the element expects reads
as a different word where a bit of it is stuck at the other value. -/
def failing (desc : Nat) (words : List (Nat × Bool)) : List Nat :=
  if !desc.testBit 0 then []
  else
    let l := (words.filter (fun w => w.2 != desc.testBit 3)).foldr (fun w l => insertOnce w.1 l) []
    if desc.testBit 2 then l.reverse else l

/-- A failing read at a scratch offset: counted, and its row repaired while its bank half has a spare. -/
def noteFail (r : MarchResult) (off : Nat) : MarchResult :=
  let u := unitOf off
  let row := rowOf off
  let r := { r with fails := r.fails + 1 }
  let same := r.entries.filter (fun e => entryUnit e == u)
  if same.any (fun e => entryRow e == row) then r
  else if same.length < 8 then { r with entries := r.entries ++ [repairEntry u same.length row] }
  else { r with spent := true }

/-- The boot run's march of one cluster, with the rows that are installed as repaired. -/
def march (scrcap : Nat) (bank : List BankFault) (q : List QFault) (reps : List Nat) (c : Nat) : MarchResult :=
  let words := (bank.filter (fun f => f.cluster == c)).filterMap (fun f => (f.word reps scrcap).map (fun o => (o, f.val)))
  let regs := (q.filter (fun f => f.cluster == c)).map (fun f => (f.word, f.val))
  let r := (marchElements.flatMap (fun d => failing d words)).foldl noteFail ⟨0, 0, false, []⟩
  { r with qfails := (marchElements.flatMap (fun d => failing d regs)).length }

/-! ## The boot runs and step 6 (R400, R408) -/

/-- The outcome of step 6: whether it passes, and the repair entries that it records, each with its cluster. -/
structure BootOutcome where
  passes : Bool
  table : List (Nat × Nat)
  deriving DecidableEq, Repr

/-- A run whose record transfer failed reports 255 failing q-file reads (R410). -/
def MarchResult.lost (r : MarchResult) : MarchResult := { r with qfails := 255 }

/-- Whether a status word has OVER clear and QFAILS 0, and whether it reports no failing read (R408). -/
def statusFits (w : Nat) : Bool := bits w 17 17 == 0 && bits w 25 18 == 0
def statusClean (w : Nat) : Bool := bits w 7 0 == 0 && bits w 25 18 == 0

/-- The entries of a cluster in a repair table. -/
def repairsOf (table : List (Nat × Nat)) (c : Nat) : List Nat := (table.filter (fun e => e.1 == c)).map Prod.snd

/-- What the first boot run finds on each cluster. `lost` lists the clusters at which a record transfer fails. -/
def firstMarch (scrcap : Nat) (bank : List BankFault) (q : List QFault) (lost : List Nat) (c : Nat) : MarchResult :=
  let r := march scrcap bank q [] c
  if lost.contains c then r.lost else r

/-- The triads whose runs have reported a repair. -/
def againTriads (table : List (Nat × Nat)) : List Nat := (List.range 64).filter (fun t => table.any (fun e => triadOf e.1 == t))

/-- The image runs once on every triad, and the firmware reads the status words. If they fit, it records and installs the valid repair
entries, and the image runs again on each triad that reported a repair: no read may fail then. -/
def bootMarch (scrcap : Nat) (bank : List BankFault) (q : List QFault) (lost : List Nat) : BootOutcome :=
  let first := (List.range 192).map (fun c => (c, firstMarch scrcap bank q lost c))
  let fits := first.all (fun e => statusFits e.2.status)
  let table := if fits then first.flatMap (fun e => e.2.entries.map (fun w => (e.1, w))) else []
  let again := (List.range 192).filter (fun c => (againTriads table).contains (triadOf c))
  { passes := fits && again.all (fun c => statusClean (march scrcap bank q (repairsOf table c) c).status), table := table }

/-! ## The tables and the boot areas of the boot runs (R408, R409) -/

/-- Slot n of those of 4 MiB that the firmware reserves for the boot runs: all in the HBM of die 0. -/
def bootSlot (n : Nat) : Nat := (Config.bootSlot % 61000 + n) * 0x400000

/-- The boot area of run cluster index i of the boot run of triad t, the exit area of that run, and its tables: the level-1 table, the
level-2 table after it, then the level-3 tables. -/
def bootArea (t i : Nat) : Nat := bootSlot (3 * t + i)
def bootExits (t : Nat) : Nat := bootSlot 192 + 4096 * t
def bootTables (t : Nat) : Nat := bootSlot (256 + 64 * t)

/-- The pages of 64 KiB that the tables map: page number, physical address, whether it is code. -/
def bootPages (scrcap t : Nat) : List (Nat × Nat × Bool) :=
  (List.range 3).flatMap (fun i => (List.range (scrcap / 0x10000)).map (fun p => (256 * i + p, scratchAddr (64 * i + t) (0x10000 * p), false))) ++
  (List.range 3).flatMap (fun i => (List.range 64).map (fun p => (0x4000 + 64 * i + p, bootArea t i + 0x10000 * p, false))) ++
  Config.bootSections.flatMap (fun x => (List.range x.2.1).map (fun p => (x.1 + p, (x.2.2 + p) * 0x10000, true)))

/-- The physical address that the tables of the boot run of a triad give a device virtual address, if they map it. -/
def bootPlace (scrcap t va : Nat) : Option Nat :=
  ((bootPages scrcap t).find? (fun p => p.1 == va / 0x10000)).map (fun p => p.2.1 + va % 0x10000)

/-- The entries of the tables: address and value (R350, R351). The pages lie below 2^40, in the first entry of the level-1 table. -/
def bootEntries (scrcap t : Nat) : List (Nat × Nat) :=
  let root := bootTables t
  let third (p : Nat) : Nat := root + 0x10000 + 0x8000 * (p / 4096 % 4096)
  let pages := bootPages scrcap t
  [(root, root + 0x8000 + 1)] ++ (pages.map (fun p => p.1 / 4096 % 4096)).eraseDups.map (fun j => (root + 0x8000 + 8 * j, third (4096 * j) + 1)) ++
  pages.map (fun p => (third p.1 + 8 * (p.1 % 4096), p.2.1 + (if p.2.2 then 0xF else 7)))

/-- A boot area before the launch: SCRCAP, the rest zeros; and what a run that has found `r` leaves of STATUS and REPAIR, beside its
records. -/
def bootAreaStart (scrcap : Nat) : List (Nat × List Byte) := [(0, toBytes 8 scrcap)]
def bootAreaEnd (r : MarchResult) (records : List Byte) : List (Nat × List Byte) :=
  [(0x100000, records), (0x100, r.entries.flatMap (fun e => toBytes 4 e)), (8, toBytes 4 r.status)]

/-- Write bytes of the firmware's reserved HBM through key 0, granule by granule. -/
def State.bootPut (s : State) (a : Nat) (d : List Byte) : State :=
  (List.range ((d.length + 4095) / 4096)).foldl (fun s i => s.dramPut 0 (a + 4096 * i) ((d.drop (4096 * i)).take 4096)) s

/-- Write pieces at offsets from an address. -/
def State.bootWrite (s : State) (a : Nat) (l : List (Nat × List Byte)) : State := l.foldl (fun s e => s.bootPut (a + e.1) e.2) s

/-! ## The boot runs in the machine (R384, R408 to R411) -/

/-- The tenant as which the firmware runs the boot image on triad t: none that a host sees, with key index 0. -/
def bootTenant (t : Nat) : Nat := 64 + t

/-- The boot image's graph: three pages of 4 x 4 regions, one on each die. -/
def bootGraph : Graph := { Graph.none with state := 2, digest := Config.bootDigest, pages := (List.range 3).map (fun i => ⟨0, i, 0, 0, 4, 4⟩) }

/-- The image of region `sreg` of the test page: II 1, one input port of region 0, routed to input queue 0 of its cell (0,0). -/
def bootImage (sreg : Nat) : List Byte :=
  let none (n : Nat) : List Byte := List.replicate (2 * n) 0xFF
  let routes := if sreg = 0 then toBytes 2 0x40 ++ none 279 else none 280
  block 8192 [(0, [0x43, 0x4F, 0x4D, 0x42, 1, BitVec.ofNat 8 (0xF + 16 * sreg)]), (0xC, toBytes 2 1), (0xE, toBytes 2 (if sreg = 0 then 1 else 0)),
    (0x210, routes), (0x440, none 256)]

/-- The run of a boot image: triad t, mapped and running. -/
def bootRun (s : State) (t : Nat) : Run :=
  { Run.none with
    tenant := bootTenant t, body := { RunBody.zero with exits := BitVec.ofNat 64 (bootExits t) }, phase := .active, triads := [t]
    epoch := (s.die 0).pktime, graphs := [(0, bootGraph)], mappedAt := (s.die 0).tick.toNat }

/-- The boot run of triad t is launched: its tables and its boot areas stand in memory, its three clusters are mapped, their test pages
placed with closed gates, and their controllers started. Answers the run's number too. -/
def State.bootLaunch (s : State) (t : Nat) : Nat × State :=
  let run := s.nextRun
  let s := (bootEntries s.scrcap t).foldl (fun s e => s.bootPut e.1 (toBytes 8 e.2)) s
  let s := (List.range 3).foldl (fun s i =>
    ({ s with mem := memClear s.mem (bootArea t i) 0x400000 } : State).bootWrite (bootArea t i) (bootAreaStart s.scrcap)) s
  let s := s.setTenant (bootTenant t) { Tenant.reset with created := true, txroot := BitVec.ofNat 64 (bootTables t + 1), keys := [0], triads := [t] }
  let s := ({ s with nextRun := run + 1 } : State).setRun run (bootRun s t)
  (run, (List.range 3).foldl (fun s i =>
    let c := 64 * i + t
    let pid := pidOf run i
    let s := s.giveCluster run (bootTenant t) c i
    let s := s.setPage pid { Page.none with run := run, handle := i, index := i, die := i, w := 4, h := 4, level := 3, held := true, cluster := c }
    let s := (List.range 16).foldl (fun s j => s.loadRegion (16 * c + j) pid j 4 (bootImage j)) s
    s.setCtl c { Ctl.reset with st := .running, pc := Config.bootEntry i }) s)

/-- The q registers of a region of a cluster as the last element leaves them: 0, but for the bits that are stuck at 1. -/
def bootCells (q : List QFault) (c j : Nat) (r : Region) : Region :=
  { r with cells := r.cells.map (fun (e : Nat × Cell) => (e.1, { e.2 with q := Vector.ofFn (fun n =>
      (q.filter (fun f => f.cluster == c && f.val && f.word == 16 * (64 * j + e.1) + n.val)).foldl (fun w f => w ||| (1 <<< f.bit)) (0 : W32)) })) }

/-- The scratchpad of a cluster as the last element leaves it: 0, but for the bits that are stuck at 1. -/
def State.bootScratch (s : State) (bank : List BankFault) (reps : List Nat) (c : Nat) : State :=
  let s : State := { s with mem := memClear s.mem (scratchAddr c 0) s.scrcap }
  (bank.filter (fun f => f.cluster == c && f.val)).foldl (fun s f => match f.word reps s.scrcap with
    | some o =>
      let a := scratchAddr c o + f.bit % 64 / 8
      { s with mem := memSet s.mem a (memGet s.mem a ||| BitVec.ofNat 8 (2 ^ (f.bit % 8))) }
    | none => s) s

/-- Run cluster index i of a boot run ends its program, having found `r`: its scratchpad and q registers are 0, its boot area holds the status
word, the repair entries and the sixteen records; its page is freed, and its controller halts with the status word. -/
def State.bootHalt (s : State) (bank : List BankFault) (q : List QFault) (reps : List Nat) (t i run : Nat) (r : MarchResult) : State :=
  let c := 64 * i + t
  let s := s.bootScratch bank reps c
  let s := (List.range 16).foldl (fun s j => s.setRegion (16 * c + j) (bootCells q c j (s.region (16 * c + j)))) s
  let records := (List.range 16).flatMap (fun j => block 0x21000 [(0, s.regionRecord (16 * c + j) false)])
  let s := s.bootWrite (bootArea t i) (bootAreaEnd r records)
  let s := (List.range 16).foldl (fun s j => s.setRegion (16 * c + j) (s.region (16 * c + j)).release) s
  let s := s.setPage (pidOf run i) { s.page (pidOf run i) with level := 7 }
  s.setCtl c { s.ctl c with st := .halted, exitv := BitVec.ofNat 32 r.status }

/-- A boot run is complete: its exit values are written, its clusters returned; no event is posted. -/
def State.bootEnd (s : State) (t run : Nat) : State :=
  let d := (s.run run).clusters.flatMap (fun c => toBytes 4 (s.ctl c).exitv.toNat)
  (((s.bootPut (bootExits t) d).unmapRun run).forgetRun run).setTenant (bootTenant t) Tenant.reset

/-- The boot image runs on some triads, all mapped at once. `found` gives what each cluster's march finds, `reps` its installed repairs. -/
def State.bootRuns (s : State) (bank : List BankFault) (q : List QFault) (reps : Nat → List Nat) (found : Nat → MarchResult) (ts : List Nat) : State :=
  let (runs, s) := ts.foldl (fun (l, s) t => let (run, s) := s.bootLaunch t; (l ++ [(t, run)], s)) (([] : List (Nat × Nat)), s)
  let s := runs.foldl (fun s e => (List.range 3).foldl (fun s i =>
    s.bootHalt bank q (reps (64 * i + e.1)) e.1 i e.2 (found (64 * i + e.1))) s) s
  runs.foldl (fun s e => s.bootEnd e.1 e.2) s

/-- The machine after step 6 of a cold start: the boot image has run on every triad, and again on those that reported a repair. -/
def State.afterBoot (s : State) (bank : List BankFault) (q : List QFault) (lost : List Nat) : State :=
  let table := (bootMarch s.scrcap bank q lost).table
  let s := s.bootRuns bank q (fun _ => []) (firstMarch s.scrcap bank q lost) (List.range 64)
  s.bootRuns bank q (repairsOf table) (fun c => march s.scrcap bank q (repairsOf table c) c) (againTriads table)

end Sys2Proof.Machine
end

