-- ==== Sys2Proof/Machine/Device.lean ====
section
/-! DEFINITION. The device as a whole: power-on and starts (R400, R401), function-level reset (R395), power and temperature (R355,
R407), and the trap of a controller as an event (R346, R347). -/
namespace Sys2Proof.Machine

/-- CONTROLLER_TRAP (R347). -/
def execControllerTrap (c : Nat) (cause : TrapCause) (addr info : W64) (s : State) : Ans := .next (s.takeTrap c cause addr info)

/-! ## Starting (R301, R400, R401) -/

/-- Whether every lane's measured latency lies between 8 and 64 cycles (R301). -/
def latenciesOk : Bool :=
  (List.range 3).all (fun d => (List.range 3).all (fun n => d == n ||
    (decide (2048 ≤ (Config.laneLatency n d).toNat) && decide ((Config.laneLatency n d).toNat ≤ 16384))))

/-- Step 6 of a cold start: the boot runs of every triad on the part as it is (R408), and the machine as they leave it. -/
def State.bootTest (s : State) : BootOutcome :=
  bootMarch s.scrcap (bankFaultsAt s.choices) (qFaultsAt s.choices) (Config.transferFails s.choices)
def State.booted (s : State) : State := s.afterBoot (bankFaultsAt s.choices) (qFaultsAt s.choices) (Config.transferFails s.choices)

/-- The first step of a start that fails. -/
def State.failedStep (s : State) (cold : Bool) : Option Nat :=
  ((List.range 8).map (· + 1)).find? (fun k => !Config.startStepOk k s.choices || (cold && k == 5 && !latenciesOk) ||
    (cold && k == 6 && !s.bootTest.passes))

/-- A die at the end of a start: its TICK counts from 0, and dies 1 and 2 have still to step it (R301). -/
def startDie (d : Nat) (lat : Nat → Nat) : Die :=
  { Die.reset with stepped := d == 0, wag := Vector.ofFn (fun n => { Waggle.reset with lat := if n.val = d then 0 else lat n.val }) }

/-- A warm start leaves what the state table counts since the cold start (R389). -/
def State.keepSeq (s : State) (n : Nat) : State := { s with qc := { s.qc with committed := n } }

/-- The device at the end of a start: every register at its reset value (R9), what fuses and the parameter store hold kept. The complexes
boot the firmware `fw`. -/
def State.restart (s : State) (lat : Nat → Nat → Nat) (wiped : Bool) (fw : Firmware) (dev : Device) : State :=
  let w := s.wipe
  let kept := { Device.reset with
    part := dev.part, lc := dev.lc, svnFuse := dev.svnFuse, safe := dev.safe, warmfail := dev.warmfail, start := dev.start, stored := dev.stored,
    repair := dev.repair, spares := dev.spares, package := dev.package }
  { State.reset with
    dev := kept, qc := { Qc.reset with fw := Vector.replicate 2 fw }
    dies := (List.range 3).map (fun d => (d, startDie d (lat d))), mem := if wiped then w.mem else s.mem, granules := if wiped then [] else s.granules
    inbox := s.inbox, choices := s.choices, seq := s.seq, agenda := s.agenda }

/-- COLD_START (R400, R401, R402, R408): every step in turn; one that fails leaves the device in safe mode. The boot runs of step 6
leave their boot areas, and the repair table as installed; step 7 wipes what they leave but for the table, which a start that succeeds
writes to the parameter store. -/
def coldStart (s : State) : State :=
  match s.failedStep true with
  | some k =>
    let tested := 6 ≤ k
    let s' := if tested then s.booted else s
    let spares := if tested then s.bootTest.table else []
    { s'.restart (fun d n => s.storedLat d n) (decide (7 < k)) s.dev.stored { s.dev with safe := true, start := k, spares := spares } with
      choices := s.choices + 1 }
  | none =>
    let (raise, s') := s.choose 2
    let svn := if raise = 1 then max s.dev.svnFuse s.dev.stored.svn else s.dev.svnFuse
    s'.restart (fun d n => (Config.laneLatency n d).toNat) true s.dev.stored
      { s.dev with safe := false, start := 0, warmfail := 0, svnFuse := svn, repair := s.bootTest.table, spares := s.bootTest.table }

/-- The firmware that the active complex runs. -/
def State.running (s : State) : Firmware := s.qc.fw[s.qc.active % 2]'(Nat.mod_lt _ (by decide))

/-- WARM_START (R400, R401): the stored repair table is applied; a third failure in a row begins a cold start, and an earlier one another warm start. The firmware that ran
runs again: an image that safe mode has stored is first used at the next cold start (R402). -/
def warmStart (s : State) : State :=
  let s' := { s with choices := s.choices + 1 }
  let lat (d n : Nat) : Nat := s.storedLat d n
  match s.failedStep false with
  | none => (s'.restart lat true s.running { s.dev with safe := false, start := 0, warmfail := 0, spares := s.dev.repair }).keepSeq s.qc.committed
  | some k =>
    let n := s.dev.warmfail + 1
    ((s'.restart lat (decide (7 < k)) s.running { s.dev with start := k, warmfail := if n = 3 then 0 else n }).keepSeq s.qc.committed).pushJobs
      [.ev (if n = 3 then .coldStart else .warmStart) Focus.none]

/-- POWER_ON starts a cold start (R400). -/
def powerOn (s : State) : State := State.pushJobs { s with dev := { s.dev with on := true, stopped := false } } [.ev .coldStart Focus.none]

def execColdStart (s : State) : Ans := .next (coldStart s)
def execWarmStart (s : State) : Ans := .next (warmStart s)
def execPowerOn (s : State) : Ans := .next (powerOn s)

/-! ## Function-level reset (R395) -/

/-- A mapped run ends with cause KILL and no event. -/
def State.killRun (s : State) (run : Nat) : State :=
  let e := ErrRec.of .kill (s.die 0).tick
  let s := ((s.setRun run { s.run run with err := some e }).writeErrorArea run []).tearDown run
  (s.unmapRun run).forgetRun run

/-- FUNCTION_LEVEL_RESET: runs, queue registers, link queues, in that order; the rest of the tenant stays. A waiting ALLRED of a link
queue ends at every package, as when the queue is disabled (R406). -/
def functionLevelReset (s : State) : State :=
  let t := s.focus.queue.tenant
  let mine := s.runs.filter (fun e => e.2.tenant == t)
  let s := mine.foldl (fun s e => if e.2.mapped then s.killRun e.1 else s.forgetRun e.1) s
  let s := (s.tenant t).links.foldl (fun s q => s.allredGone ⟨t, true, q.1⟩) s
  let qc := { s.qc with kept := s.qc.kept.filter (fun k => !mine.any (fun e => e.1 == k.1)) }
  let s := { s with qc := qc, linkIn := s.linkIn.filter (fun a => !(a.queue.tenant == t)) }
  s.setTenant t { s.tenant t with
    queues := [], links := [], invaddr := 0, invlen := 0, invDone := true, invStamp := none, lastQueue := 0, vectors := [] }

def execFunctionLevelReset (s : State) : Ans := .next (functionLevelReset s)

/-! ## Power and temperature (R355, R407) -/

/-- The sensors are read; what they read is free (log 9). -/
def readSensors (s : State) : State :=
  let (w, s) := s.free
  { s with dev := { s.dev with power := bits w.toNat 11 0, tmax := bits w.toNat 19 12 } }

/-- THERMAL_TRIP: every die stops at once and every mapped run is lost (R407). -/
def thermalTrip (s : State) : State :=
  if s.dev.tmax < 115 then s else { s.loseRuns with dev := { s.dev with stopped := true } }

/-- THROTTLE_STEP: one step up or down, at most once per 65,536 cycles (R407). -/
def throttleStep (s : State) : State :=
  let d := s.dev
  if d.sinceStep < 65536 then s
  else if (105 ≤ d.tmax ∨ d.pwrcap < d.power) ∧ d.tstep < 63 then { s with dev := { d with tstep := d.tstep + 1, sinceStep := 0 } }
  else if d.tmax < 100 ∧ d.power < d.pwrcap ∧ 0 < d.tstep then { s with dev := { d with tstep := d.tstep - 1, sinceStep := 0 } }
  else s

/-- POWER_SAMPLE: each cluster of a die samples its estimated power, every 65,536 cycles of the die (R355). -/
def powerSample (s : State) : State :=
  let d := s.focus.die
  if (s.die d).tick.toNat % 65536 ≠ 0 then s
  else ((s.clusters.map Prod.fst).filter (fun c => dieOf c == d)).foldl (fun s c => s.sampleGauges c 6 (Config.clusterPower c s.choices)) s

def execThermalTrip (s : State) : Ans := .next (thermalTrip s)
def execThrottleStep (s : State) : Ans := .next (throttleStep s)
def execPowerSample (s : State) : Ans := .next (powerSample s)

end Sys2Proof.Machine
end

