-- ==== Sys2Proof/Machine/Ticks.lean ====
section
/-! DEFINITION. Ticks and the waggle exchange (R300 to R303), and what becomes of a link that is down (R314 to R317). -/
namespace Sys2Proof.Machine

/-! ## Package time (R302, R303) -/

/-- What a die holds of die n. -/
def Die.waggle (d : Die) (n : Nat) : Waggle := d.wag[n % 3]'(Nat.mod_lt _ (by decide))
def Die.setWaggle (d : Die) (n : Nat) (w : Waggle) : Die := { d with wag := d.wag.set (n % 3) w (Nat.mod_lt _ (by decide)) }
def Die.isLive (d : Die) (n : Nat) : Bool := d.live[n % 3]'(Nat.mod_lt _ (by decide))

/-- Est(n) at a tick, in 1/256 cycle (R302). -/
def Waggle.est (w : Waggle) (tick : W64) : Int := w.off + w.rate * ((tick - w.tlast).toNat : Int) / 65536

/-- A die's estimate of package time (R303). -/
def Die.estimate (x : Die) (d : Nat) : W64 :=
  let own := x.tick + x.poff
  if d = x.leader then own else own + BitVec.ofInt 64 ((x.waggle x.leader).est x.tick / 256)

/-- One cycle of a die's clock: TICK counts, and package time, which never goes backwards, follows (R300, R303). -/
def Die.advance (x : Die) (d : Nat) : Die :=
  let x := { x with tick := x.tick + 1, wag := x.wag.map (fun (w : Waggle) => { w with quiet := min (w.quiet + 1) 4096 }) }
  let p := x.estimate d
  { x with pktime := if x.pktime.ule p then p else x.pktime }

/-- Whether samples pass from die d to die n, over their link or relayed by the third die (R315). -/
def State.sampleWay (s : State) (d n : Nat) : Bool :=
  let t := 3 - d - n
  linkUp s d n || (linkUp s d t && linkUp s t n && !(s.die t).fenced)

/-- WAGGLE_SAMPLE_SEND: every 1,024 ticks a die sends its TICK, and its POFF with it (R302, R303). -/
def waggleSampleSend (s : State) : State :=
  let d := s.focus.die
  let x := s.die d
  if x.tick.toNat % 1024 ≠ 0 ∨ x.fenced then s
  else ((List.range 3).filter (fun n => n != d && s.sampleWay d n && !(s.die n).fenced)).foldl (fun s n =>
    s.setDie n { s.die n with samples := (s.die n).samples ++ [⟨d, x.tick, x.poff⟩] }) s

/-- A measured offset enters the estimate of a die (R302). -/
def Waggle.measure (w : Waggle) (m : Int) (tr : W64) : Waggle :=
  if w.seen then { w with off := m, rate := w.rate + 8 * (m - w.est tr), tlast := tr, quiet := 0 }
  else { w with off := m, rate := 0, tlast := tr, seen := true, quiet := 0 }

/-- Dies 1 and 2 step TICK once by the offset of die 0; what they hold of other dies moves with it (R301). -/
def Die.step (x : Die) : Die :=
  let k := ((x.waggle 0).est x.tick + 128) / 256
  let kw := BitVec.ofInt 64 k
  { x with tick := x.tick + kw, stepped := true, wag := x.wag.map (fun (w : Waggle) => if w.seen then { w with off := w.off - 256 * k, tlast := w.tlast + kw } else w) }

/-- WAGGLE_SAMPLE_RECEIVE: the next sample from die `focus.num`; one that fails its check (`focus.flag`) is discarded. The phase of
its arrival is free (R302). -/
def waggleSampleReceive (s : State) : State :=
  let d := s.focus.die
  let n := s.focus.num
  let x := s.die d
  match x.samples.find? (fun m => m.src == n) with
  | none => s
  | some m =>
    let x := { x with samples := x.samples.eraseP (fun m => m.src == n) }
    if s.focus.flag ∨ x.fenced then s.setDie d x
    else
      let (ph, s) := s.choose 256
      let diff : Int := (m.ts.toNat : Int) - x.tick.toNat
      let x := x.setWaggle n ((x.waggle n).measure (256 * diff + s.wglat d n - ph) x.tick)
      let x := if n = x.leader then { x with poff := m.poff } else x
      s.setDie d (if n = 0 ∧ !x.stepped then x.step else x)

def execWaggleSampleSend (s : State) : Ans := .next (waggleSampleSend s)
def execWaggleSampleReceive (s : State) : Ans := .next (waggleSampleReceive s)

/-! ## Links (R314 to R317) -/

/-- The dies that a link joins: L01, L02, L12. -/
def linkEnds (l : Nat) : Nat × Nat := if l = 0 then (0, 1) else if l = 1 then (0, 2) else (1, 2)

/-- Set a link's bit on every die. -/
def State.setLink (s : State) (l : Nat) (up : Bool) : State :=
  (List.range 3).foldl (fun s d => s.setDie d { s.die d with links := (s.die d).links.set (l % 3) up (Nat.mod_lt _ (by decide)) }) s

/-- The links that are down. -/
def State.downLinks (s : State) : List Nat := (List.range 3).filter (fun l => !linkUp s (linkEnds l).1 (linkEnds l).2)

/-- Whether an end of a channel is in timed mode. -/
def XChan.timed (c : XChan) : Bool := c.sendSt == 2 || c.recvSt == 2

/-- The one link between two dies is down: their channels detour, and timed ones with too little margin fault (R315). -/
def State.detourLink (s : State) (a b : Nat) : State :=
  let joins (r : Nat) (c : XChan) : Bool :=
    let x := s.chanDie r c true
    let y := s.chanDie r c false
    !c.freed && ((x == a && y == b) || (x == b && y == a))
  let faults := s.runs.flatMap (fun r =>
    (r.2.chans.filter (fun (c : Nat × XChan) => joins r.1 c.2 && c.2.timed && decide (c.2.margin < 34))).map (fun (c : Nat × XChan) =>
      Job.ev .timingFault { Focus.none with run := r.1, chan := c.1, num := 4 }))
  let runs : Tab Run := s.runs.map (fun (r : Nat × Run) =>
    (r.1, { r.2 with chans := r.2.chans.map (fun (c : Nat × XChan) => (c.1, if joins r.1 c.2 then { c.2 with detour := true } else c.2)) }))
  (State.refreshDetour { s with runs := runs }).pushJobs faults

/-- A die outside the group leaves LIVE; a change of leader moves POFF and is a timing fault of every run with a timed channel
(R303, R316). -/
def State.leaveLive (s : State) (gone : List Nat) : State :=
  let group := (List.range 3).filter (fun d => !gone.contains d)
  let leader := match group with | d :: _ => d | [] => 0
  let changed := group.any (fun d => (s.die d).leader != leader)
  let s := group.foldl (fun s d =>
    let x := s.die d
    let k := ((x.waggle x.leader).est x.tick + 128) / 256
    s.setDie d { x with
      live := Vector.ofFn (fun n => x.live[n] && !gone.contains n.val), leader := leader
      poff := if d = leader ∧ x.leader ≠ leader then x.poff + BitVec.ofInt 64 k else x.poff }) s
  if changed then
    s.pushJobs (s.runs.filterMap (fun r => (List.find? (fun (c : Nat × XChan) => c.2.timed) r.2.chans).map (fun c =>
      Job.ev .timingFault { Focus.none with run := r.1, chan := c.1, num := 5 })))
  else s

/-- Two or three links are down: the dies outside the group fence themselves, the runs end with cause LINK, and the standby takes
over from an active complex on a fenced die (R316). -/
def State.fenceDies (s : State) (gone : List Nat) : State :=
  let s := gone.foldl (fun s d => s.setDie d { s.die d with fenced := true }) s
  let s := s.leaveLive gone
  if gone.length = 3 then s
  else
    let tick := ((List.range 3).find? (fun d => !gone.contains d)).getD 0
    let s := (s.runs.filter (fun r => r.2.mapped && r.2.phase != .done)).foldl (fun s r => s.raise r.1 (ErrRec.of .link (s.die tick).tick)) s
    if gone.contains s.qc.active ∧ !gone.contains (1 - s.qc.active) then s.pushJobs [.ev .takeover Focus.none] else s

/-- The dies outside every group of two joined by a live link (R316). -/
def isolated (down : List Nat) : List Nat :=
  (List.range 3).filter (fun d => (List.range 3).all (fun l => down.contains l || ((linkEnds l).1 != d && (linkEnds l).2 != d)))

/-- LINK_DOWN (R314 to R316). -/
def linkDown (s : State) : State :=
  let l := s.focus.num
  let (a, b) := linkEnds l
  if !linkUp s a b then s
  else
    let s := s.setLink l false
    match s.downLinks with
    | [_] => s.detourLink a b
    | down => s.fenceDies (isolated down)

/-- LINK_RETRAIN: the firmware retrains a down link of two live dies; whether that succeeds is free (R317). -/
def linkRetrain (s : State) : State :=
  let l := s.focus.num
  let (a, b) := linkEnds l
  if linkUp s a b ∨ (s.die a).fenced ∨ (s.die b).fenced then s
  else
    let (ok, s) := s.choose 2
    if ok = 0 then s
    else
      let s := s.setLink l true
      -- the samples that were being relayed go with the relay: the first direct one is the first (R302)
      let fresh (d n : Nat) (s : State) : State :=
        let x := (s.die d).setWaggle n { (s.die d).waggle n with seen := false, quiet := 0 }
        s.setDie d { x with samples := x.samples.filter (fun m => m.src != n) }
      let s := fresh b a (fresh a b s)
      let s := s.runs.foldl (fun s r => r.2.chans.foldl (fun s c => s.endDetour r.1 c.1) s) s
      s.refreshDetour

def execLinkDown (s : State) : Ans := .next (linkDown s)
def execLinkRetrain (s : State) : Ans := .next (linkRetrain s)

end Sys2Proof.Machine
end

