-- ==== Sys2Proof/Machine/Waits.lean ====
section
/-! DEFINITION. A controller that waits (R25, R205): its instruction, latched, is looked at again; it retires once its condition
holds, and goes on waiting otherwise. -/
namespace Sys2Proof.Machine

/-- The instructions that wait for a condition of their own (R25). -/
def waitingOp : Instr → Option (State → State)
  | .semwait rd rs1 rs2 => some (semwaitOp rd rs1 rs2)
  | .barwait rd rs1 rs2 => some (barwaitOp rd rs1 rs2)
  | .pgwait rd rs1 rs2 => some (pgwaitOp rd rs1 rs2)
  | .tkaln rd rs1 => some (tkalnOp rd rs1)
  | .stwait rd rs1 => some (stwaitOp rd rs1)
  | .cpywait rd rs1 => some (cpywaitOp rd rs1)
  | .halt rs1 => some (haltOp rs1)
  | .wayset rd rs1 rs2 => some (waysetOp rd rs1 rs2)
  | _ => none

/-- The queued instructions whose acceptance may wait for a PGPLACE or a GRLOAD (R205). -/
def queuedOp : Instr → Option (State → State)
  | .stbind rd rs1 rs2 => some (stbindOp rd rs1 rs2 false)
  | .stbindi rd rs1 rs2 => some (stbindOp rd rs1 rs2 true)
  | .pgplace rd rs1 => some (pgplaceOp rd rs1)
  | .pgfree rd rs1 => some (pgfreeOp rd rs1)
  | .gateopen rd rs1 => some (gateopenOp rd rs1)
  | .tripset rd rs1 rs2 => some (tripsetOp rd rs1 rs2)
  | .pgconst rd rs1 rs2 => some (pgconstOp rd rs1 rs2)
  | .seamset rd rs1 rs2 => some (seamsetOp rd rs1 rs2)
  | .svsave rd rs1 rs2 => some (svsaveOp rd rs1 rs2)
  | .svload rd rs1 rs2 => some (svloadOp rd rs1 rs2)
  | .ststop rd rs1 => some (ststopOp rd rs1)
  | .stcur rd rs1 => some (stcurOp rd rs1)
  | .ststat rd rs1 => some (ststatOp rd rs1)
  | _ => none

/-- The instruction that a waiting controller holds, if it is one of a kind. -/
def State.heldBy (s : State) (c : Nat) (kind : Instr → Option (State → State)) : Option (State → State) :=
  if (s.ctl c).st = .waiting then
    match decode32 (s.ctl c).insn with
    | .ok i => kind i
    | .error _ => none
  else none

/-- CONTROLLER_WAIT_END (R25). -/
def controllerWaitEnd (s : State) : State :=
  match s.heldBy s.focus.cluster waitingOp with
  | some f => f s
  | none => s

/-- QUEUED_COMMAND_ACCEPTANCE (R205). -/
def queuedCommandAcceptance (s : State) : State :=
  match s.heldBy s.focus.cluster queuedOp with
  | some f => f s
  | none => s

def execControllerWaitEnd (s : State) : Ans := .next (controllerWaitEnd s)
def execQueuedCommandAcceptance (s : State) : Ans := .next (queuedCommandAcceptance s)

end Sys2Proof.Machine
end

