-- ==== Sys2Proof/Machine/Dispatch.lean ====
section
/-! DEFINITION. One arm for each constructor of `Instr`: the meaning of every row of the opcode table. -/
namespace Sys2Proof.Machine

/-- What an instruction or event does. -/
def exec (i : Instr) (s : State) : Host.Outcome State Fault Refusal :=
  match i with
  | .qtailWrite q v => Sys2Proof.Machine.execQtailWrite q v s
  | .queueEnable q v => Sys2Proof.Machine.execQueueEnable q v s
  | .queueDisable q v => Sys2Proof.Machine.execQueueDisable q v s
  | .queueClear q v => Sys2Proof.Machine.execQueueClear q v s
  | .registerWrite sp off v => Sys2Proof.Machine.execRegisterWrite sp off v s
  | .nopPacket h => Sys2Proof.Machine.execNopPacket h s
  | .runPacket h b => Sys2Proof.Machine.execRunPacket h b s
  | .resumePacket h b => Sys2Proof.Machine.execResumePacket h b s
  | .copyPacket h card cluster die => Sys2Proof.Machine.execCopyPacket h card cluster die s
  | .waitsemPacket h addr value mask cond => Sys2Proof.Machine.execWaitsemPacket h addr value mask cond s
  | .signalPacket h addr value op => Sys2Proof.Machine.execSignalPacket h addr value op s
  | .barrierPacket h qmask id => Sys2Proof.Machine.execBarrierPacket h qmask id s
  | .indirectPacket h addr count => Sys2Proof.Machine.execIndirectPacket h addr count s
  | .fencePacket h scope => Sys2Proof.Machine.execFencePacket h scope s
  | .timestampPacket h addr src => Sys2Proof.Machine.execTimestampPacket h addr src s
  | .wrdataPacket h addr len data => Sys2Proof.Machine.execWrdataPacket h addr len data s
  | .eventPacket h code data => Sys2Proof.Machine.execEventPacket h code data s
  | .gaugePacket h addr triad op gmask config => Sys2Proof.Machine.execGaugePacket h addr triad op gmask config s
  | .sealPacket h => Sys2Proof.Machine.execSealPacket h s
  | .badPacketType h typ => Sys2Proof.Machine.execBadPacketType h typ s
  | .controllerTrap c cause addr info => Sys2Proof.Machine.execControllerTrap c cause addr info s
  | .add w => Sys2Proof.Machine.execAdd w s
  | .sub w => Sys2Proof.Machine.execSub w s
  | .addc w => Sys2Proof.Machine.execAddc w s
  | .subb w => Sys2Proof.Machine.execSubb w s
  | .addSatS w => Sys2Proof.Machine.execAddSatS w s
  | .addSatZ w => Sys2Proof.Machine.execAddSatZ w s
  | .subSatS w => Sys2Proof.Machine.execSubSatS w s
  | .subSatZ w => Sys2Proof.Machine.execSubSatZ w s
  | .mulLo w => Sys2Proof.Machine.execMulLo w s
  | .mulHiS w => Sys2Proof.Machine.execMulHiS w s
  | .mulHiZ w => Sys2Proof.Machine.execMulHiZ w s
  | .mad w => Sys2Proof.Machine.execMad w s
  | .abs w => Sys2Proof.Machine.execAbs w s
  | .neg w => Sys2Proof.Machine.execNeg w s
  | .addsh w => Sys2Proof.Machine.execAddsh w s
  | .minS w => Sys2Proof.Machine.execMinS w s
  | .minZ w => Sys2Proof.Machine.execMinZ w s
  | .maxS w => Sys2Proof.Machine.execMaxS w s
  | .maxZ w => Sys2Proof.Machine.execMaxZ w s
  | .and w => Sys2Proof.Machine.execAnd w s
  | .or w => Sys2Proof.Machine.execOr w s
  | .xor w => Sys2Proof.Machine.execXor w s
  | .andn w => Sys2Proof.Machine.execAndn w s
  | .shl w => Sys2Proof.Machine.execShl w s
  | .shrZ w => Sys2Proof.Machine.execShrZ w s
  | .shrS w => Sys2Proof.Machine.execShrS w s
  | .rot w => Sys2Proof.Machine.execRot w s
  | .funnel w => Sys2Proof.Machine.execFunnel w s
  | .clz w => Sys2Proof.Machine.execClz w s
  | .popc w => Sys2Proof.Machine.execPopc w s
  | .brev w => Sys2Proof.Machine.execBrev w s
  | .bswap w => Sys2Proof.Machine.execBswap w s
  | .bfxS w => Sys2Proof.Machine.execBfxS w s
  | .bfxZ w => Sys2Proof.Machine.execBfxZ w s
  | .bfi w => Sys2Proof.Machine.execBfi w s
  | .clmulLo w => Sys2Proof.Machine.execClmulLo w s
  | .clmulHi w => Sys2Proof.Machine.execClmulHi w s
  | .dot4S8 w => Sys2Proof.Machine.execDot4S8 w s
  | .dot2S16 w => Sys2Proof.Machine.execDot2S16 w s
  | .cmpEq w => Sys2Proof.Machine.execCmpEq w s
  | .cmpNe w => Sys2Proof.Machine.execCmpNe w s
  | .cmpLtS w => Sys2Proof.Machine.execCmpLtS w s
  | .cmpLtZ w => Sys2Proof.Machine.execCmpLtZ w s
  | .cmpLeS w => Sys2Proof.Machine.execCmpLeS w s
  | .cmpLeZ w => Sys2Proof.Machine.execCmpLeZ w s
  | .sel w => Sys2Proof.Machine.execSel w s
  | .mov w => Sys2Proof.Machine.execMov w s
  | .li w => Sys2Proof.Machine.execLi w s
  | .hi16 w => Sys2Proof.Machine.execHi16 w s
  | .fadd w => Sys2Proof.Machine.execFadd w s
  | .fsub w => Sys2Proof.Machine.execFsub w s
  | .fmul w => Sys2Proof.Machine.execFmul w s
  | .fma w => Sys2Proof.Machine.execFma w s
  | .fnma w => Sys2Proof.Machine.execFnma w s
  | .fmin w => Sys2Proof.Machine.execFmin w s
  | .fmax w => Sys2Proof.Machine.execFmax w s
  | .fabs w => Sys2Proof.Machine.execFabs w s
  | .fneg w => Sys2Proof.Machine.execFneg w s
  | .fcmpEq w => Sys2Proof.Machine.execFcmpEq w s
  | .fcmpLt w => Sys2Proof.Machine.execFcmpLt w s
  | .fcmpLe w => Sys2Proof.Machine.execFcmpLe w s
  | .fcmpUn w => Sys2Proof.Machine.execFcmpUn w s
  | .fclass w => Sys2Proof.Machine.execFclass w s
  | .fscale w => Sys2Proof.Machine.execFscale w s
  | .famax w => Sys2Proof.Machine.execFamax w s
  | .frcp w => Sys2Proof.Machine.execFrcp w s
  | .frsq w => Sys2Proof.Machine.execFrsq w s
  | .fexp2 w => Sys2Proof.Machine.execFexp2 w s
  | .flog2 w => Sys2Proof.Machine.execFlog2 w s
  | .fdot2Bf16 w => Sys2Proof.Machine.execFdot2Bf16 w s
  | .fdot4E4m3 w => Sys2Proof.Machine.execFdot4E4m3 w s
  | .fdot4E5m2 w => Sys2Proof.Machine.execFdot4E5m2 w s
  | .mxsc w => Sys2Proof.Machine.execMxsc w s
  | .qnt w => Sys2Proof.Machine.execQnt w s
  | .cvtF32S32 w => Sys2Proof.Machine.execCvtF32S32 w s
  | .cvtS32F32 w => Sys2Proof.Machine.execCvtS32F32 w s
  | .cvtF32Z32 w => Sys2Proof.Machine.execCvtF32Z32 w s
  | .cvtZ32F32 w => Sys2Proof.Machine.execCvtZ32F32 w s
  | .cvtBf16F32 w => Sys2Proof.Machine.execCvtBf16F32 w s
  | .cvtF16F32 w => Sys2Proof.Machine.execCvtF16F32 w s
  | .cvtF32Bf16 w => Sys2Proof.Machine.execCvtF32Bf16 w s
  | .cvtF32F16 w => Sys2Proof.Machine.execCvtF32F16 w s
  | .cvtE4m3F32 w => Sys2Proof.Machine.execCvtE4m3F32 w s
  | .cvtE5m2F32 w => Sys2Proof.Machine.execCvtE5m2F32 w s
  | .cvtE2m1F32 w => Sys2Proof.Machine.execCvtE2m1F32 w s
  | .cvtF32E4m3 w => Sys2Proof.Machine.execCvtF32E4m3 w s
  | .cvtF32E5m2 w => Sys2Proof.Machine.execCvtF32E5m2 w s
  | .cvtF32E2m1 w => Sys2Proof.Machine.execCvtF32E2m1 w s
  | .packX2 w => Sys2Proof.Machine.execPackX2 w s
  | .packX4 w => Sys2Proof.Machine.execPackX4 w s
  | .unpackX2 w => Sys2Proof.Machine.execUnpackX2 w s
  | .unpackX4 w => Sys2Proof.Machine.execUnpackX4 w s
  | .out w => Sys2Proof.Machine.execOut w s
  | .pass w => Sys2Proof.Machine.execPass w s
  | .pop w => Sys2Proof.Machine.execPop w s
  | .peek w => Sys2Proof.Machine.execPeek w s
  | .mark w => Sys2Proof.Machine.execMark w s
  | .ismark w => Sys2Proof.Machine.execIsmark w s
  | .ordmk w => Sys2Proof.Machine.execOrdmk w s
  | .rankrd w => Sys2Proof.Machine.execRankrd w s
  | .pand w => Sys2Proof.Machine.execPand w s
  | .por w => Sys2Proof.Machine.execPor w s
  | .pxor w => Sys2Proof.Machine.execPxor w s
  | .pnot w => Sys2Proof.Machine.execPnot w s
  | .pset w => Sys2Proof.Machine.execPset w s
  | .psend w => Sys2Proof.Machine.execPsend w s
  | .precv w => Sys2Proof.Machine.execPrecv w s
  | .ptest w => Sys2Proof.Machine.execPtest w s
  | .exit w => Sys2Proof.Machine.execExit w s
  | .iter w => Sys2Proof.Machine.execIter w s
  | .live w => Sys2Proof.Machine.execLive w s
  | .drop w => Sys2Proof.Machine.execDrop w s
  | .chsend w => Sys2Proof.Machine.execChsend w s
  | .chrecv w => Sys2Proof.Machine.execChrecv w s
  | .tkalnc w => Sys2Proof.Machine.execTkalnc w s
  | .ldB w => Sys2Proof.Machine.execLdB w s
  | .ldH w => Sys2Proof.Machine.execLdH w s
  | .ldW w => Sys2Proof.Machine.execLdW w s
  | .ldAcq w => Sys2Proof.Machine.execLdAcq w s
  | .ldf w => Sys2Proof.Machine.execLdf w s
  | .stB w => Sys2Proof.Machine.execStB w s
  | .stH w => Sys2Proof.Machine.execStH w s
  | .stW w => Sys2Proof.Machine.execStW w s
  | .stRel w => Sys2Proof.Machine.execStRel w s
  | .stf w => Sys2Proof.Machine.execStf w s
  | .atomH w => Sys2Proof.Machine.execAtomH w s
  | .atomW w => Sys2Proof.Machine.execAtomW w s
  | .lkup w => Sys2Proof.Machine.execLkup w s
  | .handoverGive w => Sys2Proof.Machine.execHandoverGive w s
  | .handoverTake w => Sys2Proof.Machine.execHandoverTake w s
  | .mfence w => Sys2Proof.Machine.execMfence w s
  | .atomfW w => Sys2Proof.Machine.execAtomfW w s
  | .mxcfg w => Sys2Proof.Machine.execMxcfg w s
  | .mxldb w => Sys2Proof.Machine.execMxldb w s
  | .mxrow w => Sys2Proof.Machine.execMxrow w s
  | .mxrows w => Sys2Proof.Machine.execMxrows w s
  | .mxdrn w => Sys2Proof.Machine.execMxdrn w s
  | .mxclr w => Sys2Proof.Machine.execMxclr w s
  | .mxswb w => Sys2Proof.Machine.execMxswb w s
  | .mxacc w => Sys2Proof.Machine.execMxacc w s
  | .mxstat w => Sys2Proof.Machine.execMxstat w s
  | .mxnop w => Sys2Proof.Machine.execMxnop w s
  | .stbind rd rs1 rs2 => Sys2Proof.Machine.execStbind rd rs1 rs2 s
  | .stbindi rd rs1 rs2 => Sys2Proof.Machine.execStbindi rd rs1 rs2 s
  | .ststop rd rs1 => Sys2Proof.Machine.execStstop rd rs1 s
  | .stcur rd rs1 => Sys2Proof.Machine.execStcur rd rs1 s
  | .ststat rd rs1 => Sys2Proof.Machine.execStstat rd rs1 s
  | .stwait rd rs1 => Sys2Proof.Machine.execStwait rd rs1 s
  | .cpy rd rs1 => Sys2Proof.Machine.execCpy rd rs1 s
  | .cpysnap rd rs1 => Sys2Proof.Machine.execCpysnap rd rs1 s
  | .cpyt rd rs1 rs2 => Sys2Proof.Machine.execCpyt rd rs1 rs2 s
  | .cpytd rd rs1 => Sys2Proof.Machine.execCpytd rd rs1 s
  | .cpyarm rd rs1 rs2 => Sys2Proof.Machine.execCpyarm rd rs1 rs2 s
  | .cpydis rd rs1 => Sys2Proof.Machine.execCpydis rd rs1 s
  | .cpyfire rd rs1 => Sys2Proof.Machine.execCpyfire rd rs1 s
  | .cpywait rd rs1 => Sys2Proof.Machine.execCpywait rd rs1 s
  | .cpystat rd rs1 => Sys2Proof.Machine.execCpystat rd rs1 s
  | .cpycan rd rs1 => Sys2Proof.Machine.execCpycan rd rs1 s
  | .semadd rs1 rs2 => Sys2Proof.Machine.execSemadd rs1 rs2 s
  | .semset rd rs1 rs2 => Sys2Proof.Machine.execSemset rd rs1 rs2 s
  | .semrd rd rs1 => Sys2Proof.Machine.execSemrd rd rs1 s
  | .semwait rd rs1 rs2 => Sys2Proof.Machine.execSemwait rd rs1 rs2 s
  | .barinit rs1 rs2 => Sys2Proof.Machine.execBarinit rs1 rs2 s
  | .bararr rd rs1 rs2 => Sys2Proof.Machine.execBararr rd rs1 rs2 s
  | .barwait rd rs1 rs2 => Sys2Proof.Machine.execBarwait rd rs1 rs2 s
  | .msgsend rs1 rs2 => Sys2Proof.Machine.execMsgsend rs1 rs2 s
  | .msgwake rs1 rs2 => Sys2Proof.Machine.execMsgwake rs1 rs2 s
  | .sigst rs1 rs2 => Sys2Proof.Machine.execSigst rs1 rs2 s
  | .htset rd rs1 rs2 => Sys2Proof.Machine.execHtset rd rs1 rs2 s
  | .hten rd rs1 rs2 => Sys2Proof.Machine.execHten rd rs1 rs2 s
  | .htpend rd rs1 => Sys2Proof.Machine.execHtpend rd rs1 s
  | .htrd rd rs1 => Sys2Proof.Machine.execHtrd rd rs1 s
  | .fenceS scope => Sys2Proof.Machine.execFenceS scope s
  | .iinv scope => Sys2Proof.Machine.execIinv scope s
  | .slcinv rs1 rs2 => Sys2Proof.Machine.execSlcinv rs1 rs2 s
  | .slcwb rs1 rs2 => Sys2Proof.Machine.execSlcwb rs1 rs2 s
  | .retset rd rs1 rs2 => Sys2Proof.Machine.execRetset rd rs1 rs2 s
  | .retclr rs1 => Sys2Proof.Machine.execRetclr rs1 s
  | .wayset rd rs1 rs2 => Sys2Proof.Machine.execWayset rd rs1 rs2 s
  | .wayrd rd rs1 => Sys2Proof.Machine.execWayrd rd rs1 s
  | .grload rd rs1 rs2 => Sys2Proof.Machine.execGrload rd rs1 rs2 s
  | .grstat rd rs1 => Sys2Proof.Machine.execGrstat rd rs1 s
  | .pgplace rd rs1 => Sys2Proof.Machine.execPgplace rd rs1 s
  | .pgfree rd rs1 => Sys2Proof.Machine.execPgfree rd rs1 s
  | .pgstat rd rs1 => Sys2Proof.Machine.execPgstat rd rs1 s
  | .pgwait rd rs1 rs2 => Sys2Proof.Machine.execPgwait rd rs1 rs2 s
  | .gateopen rd rs1 => Sys2Proof.Machine.execGateopen rd rs1 s
  | .tripset rd rs1 rs2 => Sys2Proof.Machine.execTripset rd rs1 rs2 s
  | .pgconst rd rs1 rs2 => Sys2Proof.Machine.execPgconst rd rs1 rs2 s
  | .seamset rd rs1 rs2 => Sys2Proof.Machine.execSeamset rd rs1 rs2 s
  | .tkrd rd => Sys2Proof.Machine.execTkrd rd s
  | .pkrd rd rs1 => Sys2Proof.Machine.execPkrd rd rs1 s
  | .tkdrf rd rs1 => Sys2Proof.Machine.execTkdrf rd rs1 s
  | .tkaln rd rs1 => Sys2Proof.Machine.execTkaln rd rs1 s
  | .chopen rd rs1 rs2 => Sys2Proof.Machine.execChopen rd rs1 rs2 s
  | .chclose rd rs1 => Sys2Proof.Machine.execChclose rd rs1 s
  | .chstat rd rs1 => Sys2Proof.Machine.execChstat rd rs1 s
  | .halt rs1 => Sys2Proof.Machine.execHalt rs1 s
  | .evpost rs1 rs2 => Sys2Proof.Machine.execEvpost rs1 rs2 s
  | .traprec rd rs1 => Sys2Proof.Machine.execTraprec rd rs1 s
  | .svsave rd rs1 rs2 => Sys2Proof.Machine.execSvsave rd rs1 rs2 s
  | .svload rd rs1 rs2 => Sys2Proof.Machine.execSvload rd rs1 rs2 s
  | .svsize rd rs1 => Sys2Proof.Machine.execSvsize rd rs1 s
  | .svstat rd rs1 => Sys2Proof.Machine.execSvstat rd rs1 s
  | .preq rd rs1 => Sys2Proof.Machine.execPreq rd rs1 s
  | .txlat rd rs1 => Sys2Proof.Machine.execTxlat rd rs1 s
  | .gaugesel rd rs1 rs2 => Sys2Proof.Machine.execGaugesel rd rs1 rs2 s
  | .gaugerd rd rs1 => Sys2Proof.Machine.execGaugerd rd rs1 s
  | .gaugeclr rs1 => Sys2Proof.Machine.execGaugeclr rs1 s
  | .controllerLoad k rd rs1 imm => Sys2Proof.Machine.execControllerLoad k rd rs1 imm s
  | .controllerStore k rs1 rs2 imm => Sys2Proof.Machine.execControllerStore k rs1 rs2 imm s
  | .fence fm pred succ rs1 rd => Sys2Proof.Machine.execFence fm pred succ rs1 rd s
  | .fenceI imm rs1 rd => Sys2Proof.Machine.execFenceI imm rs1 rd s
  | .amo op dbl aq rl rd rs1 rs2 => Sys2Proof.Machine.execAmo op dbl aq rl rd rs1 rs2 s
  | .lr dbl aq rl rd rs1 => Sys2Proof.Machine.execLr dbl aq rl rd rs1 s
  | .sc dbl aq rl rd rs1 rs2 => Sys2Proof.Machine.execSc dbl aq rl rd rs1 rs2 s
  | .linkWrite r => Sys2Proof.Machine.execLinkWrite r s
  | .linkRead r => Sys2Proof.Machine.execLinkRead r s
  | .linkAdd r => Sys2Proof.Machine.execLinkAdd r s
  | .allred r => Sys2Proof.Machine.execAllred r s
  | .standardInstruction op => Sys2Proof.Machine.execStandardInstruction op s
  | .remoteRequest r => Sys2Proof.Machine.execRemoteRequest r s
  | .powerOn => Sys2Proof.Machine.execPowerOn s
  | .coldStart => Sys2Proof.Machine.execColdStart s
  | .warmStart => Sys2Proof.Machine.execWarmStart s
  | .thermalTrip => Sys2Proof.Machine.execThermalTrip s
  | .throttleStep => Sys2Proof.Machine.execThrottleStep s
  | .functionLevelReset => Sys2Proof.Machine.execFunctionLevelReset s
  | .tnew => Sys2Proof.Machine.execTnew s
  | .tdel => Sys2Proof.Machine.execTdel s
  | .triads => Sys2Proof.Machine.execTriads s
  | .window => Sys2Proof.Machine.execWindow s
  | .txrootCommand => Sys2Proof.Machine.execTxrootCommand s
  | .keynew => Sys2Proof.Machine.execKeynew s
  | .keydel => Sys2Proof.Machine.execKeydel s
  | .signer => Sys2Proof.Machine.execSigner s
  | .tune => Sys2Proof.Machine.execTune s
  | .rgrant => Sys2Proof.Machine.execRgrant s
  | .fwload => Sys2Proof.Machine.execFwload s
  | .attest => Sys2Proof.Machine.execAttest s
  | .lcset => Sys2Proof.Machine.execLcset s
  | .reset => Sys2Proof.Machine.execReset s
  | .pwrcap => Sys2Proof.Machine.execPwrcap s
  | .linkcfg => Sys2Proof.Machine.execLinkcfg s
  | .info => Sys2Proof.Machine.execInfo s
  | .invctlGo => Sys2Proof.Machine.execInvctlGo s
  | .schedulingStep => Sys2Proof.Machine.execSchedulingStep s
  | .quantExpiry => Sys2Proof.Machine.execQuantExpiry s
  | .waitsemReread => Sys2Proof.Machine.execWaitsemReread s
  | .map => Sys2Proof.Machine.execMap s
  | .unmap => Sys2Proof.Machine.execUnmap s
  | .switch => Sys2Proof.Machine.execSwitch s
  | .invt => Sys2Proof.Machine.execInvt s
  | .takeover => Sys2Proof.Machine.execTakeover s
  | .regionResumption => Sys2Proof.Machine.execRegionResumption s
  | .runCompletion => Sys2Proof.Machine.execRunCompletion s
  | .runError => Sys2Proof.Machine.execRunError s
  | .hangLimitExpiry => Sys2Proof.Machine.execHangLimitExpiry s
  | .graceExpiry => Sys2Proof.Machine.execGraceExpiry s
  | .regionCapture => Sys2Proof.Machine.execRegionCapture s
  | .captureComplete => Sys2Proof.Machine.execCaptureComplete s
  | .tackTokenArrival => Sys2Proof.Machine.execTackTokenArrival s
  | .timingFault => Sys2Proof.Machine.execTimingFault s
  | .placementAttempt => Sys2Proof.Machine.execPlacementAttempt s
  | .gateOpening => Sys2Proof.Machine.execGateOpening s
  | .passEnd => Sys2Proof.Machine.execPassEnd s
  | .periodStart => Sys2Proof.Machine.execPeriodStart s
  | .unitReturn => Sys2Proof.Machine.execUnitReturn s
  | .tokenDeparture => Sys2Proof.Machine.execTokenDeparture s
  | .resultLanding => Sys2Proof.Machine.execResultLanding s
  | .bLoadRow => Sys2Proof.Machine.execBLoadRow s
  | .drainDeparture => Sys2Proof.Machine.execDrainDeparture s
  | .nop => Sys2Proof.Machine.execNop s
  | .queuedCommandAcceptance => Sys2Proof.Machine.execQueuedCommandAcceptance s
  | .bindingStart => Sys2Proof.Machine.execBindingStart s
  | .bindingAccess => Sys2Proof.Machine.execBindingAccess s
  | .bindingDeliver => Sys2Proof.Machine.execBindingDeliver s
  | .bindingTake => Sys2Proof.Machine.execBindingTake s
  | .triggerForward => Sys2Proof.Machine.execTriggerForward s
  | .bindingCompletion => Sys2Proof.Machine.execBindingCompletion s
  | .copyDispatch => Sys2Proof.Machine.execCopyDispatch s
  | .copyCompletion => Sys2Proof.Machine.execCopyCompletion s
  | .templateFiring => Sys2Proof.Machine.execTemplateFiring s
  | .triggerTokenArrival => Sys2Proof.Machine.execTriggerTokenArrival s
  | .messageArrival => Sys2Proof.Machine.execMessageArrival s
  | .semaphoreSignalArrival => Sys2Proof.Machine.execSemaphoreSignalArrival s
  | .controllerWaitEnd => Sys2Proof.Machine.execControllerWaitEnd s
  | .graphLoadEffect => Sys2Proof.Machine.execGraphLoadEffect s
  | .channelCommandEffect => Sys2Proof.Machine.execChannelCommandEffect s
  | .channelTokenArrival => Sys2Proof.Machine.execChannelTokenArrival s
  | .creditReturn => Sys2Proof.Machine.execCreditReturn s
  | .waggleSampleSend => Sys2Proof.Machine.execWaggleSampleSend s
  | .waggleSampleReceive => Sys2Proof.Machine.execWaggleSampleReceive s
  | .linkDown => Sys2Proof.Machine.execLinkDown s
  | .linkRetrain => Sys2Proof.Machine.execLinkRetrain s
  | .powerSample => Sys2Proof.Machine.execPowerSample s
  | .workRequestCompletion => Sys2Proof.Machine.execWorkRequestCompletion s
  | .unknownOpc => Sys2Proof.Machine.execUnknownOpc s

end Sys2Proof.Machine
end

