-- ==== Sys2Proof/Machine/Schedule.lean ====
section
/-! DEFINITION. What happens when: the cycle of a die (R6, R20, R21, R73), the events that are enabled between cycles, and the
running of one entry of the agenda. Which enabled event comes next, and when a transfer without a stated time takes place, are
free choices (log 1). -/
namespace Sys2Proof.Machine

/-! ## Jobs -/

def onPage (pid : Nat) : Focus := { Focus.none with page := pid }
def onRegion (rid n : Nat) : Focus := { Focus.none with region := rid, num := n }
def onUnit (rid u : Nat) : Focus := { Focus.none with region := rid, unit := u }
def onCluster (c n : Nat) : Focus := { Focus.none with cluster := c, num := n }
def onRun (run : Nat) : Focus := { Focus.none with run := run }
def onChan (run h : Nat) (send : Bool) : Focus := { Focus.none with run := run, chan := h, flag := send }
def onQueue (id : QueueId) : Focus := { Focus.none with queue := id }
def onDie (d n : Nat) : Focus := { Focus.none with die := d, num := n }

/-- Each job of a list happens on this cycle or not, by free choice. -/
def State.perhaps (s : State) : List Job → List Job × State
  | [] => ([], s)
  | j :: t =>
    let (k, s) := s.choose 2
    let (l, s) := s.perhaps t
    (if k = 1 then j :: l else l, s)

/-! ## Evictions (R171, R180, R261, R352) -/

/-- A line leaves a controller's data cache, or its instruction cache (`flag`). -/
def evictCache (c : Nat) (code : Bool) (s : State) : State :=
  let k := s.ctl c
  let l := if code then k.icache else k.dcache
  let (n, s) := s.choose l.length
  s.setCtl c (if code then { k with icache := l.eraseIdx n } else { k with dcache := l.eraseIdx n })

/-- A leaf leaves a cluster's TLB, or its die's translation cache (`flag`). -/
def evictTlb (c : Nat) (root : Bool) (s : State) : State :=
  if root then
    let d := s.die (dieOf c)
    let (n, s) := s.choose d.txc.length
    s.setDie (dieOf c) { d with txc := d.txc.eraseIdx n }
  else
    let k := s.cluster c
    let (n, s) := s.choose k.tlb.length
    s.setCluster c { k with tlb := k.tlb.eraseIdx n }

/-! ## Which pages of a die freeze (R21, R73, R151) -/

/-- The pages of a die whose cycle goes on: open or retiring, not captured. -/
def State.runningPages (s : State) (d : Nat) : List Nat :=
  (s.pages.filter (fun e => e.2.die == d && decide (4 ≤ e.2.level) && decide (e.2.level ≤ 5) && !e.2.captured)).map Prod.fst

/-- What blocks a page before its banks are asked: its events, or a timing fault that holds it (R308). -/
def State.ownBlocks (s : State) (pid : Nat) : List Block :=
  s.pageBlocks pid ++ (if (s.page pid).faulted then [Block.of ((s.page pid).region 0) 0 6 255] else [])

/-- The requests for the banks of a cluster: of the nodes of the pages that nothing else freezes, of accesses that have waited at their
bank, and of every binding. -/
def State.bankReqs (s : State) (c : Nat) (free : List Nat) : List BankReq :=
  (List.range 16).flatMap fun i =>
    let rid := 16 * c + i
    match (s.region rid).holder with
    | none => []
    | some (pid, _) => (if free.contains pid then s.nodeReqs rid else s.heldReqs rid) ++ s.engineReqs rid

/-- The requests that a cluster's banks serve on this cycle, and those that they turn away. -/
def State.arbitrate (s : State) (c : Nat) (free : List Nat) : List BankReq × List BankReq :=
  let l := s.bankReqs c free
  let won := served (l.filter (fun q => !s.heldReq c q))
  (won, l.filter (fun q => !won.contains q))

/-- The region of a requester. -/
def Requester.region : Requester → Nat
  | .node rid _ => rid
  | .engine rid _ => rid
  | .held rid _ => rid

/-- The decision of a die for a cycle: the blocks of each page, and the bank requests that are served. -/
def State.decision (s : State) (d : Nat) : List (Nat × List Block) × List BankReq :=
  let own := (s.runningPages d).map (fun pid => (pid, s.ownBlocks pid))
  let free := (own.filter (fun e => e.2.isEmpty)).map Prod.fst
  let clusters := ((s.clusters.map Prod.fst).filter (fun c => dieOf c == d))
  let arb := clusters.map (fun c => s.arbitrate c free)
  let lost := arb.flatMap (fun a => a.2.filterMap (fun q => match q.who with | .node rid _ => some (Block.of rid 64 3 255) | _ => none))
  (own.map (fun e => (e.1, e.2 ++ lost.filter (fun b => s.pageOf b.rid == e.1))), arb.flatMap Prod.fst)

/-- The causes of a page's blocks, in the order of R21. -/
def causesOf (l : List Block) : List Nat := (List.range 7).filter (fun k => l.any (fun b => b.why == k))

/-- A page takes the decision of its cycle; a frozen run that ends is a FREEZE sample (R355). -/
def State.noteFreeze (s : State) (pid : Nat) (l : List Block) : State :=
  let p := s.page pid
  let causes := causesOf l
  let q := { p with
    frozen := !l.isEmpty, causes := causes
    frzTotal := if causes.any (· != 5) then p.frzTotal + 1 else p.frzTotal
    alnRun := (l.filter (fun b => b.why == 5)).foldl (fun t b => Tab.set t (64 * b.rid + b.unit) (t.get 0 (64 * b.rid + b.unit) + 1)) p.alnRun
    faulted := p.faulted || causes.contains 6 }
  let s := s.setPage pid q
  if l.isEmpty ∧ 0 < p.frzTotal then (s.setPage pid { q with frzTotal := 0 }).sampleGauges p.cluster 2 p.frzTotal (some p.origin) else s

/-- The timing faults that a page's channel words raise on this cycle, each of its channel (R308, R309). -/
def faultJobs (run : Nat) (l : List Block) : List Job :=
  (l.filter (fun b => b.why == 6 && b.kind != 0)).map (fun b => .ev .timingFault { Focus.none with run := run, chan := b.chan.getD 0, num := b.kind })

/-- Which ends of a die's closed channels hold a channel word on this cycle (R307). -/
def State.noteHeld (s : State) (d : Nat) (dec : List (Nat × List Block)) : State :=
  let held (run h pid why : Nat) : Bool := dec.any (fun e => e.1 == pid && (s.page pid).run == run && e.2.any (fun b => b.chan == some h && b.why == why))
  let runs : Tab Run := s.runs.map (fun (r : Nat × Run) => (r.1, { r.2 with chans := r.2.chans.map (fun (c : Nat × XChan) =>
    let x := c.2
    let x := if s.chanDie r.1 x true = d then { x with sendHeld := x.sendSt == 1 && held r.1 c.1 (x.pageAt r.1 true) 1 } else x
    (c.1, if s.chanDie r.1 x false = d then { x with recvHeld := x.recvSt == 1 && held r.1 c.1 (x.pageAt r.1 false) 0 } else x)) }))
  { s with runs := runs }

/-! ## The events of a page's cycle -/

/-- The sources of a page's routes: region and source code. A token pushed on this cycle may depart on it (R125). -/
def State.sources (s : State) (pid : Nat) : List (Nat × Nat) :=
  let codes := (s.regionsOf pid).flatMap (fun rid => (s.region rid).routes.map Prod.snd)
  (s.regionsOf pid).flatMap (fun rid => ((List.range 84 ++ [0x55]).filter (fun k => codes.contains (s.sregOf rid * 4096 + k))).map (fun k => (rid, k)))

def State.departures (s : State) (pid : Nat) (crossing : Bool) : List Job :=
  ((s.sources pid).filter (fun e => s.crosses pid e.1 e.2 == crossing)).map (fun e => .ev .tokenDeparture (onRegion e.1 e.2))

/-- What happens within a page on an unfrozen cycle: its loop unit, landings, words. -/
def State.innerJobs (s : State) (pid : Nat) : List Job :=
  let p := s.page pid
  let rids := s.regionsOf pid
  let lands (rid : Nat) : List Nat :=
    (List.range 64).filter (fun u => !(s.cell rid u).slots.isEmpty) ++ (if (s.mn rid).slots.isEmpty then [] else [64]) ++ (if (s.xn rid).slots.isEmpty then [] else [65])
  [.ev .resultLanding { onPage pid with flag := true }] ++ (if p.counter = 0 then [.ev .periodStart (onPage pid)] else []) ++
  rids.flatMap (fun rid => (lands rid).map (fun u => .ev .resultLanding (onUnit rid u))) ++
  (if p.retiring then [] else rids.flatMap (fun rid => ((List.range 66).filter (fun u => (s.ringInstr rid u).isSome)).map (fun u => .word rid u)))

/-- The accesses of a page that its banks serve. A node's is served on a frozen cycle too, if only a bank that another access of the
page lost has frozen it. -/
def State.servedJobs (s : State) (pid : Nat) (won : List BankReq) : List Job :=
  won.filterMap (fun q => match q.who with
    | .node rid ident | .held rid ident => if s.pageOf rid = pid then some (.sub .nearAccess (onRegion rid ident)) else none
    | .engine rid ch => if s.pageOf rid = pid then some (.ev .bindingAccess (onRegion rid ch)) else none)

/-- Whether a binding has an access of virtual memory to make that loses at no bank (R151, R162). -/
def State.virtMay (s : State) (rid ch : Nat) (b : Binding) : Bool :=
  s.wantsAccess rid ch && (s.nextNear rid ch b).isNone &&
  !s.virtTaken (s.tenantOf (regionCluster rid)) (s.nextVirt rid ch b) (s.esize (s.pageOf rid) (s.sregOf rid) b)

/-- The transfers of a binding but those of drains (R197), which have no stated time: accesses to virtual memory, deliveries, takes (R215 to R219). -/
def State.bindingJobs (s : State) (rid ch : Nat) : List Job :=
  match (s.chan rid ch).cur with
  | none => []
  | some b =>
    let f := onRegion rid ch
    -- one that starts on this cycle takes from its port on it
    let b := if s.canStart rid b then { b with moving := true } else b
    (if s.virtMay rid ch b then [.ev .bindingAccess f] else []) ++
    (if chanReads ch ∧ !b.replies.isEmpty then [.ev .bindingDeliver f] else []) ++
    (if !chanReads ch ∧ s.takes rid b ∧ (s.drainOf (s.pageOf rid) (s.sregOf rid) (b.port - 16)).isNone then [.ev (if b.kind = .trigger then .triggerForward else .bindingTake) f] else [])

/-- The edges of a run that begin, or end, at a page. -/
def State.edgesAt (s : State) (pid : Nat) (out : Bool) : List Nat :=
  let p := s.page pid
  ((s.run p.run).edges.filter (fun e => if out then e.2.ppage == p.handle else e.2.cpage == p.handle)).map Prod.fst

/-- A tack that has come through a channel, behind the node's last token, arrives at a port of a page (R340). -/
def State.chanTackJobs (s : State) (pid : Nat) : List Job :=
  let p := s.page pid
  if !(s.run p.run).tack then []
  else ((s.run p.run).chans.filter (fun (e : Nat × XChan) => e.2.cpage == p.handle && e.2.tacked && e.2.toks.isEmpty && e.2.flight.isEmpty)).map
    (fun (e : Nat × XChan) => .ev .tackTokenArrival { onPage pid with num := e.2.cport })

/-- Whether a drain slot of a matrix node is full, or an MXDRN that lands on this cycle fills one (R197). -/
def XNode.drainDue (x : XNode) : Bool := !x.drains.isEmpty || x.slots.any (fun sl => sl.kind == .drn && sl.dist == 1)

/-- The bindings of a page that start on this cycle (R215). -/
def State.startJobs (s : State) (pid : Nat) : List Job :=
  (s.regionsOf pid).flatMap (fun rid => ((List.range 4).filter (fun ch => match (s.chan rid ch).cur with | some b => s.canStart rid b | none => false)).map
    (fun ch => .ev .bindingStart (onRegion rid ch)))

/-- The transfers of the edges of a page, which ask for a bank in the last row of R151 (R280). -/
def State.edgeJobs (s : State) (pid : Nat) : List Job :=
  let edge (k : Sub) (e : Nat) : Job := .sub k { onRun (s.page pid).run with num := e }
  (s.edgesAt pid true).map (edge .edgeIn) ++ (s.edgesAt pid false).map (edge .edgeOut)

/-- The transfers across the boundary of a page but those of edges, on frozen cycles too (R73), after what lands on the cycle: at their
own pace, or by free choice. -/
def State.boundaryJobs (s : State) (pid : Nat) : List Job × State :=
  let rids := s.regionsOf pid
  let chans (f : Nat → Nat → List Job) : List Job := rids.flatMap (fun rid => (List.range 4).flatMap (fun ch => if (s.chan rid ch).cur.isSome then f rid ch else []))
  let (free, s') := s.perhaps (chans s.bindingJobs)
  (s.chanTackJobs pid ++ free ++ chans (fun rid ch => [.ev .bindingCompletion (onRegion rid ch)]) ++
   (rids.filter (fun rid => (s.xn rid).ldb.busy)).map (fun rid => .ev .bLoadRow (onRegion rid 0)) ++
   (rids.filter (fun rid => (s.xn rid).drainDue)).map (fun rid => .ev .drainDeparture (onRegion rid 0)) ++ s.departures pid true, s')

/-- The units that a retiring page may return (R23, R284). -/
def State.returnJobs (s : State) (pid : Nat) : List Job :=
  if (s.page pid).level = 5 then
    (s.regionsOf pid).flatMap (fun rid => ((List.range 66).filter (fun u => !(s.region rid).returned.contains u || decide (66 ≤ (s.region rid).returned.length))).map
      (fun u => .ev .unitReturn (onUnit rid u)))
  else []

/-- The cycle of a page but for its end (R20, R73). -/
def State.pageJobs (s : State) (pid : Nat) (won : List BankReq) : List Job × State :=
  let frozen := (s.page pid).frozen
  let inner := if frozen then s.servedJobs pid won else s.innerJobs pid ++ s.servedJobs pid won ++ s.departures pid false
  let (outer, s') := s.boundaryJobs pid
  (s.startJobs pid ++ inner ++ outer ++ s.returnJobs pid, s')

/-- What a captured page still does: its accesses are performed and its bindings write what they have taken (R327). -/
def State.capturedJobs (s : State) (won : List BankReq) (pid : Nat) : List Job :=
  s.servedJobs pid won ++ (s.regionsOf pid).flatMap (fun rid => [1, 3].flatMap (fun ch => match (s.chan rid ch).cur with
    | some b => if s.virtMay rid ch b then [.ev .bindingAccess (onRegion rid ch)] else []
    | none => [])) ++
  (s.regionsOf pid).flatMap (fun rid => (List.range 4).map (fun ch => .ev .bindingCompletion (onRegion rid ch))) ++
  [.ev .regionCapture (onPage pid)]

/-- What follows a tack: the tokens of a captured page's ports, and tacks that reach the end of a channel (R340). -/
def State.tackJobs (s : State) (pid : Nat) : List Job :=
  if !(s.run (s.page pid).run).tack then []
  else
    (s.edgesAt pid true).map (fun e => .sub .edgeIn { onRun (s.page pid).run with num := e }) ++
    (s.regionsOf pid).flatMap (fun rid => [1, 3].flatMap (fun ch => match (s.chan rid ch).cur with
      | some b => [.ev (if b.kind = .trigger then .triggerForward else .bindingTake) (onRegion rid ch)]
      | none => []))

/-- One page of a die on this cycle: a capture at its capture point (R326), the start of its retirement at an iteration boundary
or freeze point (R296), or its cycle. The end of its cycle and the transfers of its edges are apart: they come after the cycles of
all pages (R151, R183). -/
def State.turn (s : State) (won : List BankReq) (pid : Nat) : List Job × List Job × List Job × State :=
  let p := s.page pid
  if s.captureWanted pid ∧ p.capturePoint then ([.ev .regionCapture (onPage pid)], [], [], s)
  else if p.freeReq ∧ p.level = 4 ∧ (p.frozen ∨ p.counter = 0) then ([], [], [], s.retirePage pid)
  else
    let (jobs, s') := s.pageJobs pid won
    (jobs, s.edgeJobs pid, [.sub .endCycle { onPage pid with flag := !p.frozen }], s')

def State.turns (won : List BankReq) : List Nat → State → List Job × List Job × List Job × State
  | [], s => ([], [], [], s)
  | pid :: t, s =>
    let (a, b, c, s) := s.turn won pid
    let (a', b', c', s) := State.turns won t s
    (a ++ a', b ++ b', c ++ c', s)

/-! ## The last rows of R151: controllers, and the copy engine -/

/-- Whether the run that holds a cluster goes on: it is not being captured, resumed or ended. -/
def State.goesOn (s : State) (c : Nat) : Bool :=
  match (s.cluster c).owner with
  | some run => (s.run run).phase == .active && (s.run run).resumeAt.isNone && (s.run run).err.isNone
  | none => false

/-- Whether the run that holds a cluster is being captured (R329). -/
def State.capturing (s : State) (c : Nat) : Bool :=
  match (s.cluster c).owner with
  | some run => (s.run run).phase == .switching
  | none => false

/-- The lines of code that a controller's next fetch reads: those that its instruction cache does not hold. -/
def State.fetchPieces (s : State) (c : Nat) : List Piece :=
  let k := s.ctl c
  if k.half.isSome then []
  else [k.pc, k.pc + 2].filterMap fun va =>
    match (s.place c (s.tenantOf c) .fetch (fun t => t != .none && t != .reg) va.toNat 2).1 with
    | .ok (p :: _) => if k.icache.any (fun l => l.addr == lineOf p.pa && l.key == p.key) then none else some ⟨lineOf p.pa, 128, p.key⟩
    | _ => none

/-- What a controller's next instruction accesses: its code, the operand of a load, a store, an atomic or a barrier's instruction, and
the records that it dispatches (R151). -/
def State.ctlPieces (s : State) (c : Nat) : List Piece :=
  let at' (s : State) (va : W64) (n : Nat) (kind : AccKind) : List Piece :=
    match (s.place c (s.tenantOf c) kind plainTarget va.toNat n).1 with | .ok l => l | .error _ => []
  let parked (s : State) (h : Handler) (tag : W64) : List Piece := h.pieces c ((s.cluster c).park.countP (fun m => m.tag == tag.toNat))
  s.fetchPieces c ++ match s.nextInstr c with
  | (some (.controllerLoad k _ rs1 imm), s) => at' s (s.reg c rs1 + imm.signExtend 64) (loadWidth k) .read
  | (some (.controllerStore k rs1 _ imm), s) => at' s (s.reg c rs1 + imm.signExtend 64) (storeWidth k) .write
  | (some (.amo _ dbl _ _ _ rs1 _), s) => at' s (s.reg c rs1) (if dbl then 8 else 4) .write
  | (some (.lr dbl _ _ _ rs1), s) => at' s (s.reg c rs1) (if dbl then 8 else 4) .read
  | (some (.sc dbl _ _ _ rs1 _), s) => at' s (s.reg c rs1) (if dbl then 8 else 4) .write
  | (some (.sigst rs1 _), s) => at' s (s.reg c rs1) 4 .write
  | (some (.barinit rs1 _), s) => at' s (s.reg c rs1) 32 .write
  | (some (.bararr _ rs1 _), s) => at' s (s.reg c rs1) 32 .write
  | (some (.barwait _ rs1 _), s) => at' s (s.reg c rs1) 32 .read
  | (some (.htset _ rs1 rs2), s) => parked s ((s.handler c (s.reg c rs1).toNat).set (s.reg c rs2)) (s.reg c rs1)
  | (some (.hten _ rs1 rs2), s) => parked s ((s.handler c (s.reg c rs1).toNat).enable (s.reg c rs2)) (s.reg c rs1)
  | _ => []

/-- A barrier post of a controller follows the messages that it has sent to the record's cluster (R244). -/
def State.postsInOrder (s : State) (c : Nat) : Bool :=
  match (s.nextInstr c).1 with
  | some (.bararr _ _ _) => (s.ctlPieces c).all (fun p => s.msgs.all (fun m => m.sender != senderCtl c || m.dest != barCluster p.pa))
  | _ => true

/-- Whether a controller goes on to its next instruction boundary: it runs, and is not stopped for a capture there (R329). -/
def State.ctlRuns (s : State) (c : Nat) : Bool :=
  (s.ctl c).st == .running && (!s.capturing c || (s.ctl c).finishing) && s.postsInOrder c

/-- The arrivals of the message network (R244). -/
def msgEvent (m : Msg) : Job :=
  match m.kind with
  | .post _ _ _ _ => .sub .barPost { Focus.none with num := m.ident }
  | k => .ev (match k with | .post _ _ _ _ => .semaphoreSignalArrival | .add _ _ => .semaphoreSignalArrival | .wake _ _ => .semaphoreSignalArrival | .handler _ => .messageArrival | .trigger _ _ => .triggerTokenArrival)
    { Focus.none with num := m.ident }

/-- What a message accesses when it arrives: a barrier record, or the record of a handler that takes it at once. -/
def State.msgPieces (s : State) (m : Msg) : List Piece :=
  match m.kind with
  | .post _ pa _ _ => [⟨pa, 32, 0⟩]
  | .handler p => if s.holds m.dest m.run && !s.parks m.dest p then (s.handler m.dest p.tag).pieces m.dest 1 else []
  | _ => []

/-- A job of an agent that asks for banks, and what it accesses. -/
structure BankJob where
  job : Job
  cluster : Nat
  pieces : List Piece
  deriving DecidableEq, Repr

/-- The scratch banks of live dies that an access reaches. -/
def State.banksOf (s : State) (l : List Piece) : List (Nat × Nat) := (l.filterMap (fun p => scratchBank p.pa)).filter (fun b => !(s.die (dieOf b.1)).fenced)

def State.ctlJobs (s : State) : List BankJob :=
  ((s.clusters.map Prod.fst).filter (fun c => !(s.die (dieOf c)).fenced && s.ctlRuns c)).map (fun c => ⟨.ctl c, c, s.ctlPieces c⟩)
def State.msgJobs (s : State) : List BankJob := (s.msgs.filter s.firstOf).map (fun m => ⟨msgEvent m, m.dest, s.msgPieces m⟩)

/-- The jobs that ask for banks of a die's clusters: those of the clusters asked first (R151). -/
def State.asking (s : State) (d : Nat) (l : List BankJob) : List BankJob :=
  let l := l.filter (fun j => match s.banksOf j.pieces with | b :: _ => dieOf b.1 == d | [] => false)
  let own (j : BankJob) : Bool := (s.banksOf j.pieces).all (fun b => b.1 == j.cluster)
  l.filter own ++ l.filter (fun j => !own j)

/-- Agents ask for their banks in turn, each on this cycle or later by free choice; one whose banks are free, and whose words no atomic
holds, takes them (R151, R162). -/
def State.grantBanks : List BankJob → State → List Job × State
  | [], s => ([], s)
  | j :: t, s =>
    let (n, s) := s.choose 2
    if n = 1 ∧ j.pieces.all (fun p => !s.paShut p.pa p.len) then
      let (l, s) := State.grantBanks t ((s.banksOf j.pieces).foldl (fun s b => s.useBanks b.1 [b.2]) s)
      (j.job :: l, s)
    else State.grantBanks t s

def isPost (m : BankJob) : Bool := match m.job with | .sub .barPost _ => true | _ => false

/-- The next steps of the moving copies of a die's clusters, a few of each (R225). -/
def State.copyJobs (s : State) (d : Nat) : List Job :=
  (s.clusters.filter (fun c => dieOf c.1 == d)).flatMap (fun c =>
    (c.2.copies.filter (fun e => e.2.state == 3)).flatMap (fun e => List.replicate 8 (Job.sub .copyMove (onCluster c.1 e.1))))

/-- The second half of a die's cycle: what freezes is decided from the state at its start, and the rest follows. -/
def decideCycle (d : Nat) (s : State) : State :=
  let (dec, won) := s.decision d
  let s := won.foldl (fun s q => s.useBanks (regionCluster q.who.region) [q.bank]) s
  let faults := dec.flatMap (fun e => if (s.page e.1).faulted then [] else faultJobs (s.page e.1).run e.2)
  let s := dec.foldl (fun s e => s.noteFreeze e.1 e.2) (s.noteHeld d dec)
  let (jobs, edges, ends, s) := State.turns won (dec.map Prod.fst) s
  let still := (s.pages.filter (fun e => e.2.die == d && !dec.any (fun x => x.1 == e.1) && e.2.captured && decide (3 ≤ e.2.level) && decide (e.2.level ≤ 5))).map Prod.fst
  let closed := (s.pages.filter (fun e => e.2.die == d && e.2.level == 3 && !e.2.captured && s.captureWanted e.1)).map (fun e => Job.ev .regionCapture (onPage e.1))
  let (tacks, s) := s.perhaps (still.flatMap s.tackJobs)
  -- the banks that the nodes and engines have left serve the controllers, then edges and copies
  let (ctls, s) := State.grantBanks (s.asking d (s.ctlJobs ++ s.msgJobs.filter (fun m => !isPost m))) s
  let (posts, s) := State.grantBanks (s.asking d (s.msgJobs.filter isPost)) s
  let (moves, s) := s.perhaps (edges ++ s.copyJobs d)
  s.pushJobs (faults ++ closed ++ jobs ++ still.flatMap (s.capturedJobs won) ++ tacks ++ ctls ++ posts ++ moves ++ ends ++
    still.map (fun pid => Job.sub .endCycle (onPage pid)))

/-! ## The cycle of a die (R6) -/

/-- Arrivals and commands at the ends of a run's channels on a die (R306, R321). -/
def State.chanJobs (s : State) (d : Nat) : List Job :=
  s.runs.flatMap fun r => r.2.chans.flatMap fun c =>
    let at' (send : Bool) : Bool := !c.2.freed && s.chanDie r.1 c.2 send == d
    let now := (s.die d).pktime
    (if at' false then (c.2.flight.takeWhile (fun f => f.1.ule now)).map (fun _ => Job.ev .channelTokenArrival (onChan r.1 c.1 false)) else []) ++
    (if at' true then (c.2.creditFlight.takeWhile (fun f => f.ule now)).map (fun _ => Job.ev .creditReturn (onChan r.1 c.1 true)) else []) ++
    (if c.2.cmds.isEmpty then [] else
      ([true, false].filter at').map (fun e => Job.ev .channelCommandEffect (onChan r.1 c.1 e)))

/-- A detoured channel that is timed with too little margin faults, and faults again whenever it is timed while its link is down
(R315). -/
def State.detourFaults (s : State) : List Job :=
  s.runs.flatMap fun r =>
    if r.2.phase = .active ∧ r.2.resumeAt.isNone ∧ !r.2.elasticAll then
      (r.2.chans.filter (fun (c : Nat × XChan) => !c.2.freed && c.2.detour && c.2.timed && decide (c.2.margin < 34) &&
        !linkUp s (s.chanDie r.1 c.2 true) (s.chanDie r.1 c.2 false))).map (fun (c : Nat × XChan) =>
        Job.ev .timingFault { Focus.none with run := r.1, chan := c.1, num := 4 })
    else []

/-- The controllers of a die that wait look again (R25). -/
def State.waitJobs (s : State) (d : Nat) : List Job :=
  s.clusters.flatMap fun c =>
    if dieOf c.1 = d ∧ c.2.ctl.st = .waiting then [.ev .controllerWaitEnd (onCluster c.1 0), .ev .queuedCommandAcceptance (onCluster c.1 0)] else []

/-- The gates of a die that may open, and the runs that may resume there (R282, R304, R339). -/
def State.gateJobs (s : State) (d : Nat) : List Job :=
  (s.pages.filter (fun e => e.2.die == d && e.2.level == 3 && e.2.gated && !e.2.captured)).flatMap (fun e =>
    [Job.ev .gateOpening { onPage e.1 with flag := true }, Job.ev .gateOpening (onPage e.1)]) ++
  (s.runs.filter (fun r => r.2.resumeAt.isSome)).map (fun r => Job.ev .regionResumption { onRun r.1 with die := d })

/-- The links that no valid sample has crossed in either direction for 4,096 ticks (R314). -/
def State.deadLinks (s : State) (d : Nat) : List Job :=
  ((List.range 3).filter (fun l =>
    let (a, b) := linkEnds l
    (a == d || b == d) && linkUp s a b && decide (4096 ≤ ((s.die a).waggle b).quiet) && decide (4096 ≤ ((s.die b).waggle a).quiet))).map (fun l =>
    Job.ev .linkDown (onDie d l))

/-- Whether a page of a run counts as frozen for a cause other than alignment (R26, R284). -/
def State.hangs (s : State) (pid : Nat) : Bool :=
  let p := s.page pid
  p.captured || decide (p.level < 4) || decide (6 ≤ p.level) || (p.frozen && p.causes.any (· != 5)) || !(s.retireBlocks pid).isEmpty

/-- The instructions that the controllers of a run have retired. -/
def State.retired (s : State) (run : Nat) : Nat := ((s.run run).clusters.map (fun c => (s.ctl c).instret.toNat)).sum

/-- The hang counter and the GRACE counter of a run, on a cycle of die 0 (R26, R27). During a capture it counts for the regions that
have not been captured (R328). -/
def State.countRun (s : State) (run : Nat) : State :=
  let r := s.run run
  let n := s.retired run
  let counted := (r.phase == .active || r.phase == .switching) && (r.phase == .active || (s.pagesOf run).any (fun pid => !(s.page pid).captured && decide (2 ≤ (s.page pid).level) && decide ((s.page pid).level ≤ 5)))
  let still := counted && (s.pagesOf run).all s.hangs && n == r.seen && !r.moved && s.msgs.all (fun m => m.run != run)
  s.setRun run { r with
    hang := if still then min (r.hang + 1) (2 ^ 48) else 0, moved := false, seen := n
    graceLeft := match r.graceLeft with | some g => some (g - 1) | none => none }

/-- What die 0's cycle counts for the device: the runs, and the cycles since a throttle step. -/
def State.housekeep (s : State) : State :=
  let runs := (s.runs.filter (fun r => r.2.mapped)).map Prod.fst
  let s := runs.foldl State.countRun s
  let s := { s with dev := { s.dev with sinceStep := min (s.dev.sinceStep + 1) 65536 } }
  s.pushJobs (runs.flatMap (fun run =>
    let r := s.run run
    (if (r.phase = .active ∨ r.phase = .switching) ∧ r.hanglim ≠ 0 ∧ r.hanglim ≤ r.hang then [Job.ev .hangLimitExpiry (onRun run)] else []) ++
    (if r.graceLeft = some 0 then [Job.ev .graceExpiry (onRun run)] else [])))

/-- The controllers of a die count cycles (R42), and what an atomic of the last cycle holds is held on this one (R162). -/
def State.clusterTicks (s : State) (d : Nat) : State :=
  { s with clusters := s.clusters.map (fun (c : Nat × Cluster) =>
      if dieOf c.1 = d then
        let k := c.2.ctl
        let on := k.st == .running || k.st == .waiting
        (c.1, { c.2 with
          ctl := if on then { k with cycle := k.cycle + 1 } else k, bankBusy := [], copied := 0
          bankHold := (c.2.bankHold.filter (fun h => decide (1 < h.2))).map (fun h => (h.1, h.2 - 1)) })
      else c) }

/-- The first half of a die's cycle: its clocks, what arrives, the agents that wait. A die that has fenced itself goes on counting
only (R316). -/
def dieCycle (d : Nat) (s : State) : State :=
  let s := s.setDie d ((s.die d).advance d)
  let x := s.die d
  if x.fenced then s
  else
    let s := s.clusterTicks d
    let s := if d = 0 then s.housekeep else s
    s.pushJobs
      ((if x.tick.toNat % 1024 = 0 then [Job.ev .waggleSampleSend (onDie d 0)] else []) ++
       (if x.tick.toNat % 65536 = 0 then [Job.ev .powerSample (onDie d 0)] else []) ++
       s.chanJobs d ++ (if d = 0 then s.detourFaults else []) ++ s.deadLinks d ++ s.waitJobs d ++ s.gateJobs d ++ [Job.sub .decide (onDie d 0)])

/-- The end of a page's cycle; of a captured page, only its near replies and the rows on their way to its bindings come on (R182, R327), and
what its tacks follow (R340). -/
def endOfCycle (pid : Nat) (unfrozen : Bool) (s : State) : State :=
  if (s.page pid).captured then (s.regionsOf pid).foldl (fun s rid =>
    let r := s.region rid
    let outp := if (s.run (s.page pid).run).tack then r.outp.map (fun e => (e.1, { e.2 with q := e.2.q.tick false })) else r.outp
    s.setRegion rid { r with mn := r.mn.replies, outp := outp, se := r.se.map Chan.tick }) s
  else s.endCycle pid unfrozen

/-! ## Events enabled between cycles -/

/-- Whether a packet waits in a way that only another look can end: a COPY for a slot, a FENCE for copies. -/
def Queue.retries (q : Queue) : Bool :=
  match q.cur with
  | some b => (match decodePacket b with | .copyPacket .. => q.state == 3 | .fencePacket .. => q.state == 2 | _ => false)
  | none => false

/-- A waiting COPY or FENCE is processed again. -/
def packetRetry (id : QueueId) (s : State) : State :=
  let q := s.queue id
  match q.cur with
  | some b => if q.retries then s.pushJobs [.ev (decodePacket b) (onQueue id)] else s
  | none => s

/-- The events of a cluster: its controller, its commands, its copies and templates, its caches (R19, R206, R229, R232). -/
def State.clusterEvents (s : State) (c : Nat) (k : Cluster) : List Job :=
  (if k.ctl.st ≠ .running then [] else if s.capturing c && !k.ctl.finishing then [.sub .stopCtl (onCluster c 0)]
   else if s.ctlRuns c && (s.banksOf (s.ctlPieces c)).isEmpty then [.ctl c] else []) ++
  (if k.cmds.isEmpty || !s.goesOn c then [] else [.ev .graphLoadEffect (onCluster c 0), .sub .cmdEffect (onCluster c 0)]) ++
  (k.copies.flatMap (fun e =>
    if e.2.state = 1 then (if s.goesOn c || e.2.ofPacket then [Job.ev .copyDispatch (onCluster c e.1)] else [])
    else if e.2.state = 3 then [Job.ev .copyCompletion (onCluster c e.1)] else [])) ++
  ((k.templates.filter (fun t => t.2.armed && s.goesOn c)).map (fun t => Job.ev .templateFiring (onCluster c t.1))) ++
  (if k.ctl.dcache.isEmpty then [] else [.sub .evictCache (onCluster c 0)]) ++
  (if k.ctl.icache.isEmpty then [] else [.sub .evictCache { onCluster c 0 with flag := true }]) ++
  (if k.tlb.isEmpty then [] else [.sub .evictTlb (onCluster c 0), .sub .evictTlb { onCluster c 0 with flag := true }])

/-- The events of a memory node whose time is free: far accesses (R158). -/
def State.nodeEvents (rid : Nat) (r : Region) : List Job := if r.mn.far.isEmpty then [] else [.sub .farAccess (onRegion rid 0)]

/-- The events of a run: placement, loading, its end, its capture (R22, R277, R285, R329, R384). What a queue-controller complex orders
needs one that is not fenced (R316, R374). -/
def runEvents (run : Nat) (r : Run) (complex : Bool) : List Job :=
  let f := onRun run
  match r.phase with
  | .active => [.ev .placementAttempt f, .sub .pageLoaded f] ++ (if complex then [.ev .runCompletion f, .ev .quantExpiry f] else [])
  | .switching => if complex then [.ev .captureComplete f] else []
  | .erring => if complex then [.ev .runError f] else []
  | _ => []

/-- The events of a packet queue (R366, R371, R373, R382). -/
def queueEvents (id : QueueId) (q : Queue) : List Job :=
  let f := onQueue id
  (if q.en then [.sub .prefetch f] else []) ++ (if q.uncommit.isSome then [.sub .commit f] else []) ++
  (if q.state = 3 then [.ev .waitsemReread f] else []) ++ (if q.retries then [.sub .packetRetry f] else [])

/-- The events of a link queue (R405, R406). -/
def linkEvents (id : QueueId) (q : Queue) : List Job :=
  let f := onQueue id
  (if q.ready then [.sub .packet f] else []) ++ (if q.uncommit.isSome then [.sub .commit f] else []) ++
  (if q.pendingWr.isSome then [.ev .workRequestCompletion f] else [])

/-- The events of the active complex (R375, R396): none of the queues in safe mode, and none on a fenced die. -/
def State.complexEvents (s : State) : List Job :=
  if (s.die s.qc.active).fenced then []
  else
    (if s.dev.mbDone then [] else [.sub .mailbox Focus.none]) ++ (if s.qc.loading.isSome then [.sub .handover Focus.none] else []) ++
    (if s.dev.safe then [] else
      [.ev .schedulingStep Focus.none] ++
      s.tenants.flatMap (fun t =>
        (if t.2.invDone then [] else [Job.ev .invt (onQueue ⟨t.1, false, 0⟩)]) ++
        t.2.queues.flatMap (fun q => queueEvents ⟨t.1, false, q.1⟩ q.2) ++ t.2.links.flatMap (fun q => linkEvents ⟨t.1, true, q.1⟩ q.2)))

/-- The events of the device as a whole (R302, R314, R317, R391, R396, R407): a sample arrives, or arrives and fails its check; a link's
training may report a failure, or succeed (log 49); the active complex is lost while its die is live (log 43). -/
def State.deviceEvents (s : State) : List Job :=
  [.sub .sensors Focus.none, .ev .throttleStep Focus.none] ++ (if s.dev.safe then [] else [.ev .takeover Focus.none]) ++ (if 115 ≤ s.dev.tmax then [.ev .thermalTrip Focus.none] else []) ++
  (List.range 3).flatMap (fun d => ((s.die d).samples.map (fun (m : Sample) => m.src)).eraseDups.flatMap (fun n =>
    [Job.ev .waggleSampleReceive (onDie d n), Job.ev .waggleSampleReceive { onDie d n with flag := true }])) ++
  s.downLinks.map (fun l => Job.ev .linkRetrain (onDie 0 l)) ++ ((List.range 3).filter (fun l => !s.downLinks.contains l)).map (fun l => Job.ev .linkDown (onDie 0 l))

/-- Every event that may come next: the cycles of the dies, and what needs no cycle of its own. -/
def State.enabled (s : State) : List Job :=
  if !s.dev.on then []
  else if s.dev.stopped then [.ev .coldStart Focus.none]
  else
    let live (d : Nat) : Bool := !(s.die d).fenced
    (List.range 3).map (fun d => Job.sub .dieCycle (onDie d 0)) ++
    s.clusters.flatMap (fun c => if live (dieOf c.1) then s.clusterEvents c.1 c.2 else []) ++
    s.regions.flatMap (fun r => if live (dieOf (regionCluster r.1)) then State.nodeEvents r.1 r.2 else []) ++
    (s.msgJobs.filter (fun j => (s.banksOf j.pieces).isEmpty)).map (·.job) ++
    s.runs.flatMap (fun r => runEvents r.1 r.2 (live s.qc.active)) ++ s.complexEvents ++ s.deviceEvents

/-! ## Running one entry -/

/-- A part of a step that no row of the table names for itself. -/
def runSub (k : Sub) (f : Focus) (s : State) : State :=
  match k with
  | .dieCycle => dieCycle f.die s
  | .endCycle => endOfCycle f.page f.flag s
  | .nearAccess => nearReach f.region f.num s
  | .farAccess => farAccess f.region s
  | .copyMove => copyMove f.cluster f.num s
  | .cmdEffect => s.drain f.cluster
  | .edgeIn => edgeIn f.run f.num s
  | .edgeOut => edgeOut f.run f.num s
  | .barPost => postArrival f.num s
  | .stopCtl => s.stopCtl f.cluster
  | .evictCache => evictCache f.cluster f.flag s
  | .evictTlb => evictTlb f.cluster f.flag s
  | .pageLoaded => pageLoaded f.run s
  | .mailbox => mailboxJob s
  | .packet => startPacket f.queue s
  | .packetRetry => packetRetry f.queue s
  | .decide => decideCycle f.die s
  | .prefetch => prefetch f.queue s
  | .commit => commitQueue f.queue s
  | .restore => s.restoreRun f.run
  | .handover => handover s
  | .sensors => readSensors s

/-- An instruction or event runs with what it acts on. -/
def runEvent (i : Instr) (f : Focus) (s : State) : Ans := exec i { s with focus := f }

/-- A controller that runs fetches its next instruction and executes it, or goes on with one in progress; one that cannot be fetched, or names no instruction, has
trapped (R42, R45). A trap that has waited for this boundary is taken first (R346). -/
def runCtl (c : Nat) (s : State) : Ans :=
  let k := s.ctl c
  if k.st ≠ .running then .next s
  else match k.half, k.overflow with
    | none, some m => .next ((s.setCtl c { k with overflow := none }).trapOverflow c m)
    | _, _ => match s.nextInstr c with
      | (some i, s) => runEvent i { s.focus with cluster := c } s
      | (none, s) => .next s

/-- A unit issues the word of its ring that the counter selects (R20). -/
def runWord (rid u : Nat) (s : State) : Ans :=
  match s.ringInstr rid u with
  | some i => runEvent i (onUnit rid u) s
  | none => .next s

def runJob (j : Job) (s : State) : Ans :=
  match j with
  | .ev i f => runEvent i f s
  | .ctl c => runCtl c s
  | .word rid u => runWord rid u s
  | .sub k f => .next (runSub k f s)

/-- The entry that comes next, and the state without it: the head of the agenda, or a free choice among the oldest request of the
outside and the enabled events. -/
def State.nextJob (s : State) : Option (Job × State) :=
  match s.agenda with
  | j :: t => some (j, { s with agenda := t })
  | [] =>
    -- a part that a thermal trip has stopped answers no request of the outside (R407)
    let inbox := if s.dev.stopped then [] else s.inbox.take 1
    let l := inbox ++ s.enabled
    let (n, s') := s.choose l.length
    match l[n]? with
    | some j => some (j, if n < inbox.length then { s' with inbox := s.inbox.drop 1 } else s')
    | none => none

end Sys2Proof.Machine
end

