-- ==== Sys2Proof/Machine/Place.lean ====
section
/-! DEFINITION. Placing one instruction where the next step runs it: the load of a one-cluster run, a one-region page, or a queue
with one packet, from outside the machine (log 6). -/
namespace Sys2Proof.Machine

/-- Bytes written to HBM under a key from outside, with no slice left that holds their lines. -/
def State.plant (s : State) (key pa : Nat) (d : List Byte) : State :=
  let keep (l : Line) : Bool := !(l.addr == lineOf pa || l.addr == lineOf (pa + d.length))
  let slices : Tab Slice := s.slices.map (fun (e : Nat × Slice) => (e.1, { e.2 with lines := e.2.lines.filter keep }))
  State.dramPut { s with slices := slices } key pa d

/-- Tenant 0 as the placed run needs it: triad 0, key 1, and one leaf that maps the first 1 TiB onto itself. -/
def placedTenant : Tenant :=
  { Tenant.reset with created := true, triads := [0], windows := [(0, ⟨0, 2 ^ 40⟩)], txroot := 0x8001, keys := [1] }

/-- The tenant, with its table at 0x8000. -/
def State.placeTenant (s : State) : State := (s.setTenant 0 placedTenant).plant 1 0x8000 (toBytes 8 0x100000000000F)

/-- Run 0 holds triad 0. -/
def State.placeRun (s : State) : State :=
  let s := s.setRun 0 { Run.none with phase := .active, triads := [0] }
  let s := [0, 64, 128].zipIdx.foldl (fun s e => s.setCluster e.1 { Cluster.reset with owner := some 0, idx := e.2 }) s
  { s with nextRun := max s.nextRun 1 }

/-- The controller of cluster 0 is about to fetch these bytes at 0x1000. -/
def State.placeCode (s : State) (d : List Byte) : State :=
  let s := s.placeTenant.placeRun.plant 1 0x1000 d
  { s.setCtl 0 { Ctl.reset with st := .running, pc := 0x1000 } with agenda := [.ctl 0] }

/-- Page 0, open on region 0, with every stage live; unit `u` is about to issue the word. -/
def State.placeWord (s : State) (u : Nat) (w : BitVec 48) : State :=
  let s := s.placeTenant.placeRun
  let s := s.setPage 0 { Page.none with level := 4, sm := 0xFF, lm := 0xFF, nextIt := 8 }
  { s.setRegion 0 { Region.free with holder := some (0, 0), words := [(16 * u, w)] } with agenda := [.word 0 u] }

/-- The unit whose ring an instruction belongs to. -/
def ringUnit (w : BitVec 48) : Nat := match opRing (bits w.toNat 47 40) with | 0 => 0 | 1 => 64 | _ => 65

/-- Queue 0 of tenant 0, its ring at 0x2000, with the packet as the one in progress. -/
def State.placePacket (s : State) (d : List Byte) : State :=
  let id : QueueId := ⟨0, false, 0⟩
  let s := s.placeTenant.plant 1 0x2000 d
  let s := s.setQueue id { Queue.reset with qbase := 0x2000, en := true, log2 := 4, tail := 1, state := 2, cur := some d }
  { s with agenda := [.ev (decodePacket d) (onQueue id)] }

/-- An instruction of 16, 32, 48 or 512 bits is placed where the next step runs it. -/
def State.placeInstr (s : State) (nbits w : Nat) : State :=
  if nbits = 16 ∨ nbits = 32 then s.placeCode (toBytes (nbits / 8) w)
  else if nbits = 48 then s.placeWord (ringUnit (BitVec.ofNat 48 w)) (BitVec.ofNat 48 w)
  else if nbits = 512 then s.placePacket (toBytes 64 w)
  else s

end Sys2Proof.Machine
end

