-- ==== Sys2Proof/Machine/Step.lean ====
section
/-! DEFINITION. One step of the machine: the entry of the agenda, or the enabled event, that comes next. -/
namespace Sys2Proof.Machine

/-- One step. The machine stops only where no event is enabled and nothing outside asks. -/
def step (s : State) : Host.Outcome State Fault Refusal :=
  match s.nextJob with
  | some (j, s) => runJob j s
  | none => .fault .stopped

/-- The state with an instruction placed where the next step fetches it (log 6). -/
def State.withFetchWord (s : State) (nbits w : Nat) : State := s.placeInstr nbits w

end Sys2Proof.Machine
end

