-- ==== Sys2Proof/Safety.lean ====
section
/-! DEFINITION. What counts as a safe run: no step stops while the device has power, and every state keeps the machine's
invariant. -/
namespace Sys2Proof.Machine

/-- Memory is in its canonical form (R5). -/
def State.memOk (s : State) : Prop := Memory.wf s.mem = true

/-- The throttle step stays within the steps of the clock (R407), and one of the two complexes is active (R366). -/
def State.devOk (s : State) : Prop := s.dev.tstep ≤ 63 ∧ s.qc.active ≤ 1

/-- A step that does not stop. -/
def State.goes (s : State) : Prop := ∃ t, step s = .next t

end Sys2Proof.Machine
end

