-- ==== Sys2Proof/WellFormed.lean ====
section
/-! DEFINITION. Which instructions are well formed: a context word breaks none of the checks of R39, a packet and a work request have
no unnamed byte set. -/
namespace Sys2Proof

/-- A HANDOVER word's MOD bit 8 says which of its two forms it is (R153). -/
def Instr.formOk : Instr → Bool
  | .handoverGive w => !w.mod.getLsbD 0
  | .handoverTake w => w.mod.getLsbD 0
  | _ => true

/-- Whether a packet or work request holds only bytes that its layout names (R377, R405). -/
def Instr.bytesOk : Instr → Bool
  | .nopPacket h => !h.junk
  | .runPacket h _ => !h.junk
  | .resumePacket h _ => !h.junk
  | .copyPacket h _ _ _ => !h.junk
  | .waitsemPacket h _ _ _ _ => !h.junk
  | .signalPacket h _ _ _ => !h.junk
  | .barrierPacket h _ _ => !h.junk
  | .indirectPacket h _ _ => !h.junk
  | .fencePacket h _ => !h.junk
  | .timestampPacket h _ _ => !h.junk
  | .wrdataPacket h _ _ _ => !h.junk
  | .eventPacket h _ _ => !h.junk
  | .gaugePacket h _ _ _ _ _ => !h.junk
  | .sealPacket h => !h.junk
  | .linkWrite r => !r.junk
  | .linkRead r => !r.junk
  | .linkAdd r => !r.junk
  | .allred r => !r.junk
  | _ => true

/-- An instruction whose encoding the spec accepts. -/
def Instr.wf (i : Instr) : Bool := i.faults.isEmpty && i.formOk && i.bytesOk

end Sys2Proof
end

