-- ==== Sys2Proof/Certificates/Slice0/Obligations.lean ====
section
/-! DEFINITION. The statements for the provers, and the spec's own tables that they are stated over. -/
namespace Sys2Proof.Spec
open Sys2Proof.Machine

/-! ## A cell word's issue -/

/-- The issue of the focused unit at a stage: its region, unit, page, stage, and whether the stage's iteration is live (R66, R67). -/
def issue (s : State) (stg : BitVec 3) : Issue :=
  ⟨s.focus.region, s.focus.unit, s.pageOf s.focus.region, stg.toNat, (s.page (s.pageOf s.focus.region)).liveAt stg.toNat⟩

/-- The focused unit's cell: a memory or matrix node reads the predicates of cell (0,0) (R144). -/
def guardCell (s : State) : Cell := s.cell s.focus.region (if s.focus.unit < 64 then s.focus.unit else 0)

/-- A word of this stage and guard issues: its stage holds an iteration and its guard is true (R67, R127). -/
def Issues (s : State) (stg : BitVec 3) (grd : BitVec 4) : Prop :=
  (s.page (s.pageOf s.focus.region)).started stg.toNat = true ∧ guardVal (guardCell s).g grd = true

/-- The input queues that a word's sources pop: selectors 0x10 to 0x13 (R33, R34). -/
def named (sels : List (BitVec 6)) (n : Nat) : Bool := sels.any (fun v => v.toNat == 0x10 + n)

/-- Every queue that the word pops has a token to give, so that the word does not freeze (R74); in a dead iteration it pops none. -/
def HeadsReady (s : State) (live : Bool) (pops : Nat → Bool) : Prop :=
  live = true → ∀ n, n < 4 → pops n = true → (qAt (s.cell s.focus.region s.focus.unit).ins n).head?.isSome = true

/-- What issuing a cell word changes: the popped input queues of its cell, one new landing slot at most, its LFSR, and what the
region's memory node has acquired. All else, memory and every other unit among it, is as before. -/
structure Issued (s t : State) (pops : Nat → Bool) (live : Bool) (slot : List Slot) (lfsr : W32) : Prop where
  rest : t = { s with regions := t.regions, seq := t.seq }
  regions : ∀ r, r ≠ s.focus.region → t.region r = s.region r
  region : t.region s.focus.region = { s.region s.focus.region with cells := (t.region s.focus.region).cells, mn := (t.region s.focus.region).mn }
  node : t.mn s.focus.region = { s.mn s.focus.region with acqs := (t.mn s.focus.region).acqs, acqStamp := (t.mn s.focus.region).acqStamp }
  cells : ∀ u, u ≠ s.focus.unit → t.cell s.focus.region u = s.cell s.focus.region u
  cell : t.cell s.focus.region s.focus.unit = { s.cell s.focus.region s.focus.unit with
    ins := (t.cell s.focus.region s.focus.unit).ins, lfsr := lfsr, slots := (s.cell s.focus.region s.focus.unit).slots ++ slot }
  queues : ∀ n, n < 4 → qAt (t.cell s.focus.region s.focus.unit).ins n =
    if live && pops n then (qAt (s.cell s.focus.region s.focus.unit).ins n).pop
    else qAt (s.cell s.focus.region s.focus.unit).ins n

/-- The landing slot of a value: to ORES, to the physical register that the name denotes at issue if WQ, as a token if OUT
(R35, R68, R71). -/
def valueSlot (s : State) (stg : BitVec 3) (lat : Nat) (dq : BitVec 4) (wq out : Bool) (v : W32) : Slot :=
  { kind := .value, value := v, dest := (dq.toNat + 16 - (s.page (s.pageOf s.focus.region)).base % 16) % 16, wq := wq, out := out,
    live := (issue s stg).live, dist := lat, rank := 0, ord := false, rel := none, scope := 0, port := 0, its := some stg.toNat }

/-- The landing slot of a predicate (R35, R71). -/
def predSlot (s : State) (stg : BitVec 3) (lat : Nat) (dq : BitVec 4) (v : Bool) : Slot :=
  { kind := .pred, value := if v then 1 else 0, dest := dq.toNat, wq := false, out := false, live := (issue s stg).live, dist := lat,
    rank := 0, ord := false, rel := none, scope := 0, port := 0, its := some stg.toNat }

/-! ## The integer class (R76 to R89) -/

/-- The signed value of a w-bit pattern, and the j-th lane of width w (R76). -/
def sgn (w x : Nat) : Int := if x.testBit (w - 1) then (x : Int) - 2 ^ w else x
def lane (w j x : Nat) : Nat := x / 2 ^ (w * j) % 2 ^ w
/-- The lane width that MOD bits 11:10 select (R77). -/
def laneWidth (mod : BitVec 4) : Nat := if mod.toNat / 4 = 1 then 16 else if mod.toNat / 4 = 2 then 8 else 32
def wrap (w : Nat) (v : Int) : Nat := (v % 2 ^ w).toNat
def satSigned (w : Nat) (v : Int) : Nat := wrap w (min (max v (-2 ^ (w - 1))) (2 ^ (w - 1) - 1))
def satUnsigned (w : Nat) (v : Int) : Nat := (min (max v 0) (2 ^ w - 1)).toNat

/-- The lane opcodes: latency, and the result of a lane of width w of a and b (R79 to R81, R83). -/
def laneOps : List ((C2 → Instr) × Nat × (Nat → Nat → Nat → Nat)) := [
  (.add, 1, fun w a b => wrap w (a + b)),
  (.sub, 1, fun w a b => wrap w (a - b)),
  (.addSatS, 1, fun w a b => satSigned w (sgn w a + sgn w b)),
  (.addSatZ, 1, fun w a b => satUnsigned w (a + b)),
  (.subSatS, 1, fun w a b => satSigned w (sgn w a - sgn w b)),
  (.subSatZ, 1, fun w a b => satUnsigned w (a - b)),
  (.mulLo, 3, fun w a b => wrap w (a * b)),
  (.minS, 1, fun w a b => if sgn w a ≤ sgn w b then a else b),
  (.minZ, 1, fun _ a b => if a ≤ b then a else b),
  (.maxS, 1, fun w a b => if sgn w a ≥ sgn w b then a else b),
  (.maxZ, 1, fun _ a b => if a ≥ b then a else b),
  (.abs, 1, fun w a _ => wrap w |sgn w a|),
  (.neg, 1, fun w a _ => wrap w (-a)),
  (.shl, 1, fun w a b => wrap w (a * 2 ^ (b % w))),
  (.shrZ, 1, fun w a b => a / 2 ^ (b % w)),
  (.shrS, 1, fun w a b => wrap w (sgn w a / 2 ^ (b % w)))]

/-- Position and effective length of a bit field's control word (R85). -/
def pos (ctl : Nat) : Nat := ctl % 32
def len (ctl : Nat) : Nat := min (ctl / 256 % 64) (32 - pos ctl)

/-- Bit k of the carry-less product: whether an odd number of bit pairs meets there (R86). -/
def clmulBit (a b k : Nat) : Bool := ((List.range 32).countP (fun j => decide (j ≤ k) && b.testBit j && a.testBit (k - j))) % 2 = 1

/-- The other two-source opcodes: latency, and what the result v of A and B satisfies (R79, R80, R82 to R86, R88). -/
def wholeOps : List ((C2 → Instr) × Nat × (C2 → Nat → Nat → Nat → Prop)) := [
  (.addsh, 1, fun w a b v => v = (a + b * 2 ^ (w.imm8.toNat % 8)) % 2 ^ 32),
  (.mulHiS, 3, fun _ a b v => v = wrap 32 (sgn 32 a * sgn 32 b / 2 ^ 32)),
  (.mulHiZ, 3, fun _ a b v => v = a * b / 2 ^ 32),
  (.and, 1, fun _ a b v => ∀ j, j < 32 → v.testBit j = (a.testBit j && b.testBit j)),
  (.or, 1, fun _ a b v => ∀ j, j < 32 → v.testBit j = (a.testBit j || b.testBit j)),
  (.xor, 1, fun _ a b v => ∀ j, j < 32 → v.testBit j = (a.testBit j != b.testBit j)),
  (.andn, 1, fun _ a b v => ∀ j, j < 32 → v.testBit j = (a.testBit j && !b.testBit j)),
  (.rot, 1, fun _ a b v => v = a * 2 ^ (b % 32) % 2 ^ 32 + a / 2 ^ (32 - b % 32)),
  (.clz, 1, fun _ a _ v => v ≤ 32 ∧ a < 2 ^ (32 - v) ∧ (v < 32 → 2 ^ (31 - v) ≤ a)),
  (.popc, 1, fun _ a _ v => v = (List.range 32).countP a.testBit),
  (.brev, 1, fun _ a _ v => ∀ j, j < 32 → v.testBit j = a.testBit (31 - j)),
  (.bswap, 1, fun _ a _ v => ∀ j, j < 4 → lane 8 j v = lane 8 (3 - j) a),
  (.bfxZ, 1, fun _ a b v => v = a / 2 ^ pos b % 2 ^ len b),
  (.bfxS, 1, fun _ a b v => v = if len b = 0 then 0 else wrap 32 (sgn (len b) (a / 2 ^ pos b % 2 ^ len b))),
  (.clmulLo, 2, fun _ a b v => ∀ k, k < 32 → v.testBit k = clmulBit a b k),
  (.clmulHi, 2, fun _ a b v => ∀ k, k < 32 → v.testBit k = clmulBit a b (32 + k)),
  (.mov, 1, fun _ a _ v => v = a)]

/-- The three-source opcodes (R79, R80, R83, R85, R88). -/
def threeOps : List ((C3 → Instr) × Nat × (C3 → Nat → Nat → Nat → Nat → Prop)) := [
  (.addc, 1, fun w a b c v => v = if w.modx.getLsbD 0 then (a + b + c % 2) / 2 ^ 32 else (a + b + c % 2) % 2 ^ 32),
  (.subb, 1, fun w a b c v => v = if w.modx.getLsbD 0 then (if (a : Int) - b - (c % 2 : Nat) < 0 then 1 else 0) else wrap 32 ((a : Int) - b - (c % 2 : Nat))),
  (.mad, 3, fun _ a b c v => v = (a * b + c) % 2 ^ 32),
  (.dot4S8, 3, fun _ a b c v => v = wrap 32 (c + ∑ j ∈ Finset.range 4, sgn 8 (lane 8 j a) * sgn 8 (lane 8 j b))),
  (.dot2S16, 3, fun _ a b c v => v = wrap 32 (c + ∑ j ∈ Finset.range 2, sgn 16 (lane 16 j a) * sgn 16 (lane 16 j b))),
  (.funnel, 1, fun _ a b c v => v = (a * 2 ^ 32 + b) / 2 ^ (c % 64) % 2 ^ 32),
  (.bfi, 1, fun _ a b c v => ∀ j, j < 32 → v.testBit j = if pos c ≤ j ∧ j < pos c + len c then b.testBit (j - pos c) else a.testBit j),
  (.sel, 1, fun _ a b c v => v = if c = 0 then b else a)]

/-- The words that write a predicate of their sources (R87, R139). -/
def testOps : List ((C2 → Instr) × (C2 → Nat → Nat → Prop)) := [
  (.cmpEq, fun _ a b => a = b),
  (.cmpNe, fun _ a b => a ≠ b),
  (.cmpLtS, fun _ a b => sgn 32 a < sgn 32 b),
  (.cmpLtZ, fun _ a b => a < b),
  (.cmpLeS, fun _ a b => sgn 32 a ≤ sgn 32 b),
  (.cmpLeZ, fun _ a b => a ≤ b),
  (.pset, fun _ a _ => a ≠ 0),
  (.ptest, fun w a _ => a.testBit (w.imm8.toNat % 32) = true)]

end Sys2Proof.Spec

open Sys2Proof Sys2Proof.Machine Sys2Proof.Spec

/-- R76, R77, R79 to R81, R83: a lane opcode that issues takes one landing slot whose value is, lane by lane, the opcode's result
of the lanes of its sources; it pops the queues its sources name and changes nothing else. -/
def Sys2Proof.Spec.LaneWords : Prop :=
  ∀ e ∈ laneOps, ∀ (w : C2) (s : State), w.mod.toNat / 4 ≤ 2 → Issues s w.stg w.grd → HeadsReady s (issue s w.stg).live (named [w.sa, w.sb]) →
    ∃ t v, exec (e.1 w) s = .next t ∧
      Issued s t (named [w.sa, w.sb]) (issue s w.stg).live [valueSlot s w.stg e.2.1 w.dq w.wq w.out v] (s.cell s.focus.region s.focus.unit).lfsr ∧
      ∀ j, j < 32 / laneWidth w.mod → lane (laneWidth w.mod) j v.toNat =
        e.2.2 (laneWidth w.mod) (lane (laneWidth w.mod) j (s.src (issue s w.stg) w.sa w.imm8).toNat)
          (lane (laneWidth w.mod) j (s.src (issue s w.stg) w.sb w.imm8).toNat)

/-- R79, R80, R82 to R86, R88: the other two-source opcodes. -/
def Sys2Proof.Spec.WholeWords : Prop :=
  ∀ e ∈ wholeOps, ∀ (w : C2) (s : State), Issues s w.stg w.grd → HeadsReady s (issue s w.stg).live (named [w.sa, w.sb]) →
    ∃ t v, exec (e.1 w) s = .next t ∧
      Issued s t (named [w.sa, w.sb]) (issue s w.stg).live [valueSlot s w.stg e.2.1 w.dq w.wq w.out v] (s.cell s.focus.region s.focus.unit).lfsr ∧
      e.2.2 w (s.src (issue s w.stg) w.sa w.imm8).toNat (s.src (issue s w.stg) w.sb w.imm8).toNat v.toNat

/-- R79, R80, R83, R85, R88: the three-source opcodes. -/
def Sys2Proof.Spec.ThreeSourceWords : Prop :=
  ∀ e ∈ threeOps, ∀ (w : C3) (s : State), Issues s w.stg w.grd → HeadsReady s (issue s w.stg).live (named [w.sa, w.sb, w.sc]) →
    ∃ t v, exec (e.1 w) s = .next t ∧
      Issued s t (named [w.sa, w.sb, w.sc]) (issue s w.stg).live [valueSlot s w.stg e.2.1 w.dq w.wq w.out v] (s.cell s.focus.region s.focus.unit).lfsr ∧
      e.2.2 w (s.src (issue s w.stg) w.sa 0).toNat (s.src (issue s w.stg) w.sb 0).toNat (s.src (issue s w.stg) w.sc 0).toNat v.toNat

/-- R87, R139: a comparison, PSET or PTEST that issues takes one landing slot for its predicate. -/
def Sys2Proof.Spec.TestWords : Prop :=
  ∀ e ∈ testOps, ∀ (w : C2) (s : State), Issues s w.stg w.grd → HeadsReady s (issue s w.stg).live (named [w.sa, w.sb]) →
    ∃ t v, exec (e.1 w) s = .next t ∧
      Issued s t (named [w.sa, w.sb]) (issue s w.stg).live [predSlot s w.stg 1 w.dq v] (s.cell s.focus.region s.focus.unit).lfsr ∧
      (v = true ↔ e.2 w (s.src (issue s w.stg) w.sa w.imm8).toNat (s.src (issue s w.stg) w.sb w.imm8).toNat)

namespace Sys2Proof.Spec
open Sys2Proof.Machine

/-! ## The floating-point class (R102 to R119) -/

/-- The environment of a floating-point word: the policy entry that FPM selects, the rounding mode of MOD with the LFSR as it is
after this issue's step, and SAT (R95, R98, R100, R102). -/
def fpEnv (s : State) (fpm : BitVec 3) (mod : BitVec 4) : FpEnv :=
  ⟨s.policy s.focus.region fpm, Rnd.of mod (lfsrStep (s.cell s.focus.region s.focus.unit).lfsr), mod.getLsbD 3⟩

/-- The LFSR after a floating-point word: it steps where the mode is SR, number 4 (R100). -/
def lfsrAfter (s : State) (mod : BitVec 4) : W32 :=
  if mod.toNat % 8 = 4 then lfsrStep (s.cell s.focus.region s.focus.unit).lfsr else (s.cell s.focus.region s.focus.unit).lfsr

/-- The two-source floating-point opcodes: latency, and the result of A and B. -/
def floatOps : List ((C2 → Instr) × Nat × (C2 → FpEnv → W32 → W32 → W32)) := [
  (.fadd, 3, fun _ e a b => e.out (sumExact [e.dec a, e.dec b] e.rnd)),
  (.fsub, 3, fun _ e a b => e.out (sumExact [e.dec a, (e.dec b).neg] e.rnd)),
  (.fmul, 3, fun _ e a b => e.out (mulExact (e.dec a) (e.dec b))),
  (.fmin, 2, fun _ e a b => e.exact (minMax false (polSzeq e.pol) (e.dec a) (e.dec b))),
  (.fmax, 2, fun _ e a b => e.exact (minMax true (polSzeq e.pol) (e.dec a) (e.dec b))),
  (.fabs, 1, fun _ _ a _ => BitVec.ofNat 32 (a.toNat % 2 ^ 31)),
  (.fneg, 1, fun _ _ a _ => BitVec.ofNat 32 (a.toNat + 2 ^ 31)),
  (.fclass, 1, fun _ _ a _ => fclassVal a),
  (.fscale, 2, fun _ e a b => e.out (fscaleExact (e.dec a) b.toInt)),
  (.famax, 2, fun _ e a b => famaxVal e a b),
  (.frcp, 6, fun _ e a _ => e.exact (frcpExact (e.dec a))),
  (.frsq, 6, fun _ e a _ => e.exact (frsqExact (e.dec a))),
  (.fexp2, 6, fun _ e a _ => e.exact (fexp2Exact (e.dec a))),
  (.flog2, 6, fun _ e a _ => e.exact (flog2Exact (e.dec a))),
  (.mxsc, 2, fun w e a _ => mxscVal (w.imm8.toNat % 4) (e.dec a)),
  (.qnt, 3, fun w e a b => qntVal w.imm8 e a b),
  (.cvtF32S32, 2, fun _ e a _ => e.out (intVal (sgn 32 a.toNat))),
  (.cvtS32F32, 2, fun _ e a _ => BitVec.ofNat 32 (intOut (e.dec a) 32 true e.rnd)),
  (.cvtF32Z32, 2, fun _ e a _ => e.out (intVal a.toNat)),
  (.cvtZ32F32, 2, fun _ e a _ => BitVec.ofNat 32 (intOut (e.dec a) 32 false e.rnd)),
  (.cvtBf16F32, 2, fun _ e a _ => e.narrow .bf16 (e.dec a)),
  (.cvtF16F32, 2, fun _ e a _ => e.narrow .f16 (e.dec a)),
  (.cvtF32Bf16, 2, fun _ e a _ => e.exact (decodeF .bf16 (polFin e.pol) a.toNat)),
  (.cvtF32F16, 2, fun _ e a _ => e.exact (decodeF .f16 (polFin e.pol) a.toNat)),
  (.cvtE4m3F32, 2, fun _ e a _ => e.narrow .e4m3 (e.dec a)),
  (.cvtE5m2F32, 2, fun _ e a _ => e.narrow .e5m2 (e.dec a)),
  (.cvtE2m1F32, 2, fun _ e a _ => e.narrow .e2m1 (e.dec a)),
  (.cvtF32E4m3, 2, fun _ e a _ => e.exact (decodeF .e4m3 (polFin e.pol) a.toNat)),
  (.cvtF32E5m2, 2, fun _ e a _ => e.exact (decodeF .e5m2 (polFin e.pol) a.toNat)),
  (.cvtF32E2m1, 2, fun _ e a _ => e.exact (decodeF .e2m1 (polFin e.pol) a.toNat)),
  (.packX2, 2, fun w e a b => packVal w.imm8 e a b),
  (.packX4, 2, fun w e a b => packVal w.imm8 e a b),
  (.unpackX2, 2, fun w e a _ => unpackVal w.imm8 e a),
  (.unpackX4, 2, fun w e a _ => unpackVal w.imm8 e a)]

/-- The three-source floating-point opcodes (R105, R112). -/
def floatThreeOps : List ((C3 → Instr) × Nat × (FpEnv → W32 → W32 → W32 → W32)) := [
  (.fma, 4, fun e a b c => e.out (fmaExact false (e.dec a) (e.dec b) (e.dec c) e.rnd)),
  (.fnma, 4, fun e a b c => e.out (fmaExact true (e.dec a) (e.dec b) (e.dec c) e.rnd)),
  (.fdot2Bf16, 4, fdotVal .bf16),
  (.fdot4E4m3, 4, fdotVal .e4m3),
  (.fdot4E5m2, 4, fdotVal .e5m2)]

/-! ## What the floating-point words deliver, by R91 to R119 and rational arithmetic alone -/

/-- A format of R91: mantissa width, width, bias, largest finite magnitude, the magnitude of infinity if it has one, and the canonical NaN (R116
gives 0 where a format has none). -/
structure FloatFormat where
  man : Nat
  width : Nat
  bias : Nat
  largest : Nat
  infinity : Option Nat
  canonical : Nat

def fp32 : FloatFormat := ⟨23, 32, 127, 0x7F7FFFFF, some 0x7F800000, 0x7FC00000⟩
def bf16 : FloatFormat := ⟨7, 16, 127, 0x7F7F, some 0x7F80, 0x7FC0⟩
def fp16 : FloatFormat := ⟨10, 16, 15, 0x7BFF, some 0x7C00, 0x7E00⟩
def e4m3 : FloatFormat := ⟨3, 8, 7, 0x7E, none, 0x7F⟩
def e5m2 : FloatFormat := ⟨2, 8, 15, 0x7B, some 0x7C, 0x7E⟩
def e2m1 : FloatFormat := ⟨1, 4, 1, 0x7, none, 0x0⟩

/-- What a pattern stands for: a NaN with its sign and its mantissa aligned to 23 bits, none for an invalid operation (R96); an infinity; a zero; or
a number. -/
inductive Exact where
  | nan (src : Option (Bool × Nat))
  | infinite (neg : Bool)
  | zero (neg : Bool)
  | real (x : ℚ)

/-- The value of a finite magnitude (R91). -/
def magValue (F : FloatFormat) (c : Nat) : ℚ :=
  if c / 2 ^ F.man = 0 then (c : ℚ) * (2 : ℚ) ^ (1 - (F.bias : ℤ) - F.man)
  else ((2 ^ F.man + c % 2 ^ F.man : Nat) : ℚ) * (2 : ℚ) ^ (((c / 2 ^ F.man : Nat) : ℤ) - F.bias - F.man)

/-- The low bits of a pattern decoded, a subnormal as a zero where FIN is set (R91, R94, R95). -/
def readFloat (F : FloatFormat) (fin : Bool) (c : Nat) : Exact :=
  let mag := c % 2 ^ (F.width - 1)
  let neg := decide (c / 2 ^ (F.width - 1) % 2 = 1)
  if F.infinity = some mag then .infinite neg
  else if F.largest < mag then .nan (some (neg, mag % 2 ^ F.man * 2 ^ (23 - F.man)))
  else if mag = 0 ∨ (fin = true ∧ mag < 2 ^ F.man) then .zero neg
  else .real (if neg then -magValue F mag else magValue F mag)

/-- A magnitude rounded to a multiple of u: modes 0 to 4 are RNE, RTZ, RUP, RDN and SR with the LFSR's value l (R36, R98, R100). -/
def roundedTo (mode l : Nat) (neg : Bool) (a u : ℚ) : ℚ :=
  let lo := (⌊a / u⌋ : ℚ) * u
  let hi := lo + u
  if lo = a then a
  else match mode with
    | 0 => if a - lo < hi - a then lo else if hi - a < a - lo then hi else if ⌊a / u⌋ % 2 = 0 then lo else hi
    | 1 => lo
    | 2 => if neg then lo else hi
    | 3 => if neg then hi else lo
    | _ => if (l : ℤ) < ⌊(a - lo) / u * 2 ^ 32⌋ then hi else lo

/-- A magnitude with its sign in a format. -/
def signedCode (F : FloatFormat) (neg : Bool) (mag : Nat) : Nat := (if neg then 2 ^ (F.width - 1) else 0) + mag

/-- What stands beyond the largest finite magnitude: infinity, the NaN of E4M3, or nothing (R99). -/
def beyondLargest (F : FloatFormat) : Nat := match F.infinity with | some z => z | none => if F.width = 8 then 0x7F else F.largest

/-- Code v of a format is what RoundTo delivers for an exact result, under a policy byte, a mode and SAT (R95, R96, R98, R99, R116). -/
def Delivers (F : FloatFormat) (P : Byte) (mode l : Nat) (sat : Bool) : Exact → Nat → Prop
  | .nan src, v => v = (match src, P.getLsbD 2 with
      | some (neg, m), true => if F.width = 4 then 0 else if F.infinity = none then signedCode F neg 0x7F
          else signedCode F neg (F.infinity.getD 0 + (m / 2 ^ (23 - F.man) ||| 2 ^ (F.man - 1)))
      | _, _ => F.canonical)
  | .infinite neg, v => v = signedCode F neg (if sat = true ∨ (F.width = 8 ∧ P.getLsbD 3 = false) then F.largest else beyondLargest F)
  | .zero neg, v => v = signedCode F neg 0
  | .real x, v => ∀ neg r, neg = decide (x < 0) → r = roundedTo mode l neg |x| ((2 : ℚ) ^ (max (Int.log 2 |x|) (1 - (F.bias : ℤ)) - F.man)) →
      if magValue F F.largest < r then
        v = signedCode F neg (if mode = 1 ∨ (mode = 2 ∧ neg = true) ∨ (mode = 3 ∧ neg = false) ∨ sat = true ∨ (F.width = 8 ∧ P.getLsbD 3 = false)
          then F.largest else beyondLargest F)
      else if r = 0 ∨ (P.getLsbD 1 = true ∧ r < (2 : ℚ) ^ (1 - (F.bias : ℤ))) then v = signedCode F neg 0
      else ∃ c, c ≤ F.largest ∧ v = signedCode F neg c ∧ magValue F c = r

/-- Pattern v is the integer of width w that IntOut gives for an exact value (R101). -/
def DeliversInt (w : Nat) (sg : Bool) (mode l : Nat) (x : Exact) (v : Nat) : Prop :=
  ∀ lo hi : ℤ, lo = (if sg then -2 ^ (w - 1) else 0) → hi = (if sg then 2 ^ (w - 1) - 1 else 2 ^ w - 1) →
    match x with
    | .nan _ => v = 0
    | .infinite neg => v = wrap w (if neg then lo else hi)
    | .zero _ => v = 0
    | .real x => ∃ n : ℤ, (n : ℚ) = (if x < 0 then -roundedTo mode l true |x| 1 else roundedTo mode l false |x| 1) ∧ v = wrap w (min (max n lo) hi)

def Exact.isNan : Exact → Bool | .nan _ => true | _ => false
def Exact.sign : Exact → Bool | .nan _ => false | .infinite s => s | .zero s => s | .real x => decide (x < 0)
def Exact.infinite? : Exact → Option Bool | .infinite s => some s | _ => none
def Exact.zero? : Exact → Option Bool | .zero s => some s | _ => none
def Exact.value : Exact → ℚ | .real x => x | _ => 0
def negX : Exact → Exact | .nan n => .nan n | .infinite s => .infinite (!s) | .zero s => .zero (!s) | .real x => .real (-x)
def absX : Exact → Exact | .nan n => .nan (n.map (fun p => (false, p.2))) | .infinite _ => .infinite false | .zero _ => .zero false | .real x => .real |x|
def intX (n : ℤ) : Exact := if n = 0 then .zero false else .real n

/-- The exact sum of terms, its zero by the mode (R96, R102, R105, R112). -/
def sumX (mode : Nat) (l : List Exact) : Exact :=
  match l.find? Exact.isNan, l.filterMap Exact.infinite? with
  | some n, _ => n
  | none, s :: t => if t.all (· == s) then .infinite s else .nan none
  | none, [] =>
    if (l.map Exact.value).sum ≠ 0 then .real (l.map Exact.value).sum
    else .zero (if l.all (fun x => x.zero? == some true) then true else if l.all (fun x => x.zero? == some false) then false else mode == 3)

/-- The exact product of two operands (R96, R102, R105). -/
def mulX (a b : Exact) : Exact :=
  match a, b with
  | .nan n, _ => .nan n
  | _, .nan n => .nan n
  | .infinite _, .zero _ => .nan none
  | .zero _, .infinite _ => .nan none
  | .infinite s, y => .infinite (s != y.sign)
  | x, .infinite s => .infinite (x.sign != s)
  | .zero s, y => .zero (s != y.sign)
  | x, .zero s => .zero (x.sign != s)
  | .real x, .real y => .real (x * y)

/-- A × B + C, or −(A × B) + C: a NaN operand comes before an invalid product (R105). -/
def fmaX (mode : Nat) (minus : Bool) (a b c : Exact) : Exact :=
  ([a, b, c].find? Exact.isNan).getD (sumX mode [if minus then negX (mulX a b) else mulX a b, c])

/-- a < b; of two zeros −0 comes first unless they are equal (R107, R109). -/
def lessX (equal : Bool) (a b : Exact) : Bool :=
  match a, b with
  | .nan _, _ => false
  | _, .nan _ => false
  | .infinite s, .infinite t => s && !t
  | .infinite s, _ => s
  | _, .infinite t => !t
  | .zero s, .zero t => !equal && s && !t
  | x, y => decide (x.value < y.value)

/-- The lesser or the greater operand, A where neither is; one that is NaN gives way to the other (R107). -/
def minMaxX (greatest equal : Bool) (a b : Exact) : Exact :=
  if a.isNan then (if b.isNan then a else b) else if b.isNan then a
  else if greatest then (if lessX equal a b then b else a) else (if lessX equal b a then b else a)

/-- The class of a pattern (R110). -/
def classBit (a : Nat) : Nat :=
  if a % 2 ^ 31 > 0x7F800000 then 8 + a / 2 ^ 22 % 2
  else if a = 0xFF800000 then 0 else if a = 0x7F800000 then 7 else if a = 2 ^ 31 then 3 else if a = 0 then 4
  else if a % 2 ^ 31 < 2 ^ 23 then (if a < 2 ^ 31 then 5 else 2) else if a < 2 ^ 31 then 6 else 1

/-- What a narrow-format code of IMM8 delivers for an exact value (R97, R114, R118). -/
def DeliversNarrow (code : Nat) (P : Byte) (mode l : Nat) (sat : Bool) (x : Exact) (v : Nat) : Prop :=
  match code with
  | 0 => Delivers e4m3 P mode l sat x v
  | 1 => Delivers e5m2 P mode l sat x v
  | 2 => Delivers e2m1 P mode l sat x v
  | 3 => DeliversInt 8 true mode l x v
  | 4 => DeliversInt 4 true mode l x v
  | 5 => Delivers bf16 P mode l sat x v
  | 6 => Delivers fp16 P mode l sat x v
  | _ => True

/-- Element width of a narrow-format code, and the exact value of an element (R94, R97). -/
def narrowWidth (code : Nat) : Nat := match code with | 0 => 8 | 1 => 8 | 2 => 4 | 3 => 8 | 4 => 4 | _ => 16
def readNarrow (code : Nat) (fin : Bool) (c : Nat) : Exact :=
  match code with
  | 0 => readFloat e4m3 fin c
  | 1 => readFloat e5m2 fin c
  | 2 => readFloat e2m1 fin c
  | 3 => intX (sgn 8 (c % 256))
  | 4 => intX (sgn 4 (c % 16))
  | 5 => readFloat bf16 fin c
  | _ => readFloat fp16 fin c

/-- PACK: element A enters B at the top, as it is or converted (R118). -/
def Packed (w : C2) (P : Byte) (mode l : Nat) (a b v : Nat) : Prop :=
  w.imm8.toNat % 8 ≠ 7 → ∃ c, v = b / 2 ^ narrowWidth (w.imm8.toNat % 8) + c * 2 ^ (32 - narrowWidth (w.imm8.toNat % 8)) ∧
    if w.imm8.getLsbD 3 then c = a % 2 ^ narrowWidth (w.imm8.toNat % 8)
    else DeliversNarrow (w.imm8.toNat % 8) P mode l (w.mod.getLsbD 3) (readFloat fp32 (P.getLsbD 0) a) c

/-- UNPACK: the exact value of a lane (R119). -/
def Unpacked (w : C2) (P : Byte) (a v : Nat) : Prop :=
  w.imm8.toNat % 8 ≠ 7 →
    Delivers fp32 P 0 0 false (readNarrow (w.imm8.toNat % 8) (P.getLsbD 0) (a / 2 ^ (narrowWidth (w.imm8.toNat % 8) * (w.imm8.toNat / 8 % 8)))) v

/-- What a two-source word delivers, of policy byte, mode, LFSR value, and the patterns of A and B. -/
abbrev FloatRule := C2 → Byte → Nat → Nat → Nat → Nat → Nat → Prop

/-- An F32 operand under a policy byte, and an F32 result that is exact, or rounded by RNE, before FOUT (R94, R95, R107, R111, R117). -/
def f32In (P : Byte) (a : Nat) : Exact := readFloat fp32 (P.getLsbD 0) a
def f32Out (P : Byte) (x : Exact) (v : Nat) : Prop := Delivers fp32 P 0 0 false x v

/-- Sum, product, minimum, maximum, sign, class and scale (R105 to R108, R110). -/
def arithRules : List ((C2 → Instr) × FloatRule) := [
  (.fadd, fun _ P m l a b v => Delivers fp32 P m l false (sumX m [f32In P a, f32In P b]) v),
  (.fsub, fun _ P m l a b v => Delivers fp32 P m l false (sumX m [f32In P a, negX (f32In P b)]) v),
  (.fmul, fun _ P m l a b v => Delivers fp32 P m l false (mulX (f32In P a) (f32In P b)) v),
  (.fmin, fun _ P _ _ a b v => f32Out P (minMaxX false (P.getLsbD 4) (f32In P a) (f32In P b)) v),
  (.fmax, fun _ P _ _ a b v => f32Out P (minMaxX true (P.getLsbD 4) (f32In P a) (f32In P b)) v),
  (.famax, fun _ P _ _ a b v => f32Out P (if (f32In P a).isNan then absX (f32In P a) else if (f32In P b).isNan then absX (f32In P b)
     else minMaxX true true (absX (f32In P a)) (absX (f32In P b))) v),
  (.fabs, fun _ _ _ _ a _ v => v = a % 2 ^ 31),
  (.fneg, fun _ _ _ _ a _ v => v = (a + 2 ^ 31) % 2 ^ 32),
  (.fclass, fun _ _ _ _ a _ v => v = 2 ^ classBit a),
  (.fscale, fun _ P m l a b v => Delivers fp32 P m l false (match f32In P a with | .real x => .real (x * (2 : ℚ) ^ sgn 32 b) | x => x) v)]

/-- The functions of R111: FRSQ of a positive number lies between the midpoints of its neighbours; FLOG2 of 1.0 is +0 by log 86. -/
def functionRules : List ((C2 → Instr) × FloatRule) := [
  (.frcp, fun _ P _ _ a _ v => f32Out P (match f32In P a with | .nan n => .nan n | .infinite s => .zero s | .zero s => .infinite s | .real x => .real x⁻¹) v),
  (.frsq, fun _ P _ _ a _ v => match f32In P a with
     | .zero s => v = signedCode fp32 s 0x7F800000
     | .infinite false => v = 0
     | .infinite true => v = 0x7FC00000
     | .nan n => f32Out P (.nan n) v
     | .real x => if x < 0 then v = 0x7FC00000
         else v ≤ 0x7F7FFFFF ∧ ((magValue fp32 (v - 1) + magValue fp32 v) / 2) ^ 2 * x < 1 ∧ 1 < ((magValue fp32 v + magValue fp32 (v + 1)) / 2) ^ 2 * x),
  (.fexp2, fun _ P _ _ a _ v => match f32In P a with
     | .zero _ => v = 0x3F800000
     | .infinite s => v = if s then 0 else 0x7F800000
     | .nan n => f32Out P (.nan n) v
     | .real x => ∀ n : ℤ, x = n → f32Out P (.real ((2 : ℚ) ^ n)) v),
  (.flog2, fun _ P _ _ a _ v => match f32In P a with
     | .zero _ => v = 0xFF800000
     | .infinite s => v = if s then 0x7FC00000 else 0x7F800000
     | .nan n => f32Out P (.nan n) v
     | .real x => (x < 0 → v = 0x7FC00000) ∧ ∀ n : ℤ, x = (2 : ℚ) ^ n → f32Out P (intX n) v)]

/-- MX scales and quantisation (R113, R114). -/
def scaleRules : List ((C2 → Instr) × FloatRule) := [
  (.mxsc, fun w P _ _ a _ v => match f32In P a with
     | .nan _ => v = 0xFF
     | .infinite _ => v = 0xFF
     | .zero _ => v = 0x7F
     | .real x => (v : ℤ) = min (max (Int.log 2 |x| - (if w.imm8.toNat % 4 = 0 then 8 else if w.imm8.toNat % 4 = 1 then 15 else 2)) (-127)) 127 + 127),
  (.qnt, fun w P m l a b v => w.imm8.toNat % 8 < 5 → DeliversNarrow (w.imm8.toNat % 8) P m l (w.mod.getLsbD 3) (mulX (f32In P a) (f32In P b)) v)]

/-- The conversions (R115 to R117). -/
def convertRules : List ((C2 → Instr) × FloatRule) := [
  (.cvtF32S32, fun _ P m l a _ v => Delivers fp32 P m l false (intX (sgn 32 a)) v),
  (.cvtF32Z32, fun _ P m l a _ v => Delivers fp32 P m l false (intX (Int.ofNat a)) v),
  (.cvtS32F32, fun _ P m l a _ v => DeliversInt 32 true m l (f32In P a) v),
  (.cvtZ32F32, fun _ P m l a _ v => DeliversInt 32 false m l (f32In P a) v),
  (.cvtBf16F32, fun w P m l a _ v => Delivers bf16 P m l (w.mod.getLsbD 3) (f32In P a) v),
  (.cvtF16F32, fun w P m l a _ v => Delivers fp16 P m l (w.mod.getLsbD 3) (f32In P a) v),
  (.cvtE4m3F32, fun w P m l a _ v => Delivers e4m3 P m l (w.mod.getLsbD 3) (f32In P a) v),
  (.cvtE5m2F32, fun w P m l a _ v => Delivers e5m2 P m l (w.mod.getLsbD 3) (f32In P a) v),
  (.cvtE2m1F32, fun w P m l a _ v => Delivers e2m1 P m l (w.mod.getLsbD 3) (f32In P a) v),
  (.cvtF32Bf16, fun _ P _ _ a _ v => f32Out P (readFloat bf16 (P.getLsbD 0) a) v),
  (.cvtF32F16, fun _ P _ _ a _ v => f32Out P (readFloat fp16 (P.getLsbD 0) a) v),
  (.cvtF32E4m3, fun _ P _ _ a _ v => f32Out P (readFloat e4m3 (P.getLsbD 0) a) v),
  (.cvtF32E5m2, fun _ P _ _ a _ v => f32Out P (readFloat e5m2 (P.getLsbD 0) a) v),
  (.cvtF32E2m1, fun _ P _ _ a _ v => f32Out P (readFloat e2m1 (P.getLsbD 0) a) v)]

/-- Packing and unpacking (R118, R119). -/
def packRules : List ((C2 → Instr) × FloatRule) := [
  (.packX2, fun w P m l a b v => Packed w P m l a b v),
  (.packX4, fun w P m l a b v => Packed w P m l a b v),
  (.unpackX2, fun w P _ _ a _ v => Unpacked w P a v),
  (.unpackX4, fun w P _ _ a _ v => Unpacked w P a v)]

/-- What the two-source words deliver. -/
def floatRules : List ((C2 → Instr) × FloatRule) := arithRules ++ functionRules ++ scaleRules ++ convertRules ++ packRules

/-- A dot product of packed lanes plus C (R94, R96, R112). -/
def dotX (F : FloatFormat) (P : Byte) (mode a b c : Nat) : Exact :=
  let lanes (v : Nat) : List Exact := (List.range (32 / F.width)).map (fun j => readFloat F (P.getLsbD 0) (v / 2 ^ (F.width * j)))
  ((lanes a ++ lanes b ++ [readFloat fp32 (P.getLsbD 0) c]).find? Exact.isNan).getD
    (sumX mode (List.zipWith mulX (lanes a) (lanes b) ++ [readFloat fp32 (P.getLsbD 0) c]))

/-- What the three-source words deliver (R105, R112). -/
def floatThreeRules : List ((C3 → Instr) × (Byte → Nat → Nat → Nat → Nat → Exact)) :=
  let r (P : Byte) (a : Nat) : Exact := readFloat fp32 (P.getLsbD 0) a
  [(.fma, fun P m a b c => fmaX m false (r P a) (r P b) (r P c)), (.fnma, fun P m a b c => fmaX m true (r P a) (r P b) (r P c)),
   (.fdot2Bf16, fun P m a b c => dotX bf16 P m a b c), (.fdot4E4m3, fun P m a b c => dotX e4m3 P m a b c), (.fdot4E5m2, fun P m a b c => dotX e5m2 P m a b c)]

/-- The relations of FCMP over two decoded operands (R109). -/
def fcmpOps : List ((C2 → Instr) × (Exact → Exact → Bool)) := [
  (.fcmpUn, fun x y => x.isNan || y.isNan),
  (.fcmpLt, fun x y => lessX true x y),
  (.fcmpLe, fun x y => !x.isNan && !y.isNan && !lessX true y x),
  (.fcmpEq, fun x y => !x.isNan && !y.isNan && !lessX true x y && !lessX true y x)]

/-! ## Tokens, predicates and loop control (R120 to R142) -/

/-- MOD bits 9:8. -/
def rankOf (w : C2) : BitVec 2 := BitVec.ofNat 2 w.mod.toNat

/-- The token at the head of the queue that a selector names, or the all-zero token in a dead iteration (R34, R129). -/
def headTok (s : State) (w : C2) : QTok :=
  match (issue s w.stg).live, (qAt (s.cell s.focus.region s.focus.unit).ins (w.sa.toNat % 4)).head? with
  | true, some t => t
  | _, _ => QTok.of Tok.zero

/-- A landing slot without a destination. -/
def plainSlot (s : State) (stg : BitVec 3) (kind : SlotKind) (v : W32) : Slot :=
  { kind := kind, value := v, dest := 0, wq := false, out := false, live := (issue s stg).live, dist := 1, rank := 0, ord := false,
    rel := none, scope := 0, port := 0, its := some stg.toNat }

/-- The words that only take a slot, which acts when it lands (R126, R137, R140, R141). -/
def slotOps : List ((C2 → Instr) × SlotKind × (State → C2 → W32)) := [
  (.mark, .mark, fun _ w => (rankOf w).setWidth 32),
  (.psend, .psend, fun s w => if predSel (s.cell s.focus.region s.focus.unit).g w.sa then 1 else 0),
  (.exit, .exit, fun _ _ => 0),
  (.drop, .drop, fun _ _ => 0)]

/-- The words that write a predicate of the cell's predicates, lanes and loop state (R139, R142). -/
def stateOps : List ((C2 → Instr) × (State → C2 → Cell → Page → Bool)) := [
  (.pand, fun _ w c _ => predSel c.g w.sa && predSel c.g w.sb),
  (.por, fun _ w c _ => predSel c.g w.sa || predSel c.g w.sb),
  (.pxor, fun _ w c _ => xor (predSel c.g w.sa) (predSel c.g w.sb)),
  (.pnot, fun _ w c _ => !predSel c.g w.sa),
  (.precv, fun _ w c _ => (c.pl.toList[w.imm8.toNat % 4]?).getD false),
  (.iter, fun _ w _ p =>
    if rankOf w = 0 then p.iteration w.stg.toNat == 0
    else if rankOf w = 1 then p.trip != 0 && p.iteration w.stg.toNat == p.trip - 1
    else if rankOf w = 2 then p.passIdx == 0
    else p.passes != 0 && p.passIdx == p.passes - 1),
  (.live, fun s w _ _ => (issue s w.stg).live)]

/-! ## Every context word -/

def c2Words : List (C2 → Instr) := [
  .add, .sub, .addSatS, .addSatZ, .subSatS, .subSatZ, .mulLo, .mulHiS, .mulHiZ, .abs, .neg, .addsh, .minS, .minZ, .maxS, .maxZ,
  .and, .or, .xor, .andn, .shl, .shrZ, .shrS, .rot, .clz, .popc, .brev, .bswap, .bfxS, .bfxZ, .clmulLo, .clmulHi, .cmpEq, .cmpNe,
  .cmpLtS, .cmpLtZ, .cmpLeS, .cmpLeZ, .mov, .fadd, .fsub, .fmul, .fmin, .fmax, .fabs, .fneg, .fcmpEq, .fcmpLt, .fcmpLe, .fcmpUn,
  .fclass, .fscale, .famax, .frcp, .frsq, .fexp2, .flog2, .mxsc, .qnt, .cvtF32S32, .cvtS32F32, .cvtF32Z32, .cvtZ32F32, .cvtBf16F32,
  .cvtF16F32, .cvtF32Bf16, .cvtF32F16, .cvtE4m3F32, .cvtE5m2F32, .cvtE2m1F32, .cvtF32E4m3, .cvtF32E5m2, .cvtF32E2m1, .packX2,
  .packX4, .unpackX2, .unpackX4, .out, .pass, .pop, .peek, .mark, .ismark, .ordmk, .rankrd, .pand, .por, .pxor, .pnot, .pset, .psend,
  .precv, .ptest, .exit, .iter, .live, .drop, .chsend, .chrecv, .tkalnc, .ldB, .ldH, .ldW, .ldAcq, .ldf, .lkup, .handoverGive,
  .handoverTake, .mfence]
def c3Words : List (C3 → Instr) := [
  .addc, .subb, .mad, .funnel, .bfi, .dot4S8, .dot2S16, .sel, .fma, .fnma, .fdot2Bf16, .fdot4E4m3, .fdot4E5m2, .stB, .stH, .stW,
  .stRel, .stf, .atomH, .atomW, .atomfW]
def liWords : List (Li → Instr) := [.li, .hi16]
def mxWords : List (Mx → Instr) := [.mxcfg, .mxldb, .mxrow, .mxrows, .mxdrn, .mxclr, .mxswb, .mxacc, .mxstat, .mxnop]

/-- The stage holds no iteration, or the guard is false. -/
def Idle (s : State) (stg : BitVec 3) (grd : BitVec 4) : Prop :=
  (s.page (s.pageOf s.focus.region)).started stg.toNat = false ∨ guardVal (guardCell s).g grd = false

end Sys2Proof.Spec

/-- R89: LI delivers its 20-bit immediate sign-extended; HI16 the old q[DQ] with its upper half replaced. -/
def Sys2Proof.Spec.ImmediateWords : Prop :=
  ∀ (w : Li) (s : State), Issues s w.stg w.grd →
    (∃ t v, exec (.li w) s = .next t ∧ v.toNat = wrap 32 (sgn 20 w.imm.toNat) ∧
      Issued s t (fun _ => false) (issue s w.stg).live [valueSlot s w.stg 1 w.dq w.wq w.out v] (s.cell s.focus.region s.focus.unit).lfsr) ∧
    (∃ t v, exec (.hi16 w) s = .next t ∧
      v.toNat = (w.imm.toNat % 2 ^ 16) * 2 ^ 16 +
        ((s.cell s.focus.region s.focus.unit).qReg (s.page (s.pageOf s.focus.region)).base w.dq.toNat).toNat % 2 ^ 16 ∧
      Issued s t (fun _ => false) (issue s w.stg).live [valueSlot s w.stg 1 w.dq w.wq w.out v] (s.cell s.focus.region s.focus.unit).lfsr)

/-- R76, R77, R79 to R89: the integer words: the lane opcodes, the other two-source ones, the three-source ones, and the immediates. -/
def Obligations.IntegerWords : Prop := Spec.LaneWords ∧ Spec.WholeWords ∧ Spec.ThreeSourceWords ∧ Spec.ImmediateWords

/-- R102, R105 to R119: a two-source floating-point opcode delivers its result after its latency, and steps its cell's LFSR where
its rounding mode is SR. -/
def Sys2Proof.Spec.FloatWords : Prop :=
  ∀ e ∈ floatOps, ∀ (w : C2) (s : State), Issues s w.stg w.grd → HeadsReady s (issue s w.stg).live (named [w.sa, w.sb]) →
    ∃ t, exec (e.1 w) s = .next t ∧
      Issued s t (named [w.sa, w.sb]) (issue s w.stg).live
        [valueSlot s w.stg e.2.1 w.dq w.wq w.out (e.2.2 w (fpEnv s w.fpm w.mod) (s.src (issue s w.stg) w.sa w.imm8) (s.src (issue s w.stg) w.sb w.imm8))]
        (lfsrAfter s w.mod)

/-- R105, R112: the three-source floating-point opcodes. -/
def Sys2Proof.Spec.FloatThreeSourceWords : Prop :=
  ∀ e ∈ floatThreeOps, ∀ (w : C3) (s : State), Issues s w.stg w.grd → HeadsReady s (issue s w.stg).live (named [w.sa, w.sb, w.sc]) →
    ∃ t, exec (e.1 w) s = .next t ∧
      Issued s t (named [w.sa, w.sb, w.sc]) (issue s w.stg).live
        [valueSlot s w.stg e.2.1 w.dq w.wq w.out (e.2.2 (fpEnv s w.fpm w.mod) (s.src (issue s w.stg) w.sa 0) (s.src (issue s w.stg) w.sb 0)
          (s.src (issue s w.stg) w.sc 0))] (lfsrAfter s w.mod)

/-- R91 to R101, R105 to R119: the result that a floating-point word lands is what its rule gives for the patterns of its sources, in rational
arithmetic with one rounding: of FEXP2 and FLOG2, at the special operands and where the result is exact. -/
def Sys2Proof.Spec.FloatValues : Prop :=
  (∀ e ∈ floatRules, ∀ (w : C2) (s : State), Issues s w.stg w.grd → HeadsReady s (issue s w.stg).live (named [w.sa, w.sb]) → w.mod.toNat % 8 < 5 →
    ∃ t d v, exec (e.1 w) s = .next t ∧
      Issued s t (named [w.sa, w.sb]) (issue s w.stg).live [valueSlot s w.stg d w.dq w.wq w.out v] (lfsrAfter s w.mod) ∧
      e.2 w (s.policy s.focus.region w.fpm) (w.mod.toNat % 8) (lfsrAfter s w.mod).toNat (s.src (issue s w.stg) w.sa w.imm8).toNat
        (s.src (issue s w.stg) w.sb w.imm8).toNat v.toNat) ∧
  (∀ e ∈ floatThreeRules, ∀ (w : C3) (s : State), Issues s w.stg w.grd → HeadsReady s (issue s w.stg).live (named [w.sa, w.sb, w.sc]) → w.mod.toNat % 8 < 5 →
    ∃ t v, exec (e.1 w) s = .next t ∧
      Issued s t (named [w.sa, w.sb, w.sc]) (issue s w.stg).live [valueSlot s w.stg 4 w.dq w.wq w.out v] (lfsrAfter s w.mod) ∧
      Delivers fp32 (s.policy s.focus.region w.fpm) (w.mod.toNat % 8) (lfsrAfter s w.mod).toNat false
        (e.2 (s.policy s.focus.region w.fpm) (w.mod.toNat % 8) (s.src (issue s w.stg) w.sa 0).toNat (s.src (issue s w.stg) w.sb 0).toNat
          (s.src (issue s w.stg) w.sc 0).toNat) v.toNat)

/-- R102, R105 to R119: the floating-point words of two sources and of three, and what they deliver, by rational arithmetic and one rounding (R91 to R101). That FLOG2 of 1.0 delivers +0 is log 86. -/
def Obligations.FloatResultWords : Prop := Spec.FloatWords ∧ Spec.FloatThreeSourceWords ∧ Spec.FloatValues

/-- R109: FCMP writes a predicate after 2 cycles; operands are decoded under FIN, every relation but UN is false on a NaN. -/
def Sys2Proof.Spec.FloatCompareWords : Prop :=
  ∀ e ∈ fcmpOps, ∀ (w : C2) (s : State), Issues s w.stg w.grd → HeadsReady s (issue s w.stg).live (named [w.sa, w.sb]) →
    ∃ t, exec (e.1 w) s = .next t ∧
      Issued s t (named [w.sa, w.sb]) (issue s w.stg).live
        [predSlot s w.stg 2 w.dq (e.2
          (readFloat fp32 ((s.policy s.focus.region w.fpm).getLsbD 0) (s.src (issue s w.stg) w.sa w.imm8).toNat)
          (readFloat fp32 ((s.policy s.focus.region w.fpm).getLsbD 0) (s.src (issue s w.stg) w.sb w.imm8).toNat))]
        (s.cell s.focus.region s.focus.unit).lfsr

/-- R87, R109, R139: the words that write a predicate from values. -/
def Obligations.TestAndCompareWords : Prop := Spec.TestWords ∧ Spec.FloatCompareWords

/-- R94, R98: rounding the value of a code of a format back to that format gives the code again, in every mode, where no policy bit
is set and the code is finite. -/
def Obligations.RoundOfDecodeIsIdentity : Prop :=
  ∀ (f : Fmt) (mode : Rnd) (code : Nat), code < 2 ^ f.width → (decodeF f false code).isNan = false → (decodeF f false code).isInf = false →
    roundTo (decodeF f false code) f mode 0 false = code

/-- R126, R137, R140, R141: MARK, PSEND, EXIT and DROP take a slot, which acts when it lands, and read no source. -/
def Sys2Proof.Spec.SlotWords : Prop :=
  ∀ e ∈ slotOps, ∀ (w : C2) (s : State), Issues s w.stg w.grd →
    ∃ t, exec (e.1 w) s = .next t ∧
      Issued s t (fun _ => false) (issue s w.stg).live [plainSlot s w.stg e.2.1 (e.2.2 s w)] (s.cell s.focus.region s.focus.unit).lfsr

/-- R139, R142: the words that write a predicate of predicates, lane inputs and loop state, and read no source. -/
def Sys2Proof.Spec.PredicateWords : Prop :=
  ∀ e ∈ stateOps, ∀ (w : C2) (s : State), Issues s w.stg w.grd →
    ∃ t, exec (e.1 w) s = .next t ∧
      Issued s t (fun _ => false) (issue s w.stg).live
        [predSlot s w.stg 1 w.dq (e.2 s w (s.cell s.focus.region s.focus.unit) (s.page (s.pageOf s.focus.region)))]
        (s.cell s.focus.region s.focus.unit).lfsr

/-- R135, R136, R138: OUT and ORDMK take a slot that pushes A, ORDMK with ORD set; PASS delivers the head token's data and forwards
it with its ORD bit and the higher rank; POP pops the masked queues; PEEK reads the token at a depth and pops nothing; ISMARK and
RANKRD read the head token's sideband. -/
def Sys2Proof.Spec.TokenWords : Prop :=
  ∀ (w : C2) (s : State), Issues s w.stg w.grd →
    (HeadsReady s (issue s w.stg).live (named [w.sa]) →
      (∀ e ∈ [(Instr.out, false), (Instr.ordmk, true)], ∃ t, exec (e.1 w) s = .next t ∧
        Issued s t (named [w.sa]) (issue s w.stg).live
          [{ plainSlot s w.stg .push (s.src (issue s w.stg) w.sa w.imm8) with
             rank := rankOf w, ord := e.2, scope := if e.2 then w.imm8.toNat % 8 else 0 }]
          (s.cell s.focus.region s.focus.unit).lfsr) ∧
      (∃ t, exec (.pass w) s = .next t ∧
        Issued s t (named [w.sa]) (issue s w.stg).live
          [{ valueSlot s w.stg 1 w.dq w.wq false (headTok s w).tok.data with
             kind := .valuePush, rank := BitVec.ofNat 2 (max (headTok s w).tok.rank.toNat (rankOf w).toNat), ord := (headTok s w).tok.ord, rel := (headTok s w).rel }]
          (s.cell s.focus.region s.focus.unit).lfsr) ∧
      (∃ t, exec (.ismark w) s = .next t ∧
        Issued s t (named [w.sa]) (issue s w.stg).live [predSlot s w.stg 1 w.dq (decide ((rankOf w).toNat ≤ (headTok s w).tok.rank.toNat))]
          (s.cell s.focus.region s.focus.unit).lfsr) ∧
      (∃ t v, exec (.rankrd w) s = .next t ∧
        v.toNat = (headTok s w).tok.rank.toNat + 4 * (headTok s w).tok.ord.toNat + 8 * (headTok s w).tok.ctl.toNat ∧
        Issued s t (named [w.sa]) (issue s w.stg).live [valueSlot s w.stg 1 w.dq w.wq w.out v] (s.cell s.focus.region s.focus.unit).lfsr)) ∧
    (HeadsReady s (issue s w.stg).live (fun n => w.imm8.getLsbD n) → ∃ t, exec (.pop w) s = .next t ∧
      Issued s t (fun n => w.imm8.getLsbD n) (issue s w.stg).live [] (s.cell s.focus.region s.focus.unit).lfsr) ∧
    (∀ q, ((issue s w.stg).live = true → (qAt (s.cell s.focus.region s.focus.unit).ins (w.sa.toNat % 4)).nth? (rankOf w).toNat = some q) →
      ∃ t, exec (.peek w) s = .next t ∧
        Issued s t (fun _ => false) (issue s w.stg).live
          [valueSlot s w.stg 1 w.dq w.wq w.out (if (issue s w.stg).live then q.tok.data else 0)] (s.cell s.focus.region s.focus.unit).lfsr)

/-- R126, R135 to R142: the words that push, mark, move and combine tokens and predicates. -/
def Obligations.SlotAndTokenWords : Prop := Spec.SlotWords ∧ Spec.PredicateWords ∧ Spec.TokenWords

/-- R323: CHSEND takes a slot that will push A into the channel of its port, with the rank of MOD and the ORD bit of IMM8. -/
def Sys2Proof.Spec.ChannelSendWord : Prop :=
  ∀ (w : C2) (s : State), Issues s w.stg w.grd → HeadsReady s (issue s w.stg).live (named [w.sa]) →
    ∃ t, exec (.chsend w) s = .next t ∧
      Issued s t (named [w.sa]) (issue s w.stg).live
        [{ plainSlot s w.stg .chsend (s.src (issue s w.stg) w.sa w.imm8) with
           rank := rankOf w, ord := w.imm8.getLsbD 5, scope := 4, port := w.imm8.toNat % 32 }] (s.cell s.focus.region s.focus.unit).lfsr

/-- R324: CHRECV in a live iteration pops the head token of its port's channel: its data and sideband go to the slot, and its
credit is on its way back, to count when the package time has advanced by the latency. -/
def Sys2Proof.Spec.ChannelReceiveWord : Prop :=
  ∀ (w : C2) (s : State) (h : Nat) (q : QTok) (rest : List QTok), Issues s w.stg w.grd → (issue s w.stg).live = true →
    s.chanAt (s.pageOf s.focus.region) (s.sregOf s.focus.region) (w.imm8.toNat % 16) false =
      some (h, s.chanOf (s.page (s.pageOf s.focus.region)).run h) →
    (s.chanOf (s.page (s.pageOf s.focus.region)).run h).toks = q :: rest →
    ∃ t, exec (.chrecv w) s = .next t ∧
      t.chanOf (s.page (s.pageOf s.focus.region)).run h = { s.chanOf (s.page (s.pageOf s.focus.region)).run h with
        toks := rest
        creditFlight := (s.chanOf (s.page (s.pageOf s.focus.region)).run h).creditFlight ++
          [(s.die (s.chanDie (s.page (s.pageOf s.focus.region)).run (s.chanOf (s.page (s.pageOf s.focus.region)).run h) false)).pktime +
            BitVec.ofNat 64 (if (s.chanOf (s.page (s.pageOf s.focus.region)).run h).detour then 64 else 40)]
        eos := (s.chanOf (s.page (s.pageOf s.focus.region)).run h).eos || q.tok.rank == 3 } ∧
      t.cell s.focus.region s.focus.unit = { s.cell s.focus.region s.focus.unit with
        slots := (s.cell s.focus.region s.focus.unit).slots ++ [{ valueSlot s w.stg 1 w.dq w.wq false q.tok.data with
          kind := if w.out then .valuePush else .value, rank := q.tok.rank, ord := q.tok.ord, rel := q.rel }] } ∧
      (∀ r, r ≠ s.focus.region → t.region r = s.region r) ∧
      (∀ r, r ≠ (s.page (s.pageOf s.focus.region)).run → t.run r = s.run r) ∧
      t = { s with runs := t.runs, regions := t.regions, seq := t.seq }

/-- R323, R324: the channel words of a cell. -/
def Obligations.ChannelWords : Prop := Spec.ChannelSendWord ∧ Spec.ChannelReceiveWord

/-- R67, R127: a context word whose stage holds no iteration, or whose guard is false, does nothing at all, whichever its opcode;
and a NOP (R38) does nothing ever. -/
def Sys2Proof.Spec.IdleWords : Prop :=
  (∀ s, exec .nop s = .next s) ∧
  (∀ mk ∈ c2Words, ∀ w s, Idle s w.stg w.grd → exec (mk w) s = .next s) ∧
  (∀ mk ∈ c3Words, ∀ w s, Idle s w.stg w.grd → exec (mk w) s = .next s) ∧
  (∀ mk ∈ liWords, ∀ w s, Idle s w.stg w.grd → exec (mk w) s = .next s) ∧
  (∀ mk ∈ mxWords, ∀ w s, Idle s w.stg w.grd → exec (mk w) s = .next s)

namespace Sys2Proof.Spec
open Sys2Proof.Machine

/-! ## Memory nodes (R144 to R166) -/

/-- Every queue of the focused region's memory node that the word pops has a token to give (R145, R151). -/
def NodeHeadsReady (s : State) (pops : Nat → Bool) : Prop :=
  ∀ n, n < 4 → pops n = true → (qAt (s.mn s.focus.region).mi n).head?.isSome = true

/-- What a node word changes outside the node: nothing. -/
structure NodeFrame (s t : State) (pops : Nat → Bool) : Prop where
  rest : t = { s with regions := t.regions, seq := t.seq }
  regions : ∀ r, r ≠ s.focus.region → t.region r = s.region r
  region : t.region s.focus.region = { s.region s.focus.region with mn := t.mn s.focus.region }
  queues : ∀ n, n < 4 → qAt (t.mn s.focus.region).mi n = if pops n then (qAt (s.mn s.focus.region).mi n).pop else qAt (s.mn s.focus.region).mi n
  outs : (t.mn s.focus.region).mo = (s.mn s.focus.region).mo
  mores : (t.mn s.focus.region).mores = (s.mn s.focus.region).mores

/-- The node's parts that a word may change are as they were. -/
def sameNear (s t : State) : Prop := (t.mn s.focus.region).near = (s.mn s.focus.region).near
def sameFar (s t : State) : Prop := (t.mn s.focus.region).far = (s.mn s.focus.region).far
def sameCoal (s t : State) : Prop := (t.mn s.focus.region).coal = (s.mn s.focus.region).coal
def sameHeld (s t : State) : Prop := (t.mn s.focus.region).held = (s.mn s.focus.region).held
def sameSlots (s t : State) : Prop := (t.mn s.focus.region).slots = (s.mn s.focus.region).slots

/-- Base and scaled index, as a 32-bit offset (R147, R148). -/
def offset (s : State) (stg : BitVec 3) (sa sb : BitVec 6) (sh : Nat) : Nat :=
  ((s.nodeSrc (issue s stg) sa).toNat + (s.nodeSrc (issue s stg) sb).toNat * 2 ^ sh) % 2 ^ 32

/-- The cycles from a region to the bank of a near offset (R147, R150). -/
def path (s : State) (off : Nat) : Nat :=
  (if off % 0x600000 / 0x60000 = s.focus.region % 16 then 5 else 7) + (if 0x600000 ≤ off then 1 else 0)

/-- The latencies of the LAT codes, and of a scope (R150, R153). -/
def nearCycles (code : Nat) : Nat := 10 + 2 * (code % 4)
def farCycles (code : Nat) : Nat := if code % 4 = 0 then 16 else 16 * 2 ^ (code % 4)
def scopeCycles (scope : Nat) : Nat := if scope = 0 ∨ scope = 1 then 16 else if scope = 2 ∨ scope = 3 then 64 else 128

/-- A near access is on its way: one more at the end of the node's list, with this operation and offset. -/
def NearSent (s t : State) (op : NodeOp) (off : Nat) (rel : Bool) : Prop :=
  ∃ a, (t.mn s.focus.region).near = (s.mn s.focus.region).near ++ [a] ∧ a.op = op ∧ a.off = off ∧ a.path = path s off ∧
    a.st = .going (path s off) ∧ a.rel = rel ∧ a.ident = t.seq ∧ a.stamp = t.seq

/-- A far access is on its way, behind the node's others: s₁ is the state whose node it joins. -/
def FarSent (s s₁ t : State) (op : NodeOp) (p : Piece) (rel : Bool) : Prop :=
  ∃ a, (t.mn s.focus.region).far = (s₁.mn s.focus.region).far ++ [a] ∧ a.op = .word op ∧ a.pa = p.pa ∧ a.key = p.key ∧ a.rel = rel ∧
    a.ident = t.seq ∧ a.stamp = t.seq

/-- A landing slot of a memory node. -/
def nodeSlot (s : State) (stg : BitVec 3) (kind : NodeSlotKind) (value : Option W32) (dq : Nat) (out : Bool) (lat range ident : Nat) : NodeSlot :=
  { kind := kind, value := value, dq := dq, out := out, live := (issue s stg).live, its := some stg.toNat, dist := lat, range := range, ident := ident }

def SlotTaken (s t : State) (sl : NodeSlot) : Prop := (t.mn s.focus.region).slots = (s.mn s.focus.region).slots ++ [sl]

/-- A near range of the scratchpad that is backed and aligned (R149). -/
def NearOk (s : State) (off width : Nat) : Prop := off + width ≤ s.scrcap ∧ off % width = 0

/-- A near access of n bytes that fails a check ends its run in error, with the cause of the first that fails: backing, alignment,
ownership (the order is the model's: log 84); nothing is sent and memory is as before (R149, R285). -/
def NearRefused (s t : State) (off n : Nat) : Prop :=
  ∃ r, (t.run (s.page (s.pageOf s.focus.region)).run).err = some r ∧
    r.cause = (if s.scrcap < off + n then 3 else if off % n ≠ 0 then 5 else 6) ∧
    r.page = (s.page (s.pageOf s.focus.region)).handle ∧ r.slot = (s.page (s.pageOf s.focus.region)).counter ∧ r.addr = off ∧
    (t.run (s.page (s.pageOf s.focus.region)).run).phase = .erring ∧ sameNear s t ∧ t.mem = s.mem

/-- A far access that its check refuses ends its run in error, with the cause and address that the check gives; memory is as before
(R149, R285). -/
def FarRefused (s t : State) (c : Cause) (a : Nat) : Prop :=
  ∃ r, (t.run (s.page (s.pageOf s.focus.region)).run).err = some r ∧ r.cause = c.code ∧
    r.page = (s.page (s.pageOf s.focus.region)).handle ∧ r.slot = (s.page (s.pageOf s.focus.region)).counter ∧ r.addr = a ∧
    (t.run (s.page (s.pageOf s.focus.region)).run).phase = .erring ∧ sameNear s t ∧ t.mem = s.mem

/-- What a far word changes in its region: the node alone, and in it no result, no output, no range held and no near access; the queues that it
names lose their heads. -/
structure FarFrame (s t : State) (pops : Nat → Bool) : Prop where
  regions : ∀ r, r ≠ s.focus.region → t.region r = s.region r
  region : t.region s.focus.region = { s.region s.focus.region with mn := t.mn s.focus.region }
  queues : NodeHeadsReady s pops → ∀ n, n < 4 → qAt (t.mn s.focus.region).mi n = if pops n then (qAt (s.mn s.focus.region).mi n).pop else qAt (s.mn s.focus.region).mi n
  outs : (t.mn s.focus.region).mo = (s.mn s.focus.region).mo ∧ (t.mn s.focus.region).mores = (s.mn s.focus.region).mores
  rest : sameNear s t ∧ sameHeld s t

/-- The near loads: width, and whether MOD bit 10 asks for sign extension (R156, R157). -/
def nearLoads : List ((C2 → Instr) × Nat × (C2 → Bool) × (C2 → Nat)) := [
  (.ldB, 1, fun w => w.mod.getLsbD 2, fun _ => 0),
  (.ldH, 2, fun w => w.mod.getLsbD 2, fun _ => 0),
  (.ldW, 4, fun _ => false, fun _ => 0),
  (.ldAcq, 4, fun _ => false, fun w => w.imm8.toNat / 16 % 8)]

/-- The lines of a coalescing buffer as the write-throughs that a release makes of them (R159). -/
def flushed (m : MNode) (acqs : List Rel) : List FarAcc := m.coal.map (fun l => ⟨l.stamp, .line l.mask l.data, l.pa, l.key, l.stamp, acqs, false⟩)

/-! ## Matrix nodes (R181 to R202) -/

def sameButXn (s t : State) : Prop :=
  t = { s with regions := t.regions } ∧ (∀ r, r ≠ s.focus.region → t.region r = s.region r) ∧
  t.region s.focus.region = { s.region s.focus.region with xn := t.xn s.focus.region }

/-- A landing slot of a matrix node. -/
def xSlot (s : State) (stg : BitVec 3) (kind : XSlotKind) (lat : Nat) : XSlot :=
  { kind := kind, tag := 0, vals := [], ng := 0, fmt := 0, buf := 0, spbase := 0, cancel := false, ovfg := false,
    live := (issue s stg).live, its := some stg.toNat, dist := lat }

/-- The 16 products of column n and group g of a firing: physical row p multiplies logical element lg p n of the A data (R186 to
R188). -/
def products (x : XNode) (code buf : Nat) (row : Nat → Nat × Nat) (lg : Nat → Nat → Nat) (n g : Nat) : List FVal :=
  (List.range 16).map fun i =>
    mxProduct (mxFmt code) (decide (code % 8 < 3)) (row (lg (16 * g + i) n)).1 (row (lg (16 * g + i) n)).2
      (x.bElem code buf (16 * g + i) n) (x.bScale buf (lg (16 * g + i) n / 32) n)

/-- The sums of a firing, column by column, group by group (R187). -/
def SumsAre (vals : List W32) (x : XNode) (code buf : Nat) (row : Nat → Nat × Nat) (lg : Nat → Nat → Nat) : Prop :=
  vals.length = 64 * mxGroups code ∧ ∀ n g, n < 64 → g < mxGroups code →
    vals[mxGroups code * n + g]? = some (mxRound (sumExact (products x code buf row lg n g) .rne))

/-- The buffer that BSEL names at issue (R37). -/
def bufferOf (x : XNode) (bsel : BitVec 2) : Nat := if bsel = 0 then 0 else if bsel = 1 then 1 else if bsel = 2 then x.active else 1 - x.active

end Sys2Proof.Spec

/-- R147, R150, R156, R157: a near load of a live iteration takes a slot and sends its access to the bank of its offset; memory and
every other unit are as before. -/
def Sys2Proof.Spec.NearLoadWords : Prop :=
  ∀ e ∈ nearLoads, ∀ (w : C2) (s : State), Issues s w.stg w.grd → (issue s w.stg).live = true → NodeHeadsReady s (named [w.sa, w.sb]) →
    (e.1 w = .ldAcq w → w.mod.getLsbD 3 = false) → NearOk s (offset s w.stg w.sa w.sb (w.imm8.toNat % 4)) e.2.1 →
    ∃ t, exec (e.1 w) s = .next t ∧ NodeFrame s t (named [w.sa, w.sb]) ∧
      NearSent s t (.load e.2.1 (e.2.2.1 w)) (offset s w.stg w.sa w.sb (w.imm8.toNat % 4)) false ∧
      SlotTaken s t (nodeSlot s w.stg .value none w.dq.toNat w.out (nearCycles w.mod.toNat) (e.2.2.2 w) t.seq) ∧
      sameFar s t ∧ sameCoal s t ∧ sameHeld s t

/-- R150, R158, R161 to R163: a near store to a range that the node owns sends its access; an atomic and a lookup also take a slot;
a lookup of the reserved key 0xFFFF_FFFF lands that value and accesses nothing. -/
def Sys2Proof.Spec.NearStoreAndAtomicWords : Prop :=
  (∀ e ∈ [(Instr.stB, 1), (Instr.stH, 2), (Instr.stW, 4)], ∀ (w : C3) (s : State), Issues s w.stg w.grd → (issue s w.stg).live = true →
    NodeHeadsReady s (named [w.sa, w.sb, w.sc]) → NearOk s (offset s w.stg w.sa w.sb (w.mod.toNat % 4)) e.2 →
    s.owns s.focus.region true (offset s w.stg w.sa w.sb (w.mod.toNat % 4)) e.2 = true →
    ∃ t, exec (e.1 w) s = .next t ∧ NodeFrame s t (named [w.sa, w.sb, w.sc]) ∧
      NearSent s t (.store e.2 (s.nodeSrc (issue s w.stg) w.sc)) (offset s w.stg w.sa w.sb (w.mod.toNat % 4)) false ∧
      sameSlots s t ∧ sameFar s t ∧ sameCoal s t ∧ sameHeld s t) ∧
  (∀ e ∈ [(Instr.atomH, 2), (Instr.atomW, 4)], ∀ (w : C3) (s : State), Issues s w.stg w.grd → (issue s w.stg).live = true →
    NodeHeadsReady s (named [w.sa, w.sb, w.sc]) → NearOk s (s.nodeSrc (issue s w.stg) w.sa).toNat e.2 →
    s.owns s.focus.region true (s.nodeSrc (issue s w.stg) w.sa).toNat e.2 = true →
    ∃ t, exec (e.1 w) s = .next t ∧ NodeFrame s t (named [w.sa, w.sb, w.sc]) ∧
      NearSent s t (.atom (8 * e.2) (w.mod.toNat % 8) (w.mod.getLsbD 3) (s.nodeSrc (issue s w.stg) w.sb) (s.nodeSrc (issue s w.stg) w.sc))
        (s.nodeSrc (issue s w.stg) w.sa).toNat false ∧
      SlotTaken s t (nodeSlot s w.stg .value none w.dq.toNat w.out (nearCycles w.modx.toNat) 0 t.seq) ∧
      sameFar s t ∧ sameCoal s t ∧ sameHeld s t) ∧
  (∀ (w : C2) (s : State), Issues s w.stg w.grd → (issue s w.stg).live = true → NodeHeadsReady s (named [w.sa, w.sb]) →
    (s.nodeSrc (issue s w.stg) w.sa = 0xFFFFFFFF →
      ∃ t, exec (.lkup w) s = .next t ∧ NodeFrame s t (named [w.sa, w.sb]) ∧
        SlotTaken s t (nodeSlot s w.stg .value (some 0xFFFFFFFF) w.dq.toNat w.out (nearCycles w.mod.toNat) 0 0) ∧
        sameNear s t ∧ sameFar s t ∧ sameCoal s t ∧ sameHeld s t) ∧
    (s.nodeSrc (issue s w.stg) w.sa ≠ 0xFFFFFFFF →
      ∀ off, off = ((s.nodeSrc (issue s w.stg) w.sb).toNat + (s.nodeSrc (issue s w.stg) w.sa).toNat % 2 ^ (w.imm8.toNat % 32) * 32) % 2 ^ 32 →
      NearOk s off 32 →
      ∃ t, exec (.lkup w) s = .next t ∧ NodeFrame s t (named [w.sa, w.sb]) ∧
        NearSent s t (.lookup (s.nodeSrc (issue s w.stg) w.sa)) off false ∧
        SlotTaken s t (nodeSlot s w.stg .value none w.dq.toNat w.out (nearCycles w.mod.toNat) 0 t.seq) ∧
        sameFar s t ∧ sameCoal s t ∧ sameHeld s t))

/-- R149, R285: a near access outside the usable scratchpad ends the run with ACCESS, else a misaligned one with ALIGN, else a write
that the node does not own with OWNER (in that order, which is the model's: log 84); no access is sent. -/
def Sys2Proof.Spec.NearAccessChecks : Prop :=
  ∀ (s : State), (s.region s.focus.region).holder.isSome = true → (s.run (s.page (s.pageOf s.focus.region)).run).err = none →
    (∀ e ∈ nearLoads, ∀ (w : C2) (off : Nat), Issues s w.stg w.grd → (issue s w.stg).live = true → (e.1 w = .ldAcq w → w.mod.getLsbD 3 = false) →
      off = offset s w.stg w.sa w.sb (w.imm8.toNat % 4) → ¬ NearOk s off e.2.1 → ∃ t, exec (e.1 w) s = .next t ∧ NearRefused s t off e.2.1) ∧
    (∀ (w : C2) (off : Nat), Issues s w.stg w.grd → (issue s w.stg).live = true → s.nodeSrc (issue s w.stg) w.sa ≠ 0xFFFFFFFF →
      off = ((s.nodeSrc (issue s w.stg) w.sb).toNat + (s.nodeSrc (issue s w.stg) w.sa).toNat % 2 ^ (w.imm8.toNat % 32) * 32) % 2 ^ 32 →
      ¬ NearOk s off 32 → ∃ t, exec (.lkup w) s = .next t ∧ NearRefused s t off 32) ∧
    (∀ (w : C3), Issues s w.stg w.grd → (issue s w.stg).live = true →
      (∀ e ∈ [(Instr.stB, 1), (.stH, 2), (.stW, 4)], ∀ off, off = offset s w.stg w.sa w.sb (w.mod.toNat % 4) →
        (¬ NearOk s off e.2 ∨ s.owns s.focus.region true off e.2 = false) → ∃ t, exec (e.1 w) s = .next t ∧ NearRefused s t off e.2) ∧
      (∀ off, w.mod.getLsbD 3 = false → off = offset s w.stg w.sa w.sb 0 → (¬ NearOk s off 4 ∨ s.owns s.focus.region true off 4 = false) →
        ∃ t, exec (.stRel w) s = .next t ∧ NearRefused s t off 4) ∧
      (∀ e ∈ [(Instr.atomH, 2), (.atomW, 4)], ∀ off, off = (s.nodeSrc (issue s w.stg) w.sa).toNat →
        (¬ NearOk s off e.2 ∨ s.owns s.focus.region true off e.2 = false) → ∃ t, exec (e.1 w) s = .next t ∧ NearRefused s t off e.2))

/-- R147, R149, R150, R156 to R158, R161 to R163, R285: the near words of a memory node, and the checks that end a run. -/
def Obligations.NearWords : Prop := Spec.NearLoadWords ∧ Spec.NearStoreAndAtomicWords ∧ Spec.NearAccessChecks

/-- R148, R156 to R159, R161: a far load, once its translation gives a piece, takes its word from the coalescing buffer or joins the
node's far accesses; a far atomic joins them; a far store's word is dirty in the buffer, or on its way with its line when every
word of the line is dirty. The translation changes translation caches and the gauges that its table reads raise (R355) alone. -/
def Sys2Proof.Spec.FarWords : Prop :=
  (∀ e ∈ [(Instr.ldf, fun _ : C2 => 0), (Instr.ldAcq, fun w : C2 => w.imm8.toNat / 16 % 8)], ∀ (w : C2) (s s₁ : State) (p : Piece),
    Issues s w.stg w.grd → (issue s w.stg).live = true → (e.1 w = .ldAcq w → w.mod.getLsbD 3 = true) →
    (s.popNode (issue s w.stg) [w.sa, w.sb]).farPlace (issue s w.stg) false
      (s.farBase (issue s w.stg) (w.imm8.toNat / 4 % 4) + offset s w.stg w.sa w.sb (w.imm8.toNat % 4)) 4 = (.ok p, s₁) →
    ∃ t, exec (e.1 w) s = .next t ∧ t = { s₁ with regions := t.regions, seq := t.seq } ∧ FarFrame s t (named [w.sa, w.sb]) ∧ sameCoal s t ∧
      s₁ = { s with regions := s₁.regions, seq := s₁.seq, clusters := s₁.clusters, dies := s₁.dies, choices := s₁.choices } ∧
      match (s₁.mn s.focus.region).buffered p.pa p.key with
      | some v => (t.mn s.focus.region).far = (s₁.mn s.focus.region).far ∧ (t.mn s.focus.region).slots = (s.mn s.focus.region).slots ++
          [nodeSlot s w.stg .value (some v) w.dq.toNat w.out (farCycles w.mod.toNat) (e.2 w) 0]
      | none => FarSent s s₁ t (.load 4 false) p false ∧ (t.mn s.focus.region).slots = (s.mn s.focus.region).slots ++
          [nodeSlot s w.stg .value none w.dq.toNat w.out (farCycles w.mod.toNat) (e.2 w) t.seq]) ∧
  (∀ (w : C3) (s s₁ : State) (p : Piece), Issues s w.stg w.grd → (issue s w.stg).live = true →
    (s.popNode (issue s w.stg) [w.sa, w.sb, w.sc]).farPlace (issue s w.stg) true
      (s.farBase (issue s w.stg) ((s.nodeSrc (issue s w.stg) w.sa).toNat / 2 ^ 30) + (s.nodeSrc (issue s w.stg) w.sa).toNat % 2 ^ 30) 4 = (.ok p, s₁) →
    ∃ t a, exec (.atomfW w) s = .next t ∧ t = { s₁ with regions := t.regions, seq := t.seq } ∧ FarFrame s t (named [w.sa, w.sb, w.sc]) ∧
      (t.mn s.focus.region).far.getLast? = some a ∧ a.pa = p.pa ∧ a.key = p.key ∧ a.stamp = t.seq ∧
      a.op = .word (.atom 32 (w.mod.toNat % 8) (w.mod.getLsbD 3) (s.nodeSrc (issue s w.stg) w.sb) (s.nodeSrc (issue s w.stg) w.sc)) ∧
      (t.mn s.focus.region).buffered p.pa p.key = none ∧
      (t.mn s.focus.region).slots = (s.mn s.focus.region).slots ++
        [nodeSlot s w.stg .value none w.dq.toNat w.out (farCycles w.modx.toNat) 0 t.seq]) ∧
  (∀ (w : C3) (s s₁ : State) (p : Piece), Issues s w.stg w.grd → (issue s w.stg).live = true →
    (∀ l ∈ (s.mn s.focus.region).coal, l.data.length = 128) → p.pa % 4 = 0 →
    (s.popNode (issue s w.stg) [w.sa, w.sb, w.sc]).farPlace (issue s w.stg) true
      (s.farBase (issue s w.stg) (w.mod.toNat / 4) + offset s w.stg w.sa w.sb (w.mod.toNat % 4)) 4 = (.ok p, s₁) →
    ∃ t, exec (.stf w) s = .next t ∧ t = { s₁ with regions := t.regions, seq := t.seq } ∧ FarFrame s t (named [w.sa, w.sb, w.sc]) ∧ sameSlots s t ∧
      ((t.mn s.focus.region).buffered p.pa p.key = some (s.nodeSrc (issue s w.stg) w.sc) ∨
       ∃ a d, (t.mn s.focus.region).far.getLast? = some a ∧ a.op = .line (2 ^ 32 - 1) d ∧ a.pa = p.pa / 128 * 128 ∧ a.key = p.key ∧
         ofBytes ((d.drop (p.pa % 128)).take 4) = (s.nodeSrc (issue s w.stg) w.sc).toNat)) ∧
  (∀ (s s₁ : State) (c : Cause) (va a : Nat), (s.region s.focus.region).holder.isSome = true → (s.run (s.page (s.pageOf s.focus.region)).run).err = none →
    (∀ (w : C2), Issues s w.stg w.grd → (issue s w.stg).live = true →
      va = s.farBase (issue s w.stg) (w.imm8.toNat / 4 % 4) + offset s w.stg w.sa w.sb (w.imm8.toNat % 4) →
      (s.popNode (issue s w.stg) [w.sa, w.sb]).farPlace (issue s w.stg) false va 4 = (.error (c, a), s₁) →
      (∃ t, exec (.ldf w) s = .next t ∧ FarRefused s t c a) ∧ (w.mod.getLsbD 3 = true → ∃ t, exec (.ldAcq w) s = .next t ∧ FarRefused s t c a)) ∧
    (∀ (w : C3), Issues s w.stg w.grd → (issue s w.stg).live = true →
      (va = s.farBase (issue s w.stg) (w.mod.toNat / 4) + offset s w.stg w.sa w.sb (w.mod.toNat % 4) →
        (s.popNode (issue s w.stg) [w.sa, w.sb, w.sc]).farPlace (issue s w.stg) true va 4 = (.error (c, a), s₁) →
        ∃ t, exec (.stf w) s = .next t ∧ FarRefused s t c a) ∧
      (va = s.farBase (issue s w.stg) ((s.nodeSrc (issue s w.stg) w.sa).toNat / 2 ^ 30) + (s.nodeSrc (issue s w.stg) w.sa).toNat % 2 ^ 30 →
        (s.popNode (issue s w.stg) [w.sa, w.sb, w.sc]).farPlace (issue s w.stg) true va 4 = (.error (c, a), s₁) →
        ∃ t, exec (.atomfW w) s = .next t ∧ FarRefused s t c a)))

/-- R153, R159, R160, R165, R166: a release writes the coalescing buffer through. ST.REL then sends its word behind that; MFENCE takes
a slot for its scope; a GIVE of a held hand-over range stops holding it and takes a slot that will push its token; a TAKE of the
range's token holds it. -/
def Sys2Proof.Spec.ReleaseWords : Prop :=
  (∀ (w : C3) (s : State), Issues s w.stg w.grd → (issue s w.stg).live = true → NodeHeadsReady s (named [w.sa, w.sb, w.sc]) →
    w.mod.getLsbD 3 = false → NearOk s (offset s w.stg w.sa w.sb 0) 4 → s.owns s.focus.region true (offset s w.stg w.sa w.sb 0) 4 = true →
    ∃ t, exec (.stRel w) s = .next t ∧ NodeFrame s t (named [w.sa, w.sb, w.sc]) ∧
      NearSent s t (.store 4 (s.nodeSrc (issue s w.stg) w.sc)) (offset s w.stg w.sa w.sb 0) true ∧
      SlotTaken s t (nodeSlot s w.stg .strel none 0 false (scopeCycles (w.mod.toNat % 8)) 0 t.seq) ∧
      (t.mn s.focus.region).coal = [] ∧
      (t.mn s.focus.region).far = (s.mn s.focus.region).far ++ flushed (s.mn s.focus.region) (t.mn s.focus.region).acqs) ∧
  (∀ (w : C3) (s u s₁ : State) (p : Piece), Issues s w.stg w.grd → (issue s w.stg).live = true → w.mod.getLsbD 3 = true →
    u = s.popNode (issue s w.stg) [w.sa, w.sb, w.sc] →
    (u.setMn s.focus.region (u.mn s.focus.region).flush).farPlace (issue s w.stg) true
      (s.farBase (issue s w.stg) w.modx.toNat + offset s w.stg w.sa w.sb 0) 4 = (.ok p, s₁) →
    ∃ t, exec (.stRel w) s = .next t ∧ t = { s₁ with regions := t.regions, seq := t.seq } ∧ FarFrame s t (named [w.sa, w.sb, w.sc]) ∧
      FarSent s s₁ t (.store 4 (s.nodeSrc (issue s w.stg) w.sc)) p true ∧
      SlotTaken s t (nodeSlot s w.stg .strel none 0 false (scopeCycles (w.mod.toNat % 8)) 0 t.seq) ∧ (t.mn s.focus.region).coal = [] ∧
      (s₁.mn s.focus.region).far = (s.mn s.focus.region).far ++ flushed (s.mn s.focus.region) (t.mn s.focus.region).acqs) ∧
  (∀ (w : C2) (s : State), Issues s w.stg w.grd → (issue s w.stg).live = true →
    (∃ t, exec (.mfence w) s = .next t ∧ NodeFrame s t (fun _ => false) ∧ sameNear s t ∧ sameHeld s t ∧
      SlotTaken s t (nodeSlot s w.stg .mfence none 0 false (scopeCycles (w.mod.toNat % 8)) (w.mod.toNat % 8) t.seq) ∧
      (t.mn s.focus.region).coal = [] ∧
      (t.mn s.focus.region).far = (s.mn s.focus.region).far ++ flushed (s.mn s.focus.region) (s.mn s.focus.region).acqs) ∧
    (s.declares s.focus.region (w.imm8.toNat % 8) = true → (s.mn s.focus.region).held[w.imm8.toNat % 8]? = some true →
      ∃ t, exec (.handoverGive w) s = .next t ∧ NodeFrame s t (fun _ => false) ∧ sameNear s t ∧ sameFar s t ∧ sameCoal s t ∧
        SlotTaken s t (nodeSlot s w.stg .give none w.dq.toNat true 1 (w.imm8.toNat % 8) t.seq) ∧
        ∀ i, i < 8 → (t.mn s.focus.region).held[i]? = if i = w.imm8.toNat % 8 then some false else (s.mn s.focus.region).held[i]?) ∧
    (∀ q, 0x10 ≤ w.sa.toNat → w.sa.toNat < 0x14 → (qAt (s.mn s.focus.region).mi (w.sa.toNat % 4)).head? = some q →
      q.tok = ⟨BitVec.ofNat 32 (0x484F0000 + w.imm8.toNat % 8), 0, true, false⟩ → s.declares s.focus.region (w.imm8.toNat % 8) = true →
      ∃ t, exec (.handoverTake w) s = .next t ∧ NodeFrame s t (named [w.sa]) ∧ sameNear s t ∧ sameFar s t ∧ sameCoal s t ∧ sameSlots s t ∧
        ∀ i, i < 8 → (t.mn s.focus.region).held[i]? = if i = w.imm8.toNat % 8 then some true else (s.mn s.focus.region).held[i]?))

/-- R148, R149, R153, R156 to R161, R165, R166, R285: the far, release, fence and handover words of a memory node. -/
def Obligations.FarAndReleaseWords : Prop := Spec.FarWords ∧ Spec.ReleaseWords

/-- R155: in a dead iteration a value word of a memory node takes a slot that lands 0, and no other word of it has an effect; that an
atomic, which is a value word, takes its slot as well is the model's reading (log 85). -/
def Sys2Proof.Spec.DeadNodeWords : Prop :=
  (∀ e ∈ [(Instr.ldB, nearCycles), (Instr.ldH, nearCycles), (Instr.ldW, nearCycles), (Instr.ldAcq, fun m => if m / 8 % 2 = 1 then farCycles m else nearCycles m), (Instr.ldf, farCycles), (Instr.lkup, nearCycles)],
    ∀ (w : C2) (s : State), Issues s w.stg w.grd → (issue s w.stg).live = false →
    ∃ t, exec (e.1 w) s = .next t ∧ t = { s with regions := t.regions } ∧
      t.mn s.focus.region = { s.mn s.focus.region with
        slots := (s.mn s.focus.region).slots ++ [nodeSlot s w.stg .value (some 0) w.dq.toNat w.out (e.2 w.mod.toNat) 0 0] }) ∧
  (∀ e ∈ [(Instr.atomH, nearCycles), (Instr.atomW, nearCycles), (Instr.atomfW, farCycles)],
    ∀ (w : C3) (s : State), Issues s w.stg w.grd → (issue s w.stg).live = false →
    ∃ t, exec (e.1 w) s = .next t ∧ t = { s with regions := t.regions } ∧
      t.mn s.focus.region = { s.mn s.focus.region with
        slots := (s.mn s.focus.region).slots ++ [nodeSlot s w.stg .value (some 0) w.dq.toNat w.out (e.2 w.modx.toNat) 0 0] }) ∧
  (∀ mk ∈ [Instr.stB, Instr.stH, Instr.stW, Instr.stRel, Instr.stf], ∀ (w : C3) (s : State), (issue s w.stg).live = false → exec (mk w) s = .next s) ∧
  (∀ mk ∈ [Instr.handoverGive, Instr.handoverTake, Instr.mfence], ∀ (w : C2) (s : State), (issue s w.stg).live = false → exec (mk w) s = .next s)

/-- R37, R183 to R189: a dense firing pops the row at the head of a0, a sparse one those of a0 and a1, and takes a slot that lands 8
cycles later with its tag and, for every column and group, the rounded exact sum of its 16 products. -/
def Sys2Proof.Spec.MatrixFirings : Prop :=
  ∀ (w : Mx) (s : State) (r : Row), Issues s w.stg w.grd → (issue s w.stg).live = true →
    w.mfmt.toNat % 8 = (s.xn s.focus.region).cfmt → (s.xn s.focus.region).a0.head? = some r →
    (∃ t sl, exec (.mxrow w) s = .next t ∧ sameButXn s t ∧
      t.xn s.focus.region = { s.xn s.focus.region with a0 := (s.xn s.focus.region).a0.pop, slots := (s.xn s.focus.region).slots ++ [sl] } ∧
      sl = { xSlot s w.stg .row 8 with tag := s.mxTag (issue s w.stg) w r.tag, vals := sl.vals, ng := mxGroups w.mfmt.toNat, ovfg := sl.ovfg } ∧
      SumsAre sl.vals (s.xn s.focus.region) w.mfmt.toNat (bufferOf (s.xn s.focus.region) w.bsel)
        (fun l => (elemAt (mxFmt w.mfmt.toNat) r.byte l, r.scaleByte (l / 32))) (fun p _ => p)) ∧
    (∀ q, (s.xn s.focus.region).a1.head? = some q →
      ∃ t sl, exec (.mxrows w) s = .next t ∧ sameButXn s t ∧
        t.xn s.focus.region = { s.xn s.focus.region with a0 := (s.xn s.focus.region).a0.pop, a1 := (s.xn s.focus.region).a1.pop, slots := (s.xn s.focus.region).slots ++ [sl] } ∧
        sl = { xSlot s w.stg .rows 8 with tag := s.mxTag (issue s w.stg) w r.tag, vals := sl.vals, ng := mxGroups w.mfmt.toNat, ovfg := sl.ovfg } ∧
        SumsAre sl.vals (s.xn s.focus.region) w.mfmt.toNat (bufferOf (s.xn s.focus.region) w.bsel)
          (fun l => (if l < mxDepth w.mfmt.toNat then elemAt (mxFmt w.mfmt.toNat) r.byte l else elemAt (mxFmt w.mfmt.toNat) q.byte (l - mxDepth w.mfmt.toNat),
            if l / 32 < mxDepth w.mfmt.toNat / 32 then r.scaleByte (l / 32) else q.scaleByte (l / 32 - mxDepth w.mfmt.toNat / 32)))
          ((s.xn s.focus.region).logical w.spbase.toNat))

/-- R202, R285: a firing whose format is not the configured one ends the run with MXFMT and takes no slot. -/
def Sys2Proof.Spec.MatrixFormatCheck : Prop :=
  ∀ mk ∈ [Instr.mxrow, Instr.mxrows], ∀ (w : Mx) (s : State), Issues s w.stg w.grd → (s.region s.focus.region).holder.isSome = true →
    (s.run (s.page (s.pageOf s.focus.region)).run).err = none → w.mfmt.toNat % 8 ≠ (s.xn s.focus.region).cfmt →
    ∃ t r, exec (mk w) s = .next t ∧ (t.run (s.page (s.pageOf s.focus.region)).run).err = some r ∧ r.cause = 7 ∧ t.regions = s.regions ∧ t.mem = s.mem

/-- R194 to R200: the other words of a matrix node. In a live iteration each takes a slot with its operands resolved at issue; MXLDB
also starts a load, and MXACC pops 64 tokens; MXNOP does nothing. -/
def Sys2Proof.Spec.MatrixSlotWords : Prop :=
  ∀ (w : Mx) (s : State), Issues s w.stg w.grd → (issue s w.stg).live = true →
    (∀ e ∈ [(Instr.mxcfg, { xSlot s w.stg .cfg 1 with fmt := w.mfmt.toNat }),
            (Instr.mxclr, { xSlot s w.stg .clr 1 with tag := s.mxTag (issue s w.stg) w 0 }),
            (Instr.mxswb, { xSlot s w.stg .swb 1 with buf := w.bsel.toNat }),
            (Instr.mxstat, { xSlot s w.stg .stat 1 with vals := [(s.xn s.focus.region).stat] }),
            (Instr.mxdrn, { xSlot s w.stg .drn 6 with tag := s.mxTag (issue s w.stg) w 0, vals := (List.range 64).map (fun n => (s.xn s.focus.region).acc.get 0 (64 * s.mxTag (issue s w.stg) w 0 + n)) })],
      ∃ t, exec (e.1 w) s = .next t ∧ sameButXn s t ∧
        t.xn s.focus.region = { s.xn s.focus.region with slots := (s.xn s.focus.region).slots ++ [e.2] }) ∧
    (∃ t, exec (.mxldb w) s = .next t ∧ sameButXn s t ∧
      t.xn s.focus.region = { s.xn s.focus.region with
        ldb := ⟨true, false, bufferOf (s.xn s.focus.region) w.bsel, w.mfmt.toNat, w.spbase.toNat, 0⟩
        slots := (s.xn s.focus.region).slots ++ [{ xSlot s w.stg .ldb 1 with fmt := w.mfmt.toNat, buf := bufferOf (s.xn s.focus.region) w.bsel, spbase := w.spbase.toNat }] }) ∧
    (64 ≤ (s.xn s.focus.region).c.toks.length →
      ∃ t, exec (.mxacc w) s = .next t ∧ t = { s with regions := t.regions, seq := t.seq } ∧
        (∀ r, r ≠ s.focus.region → t.region r = s.region r) ∧
        (∀ m, m = t.mn s.focus.region → t.region s.focus.region = { s.region s.focus.region with xn := t.xn s.focus.region, mn := m } ∧
          m = { s.mn s.focus.region with acqs := m.acqs, acqStamp := m.acqStamp }) ∧
        t.xn s.focus.region = { s.xn s.focus.region with
          c := { toks := (s.xn s.focus.region).c.toks.drop 64, freed := (s.xn s.focus.region).c.freed + 64 }
          slots := (s.xn s.focus.region).slots ++ [{ xSlot s w.stg .acc 8 with tag := s.mxTag (issue s w.stg) w 0, vals := ((s.xn s.focus.region).c.toks.take 64).map (fun q => q.tok.data) }] }) ∧
    exec (.mxnop w) s = .next s

/-- R37, R183 to R189, R194 to R200, R202, R285: the matrix words. -/
def Obligations.MatrixWords : Prop := Spec.MatrixFirings ∧ Spec.MatrixFormatCheck ∧ Spec.MatrixSlotWords

/-- R155, R189, R191: in a dead iteration every word of a matrix node but MXNOP takes its slot as well, of an iteration that is not live,
and does nothing else. -/
def Sys2Proof.Spec.DeadMatrixWords : Prop :=
  ∀ (w : Mx) (s : State), Issues s w.stg w.grd → (issue s w.stg).live = false →
    (∀ e ∈ [(Instr.mxcfg, { xSlot s w.stg .cfg 1 with fmt := w.mfmt.toNat }),
            (Instr.mxclr, { xSlot s w.stg .clr 1 with tag := s.mxTag (issue s w.stg) w 0 }),
            (Instr.mxswb, { xSlot s w.stg .swb 1 with buf := w.bsel.toNat }),
            (Instr.mxstat, { xSlot s w.stg .stat 1 with vals := [(s.xn s.focus.region).stat] }),
            (Instr.mxdrn, xSlot s w.stg .drn 6), (Instr.mxldb, xSlot s w.stg .ldb 1), (Instr.mxacc, xSlot s w.stg .acc 8)],
      ∃ t, exec (e.1 w) s = .next t ∧ sameButXn s t ∧
        t.xn s.focus.region = { s.xn s.focus.region with slots := (s.xn s.focus.region).slots ++ [e.2] }) ∧
    (w.mfmt.toNat % 8 = (s.xn s.focus.region).cfmt → ∀ e ∈ [(Instr.mxrow, xSlot s w.stg .row 8), (Instr.mxrows, xSlot s w.stg .rows 8)],
      ∃ t, exec (e.1 w) s = .next t ∧ sameButXn s t ∧
        t.xn s.focus.region = { s.xn s.focus.region with slots := (s.xn s.focus.region).slots ++ [e.2] })

/-- R38, R67, R127, R155, R189: words that do not issue, and node words of a dead iteration, of which an atomic takes a slot that lands 0 by the reading of log 85. -/
def Obligations.IdleAndDeadWords : Prop := Spec.IdleWords ∧ Spec.DeadNodeWords ∧ Spec.DeadMatrixWords

namespace Sys2Proof.Spec
open Sys2Proof.Machine

/-! ## The cluster controllers (R42 to R45, R180, R242 to R261) -/

/-- Controller c retires its instruction with v in rd: its pc moves past the instruction, instret counts it, x0 stays, and nothing
else of the state u changes (R42, R43). -/
structure Retired (u t : State) (c : Nat) (rd : Reg) (v : W64) : Prop where
  rest : t = { u with clusters := t.clusters }
  others : ∀ d, d ≠ c → t.cluster d = u.cluster d
  cluster : t.cluster c = { u.cluster c with ctl := t.ctl c }
  ctl : t.ctl c = { u.ctl c with x := (t.ctl c).x, pc := (u.ctl c).pc + (if (u.ctl c).comp then 2 else 4), instret := (u.ctl c).instret + 1, st := .running }
  regs : ∀ n, (t.ctl c).reg n = if n = rd ∧ n ≠ 0 then v else (u.ctl c).reg n

/-- Controller c goes on waiting at its instruction: nothing else changes (R25). -/
structure Waits (u t : State) (c : Nat) : Prop where
  rest : t = { u with clusters := t.clusters }
  others : ∀ d, d ≠ c → t.cluster d = u.cluster d
  cluster : t.cluster c = { u.cluster c with ctl := t.ctl c }
  ctl : t.ctl c = { u.ctl c with st := .waiting, waitFrom := (t.ctl c).waitFrom }

/-- Only cluster c changes from s to u, and of it only what `f` takes over. -/
structure OnlyCluster (s u : State) (c : Nat) (f : Cluster → Cluster → Cluster) : Prop where
  rest : u = { s with clusters := u.clusters }
  others : ∀ d, d ≠ c → u.cluster d = s.cluster d
  cluster : u.cluster c = f (s.cluster c) (u.cluster c)

/-- What a translation may change: translation caches (R352), and the gauge that counts its table reads (R355), for which free values may
be taken. -/
structure OnlyTlbs (s u : State) : Prop where
  rest : u = { s with clusters := u.clusters, dies := u.dies, choices := u.choices }
  clusters : ∀ c, u.cluster c = { s.cluster c with tlb := (u.cluster c).tlb, gauges := (u.cluster c).gauges }
  dies : ∀ d, u.die d = { s.die d with txc := (u.die d).txc }

/-- An acquire of controller c at a scope: the data cache is emptied, at die scope or wider the stamp of its reads is renewed
(R178, R180). -/
structure Acquired (s u : State) (c scope : Nat) : Prop where
  rest : u = { s with clusters := u.clusters, seq := s.seq + 1 }
  others : ∀ d, d ≠ c → u.cluster d = s.cluster d
  cluster : u.cluster c = { s.cluster c with ctl := { s.ctl c with dcache := [], acqStamp := if 3 ≤ scope then s.seq else (s.ctl c).acqStamp } }

/-- Sign extension of the low w bits to 64. -/
def sx (w x : Nat) : Nat := wrap 64 (sgn w (x % 2 ^ w))

/-- The result of a register-register operation, over natural numbers (the RISC-V unprivileged specification, R42). -/
def aluSpec (op : AluOp) (a b : Nat) : Nat :=
  let al := a % 2 ^ 32
  let bl := b % 2 ^ 32
  match op with
  | .add => (a + b) % 2 ^ 64
  | .sub => wrap 64 (a - b)
  | .sll => a * 2 ^ (b % 64) % 2 ^ 64
  | .slt => if sgn 64 a < sgn 64 b then 1 else 0
  | .sltu => if a < b then 1 else 0
  | .xor => a ^^^ b
  | .srl => a / 2 ^ (b % 64)
  | .sra => wrap 64 (sgn 64 a / 2 ^ (b % 64))
  | .or => a ||| b
  | .and => a &&& b
  | .addw => sx 32 (a + b)
  | .subw => sx 32 (wrap 32 (a - b))
  | .sllw => sx 32 (a * 2 ^ (b % 32))
  | .srlw => sx 32 (al / 2 ^ (b % 32))
  | .sraw => wrap 64 (sgn 32 al / 2 ^ (b % 32))
  | .mul => a * b % 2 ^ 64
  | .mulh => wrap 64 (sgn 64 a * sgn 64 b / 2 ^ 64)
  | .mulhsu => wrap 64 (sgn 64 a * b / 2 ^ 64)
  | .mulhu => a * b / 2 ^ 64
  | .div => if b = 0 then 2 ^ 64 - 1 else wrap 64 (Int.tdiv (sgn 64 a) (sgn 64 b))
  | .divu => if b = 0 then 2 ^ 64 - 1 else a / b
  | .rem => if b = 0 then a else wrap 64 (Int.tmod (sgn 64 a) (sgn 64 b))
  | .remu => if b = 0 then a else a % b
  | .mulw => sx 32 (a * b)
  | .divw => if bl = 0 then 2 ^ 64 - 1 else wrap 64 (sgn 32 (wrap 32 (Int.tdiv (sgn 32 al) (sgn 32 bl))))
  | .divuw => if bl = 0 then 2 ^ 64 - 1 else sx 32 (al / bl)
  | .remw => if bl = 0 then sx 32 a else wrap 64 (Int.tmod (sgn 32 al) (sgn 32 bl))
  | .remuw => if bl = 0 then sx 32 a else sx 32 (al % bl)
  | .addUw => (b + al) % 2 ^ 64
  | .sh1add => (b + 2 * a) % 2 ^ 64
  | .sh2add => (b + 4 * a) % 2 ^ 64
  | .sh3add => (b + 8 * a) % 2 ^ 64
  | .sh1addUw => (b + 2 * al) % 2 ^ 64
  | .sh2addUw => (b + 4 * al) % 2 ^ 64
  | .sh3addUw => (b + 8 * al) % 2 ^ 64
  | .andn => a &&& (2 ^ 64 - 1 - b)
  | .orn => a ||| (2 ^ 64 - 1 - b)
  | .xnor => 2 ^ 64 - 1 - (a ^^^ b)
  | .min => if sgn 64 a ≤ sgn 64 b then a else b
  | .max => if sgn 64 a ≤ sgn 64 b then b else a
  | .minu => min a b
  | .maxu => max a b
  | .rol => (a * 2 ^ (b % 64) + a / 2 ^ (64 - b % 64)) % 2 ^ 64
  | .ror => (a / 2 ^ (b % 64) + a * 2 ^ (64 - b % 64)) % 2 ^ 64
  | .rolw => sx 32 (al * 2 ^ (b % 32) + al / 2 ^ (32 - b % 32))
  | .rorw => sx 32 (al / 2 ^ (b % 32) + al * 2 ^ (32 - b % 32))
  | .zextH => a % 2 ^ 16

/-- The result of a register-immediate operation; i is the sign-extended immediate, n its low bits as a shift amount. -/
def aluiSpec (op : AluiOp) (a : Nat) (imm : BitVec 12) : Nat :=
  let i := sx 12 imm.toNat
  let n := imm.toNat % 64
  let m := imm.toNat % 32
  let al := a % 2 ^ 32
  match op with
  | .addi => (a + i) % 2 ^ 64
  | .slti => if sgn 64 a < sgn 12 imm.toNat then 1 else 0
  | .sltiu => if a < i then 1 else 0
  | .xori => a ^^^ i
  | .ori => a ||| i
  | .andi => a &&& i
  | .addiw => sx 32 (a + i)
  | .slli => a * 2 ^ n % 2 ^ 64
  | .srli => a / 2 ^ n
  | .srai => wrap 64 (sgn 64 a / 2 ^ n)
  | .slliw => sx 32 (a * 2 ^ m)
  | .srliw => sx 32 (al / 2 ^ m)
  | .sraiw => wrap 64 (sgn 32 al / 2 ^ m)
  | .slliUw => al * 2 ^ n % 2 ^ 64
  | .rori => (a / 2 ^ n + a * 2 ^ (64 - n)) % 2 ^ 64
  | .roriw => sx 32 (al / 2 ^ m + al * 2 ^ (32 - m))

/-- What the result v of a one-operand operation of Zbb satisfies. -/
def unSpec (op : UnOp) (a v : Nat) : Prop :=
  match op with
  | .clz => v ≤ 64 ∧ a < 2 ^ (64 - v) ∧ (v < 64 → 2 ^ (63 - v) ≤ a)
  | .clzw => v ≤ 32 ∧ a % 2 ^ 32 < 2 ^ (32 - v) ∧ (v < 32 → 2 ^ (31 - v) ≤ a % 2 ^ 32)
  | .ctz => v ≤ 64 ∧ a % 2 ^ v = 0 ∧ (v < 64 → a.testBit v = true)
  | .ctzw => v ≤ 32 ∧ a % 2 ^ v = 0 ∧ (v < 32 → a.testBit v = true)
  | .cpop => v = (List.range 64).countP a.testBit
  | .cpopw => v = (List.range 32).countP a.testBit
  | .sextB => v = sx 8 a
  | .sextH => v = sx 16 a
  | .rev8 => ∀ j, j < 8 → lane 8 j v = lane 8 (7 - j) a
  | .orcB => ∀ j, j < 8 → lane 8 j v = if lane 8 j a = 0 then 0 else 255

/-- When a branch is taken. -/
def takenSpec (op : BrOp) (a b : Nat) : Prop :=
  match op with
  | .beq => a = b
  | .bne => a ≠ b
  | .blt => sgn 64 a < sgn 64 b
  | .bge => sgn 64 b ≤ sgn 64 a
  | .bltu => a < b
  | .bgeu => b ≤ a

/-- A jump of controller c: the address after the instruction goes to rd, and the pc to the target (R42). -/
structure Jumped (s t : State) (c : Nat) (rd : Reg) (target : Nat) : Prop where
  rest : t = { s with clusters := t.clusters }
  others : ∀ d, d ≠ c → t.cluster d = s.cluster d
  cluster : t.cluster c = { s.cluster c with ctl := t.ctl c }
  ctl : t.ctl c = { s.ctl c with x := (t.ctl c).x, pc := BitVec.ofNat 64 target, instret := (s.ctl c).instret + 1, st := .running }
  regs : ∀ n, (t.ctl c).reg n = if n = rd ∧ n ≠ 0 then (s.ctl c).pc + (if (s.ctl c).comp then 2 else 4) else (s.ctl c).reg n

/-- The trap of controller c with a cause code, an address and information: its record names the instruction and the pc, the
controller stops at the instruction with its registers as they were, its reservation goes, and its run, if it has no error yet, ends in
error with cause TRAP (R346 to R348). Memory is as before. -/
structure Trapped (s t : State) (c code : Nat) (addr info : W64) : Prop where
  regs : ∀ n, (t.ctl c).reg n = (s.ctl c).reg n
  pc : (t.ctl c).pc = (s.ctl c).pc
  stopped : (t.ctl c).st = .stopped
  cause : (t.ctl c).trap.cause.toNat = code
  record : (t.ctl c).trap.pc = (s.ctl c).pc ∧ (t.ctl c).trap.addr = addr ∧ (t.ctl c).trap.info = info ∧
    (t.ctl c).trap.tick = (s.die (c / 64)).tick ∧ (t.ctl c).trap.cluster.toNat = (s.cluster c).idx % 2 ^ 16 ∧
    (t.ctl c).trap.insn = if (s.ctl c).comp then (s.ctl c).insn &&& 0xFFFF else (s.ctl c).insn
  valid : (t.ctl c).trap.flags = if (s.ctl c).comp then 9 else 1
  run : ∀ r, (s.cluster c).owner = some r → (s.run r).err = none →
    (t.run r).phase = .erring ∧ ((t.run r).err.map (·.cause)) = some 15 ∧
    (t.run r).traps.find? (s.cluster c).idx = some (t.ctl c).trap.bytes
  others : ∀ d, d ≠ c → t.cluster d = s.cluster d
  resv : ∀ x ∈ t.resvs, x.1 ≠ c
  rest : t.mem = s.mem ∧ t.slices = s.slices ∧ t.regions = s.regions ∧ t.pages = s.pages ∧ t.dies = s.dies ∧ t.msgs = s.msgs ∧ t.tenants = s.tenants

/-- The loads and stores: bytes, and the value of a load's bytes. -/
def loadBytes : LoadKind → Nat
  | .lb => 1 | .lbu => 1 | .lh => 2 | .lhu => 2 | .lw => 4 | .lwu => 4 | .ld => 8
def loaded (k : LoadKind) (raw : Nat) : Nat :=
  match k with
  | .lb => sx 8 raw | .lh => sx 16 raw | .lw => sx 32 raw | _ => raw
def storeBytes : StoreKind → Nat
  | .sb => 1 | .sh => 2 | .sw => 4 | .sd => 8

/-- The little-endian value of n bytes of memory (R5). -/
def littleEndian (m : List Host.Cell) (a n : Nat) : Nat := ∑ j ∈ Finset.range n, (memGet m (a + j)).toNat * 256 ^ j

/-- The address of a base register and a 12-bit displacement. -/
def ea (s : State) (rs1 : Reg) (imm : BitVec 12) : Nat := ((s.reg s.focus.cluster rs1).toNat + sx 12 imm.toNat) % 2 ^ 64

/-- A physical range outside HBM, which no slice holds. -/
def Uncached (p : Piece) : Prop := ∀ d, targetOf p.pa ≠ .hbm d

/-- No die that has fenced itself stands between cluster c and a place in host memory (R316). -/
def HostOpen (s : State) (c : Nat) (p : Piece) : Prop :=
  targetOf p.pa = .host → (s.die (c / 64)).fenced = false ∧
    ∀ run, (s.cluster c).owner = some run → (s.die (s.tenant (s.run run).tenant).port).fenced = false

/-- Memory, where it is in its canonical form, after n bytes of a value are stored at an address: those bytes, and every other as
before. -/
def Stored (s t : State) (a n v : Nat) : Prop :=
  t.slices = s.slices ∧ t.granules = s.granules ∧
  (s.memOk → ∀ x, memGet t.mem x = if a ≤ x ∧ x < a + n then BitVec.ofNat 8 (v / 256 ^ (x - a)) else memGet s.mem x)

/-- The new value of an atomic of w bits (R161). -/
def amoSpec (op : AmoOp) (w old b : Nat) : Nat :=
  match op with
  | .swap => b % 2 ^ w
  | .add => (old + b) % 2 ^ w
  | .xor => old ^^^ (b % 2 ^ w)
  | .and => old &&& (b % 2 ^ w)
  | .or => old ||| (b % 2 ^ w)
  | .min => if sgn w old ≤ sgn w (b % 2 ^ w) then old else b % 2 ^ w
  | .max => if sgn w old ≤ sgn w (b % 2 ^ w) then b % 2 ^ w else old
  | .minu => min old (b % 2 ^ w)
  | .maxu => max old (b % 2 ^ w)

/-- Controller c retires after a store of its own: of its cluster, its caches and the bank words held for it may differ as well. -/
structure RetiredMem (s t : State) (c : Nat) (rd : Reg) (v : W64) : Prop where
  rest : t = { s with clusters := t.clusters, mem := t.mem, resvs := t.resvs, seq := t.seq }
  others : ∀ d, d ≠ c → t.ctl d = s.ctl d
  ctl : t.ctl c = { s.ctl c with x := (t.ctl c).x, pc := (s.ctl c).pc + (if (s.ctl c).comp then 2 else 4), instret := (s.ctl c).instret + 1, st := .running, dcache := (t.ctl c).dcache, acqStamp := (t.ctl c).acqStamp }
  clusters : ∀ d, t.cluster d = { s.cluster d with ctl := t.ctl d, bankHold := (t.cluster d).bankHold }
  regs : ∀ n, (t.ctl c).reg n = if n = rd ∧ n ≠ 0 then v else (s.ctl c).reg n

/-- The trap of an access that its check refuses: the cause, the address and the info, with w 1 for a write (R346, R348). -/
def refusalTrap (e : AccErr) (w : Nat) : TrapCause × Nat × Nat :=
  match e with
  | .translation va level reason => (.translation, va, level + 16 * reason + 256 * w)
  | .access va kind => (.access, va, kind + 8 * w)

/-- The copy of the line of p in the home root slice of cluster c's own die, which has not fenced itself; the line's granule holds that key. -/
def HomeCopy (s : State) (c : Nat) (p : Piece) : Prop :=
  ¬ Uncached p ∧ s.granules.find? (p.pa / 4096) = some p.key ∧ c / 64 = p.pa / 0x4000000000 ∧ (s.die (c / 64)).fenced = false ∧
  ∃ l, (s.slice (rootSlice (c / 64))).line? (p.pa / 128 * 128) p.key = some l ∧ l.data.length = 128

/-- Controller c has retired with value v in rd: the pc is past the instruction. -/
def CtlRetired (s t : State) (c : Nat) (rd : Reg) (v : W64) : Prop :=
  (t.ctl c).pc = (s.ctl c).pc + (if (s.ctl c).comp then 2 else 4) ∧ (t.ctl c).instret = (s.ctl c).instret + 1 ∧
  ∀ n, (t.ctl c).reg n = if n = rd ∧ n ≠ 0 then v else (s.ctl c).reg n

/-- HBM holds value v in the n bytes at p, and everything else as before. -/
def HomeStored (s t : State) (p : Piece) (n v : Nat) : Prop :=
  t.mem = s.mem ∧ ∀ key x, (∃ d, targetOf x = .hbm d) → t.homeByte key x =
    if key = p.key ∧ p.pa ≤ x ∧ x < p.pa + n then BitVec.ofNat 8 (v / 256 ^ (x - p.pa)) else s.homeByte key x

end Sys2Proof.Spec

/-- R42: the integer instructions, upper immediates, jumps and branches of RV64IMC with Zba and Zbb. -/
def Sys2Proof.Spec.StandardInteger : Prop :=
  ∀ (s : State) (c : Nat), c = s.focus.cluster →
    (∀ op rd rs1 rs2, ∃ t v, exec (.standardInstruction (.alu op rd rs1 rs2)) s = .next t ∧ Retired s t c rd v ∧
      v.toNat = aluSpec op (s.reg c rs1).toNat (s.reg c rs2).toNat) ∧
    (∀ op rd rs1 imm, ∃ t v, exec (.standardInstruction (.alui op rd rs1 imm)) s = .next t ∧ Retired s t c rd v ∧
      v.toNat = aluiSpec op (s.reg c rs1).toNat imm) ∧
    (∀ op rd rs1, ∃ t v, exec (.standardInstruction (.unary op rd rs1)) s = .next t ∧ Retired s t c rd v ∧ unSpec op (s.reg c rs1).toNat v.toNat) ∧
    (∀ rd imm, ∃ t v, exec (.standardInstruction (.lui rd imm)) s = .next t ∧ Retired s t c rd v ∧ v.toNat = sx 32 (imm.toNat * 2 ^ 12)) ∧
    (∀ rd imm, ∃ t v, exec (.standardInstruction (.auipc rd imm)) s = .next t ∧ Retired s t c rd v ∧
      v.toNat = ((s.ctl c).pc.toNat + sx 32 (imm.toNat * 2 ^ 12)) % 2 ^ 64) ∧
    (∀ rd off, ∃ t, exec (.standardInstruction (.jal rd off)) s = .next t ∧ Jumped s t c rd ((s.ctl c).pc.toNat + sx 21 off.toNat)) ∧
    (∀ rd rs1 imm, ∃ t, exec (.standardInstruction (.jalr rd rs1 imm)) s = .next t ∧
      Jumped s t c rd (((s.reg c rs1).toNat + sx 12 imm.toNat) % 2 ^ 64 / 2 * 2)) ∧
    (∀ op rs1 rs2 off, ∃ t, exec (.standardInstruction (.branch op rs1 rs2 off)) s = .next t ∧
      (takenSpec op (s.reg c rs1).toNat (s.reg c rs2).toNat → Jumped s t c 0 ((s.ctl c).pc.toNat + sx 13 off.toNat)) ∧
      (¬ takenSpec op (s.reg c rs1).toNat (s.reg c rs2).toNat → Retired s t c 0 0))

/-- R42: only reads of the cycle, time and instret CSRs are legal; a set or clear of no bits is a read. Any other CSR access takes an
illegal-instruction trap. -/
def Sys2Proof.Spec.CsrReads : Prop :=
  ∀ (s : State) (c : Nat) (rd : Reg), c = s.focus.cluster → ∀ op num rs1,
    ((op = .rs ∨ op = .rc ∨ op = .rsi ∨ op = .rci) ∧ rs1 = 0 ∧ num.toNat ∈ [0xC00, 0xC01, 0xC02] →
      ∃ t, exec (.standardInstruction (.csr op rd rs1 num)) s = .next t ∧
        Retired s t c rd (if num.toNat = 0xC00 then (s.ctl c).cycle else if num.toNat = 0xC01 then (s.die (c / 64)).tick else (s.ctl c).instret)) ∧
    (op = .rw ∨ op = .rwi ∨ rs1 ≠ 0 ∨ num.toNat ∉ [0xC00, 0xC01, 0xC02] →
      exec (.standardInstruction (.csr op rd rs1 num)) s = exec (.controllerTrap c .illegal 0 0) s)

/-- R42: the integer instructions, jumps, branches and CSR accesses of the controllers. -/
def Obligations.StandardInstructions : Prop := Spec.StandardInteger ∧ Spec.CsrReads

/-- R346 to R348: what taking a trap other than TIMING or MSGOVF does to a controller that runs or waits. -/
def Obligations.TrapEntry : Prop :=
  ∀ e ∈ [(TrapCause.illegal, 1), (.access, 2), (.translation, 3), (.misalign, 4)], ∀ (s : State) (c : Nat) (addr info : W64),
    ((s.ctl c).st = .running ∨ (s.ctl c).st = .waiting) →
    ∃ t, exec (.controllerTrap c e.1 addr info) s = .next t ∧ Trapped s t c e.2 addr info

/-- R352, R355: translating an access changes translation caches and the HBM gauge alone. -/
def Obligations.TranslationChangesCachesAlone : Prop :=
  ∀ (s : State) (c tenant : Nat) (kind : AccKind) (allow : Target → Bool) (va n : Nat), OnlyTlbs s (s.place c tenant kind allow va n).2

/-- R180, R346: a load, store or atomic whose address is not a multiple of its size takes a misalignment trap with the address and
the size, before any part of it is made. -/
def Sys2Proof.Spec.MisalignedAccesses : Prop :=
  ∀ (s : State) (c : Nat), c = s.focus.cluster →
    (∀ k rd rs1 imm, (k = .ld → (s.ctl c).half = none) → ea s rs1 imm % loadBytes k ≠ 0 → exec (.controllerLoad k rd rs1 imm) s =
      exec (.controllerTrap c .misalign (BitVec.ofNat 64 (ea s rs1 imm)) (BitVec.ofNat 64 (loadBytes k))) s) ∧
    (∀ k rs1 rs2 imm, (k = .sd → (s.ctl c).half = none) → ea s rs1 imm % storeBytes k ≠ 0 → exec (.controllerStore k rs1 rs2 imm) s =
      exec (.controllerTrap c .misalign (BitVec.ofNat 64 (ea s rs1 imm)) (BitVec.ofNat 64 (storeBytes k))) s) ∧
    (∀ op dbl aq rl rd rs1 rs2, ∀ i ∈ [Instr.amo op dbl aq rl rd rs1 rs2, Instr.lr dbl aq rl rd rs1, Instr.sc dbl aq rl rd rs1 rs2],
      (s.reg c rs1).toNat % (if dbl then 8 else 4) ≠ 0 →
      exec i s = exec (.controllerTrap c .misalign (s.reg c rs1) (if dbl then 8 else 4)) s)

/-- R346, R348: a load, store or atomic whose aligned address its translation or its target refuses takes the trap that says so, and makes no
access. -/
def Sys2Proof.Spec.RefusedAccesses : Prop :=
  ∀ (s s₁ : State) (c : Nat) (e : AccErr), c = s.focus.cluster →
    (∀ k rd rs1 imm, (k = .ld → (s.ctl c).half = none) → ea s rs1 imm % loadBytes k = 0 →
      s.place c (s.tenantOf c) .read plainTarget (ea s rs1 imm) (loadBytes k) = (.error e, s₁) → ∀ r, r = refusalTrap e 0 →
      exec (.controllerLoad k rd rs1 imm) s = exec (.controllerTrap c r.1 (BitVec.ofNat 64 r.2.1) (BitVec.ofNat 64 r.2.2)) s₁) ∧
    (∀ k rs1 rs2 imm, (k = .sd → (s.ctl c).half = none) → ea s rs1 imm % storeBytes k = 0 →
      s.place c (s.tenantOf c) .write plainTarget (ea s rs1 imm) (storeBytes k) = (.error e, s₁) → ∀ r, r = refusalTrap e 1 →
      exec (.controllerStore k rs1 rs2 imm) s = exec (.controllerTrap c r.1 (BitVec.ofNat 64 r.2.1) (BitVec.ofNat 64 r.2.2)) s₁) ∧
    (∀ op dbl aq rl rd rs1 rs2, ∀ x ∈ [(Instr.amo op dbl aq rl rd rs1 rs2, AccKind.write, 1), (Instr.lr dbl aq rl rd rs1, .read, 0), (Instr.sc dbl aq rl rd rs1 rs2, .write, 1)],
      (s.reg c rs1).toNat % (if dbl then 8 else 4) = 0 →
      s.place c (s.tenantOf c) x.2.1 amoTarget (s.reg c rs1).toNat (if dbl then 8 else 4) = (.error e, s₁) → ∀ r, r = refusalTrap e x.2.2 →
      exec x.1 s = exec (.controllerTrap c r.1 (BitVec.ofNat 64 r.2.1) (BitVec.ofNat 64 r.2.2)) s₁)

/-- R180: a load of up to 4 bytes that translates delivers the bytes of its location, zero- or sign-extended: outside HBM those of
memory, in HBM those that the data cache gives. -/
def Sys2Proof.Spec.ControllerLoads : Prop :=
  ∀ (s s₁ : State) (c : Nat) (k : LoadKind) (rd rs1 : Reg) (imm : BitVec 12) (p : Piece), c = s.focus.cluster → k ≠ .ld →
    ea s rs1 imm % loadBytes k = 0 →
    s.place c (s.tenantOf c) .read plainTarget (ea s rs1 imm) (loadBytes k) = (.ok [p], s₁) →
    ∃ t v, exec (.controllerLoad k rd rs1 imm) s = .next t ∧ v.toNat = loaded k (ofBytes (s₁.ctlRead c p).1) ∧ Retired (s₁.ctlRead c p).2 t c rd v ∧
      (Uncached p → ofBytes (s₁.ctlRead c p).1 = littleEndian s.mem p.pa (loadBytes k) ∧ (s₁.ctlRead c p).2 = s₁) ∧
      (∀ l, (s.ctl c).dcache.find? (fun l => l.addr == p.pa / 128 * 128 && l.key == p.key) = some l → ¬ Uncached p →
        (s₁.ctlRead c p).1 = (l.data.drop (p.pa % 128)).take (loadBytes k) ∧ (s₁.ctlRead c p).2 = s₁)

/-- R167, R180: LD and SD are two accesses of 4 bytes each, in an order that is left free. The first leaves the instruction in progress
with the bytes read, if it reads; the second retires it, LD with the bytes of both halves. -/
def Sys2Proof.Spec.DoublewordAccesses : Prop :=
  ∀ (s : State) (c : Nat) (rd rs1 rs2 : Reg) (imm : BitVec 12), c = s.focus.cluster →
    ((s.ctl c).half = none → ea s rs1 imm % 8 = 0 → ∀ (s₁ : State) (p : Piece),
      (s.place c (s.tenantOf c) .read plainTarget (ea s rs1 imm) 8 = (.ok [p], s₁) → ∃ hi t, ∀ u q r,
        u = { s₁ with choices := s₁.choices + 1 } → q = Piece.mk (if hi then p.pa + 4 else p.pa) 4 p.key → r = u.ctlRead c q →
        exec (.controllerLoad .ld rd rs1 imm) s = .next t ∧ t = r.2.setCtl c { r.2.ctl c with half := some ⟨p.pa, p.key, hi, r.1⟩ } ∧
        (Uncached q → ofBytes r.1 = littleEndian s.mem q.pa 4 ∧ r.2 = u)) ∧
      (s.place c (s.tenantOf c) .write plainTarget (ea s rs1 imm) 8 = (.ok [p], s₁) → ∃ hi t, ∀ q, q = Piece.mk (if hi then p.pa + 4 else p.pa) 4 p.key →
        exec (.controllerStore .sd rs1 rs2 imm) s = .next t ∧ (t.ctl c).half = some ⟨p.pa, p.key, hi, []⟩ ∧ (t.ctl c).st = (s.ctl c).st ∧
        (t.ctl c).x = (s.ctl c).x ∧ (t.ctl c).pc = (s.ctl c).pc ∧ (t.ctl c).instret = (s.ctl c).instret ∧
        (Uncached q → HostOpen s c q → Stored s t q.pa 4 ((s.reg c rs2).toNat / (if hi then 2 ^ 32 else 1))))) ∧
    (∀ h q, (s.ctl c).half = some h → q = Piece.mk (if h.hi then h.pa else h.pa + 4) 4 h.key →
      (∃ t v, ∀ r, r = s.ctlRead c q → exec (.controllerLoad .ld rd rs1 imm) s = .next t ∧
        v.toNat = ofBytes (if h.hi then r.1 ++ h.data else h.data ++ r.1) % 2 ^ 64 ∧
        Retired (r.2.setCtl c { r.2.ctl c with half := none }) t c rd v ∧ (Uncached q → ofBytes r.1 = littleEndian s.mem q.pa 4 ∧ r.2 = s)) ∧
      (∃ t, exec (.controllerStore .sd rs1 rs2 imm) s = .next t ∧ (t.ctl c).half = none ∧ (t.ctl c).st = .running ∧
        (t.ctl c).x = (s.ctl c).x ∧ (t.ctl c).pc = (s.ctl c).pc + (if (s.ctl c).comp then 2 else 4) ∧ (t.ctl c).instret = (s.ctl c).instret + 1 ∧
        (Uncached q → HostOpen s c q → Stored s t q.pa 4 ((s.reg c rs2).toNat / (if h.hi then 1 else 2 ^ 32)))))

/-- R180, R316: a store of up to 4 bytes that translates writes its bytes and no other byte, breaks the other controllers' reservations
that it reaches, and retires. In HBM, its home root slice's copy takes the bytes; here the copy is there, the controller's die is its home,
and that die has not fenced itself. A die that has fenced itself blocks stores to its HBM and, where it is the controller's own, to the
host. -/
def Sys2Proof.Spec.ControllerStores : Prop :=
  ∀ (s s₁ : State) (c : Nat) (k : StoreKind) (rs1 rs2 : Reg) (imm : BitVec 12) (p : Piece), c = s.focus.cluster → k ≠ .sd →
    ea s rs1 imm % storeBytes k = 0 →
    s.place c (s.tenantOf c) .write plainTarget (ea s rs1 imm) (storeBytes k) = (.ok [p], s₁) →
    ∃ t, exec (.controllerStore k rs1 rs2 imm) s = .next t ∧
      (∀ x ∈ t.resvs, x ∈ s.resvs ∧ (x.1 = c ∨ p.pa + storeBytes k ≤ x.2 ∨ x.2 + 64 ≤ p.pa)) ∧
      (Uncached p → RetiredMem s₁ t c 0 0 ∧ (HostOpen s c p → Stored s t p.pa (storeBytes k) (s.reg c rs2).toNat)) ∧
      (p.pa % storeBytes k = 0 → (targetOf p.pa = .host ∧ (s.die (c / 64)).fenced = true ∨ ∃ d, targetOf p.pa = .hbm d ∧ (s.die d).fenced = true) →
        t.mem = s.mem ∧ t.slices = s.slices ∧ t.granules = s.granules) ∧
      (HomeCopy s c p → p.pa % storeBytes k = 0 →
        (t.ctl c).pc = (s.ctl c).pc + (if (s.ctl c).comp then 2 else 4) ∧ (∀ n, (t.ctl c).reg n = (s.ctl c).reg n) ∧ t.mem = s.mem ∧
        ∀ key x, (∃ d, targetOf x = .hbm d) → t.homeByte key x =
          if key = p.key ∧ p.pa ≤ x ∧ x < p.pa + storeBytes k then BitVec.ofNat 8 ((s.reg c rs2).toNat / 256 ^ (x - p.pa)) else s.homeByte key x)

/-- R167, R180, R346: the loads and stores of the controllers. -/
def Obligations.ControllerAccesses : Prop := Spec.MisalignedAccesses ∧ Spec.RefusedAccesses ∧ Spec.ControllerLoads ∧ Spec.DoublewordAccesses ∧ Spec.ControllerStores

/-- R161, R162, R169, R180: AMO delivers the old value and stores the new one; LR delivers the value and reserves the aligned 64 bytes; SC
stores and delivers 0 while the reservation holds, else delivers 1 and stores nothing; that it drops the reservation either way is the
model's choice (log 61). Outside HBM, and in HBM at the
home root slice, here with the copy there and the controller on the home die. -/
def Obligations.ControllerAtomics : Prop :=
  ∀ (s s₁ : State) (c n : Nat) (dbl aq rl : Bool) (rd rs1 rs2 : Reg) (p : Piece), c = s.focus.cluster → n = (if dbl then 8 else 4) →
    (s.reg c rs1).toNat % n = 0 →
    (∀ op, s.place c (s.tenantOf c) .write amoTarget (s.reg c rs1).toNat n = (.ok [p], s₁) →
      ∃ t v, exec (.amo op dbl aq rl rd rs1 rs2) s = .next t ∧ (aq = true → (t.ctl c).dcache = []) ∧
        (Uncached p → RetiredMem s₁ t c rd v ∧ v.toNat = sx (8 * n) (littleEndian s.mem p.pa n) ∧
          Stored s t p.pa n (amoSpec op (8 * n) (littleEndian s.mem p.pa n) (s.reg c rs2).toNat)) ∧
        (∀ old, HomeCopy s c p → p.pa % n = 0 → old = ofBytes (s.homeBytes p.key p.pa n) → CtlRetired s t c rd v ∧ v.toNat = sx (8 * n) old ∧
          HomeStored s t p n (amoSpec op (8 * n) old (s.reg c rs2).toNat))) ∧
    (s.place c (s.tenantOf c) .read amoTarget (s.reg c rs1).toNat n = (.ok [p], s₁) →
      ∃ t v, exec (.lr dbl aq rl rd rs1) s = .next t ∧ t.resvs.find? c = some (p.pa / 64 * 64) ∧
        (Uncached p → t.mem = s.mem ∧ RetiredMem s₁ t c rd v ∧ v.toNat = sx (8 * n) (littleEndian s.mem p.pa n)) ∧
        (HomeCopy s c p → p.pa % n = 0 → t.mem = s.mem ∧ CtlRetired s t c rd v ∧ v.toNat = sx (8 * n) (ofBytes (s.homeBytes p.key p.pa n)) ∧
          ∀ key x, (∃ d, targetOf x = .hbm d) → t.homeByte key x = s.homeByte key x)) ∧
    (s.place c (s.tenantOf c) .write amoTarget (s.reg c rs1).toNat n = (.ok [p], s₁) →
      ∃ t, exec (.sc dbl aq rl rd rs1 rs2) s = .next t ∧ t.resvs.find? c = none ∧
        (s.resvs.find? c = some (p.pa / 64 * 64) →
          (Uncached p → RetiredMem s₁ t c rd 0 ∧ Stored s t p.pa n (s.reg c rs2).toNat) ∧
          (HomeCopy s c p → p.pa % n = 0 → CtlRetired s t c rd 0 ∧ HomeStored s t p n (s.reg c rs2).toNat)) ∧
        (s.resvs.find? c ≠ some (p.pa / 64 * 64) → RetiredMem s₁ t c rd 1 ∧ t.mem = s.mem))

/-- R168, R180, R260, R261: FENCE acquires at cluster scope, FENCE.S at its own, FENCE.I empties the instruction cache; IINV empties
those of the run's controllers in its scope. FENCE.S above scope 5 and IINV above 4 are illegal. -/
def Obligations.Fences : Prop :=
  ∀ (s : State) (c : Nat), c = s.focus.cluster →
    (∀ fm pred succ rs1 rd, ∃ u t, exec (.fence fm pred succ rs1 rd) s = .next t ∧ Acquired s u c 1 ∧ Retired u t c 0 0) ∧
    (∀ scope : Reg, scope.toNat ≤ 5 → ∃ u t, exec (.fenceS scope) s = .next t ∧ Acquired s u c scope.toNat ∧ Retired u t c 0 0) ∧
    (∀ scope : Reg, 5 < scope.toNat → exec (.fenceS scope) s = exec (.controllerTrap c .illegal 0 0) s) ∧
    (∀ imm rs1 rd, ∃ u t, exec (.fenceI imm rs1 rd) s = .next t ∧ Retired u t c 0 0 ∧
      OnlyCluster s u c (fun a _ => { a with ctl := { a.ctl with icache := [] } })) ∧
    (∀ scope : Reg, scope.toNat ≤ 4 → ∃ u t, exec (.iinv scope) s = .next t ∧ Retired u t c 0 0 ∧
      u = { s with clusters := u.clusters, seq := s.seq + 1 } ∧
      (∀ d, u.cluster d = { s.cluster d with ctl := { s.ctl d with icache := (u.ctl d).icache, fetchStamp := (u.ctl d).fetchStamp } }) ∧
      ∀ d ∈ (s.run (s.runOf c)).clusters,
        ((scope.toNat ≤ 1 ∧ d = c) ∨ (scope.toNat = 2 ∧ d / 4 = c / 4) ∨ (scope.toNat = 3 ∧ d / 64 = c / 64) ∨ scope.toNat = 4) →
        (u.ctl d).icache = [] ∧ (u.ctl d).fetchStamp = s.seq) ∧
    (∀ scope : Reg, 4 < scope.toNat → exec (.iinv scope) s = exec (.controllerTrap c .illegal 0 0) s)

namespace Sys2Proof.Spec
open Sys2Proof.Machine

/-! ## Semaphores, barriers, messages and handlers (R242 to R259) -/

/-- The cluster that an index field names for controller c: 0xFF its own (R242). -/
def Names (s : State) (c idx d : Nat) : Prop := (idx = 255 ∧ d = c) ∨ (idx < 255 ∧ (s.run (s.runOf c)).clusterAt idx = some d)

/-- The 64-bit state word of a handler entry (R254). -/
def entryWord (h : Handler) (pend : Bool) : Nat :=
  (h.mbase + h.logn * 2 ^ 24 + h.valid.toNat * 2 ^ 28 + h.en.toNat * 2 ^ 29 + pend.toNat * 2 ^ 30 + h.sem * 2 ^ 32 + h.semen.toNat * 2 ^ 38 +
    h.cred * 2 ^ 39 + h.widx % 4096 * 2 ^ 52) % 2 ^ 64

/-- A message is the next of its sender to its cluster, and the event names it (R244). -/
def NextMessage (s : State) (pre : List Msg) (m : Msg) (post : List Msg) : Prop :=
  s.msgs = pre ++ m :: post ∧ s.focus.num = m.ident ∧ (∀ k ∈ pre, k.ident ≠ m.ident ∧ ¬ (k.sender = m.sender ∧ k.dest = m.dest)) ∧
  ∀ k ∈ post, k.ident ≠ m.ident

/-- The places a controller's SIGST may write (R250). -/
def sigAllowed (s : State) (c : Nat) : Target → Bool := fun t => match t with
  | .hbm _ => true
  | .scratch d _ => (s.cluster d).owner == some (s.runOf c)
  | .slice n _ => n / 21 == dieOf c
  | _ => false

/-- The slice at a level on a cluster's path: its quad's, its group's, its die's root (R11, R262). -/
def pathSlice (c level : Nat) : Nat := if level = 0 then 21 * (c / 64) + c / 4 % 16 else if level = 1 then 21 * (c / 64) + 16 + c / 16 % 4 else 21 * (c / 64) + 20

/-- The modes of a slice's ways as one word (R263). -/
def modeWord (sl : Slice) : Nat := ∑ w ∈ Finset.range 16, sl.mode w * 4 ^ w

/-- An entry that is ready, and the one parked message that it lets go: the oldest of its tag, where it has one credit or no later message
has that tag; no other tag's parked message is ready (R257). -/
structure OneGoes (s : State) (c tag : Nat) (h : Handler) (pre post : List ParkMsg) (m : ParkMsg) : Prop where
  park : (s.cluster c).park = pre ++ m :: post
  oldest : m.tag = tag ∧ ∀ k ∈ pre, k.tag ≠ tag
  ready : h.valid = true ∧ h.en = true ∧ 0 < h.cred
  one : h.cred = 1 ∨ ∀ k ∈ post, k.tag ≠ tag
  others : ∀ k ∈ pre ++ post, k.tag ≠ tag → (s.handler c k.tag).valid = false ∨ (s.handler c k.tag).en = false ∨ (s.handler c k.tag).cred = 0
  fits : c < 192 ∧ h.mbase + 16 * 2 ^ h.logn ≤ 2 ^ 24

/-- A parked message has gone to the entry h of its tag: its record stands in the mailbox, the entry has one credit less, the message is
parked no more, and the tag stays pending while another message of it is parked (R257, R258). -/
structure Gone (s t : State) (c tag : Nat) (h : Handler) (pre post : List ParkMsg) (m : ParkMsg) : Prop where
  record : Stored s t (0x10000000000 + c * 2 ^ 24 + h.mbase + 16 * (h.widx % 2 ^ h.logn)) 16
    (m.payload.toNat + tag % 256 * 2 ^ 64 + m.sender % 2 ^ 16 * 2 ^ 80 + h.widx % 2 ^ 32 * 2 ^ 96)
  entry : ∀ n, t.handler c n = if n = tag then { h with widx := (h.widx + 1) % 2 ^ 32, cred := h.cred - 1 } else s.handler c n
  park : (t.cluster c).park = pre ++ post
  pending : ∀ n, t.pendBit c n = if n = tag then decide (∃ k ∈ post, k.tag = tag) else s.pendBit c n
  sems : ∀ k, t.sem c k = if h.semen = true ∧ k = h.sem then s.sem c k + 1 else s.sem c k

/-- The lines of every slice are whole, aligned, and each there once. -/
def LinesOk (s : State) : Prop :=
  ∀ n, (∀ k ∈ (s.slice n).lines, k.addr % 128 = 0 ∧ k.data.length = 128) ∧ ((s.slice n).lines.map (fun k => (k.addr, k.key))).Nodup

/-- The dirty lines of a slice that a write-back of these pieces takes: those of a piece in the slice whose root it is, unless the line's die has
fenced itself or its granule has another key (R268, R316, R399). -/
def WritesBack (s : State) (l : List Piece) (n : Nat) (k : Line) : Prop :=
  k ∈ (s.slice n).lines ∧ k.dirty = true ∧ (∃ p ∈ l, p.holds k = true ∧ p.pa / 0x4000000000 = k.addr / 0x4000000000) ∧
    n = 21 * (k.addr / 0x4000000000) + 20 ∧ s.granules.find? (k.addr / 4096) = some k.key ∧ (s.die (k.addr / 0x4000000000)).fenced = false

end Sys2Proof.Spec

/-- R245 to R249: SEMADD and MSGWAKE send a signal to a semaphore of a cluster of the run and retire; SEMSET and SEMRD act on an own
semaphore at once. -/
def Sys2Proof.Spec.SemaphoreInstructions : Prop :=
  ∀ (s : State) (c : Nat) (rd rs1 rs2 : Reg), c = s.focus.cluster →
    (∀ sem scope idx d, sem < 64 → scope ≤ 5 → idx < 256 → (s.reg c rs1).toNat = sem + 256 * scope + 65536 * idx → Names s c idx d →
      ∀ e ∈ [(Instr.semadd rs1 rs2, MsgKind.add sem (s.reg c rs2)), (Instr.msgwake rs1 rs2, MsgKind.wake sem (s.reg c rs2))],
        ∃ t, exec e.1 s = .next t ∧ Retired { s with msgs := s.msgs ++ [⟨s.seq, c, s.runOf c, d, e.2⟩], seq := s.seq + 1 } t c 0 0) ∧
    ((s.reg c rs1).toNat < 64 →
      (∃ u t, exec (.semset rd rs1 rs2) s = .next t ∧ Retired u t c rd (s.sem c (s.reg c rs1).toNat) ∧
        OnlyCluster s u c (fun a b => { a with sems := b.sems }) ∧
        ∀ n, u.sem c n = if n = (s.reg c rs1).toNat then s.reg c rs2 else s.sem c n) ∧
      (∃ t, exec (.semrd rd rs1) s = .next t ∧ Retired s t c rd (s.sem c (s.reg c rs1).toNat))) ∧
    (64 ≤ (s.reg c rs1).toNat → ∀ i ∈ [Instr.semset rd rs1 rs2, .semrd rd rs1], exec i s = exec (.controllerTrap c .illegal 0 0) s)

/-- R25, R248: SEMWAIT retires once its semaphore has reached the threshold, which it subtracts if CONSUME is set, and acquires at its
scope; until then it waits. -/
def Sys2Proof.Spec.SemaphoreWait : Prop :=
  ∀ (s : State) (c : Nat) (rd rs1 rs2 : Reg) (sem scope consume : Nat), c = s.focus.cluster → sem < 64 → scope ≤ 5 → consume < 2 →
    (s.reg c rs1).toNat = sem + 256 * scope + 4096 * consume →
    ((s.reg c rs2).toNat ≤ (s.sem c sem).toNat →
      ∃ u w t, exec (.semwait rd rs1 rs2) s = .next t ∧ OnlyCluster s u c (fun a b => { a with sems := b.sems }) ∧
        (∀ n, u.sem c n = if n = sem ∧ consume = 1 then s.sem c n - s.reg c rs2 else s.sem c n) ∧
        Acquired u w c scope ∧ Retired w t c rd (s.sem c sem)) ∧
    ((s.sem c sem).toNat < (s.reg c rs2).toNat → ∃ t, exec (.semwait rd rs1 rs2) s = .next t ∧ Waits s t c)

/-- R25, R245 to R249: the semaphore instructions. -/
def Obligations.Semaphores : Prop := Spec.SemaphoreInstructions ∧ Spec.SemaphoreWait

/-- R251 to R253: BARINIT writes a record with its expected arrivals and bytes; BARARR adds arrivals and bytes, returns the phase, and
completes the phase when both reach what is expected; more than that ends the run with cause BARRIER. BARWAIT retires when the phase is
past its value, and waits otherwise. -/
def Obligations.Barriers : Prop :=
  ∀ (s s₁ : State) (c : Nat) (rd rs1 rs2 : Reg) (p : Piece), c = s.focus.cluster → (s.reg c rs1).toNat % 32 = 0 → Uncached p →
    (s.place c (s.tenantOf c) .write (barAllowed c) (s.reg c rs1).toNat 32 = (.ok [p], s₁) → ∀ a n, a < 2 ^ 24 → (s.reg c rs2).toNat = a + 2 ^ 24 * n →
      (∃ t, exec (.barinit rs1 rs2) s = .next t ∧ RetiredMem s₁ t c 0 0 ∧ Stored s t p.pa 32 (a * 2 ^ 32 + n * 2 ^ 128)) ∧
      ∀ arr exparr by' expby phase, arr = littleEndian s.mem p.pa 4 → exparr = littleEndian s.mem (p.pa + 4) 4 → by' = littleEndian s.mem (p.pa + 8) 8 →
        expby = littleEndian s.mem (p.pa + 16) 8 → phase = littleEndian s.mem (p.pa + 24) 4 →
        (arr + a ≤ exparr → by' + n ≤ expby →
          ∃ t, exec (.bararr rd rs1 rs2) s = .next t ∧ RetiredMem s₁ t c rd (BitVec.ofNat 64 phase) ∧
            Stored s t p.pa 28 (if arr + a = exparr ∧ by' + n = expby
              then exparr * 2 ^ 32 + expby * 2 ^ 128 + (phase + 1) % 2 ^ 32 * 2 ^ 192
              else arr + a + exparr * 2 ^ 32 + (by' + n) * 2 ^ 64 + expby * 2 ^ 128 + phase * 2 ^ 192)) ∧
        (exparr < arr + a ∨ expby < by' + n → ∀ r, (s.cluster c).owner = some r → (s.run r).err = none →
          ∃ t, exec (.bararr rd rs1 rs2) s = .next t ∧ ((t.run r).err.map (·.cause)) = some 11 ∧ (t.run r).phase = .erring ∧ t.mem = s.mem)) ∧
    (s.place c (s.tenantOf c) .read (barAllowed c) (s.reg c rs1).toNat 32 = (.ok [p], s₁) → (s.reg c rs2).toNat < 2 ^ 32 →
      ∀ phase past, phase = littleEndian s.mem (p.pa + 24) 4 → past = (phase + 2 ^ 32 - (s.reg c rs2).toNat) % 2 ^ 32 →
        (1 ≤ past ∧ past ≤ 2 ^ 31 → ∃ u t, exec (.barwait rd rs1 rs2) s = .next t ∧ Acquired s₁ u c 2 ∧ Retired u t c rd (BitVec.ofNat 64 phase)) ∧
        (past = 0 ∨ 2 ^ 31 < past → ∃ t, exec (.barwait rd rs1 rs2) s = .next t ∧ Waits s₁ t c))

/-- R250, R256: MSGSEND sends a message with its payload, tag, release bit, scope and the sender's index; SIGST writes a word and, if
asked, signals a semaphore. -/
def Obligations.Messages : Prop :=
  ∀ (s : State) (c : Nat) (rs1 rs2 : Reg), c = s.focus.cluster →
    (∀ idx tag rel scope d, idx < 256 → tag < 256 → rel < 2 → scope ≤ 5 → Names s c idx d →
      (s.reg c rs1).toNat = idx + 256 * tag + 65536 * rel + 2 ^ 17 * scope →
      ∃ t, exec (.msgsend rs1 rs2) s = .next t ∧
        Retired { s with msgs := s.msgs ++ [⟨s.seq, c, s.runOf c, d, .handler ⟨s.reg c rs2, tag, decide (rel = 1), scope, (s.cluster c).idx⟩⟩], seq := s.seq + 1 } t c 0 0) ∧
    (∀ w sem sg scope idx d s₁ p, w < 2 ^ 32 → sem < 64 → sg < 2 → scope ≤ 5 → idx < 256 → Names s c idx d →
      (s.reg c rs2).toNat = w + sem * 2 ^ 32 + sg * 2 ^ 38 + scope * 2 ^ 40 + idx * 2 ^ 48 → (s.reg c rs1).toNat % 4 = 0 →
      s.place c (s.tenantOf c) .write (sigAllowed s c) (s.reg c rs1).toNat 4 = (.ok [p], s₁) →
      ∃ t, exec (.sigst rs1 rs2) s = .next t ∧ (Uncached p → Stored s t p.pa 4 w) ∧
        t.msgs.map (fun m => (m.sender, m.run, m.dest, m.kind)) =
          s.msgs.map (fun m => (m.sender, m.run, m.dest, m.kind)) ++ (if sg = 1 then [(c, s.runOf c, d, .add sem 1)] else []) ∧
        (∀ n, (t.ctl c).reg n = (s.ctl c).reg n) ∧ (t.ctl c).pc = (s.ctl c).pc + (if (s.ctl c).comp then 2 else 4) ∧
        (t.ctl c).instret = (s.ctl c).instret + 1 ∧ t.regions = s.regions ∧ t.pages = s.pages ∧ t.runs = s.runs ∧ t.tenants = s.tenants)

/-- R254, R255, R259: HTSET writes a handler entry and returns the old state word, HTEN enables, disables and gives credits, HTRD
reads an entry and HTPEND 64 pending bits. R257: where HTSET or HTEN leaves the entry ready, the oldest parked message of the tag goes to it. -/
def Obligations.HandlerInstructions : Prop :=
  ∀ (s : State) (c : Nat) (rd rs1 rs2 : Reg), c = s.focus.cluster →
    ((s.reg c rs1).toNat < 256 → ∀ h tag, tag = (s.reg c rs1).toNat → h = s.handler c tag →
      (∃ t v, exec (.htrd rd rs1) s = .next t ∧ Retired s t c rd v ∧ v.toNat = entryWord h (s.pendBit c tag)) ∧
      (∀ h' pre post m, OneGoes s c tag h' pre post m →
        (∀ (mb logn : Nat) (sem : Nat) (semen : Bool), mb < 2 ^ 20 → logn ≤ 12 → sem < 64 →
          (s.reg c rs2).toNat = 16 * mb + logn * 2 ^ 24 + 2 ^ 28 + sem * 2 ^ 32 + semen.toNat * 2 ^ 38 → 16 * mb + 16 * 2 ^ logn ≤ s.scrcap →
          h' = ⟨16 * mb, logn, true, h.en, 2 ^ logn, 0, sem, semen⟩ →
          ∃ t v, exec (.htset rd rs1 rs2) s = .next t ∧ Gone s t c tag h' pre post m ∧ CtlRetired s t c rd v ∧ v.toNat = entryWord h (s.pendBit c tag)) ∧
        (∀ (en sel : Bool) (cr : Nat), cr < 2 ^ 16 → (s.reg c rs2).toNat = en.toNat + 2 * sel.toNat + cr * 2 ^ 16 →
          h' = { h with en := if sel then en else h.en, cred := if h.valid then min (h.cred + cr) (2 ^ h.logn) else h.cred } →
          ∃ t v, exec (.hten rd rs1 rs2) s = .next t ∧ Gone s t c tag h' pre post m ∧ CtlRetired s t c rd v ∧ v.toNat = entryWord h (s.pendBit c tag))) ∧
      ((s.cluster c).park = [] →
        (∀ (mb logn : Nat) (valid : Bool) (sem : Nat) (semen : Bool), mb < 2 ^ 20 → logn ≤ 12 → sem < 64 →
          (s.reg c rs2).toNat = 16 * mb + logn * 2 ^ 24 + valid.toNat * 2 ^ 28 + sem * 2 ^ 32 + semen.toNat * 2 ^ 38 →
          (valid = true → 16 * mb + 16 * 2 ^ logn ≤ s.scrcap) →
          ∃ u t v, exec (.htset rd rs1 rs2) s = .next t ∧ OnlyCluster s u c (fun a b => { a with handlers := b.handlers }) ∧
            (∀ n, u.handler c n = if n = tag then ⟨16 * mb, logn, valid, h.en, 2 ^ logn, 0, sem, semen⟩ else s.handler c n) ∧
            Retired u t c rd v ∧ v.toNat = entryWord h (s.pendBit c tag)) ∧
        (∀ (en sel : Bool) (cr : Nat), cr < 2 ^ 16 → (s.reg c rs2).toNat = en.toNat + 2 * sel.toNat + cr * 2 ^ 16 →
          ∃ u t v, exec (.hten rd rs1 rs2) s = .next t ∧ OnlyCluster s u c (fun a b => { a with handlers := b.handlers }) ∧
            (∀ n, u.handler c n = if n = tag then { h with
              en := if sel then en else h.en
              cred := if h.valid then min (h.cred + cr) (2 ^ h.logn) else h.cred } else s.handler c n) ∧
            Retired u t c rd v ∧ v.toNat = entryWord h (s.pendBit c tag)))) ∧
    ((s.reg c rs1).toNat < 4 →
      ∃ t v, exec (.htpend rd rs1) s = .next t ∧ Retired s t c rd v ∧ ∀ j, j < 64 → v.getLsbD j = s.pendBit c (64 * (s.reg c rs1).toNat + j))

/-- R243 to R249, R257, R258: a message that arrives leaves the network. A signal changes its semaphore; a handler message whose entry
is ready is written to its mailbox, taking one credit, else it is parked, and a ninth traps with MSGOVF, between the halves of an access at
the next instruction boundary (R346); a trigger token enters the place that it reserved; a message to a cluster whose run has ended is lost. -/
def Obligations.MessageArrivals : Prop :=
  ∀ (s : State) (pre post : List Msg) (m : Msg), NextMessage s pre m post →
    (∀ e ∈ [Instr.semaphoreSignalArrival, .messageArrival, .triggerTokenArrival], (s.cluster m.dest).owner ≠ some m.run →
      (e = .semaphoreSignalArrival → ∃ n v, m.kind = .add n v ∨ m.kind = .wake n v) → (e = .messageArrival → ∃ q, m.kind = .handler q) →
      (e = .triggerTokenArrival → ∃ n q, m.kind = .trigger n q) → exec e s = .next { s with msgs := pre ++ post }) ∧
    ((s.cluster m.dest).owner = some m.run →
      (∀ n v, m.kind = .add n v ∨ m.kind = .wake n v →
        ∃ t, exec .semaphoreSignalArrival s = .next t ∧
          OnlyCluster { s with msgs := pre ++ post } t m.dest (fun a b => { a with sems := b.sems }) ∧
          ∀ k, t.sem m.dest k = if k = n then (if m.kind = .add n v then s.sem m.dest n + v else if (s.sem m.dest n).toNat < v.toNat then v else s.sem m.dest n)
            else s.sem m.dest k) ∧
      (∀ n q, m.kind = .trigger n q →
        ∃ t, exec .triggerTokenArrival s = .next t ∧
          OnlyCluster { s with msgs := pre ++ post } t m.dest (fun a b => { a with tqs := b.tqs }) ∧
          ∀ k, (t.cluster m.dest).tqs.get TrigQ.empty k = if k = n
            then ⟨((s.cluster m.dest).tqs.get TrigQ.empty n).toks ++ [q], ((s.cluster m.dest).tqs.get TrigQ.empty n).reserved - 1⟩
            else (s.cluster m.dest).tqs.get TrigQ.empty k) ∧
      (∀ q h, m.kind = .handler q → h = s.handler m.dest q.tag →
        (h.valid = true → h.en = true → 0 < h.cred → (∀ k ∈ (s.cluster m.dest).park, k.tag ≠ q.tag) → m.dest < 192 →
          h.mbase + 16 * 2 ^ h.logn ≤ 2 ^ 24 →
          ∃ t, exec .messageArrival s = .next t ∧ t.msgs = pre ++ post ∧
            Stored s t (0x10000000000 + m.dest * 2 ^ 24 + h.mbase + 16 * (h.widx % 2 ^ h.logn)) 16
              (q.payload.toNat + q.tag % 256 * 2 ^ 64 + q.sender % 2 ^ 16 * 2 ^ 80 + h.widx % 2 ^ 32 * 2 ^ 96) ∧
            t.handler m.dest q.tag = { h with widx := (h.widx + 1) % 2 ^ 32, cred := h.cred - 1 } ∧ (t.ctl m.dest).dcache = [] ∧
            ∀ k, t.sem m.dest k = if h.semen = true ∧ k = h.sem then s.sem m.dest k + 1 else s.sem m.dest k) ∧
        ((h.valid = false ∨ h.en = false ∨ h.cred = 0 ∨ ∃ k ∈ (s.cluster m.dest).park, k.tag = q.tag) →
          ((s.cluster m.dest).park.length < 8 →
            ∃ t, exec .messageArrival s = .next t ∧
              OnlyCluster { s with msgs := pre ++ post } t m.dest (fun a b => { a with park := a.park ++ [q], pending := b.pending }) ∧
              ∀ k, t.pendBit m.dest k = (decide (k = q.tag) || s.pendBit m.dest k)) ∧
          (8 ≤ (s.cluster m.dest).park.length → (s.ctl m.dest).half.isSome = true →
            ∃ t, exec .messageArrival s = .next t ∧ OnlyCluster { s with msgs := pre ++ post } t m.dest
              (fun a _ => { a with ctl := { a.ctl with overflow := some (a.ctl.overflow.getD q) } })) ∧
          (8 ≤ (s.cluster m.dest).park.length → (s.ctl m.dest).half = none →
            ∃ t, exec .messageArrival s = .next t ∧ (t.ctl m.dest).trap.cause.toNat = 6 ∧ (t.ctl m.dest).trap.info.toNat = q.tag % 2 ^ 64 ∧
              (t.ctl m.dest).trap.msg = q.bytes ∧ (t.cluster m.dest).park = (s.cluster m.dest).park ∧ t.mem = s.mem ∧
              ((s.run m.run).err = none → ((t.run m.run).err.map (·.cause)) = some 15)))))

/-- R262 to R268: WAYRD reads the modes of a slice on the controller's path and WAYSET sets them, where the tenant owns every way that
changes, four ways stay cache, no way leaves scratch and no other WAYSET of the slice waits; SLCINV drops the copies of a range's lines in its scope
but at their homes, and no other line; SLCWB writes the dirty ones of their home root slices back to HBM, and leaves them there and clean. -/
def Sys2Proof.Spec.CacheInstructions : Prop :=
  ∀ (s : State) (c : Nat) (rd rs1 rs2 : Reg), c = s.focus.cluster →
    ((s.reg c rs1).toNat ≤ 2 → ∀ n, n = pathSlice c (s.reg c rs1).toNat →
      (∃ t v, exec (.wayrd rd rs1) s = .next t ∧ Retired s t c rd v ∧ v.toNat = modeWord (s.slice n)) ∧
      ((s.reg c rs2).toNat < 2 ^ 32 → (∀ w, w < 16 → (s.reg c rs2).toNat / 4 ^ w % 4 ≠ 3) →
        4 ≤ (List.range 16).countP (fun w => (s.reg c rs2).toNat / 4 ^ w % 4 == 0) →
        (∀ w, w < 16 → (s.reg c rs2).toNat / 4 ^ w % 4 ≠ (s.slice n).mode w → (s.slice n).ownerOf w = s.tenantOf c ∧ (s.slice n).mode w ≠ 2) →
        (∀ x, (s.slice n).leaving = some x → x.1 ≠ c → (s.ctl x.1).st ≠ .waiting) →
        ∃ t, exec (.wayset rd rs1 rs2) s = .next t ∧ (∀ w, w < 16 → (t.slice n).mode w = (s.reg c rs2).toNat / 4 ^ w % 4) ∧
          (t.slice n).wayOwn = (s.slice n).wayOwn ∧ (∀ m, m ≠ n → t.slice m = s.slice m) ∧ t.regions = s.regions ∧ t.pages = s.pages ∧
          (∀ k, (t.ctl c).reg k = if k = rd ∧ k ≠ 0 then BitVec.ofNat 64 (modeWord (s.slice n)) else (s.ctl c).reg k) ∧
          (t.ctl c).pc = (s.ctl c).pc + (if (s.ctl c).comp then 2 else 4))) ∧
    (∀ len sc l s₁, len < 2 ^ 48 → (sc = 3 ∨ sc = 4) → (s.reg c rs2).toNat = len + sc * 2 ^ 48 → s.hbmPieces c (s.reg c rs1).toNat len = (.ok l, s₁) →
      ∃ u t, exec (.slcinv rs1 rs2) s = .next t ∧ Retired u t c 0 0 ∧ u = { s₁ with slices := u.slices } ∧
        (∀ p ∈ l, ∀ n, n ≠ 21 * (p.pa / 0x4000000000) + 20 → n < 63 → (sc = 4 ∨ n / 21 = c / 64) → ∀ k ∈ (u.slice n).lines, p.holds k = false) ∧
        ∀ n, u.slice n = { s.slice n with lines := (u.slice n).lines } ∧ (u.slice n).lines.Sublist (s.slice n).lines ∧
          ∀ k ∈ (s.slice n).lines, (∀ p ∈ l, p.holds k = true → n = 21 * (p.pa / 0x4000000000) + 20 ∨ (sc = 3 ∧ n / 21 ≠ c / 64)) → k ∈ (u.slice n).lines) ∧
    (∀ l s₁, (s.reg c rs2).toNat < 2 ^ 48 → s.hbmPieces c (s.reg c rs1).toNat (s.reg c rs2).toNat = (.ok l, s₁) →
      ∃ u t, exec (.slcwb rs1 rs2) s = .next t ∧ Retired u t c 0 0 ∧ u = { s₁ with slices := u.slices, mem := u.mem } ∧
        (∀ n, (u.slice n).lines.map (fun k => (k.addr, k.key, k.data)) = (s.slice n).lines.map (fun k => (k.addr, k.key, k.data))) ∧
        (∀ n k, k ∈ (u.slice n).lines → ¬ WritesBack s l n k) ∧
        (s.memOk → LinesOk s →
          (∀ n k, WritesBack s l n k → ∀ j, j < 128 → k.data[j]? = some (memGet u.mem (k.addr + j))) ∧
          (∀ x, (∀ n k, WritesBack s l n k → ¬ (k.addr ≤ x ∧ x < k.addr + 128)) → memGet u.mem x = memGet s.mem x) ∧
          ∀ key x, u.homeByte key x = s.homeByte key x))

/-- R265, R267: RETSET gives its range the lowest free retention register of the slice that the tenant owns, and reports none free with
bit 63; RETCLR ends one. -/
def Sys2Proof.Spec.RetentionInstructions : Prop :=
  ∀ (s : State) (c : Nat) (rd rs1 rs2 : Reg), c = s.focus.cluster →
    (∀ level len e s₁ n, level ≤ 2 → 0 < len → len < 2 ^ 48 → len % 128 = 0 → (s.reg c rs2).toNat = len + level * 2 ^ 48 →
      (s.reg c rs1).toNat % 128 = 0 → (s.reg c rs1).toNat < 2 ^ 52 → s.leafFor c (s.tenantOf c) (s.reg c rs1).toNat = (.ok e, s₁) →
      e.pa + ((s.reg c rs1).toNat - e.va) + len ≤ 0xC000000000 → (s.reg c rs1).toNat + len ≤ e.va + e.size → n = pathSlice c level →
      (∀ i, i < 8 → ((s.slice n).retOwn[i]?).map (·.toNat) = some (s.tenantOf c) → (s.slice n).retValid[i]? = some false →
        (∀ j, j < i → ((s.slice n).retOwn[j]?).map (·.toNat) ≠ some (s.tenantOf c) ∨ (s.slice n).retValid[j]? ≠ some false) →
        ∃ u t, exec (.retset rd rs1 rs2) s = .next t ∧ Retired u t c rd (BitVec.ofNat 64 (level + 4 * i)) ∧ u = { s₁ with slices := u.slices } ∧
          (∀ m, m ≠ n → u.slice m = s.slice m) ∧ (u.slice n).lines = (s.slice n).lines ∧ (u.slice n).retValid[i]? = some true ∧
          (u.slice n).retBase.get 0 i = e.pa + ((s.reg c rs1).toNat - e.va) ∧
          (u.slice n).retLast.get 0 i = e.pa + ((s.reg c rs1).toNat - e.va) + len - 128) ∧
      ((∀ i, i < 8 → ((s.slice n).retOwn[i]?).map (·.toNat) ≠ some (s.tenantOf c) ∨ (s.slice n).retValid[i]? ≠ some false) →
        ∃ t, exec (.retset rd rs1 rs2) s = .next t ∧ Retired s₁ t c rd (BitVec.ofNat 64 (2 ^ 63 + 1)))) ∧
    (∀ level i n, level ≤ 2 → i < 8 → (s.reg c rs1).toNat = level + 4 * i → n = pathSlice c level →
      (((s.slice n).retOwn[i]?).map (·.toNat) = some (s.tenantOf c) →
        ∃ u t, exec (.retclr rs1) s = .next t ∧ Retired u t c 0 0 ∧ u = { s with slices := u.slices } ∧ (∀ m, m ≠ n → u.slice m = s.slice m) ∧
          ∀ j, j < 8 → (u.slice n).retValid[j]? = if j = i then some false else (s.slice n).retValid[j]?) ∧
      (((s.slice n).retOwn[i]?).map (·.toNat) ≠ some (s.tenantOf c) → exec (.retclr rs1) s = exec (.controllerTrap c .access 0 0) s))

/-- R262 to R268: the instructions on caches, slices and retained ranges. -/
def Obligations.CachesAndRetention : Prop := Spec.CacheInstructions ∧ Spec.RetentionInstructions

namespace Sys2Proof.Spec
open Sys2Proof.Machine

/-! ## Graphs, pages, bindings and copies as controllers command them (R205 to R239, R291 to R298) -/

/-- Controller c retires its instruction with v in rd, whatever else the instruction does. -/
structure Result (s t : State) (c : Nat) (rd : Reg) (v : W64) : Prop where
  regs : ∀ n, (t.ctl c).reg n = if n = rd ∧ n ≠ 0 then v else (s.ctl c).reg n
  pc : (t.ctl c).pc = (s.ctl c).pc + (if (s.ctl c).comp then 2 else 4)
  instret : (t.ctl c).instret = (s.ctl c).instret + 1
  running : (t.ctl c).st = .running
  others : ∀ d, d ≠ c → t.ctl d = s.ctl d
  mem : t.mem = s.mem ∧ t.slices = s.slices ∧ t.granules = s.granules

/-- The refusal word of a code (R205, R291). -/
def refused (code : Nat) : W64 := BitVec.ofNat 64 (2 ^ 63 + code)

/-- The state word of a page (R296). -/
def pageStat (p : Page) (idx : Nat) : Nat :=
  (p.level + 8 * p.frozen.toNat + (if 3 ≤ p.level ∧ p.level ≤ 5 then p.origin * 16 + idx * 256 else 0xFF00) + p.die * 2 ^ 16 +
    (p.w - 1) * 2 ^ 18 + (p.h - 1) * 2 ^ 20 + p.passIdx * 2 ^ 32) % 2 ^ 64

/-- A current binding waits for nothing that it has not begun (R236). -/
def bindStat (k : Chan) (held : Bool) : Nat :=
  ((match k.cur with | some b => if b.moving then 2 else 1 | none => if k.ended then 3 else 0) + 4 * k.pend.isSome.toNat +
    8 * (match k.cur with | some b => b.late | none => k.late).toNat + 16 * held.toNat + 32 * k.stopped.toNat +
    (match k.cur with | some b => b.seq | none => k.lastSeq) * 2 ^ 16) % 2 ^ 64

/-- A copy's handle for a slot: its generation moves on from any use before (R237). -/
def nextHandle (s : State) (c slot : Nat) : Nat :=
  slot + 256 * (if (s.copy c slot).state = 0 then (s.copy c slot).gen else ((s.copy c slot).gen + 1) % 256)

/-- A copy has entered slot i: it waits or is ready, and its scheduler entry waits for every earlier one whose footprints clash. -/
structure Entered (s t : State) (c slot : Nat) (card : List Byte) : Prop where
  free : slot < 256 ∧ ((s.copy c slot).state = 0 ∨ (s.copy c slot).state = 4 ∨ (s.copy c slot).state = 5)
  state : (t.copy c slot).state = 1 ∧ (t.copy c slot).card = card ∧ (t.copy c slot).cursor = 0 ∧ (t.copy c slot).bytes = 0
  others : ∀ i, i ≠ slot → t.copy c i = s.copy c i
  entry : ∃ e, (t.cluster c).sched = (s.cluster c).sched ++ [e] ∧ e.copy = some slot ∧ e.ident = (t.copy c slot).entry ∧ e.foots = cardFoots card ∧
    e.preds = ((s.cluster c).sched.filter (fun x => x.foots.any (fun f => (cardFoots card).any (fun g => f.clash g)))).map (·.ident)

end Sys2Proof.Spec

/-- R270, R293: GRLOAD takes the next of four graph handles, returns it and queues its load; the load builds the graph or ends the run;
GRSTAT reads a graph's state word. -/
def Sys2Proof.Spec.GraphInstructions : Prop :=
  ∀ (s : State) (c r : Nat) (rd rs1 rs2 : Reg), c = s.focus.cluster → r = s.runOf c →
    (∀ n, n = (s.run r).graphs.length →
      (n < 4 → (s.cluster c).cmds = [] →
        ∃ t m, exec (.grload rd rs1 rs2) s = .next t ∧ Result s t c rd (BitVec.ofNat 64 n) ∧ (t.cluster c).cmds = [m] ∧
          m.instr = .grload rd rs1 rs2 ∧ m.rs1 = s.reg c rs1 ∧ m.rs2 = s.reg c rs2 ∧ m.graph = n ∧ (t.graphOf r n).state = 1 ∧
          (t.graphOf r n).addr = (s.reg c rs1).toNat ∧ (t.graphOf r n).symtab = (s.reg c rs2).toNat) ∧
      (4 ≤ n → ∃ t, exec (.grload rd rs1 rs2) s = .next t ∧ Retired s t c rd (refused 0xC))) ∧
    (∀ m a b d, (s.cluster c).cmds = [m] → m.instr = .grload a b d →
      ∀ prior, prior = ((s.run r).graphs.map (fun e => e.2.pages.length)).sum →
      (∀ g, s.loadImage (s.run r).tenant m.rs1.toNat m.rs2.toNat false (s.run r).clusters.length prior = .ok g →
        ∃ t, exec .graphLoadEffect s = .next t ∧ (t.cluster c).cmds = [] ∧ (t.graphOf r m.graph).state = 2 ∧ (t.graphOf r m.graph).pages = g.pages ∧
          (t.graphOf r m.graph).binds = g.binds ∧ (t.graphOf r m.graph).chanBase = (s.run r).chans.length ∧ t.mem = s.mem) ∧
      (∀ k code, s.loadImage (s.run r).tenant m.rs1.toNat m.rs2.toNat false (s.run r).clusters.length prior = .error (k, code) → (s.run r).err = none →
        ∃ t e, exec .graphLoadEffect s = .next t ∧ (t.run r).err = some e ∧ e.cause = k.code ∧ e.code = code ∧ e.cluster = (s.cluster c).idx ∧
          e.word = m.word.toNat ∧ e.addr = m.rs1.toNat ∧ (t.run r).phase = .erring)) ∧
    ((s.reg c rs1).toNat < 4 → ∀ g n, n = (s.reg c rs1).toNat → g = s.graphOf r n →
      ∃ t v next, exec (.grstat rd rs1) s = .next t ∧ Retired s t c rd v ∧
        v.toNat = (g.state + 4 * (s.run r).edrop.toNat + g.base * 2 ^ 8 + g.pages.length * 2 ^ 16 + next * 2 ^ 32) % 2 ^ 64 ∧
        next ≤ 255 ∧ (∀ e ∈ (s.run r).waves, e.graph = n → e.placed = false → next ≤ e.wave) ∧
        (next = 255 ∨ ∃ e ∈ (s.run r).waves, e.graph = n ∧ e.placed = false ∧ e.wave = next))

/-- R291, R294 to R297: with an empty command queue, PGPLACE enters a wave in the placement queue; GATEOPEN, TRIPSET and PGCONST act on
a placed page whose gates are closed, and are refused once they are open; PGFREE asks for a running page to be freed. -/
def Sys2Proof.Spec.PageInstructions : Prop :=
  ∀ (s : State) (c r : Nat) (rd rs1 rs2 : Reg), c = s.focus.cluster → r = s.runOf c → (s.cluster c).cmds = [] →
    (∀ w gh, w < 256 → gh < 4 → (s.reg c rs1).toNat = w + 256 * gh → (s.graphOf r gh).state = 2 → ((s.graphOf r gh).wavePages w) ≠ [] →
      (∀ e ∈ (s.run r).waves, ¬ (e.graph = gh ∧ e.wave = w)) → s.nofit r gh w = false →
      ∃ t e, exec (.pgplace rd rs1) s = .next t ∧ Result s t c rd 0 ∧ (t.run r).waves = (s.run r).waves ++ [e] ∧ e.graph = gh ∧ e.wave = w ∧
        e.placed = false ∧ e.by' = [c]) ∧
    (∀ h p, h < 256 → s.pages.find? (pidOf r h) = some p →
      (p.level = 3 → p.gated = false → (p.held = true ∨ p.svClosed = true) →
        ((s.reg c rs1).toNat = h →
          (∃ t, exec (.gateopen rd rs1) s = .next t ∧ Result s t c rd 0 ∧ (t.cluster c).cmds = [] ∧ t.page (pidOf r h) = { p with gated := true }) ∧
          ((s.reg c rs2).toNat < 2 ^ 48 → ∃ t, exec (.tripset rd rs1 rs2) s = .next t ∧ Result s t c rd 0 ∧ (t.cluster c).cmds = [] ∧
            t.page (pidOf r h) = { p with trip := (s.reg c rs2).toNat % 2 ^ 32, passes := (s.reg c rs2).toNat / 2 ^ 32 })) ∧
        (∀ k sreg every, k < 16 → sreg < 16 → every < 2 → sreg < p.w * p.h → (s.reg c rs1).toNat = h + k * 2 ^ 8 + sreg * 2 ^ 12 + every * 2 ^ 16 →
          (s.reg c rs2).toNat < 2 ^ 32 →
          ∃ t, exec (.pgconst rd rs1 rs2) s = .next t ∧ Result s t c rd 0 ∧ t.pages = s.pages ∧
            (∀ i, i < p.w * p.h → (every = 1 ∨ i = sreg) → (t.region (p.region i)).k[k]? = some (BitVec.ofNat 32 (s.reg c rs2).toNat)) ∧
            (∀ n, t.region n = { s.region n with k := (t.region n).k }) ∧
            ∀ n j, (∀ i, i < p.w * p.h → (every = 1 ∨ i = sreg) → ¬ (n = p.region i ∧ j = k)) → (t.region n).k[j]? = (s.region n).k[j]?)) ∧
      ((s.reg c rs1).toNat = h → p.level = 4 →
        (∃ t, exec (.pgfree rd rs1) s = .next t ∧ Result s t c rd 0 ∧ t.page (pidOf r h) = { p with freeReq := true, gated := false }) ∧
        (∃ t, exec (.gateopen rd rs1) s = .next t ∧ Retired s t c rd (refused 9)) ∧
        ((s.reg c rs2).toNat < 2 ^ 48 → ∃ t, exec (.tripset rd rs1 rs2) s = .next t ∧ Retired s t c rd (refused 9))) ∧
      ((s.reg c rs1).toNat = h → 6 ≤ p.level → (∃ t, exec (.pgfree rd rs1) s = .next t ∧ Retired s t c rd 1) ∧
        (∃ t, exec (.gateopen rd rs1) s = .next t ∧ Retired s t c rd (refused 7)))) ∧
    (256 ≤ (s.reg c rs1).toNat → ∀ i ∈ [Instr.gateopen rd rs1, .pgfree rd rs1, .tripset rd rs1 rs2, .svsave rd rs1 rs2, .svload rd rs1 rs2],
      ∃ t, exec i s = .next t ∧ Retired s t c rd (refused 6))

/-- R298: SEAMSET gives a lead port declared `shape=none` one follower in another cluster of the quad, in place of what it had. -/
def Sys2Proof.Spec.SeamInstruction : Prop :=
  ∀ (s : State) (c r h lead fh fp pid f : Nat) (rd rs1 rs2 : Reg), c = s.focus.cluster → r = s.runOf c → (s.cluster c).cmds = [] → h < 256 → lead < 512 →
    fh < 256 → fp < 512 → pid = pidOf r h → f = pidOf r fh → (s.reg c rs1).toNat = h + lead * 2 ^ 8 → (s.reg c rs2).toNat = fh + fp * 2 ^ 8 + 2 ^ 17 →
    (s.page pid).run = r → 3 ≤ (s.page pid).level → (s.page pid).level ≤ 5 → (s.page pid).cluster = c →
    (s.page f).run = r → 3 ≤ (s.page f).level → (s.page f).level ≤ 5 → (s.page f).cluster ≠ c → (s.page f).cluster / 4 = c / 4 →
    s.declaredNone pid lead = true → s.declaredNone f fp = true → s.rowPort f fp = s.rowPort pid lead →
    (∀ ch ∈ [0, 2], ∀ b, (s.chan ((s.page pid).region (lead / 32)) ch).cur = some b ∨ (s.chan ((s.page pid).region (lead / 32)) ch).pend = some b → b.port ≠ lead % 32) →
    ∃ t, exec (.seamset rd rs1 rs2) s = .next t ∧ Result s t c rd 0 ∧
      (t.run r).seams = (s.run r).seams.filter (fun m => m.lead != (h, lead)) ++ [⟨(h, lead), [(fh, fp)]⟩]

/-- R270, R293, R298: the graph instructions and SEAMSET. -/
def Obligations.GraphsAndSeams : Prop := Spec.GraphInstructions ∧ Spec.SeamInstruction

/-- R25, R296: PGSTAT reads the state word of a page, 0 where the run has no such page; PGWAIT waits for its event, and acquires where
the page has retired. -/
def Sys2Proof.Spec.PageStates : Prop :=
  ∀ (s : State) (c h : Nat) (rd rs1 rs2 : Reg), c = s.focus.cluster → h = (s.reg c rs1).toNat → h < 256 →
    (s.pages.find? (pidOf (s.runOf c) h) = none →
      (∃ t, exec (.pgstat rd rs1) s = .next t ∧ Retired s t c rd 0) ∧
      ((s.reg c rs2).toNat ≤ 2 → ∃ t, exec (.pgwait rd rs1 rs2) s = .next t ∧ Retired s t c rd 0)) ∧
    (∀ p, s.pages.find? (pidOf (s.runOf c) h) = some p →
      (∃ t v, exec (.pgstat rd rs1) s = .next t ∧ Retired s t c rd v ∧ v.toNat = pageStat p (s.cluster p.cluster).idx) ∧
      (∀ e need, e = (s.reg c rs2).toNat → e ≤ 2 → need = (if e = 0 then 3 else if e = 1 then 4 else 6) →
        (p.level < need → ∃ t, exec (.pgwait rd rs1 rs2) s = .next t ∧ Waits s t c) ∧
        (need ≤ p.level → p.level < 6 → ∃ t v, exec (.pgwait rd rs1 rs2) s = .next t ∧ Retired s t c rd v ∧ v.toNat = pageStat p (s.cluster p.cluster).idx) ∧
        (6 ≤ p.level → ∃ u t v, exec (.pgwait rd rs1 rs2) s = .next t ∧ Acquired s u c 4 ∧ Retired u t c rd v ∧ v.toNat = pageStat p (s.cluster p.cluster).idx)))

/-- R25, R291, R294 to R297: the page instructions and the states that they read. -/
def Obligations.Pages : Prop := Spec.PageInstructions ∧ Spec.PageStates

/-- R205, R214, R218, R219, R235: with an empty command queue, STBIND and STBINDI bind a port declared `shape=none` of a resident page to the record at rs1, as
the channel's current binding if it has none, else as its pending one, and are refused with FULL where it has both; a trigger binding
names a trigger queue. -/
def Sys2Proof.Spec.BindInstructions : Prop :=
  ∀ (s : State) (c h start port sreg se iport out pid rid ch : Nat) (rd rs1 rs2 : Reg), c = s.focus.cluster → start < 2 ^ 16 → h < 256 → port < 32 →
    sreg < 16 → se < 2 → iport < 32 → out = port / 16 → pid = pidOf (s.runOf c) h → (s.cluster c).cmds = [] →
    (s.page pid).run = s.runOf c → 3 ≤ (s.page pid).level → (s.page pid).level ≤ 5 → (s.page pid).cluster = c →
    s.hasPort pid (port + 32 * sreg) = true → s.portConn pid (port + 32 * sreg) = .opened → rid = (s.page pid).region sreg → ch = 2 * se + out →
    ∀ hdl, hdl = BitVec.ofNat 64 (h + port * 2 ^ 8 + sreg * 2 ^ 13 + se * 2 ^ 17 + out * 2 ^ 18 + (s.chan rid ch).nextSeq * 2 ^ 32) →
    ∀ e ∈ [(Instr.stbind rd rs1 rs2, 0, BindKind.plain), (.stbind rd rs1 rs2, 1, .trigger), (.stbindi rd rs1 rs2, 0, .indexed)],
      (s.reg c rs2).toNat = start + h * 2 ^ 16 + port * 2 ^ 24 + sreg * 2 ^ 29 + se * 2 ^ 33 + e.2.1 * 2 ^ 34 + iport * 2 ^ 35 →
      (e.2.2 = .plain → iport = 0) → (e.2.2 = .trigger → iport = 0 ∧ out = 1 ∧ s.rowPort pid (port + 32 * sreg) = false ∧
        ∃ q i d, q < 16 ∧ i < 255 ∧ (s.reg c rs1).toNat = q + 256 * i ∧ (s.run (s.runOf c)).clusterAt i = some d) →
      (e.2.2 = .indexed → 16 ≤ iport ∧ out = 0 ∧ s.hasPort pid (iport + 32 * sreg) = true ∧ s.portConn pid (iport + 32 * sreg) = .opened ∧
        s.rowPort pid (iport + 32 * sreg) = false) →
      ∀ rec, (if e.2.2 = .trigger then rec = [] else (s.reg c rs1).toNat % 64 = 0 ∧ s.tenantRead (s.tenantOf c) (s.reg c rs1).toNat 64 = .ok rec ∧
        (ShapeRec.of rec).dir = decide (out = 1) ∧ (ShapeRec.of rec).bad (if s.rowPort pid (port + 32 * sreg) then .row else .token) = false ∧
        (e.2.2 = .indexed → (ShapeRec.of rec).indir = true)) →
      ((s.chan rid ch).cur = none ∨ (s.chan rid ch).pend = none →
        ∃ t b, exec e.1 s = .next t ∧ Result s t c rd hdl ∧ (t.chan rid ch).nextSeq = ((s.chan rid ch).nextSeq + 1) % 65536 ∧
          (if (s.chan rid ch).cur = none then (t.chan rid ch).cur = some b ∧ (t.chan rid ch).pend = (s.chan rid ch).pend
            else (t.chan rid ch).cur = (s.chan rid ch).cur ∧ (t.chan rid ch).pend = some b) ∧
          b.seq = (s.chan rid ch).nextSeq ∧ b.kind = e.2.2 ∧ b.start = start ∧ b.port = port ∧ b.record = rec ∧ b.moving = false ∧ b.cursor = 0 ∧
          (e.2.2 = .indexed → b.iport = iport) ∧ (e.2.2 = .trigger → b.target = (s.reg c rs1).toNat)) ∧
      ((s.chan rid ch).cur ≠ none → (s.chan rid ch).pend ≠ none → ∃ t, exec e.1 s = .next t ∧ Retired s t c rd (refused 1))

/-- R25, R221, R236: STSTOP, STCUR, STSTAT and STWAIT act on the binding that a handle names on its channel: pending, current, or the
last to have completed; no command is queued here. -/
def Sys2Proof.Spec.BindingInstructions : Prop :=
  ∀ (s : State) (c rid ch lo seq : Nat) (k : Chan) (rd rs1 : Reg), c = s.focus.cluster → (s.reg c rs1).toNat = lo + seq * 2 ^ 32 → lo < 2 ^ 19 → seq < 2 ^ 16 →
    s.handleChan c (s.reg c rs1) = some (rid, ch) → k = s.chan rid ch → (s.cluster c).cmds = [] →
    (∃ t v, exec (.ststat rd rs1) s = .next t ∧ Retired s t c rd v ∧
      v.toNat = bindStat k (match k.cur with | some b => !b.moving && (s.cluster c).preds b.entry != 0 | none => false)) ∧
    (∀ b, k.pend = some b → b.seq = seq →
      (∃ t, exec (.ststop rd rs1) s = .next t ∧ Result s t c rd 0 ∧ t.chan rid ch = { k with pend := none }) ∧
      (∃ t, exec (.stcur rd rs1) s = .next t ∧ Retired s t c rd 0) ∧
      (∃ t, exec (.stwait rd rs1) s = .next t ∧ Waits s t c)) ∧
    (∀ b, (∀ n, k.pend = some n → n.seq ≠ seq) → k.cur = some b → b.seq = seq →
      (∃ t, exec (.stcur rd rs1) s = .next t ∧ Retired s t c rd (BitVec.ofNat 64 b.moved)) ∧
      (∃ t, exec (.stwait rd rs1) s = .next t ∧ Waits s t c) ∧
      (ch % 2 = 0 → b.kind ≠ .trigger → k.pend = none →
        ∃ t, exec (.ststop rd rs1) s = .next t ∧ Result s t c rd 0 ∧ (t.chan rid ch).cur = none ∧ (t.chan rid ch).ended = true ∧
          (t.chan rid ch).stopped = true ∧ (t.chan rid ch).lastSeq = seq ∧ (t.chan rid ch).lastMoved = b.moved)) ∧
    ((∀ n, k.pend = some n ∨ k.cur = some n → n.seq ≠ seq) →
      (k.ended = true → k.lastSeq = seq →
        (∃ t, exec (.ststop rd rs1) s = .next t ∧ Retired s t c rd 1) ∧
        (∃ t, exec (.stcur rd rs1) s = .next t ∧ Retired s t c rd (BitVec.ofNat 64 k.lastMoved)) ∧
        (∃ u t, exec (.stwait rd rs1) s = .next t ∧ Acquired s u c 4 ∧ Retired u t c rd (BitVec.ofNat 64 k.lastMoved))) ∧
      (k.ended = false ∨ k.lastSeq ≠ seq →
        (∀ i ∈ [Instr.ststop rd rs1, .stcur rd rs1], ∃ t, exec i s = .next t ∧ Retired s t c rd (refused 7)) ∧
        ((s.ctl c).st ≠ .waiting → ∃ t, exec (.stwait rd rs1) s = .next t ∧ Retired s t c rd (refused 7))))

/-- R25, R205, R214, R218, R219, R221, R235, R236: the binding instructions. -/
def Obligations.Bindings : Prop := Spec.BindInstructions ∧ Spec.BindingInstructions

/-- R223, R228, R237: CPY and CPYSNAP enter a copy of a good card and records, without a barrier, into a free slot and return its handle; CPYSNAP
reads the records at once, CPY then or at dispatch. Without a free slot they are refused with FULL. -/
def Sys2Proof.Spec.CopyInstructions : Prop :=
  ∀ (s : State) (c va : Nat) (rd rs1 : Reg) (card : List Byte), c = s.focus.cluster → va = (s.reg c rs1).toNat → va % 64 = 0 →
    (∀ a b, s.freeCopies c ≠ [] → s.tenantRead (s.tenantOf c) va 128 = .ok card → cardBad card .issued (s.run (s.runOf c)).clusters.length = false →
      cardBar card = 0 → s.tenantRead (s.tenantOf c) (if cardSrc card = 0 then va + 0x80 else cardSrc card) 64 = .ok a →
      s.tenantRead (s.tenantOf c) (if cardDst card = 0 then va + 0xC0 else cardDst card) 64 = .ok b → (ShapeRec.of a).bad .copy = false → (ShapeRec.of b).bad .copy = false →
      (ShapeRec.of a).dir = false → (ShapeRec.of b).dir = true →
      (∃ t slot, exec (.cpysnap rd rs1) s = .next t ∧ Result s t c rd (BitVec.ofNat 64 (nextHandle s c slot)) ∧ Entered s t c slot card ∧
        (t.copy c slot).src = some a ∧ (t.copy c slot).dst = some b) ∧
      (∃ t slot, exec (.cpy rd rs1) s = .next t ∧ Result s t c rd (BitVec.ofNat 64 (nextHandle s c slot)) ∧ Entered s t c slot card ∧
        (((t.copy c slot).src = some a ∧ (t.copy c slot).dst = some b) ∨ ((t.copy c slot).src = none ∧ (t.copy c slot).dst = none ∧ (t.copy c slot).va = va)))) ∧
    (s.freeCopies c = [] → ∀ i ∈ [Instr.cpy rd rs1, .cpysnap rd rs1], ∃ t, exec i s = .next t ∧ Retired s t c rd (refused 1))

/-- R231, R232, R238: CPYT loads a template slot from a good card and records, CPYTD empties it, CPYARM ties it to a trigger queue,
CPYDIS releases it, CPYFIRE enters one of its copies. Behind commands that wait, CPYTD is queued (R206). -/
def Sys2Proof.Spec.TemplateInstructions : Prop :=
  ∀ (s : State) (c : Nat) (rd rs1 rs2 : Reg), c = s.focus.cluster →
    (∀ n, n = (s.reg c rs1).toNat → n < 64 → (s.cluster c).cmds ≠ [] → (s.templateAfter c n).armed = false →
      ∃ t m, exec (.cpytd rd rs1) s = .next t ∧ Result s t c rd 0 ∧ (t.cluster c).cmds = (s.cluster c).cmds ++ [m] ∧ m.instr = .cpytd rd rs1 ∧
        m.rs1 = s.reg c rs1 ∧ (t.cluster c).templates = (s.cluster c).templates) ∧
    ((s.cluster c).cmds = [] →
    (∀ n va card x y, n = (s.reg c rs2).toNat → n < 64 → va = (s.reg c rs1).toNat → va % 64 = 0 →
      ((s.template c n).armed = true → ∃ t, exec (.cpyt rd rs1 rs2) s = .next t ∧ Retired s t c rd (refused 4)) ∧
      ((s.template c n).armed = false → s.tenantRead (s.tenantOf c) va 128 = .ok card → cardBad card .template (s.run (s.runOf c)).clusters.length = false →
        s.tenantRead (s.tenantOf c) (if cardSrc card = 0 then va + 0x80 else cardSrc card) 64 = .ok x →
        s.tenantRead (s.tenantOf c) (if cardDst card = 0 then va + 0xC0 else cardDst card) 64 = .ok y →
        (ShapeRec.of x).bad .copy = false → (ShapeRec.of y).bad .copy = false → (ShapeRec.of x).dir = false → (ShapeRec.of y).dir = true →
        ∃ t, exec (.cpyt rd rs1 rs2) s = .next t ∧ Result s t c rd 0 ∧ t.template c n = ⟨true, false, 0, 0, card, x, y⟩ ∧
          ∀ m, m ≠ n → t.template c m = s.template c m)) ∧
    (∀ n, n = (s.reg c rs1).toNat → n < 64 →
      ((s.template c n).armed = false → ∃ t, exec (.cpytd rd rs1) s = .next t ∧ Result s t c rd 0 ∧ (t.template c n).loaded = false ∧
        ∀ m, m ≠ n → t.template c m = s.template c m) ∧
      ((s.template c n).loaded = true → (s.template c n).armed = false → (s.reg c rs2).toNat < 16 →
        (∀ e ∈ (s.cluster c).templates, ¬ (e.2.armed = true ∧ e.2.queue = (s.reg c rs2).toNat)) →
        ∃ t, exec (.cpyarm rd rs1 rs2) s = .next t ∧ Result s t c rd 0 ∧ t.template c n = { s.template c n with armed := true, queue := (s.reg c rs2).toNat }) ∧
      ((s.template c n).armed = true →
        (∃ t, exec (.cpydis rd rs1) s = .next t ∧ Result s t c rd 0 ∧ t.template c n = { s.template c n with armed := false }) ∧
        ∀ i ∈ [Instr.cpytd rd rs1], ∃ t, exec i s = .next t ∧ Retired s t c rd (refused 4)) ∧
      ((s.template c n).armed = false → ∃ t, exec (.cpydis rd rs1) s = .next t ∧ Retired s t c rd (refused 4)) ∧
      ((s.template c n).loaded = true → cardBar (s.template c n).card = 0 → s.freeCopies c ≠ [] →
        ∃ t slot, exec (.cpyfire rd rs1) s = .next t ∧ Result s t c rd (BitVec.ofNat 64 (nextHandle s c slot)) ∧ Entered s t c slot (s.template c n).card ∧
          t.template c n = { s.template c n with fires := ((s.template c n).fires + 1) % 2 ^ 32 }) ∧
      ((s.template c n).loaded = true → s.freeCopies c = [] → ∃ t, exec (.cpyfire rd rs1) s = .next t ∧ Retired s t c rd (refused 1))))

/-- R25, R230, R239: what CPYWAIT, CPYSTAT and CPYCAN do with a copy that has not begun, is moving, is complete or is cancelled, and
with a handle that names none. -/
def Sys2Proof.Spec.CopyStates : Prop :=
  ∀ (s : State) (c slot gen : Nat) (rd rs1 : Reg) (x : Copy), c = s.focus.cluster → slot < 256 → gen < 256 → (s.reg c rs1).toNat = slot + 256 * gen →
    x = s.copy c slot →
    (x.state = 0 ∨ x.gen ≠ gen →
      (∃ t, exec (.cpywait rd rs1) s = .next t ∧ Retired s t c rd 0) ∧
      ∀ i ∈ [Instr.cpystat rd rs1, .cpycan rd rs1], ∃ t, exec i s = .next t ∧ Retired s t c rd (refused 7)) ∧
    (x.state ≠ 0 → x.gen = gen →
      (x.state = 4 → ∃ u t, exec (.cpywait rd rs1) s = .next t ∧ Acquired s u c 4 ∧ Retired u t c rd (BitVec.ofNat 64 x.bytes)) ∧
      (x.state = 5 → ∃ t, exec (.cpywait rd rs1) s = .next t ∧ Retired s t c rd 0) ∧
      (x.state = 1 ∨ x.state = 3 → ∃ t, exec (.cpywait rd rs1) s = .next t ∧ Waits s t c) ∧
      (∃ t v, exec (.cpystat rd rs1) s = .next t ∧ Retired s t c rd v ∧
        v.toNat = ((if x.state = 1 ∧ s.copyReady c slot = true then 2 else x.state) + 256 * min (if x.state = 1 then (s.cluster c).preds x.entry else 0) 255 +
          x.bytes * 2 ^ 16) % 2 ^ 64) ∧
      (x.state = 1 → ∃ t, exec (.cpycan rd rs1) s = .next t ∧ Result s t c rd 0 ∧ t.copy c slot = { x with state := 5 } ∧
        ∀ e ∈ (t.cluster c).sched, e.ident ≠ x.entry ∧ x.entry ∉ e.preds) ∧
      (x.state ≠ 1 → ∃ t, exec (.cpycan rd rs1) s = .next t ∧ Retired s t c rd 1))

/-- R25, R223, R228, R230 to R232, R237 to R239: the copy and template instructions. -/
def Obligations.Copies : Prop := Spec.CopyInstructions ∧ Spec.TemplateInstructions ∧ Spec.CopyStates

namespace Sys2Proof.Spec
open Sys2Proof.Machine

/-! ## Channels, time and system instructions (R300 to R325, R354 to R365) -/

/-- The status word of a channel at its node (R321). -/
def chanStat (c : XChan) : Nat :=
  ((if c.recvSt = 4 then 3 + 4 else if c.recvSt = 0 then 1 else c.recvSt) + 8 * c.fault.toNat + 16 * c.detour.toNat + 32 * c.eos.toNat + 64 * c.lateOpen.toNat +
    c.toks.length * 2 ^ 16 + c.margin * 2 ^ 32) % 2 ^ 64

/-- Whether an opening with a target is late at an end: its target has passed there, or an earlier one of the node that is still to
come there has a later target (R321). -/
def openLate (s : State) (r : Nat) (ch : XChan) (target : Nat) (send : Bool) : Prop :=
  target < (s.runt r (s.chanDie r ch send)).toNat ∨ ∃ j ∈ ch.cmds, j.opens = true ∧ target < j.target ∧ (if send then j.atSend else j.atRecv) = false

/-- The event of EVPOST as its 32 bytes (R387). -/
def postedBytes (code num idx : Nat) (tag : W32) (status : Nat) (data pktime : W64) : List Byte :=
  toBytes 4 code ++ toBytes 2 num ++ toBytes 2 idx ++ toBytes 4 tag.toNat ++ toBytes 4 status ++ toBytes 8 data.toNat ++ toBytes 8 pktime.toNat

/-- A field of a gauge over the three shares of its triad (R354, R365). -/
def gaugeValue (s : State) (c n f : Nat) : Nat :=
  let g (i : Nat) : Gauge := s.gauge (c % 64 + 64 * i) n
  if f = 0 then min (min (min 0xFFFFFFFF (g 0).least) (g 1).least) (g 2).least
  else if f = 1 then max (max (g 0).most (g 1).most) (g 2).most
  else if f = 2 then min ((g 0).count + (g 1).count + (g 2).count) (2 ^ 48 - 1)
  else if f = 3 then min ((g 0).sum + (g 1).sum + (g 2).sum) (2 ^ 64 - 1)
  else if f = 20 then (g 0).cfg.toNat
  else min ((g 0).bins.get 0 (f - 4) + (g 1).bins.get 0 (f - 4) + (g 2).bins.get 0 (f - 4)) (2 ^ 32 - 1)

/-- The records of a page, n bytes each, are of one capture: their headers agree but for the region's number, and the page's regions are of
one kind (R331, R332). -/
def OnePage (s : State) (p : Page) (b : List Byte) (n : Nat) : Prop :=
  0 < p.w * p.h ∧ (∀ i j, i < p.w * p.h → j < p.w * p.h → p.region i = p.region j → i = j) ∧
    ∀ i, i < p.w * p.h → (s.region (p.region i)).xoff = (s.region (p.region 0)).xoff ∧ ∀ o, 6 ≤ o → o < 0x40 → o ≠ 7 → b[i * n + o]? = b[o]?

/-- A page has taken the state of its records: the loop unit's fields at their places in the header, and in every region the constants and
each cell's q registers, ORES and LFSR at theirs (R332, R334). -/
structure Loaded (t : State) (pid : Nat) (p : Page) (b : List Byte) (n : Nat) : Prop where
  unit : ∀ q, q = t.page pid → q.ii = fieldAt b 0xF 1 ∧ q.counter = fieldAt b 0x10 1 ∧ q.base = fieldAt b 0x11 1 ∧ q.depth = fieldAt b 0x12 1 ∧
    q.sm.toNat = fieldAt b 0x13 1 ∧ q.lm.toNat = fieldAt b 0x14 1 ∧ q.exitF = (fieldAt b 0x15 1).testBit 0 ∧ q.retiring = (fieldAt b 6 1).testBit 3
  counts : ∀ q, q = t.page pid → q.passes = fieldAt b 0x16 2 ∧ q.trip = fieldAt b 0x18 4 ∧ q.nextIt = fieldAt b 0x1C 4 ∧ q.passIdx = fieldAt b 0x20 4 ∧
    q.exitIt = fieldAt b 0x24 4 ∧ q.ptime = fieldAt b 0x28 8 ∧ q.lastAln = fieldAt b 0x30 8 ∧ q.unfrozen = fieldAt b 0x38 8
  consts : ∀ i j, i < p.w * p.h → j < 16 → (t.region (p.region i)).k[j]? = some (BitVec.ofNat 32 (fieldAt b (i * n + 0x80 + 4 * j) 4))
  cells : ∀ i u x, i < p.w * p.h → u < 64 → x = t.cell (p.region i) u → ∀ o, o = i * n + 0x500 + 0x180 * u →
    (∀ j, j < 16 → x.q[j]? = some (BitVec.ofNat 32 (fieldAt b (o + 4 * j) 4))) ∧ x.ores = BitVec.ofNat 32 (fieldAt b (o + 0x40) 4) ∧
      x.lfsr = BitVec.ofNat 32 (fieldAt b (o + 0x44) 4)

/-- A gauge configuration that may be set (R355, R365). -/
def goodConfig (v : Nat) : Prop := v < 2 ^ 32 ∧ v % 16 ≤ 6 ∧ v / 32 % 8 = 0 ∧ v / 2 ^ 11 % 32 = 0

end Sys2Proof.Spec

/-- R300, R304, R319: TKRD reads the die's TICK; PKRD the package time, the run time or a page's time, of a run that holds its clusters; TKDRF what the die holds of
another die's clock. -/
def Sys2Proof.Spec.TimeReads : Prop :=
  ∀ (s : State) (c : Nat) (rd rs1 : Reg), c = s.focus.cluster →
    (∃ t, exec (.tkrd rd) s = .next t ∧ Retired s t c rd (s.die (c / 64)).tick) ∧
    ((s.reg c rs1).toNat = 0 → ∃ t, exec (.pkrd rd rs1) s = .next t ∧ Retired s t c rd (s.die (c / 64)).pktime) ∧
    ((s.reg c rs1).toNat = 1 → (s.run (s.runOf c)).phase ≠ .switched → ∃ t, exec (.pkrd rd rs1) s = .next t ∧ Retired s t c rd ((s.die (c / 64)).pktime - (s.run (s.runOf c)).epoch)) ∧
    (∀ h p, h < 256 → (s.reg c rs1).toNat = 2 + 256 * h → p = s.page (pidOf (s.runOf c) h) → (s.run (s.runOf c)).phase ≠ .switched →
      ∃ t, exec (.pkrd rd rs1) s = .next t ∧ Retired s t c rd (if p.gatesOpen = true ∧ p.run = s.runOf c
        then (s.die (c / 64)).pktime - (s.run (s.runOf c)).epoch - BitVec.ofNat 64 p.goff else BitVec.allOnes 64)) ∧
    (∀ d, d = (s.reg c rs1).toNat → ∀ h : d < 3, ∃ t v, exec (.tkdrf rd rs1) s = .next t ∧ Retired s t c rd v ∧
      (d = c / 64 → v = 0) ∧ (d ≠ c / 64 → (s.die (c / 64)).live[d] = false → v.toNat = 0x8000000080000000) ∧
      (d ≠ c / 64 → (s.die (c / 64)).live[d] = true →
        sgn 32 (v.toNat % 2 ^ 32) = min (max (s.die (c / 64)).wag[d].off (-2 ^ 31)) (2 ^ 31 - 1) ∧
        sgn 32 (v.toNat / 2 ^ 32) = min (max (s.die (c / 64)).wag[d].rate (-2 ^ 31)) (2 ^ 31 - 1)))

/-- R25, R320: TKALN waits until run time reaches its target, and returns the cycles it paused and how late it came. -/
def Sys2Proof.Spec.TimeAlignment : Prop :=
  ∀ (s : State) (c now tgt : Nat) (rd rs1 : Reg), c = s.focus.cluster → tgt = (s.reg c rs1).toNat →
    now = ((s.die (c / 64)).pktime - (s.run (s.runOf c)).epoch).toNat → (s.run (s.runOf c)).phase ≠ .switched →
    (now < tgt → ∃ t, exec (.tkaln rd rs1) s = .next t ∧ Waits s t c) ∧
    (tgt ≤ now → (s.ctl c).st ≠ .waiting → ∃ t v, exec (.tkaln rd rs1) s = .next t ∧ Retired s t c rd v ∧ v.toNat = min (now - tgt) (2 ^ 32 - 1) * 2 ^ 32) ∧
    (tgt ≤ now → (s.ctl c).st = .waiting → ∃ t v, exec (.tkaln rd rs1) s = .next t ∧ Result s t c rd v ∧
      v.toNat = min ((s.die (c / 64)).tick.toNat - (s.ctl c).waitFrom) (2 ^ 32 - 1))

/-- R321: CHOPEN and CHCLOSE give a channel of the run a command, behind its earlier ones; CHSTAT reads its status, the word of its receiving end,
with STATE 1 before the gates open (log 24); a handle that names no channel is stale. -/
def Obligations.ChannelInstructions : Prop :=
  ∀ (s : State) (c h r : Nat) (rd rs1 rs2 : Reg), c = s.focus.cluster → r = s.runOf c → h < 256 →
    ((s.run r).chans.find? h = none →
      ((s.reg c rs1).toNat = h → (∀ i ∈ [Instr.chopen rd rs1 rs2, .chclose rd rs1], ∃ t, exec i s = .next t ∧ Retired s t c rd (refused 7)) ∧
        ∃ t, exec (.chstat rd rs1) s = .next t ∧ Retired s t c rd 0)) ∧
    (∀ ch, (s.run r).chans.find? h = some ch →
      ((s.reg c rs1).toNat = h →
        (∃ t v, exec (.chstat rd rs1) s = .next t ∧ Retired s t c rd v ∧ (ch.recvSt ≤ 4 → v.toNat = chanStat ch)) ∧
        (∃ t, exec (.chclose rd rs1) s = .next t ∧ Result s t c rd 0 ∧
          (t.run r).chans.find? h = some { ch with cmds := ch.cmds ++ [⟨false, false, 0, false, false, false, false⟩] })) ∧
      (∀ el : Bool, (s.reg c rs1).toNat = h + 256 * el.toNat →
        ∃ t k, exec (.chopen rd rs1 rs2) s = .next t ∧ Result s t c rd 0 ∧ (t.run r).chans.find? h = some { ch with cmds := ch.cmds ++ [k] } ∧
          k.opens = true ∧ k.elastic = el ∧ k.target = (s.reg c rs2).toNat ∧ k.atSend = false ∧ k.atRecv = false ∧
          (k.lateSend = true ↔ openLate s r ch k.target true) ∧ (k.lateRecv = true ↔ openLate s r ch k.target false)))

/-- R308, R325: TKALNC of a live iteration moves its page's last alignment target on to the latest time, not after now, that its operands
name; where the word itself paused its page, the pending channel ends of the page are aligned. While its target lies 1 to 2³¹ cycles ahead, it
blocks its page's cycle (a pause for alignment, cause 5). A dead iteration does nothing. -/
def Sys2Proof.Spec.AlignmentWord : Prop :=
  ∀ (w : C2) (s : State) (pid now x : Nat), Issues s w.stg w.grd → pid = s.pageOf s.focus.region →
    ((issue s w.stg).live = true → (∀ v ∈ [w.sa, w.sb], 0x10 ≤ v.toNat → v.toNat < 0x18 → 0 < (qAt (s.cell s.focus.region s.focus.unit).ins (v.toNat % 4)).avail) →
      now = (s.pageTime pid).toNat → ∀ d, d < 2 ^ 32 →
      (now + d) % 2 ^ 32 = ((s.src (issue s w.stg) w.sa w.imm8).toNat + (s.src (issue s w.stg) w.sb w.imm8).toNat) % 2 ^ 32 →
      s.cellIssueBlocks s.focus.region s.focus.unit (.tkalnc w) w.stg.toNat = if 1 ≤ d ∧ d ≤ 2 ^ 31 then [Block.of s.focus.region s.focus.unit 5 255] else []) ∧
    ((issue s w.stg).live = false → exec (.tkalnc w) s = .next s) ∧
    ((issue s w.stg).live = true → HeadsReady s true (named [w.sa, w.sb]) → now = (s.pageTime pid).toNat → x ≤ now → now < x + 2 ^ 31 →
      x % 2 ^ 32 = ((s.src (issue s w.stg) w.sa w.imm8).toNat + (s.src (issue s w.stg) w.sb w.imm8).toNat) % 2 ^ 32 →
      ∃ t, exec (.tkalnc w) s = .next t ∧ t.page pid = { s.page pid with lastAln := max (s.page pid).lastAln x } ∧ t.mem = s.mem ∧
        (∀ n, n < 4 → qAt (t.cell s.focus.region s.focus.unit).ins n = if named [w.sa, w.sb] n then (qAt (s.cell s.focus.region s.focus.unit).ins n).pop
          else qAt (s.cell s.focus.region s.focus.unit).ins n) ∧
        (t.cell s.focus.region s.focus.unit).slots = (s.cell s.focus.region s.focus.unit).slots ∧
        ((s.page pid).alnRun.get 0 (64 * s.focus.region + s.focus.unit) = 0 → t.runs = s.runs ∧ t.clusters = s.clusters) ∧
        (0 < (s.page pid).alnRun.get 0 (64 * s.focus.region + s.focus.unit) → ∀ h ch, (s.run (s.page pid).run).chans.find? h = some ch →
          ∃ ch', (t.run (s.page pid).run).chans.find? h = some ch' ∧
            (ch.ppage = (s.page pid).handle → ch.sendSt = 4 → ch'.sendAligned = true) ∧ (ch.cpage = (s.page pid).handle → ch.recvSt = 4 → ch'.recvAligned = true) ∧
            (ch.sendSt = 4 → ch.recvSt = 4 → ch'.sendAligned = true → ch'.recvAligned = true → ch'.sendSt = 2 ∧ ch'.recvSt = 2)))

/-- R25, R300, R304, R308, R319, R320, R325: reading and waiting for time. -/
def Obligations.TimeInstructions : Prop := Spec.TimeReads ∧ Spec.TimeAlignment ∧ Spec.AlignmentWord

/-- R25, R358: HALT waits for its controller's commands and copies, then stops it with its exit value; EVPOST posts an event to the run's
queue, or notes that it was dropped. -/
def Sys2Proof.Spec.HaltAndEvents : Prop :=
  ∀ (s : State) (c r : Nat) (rs1 rs2 : Reg), c = s.focus.cluster → r = s.runOf c → (s.reg c rs1).toNat < 2 ^ 32 →
    ((s.cluster c).cmds = [] → (∀ e ∈ (s.cluster c).copies, e.2.owner = .controller → e.2.state ≠ 1 ∧ e.2.state ≠ 3) →
      ∃ t, exec (.halt rs1) s = .next t ∧ (t.ctl c).st = .halted ∧ (t.ctl c).exitv.toNat = (s.reg c rs1).toNat ∧ (t.ctl c).instret = (s.ctl c).instret + 1 ∧
        (∀ n, (t.ctl c).reg n = (s.ctl c).reg n) ∧ t.resvs.find? c = none ∧ t.mem = s.mem ∧ ∀ d, d ≠ c → t.cluster d = s.cluster d) ∧
    ((s.cluster c).cmds ≠ [] ∨ (∃ e ∈ (s.cluster c).copies, e.2.owner = .controller ∧ (e.2.state = 1 ∨ e.2.state = 3)) →
      ∃ t, exec (.halt rs1) s = .next t ∧ Waits s t c) ∧
    (∀ q, q = s.queue (s.run r).queue → (s.run r).queue.link = false →
      (q.evEn = false ∨ q.evTail - q.evHead = BitVec.ofNat 32 (2 ^ q.evLog2) →
        ∃ t, exec (.evpost rs1 rs2) s = .next t ∧ Result s t c 0 0 ∧ (t.queue (s.run r).queue).evovf = true ∧ (t.queue (s.run r).queue).evTail = q.evTail) ∧
      (∀ s₁, q.evEn = true → q.evTail - q.evHead ≠ BitVec.ofNat 32 (2 ^ q.evLog2) →
        s.tenantWrite (s.run r).queue.tenant (q.evbase.toNat + 32 * (q.evTail.toNat % 2 ^ q.evLog2))
          (postedBytes 6 (s.run r).queue.num (s.cluster c).idx (s.run r).ctxtag (s.reg c rs1).toNat (s.reg c rs2) (s.die s.qc.active).pktime) = .ok s₁ →
        ∃ t, exec (.evpost rs1 rs2) s = .next t ∧ t.mem = s₁.mem ∧ t.slices = s₁.slices ∧ (t.queue (s.run r).queue).evTail = (s₁.queue (s.run r).queue).evTail + 1 ∧
          (∀ n, (t.ctl c).reg n = (s₁.ctl c).reg n) ∧ (t.ctl c).pc = (s₁.ctl c).pc + (if (s₁.ctl c).comp then 2 else 4)))

/-- R359, R363, R364: TRAPREC reads the first 8 bytes of the controller's trap record, and stores all 64 where asked; PREQ makes a
pre-emption request pending and returns the count of resumptions; TXLAT walks an address and reports the leaf or why there is none. -/
def Sys2Proof.Spec.SystemReads : Prop :=
  ∀ (s : State) (c r : Nat) (rd rs1 : Reg), c = s.focus.cluster → r = s.runOf c →
    (∀ k v, k = (s.ctl c).trap → v = k.cause.toNat + k.flags.toNat * 2 ^ 8 + k.cluster.toNat * 2 ^ 16 + k.insn.toNat * 2 ^ 32 →
      (s.reg c rs1 = 0 → ∃ t, exec (.traprec rd rs1) s = .next t ∧ Retired s t c rd (BitVec.ofNat 64 v)) ∧
      (∀ s₁ p, s.reg c rs1 ≠ 0 → (s.reg c rs1).toNat % 64 = 0 → Uncached p → HostOpen s c p → s.place c (s.tenantOf c) .write plainTarget (s.reg c rs1).toNat 64 = (.ok [p], s₁) →
        ∃ t, exec (.traprec rd rs1) s = .next t ∧ RetiredMem s₁ t c rd (BitVec.ofNat 64 v) ∧
          (s.memOk → ∀ i, i < 64 → some (memGet t.mem (p.pa + i)) = k.bytes[i]?) ∧ ∀ x, x < p.pa ∨ p.pa + 64 ≤ x → memGet t.mem x = memGet s.mem x)) ∧
    (∀ ask tack : Bool, (s.reg c rs1).toNat = ask.toNat + 2 * tack.toNat →
      ∃ t, exec (.preq rd rs1) s = .next t ∧ (t.run r).preq = (if ask = true ∧ (s.run r).preq = none then some tack else (s.run r).preq) ∧
        Result s t c rd (BitVec.ofNat 64 ((s.run r).resumes % 2 ^ 32 + 2 ^ 32 * (t.run r).preq.isSome.toNat))) ∧
    (∀ l why s₁, s.leafFor c (s.tenantOf c) (s.reg c rs1).toNat = (.error (l, why), s₁) →
      ∃ t, exec (.txlat rd rs1) s = .next t ∧ Retired s₁ t c rd (BitVec.ofNat 64 (l * 2 ^ 56 + why * 2 ^ 60))) ∧
    (∀ e s₁, s.leafFor c (s.tenantOf c) (s.reg c rs1).toNat = (.ok e, s₁) →
      ∃ t v, exec (.txlat rd rs1) s = .next t ∧ Retired s₁ t c rd v ∧ v.getLsbD 0 = true ∧ v.toNat / 8 % 2 = e.w.toNat ∧ v.toNat / 16 % 2 = e.x.toNat ∧
        v.toNat / 2 % 4 = (if e.size = 2 ^ 40 then 2 else if e.size = 2 ^ 28 then 1 else 0) ∧
        ∀ at', at' = targetOf (e.pa + ((s.reg c rs1).toNat - e.va)) →
          (e.key < 2 ^ 46 → (∀ x o, at' = .scratch x o → (s.cluster x).idx < 256) → v.toNat / 2 ^ 18 = e.key) ∧
          (∀ d, at' = .hbm d → v.toNat / 32 % 8 = 0 ∧ v.toNat / 256 % 4 = d) ∧
          (∀ x o, at' = .scratch x o → v.toNat / 32 % 8 = 1 ∧ v.toNat / 256 % 4 = x / 64 ∧
            ((s.cluster x).owner = some r → (s.cluster x).idx < 256 → v.toNat / 1024 % 256 = (s.cluster x).idx)) ∧
          (∀ n o, at' = .slice n o → v.toNat / 32 % 8 = 2 ∧ v.toNat / 256 % 4 = n / 21) ∧
          (at' = .host → v.toNat / 32 % 8 = 3) ∧
          ((∀ x o, at' ≠ .scratch x o) → v.toNat / 1024 % 256 = 255))

/-- R25, R358, R359, R363, R364: HALT, EVPOST, TRAPREC, PREQ and TXLAT. That an EVPOST event carries PKTIME of the active complex's die is log 31, and that PREQ shows the first pending request log 30. -/
def Obligations.SystemInstructions : Prop := Spec.HaltAndEvents ∧ Spec.SystemReads

/-- R354 to R356, R365: GAUGESEL configures a gauge of the cluster's triad, clearing it where its event changes, and returns the old
configuration; GAUGERD reads a field over the three shares; GAUGECLR clears the gauges of a mask. -/
def Obligations.GaugeInstructions : Prop :=
  ∀ (s : State) (c : Nat) (rd rs1 rs2 : Reg), c = s.focus.cluster →
    (∀ n, n = (s.reg c rs1).toNat → n < 16 → goodConfig (s.reg c rs2).toNat →
      ∃ t, exec (.gaugesel rd rs1 rs2) s = .next t ∧ Result s t c rd ((s.gauge c n).cfg.zeroExtend 64) ∧
        ∀ i, i < 3 → ∀ m, t.gauge (c % 64 + 64 * i) m = if m = n then
          (if (s.gauge (c % 64 + 64 * i) n).cfg.toNat % 16 = (s.reg c rs2).toNat % 16 then { s.gauge (c % 64 + 64 * i) n with cfg := (s.reg c rs2).truncate 32 }
            else { Gauge.cleared with cfg := (s.reg c rs2).truncate 32 }) else s.gauge (c % 64 + 64 * i) m) ∧
    (∀ n f, n < 16 → f ≤ 20 → (s.reg c rs1).toNat = n + 16 * f →
      ∃ t, exec (.gaugerd rd rs1) s = .next t ∧ Retired s t c rd (BitVec.ofNat 64 (gaugeValue s c n f))) ∧
    ((s.reg c rs1).toNat < 2 ^ 16 →
      ∃ t, exec (.gaugeclr rs1) s = .next t ∧ Result s t c 0 0 ∧
        ∀ i, i < 3 → ∀ m, m < 16 → t.gauge (c % 64 + 64 * i) m = if (s.reg c rs1).getLsbD m then { Gauge.cleared with cfg := (s.gauge (c % 64 + 64 * i) m).cfg }
          else s.gauge (c % 64 + 64 * i) m)

/-- R331, R360 to R362: SVSIZE gives the bytes of a page's records; SVSAVE of a placed page that is no end of a channel is accepted and asks for
its capture; SVLOAD of a page with closed gates, at an address of any alignment (log 26), ends at once as its status says: done with the gates
closed, failed, or with the run in error; SVSTAT reads how the last one stands. -/
def Obligations.SaveInstructions : Prop :=
  ∀ (s : State) (c r h : Nat) (rd rs1 rs2 : Reg), c = s.focus.cluster → r = s.runOf c → (s.reg c rs1).toNat = h → h < 256 →
    (s.pages.find? (pidOf r h) = none → ∀ i ∈ [Instr.svsize rd rs1, .svstat rd rs1], ∃ t, exec i s = .next t ∧ Retired s t c rd 0) ∧
    (∀ p, s.pages.find? (pidOf r h) = some p →
      (∃ t, exec (.svsize rd rs1) s = .next t ∧ Retired s t c rd (BitVec.ofNat 64 (p.w * p.h * s.recordSize (pidOf r h)))) ∧
      (∃ u t v, exec (.svstat rd rs1) s = .next t ∧ Retired u t c rd v ∧ v.toNat = (p.sv.state + 4 * p.sv.isLoad.toNat + 256 * p.sv.code) % 2 ^ 64 ∧
        (p.sv.state = 2 → Acquired s u c 4) ∧ (p.sv.state ≠ 2 → u = s)) ∧
      ((s.cluster c).cmds = [] → 3 ≤ p.level → p.level ≤ 5 →
        (p.svReq = none → (s.reg c rs2).toNat % 4096 = 0 → s.inGroup (pidOf r h) = false →
          ∃ t m, exec (.svsave rd rs1 rs2) s = .next t ∧ Result s t c rd 0 ∧ (t.cluster c).cmds = [m] ∧ m.instr = .svsave rd rs1 rs2 ∧
            t.page (pidOf r h) = { p with sv := ⟨1, false, 0⟩, svReq := some ((s.reg c rs2).toNat, m.ident) }) ∧
        (p.level = 3 → p.gated = false → (s.cluster c).owner = some r → (s.run r).err = none → (∀ d ∈ (s.run p.run).clusters, (s.cluster d).cmds = []) →
          ∃ t, exec (.svload rd rs1 rs2) s = .next t ∧ Result s t c rd 0 ∧ (t.cluster c).cmds = [] ∧ (t.page (pidOf r h)).sv.isLoad = true ∧
            (((t.page (pidOf r h)).sv.state = 2 ∧ (t.page (pidOf r h)).level = 3 ∧ (t.page (pidOf r h)).svClosed = true ∧ (t.page (pidOf r h)).gated = false) ∨
             (t.page (pidOf r h)).sv.state = 3 ∨ ((t.run r).err.isSome = true ∧ (t.page (pidOf r h)).sv.state = 1))) ∧
        (4 ≤ p.level → ∃ t, exec (.svload rd rs1 rs2) s = .next t ∧ Retired s t c rd (refused 9))))

/-- R25, R205: a waiting controller's latched instruction is looked at again: the waiting instructions act as they do when they issue,
and so does a queued command whose acceptance waited. -/
def Obligations.WaitingInstructions : Prop :=
  ∀ (s : State) (c : Nat) (rd rs1 rs2 : Reg), c = s.focus.cluster → (s.ctl c).st = .waiting →
    (∀ i ∈ [Instr.semwait rd rs1 rs2, .barwait rd rs1 rs2, .pgwait rd rs1 rs2, .tkaln rd rs1, .stwait rd rs1, .cpywait rd rs1, .halt rs1, .wayset rd rs1 rs2],
      decode32 (s.ctl c).insn = .ok i → ∃ t, exec .controllerWaitEnd s = .next t ∧ exec i s = .next t) ∧
    (decode32 (s.ctl c).insn = .ok (.semwait rd rs1 rs2) → ∀ sem, sem < 64 → (s.reg c rs1).toNat = sem → (s.reg c rs2).toNat ≤ (s.sem c sem).toNat →
      ∃ u t, exec .controllerWaitEnd s = .next t ∧ Acquired s u c 0 ∧ Retired u t c rd (s.sem c sem)) ∧
    (∀ i ∈ [Instr.stbind rd rs1 rs2, .stbindi rd rs1 rs2, .pgplace rd rs1, .pgfree rd rs1, .gateopen rd rs1, .tripset rd rs1 rs2, .pgconst rd rs1 rs2,
        .seamset rd rs1 rs2, .svsave rd rs1 rs2, .svload rd rs1 rs2, .ststop rd rs1, .stcur rd rs1, .ststat rd rs1],
      decode32 (s.ctl c).insn = .ok i → ∃ t, exec .queuedCommandAcceptance s = .next t ∧ exec i s = .next t) ∧
    (decode32 (s.ctl c).insn = .ok (.gateopen rd rs1) → (s.cluster c).cmds = [] → ∀ h p, h < 256 → (s.reg c rs1).toNat = h →
      s.pages.find? (pidOf (s.runOf c) h) = some p → p.level = 3 → p.gated = false → p.held = true →
      ∃ t, exec .queuedCommandAcceptance s = .next t ∧ Result s t c rd 0 ∧ t.page (pidOf (s.runOf c) h) = { p with gated := true })

namespace Sys2Proof.Spec
open Sys2Proof.Machine

/-! ## Queues and packets (R366 to R388) -/

/-- STATE of a queue whose packet no longer occupies it (R369). -/
def restState (p : Queue) : Nat :=
  if p.state = 5 then 5 else if p.run.isSome = true then 4 else if p.en = false then 0 else if p.head = p.tail then 1 else 2

/-- An event is posted at EVTAIL where the event queue has room and its place can be written; else it is dropped and EVOVF set (R387,
R388). -/
def Posted (s t : State) (q : QueueId) (code : Nat) (tag : W32) (status : Nat) (data : W64) : Prop :=
  match s.tenantWrite q.tenant ((s.queue q).evbase.toNat + 32 * ((s.queue q).evTail.toNat % 2 ^ (s.queue q).evLog2))
      (postedBytes code q.num 0xFFFF tag status data (s.die s.qc.active).pktime) with
  | .ok u => if (s.queue q).evEn = true ∧ (s.queue q).evTail - (s.queue q).evHead ≠ BitVec.ofNat 32 (2 ^ (s.queue q).evLog2)
    then t = u.setQueue q { u.queue q with evTail := (s.queue q).evTail + 1 } else t = s.setQueue q { s.queue q with evovf := true }
  | .error _ => t = s.setQueue q { s.queue q with evovf := true }

/-- A queue's vector is raised (R367). -/
def rung (s : State) (q : QueueId) : State :=
  s.setTenant q.tenant { s.tenant q.tenant with vectors := (s.tenant q.tenant).vectors ++ [(s.queue q).vec] }

/-- The packet-complete event of a packet with NOTIFY, bit 1 of its FLAGS (R46, R387). -/
def Noted (s t : State) (q : QueueId) (b : List Byte) : Prop :=
  if (fieldAt b 1 1).testBit 1 = true then ∃ u, Posted s u q 1 (BitVec.ofNat 32 (fieldAt b 4 4)) 0 0 ∧ t = rung u q else t = s

/-- A packet that has waited is a gauge sample; one that has not changes nothing here (R355). -/
structure Sampled (s t : State) (q : QueueId) : Prop where
  none : (s.queue q).started = false → t = s
  rest : t = { s with clusters := t.clusters }
  gauges : ∀ c, t.cluster c = { s.cluster c with gauges := (t.cluster c).gauges }

/-- The queue with its packet done, for the head and the place in a buffer that follow. -/
def afterPacket (p : Queue) (head : W32) (ind : Option (Nat × Nat × Nat)) (indPkt : List Byte) : Queue :=
  { p with cur := none, started := false, run := none, uncommit := some (p.head, p.ind, p.indPkt), head := head, ind := ind, indPkt := indPkt
           state := restState { p with run := none, head := head } }

/-- QHEAD, or the place in an indirect buffer, moves past the packet; an INDIRECT completes with its last packet (R370, R381). -/
def Advanced (s t : State) (q : QueueId) : Prop :=
  match (s.queue q).ind with
  | none => t = s.setQueue q (afterPacket (s.queue q) ((s.queue q).head + 1) none (s.queue q).indPkt)
  | some (a, n, k) =>
    if k + 1 < n then t = s.setQueue q (afterPacket (s.queue q) (s.queue q).head (some (a, n, k + 1)) (s.queue q).indPkt)
    else Noted (s.setQueue q (afterPacket (s.queue q) ((s.queue q).head + 1) none [])) t q (s.queue q).indPkt

/-- The packet in progress of a queue completes (R370, R387). -/
def Completed (s t : State) (q : QueueId) : Prop :=
  ∃ b w u, (s.queue q).cur = some b ∧ Sampled s w q ∧ Noted w u q b ∧ Advanced u t q

/-- The packet in progress fails: its queue enters the error state with the cause, posts a queue-error event and raises its vector, and
QHEAD stays (R372). -/
def Failed (s t : State) (q : QueueId) (cause : Nat) : Prop :=
  ∃ b u, (s.queue q).cur = some b ∧
    Posted (s.setQueue q { s.queue q with
      state := 5, cause := cause, errtag := BitVec.ofNat 32 (fieldAt b 4 4), skip := true, cur := if (s.queue q).run.isSome then some b else none, started := false })
      u q 4 (BitVec.ofNat 32 (fieldAt b 4 4)) cause 0 ∧ t = rung u q

/-- The packet in progress waits (R25, R373). -/
def PacketWaits (s t : State) (q : QueueId) : Prop :=
  t = s.setQueue q { s.queue q with state := 3, started := true, waitFrom := if (s.queue q).started then (s.queue q).waitFrom else (s.die 0).tick }

/-- A packet that writes bytes at an address of its tenant. -/
def Writes (s t : State) (q : QueueId) (addr : W64) (d : List Byte) : Prop :=
  match s.tenantWrite q.tenant addr.toNat d with
  | .ok u => Completed u t q
  | .error _ => Failed s t q 0x22

/-- The waiting WAITSEMs of a tenant are to look again (R382). -/
def Rereads (s t : State) (tenant : Nat) : Prop :=
  ∃ l, t = { s with agenda := l ++ s.agenda } ∧
    ∀ k, Job.ev .waitsemReread { Focus.none with queue := ⟨tenant, false, k⟩ } ∈ l ↔ ∃ e ∈ (s.tenant tenant).queues, e.1 = k ∧ e.2.state = 3

/-- The 96 bytes of a gauge of a triad (R383). -/
def gaugeRecord (s : State) (t n : Nat) : List Byte :=
  toBytes 4 (gaugeValue s t n 0) ++ toBytes 4 (gaugeValue s t n 1) ++ toBytes 8 (gaugeValue s t n 2) ++ toBytes 8 (gaugeValue s t n 3) ++
  (List.range 16).flatMap (fun b => toBytes 4 (gaugeValue s t n (4 + b))) ++ toBytes 4 (gaugeValue s t n 20) ++ toBytes 4 0

/-- When the word of a WAITSEM satisfies it (R382). -/
def Satisfied (word value mask : W64) (cond : Nat) : Prop :=
  if cond = 0 then value.toNat ≤ (word &&& mask).toNat else if cond = 1 then word &&& mask = value else word &&& mask ≠ value

/-- A body of RUN or RESUME as R384 asks for it. -/
structure GoodRun (s : State) (b : RunBody) : Prop where
  triads : 0 < (List.range 64).countP b.triads.toNat.testBit
  epool : b.epool.toNat % 0x10000 = 0 ∧ b.epool.toNat ≤ s.scrcap / 2
  errarea : b.errarea.toNat % 0x10000 = 0
  savearea : b.savearea.toNat % 4096 = 0
  savesz : 3 * (List.range 64).countP b.triads.toNat.testBit * s.scrcap / 65536 + 3 ≤ b.savesz.toNat
  exits : b.exits.toNat % 4 = 0

/-- The head of a save area that a RESUME may restore (R386): its bytes, the magic and version, the validity bit, the tenant, the count of
triads and the first 8 bytes of the image's digest. -/
def GoodSave (s : State) (tenant : Nat) (b : RunBody) (head : List Byte) : Prop :=
  ∃ h d, s.tenantRead tenant b.savearea.toNat 4096 = .ok h ∧ s.tenantRead tenant (b.image.toNat + fieldAt head 0x28 4 + 0x10) 8 = .ok d ∧
    subBytes h 0 4 = [0x53, 0x56, 0x52, 0x4E] ∧ fieldAt h 4 2 = 1 ∧ (fieldAt h 0x12 1).testBit 0 = true ∧ fieldAt h 0x10 1 = tenant ∧
    fieldAt h 0x11 1 = (List.range 64).countP b.triads.toNat.testBit ∧ subBytes h 0x18 8 = d

/-- A RUN or RESUME has been accepted: run n is its run, and waits for its triads or is to be mapped. -/
structure Accepted (s t : State) (q : QueueId) (h : PktHdr) (b : RunBody) (resume : Bool) (n : Nat) : Prop where
  next : t.nextRun = s.nextRun + 1 ∧ (t.queue q).run = some n
  body : (t.run n).body = b ∧ (t.run n).resume = resume ∧ (t.run n).tenant = q.tenant ∧ (t.run n).queue = q ∧ (t.run n).ctxtag = h.ctxtag ∧
    (t.run n).notify = h.flags.getLsbD 1 ∧ (t.run n).graphs = [] ∧ (t.run n).err = none
  triads : ∀ k, k ∈ (t.run n).triads ↔ k < 64 ∧ b.triads.getLsbD k = true
  waits : ((t.run n).phase = .waiting ∧ (t.queue q).state = 3) ∨
    ((t.run n).phase = .mapping ∧ Job.ev .map { Focus.none with run := n } ∈ t.agenda)
  rest : t.mem = s.mem ∧ t.clusters = s.clusters ∧ t.regions = s.regions ∧ t.pages = s.pages

end Sys2Proof.Spec

/-- R372, R377 to R379, R382, R383, R387: NOP, SEAL, EVENT, TIMESTAMP, WRDATA, SIGNAL and GAUGE complete once they have had their effect;
with a reserved byte or a field that breaks its rule they fail with cause 0x20, with a triad of another tenant 0x23, and where their
address cannot be written 0x22. A packet of no type fails with 0x20. -/
def Obligations.PlainPackets : Prop :=
  ∀ (s : State) (q : QueueId) (b : List Byte) (h : PktHdr), q = s.focus.queue → (s.queue q).cur = some b →
    (∃ t, exec (.nopPacket h) s = .next t ∧ if h.junk = true then Failed s t q 0x20 else Completed s t q) ∧
    (∃ t, exec (.sealPacket h) s = .next t ∧ if h.junk = true then Failed s t q 0x20 else Completed (s.setQueue q { s.queue q with pre := [] }) t q) ∧
    (∀ typ, ∃ t, exec (.badPacketType h typ) s = .next t ∧ Failed s t q 0x20) ∧
    (∀ code data, ∃ t, exec (.eventPacket h code data) s = .next t ∧
      if h.junk = true then Failed s t q 0x20
      else ∃ u, Posted s u q 5 h.ctxtag code.toNat data ∧ Completed (if h.flags.getLsbD 1 then rung u q else u) t q) ∧
    (∀ addr src, ∃ t, exec (.timestampPacket h addr src) s = .next t ∧
      if h.junk = true ∨ addr.toNat % 8 ≠ 0 ∨ 1 < src.toNat then Failed s t q 0x20
      else Writes s t q addr (toBytes 8 (if src = 0 then (s.die s.qc.active).pktime else (s.die s.qc.active).tick).toNat)) ∧
    (∀ addr len data, ∃ t, exec (.wrdataPacket h addr len data) s = .next t ∧
      if h.junk = true ∨ len = 0 ∨ 40 < len.toNat then Failed s t q 0x20 else Writes s t q addr (toBytes len.toNat data.toNat)) ∧
    (∀ addr value op, ∃ t, exec (.signalPacket h addr value op) s = .next t ∧
      if h.junk = true ∨ 2 < op.toNat ∨ addr.toNat % (if op.toNat = 2 then 4 else 8) ≠ 0 then Failed s t q 0x20
      else match (if op.toNat = 1 then s.tenantAdd q.tenant addr.toNat value else s.tenantWrite q.tenant addr.toNat (toBytes (if op.toNat = 2 then 4 else 8) value.toNat)) with
        | .ok u => ∃ w, Completed u w q ∧ Rereads w t q.tenant
        | .error _ => Failed s t q 0x22) ∧
    (∀ addr triad op gmask config, ∃ t, exec (.gaugePacket h addr triad op gmask config) s = .next t ∧
      (h.junk = true ∨ addr.toNat % 64 ≠ 0 ∨ 2 < op.toNat ∨ (op = 1 ∧ ¬ goodConfig config.toNat) → Failed s t q 0x20) ∧
      (h.junk = false → addr.toNat % 64 = 0 → op.toNat ≤ 2 → (op = 1 → goodConfig config.toNat) → triad.toNat < 64 →
        (triad.toNat ∉ (s.tenant q.tenant).triads → Failed s t q 0x23) ∧
        (triad.toNat ∈ (s.tenant q.tenant).triads →
          (op = 0 → Writes s t q addr (((List.range 16).filter gmask.toNat.testBit).flatMap (gaugeRecord s triad.toNat))) ∧
          (op ≠ 0 → ∃ u, Completed u t q ∧ u = { s with clusters := u.clusters } ∧ ∀ i, i < 3 → ∀ n, n < 16 → ∀ g, g = s.gauge (triad.toNat + 64 * i) n →
            u.gauge (triad.toNat + 64 * i) n = if gmask.getLsbD n = false then g
              else if op = 2 then { Gauge.cleared with cfg := g.cfg }
              else if g.cfg.toNat % 16 = config.toNat % 16 then { g with cfg := config.truncate 32 } else { Gauge.cleared with cfg := config.truncate 32 }))))

/-- R371, R381 to R383: WAITSEM completes when its word satisfies it, and waits until then, looking again after a SIGNAL; BARRIER waits
until every queue that it names stands at it, and then completes each; FENCE waits for the copies of earlier COPY packets; INDIRECT puts
the packets of its buffer in its place. -/
def Obligations.WaitingPackets : Prop :=
  ∀ (s : State) (q : QueueId) (b : List Byte) (h : PktHdr), q = s.focus.queue → (s.queue q).cur = some b →
    (∀ addr value mask cond, ∃ t, exec (.waitsemPacket h addr value mask cond) s = .next t ∧
      (if h.junk = true ∨ addr.toNat % 8 ≠ 0 ∨ 2 < cond.toNat then Failed s t q 0x20
      else match s.tenantRead q.tenant addr.toNat 8 with
        | .error _ => Failed s t q 0x22
        | .ok d => (Satisfied (BitVec.ofNat 64 (ofBytes d)) value mask cond.toNat → Completed s t q) ∧
          (¬ Satisfied (BitVec.ofNat 64 (ofBytes d)) value mask cond.toNat → PacketWaits s t q)) ∧
      (decodePacket b = .waitsemPacket h addr value mask cond → ∃ u, exec .waitsemReread s = .next u ∧ u = if (s.queue q).state = 3 then t else s)) ∧
    (∀ (qmask : BitVec 16) n, ∃ t, exec (.barrierPacket h qmask n) s = .next t ∧
      (h.junk = true ∨ qmask.toNat.testBit q.num = false → Failed s t q 0x20) ∧
      (h.junk = false → qmask.toNat.testBit q.num = true → ∀ at' : Nat → Prop,
        (∀ k, at' k ↔ (s.queue ⟨q.tenant, false, k⟩).en = true ∧ (s.queue ⟨q.tenant, false, k⟩).state ≠ 5 ∧
          ∃ c j, (s.queue ⟨q.tenant, false, k⟩).cur = some c ∧ decodePacket c = .barrierPacket j qmask n) →
        ((∀ k, k < 16 → qmask.getLsbD k = true → at' k) → ∀ k, k < 16 →
          (qmask.getLsbD k = true → (t.queue ⟨q.tenant, false, k⟩).cur = none ∧
            ((s.queue ⟨q.tenant, false, k⟩).ind = none → (t.queue ⟨q.tenant, false, k⟩).head = (s.queue ⟨q.tenant, false, k⟩).head + 1)) ∧
          (qmask.getLsbD k = false → t.queue ⟨q.tenant, false, k⟩ = s.queue ⟨q.tenant, false, k⟩)) ∧
        ((∃ k, k < 16 ∧ qmask.getLsbD k = true ∧ ¬ at' k) → PacketWaits s t q))) ∧
    (∀ scope, ∃ t, exec (.fencePacket h scope) s = .next t ∧
      if h.junk = true ∨ 5 < scope.toNat then Failed s t q 0x20
      else ((∃ e ∈ (s.queue q).copies, (s.copy e.1 e.2.1).gen = e.2.2 ∧ ((s.copy e.1 e.2.1).state = 1 ∨ (s.copy e.1 e.2.1).state = 3)) → t = s) ∧
        ((∀ e ∈ (s.queue q).copies, (s.copy e.1 e.2.1).gen ≠ e.2.2 ∨ ((s.copy e.1 e.2.1).state ≠ 1 ∧ (s.copy e.1 e.2.1).state ≠ 3)) →
          Completed (s.setQueue q { s.queue q with copies := [] }) t q)) ∧
    (∀ addr count, ∃ t, exec (.indirectPacket h addr count) s = .next t ∧
      if h.junk = true ∨ addr.toNat % 64 ≠ 0 ∨ count = 0 ∨ 65536 < count.toNat ∨ (s.queue q).ind.isSome = true then Failed s t q 0x20
      else ∃ pre, t = s.setQueue q { s.queue q with ind := some (addr.toNat, count.toNat, 0), indPkt := b, cur := none, pre := pre, state := restState (s.queue q) } ∧
        (h.flags.getLsbD 0 = false → pre = (s.queue q).pre) ∧ ∀ e ∈ pre, e ∈ (s.queue q).pre)

/-- R380, R384, R386: COPY enters a copy of its card and records into a cluster of the tenant, or waits for a slot; a card or a record that breaks
R212 fails it with cause SHAPE, one that cannot be read with 0x22 or the cause of the access; RUN and RESUME that keep the rules of
their body, of their triads and of the save area create a run, which is mapped at once where no other wants its triads. Otherwise they fail: with
0x20, 0x22 where their bytes cannot be read, 0x23 for a triad of another, 0x24 for a save area that does not fit (in SCRAP with 0x20: log 80; 0x22 for a
save area and 0x24 for a digest that cannot be read: log 39). -/
def Obligations.RunPackets : Prop :=
  ∀ (s : State) (q : QueueId) (b : List Byte) (h : PktHdr), q = s.focus.queue → (s.queue q).cur = some b →
    (∀ (va : W64) (cluster die : Byte), h.junk = true ∨ va.toNat % 64 ≠ 0 ∨ 2 < die.toNat ∨ 63 < cluster.toNat →
      ∃ t, exec (.copyPacket h va cluster die) s = .next t ∧ Failed s t q 0x20) ∧
    (∀ (r : RunBody), h.junk = true ∨ s.dev.lc = .scrap → ∀ i ∈ [Instr.runPacket h r, .resumePacket h r], ∃ t, exec i s = .next t ∧ Failed s t q 0x20) ∧
    (h.junk = false →
    (∀ (va : W64) (cluster die : Byte) c card a d, c = 64 * die.toNat + cluster.toNat → va.toNat % 64 = 0 → die.toNat ≤ 2 → cluster.toNat ≤ 63 →
      (cluster.toNat ∉ (s.tenant q.tenant).triads → ∃ t, exec (.copyPacket h va cluster die) s = .next t ∧ Failed s t q 0x23) ∧
      (cluster.toNat ∈ (s.tenant q.tenant).triads → (∀ l, s.tenantRead q.tenant va.toNat 128 ≠ .ok l) →
        ∃ t, exec (.copyPacket h va cluster die) s = .next t ∧ Failed s t q 0x22) ∧
      (cluster.toNat ∈ (s.tenant q.tenant).triads → s.tenantRead q.tenant va.toNat 128 = .ok card → cardSem card ≠ 0 ∨ cardBar card ≠ 0 →
        ∃ t, exec (.copyPacket h va cluster die) s = .next t ∧ Failed s t q 0x20) ∧
      (cluster.toNat ∈ (s.tenant q.tenant).triads → s.tenantRead q.tenant va.toNat 128 = .ok card → cardSem card = 0 → cardBar card = 0 →
        cardBad card .issued 192 = true → ∃ t, exec (.copyPacket h va cluster die) s = .next t ∧ Failed s t q 8) ∧
      (cluster.toNat ∈ (s.tenant q.tenant).triads → s.tenantRead q.tenant va.toNat 128 = .ok card → cardSem card = 0 → cardBar card = 0 →
        cardBad card .issued 192 = false → ∀ x y, x = s.tenantRead q.tenant (if cardSrc card = 0 then va.toNat + 0x80 else cardSrc card) 64 →
        y = s.tenantRead q.tenant (if cardDst card = 0 then va.toNat + 0xC0 else cardDst card) 64 →
        (∀ e, x = .error e ∨ ((∃ k, x = .ok k) ∧ y = .error e) → ∃ u t, exec (.copyPacket h va cluster die) s = .next t ∧
          u = { s with clusters := u.clusters, choices := u.choices } ∧ Failed u t q (match e with | .translation .. => 4 | .access .. => 3)) ∧
        (x = .ok a → y = .ok d →
          (ShapeRec.of a).bad .copy = true ∨ (ShapeRec.of d).bad .copy = true ∨ (ShapeRec.of a).dir = true ∨ (ShapeRec.of d).dir = false →
          ∃ u t, exec (.copyPacket h va cluster die) s = .next t ∧ u = { s with clusters := u.clusters, choices := u.choices } ∧ Failed u t q 8)) ∧
      (cluster.toNat ∈ (s.tenant q.tenant).triads → s.tenantRead q.tenant va.toNat 128 = .ok card → cardSem card = 0 → cardBar card = 0 →
        cardBad card .issued 192 = false → s.tenantRead q.tenant (if cardSrc card = 0 then va.toNat + 0x80 else cardSrc card) 64 = .ok a →
        s.tenantRead q.tenant (if cardDst card = 0 then va.toNat + 0xC0 else cardDst card) 64 = .ok d →
        (ShapeRec.of a).bad .copy = false → (ShapeRec.of d).bad .copy = false → (ShapeRec.of a).dir = false → (ShapeRec.of d).dir = true →
        (s.freeCopies c = [] → ∃ t, exec (.copyPacket h va cluster die) s = .next t ∧ PacketWaits s t q) ∧
        (s.freeCopies c ≠ [] → ∃ u t slot, exec (.copyPacket h va cluster die) s = .next t ∧ Entered s u c slot card ∧
          (u.copy c slot).src = some a ∧ (u.copy c slot).dst = some d ∧ (u.copy c slot).owner = .packet q h.ctxtag ∧ u.mem = s.mem ∧
          Completed (u.setQueue q { u.queue q with copies := (s.queue q).copies ++ [(c, slot, (u.copy c slot).gen)] }) t q))) ∧
    (∀ (r : RunBody) (resume : Bool) i head, i = (if resume then Instr.resumePacket h r else .runPacket h r) →
      (¬ GoodRun s r → ∃ t, exec i s = .next t ∧ Failed s t q 0x20) ∧
      (GoodRun s r → s.dev.lc ≠ .scrap → (∃ k, k < 64 ∧ r.triads.getLsbD k = true ∧ k ∉ (s.tenant q.tenant).triads) → ∃ t, exec i s = .next t ∧ Failed s t q 0x23) ∧
      (GoodRun s r → s.dev.lc ≠ .scrap → (∀ k, k < 64 → r.triads.getLsbD k = true → k ∈ (s.tenant q.tenant).triads) →
        ((∀ l, s.tenantRead q.tenant r.image.toNat 64 ≠ .ok l) → ∃ t, exec i s = .next t ∧ Failed s t q 0x22) ∧
        (s.tenantRead q.tenant r.image.toNat 64 = .ok head → resume = true →
          ((∀ l, s.tenantRead q.tenant r.savearea.toNat 4096 ≠ .ok l) → ∃ t, exec i s = .next t ∧ Failed s t q 0x22) ∧
          ((∃ l, s.tenantRead q.tenant r.savearea.toNat 4096 = .ok l) → ¬ GoodSave s q.tenant r head → ∃ t, exec i s = .next t ∧ Failed s t q 0x24))) ∧
      (GoodRun s r → s.dev.lc ≠ .scrap → (∀ k, k < 64 → r.triads.getLsbD k = true → k ∈ (s.tenant q.tenant).triads) → s.tenantRead q.tenant r.image.toNat 64 = .ok head →
        (resume = true → GoodSave s q.tenant r head) →
        ∃ t, exec i s = .next t ∧ Accepted s t q h r resume s.nextRun ∧
          (s.qc.quiet = 0 → (∀ d, d < 3 → (s.die d).stepped = true ∧ (s.die d).fenced = false) →
            (∀ e ∈ s.runs, e.2.phase ≠ .waiting ∧ e.2.phase ≠ .switched ∧ ∀ k ∈ e.2.triads, r.triads.getLsbD k = false) → (t.run s.nextRun).phase = .mapping))))

namespace Sys2Proof.Spec
open Sys2Proof.Machine

/-! ## Queue registers, the processor and the mapping of runs (R353, R366 to R376, R391, R395, R405, R406) -/

/-- The offset of a register of queue k, or of link queue k, in its tenant's registers (R368, R405). -/
def queueOff (q : QueueId) (off : Nat) : Nat := (if q.link then 0x8000 else 0x1000) + 0x100 * q.num + off

/-- Owner j of an owner register's value: a number from 64 on reads 0xFF (R263). -/
def ownerField (v : W64) (j : Nat) : Nat := if 64 ≤ v.toNat / 2 ^ (8 * j) % 256 then 255 else v.toNat / 2 ^ (8 * j) % 256

/-- A packet of a queue may start (R370, R375). -/
def mayStart (p : Queue) : Prop :=
  p.en = true ∧ p.state ≤ 2 ∧ p.cur = none ∧ p.run = none ∧ p.uncommit = none ∧ p.copyErr = none ∧ (p.head ≠ p.tail ∨ p.ind.isSome = true)

/-- A run that holds its triads and can be switched out (R375). -/
def holding (r : Run) : Prop := r.phase = .active ∧ r.resumeAt = none ∧ r.err = none

/-- A run that waits for its triads. -/
def wanting (r : Run) : Prop := r.phase = .waiting ∨ r.phase = .switched

/-- The job that starts a packet of queue k of a tenant. -/
def packetJob (m k : Nat) : Job := .sub .packet { Focus.none with queue := ⟨m, false, k⟩ }

/-- The range that an INVT drops: INVADDR down to 64 KiB, INVLEN up; all for a length of 0 (R353, R368). -/
def invRange (x : Tenant) : Nat × Nat :=
  if x.invlen = 0 then (0, 2 ^ 52)
  else (x.invaddr.toNat / 0x10000 * 0x10000, x.invaddr.toNat / 0x10000 * 0x10000 + (x.invlen.toNat + 0xFFFF) / 0x10000 * 0x10000)

/-- A work request that breaks R405 for its operation. -/
def BadRequest (r : WorkReq) (op : Nat) : Prop :=
  r.junk = true ∨ 1 < r.fabric.toNat ∨ (op = 4 ∧ r.fabric ≠ 1) ∨ r.len = 0 ∨ (3 ≤ op ∧ r.len ≠ 8) ∨ (op ≠ 4 ∧ r.domain ≠ 0) ∨ (r.fabric = 1 ∧ 47 < r.peer.toNat)

/-- A tenant grants a peer's tenant access on a fabric (R398, R406). -/
def Grants (s : State) (r : RemoteReq) : Prop :=
  (s.tenant r.rtenant).created = true ∧ ∃ g ∈ (s.tenant r.rtenant).grants, (g.peer = 0xFF ∨ g.peer = r.package) ∧ g.ptenant = r.ptenant ∧ g.fabric = r.fabric

/-- A work request as it leaves for its peer: the package and tenant that ask, the tenant and bytes asked for, the bytes that it carries, and
the queue that waits (R405, R406). On fabric 0 the peer is an endpoint, whose address the PF's table gives. -/
def asked (s : State) (q : QueueId) (r : WorkReq) (op : Nat) (d : List Byte) : RemoteReq :=
  ⟨op, r.fabric.toNat, s.dev.package, q.tenant, r.rtenant.toNat, r.raddr.toNat, r.len.toNat, d, q.num⟩

/-- The answer to a peer's request leaves the package. -/
def answered (s : State) (r : RemoteReq) (ok : Bool) (d : List Byte) : State := { s with linkOut := s.linkOut ++ [⟨⟨r.ptenant, true, r.ident⟩, ok, d⟩] }

end Sys2Proof.Spec

/-- R8, R201, R245, R263, R287, R288, R350, R368 to R373, R394, R396, R405: a doorbell moves QTAIL, or is an overrun; QCTL enables, disables and clears a queue; the
other registers take the value of a write by the access code of each field; VALUE of a semaphore reads it. That a disabled queue in error stays in state 5,
and that CLR clears CAUSE and CTXTAG, is log 36; how the PF writes the endpoint table is log 103. -/
def Obligations.QueueRegisters : Prop :=
  ∀ (s : State) (q : QueueId) (p : Queue) (v : W64), p = s.queue q →
    ((v.truncate 32 - p.head).toNat ≤ 2 ^ p.log2 → ∃ t pre, exec (.qtailWrite q v) s = .next t ∧ (∀ e ∈ pre, e ∈ p.pre) ∧
      t = s.setQueue q { p with tail := v.truncate 32, pre := pre, state := if p.state = 1 then restState { p with tail := v.truncate 32 } else p.state }) ∧
    (2 ^ p.log2 < (v.truncate 32 - p.head).toNat → p.state ≠ 5 → ∃ t, exec (.qtailWrite q v) s = .next t ∧
      (t.queue q).state = 5 ∧ (t.queue q).cause = 0x25 ∧ (t.queue q).skip = false ∧ (t.queue q).head = p.head ∧ (t.queue q).tail = p.tail ∧
      ∀ k, k ≠ q → t.queue k = s.queue k) ∧
    (∀ (log2 prio vec : Nat) (good : Bool), log2 = v.toNat / 2 ^ 8 % 32 → prio = v.toNat / 2 ^ 16 % 4 → vec = v.toNat / 2 ^ 24 % 32 →
      good = decide (p.qbase ≠ 0 ∧ 4 ≤ (if p.en then p.log2 else log2) ∧ (if p.en then p.log2 else log2) ≤ 16) →
      (p.pendingWr = none → ∀ i ∈ [Instr.queueEnable q v, .queueDisable q v, .queueClear q v], ∃ t, exec i s = .next t ∧
        (∀ k, k ≠ q → t.queue k = s.queue k) ∧ (t.queue q).en = (v.getLsbD 0 && good) ∧ (t.queue q).log2 = (if p.en then p.log2 else log2) ∧
        (t.queue q).prio = prio ∧ (t.queue q).vec = vec ∧ (t.queue q).qbase = p.qbase ∧ (t.queue q).tail = p.tail ∧
        (t.queue q).head = if v.getLsbD 1 = true ∧ p.state = 5 ∧ p.skip = true then p.head + 1 else p.head) ∧
      (p.en = false → p.cur = none → v.getLsbD 0 = true → v.getLsbD 1 = false → ∃ t, exec (.queueEnable q v) s = .next t ∧
        t = s.setQueue q { p with log2 := log2, en := good, prio := prio, vec := vec, state := restState { p with en := good } }) ∧
      (p.en = true → p.run = none → p.pendingWr = none → v.getLsbD 0 = false → v.getLsbD 1 = false → ∃ t, exec (.queueDisable q v) s = .next t ∧
        t = s.setQueue q { p with
          en := false, prio := prio, vec := vec, cur := if p.state = 3 then none else p.cur, started := if p.state = 3 then false else p.started
          state := if p.state = 5 then 5 else if p.state = 2 ∧ p.cur.isSome = true then 2 else 0 }) ∧
      (p.en = true → good = true → p.run = none → p.state = 5 → v.getLsbD 0 = true → v.getLsbD 1 = true → ∃ t, exec (.queueClear q v) s = .next t ∧
        t = s.setQueue q { p with
          head := if p.skip then p.head + 1 else p.head, ind := if p.skip then none else p.ind, indPkt := if p.skip then [] else p.indPkt
          prio := prio, vec := vec, cause := 0, errtag := 0, skip := false
          state := 1 })) ∧
    ((s.tenant q.tenant).created = false ∨ s.dev.safe = true → ∀ off, exec (.registerWrite (.vf q.tenant) off v) s = .next s) ∧
    ((s.tenant q.tenant).created = true → s.dev.safe = false → q.num < 16 →
      exec (.registerWrite (.vf q.tenant) (queueOff q 0x10) v) s = exec (.qtailWrite q v) s ∧
      (∀ i ∈ [Instr.queueEnable q v, .queueDisable q v, .queueClear q v], exec (.registerWrite (.vf q.tenant) (queueOff q 0x08) v) s = exec i s) ∧
      (∀ e ∈ [(0x00, if p.en then p else { p with qbase := BitVec.ofNat 64 (v.toNat / 4096 * 4096) }),
          (0x20, { p with evovf := p.evovf && !v.getLsbD 3, redo := p.redo && !v.getLsbD 4 }),
          (0x28, if p.evEn then p else { p with evbase := BitVec.ofNat 64 (v.toNat / 4096 * 4096) }),
          (0x30, { p with evEn := v.getLsbD 0, evLog2 := v.toNat / 2 ^ 8 % 32 }), (0x40, { p with evHead := v.truncate 32 })],
        ∃ t, exec (.registerWrite (.vf q.tenant) (queueOff q e.1) v) s = .next t ∧ t.queue q = e.2 ∧ (∀ k, k ≠ q → t.queue k = s.queue k) ∧
          t = { s with tenants := t.tenants }) ∧
      exec (.registerWrite (.vf q.tenant) 0 v) s = .next (s.setTenant q.tenant { s.tenant q.tenant with invaddr := v }) ∧
      exec (.registerWrite (.vf q.tenant) 8 v) s = .next (s.setTenant q.tenant { s.tenant q.tenant with invlen := v })) ∧
    (∀ d n, ∃ t u w, exec (.registerWrite (.slice d n) 0x08 v) s = .next t ∧ exec (.registerWrite (.slice d n) 0x10 v) s = .next u ∧
      exec (.registerWrite (.slice d n) 0x18 v) s = .next w ∧ ∀ j, j < 8 →
        ((t.slice (21 * d + n)).wayOwn[j]?).map (·.toNat) = some (ownerField v j) ∧ (t.slice (21 * d + n)).wayOwn[j + 8]? = (s.slice (21 * d + n)).wayOwn[j + 8]? ∧
        ((u.slice (21 * d + n)).wayOwn[j + 8]?).map (·.toNat) = some (ownerField v j) ∧ (u.slice (21 * d + n)).wayOwn[j]? = (s.slice (21 * d + n)).wayOwn[j]? ∧
        ((w.slice (21 * d + n)).retOwn[j]?).map (·.toNat) = some (ownerField v j)) ∧
    (∀ e ∈ [(0x2000, { s.tenant q.tenant with hanglim := v.toNat % 2 ^ 48 }), (0x3000, { s.tenant q.tenant with grace := max 1600 (v.toNat % 2 ^ 32) }),
        (0x4000, { s.tenant q.tenant with txroot := BitVec.ofNat 64 (v.toNat / 2 ^ 15 % 2 ^ 33 * 2 ^ 15 + v.toNat % 2) })],
      exec (.registerWrite (.tenantLimits q.tenant) e.1 v) s = .next (s.setTenant q.tenant e.2)) ∧
    (∀ port, s.dev.safe = false ∨ port = 0 →
      exec (.registerWrite (.pf port) 0 v) s = .next { s with dev := { s.dev with mbaddr := BitVec.ofNat 64 (v.toNat / 4096 * 4096) } } ∧
      (v.getLsbD 0 = true → exec (.registerWrite (.pf port) 8 v) s = .next { s with dev := { s.dev with mbDone := false } })) ∧
    (∀ c n, n < 16 → ∃ t, exec (.registerWrite (.cluster c) (0x2000 + 8 * n) v) s = .next t ∧ t = s.setXn (16 * c + n) (t.xn (16 * c + n)) ∧
      t.xn (16 * c + n) = { s.xn (16 * c + n) with
        discard := (s.xn (16 * c + n)).discard && !v.getLsbD 8, nan := (s.xn (16 * c + n)).nan && !v.getLsbD 9
        ovf := (s.xn (16 * c + n)).ovf && !v.getLsbD 10 }) ∧
    (∀ d off, exec (.registerWrite (.dieTicks d) off v) s = .next s) ∧
    (∀ port n, n < 65536 → s.dev.safe = false ∨ port = 0 →
      exec (.registerWrite (.endpoints port) n v) s = .next { s with dev := { s.dev with endpoints := s.dev.endpoints.set n (v.toNat % 2 ^ 48) } }) ∧
    (∀ c n, n < 64 → s.registerWord (.cluster c) (0x1000 + 8 * n) = s.sem c n) ∧
    ∀ c off, off < 0x2000 ∨ 0x2080 ≤ off → exec (.registerWrite (.cluster c) off v) s = .next s

/-- R353, R366, R368, R375, R376, R391: GO of INVCTL begins an INVT, which drops the translations of its range and is done once every older far
access is and no controller is between the halves of an access; a scheduling step starts one packet of each tenant that has one, of its highest priority (stated where no run is there);
QUANT, in cycles at the present STEP (log 53), gives a run's triads to one of equal priority; a takeover makes the standby active, which takes every
packet not committed again (what it repeats: log 43). That a second GO starts the INVT again is log 42. -/
def Obligations.ProcessorEvents : Prop :=
  ∀ (s : State) (m : Nat) (x : Tenant), m = s.focus.queue.tenant → x = s.tenant m →
    exec .invctlGo s = .next (s.setTenant m { x with invDone := false, invStamp := none }) ∧
    (x.invDone = false → x.invStamp = none → s.qc.quiet = 0 → ∃ t, exec .invt s = .next t ∧ (t.tenant m).invDone = false ∧ (t.tenant m).invStamp = some t.seq ∧
      (∀ c ∈ s.clusters.map Prod.fst, s.tenantOf c = m → ∀ e, e ∈ (t.cluster c).tlb ↔ e ∈ (s.cluster c).tlb ∧ ((invRange x).2 ≤ e.va ∨ e.va + e.size ≤ (invRange x).1)) ∧
      (∀ d, d < 3 → ∀ e, e ∈ (t.die d).txc ↔ e ∈ (s.die d).txc ∧ (e.1 ≠ m ∨ (invRange x).2 ≤ e.2.va ∨ e.2.va + e.2.size ≤ (invRange x).1)) ∧
      ∀ c ∈ s.clusters.map Prod.fst, s.tenantOf c = m → ∀ i, i < 16 → (t.mn (16 * c + i)).coal = []) ∧
    (∀ n, x.invDone = false → x.invStamp = some n → ∃ t, exec .invt s = .next t ∧
      ((∀ c ∈ s.clusters.map Prod.fst, s.tenantOf c = m → ∀ i, i < 16 → ∀ a ∈ (s.mn (16 * c + i)).far, n < a.stamp) →
        (∀ c ∈ s.clusters.map Prod.fst, s.tenantOf c = m → (s.ctl c).half = none) →
        t = s.setTenant m { x with invDone := true, invStamp := none }) ∧
      ((∃ c ∈ s.clusters.map Prod.fst, s.tenantOf c = m ∧ ((s.ctl c).half.isSome = true ∨ ∃ i, i < 16 ∧ ∃ a ∈ (s.mn (16 * c + i)).far, a.stamp ≤ n)) → t = s)) ∧
    (s.qc.quiet ≠ 0 ∨ s.dev.safe = true → exec .schedulingStep s = .next s) ∧
    (s.qc.quiet = 0 → s.dev.safe = false → s.runs = [] → s.agenda = [] → (∀ e ∈ s.tenants, ∀ f ∈ e.2.queues, (s.queue ⟨e.1, false, f.1⟩).copyErr = none) →
      m < 64 → x.created = true → (x.queues.map Prod.fst).Nodup → (∀ e ∈ x.queues, e.1 < 16) →
      ∃ t, exec .schedulingStep s = .next t ∧ (∀ k, packetJob m k ∈ t.agenda → mayStart (s.queue ⟨m, false, k⟩) ∧
          ∀ j, mayStart (s.queue ⟨m, false, j⟩) → (s.queue ⟨m, false, j⟩).prio ≤ (s.queue ⟨m, false, k⟩).prio) ∧
        ((∃ k, k < 16 ∧ mayStart (s.queue ⟨m, false, k⟩)) → ∃ k, packetJob m k ∈ t.agenda ∧ (t.tenant m).lastQueue = k ∧ ∀ j, packetJob m j ∈ t.agenda → j = k)) ∧
    (∀ h, h = s.run s.focus.run → ∃ t, exec .quantExpiry s = .next t ∧
      (s.qc.quiet = 0 → holding h → h.preq = none → (s.tenant h.tenant).quant * 1600 * (64 - s.dev.tstep) ≤ ((s.die 0).tick.toNat - h.mappedAt) * 64 →
        (∃ e ∈ s.runs, wanting e.2 ∧ (∃ k ∈ e.2.triads, k ∈ h.triads) ∧ (s.queue e.2.queue).prio = (s.queue h.queue).prio) →
        t = { s with agenda := .ev .switch { Focus.none with run := s.focus.run, flag := false, num := 0 } :: s.agenda }) ∧
      (¬ holding h ∨ h.preq ≠ none ∨ (∀ e ∈ s.runs, ¬ wanting e.2) → t = s)) ∧
    ((s.die (1 - s.qc.active)).fenced = true ∨ s.dev.safe = true → exec .takeover s = .next s) ∧
    ((s.die (1 - s.qc.active)).fenced = false → s.dev.safe = false → s.qc.kept = [] → ∃ t, exec .takeover s = .next t ∧
      t.qc.active = 1 - s.qc.active ∧ t.qc.quiet = 0 ∧ t.linkIn = [] ∧ t.mem = s.mem ∧
      ∀ n y, s.tenants.find? n = some y → ∀ k p, y.queues.find? k = some p → p.run = none → ∀ h i b,
        (h, i, b) = p.uncommit.getD (p.head, p.ind, p.indPkt) →
        (p.state = 5 → t.queue ⟨n, false, k⟩ = { p with pre := [], uncommit := none, head := h, ind := i, indPkt := b, redo := p.redo || p.uncommit.isSome }) ∧
        (p.state ≠ 5 → t.queue ⟨n, false, k⟩ = { p with
          pre := [], cur := none, started := false, pendingWr := none, uncommit := none, head := h, ind := i, indPkt := b
          redo := p.redo || p.pendingWr.isSome || p.uncommit.isSome, state := restState { p with head := h } }))

/-- R27, R243, R310, R329, R374, R395: MAP gives a run its clusters, their semaphores at zero, and sets its EPOCH and limits; UNMAP takes them back, with their scratchpads zero and
their TLBs empty; a SWITCH asks every page of an active run for its capture and stops its controllers; a function-level reset ends every
run of its tenant and resets its queues alone. -/
def Obligations.RunMapping : Prop :=
  ∀ (s : State) (n : Nat) (r : Run), n = s.focus.run → r = s.run n →
    (r.phase ≠ .mapping ∨ (∃ c ∈ r.clusters, (s.cluster c).owner ≠ none) → exec .map s = .next s) ∧
    (r.phase = .mapping → (∀ c ∈ r.clusters, (s.cluster c).owner = none) → r.graphs = [] → r.resume = false → r.triads.Nodup → (∀ k ∈ r.triads, k < 64) →
      ∃ t, exec .map s = .next t ∧ (∀ i c, r.clusterAt i = some c → (t.cluster c).owner = some n ∧ (t.cluster c).idx = i ∧ ∀ k, t.sem c k = 0) ∧
        (∀ c, c ∉ r.clusters → (t.cluster c).owner = (s.cluster c).owner) ∧ (t.run n).epoch = (s.die 0).pktime ∧
        (t.run n).hanglim = (s.tenant r.tenant).hanglim ∧ (t.run n).grace = (s.tenant r.tenant).grace ∧ (t.queue r.queue).state = 4 ∧
        (r.err = none → (t.run n).phase = .active ∨ ((t.run n).phase = .erring ∧ (t.run n).err.isSome = true))) ∧
    (∃ t, exec .unmap s = .next t ∧ t = { s with clusters := t.clusters, regions := t.regions, mem := t.mem, resvs := t.resvs } ∧
      ∀ c, (c ∈ r.clusters → (s.cluster c).owner = some n → (t.cluster c).owner = none ∧ (t.cluster c).tlb = [] ∧ (t.ctl c).st = .off ∧
          (t.cluster c).gauges = (s.cluster c).gauges ∧ (t.cluster c).sems = (s.cluster c).sems ∧ (∀ i, i < 16 → (t.region (16 * c + i)).holder = none) ∧
          ∀ x, x < 0x1000000 → memGet t.mem (0x10000000000 + c * 0x1000000 + x) = 0) ∧
        (c ∉ r.clusters ∨ (s.cluster c).owner ≠ some n → t.cluster c = s.cluster c ∧ (∀ i, i < 16 → t.region (16 * c + i) = s.region (16 * c + i)) ∧
          ∀ x, x < 0x1000000 → memGet t.mem (0x10000000000 + c * 0x1000000 + x) = memGet s.mem (0x10000000000 + c * 0x1000000 + x))) ∧
    (∃ t, exec .switch s = .next t ∧
      (r.phase ≠ .active ∨ r.resumeAt ≠ none → t = s) ∧
      (r.phase = .active → r.resumeAt = none → (∃ c ∈ r.clusters, (s.ctl c).st ≠ .halted ∧ (s.ctl c).st ≠ .off) →
        t.run n = { r with phase := .switching, why := (if s.focus.num = 2 then .request else .scheduler), tack := s.focus.flag, elasticAll := true
                           graceLeft := some r.grace, preq := none } ∧
        (∀ h p, h < 256 → s.pages.find? (pidOf n h) = some p → p.run = n → p.handle = h → t.page (pidOf n h) = { p with capReq := p.capReq || decide (3 ≤ p.level ∧ p.level ≤ 5) }) ∧
        (∀ c ∈ r.clusters, (s.ctl c).st = .running → (s.ctl c).half = none → (s.ctl c).overflow = none → (t.ctl c).st = .stopped ∧ (t.ctl c).pc = (s.ctl c).pc ∧ ∀ k, (t.ctl c).reg k = (s.ctl c).reg k) ∧
        t.mem = s.mem)) ∧
    (∀ m, m = s.focus.queue.tenant → ∃ t, exec .functionLevelReset s = .next t ∧ (t.tenant m).queues = [] ∧ (t.tenant m).links = [] ∧
      (t.tenant m).created = (s.tenant m).created ∧ (t.tenant m).triads = (s.tenant m).triads ∧ (t.tenant m).keys = (s.tenant m).keys ∧
      (t.tenant m).windows = (s.tenant m).windows ∧ (∀ k, k ≠ m → t.tenant k = s.tenant k) ∧
      ((∀ e ∈ s.runs, e.2.tenant = m → wanting e.2) → t.mem = s.mem ∧ t.clusters = s.clusters ∧ t.regions = s.regions ∧
        (∀ e ∈ s.runs, e.2.tenant = m → t.runs.find? e.1 = none) ∧ ∀ e, (∀ f ∈ s.runs, f.1 = e → f.2.tenant ≠ m) → t.run e = s.run e))

/-- R405, R406: a work request that keeps its layout and names bytes of its tenant goes to its peer, and its queue waits for the answer; an
all-reduce posts this package's value; a request of a peer is performed where it has been granted, and refused otherwise, with the tenant
unchanged; the answer, or the sum of an all-reduce in the order of its packages, completes the request, and a refusal ends it with an error event
(after which the queue goes on: log 12). -/
def Obligations.LinkRequests : Prop :=
  ∀ (s : State) (q : QueueId) (r : WorkReq) (b : List Byte), q = s.focus.queue → (s.queue q).cur = some b →
    (∀ e ∈ [(Instr.linkWrite r, 1), (.linkRead r, 2), (.linkAdd r, 3), (.allred r, 4)],
      (BadRequest r e.2 → ∃ t, exec e.1 s = .next t ∧ Failed s t q 0x20) ∧
      (¬ BadRequest r e.2 → (e.2 ≠ 2 ∧ ∀ d, s.tenantRead q.tenant r.laddr.toNat r.len.toNat ≠ .ok d) ∨
          ((e.2 = 2 ∨ e.2 = 4) ∧ ∀ l, s.tenantPieces q.tenant .write r.laddr.toNat r.len.toNat ≠ .ok l) → ∃ t, exec e.1 s = .next t ∧ Failed s t q 0x22) ∧
      (¬ BadRequest r e.2 → ∀ d l, (e.2 ≠ 2 → s.tenantRead q.tenant r.laddr.toNat r.len.toNat = .ok d) →
        (e.2 = 2 ∨ e.2 = 4 → s.tenantPieces q.tenant .write r.laddr.toNat r.len.toNat = .ok l) →
        exec e.1 s = .next (({ s with
          allred := s.allred ++ if e.2 = 4 then [⟨r.domain.toNat / 2 ^ 48, s.dev.package, BitVec.ofNat 64 (ofBytes d)⟩] else []
          linkReq := s.linkReq ++ if e.2 = 4 then ((List.range 48).filter (fun k => r.domain.getLsbD k && k != s.dev.package)).map
              (fun k => (k, { asked s q r 4 d with ident := r.domain.toNat / 2 ^ 48 }))
            else [(if r.fabric = 0 then s.dev.endpoints.get 0 r.peer.toNat else r.peer.toNat, asked s q r e.2 (if e.2 = 2 then [] else d))] } : State).setQueue q
            { s.queue q with pendingWr := some (r, e.2) }))) ∧
    (∀ a : RemoteReq, s.dev.safe = false →
      (a.op = 4 → exec (.remoteRequest a) s = .next { s with allred := s.allred ++ [⟨a.ident, a.package, BitVec.ofNat 64 (ofBytes a.data)⟩] }) ∧
      (a.op ≠ 4 → ¬ Grants s a → exec (.remoteRequest a) s = .next (answered s a false [])) ∧
      (Grants s a →
        (∀ u, a.op = 1 → s.tenantWrite a.rtenant a.raddr a.data = .ok u → exec (.remoteRequest a) s = .next (answered u a true [])) ∧
        (∀ d, a.op = 2 → s.tenantRead a.rtenant a.raddr a.len = .ok d → exec (.remoteRequest a) s = .next (answered s a true d)) ∧
        (∀ u, a.op = 3 → a.raddr % 8 = 0 → s.tenantAdd a.rtenant a.raddr (BitVec.ofNat 64 (ofBytes a.data)) = .ok u →
          exec (.remoteRequest a) s = .next (answered u a true [])) ∧
        ((a.op = 1 ∧ ∀ u, s.tenantWrite a.rtenant a.raddr a.data ≠ .ok u) ∨ (a.op = 2 ∧ ∀ d, s.tenantRead a.rtenant a.raddr a.len ≠ .ok d) ∨
          (a.op = 3 ∧ (a.raddr % 8 ≠ 0 ∨ ∀ u, s.tenantAdd a.rtenant a.raddr (BitVec.ofNat 64 (ofBytes a.data)) ≠ .ok u)) →
          exec (.remoteRequest a) s = .next (answered s a false [])))) ∧
    (∀ op, (s.queue q).pendingWr = some (r, op) →
      (∀ a pre post, s.linkIn = pre ++ a :: post → a.queue = q → (∀ k ∈ pre, k.queue ≠ q) → a.ok = false → op ≠ 4 →
        ∃ u t, exec .workRequestCompletion s = .next t ∧
          Posted (({ s with linkIn := pre ++ post } : State).setQueue q { s.queue q with pendingWr := none }) u q 4 r.ctxtag 0x22 0 ∧ Completed (rung u q) t q) ∧
      (∀ a pre post, s.linkIn = pre ++ a :: post → a.queue = q → (∀ k ∈ pre, k.queue ≠ q) → a.ok = true →
        (op ≠ 2 → ∃ u t, exec .workRequestCompletion s = .next t ∧
          Posted (({ s with linkIn := pre ++ post } : State).setQueue q { s.queue q with pendingWr := none }) u q 1 r.ctxtag 0 0 ∧ Completed u t q) ∧
        (∀ w, op = 2 → a.data.length = r.len.toNat → ({ s with linkIn := pre ++ post } : State).tenantWrite q.tenant r.laddr.toNat a.data = .ok w →
          ∃ u t, exec .workRequestCompletion s = .next t ∧ Posted (w.setQueue q { w.queue q with pendingWr := none }) u q 1 r.ctxtag 0 0 ∧ Completed u t q)) ∧
      ((∀ k ∈ s.linkIn, k.queue ≠ q) →
        (op ≠ 4 ∨ (∃ k, k < 48 ∧ r.domain.getLsbD k = true ∧ ∀ a ∈ s.allred, ¬ (a.ident = r.domain.toNat / 2 ^ 48 ∧ a.package = k)) →
          exec .workRequestCompletion s = .next s) ∧
        (∀ f : Nat → AllredPost, op = 4 → s.allred = ((List.range 48).filter (fun k => r.domain.getLsbD k)).map f →
          (∀ k, (f k).ident = r.domain.toNat / 2 ^ 48 ∧ (f k).package = k) → ∀ w,
          ({ s with allred := [] } : State).tenantWrite q.tenant r.laddr.toNat
            (toBytes 8 (∑ k ∈ (Finset.range 48).filter (fun k => r.domain.getLsbD k = true), (f k).value).toNat) = .ok w →
          ∃ u t, exec .workRequestCompletion s = .next t ∧ Posted (w.setQueue q { w.queue q with pendingWr := none }) u q 1 r.ctxtag 0 0 ∧ Completed u t q)))

namespace Sys2Proof.Spec
open Sys2Proof.Machine

/-! ## The management mailbox and the device (R389, R390, R396 to R404, R407) -/

/-- The firmware has answered the command: its response stands from 0x800 of the command page, DONE is 1, STATUS is set (R397); a complex whose die has fenced
itself writes nothing (R316). -/
structure Replied (s t : State) (status : Nat) (d : List Byte) : Prop where
  rest : t = { s with dev := { s.dev with mbDone := true, mbStatus := status }, mem := t.mem, resvs := t.resvs }
  none : d = [] → t.mem = s.mem ∧ t.resvs = s.resvs
  bytes : (s.die s.qc.active).fenced = false → s.dev.mbaddr.toNat + 0x1000 ≤ 2 ^ 47 → d.length ≤ 0x800 → s.memOk → ∀ x, memGet t.mem x =
    if 0x800000000800 + s.dev.mbaddr.toNat ≤ x ∧ x < 0x800000000800 + s.dev.mbaddr.toNat + d.length
    then (d[x - (0x800000000800 + s.dev.mbaddr.toNat)]?).getD 0 else memGet s.mem x

/-- A command is in progress and its page names it and fits R397 and R398. -/
structure Commanded (s : State) (opc : Nat) : Prop where
  go : s.dev.mbDone = false
  opc : fieldAt s.mbPage 0 2 = opc
  fits : s.pageOk s.mbPage = true

/-- An argument of the command page, in 8 bytes. -/
def argOf (s : State) (off : Nat) : Nat := fieldAt s.mbPage off 8

/-- A tenant has a run that holds its clusters. -/
def Mapped (s : State) (m : Nat) : Prop := ∃ e ∈ s.runs, e.2.tenant = m ∧ ¬ wanting e.2

/-- Two windows share a byte. -/
def overlap (a b : Window) : Prop := a.base < b.base + b.len ∧ b.base < a.base + a.len

/-- The command of the page is one that safe mode turns away (R398). -/
def Shunned (s : State) : Prop :=
  s.dev.safe = true ∧ (fieldAt s.mbPage 0 2 ∈ [1, 2, 3, 4, 5, 6, 7, 8, 9, 0xA, 0x14, 0x15] ∨ (fieldAt s.mbPage 0 2 = 0x12 ∧ argOf s 8 ≠ 3 ∧ argOf s 8 ≠ 4))

/-- A step of a start fails (R301, R400, R408). -/
def StepFails (s : State) (cold : Bool) (k : Nat) : Prop :=
  Config.startStepOk k s.choices = false ∨
  (cold = true ∧ k = 5 ∧ ∃ d n, d < 3 ∧ n < 3 ∧ d ≠ n ∧ ((Config.laneLatency n d).toNat < 8 * 256 ∨ 64 * 256 < (Config.laneLatency n d).toNat)) ∨
  (cold = true ∧ k = 6 ∧ s.bootTest.passes = false)

/-- The first failing step. -/
def FirstFails (s : State) (cold : Bool) (k : Nat) : Prop := 1 ≤ k ∧ k ≤ 8 ∧ StepFails s cold k ∧ ∀ j, 1 ≤ j → j < k → ¬ StepFails s cold j

/-- Every register has its reset value: nothing is mapped, no tenant exists, the dies count from 0; both complexes boot the firmware fw; memory is
m, or wiped (R9, R301, R400). -/
structure Started (s t : State) (wiped : Bool) (fw : Firmware) (m : List Host.Cell) : Prop where
  tables : t.runs = [] ∧ t.pages = [] ∧ t.regions = [] ∧ t.clusters = [] ∧ t.tenants = [] ∧ t.slices = [] ∧ t.msgs = [] ∧ t.resvs = []
  kept : t.dev.part = s.dev.part ∧ t.dev.lc = s.dev.lc ∧ t.dev.stored = s.dev.stored ∧ t.dev.mbDone = true ∧ t.dev.tstep = 0 ∧ t.dev.keys = [0]
  dies : ∀ d, d < 3 → (t.die d).tick = 0 ∧ (t.die d).pktime = 0 ∧ (t.die d).poff = 0 ∧ (t.die d).stepped = decide (d = 0) ∧ (t.die d).fenced = false
  firmware : t.qc.active = 0 ∧ ∀ i, i < 2 → t.qc.fw[i]? = some fw
  mem : ∀ x, memGet t.mem x = if wiped = true ∧ x < 0x800000000000 then 0 else memGet m x

end Sys2Proof.Spec

/-- R397, R398, R403: the tenant commands. Each answers 0 and has its effect where nothing is in its way, 2 where a tenant, a mapped run or a
window is, 3 where every key is taken, 4 where the life cycle serves no tenant, 5 where a key is not well formed. That TRIADS acts at once and
that a window waits for the next MAP is log 44, the width of the arguments and the states that KEYNEW and SIGNER ask for log 45, what a well-formed
key is log 71. -/
def Obligations.TenantCommands : Prop :=
  ∀ (s : State) (m : Nat) (x : Tenant), m = fieldAt s.mbPage 4 1 → x = s.tenant m → s.dev.safe = false →
    (Commanded s 1 → ∃ t, exec .tnew s = .next t ∧
      if x.created = true then Replied s t 2 [] else Replied (s.setTenant m { Tenant.reset with created := true, port := argOf s 8 }) t 0 []) ∧
    (Commanded s 2 → (Mapped s m → ∃ t, exec .tdel s = .next t ∧ Replied s t 2 []) ∧
      (¬ Mapped s m → ∃ t, exec .tdel s = .next t ∧ t.tenant m = Tenant.reset ∧ t.dev.mbDone = true ∧ t.dev.mbStatus = 0 ∧ t.mem = s.mem ∧
        (∀ k, k ∈ t.dev.keys ↔ k ∈ s.dev.keys ∧ (k = 0 ∨ k ∉ x.keys)) ∧ (∀ n g, t.granules.find? n = some g → g = 0 ∨ g ∉ x.keys) ∧
        (∀ e ∈ t.runs, e.2.tenant ≠ m) ∧ ∀ k ∈ x.triads, k < 64 → ∀ i, i < 3 → (t.cluster (k + 64 * i)).gauges = [])) ∧
    (Commanded s 3 → ∀ new, new = (List.range 64).filter (argOf s 8).testBit →
      ((∃ e ∈ s.tenants, e.1 ≠ m ∧ ∃ k ∈ e.2.triads, k ∈ new) ∨ (∃ e ∈ s.runs, e.2.tenant = m ∧ ¬ wanting e.2 ∧ ∃ k ∈ e.2.triads, k ∉ new) →
        ∃ t, exec .triads s = .next t ∧ Replied s t 2 []) ∧
      ((∀ e ∈ s.tenants, e.1 ≠ m → ∀ k ∈ e.2.triads, k ∉ new) → (∀ e ∈ s.runs, e.2.tenant = m → ¬ wanting e.2 → ∀ k ∈ e.2.triads, k ∈ new) →
        ∃ t, exec .triads s = .next t ∧ Replied (s.setTenant m { x with triads := new }) t 0 [])) ∧
    (Commanded s 4 → ∀ w : Window, w = ⟨argOf s 0x10, argOf s 0x18⟩ →
      ((w.len ≠ 0 ∧ ∃ e ∈ s.tenants, e.1 ≠ m ∧ ∃ y, (y ∈ e.2.windows ∨ y ∈ e.2.newWindows.getD []) ∧ overlap w y.2) → ∃ t, exec .window s = .next t ∧ Replied s t 2 []) ∧
      ((w.len = 0 ∨ ∀ e ∈ s.tenants, e.1 ≠ m → ∀ y, (y ∈ e.2.windows ∨ y ∈ e.2.newWindows.getD []) → ¬ overlap w y.2) →
        ∃ u t, exec .window s = .next t ∧ Replied u t 0 [] ∧ u = { s with tenants := u.tenants } ∧ (∀ k, k ≠ m → u.tenant k = s.tenant k) ∧
          (Mapped s m → (u.tenant m).windows = x.windows) ∧
          ∀ i, ((u.tenant m).newWindows.getD (u.tenant m).windows).find? i =
            if i = argOf s 8 then (if w.len = 0 then none else some w) else (x.newWindows.getD x.windows).find? i)) ∧
    (Commanded s 5 → (Mapped s m → ∃ t, exec .txrootCommand s = .next t ∧ Replied s t 2 []) ∧
      (¬ Mapped s m → ∃ t, exec .txrootCommand s = .next t ∧
        Replied (s.setTenant m { x with txroot := BitVec.ofNat 64 (argOf s 8 / 2 ^ 15 % 2 ^ 33 * 2 ^ 15 + argOf s 8 % 2) }) t 0 [])) ∧
    (Commanded s 6 → (s.dev.lc ≠ .develop ∧ s.dev.lc ≠ .production → ∃ t, exec .keynew s = .next t ∧ Replied s t 4 []) ∧
      (s.dev.lc = .develop ∨ s.dev.lc = .production →
        ((∀ k, k < 256 → k ∈ s.dev.keys) → ∃ t, exec .keynew s = .next t ∧ Replied s t 3 []) ∧
        ∀ k, k < 256 → k ∉ s.dev.keys → (∀ j, j < k → j ∈ s.dev.keys) → ∃ t, exec .keynew s = .next t ∧
          Replied { s.setTenant m { x with keys := x.keys ++ [k] } with dev := { s.dev with keys := k :: s.dev.keys } } t 0 (toBytes 8 k))) ∧
    (Commanded s 7 → (Mapped s m → ∃ t, exec .keydel s = .next t ∧ Replied s t 2 []) ∧
      (¬ Mapped s m → ∃ u t, exec .keydel s = .next t ∧ Replied u t 0 [] ∧ u.mem = s.mem ∧ argOf s 8 ∉ u.dev.keys ∧ argOf s 8 ∉ (u.tenant m).keys ∧
        (∀ n, u.granules.find? n ≠ some (argOf s 8)) ∧ ∀ n, ∀ l ∈ (u.slice n).lines, l.key ≠ argOf s 8)) ∧
    (Commanded s 8 → ∀ key, key = memBytes s.mem (0x800000000000 + argOf s 0x10 % 2 ^ 47) 1793 → ∃ t, exec .signer s = .next t ∧
      if s.dev.lc ≠ .develop ∧ s.dev.lc ≠ .production then Replied s t 4 []
      else if argOf s 0x10 = 0 then ∃ l, Replied (s.setTenant m { x with signers := l }) t 0 [] ∧ ∀ i, l.find? i = if i = argOf s 8 then none else x.signers.find? i
      else if falconKeyOk key = false then Replied s t 5 []
      else ∃ l, Replied (s.setTenant m { x with signers := l }) t 0 [] ∧ ∀ i, l.find? i = if i = argOf s 8 then some key else x.signers.find? i) ∧
    (Commanded s 9 → ∃ t, exec .tune s = .next t ∧ Replied (s.setTenant m { x with quant := argOf s 8, hanglim := argOf s 0x10, grace := argOf s 0x18 }) t 0 []) ∧
    (Commanded s 0xA → ∀ g : Grant, g = ⟨fieldAt s.mbPage 8 1, fieldAt s.mbPage 9 1, fieldAt s.mbPage 0xA 1⟩ → ∃ t l, exec .rgrant s = .next t ∧
      Replied (s.setTenant m { x with grants := l }) t 0 [] ∧ ∀ h, h ∈ l ↔ (h ∈ x.grants ∧ h ≠ g) ∨ (h = g ∧ fieldAt s.mbPage 0xB 1 = 1))

/-- R389, R390, R397, R398, R400, R402 to R404: the device's commands, and the answers to a page that holds no command and to one that safe mode does
not accept. The width of the arguments is log 45, and that the digests are SHAKE256 and the signatures Falcon-1024 log 71. -/
def Obligations.DeviceCommands : Prop :=
  ∀ (s : State),
    (s.dev.mbDone = false → s.pageOk s.mbPage = false → ¬ Shunned s → ∃ t, exec .unknownOpc s = .next t ∧ Replied s t 1 []) ∧
    (s.dev.safe = true → ∀ e ∈ [(Instr.tnew, 1), (.tdel, 2), (.triads, 3), (.window, 4), (.txrootCommand, 5), (.keynew, 6), (.keydel, 7), (.signer, 8), (.tune, 9),
      (.rgrant, 0xA), (.lcset, 0x12), (.pwrcap, 0x14), (.linkcfg, 0x15)], s.dev.mbDone = false → fieldAt s.mbPage 0 2 = e.2 → Shunned s →
      ∃ t, exec e.1 s = .next t ∧ Replied s t 7 []) ∧
    (Commanded s 0x10 → ∀ image v, image = memBytes s.mem (0x800000000000 + argOf s 8 % 2 ^ 47) (argOf s 0x10) →
      v = falconVerify Config.vendorKey (shake256 image) (Config.fwSignature image) →
      ∀ f : Firmware, f = ⟨(Config.fwFields image).1 % 2 ^ 16, (Config.fwFields image).2.1 % 64, (Config.fwFields image).2.2 % 2 ^ 16, shake256 image⟩ →
      ∃ t, exec .fwload s = .next t ∧
        if v = false then Replied s t 5 [] else if f.svn < s.dev.svnFuse then Replied s t 6 []
        else if s.dev.safe = true then Replied { s with dev := { s.dev with stored := f } } t 0 []
        else t = { s with qc := { s.qc with quiet := 1, loading := some f } }) ∧
    (Commanded s 0x11 → argOf s 0x28 + 1680 ≤ 2 ^ 47 → ∃ t r, exec .attest s = .next t ∧ t.dev.mbDone = true ∧ t.dev.mbStatus = 0 ∧
      t.dev.nonce = (s.mbPage.drop 8).take 32 ∧ (s.memOk → (s.die s.qc.active).fenced = false → ∀ i, i < 1680 → some (memGet t.mem (0x800000000000 + argOf s 0x28 + i)) = r[i]?) ∧
      r.take 4 = [0x41, 0x54, 0x53, 0x54] ∧ fieldAt r 6 1 = lcCode s.dev.lc ∧ fieldAt r 7 1 = fieldAt s.mbPage 4 1 ∧ fieldAt r 0xE8 4 = s.dev.svnFuse % 2 ^ 32 ∧
      fieldAt r 0x138 8 = (s.die s.qc.active).pktime.toNat ∧ (r.drop 0x140).take 64 = toBytes 64 (shake256 (r.take 0x140)).toNat) ∧
    (Commanded s 0x12 → s.dev.safe = false ∨ argOf s 8 = 3 ∨ argOf s 8 = 4 → ∀ ok : Bool, ok = (decide (argOf s 8 = 4) || falconVerify Config.vendorKey
        (shake256 (toBytes 64 (shake256 Config.identityKey).toNat ++ toBytes 1 (argOf s 8) ++ s.dev.nonce))
        (memBytes s.mem (0x800000000000 + argOf s 0x10 % 2 ^ 47) 1280)) →
      (argOf s 8 ≠ 4 ∧ argOf s 8 ≠ lcCode s.dev.lc + 1 → ∃ t, exec .lcset s = .next t ∧ Replied s t 4 []) ∧
      (argOf s 8 = 4 ∨ argOf s 8 = lcCode s.dev.lc + 1 →
        (ok = false → ∃ t, exec .lcset s = .next t ∧ Replied s t 5 []) ∧
        (ok = true → ∃ t, exec .lcset s = .next t ∧ lcCode t.dev.lc = argOf s 8 ∧ t.dev.mbDone = true ∧ t.dev.mbStatus = 0 ∧ t.runs = [] ∧ (∀ c, (t.cluster c).owner = none) ∧
          (∀ e ∈ s.tenants, (t.tenant e.1).created = false) ∧ (∀ x, memGet t.mem x = if x < 0x800000000000 then 0 else memGet s.mem x) ∧
          t.agenda = .ev .coldStart Focus.none :: s.agenda))) ∧
    (Commanded s 0x13 → ∃ u t, exec .reset s = .next t ∧ Replied s u 0 [] ∧
      t = { u with agenda := .ev (if argOf s 8 = 0 then .warmStart else .coldStart) Focus.none :: s.agenda }) ∧
    (s.dev.safe = false →
      (Commanded s 0x14 → ∃ t, exec .pwrcap s = .next t ∧ Replied { s with dev := { s.dev with pwrcap := argOf s 8 } } t 0 []) ∧
      (Commanded s 0x15 →
        ((∃ e ∈ s.tenants, ∃ q ∈ e.2.links, q.2.en = true) → ∃ t, exec .linkcfg s = .next t ∧ Replied s t 2 []) ∧
        ((∀ e ∈ s.tenants, ∀ q ∈ e.2.links, q.2.en = false) → ∃ t, exec .linkcfg s = .next t ∧ Replied { s with dev := { s.dev with ethMode := argOf s 8 } } t 0 []))) ∧
    (Commanded s 0x16 → ∃ t f rest, exec .info s = .next t ∧ s.qc.fw[s.qc.active % 2]? = some f ∧
      Replied s t 0 (([(Config.partNumber (decide (s.dev.part = .a))).toNat, s.scrcap, lcCode s.dev.lc, f.version, f.svn, f.tableVersion].flatMap (toBytes 8) ++
        Config.identityKey ++ Config.identityCert ++ rest).take 0x800))

/-- R9, R301, R355, R400, R401, R407, R408, R410, R411: power-on begins a cold start; a start that succeeds leaves every register at its reset value, memory zero
and a firmware in both complexes, the stored one, or after a warm start the one that ran; a failed one leaves safe mode, or begins another; what the boot
runs find is the repair table; a boot run reports a stuck bit of a scratch row, which a spare row then replaces, and its controller halts with the status word,
which its boot area holds; the sensors' readings stop the machine, throttle it and are sampled. What a warm start loses and when WARMFAIL returns to 0 is
log 47, the faults that a boot run meets log 81. -/
def Obligations.DeviceEvents : Prop :=
  ∀ (s : State),
    exec .powerOn s = .next { s with dev := { s.dev with on := true, stopped := false }, agenda := .ev .coldStart Focus.none :: s.agenda } ∧
    ((∀ k, 1 ≤ k → k ≤ 8 → ¬ StepFails s true k) → ∃ t, exec .coldStart s = .next t ∧ Started s t true s.dev.stored s.mem ∧ t.dev.safe = false ∧ t.dev.start = 0 ∧ t.dev.warmfail = 0 ∧
      (t.dev.svnFuse = s.dev.svnFuse ∨ t.dev.svnFuse = max s.dev.svnFuse s.dev.stored.svn) ∧
      (∀ d n, d < 3 → n < 3 → ((t.die d).wag[n]?).map (·.lat) = some (if n = d then 0 else (Config.laneLatency n d).toNat)) ∧
      t.dev.repair = s.bootTest.table ∧ t.dev.spares = s.bootTest.table ∧ t.agenda = s.agenda) ∧
    (∀ (scrcap c unit row bit : Nat) (val : Bool), c < 192 → unit < 32 → row < 0x1800 → bit < 512 → rowOffset unit row + bit / 64 * 8 < scrcap →
      bootMarch scrcap [⟨c, unit, row, bit, val⟩] [] [] = ⟨true, [(c, unit + 2 ^ 8 * row + 2 ^ 31)]⟩ ∧ bootMarch scrcap [] [] [c] = ⟨false, []⟩ ∧
      (march scrcap [⟨c, unit, row, bit, val⟩] [] [] c).status = (if val = true then 3 else 2) + 2 ^ 8 + 2 ^ 31 ∧
      ∀ d, d ≠ c → (march scrcap [⟨c, unit, row, bit, val⟩] [] [] d).status = 2 ^ 31) ∧
    (∀ bank q reps t i run r u, u = s.bootHalt bank q reps t i run r →
      (u.ctl (64 * i + t)).st = .halted ∧ (u.ctl (64 * i + t)).exitv.toNat = r.status % 2 ^ 32 ∧ (s.memOk → littleEndian u.mem (bootArea t i + 8) 4 = r.status % 2 ^ 32)) ∧
    (∀ k, FirstFails s true k → ∃ t, exec .coldStart s = .next t ∧ Started s t (decide (7 < k)) s.dev.stored (if 6 ≤ k then s.booted.mem else s.mem) ∧ t.dev.safe = true ∧
      t.dev.start = k ∧ t.dev.svnFuse = s.dev.svnFuse ∧ t.dev.repair = s.dev.repair ∧ t.dev.spares = if 6 ≤ k then s.bootTest.table else []) ∧
    (∀ fw, s.qc.fw[s.qc.active % 2]? = some fw →
    ((∀ k, 1 ≤ k → k ≤ 8 → ¬ StepFails s false k) → ∃ t, exec .warmStart s = .next t ∧ Started s t true fw s.mem ∧ t.dev.repair = s.dev.repair ∧ t.dev.spares = s.dev.repair ∧ t.dev.safe = false ∧ t.dev.start = 0 ∧ t.dev.warmfail = 0 ∧
      t.dev.svnFuse = s.dev.svnFuse ∧ t.agenda = s.agenda) ∧
    (∀ k, FirstFails s false k → ∃ t, exec .warmStart s = .next t ∧ Started s t (decide (7 < k)) fw s.mem ∧ t.dev.start = k ∧
      (s.dev.warmfail = 2 → t.dev.warmfail = 0 ∧ t.agenda = .ev .coldStart Focus.none :: s.agenda) ∧
      (s.dev.warmfail ≠ 2 → t.dev.warmfail = s.dev.warmfail + 1 ∧ t.agenda = .ev .warmStart Focus.none :: s.agenda))) ∧
    (s.dev.tmax < 115 → exec .thermalTrip s = .next s) ∧
    (115 ≤ s.dev.tmax → ∃ t, exec .thermalTrip s = .next t ∧ t.dev = { s.dev with stopped := true } ∧ t.runs = [] ∧ t.pages = [] ∧ t.regions = [] ∧ t.clusters = [] ∧
      t.tenants = s.tenants ∧ t.mem = s.mem) ∧
    (∃ t, exec .throttleStep s = .next t ∧ t = { s with dev := { s.dev with tstep := t.dev.tstep, sinceStep := t.dev.sinceStep } } ∧
      (s.dev.sinceStep < 65536 → t = s) ∧
      (65536 ≤ s.dev.sinceStep → 105 ≤ s.dev.tmax ∨ s.dev.pwrcap < s.dev.power → s.dev.tstep < 63 → t.dev.tstep = s.dev.tstep + 1 ∧ t.dev.sinceStep = 0) ∧
      (65536 ≤ s.dev.sinceStep → s.dev.tmax < 100 → s.dev.power < s.dev.pwrcap → 0 < s.dev.tstep → t.dev.tstep = s.dev.tstep - 1 ∧ t.dev.sinceStep = 0) ∧
      (100 ≤ s.dev.tmax → s.dev.tmax < 105 → s.dev.power ≤ s.dev.pwrcap → t = s)) ∧
    (∀ d, d = s.focus.die → ∃ t, exec .powerSample s = .next t ∧ t = { s with clusters := t.clusters } ∧
      ((s.die d).tick.toNat % 65536 ≠ 0 → t = s) ∧
      (∀ c, t.cluster c = { s.cluster c with gauges := (t.cluster c).gauges } ∧ (c / 64 ≠ d → t.cluster c = s.cluster c)) ∧
      ((s.die d).tick.toNat % 65536 = 0 → (s.clusters.map Prod.fst).Nodup → ∀ c ∈ s.clusters.map Prod.fst, c / 64 = d → ∀ n g, (s.cluster c).gauges.find? n = some g →
        g.cfg.toNat % 16 = 6 → g.cfg.getLsbD 4 = false → g.cfg.getLsbD (8 + d) = true →
        (t.gauge c n).count = min (g.count + 1) (2 ^ 48 - 1) ∧ (t.gauge c n).sum = min (g.sum + min (Config.clusterPower c s.choices) (2 ^ 32 - 1)) (2 ^ 64 - 1)))

namespace Sys2Proof.Spec
open Sys2Proof.Machine

/-! ## How runs end, are captured and resume (R26, R27, R282, R285, R289, R304, R308 to R310, R326 to R329, R339, R340, R384) -/

/-- The 64 bytes of an error record (R285). -/
def errorRecord (e : ErrRec) (tag : W32) (nsnag : Nat) : List Byte :=
  toBytes 2 e.cause ++ toBytes 1 e.code ++ [0] ++ toBytes 4 tag.toNat ++ toBytes 1 e.page ++ toBytes 1 e.ring ++ toBytes 1 e.slot ++ toBytes 1 e.sreg ++
  toBytes 1 e.cluster ++ [0, 0, 0] ++ toBytes 8 e.word ++ toBytes 8 e.addr ++ toBytes 8 e.tick.toNat ++ toBytes 4 nsnag ++ List.replicate 20 0

/-- The clusters of run n go back: without owner, TLB or regions, their scratchpads zero and their semaphores kept; and the run and its
pages are gone, and with its channels what the dies note of their detours (R317, R374). -/
structure Released (s t : State) (n : Nat) : Prop where
  rest : t = { s with clusters := t.clusters, regions := t.regions, mem := t.mem, resvs := t.resvs, runs := t.runs, pages := t.pages, dies := t.dies }
  dies : ∀ d, t.die d = { s.die d with detour := (t.die d).detour }
  run : t.runs.find? n = none ∧ (∀ k, k ≠ n → t.runs.find? k = s.runs.find? k) ∧ ∀ e, e ∈ t.pages ↔ e ∈ s.pages ∧ e.2.run ≠ n
  clusters : ∀ c ∈ (s.run n).clusters, (s.cluster c).owner = some n → (t.cluster c).owner = none ∧ (t.cluster c).tlb = [] ∧ (t.ctl c).st = .off ∧
    (t.cluster c).sems = (s.cluster c).sems ∧ (∀ i, i < 16 → (t.region (16 * c + i)).holder = none) ∧ ∀ x, x < 0x1000000 → memGet t.mem (0x10000000000 + c * 0x1000000 + x) = 0
  others : ∀ c, c ∉ (s.run n).clusters → t.cluster c = s.cluster c ∧ (∀ i, i < 16 → t.region (16 * c + i) = s.region (16 * c + i)) ∧
    ∀ x, x < 0x1000000 → memGet t.mem (0x10000000000 + c * 0x1000000 + x) = memGet s.mem (0x10000000000 + c * 0x1000000 + x)

/-- The packet of run r of a queue completes: STATUS 0 completed or 2 pre-empted with a run-complete event, 1 in error with the queue's error
state (R372, R384, R387). -/
def PacketEnds (s t : State) (r : Run) (status what : Nat) : Prop :=
  ∃ v y, v = s.setQueue r.queue { s.queue r.queue with run := none, state := if (s.queue r.queue).state = 5 then 5 else 2, started := false } ∧
    Rereads y t r.queue.tenant ∧
    if status = 1
    then ∃ x, Posted (v.setQueue r.queue { v.queue r.queue with state := 5, cause := what, errtag := r.ctxtag, skip := true, cur := none }) x r.queue 4 r.ctxtag what 0 ∧
      y = rung x r.queue
    else ∃ x, Posted v x r.queue 2 r.ctxtag status (BitVec.ofNat 64 what) ∧ Completed (rung x r.queue) y r.queue

/-- A run that ends in error has been torn down: its controllers stopped, its pages freed, nothing waits for placement (R289). -/
structure TornDown (s t : State) (n : Nat) : Prop where
  controllers : ∀ c ∈ (s.run n).clusters, (t.ctl c).st ≠ .running ∧ (t.ctl c).st ≠ .waiting
  run : (t.run n).waves = [] ∧ (t.run n).err = (s.run n).err ∧ (t.run n).queue = (s.run n).queue ∧ (t.run n).ctxtag = (s.run n).ctxtag ∧
    (t.run n).tenant = (s.run n).tenant ∧ (t.run n).body = (s.run n).body ∧ (t.run n).triads = (s.run n).triads ∧ (t.run n).traps = (s.run n).traps
  tenants : t.tenants = s.tenants ∧ t.qc = s.qc ∧ t.dev = s.dev

/-- A run ends in error: its error record and what follows it are written in its error area, then it is torn down, then its packet ends (R285, R289,
R347). -/
def EndsInError (s t : State) (n : Nat) (e : ErrRec) (snags : List (List Byte)) : Prop :=
  ∃ w u x d, (e.cause ≠ 15 → d = (snags.take 4092).flatten) ∧
    (e.cause = 15 → (∀ k ∈ (s.run n).traps, k.1 < 192 ∧ k.2.length = 64) → ∀ k ∈ (s.run n).traps, (s.run n).traps.find? k.1 = some k.2 → (d.drop (64 * k.1)).take 64 = k.2) ∧
    (match s.tenantWrite (s.run n).tenant (s.run n).body.errarea.toNat (errorRecord e (s.run n).ctxtag (if e.cause = 15 then 0 else snags.length) ++ d) with
      | .ok y => w = y | .error _ => w = s) ∧
    TornDown w u n ∧ Released u x n ∧ PacketEnds x t (s.run n) 1 e.cause

/-- Every controller of a run has halted or runs no program, its waves have retired, and no copy of a template is left (R384). -/
def RunOver (s : State) (n : Nat) (r : Run) : Prop :=
  r.phase = .active ∧ r.err = none ∧ r.resumeAt = none ∧
  (∀ w ∈ r.waves, ∀ h ∈ (s.graphOf n w.graph).wavePages w.wave, 6 ≤ (s.page (pidOf n h)).level) ∧
  ∀ c ∈ r.clusters, ((s.ctl c).st = .halted ∨ (s.ctl c).st = .off) ∧
    ∀ e ∈ (s.cluster c).copies, e.2.owner = .template → e.2.state ≠ 1 ∧ e.2.state ≠ 3

/-- A page is to be captured: for an SVSAVE, or with its run; in a tack capture once its inputs hold tacks (R326, R340). -/
def WantsCapture (s : State) (pid : Nat) (p : Page) : Prop :=
  p.captured = false ∧ 3 ≤ p.level ∧ p.level ≤ 5 ∧
  (p.svReq.isSome = true ∨ (p.capReq = true ∧ ((s.run p.run).tack = false ∨ p.level ≠ 4 ∨ ∀ code ∈ s.inPorts pid, s.portTacked pid code = true)))

/-- A tack capture leaves no token in an edge buffer, but in one of a retiring consumer (R284, R341). -/
def EdgesDrained (s : State) (n : Nat) (r : Run) : Prop :=
  r.tack = true → ∀ e ∈ r.edges, e.2.freed = true ∨ e.2.count = 0 ∨ (s.page (pidOf n e.2.cpage)).level = 5

/-- The run of a capture has stopped, and nothing of it is in flight (R327, R329). -/
structure CaptureOver (s : State) (n : Nat) (r : Run) : Prop where
  run : r.phase = .switching ∧ r.err = none
  pages : ∀ p ∈ s.livePages n, (s.page p).captured = true ∧ s.captureQuiet p = true
  clusters : ∀ c ∈ r.clusters, (s.ctl c).st ≠ .running ∧ (s.ctl c).st ≠ .waiting ∧
    ∀ e ∈ (s.cluster c).copies, e.2.state = 3 → ∃ q tag, e.2.owner = .packet q tag
  edges : EdgesDrained s n r
  quiet : (∀ m ∈ s.msgs, m.run ≠ n) ∧ ∀ c ∈ r.chans, c.2.flight = [] ∧ c.2.creditFlight = []

/-- The header of a save area (R344): its first 32 bytes; the rest is zero. -/
def saveHead (r : Run) (digest : BitVec 512) (ndir : Nat) : List Byte :=
  [0x53, 0x56, 0x52, 0x4E, 1, 0] ++ toBytes 2 r.tack.toNat ++ toBytes 4 ndir ++ toBytes 4 r.resumes ++ toBytes 1 r.tenant ++ toBytes 1 r.triads.length ++
  [1, 0, 0, 0, 0, 0] ++ toBytes 8 digest.toNat ++ List.replicate 4064 0

/-- A free region of a cluster. -/
def FreeAt (s : State) (c o : Nat) : Prop := (s.region (16 * c + o)).holder = none

/-- Region a * w + b of a span of width w from an origin (R281). -/
def spanAt (o a b : Nat) : Nat := (o / 4 + a) * 4 + (o % 4 + b)

/-- A span of w by h regions from an origin lies inside a cluster's array and is wholly free (R278). -/
def Fits (s : State) (c o w h : Nat) : Prop :=
  o < 16 ∧ o % 4 + w ≤ 4 ∧ o / 4 + h ≤ 4 ∧ ∀ a b, a < h → b < w → FreeAt s c (spanAt o a b)

/-- The wave e of run n has been placed: every page of it that was not placed has a span of regions, free before, in a cluster of the run on its die, and is
being loaded; every edge buffer that it requires has a place in a cluster's pool, aligned to its size and clear of the buffers there, in the producer's
cluster if the producer is of the wave; every channel that it sends on has a node (R278, R280, R313). -/
structure WavePlaced (s t : State) (n : Nat) (r : Run) (e : WaveEntry) : Prop where
  pages : ∀ h p, h ∈ (s.graphOf n e.graph).wavePages e.wave → p = s.page (pidOf n h) → p.level ≤ 1 → ∃ c o, c ∈ r.clusters ∧ c / 64 = p.die ∧ Fits s c o p.w p.h ∧
    t.page (pidOf n h) = { p with cluster := c, origin := o, level := 2 } ∧
    ∀ a b, a < p.h → b < p.w → (t.region (16 * c + spanAt o a b)).holder = some (pidOf n h, a * p.w + b)
  regions : ∀ rid, (s.region rid).holder.isSome = true → t.region rid = s.region rid
  edges : ∀ k x, r.edges.find? k = some x → x.carved = false → x.freed = false →
    (x.ppage ∈ (s.graphOf n e.graph).wavePages e.wave ∨ x.cpage ∈ (s.graphOf n e.graph).wavePages e.wave) →
    ∃ y, (t.run n).edges.find? k = some y ∧ y = { x with carved := true, cluster := y.cluster, off := y.off, head := 0, count := 0 } ∧
      y.cluster = (t.page (pidOf n (if x.ppage ∈ (s.graphOf n e.graph).wavePages e.wave then x.ppage else x.cpage))).cluster ∧
      y.off % (8 * x.depth) = 0 ∧ s.scrcap - r.body.epool.toNat ≤ y.off ∧ y.off + 8 * x.depth ≤ s.scrcap ∧
      ∀ b ∈ (s.cluster y.cluster).pool, b.1 + b.2 ≤ y.off ∨ y.off + 8 * x.depth ≤ b.1
  nodes : ∀ k c, r.chans.find? k = some c → c.ppage ∈ (s.graphOf n e.graph).wavePages e.wave → c.node = none → c.freed = false →
    ∃ m, m < 64 ∧ (t.run n).chans.find? k = some { c with node := some m }
  wave : ∀ k ∈ (t.run n).waves, k.graph = e.graph → k.wave = e.wave → k.placed = true
  mem : t.mem = s.mem

/-- The ends of a page's channels that have no state take that which their entry declares: closed, elastic or timed (R307). -/
def endOpened (p : Page) (c : XChan) : XChan :=
  { c with
    sendSt := if c.ppage = p.handle ∧ c.sendSt = 0 then (if c.closed then 1 else if c.elastic then 3 else 2) else c.sendSt
    recvSt := if c.cpage = p.handle ∧ c.recvSt = 0 then (if c.closed then 1 else if c.elastic then 3 else 2) else c.recvSt }

end Sys2Proof.Spec

/-- R26, R27, R285, R289, R384: a run completes when its controllers and pages have, with its exit values written; one that has an error ends with its
error record and its queue in the error state; a hang writes the snag map too; a capture that GRACE does not see done, or that keeps
tokens in an edge buffer of a tack capture, is killed; that such a buffer of a retiring consumer may keep them is log 20, and that exit values and error
records which cannot be written are left out log 29. -/
def Obligations.RunEnds : Prop :=
  ∀ (s : State) (n : Nat) (r : Run), n = s.focus.run → r = s.run n →
    (∃ t, exec .runCompletion s = .next t ∧ (¬ RunOver s n r → t = s) ∧
      (RunOver s n r → s.qc.quiet = 0 → (s.queue r.queue).cur.isSome = true → ∃ w x, Released w x n ∧ PacketEnds x t r 0 0 ∧
        match s.tenantWrite r.tenant r.body.exits.toNat (r.clusters.flatMap (fun c => toBytes 4 (s.ctl c).exitv.toNat)) with | .ok y => w = y | .error _ => w = s) ∧
      (RunOver s n r → s.qc.quiet ≠ 0 → t.qc.kept = s.qc.kept ++ [(n, 0, 0)] ∧ (t.run n).phase = .done ∧ t.mem = s.mem)) ∧
    (∃ t, exec .runError s = .next t ∧ (r.phase ≠ .erring → t = s) ∧ ∀ e, r.phase = .erring → r.err = some e → s.qc.quiet = 0 → EndsInError s t n e []) ∧
    (∃ t, exec .hangLimitExpiry s = .next t ∧ ((r.phase ≠ .active ∧ r.phase ≠ .switching) ∨ r.hanglim = 0 ∨ r.hang < r.hanglim → t = s) ∧
      (r.phase = .active ∨ r.phase = .switching → r.hanglim ≠ 0 → r.hanglim ≤ r.hang → s.qc.quiet = 0 → ∃ e snags, EndsInError (s.setRun n { r with phase := .erring, err := some e }) t n e snags ∧
        e.cause = 12 ∧ e.tick = (s.die 0).tick ∧ (∀ b ∈ snags, b.length = 16) ∧
        ∀ c ∈ r.clusters, (s.ctl c).st = .waiting →
          toBytes 1 (s.cluster c).idx ++ [0xFF, 0xFF, 68, 7, 0xFF, 0, 0] ++ toBytes 8 (s.ctl c).insn.toNat ∈ snags)) ∧
    (∃ t, exec .graceExpiry s = .next t ∧
      (r.phase ≠ .switching ∨ r.graceLeft ≠ some 0 ∨ ((∀ p ∈ s.livePages n, (s.page p).captured = true) ∧ EdgesDrained s n r) → t = s) ∧
      (r.phase = .switching → r.graceLeft = some 0 → (∃ p ∈ s.livePages n, (s.page p).captured = false) ∨ ¬ EdgesDrained s n r → r.err = none →
        ∃ e, t = { s.setRun n { r with phase := .erring, err := some e } with agenda := s.agenda ++ [.ev .runError { Focus.none with run := n }] } ∧
          e.cause = 14 ∧ e.tick = (s.die 0).tick))

/-- R121, R308 to R310, R326 to R329, R333, R339, R340, R344, R360: a page is captured at its capture point; a run whose capture is over writes its records, and
then the header that says so, and gives its clusters back; it resumes die by die when the package time has come; a tack is held at its port; a timing
fault marks its channel, traps every controller of the run and begins a capture. Which pages a tack capture takes at once, that a WAYSET completes first, and which
edge buffers it drains is log 20; what the firmware keeps of a save area log 68. -/
def Obligations.Captures : Prop :=
  ∀ (s : State) (n : Nat) (r : Run), n = s.focus.run → r = s.run n →
    (∀ pid p, pid = s.focus.page → p = s.page pid → ∃ t, exec .regionCapture s = .next t ∧
      (¬ WantsCapture s pid p → p.svReq = none ∨ p.captured = false → t = s) ∧ (p.captured = false → p.frozen = false → p.counter ≠ 0 → p.level = 4 → t = s) ∧
      (WantsCapture s pid p → p.frozen = true ∨ p.counter = 0 ∨ p.level ≠ 4 → t.page pid = { p with
          captured := true, ptime := if p.svClosed then p.ptime else if p.level = 3 then 0 else (s.runt p.run p.die - BitVec.ofNat 64 p.goff).toNat } ∧
        (∀ rid ∈ s.regionsOf pid, (t.mn rid).coal = [] ∧ (t.region rid).cells = (s.region rid).cells) ∧ t.mem = s.mem) ∧
      (∀ va ident u, p.captured = true → p.svReq = some (va, ident) → (∀ c ∈ (s.run p.run).clusters, ∀ m ∈ (s.cluster c).cmds, m.ident ≤ ident) → s.captureQuiet pid = true → s.writeRecords (s.run p.run).tenant va (s.regionsOf pid) = .ok u →
        ∃ q, t.page pid = { q with level := 3, svClosed := true, opened := false, captured := false, gated := false, svReq := none, sv := ⟨2, false, 0⟩, frozen := false, causes := [] } ∧
          q = u.page pid ∧ t.mem = u.mem ∧ (∀ c ∈ (s.run p.run).clusters, ∀ m ∈ (t.cluster c).cmds, m.ident ≠ ident) ∧
          ∀ rid ∈ s.regionsOf pid, ∀ ch, ch < 4 → (t.chan rid ch).cur = none ∧ (t.chan rid ch).pend = none)) ∧
    (∃ t, exec .captureComplete s = .next t ∧ (¬ CaptureOver s n r → t = s) ∧
      (CaptureOver s n r → s.qc.quiet = 0 → ∀ u, u = s.settleCapture n → u.saveFits n = true → ∀ w, u.writeSave n = .ok w →
        (∃ (v : State) (ndir : Nat), v.tenantWrite (u.run n).tenant (u.run n).body.savearea.toNat (saveHead (u.run n) (u.graphOf n 0).digest ndir) = .ok w) ∧
        (r.why = .scheduler → (t.run n).phase = .switched ∧ ∀ c ∈ r.clusters, (w.cluster c).owner = some n → (t.cluster c).owner = none) ∧
        (r.why ≠ .scheduler → (s.queue r.queue).cur.isSome = true → ∃ v x, v = { w with qc := v.qc } ∧ (∃ k ∈ v.qc.saved, k.tenant = r.tenant ∧ k.area = r.body.savearea) ∧
          Released v x n ∧ PacketEnds x t r 2 (if r.why = .timing then 1 else 2)))) ∧
    (∀ d, d = s.focus.die → ∃ t, exec .regionResumption s = .next t ∧
      (r.resumeAt = none ∨ (∃ a, r.resumeAt = some a ∧ (s.die d).pktime.toNat < a.toNat) → t = s) ∧
      (∀ a, r.resumeAt = some a → a.toNat ≤ (s.die d).pktime.toNat →
        (∀ c ∈ r.clusters, c / 64 = d → (s.ctl c).st = .stopped → t.ctl c = { s.ctl c with st := .running, waitWord := false }) ∧
        (∀ c, c / 64 ≠ d → t.cluster c = s.cluster c) ∧
        (∀ h p, h < 256 → s.pages.find? (pidOf n h) = some p → p.run = n → p.handle = h → p.captured = true → p.die = d → (t.page (pidOf n h)).captured = false) ∧
        ((∀ c ∈ r.clusters, c / 64 ≠ d → (s.ctl c).st ≠ .stopped) → (∀ e ∈ s.pages, e.2.die = d) → (s.pages.map Prod.fst).Nodup → (t.run n).resumeAt = none))) ∧
    (∀ pid code rid o, pid = s.focus.page → code = s.focus.num → rid = (s.page pid).region (code / 32) → o = s.inp rid (code % 32) →
      exec .tackTokenArrival s = .next (s.setInp rid (code % 32) { o with tack := true })) ∧
    (∀ h c, h = s.focus.chan → r.chans.find? h = some c → h < r.chans.length → r.phase = .active → r.resumeAt = none → r.clusters.Nodup →
      (∃ k ∈ r.clusters, (s.ctl k).st ≠ .halted ∧ (s.ctl k).st ≠ .off) →
      ∃ t, exec .timingFault s = .next t ∧ (t.run n).phase = .switching ∧ (t.run n).why = .timing ∧ (t.run n).tack = false ∧ (t.run n).elasticAll = true ∧
        (t.chanOf n h).fault = true ∧ t.mem = s.mem ∧
        ∀ k ∈ r.clusters, (s.cluster k).owner = some n → (s.ctl k).half = none → (s.ctl k).overflow = none →
          (s.ctl k).st = .running ∨ ((s.ctl k).st = .waiting ∧ ∀ a b c, decode32 (s.ctl k).insn ≠ .ok (.wayset a b c)) → (t.ctl k).st = .stopped ∧ (t.ctl k).trap.cause.toNat = 5 ∧
          (t.ctl k).trap.info = BitVec.ofNat 64 (h + s.focus.num * 256) ∧ (t.ctl k).pc = (s.ctl k).pc ∧ ∀ m, (t.ctl k).reg m = (s.ctl k).reg m)

/-- R277, R278, R280 to R282, R297, R304, R307, R339, R361: the wave at the head of the placement queue is placed whole, its pages on spans of free regions of the
run's clusters on their die and its edge buffers in their pools, a page that is alone at the lowest origin of the first cluster that has one; or it waits. The
gates of a page open on the cycle of its die, a channel group's together 256 cycles after it is ready, or, where pages of it are open already, with the time of
those; the ends of its channels open with them, and a page that SVSAVE or SVLOAD has closed goes on from its recorded page time. -/
def Obligations.PlacementAndGates : Prop :=
  ∀ (s : State),
    (∀ n r, n = s.focus.run → r = s.run n →
      ((∀ e ∈ r.waves, e.placed = true) ∨ r.phase ≠ .active ∨ r.err ≠ none → exec .placementAttempt s = .next s) ∧
      (∀ pre e post h p, r.waves = pre ++ e :: post → (∀ k ∈ pre, k.placed = true) → e.placed = false → r.phase = .active → r.err = none → r.edges = [] → r.chans = [] →
        (s.graphOf n e.graph).wavePages e.wave = [h] → p = s.page (pidOf n h) → p.level ≤ 1 → 1 ≤ p.w → 1 ≤ p.h →
        ((∀ c ∈ r.clusters, c / 64 = p.die → ∀ o, ¬ Fits s c o p.w p.h) → exec .placementAttempt s = .next s) ∧
        (∀ before c after o, r.clusters = before ++ c :: after → c / 64 = p.die → (∀ b ∈ before, b / 64 = p.die → ∀ k, ¬ Fits s b k p.w p.h) →
          Fits s c o p.w p.h → (∀ k, k < o → ¬ Fits s c k p.w p.h) →
          ∃ t, exec .placementAttempt s = .next t ∧ t.page (pidOf n h) = { p with cluster := c, origin := o, level := 2 } ∧
            (∀ a b, a < p.h → b < p.w → (t.region (16 * c + spanAt o a b)).holder = some (pidOf n h, a * p.w + b)) ∧
            (∀ rid, (∀ a b, a < p.h → b < p.w → rid ≠ 16 * c + spanAt o a b) → t.region rid = s.region rid) ∧
            (∀ k ∈ (t.run n).waves, k.graph = e.graph → k.wave = e.wave → k.placed = true) ∧ t.mem = s.mem)) ∧
      (∀ pre e post, r.waves = pre ++ e :: post → (∀ k ∈ pre, k.placed = true) → e.placed = false → r.phase = .active → r.err = none →
        (∀ h ∈ (s.graphOf n e.graph).wavePages e.wave, 1 ≤ (s.page (pidOf n h)).w ∧ 1 ≤ (s.page (pidOf n h)).h) → (r.edges.map Prod.fst).Nodup → (r.chans.map Prod.fst).Nodup →
        ∃ t, exec .placementAttempt s = .next t ∧ (t = s ∨ WavePlaced s t n r e))) ∧
    (∀ pid p, pid = s.focus.page → p = s.page pid →
      (s.focus.flag = false →
        (p.level ≠ 3 ∨ p.gated = false ∨ (s.run p.run).phase ≠ .active → exec .gateOpening s = .next s) ∧
        (∀ o : W64, o = (match p.openAt with | some g => BitVec.ofNat 64 g - (s.run p.run).epoch | none => s.runt p.run p.die) →
          p.level = 3 → p.gated = true → (s.run p.run).phase = .active → (s.inGroup pid = false ∨ ∃ g, p.openAt = some g ∧ g ≤ (s.die p.die).pktime.toNat) → s.gateFault pid = none →
          ∃ t, exec .gateOpening s = .next t ∧
            (p.svClosed = false → t.page pid = { p with level := 4, gated := false, lastAln := 0, unfrozen := 0, atCount := 0, opened := true, goff := o.toNat }) ∧
            (p.svClosed = true → t.page pid = { p with
              level := if p.retiring then 5 else 4, gated := false, svClosed := false, captured := false, opened := true
              goff := (o.toNat + 2 ^ 64 - p.ptime) % 2 ^ 64, lastAln := max p.lastAln p.ptime }) ∧
            (∀ h, (t.run p.run).chans.find? h = ((s.run p.run).chans.find? h).map (endOpened p)) ∧
            (∀ k, k ≠ pid → t.page k = s.page k) ∧ t.regions = s.regions ∧ t.clusters = s.clusters ∧ t.mem = s.mem) ∧
        (∀ g, p.openAt = some g → s.inGroup pid = true → (s.die p.die).pktime.toNat < g → exec .gateOpening s = .next s)) ∧
      (s.focus.flag = true → s.groupReady pid = true → ∃ t g, exec .gateOpening s = .next t ∧ t = { s with pages := t.pages } ∧
        ((∀ q ∈ s.groupOf pid, (s.page q).level ≠ 4) → g = (s.die 0).pktime.toNat + 256) ∧
        (∀ x, (∃ q ∈ s.groupOf pid, (s.page q).level = 4) → (∀ q ∈ s.groupOf pid, (s.page q).level = 4 → (s.run p.run).epoch + BitVec.ofNat 64 (s.page q).goff = x) →
          g = x.toNat) ∧
        ∀ q, t.page q = if q ∈ s.groupOf pid ∧ (s.page q).level = 3 ∧ (s.page q).openAt = none
          then { s.page q with openAt := some g } else s.page q))

namespace Sys2Proof.Spec
open Sys2Proof.Machine

/-! ## The fabric's cycle (R69, R122, R124, R125, R129 to R132, R143, R182, R195, R197, R284) -/

/-- The last iteration of a pass, once it is known: TRIP − 1, the iteration of an EXIT, or the lower of the two (R132). -/
def PassLast (p : Page) (l : Nat) : Prop :=
  (p.trip ≠ 0 ∧ p.exitF = false ∧ l + 1 = p.trip) ∨ (p.trip = 0 ∧ p.exitF = true ∧ l = p.exitIt) ∨ (p.trip ≠ 0 ∧ p.exitF = true ∧ l = min (p.trip - 1) p.exitIt)

/-- The period whose iterations the stages hold is the last of its pass, last + D − 1: stage k holds the youngest iteration; the
numbers of a pass without end wrap at 2^32 (R131, R132). -/
def PassEnds (p : Page) : Prop :=
  p.retiring = false ∧ ∃ l k, PassLast p l ∧ p.sm.getLsbD k = true ∧ (∀ j, j < k → p.sm.getLsbD j = false) ∧
  if p.trip = 0 then (p.nextIt + k) % 2 ^ 32 = (l + p.depth) % 2 ^ 32 else p.nextIt + k = l + p.depth

/-- The stages of a page after a period starts: each hands its iteration on, and stage 0 takes the next, if the pass has one (R131). -/
def nextPeriod (p : Page) : Page :=
  if p.exitF = false ∧ (p.trip = 0 ∨ p.nextIt < p.trip)
  then { p with sm := BitVec.ofNat 8 (2 * p.sm.toNat + 1), lm := BitVec.ofNat 8 (2 * p.lm.toNat + 1), nextIt := (p.nextIt + 1) % 2 ^ 32 }
  else { p with sm := BitVec.ofNat 8 (2 * p.sm.toNat), lm := BitVec.ofNat 8 (2 * p.lm.toNat) }

/-- A slot leaves the loop unit with its liveness, its iteration's stage known no more (R129, R132). -/
def leftLoop (p : Page) (sl : Slot) : Slot := { sl with its := none, live := match sl.its with | some k => p.lm.getLsbD k | none => sl.live }

/-- A slot whose word's iteration moves to the next stage (R131). -/
def nextStage (p : Page) (sl : Slot) : Slot :=
  match sl.its with
  | some k => if k < 7 then { sl with its := some (k + 1) } else leftLoop p sl
  | none => sl

/-- The queue of a destination of the route table: a cell's input queue, an output port, an input queue of the memory node, or the
matrix node's c (R275). -/
def destQ (s : State) (d : Nat × Nat) : TokQ :=
  if d.2 < 256 then qAt (s.cell d.1 (d.2 / 4)).ins (d.2 % 4) else if d.2 < 272 then (s.outp d.1 (d.2 - 256)).q
  else if d.2 < 276 then qAt (s.mn d.1).mi (d.2 - 272) else (s.xn d.1).c

/-- A destination has a free place: of 4, or of 128 for c; a port that holds a tack takes no token (R125, R182, R340). -/
def DestFree (s : State) (d : Nat × Nat) : Prop :=
  (d.2 < 276 ∨ d.2 = 279) ∧ (destQ s d).toks.length + (destQ s d).freed < (if d.2 = 279 then 128 else 4) ∧
  (256 ≤ d.2 → d.2 < 272 → (s.outp d.1 (d.2 - 256)).tack = false)

/-- The only due slot of a cell is sl: the others come one cycle nearer. -/
def OneDue (c : Cell) (pre : List Slot) (sl : Slot) (post : List Slot) : Prop :=
  c.slots = pre ++ sl :: post ∧ sl.dist = 1 ∧ ∀ x ∈ pre ++ post, x.dist ≠ 1

/-- What a slot's landing makes of its cell (R35, R69, R76, R122, R129, R135, R139). -/
def landed (c : Cell) (pre : List Slot) (sl : Slot) (post : List Slot) (live : Bool) : Cell :=
  let d := { c with slots := (pre ++ post).map (fun x => { x with dist := x.dist - 1 }) }
  let pushed (c : Cell) (rank : BitVec 2) (ord : Bool) (rel : Option Rel) : Cell :=
    { c with pr := 0, outq := { c.outq with toks := c.outq.toks ++ [⟨⟨sl.value, if rank.toNat < c.pr.toNat then c.pr else rank, ord, false⟩, rel, 0, false⟩] } }
  let valued : Cell := { d with ores := sl.value, q := if sl.wq then d.q.set (sl.dest % 16) sl.value (Nat.mod_lt _ (by decide)) else d.q }
  match sl.kind with
  | .value => if sl.out && live then pushed valued 0 false none else valued
  | .valuePush => if live then pushed valued sl.rank sl.ord sl.rel else valued
  | .pred => { d with g := predSet d.g sl.dest (sl.value != 0) }
  | .push => if live then pushed d sl.rank false none else d
  | .mark => if live && decide (d.pr.toNat < sl.value.toNat % 4) then { d with pr := BitVec.ofNat 2 sl.value.toNat } else d
  | _ => d

/-- The memory nodes of these regions have written their buffered lines through, in order (R159). -/
def Flushed (s t : State) (rids : List Nat) : Prop :=
  ∀ r ∈ rids, (t.mn r).coal = [] ∧ (t.mn r).far = (s.mn r).far ++ (s.mn r).coal.map (fun l => ⟨l.stamp, .line l.mask l.data, l.pa, l.key, l.stamp, (s.mn r).acqs, false⟩)

/-- An accumulator element with the values of a firing added one after another, each sum rounded (R184, R187). -/
def addGroups (a : W32) (vs : List W32) : W32 := vs.foldl (fun a v => mxRound (sumExact [mxDec a, mxDec v] .rne)) a

/-- Only cell u of region r changes. -/
structure OnlyCell (s t : State) (r u : Nat) : Prop where
  rest : t = { s with regions := t.regions }
  regions : ∀ k, k ≠ r → t.region k = s.region k
  region : t.region r = { s.region r with cells := (t.region r).cells }
  cells : ∀ k, k ≠ u → t.cell r k = s.cell r k

/-- Rows of scales and of routing indices that a B load takes, by MFMT (R195). -/
def bScaleRows (mfmt : Nat) : Nat := match mfmt % 8 with | 0 => if mfmt < 8 then 2 else 4 | 1 => if mfmt < 8 then 2 else 4 | 2 => if mfmt < 8 then 4 else 8 | _ => 0

/-- A unit of a retiring page holds nothing that must still land or leave (R284). -/
def UnitDone (s : State) (rid u : Nat) : Prop :=
  (u < 64 → (s.cell rid u).slots = [] ∧ (s.cell rid u).outq.toks = []) ∧
  (u = 64 → (s.mn rid).slots = [] ∧ (s.mn rid).coal = [] ∧ (s.mn rid).far = [] ∧ ∀ a ∈ (s.mn rid).near, a.op.writes = true → a.st.open = false) ∧
  (64 < u → (s.xn rid).slots = [] ∧ (s.xn rid).drains = [])

end Sys2Proof.Spec

/-- R129, R131, R132, R143: at the start of a period every stage hands its iteration on; a pass ends after its last one, and the next pass
begins with its first period, or the page retires: it issues no more and its inputs are empty. A pass that ends leaves the results in flight the
liveness that the EXITs and DROPs in flight leave their iterations (log 98). -/
def Obligations.PassesAndPeriods : Prop :=
  ∀ (s w : State) (pid : Nat) (p : Page), pid = s.focus.page → p = s.page pid → (s.regionsOf pid).Nodup →
    exec .resultLanding { s with focus := { s.focus with flag := true } } = .next w →
    (∀ i ∈ [Instr.passEnd, .periodStart], p.counter ≠ 0 ∨ (¬ PassEnds p ∧ (i = .periodStart → p.retiring = true)) → exec i s = .next s) ∧
    (¬ PassEnds p → p.counter = 0 → p.retiring = false → ∃ t, exec .periodStart s = .next t ∧ t = { s with pages := t.pages, regions := t.regions } ∧
      t.page pid = nextPeriod p ∧ (∀ k, k ≠ pid → t.page k = s.page k) ∧ (∀ r, r ∉ s.regionsOf pid → t.region r = s.region r) ∧
      ∀ r ∈ s.regionsOf pid, ∀ u, t.cell r u = { s.cell r u with slots := (s.cell r u).slots.map (nextStage p) }) ∧
    (PassEnds p → p.counter = 0 → (p.passes = 0 ∨ p.passIdx + 1 ≠ p.passes) →
      ∀ i ∈ [Instr.passEnd, .periodStart], ∃ t, exec i s = .next t ∧ t = { s with pages := t.pages, regions := t.regions } ∧
        (∀ q, q = { p with passIdx := (p.passIdx + 1) % 2 ^ 32, exitF := false, exitIt := 0, nextIt := 0, sm := 0, lm := 0 } →
          t.page pid = if i = .passEnd then q else { q with nextIt := 1, sm := 1, lm := 1 }) ∧
        ∀ r ∈ s.regionsOf pid, (t.mn r).coal = [] ∧ ∀ u, t.cell r u = { s.cell r u with slots := (s.cell r u).slots.map (leftLoop (w.page pid)) }) ∧
    (PassEnds p → p.counter = 0 → p.passes ≠ 0 → p.passIdx + 1 = p.passes →
      ∀ i ∈ [Instr.passEnd, .periodStart], ∃ t, exec i s = .next t ∧ t.page pid = { p with retiring := true, level := 5, sm := 0, lm := 0 } ∧ t.mem = s.mem ∧
        (∀ k, k ≠ pid → t.page k = s.page k) ∧
        ∀ r ∈ s.regionsOf pid, (∀ n, n < 4 → (qAt (t.mn r).mi n).toks = []) ∧ (t.region r).inp = [] ∧ (t.xn r).b.rows = [] ∧ (t.chan r 0).cur = none ∧ (t.chan r 2).cur = none ∧
          ∀ u, (t.cell r u).slots = (s.cell r u).slots.map (leftLoop (w.page pid)) ∧ (t.cell r u).outq = (s.cell r u).outq ∧ ∀ n, n < 4 → (qAt (t.cell r u).ins n).toks = [])

/-- R69, R122, R129, R139, R141, R157, R165, R184, R189, R194, R197, R200: what a due landing slot of a cell (a live PSEND and an ORDMK among them),
a memory node or a matrix node does, and a landing EXIT or DROP of a live iteration; of several values that land on one cell the last issued
stays; a firing row adds its groups to a column in increasing order. An MXDRN that is dead at its landing fills no drain slot (log 91). -/
def Obligations.ResultLandings : Prop :=
  ∀ (s : State) (rid u pid : Nat) (p : Page), rid = s.focus.region → u = s.focus.unit → pid = s.pageOf rid → p = s.page pid →
    (s.focus.flag = false → u < 64 →
      (∀ pre sl post, OneDue (s.cell rid u) pre sl post → sl.kind ∈ [SlotKind.value, .pred, .valuePush, .mark, .exit, .drop] ∨ (sl.kind = .push ∧ sl.ord = false) ∨
          (sl.kind = .psend ∧ p.slotLive sl.its sl.live = false) →
        ∃ t, exec .resultLanding s = .next t ∧ OnlyCell s t rid u ∧ t.cell rid u = landed (s.cell rid u) pre sl post (p.slotLive sl.its sl.live)) ∧
      (∀ pre sl, (s.cell rid u).slots = pre ++ [sl] → sl.dist = 1 → sl.kind = .value → (∀ x ∈ pre ++ [sl], x.dist = 1 → x.kind = .value ∧ x.out = false) →
        ∃ t, exec .resultLanding s = .next t ∧ OnlyCell s t rid u ∧ (t.cell rid u).ores = sl.value ∧
          (sl.wq = true → (t.cell rid u).q[sl.dest % 16]? = some sl.value)) ∧
      (∀ pre sl post, OneDue (s.cell rid u) pre sl post → p.slotLive sl.its sl.live = true →
        (sl.kind = .psend → (s.regionsOf pid).Nodup → ∃ t, exec .resultLanding s = .next t ∧ t = { s with regions := t.regions } ∧
          ∀ r ∈ s.regionsOf pid, ∀ k, (t.cell r k).lanes = (s.cell r k).lanes ++
            ((s.region r).laneRoutes.filter (fun e => e.2 == s.sregOf rid * 4096 + u && e.1 / 4 == k)).map
              (fun e => ⟨e.1 % 4, p.hops (s.sregOf rid) u (s.sregOf r) k, sl.value != 0⟩)) ∧
        (sl.kind = .push → sl.ord = true → (s.regionsOf pid).Nodup → ∃ t y, exec .resultLanding s = .next t ∧ t.mem = s.mem ∧ Flushed s t (s.regionsOf pid) ∧
          (t.cell rid u).pr = 0 ∧ (t.cell rid u).outq.toks = (s.cell rid u).outq.toks ++ [⟨⟨sl.value, if sl.rank.toNat < (s.cell rid u).pr.toNat then (s.cell rid u).pr else sl.rank, true, false⟩, some y, 0, false⟩] ∧
          y.nodes = s.regionsOf pid ∧ y.scope = sl.scope))) ∧
    (s.focus.flag = false → u = 64 → ∀ pre sl post, (s.mn rid).slots = pre ++ sl :: post → sl.dist = 1 → (∀ x ∈ pre ++ post, x.dist ≠ 1) → sl.kind ≠ .value →
      ∃ t, exec .resultLanding s = .next t ∧ (t.mn rid).slots = (pre ++ post).map (fun x => { x with dist := x.dist - 1 }) ∧ (t.mn rid).mores = (s.mn rid).mores ∧ t.mem = s.mem ∧
        (∀ r, r ≠ rid → t.region r = s.region r) ∧
        (∀ n, n < 4 → (qAt (t.mn rid).mo n).toks = (qAt (s.mn rid).mo n).toks ++ (if sl.kind = .give ∧ p.slotLive sl.its sl.live = true ∧ n = sl.dq % 4
          then [⟨⟨BitVec.ofNat 32 (0x484F0000 + sl.range), 0, true, false⟩, some ⟨[rid], sl.ident, 4⟩, 0, false⟩] else [])) ∧
        (if sl.kind = .give ∧ p.slotLive sl.its sl.live = true then Flushed s t [rid] else (t.mn rid).coal = (s.mn rid).coal ∧ (t.mn rid).far = (s.mn rid).far) ∧
        (∀ k : Nat, k < 8 → (t.mn rid).held[k]? = if sl.kind = .give ∧ p.slotLive sl.its sl.live = false ∧ k = sl.range then some true else (s.mn rid).held[k]?)) ∧
    (s.focus.flag = false → u = 64 → ∀ pre sl post, (s.mn rid).slots = pre ++ sl :: post → sl.dist = 1 → (∀ x ∈ pre ++ post, x.dist ≠ 1) → sl.kind = .value →
      ∃ t, exec .resultLanding s = .next t ∧ (t.mn rid).mores = sl.value.getD 0 ∧
        (t.mn rid).slots = (pre ++ post).map (fun x => { x with dist := x.dist - 1 }) ∧ t.mem = s.mem ∧ (∀ r, r ≠ rid → t.region r = s.region r) ∧
        ∀ n, n < 4 → (qAt (t.mn rid).mo n).toks = (qAt (s.mn rid).mo n).toks ++
          (if sl.out = true ∧ p.slotLive sl.its sl.live = true ∧ n = sl.dq % 4 then [⟨⟨sl.value.getD 0, 0, false, false⟩, none, 0, false⟩] else [])) ∧
    (s.focus.flag = false → 64 < u → ∀ pre sl post n live, n = s.xn rid → n.slots = pre ++ sl :: post → sl.dist = 1 → (∀ x ∈ pre ++ post, x.dist ≠ 1) →
      live = p.slotLive sl.its sl.live → ∀ x, x = { n with slots := (pre ++ post).map (fun k => { k with dist := k.dist - 1 }) } → ∃ t, exec .resultLanding s = .next t ∧ sameButXn s t ∧
        (live = false → t.xn rid = if sl.kind = .ldb ∧ sl.live = true then { x with ldb := { x.ldb with busy := false } } else x) ∧
        (live = true →
          (sl.kind = .drn → t.xn rid = { x with drains := x.drains ++ [⟨sl.vals, 0⟩] }) ∧ (sl.kind = .ldb → t.xn rid = { x with ldb := { x.ldb with begun := true } }) ∧
          (sl.kind = .swb → t.xn rid = { x with active := bufferOf x (BitVec.ofNat 2 sl.buf) }) ∧
          (sl.kind = .cfg → n.cfmt = sl.fmt → t.xn rid = x) ∧
          (sl.kind = .cfg → n.cfmt ≠ sl.fmt → (t.xn rid).acc = [] ∧ (t.xn rid).discard = true ∧ (t.xn rid).cfmt = sl.fmt) ∧
          (sl.kind = .clr → ∀ i j, i < 64 → j < 64 → (t.xn rid).acc.get 0 (64 * i + j) = if i = sl.tag then 0 else n.acc.get 0 (64 * i + j)) ∧
          (sl.kind = .stat → ∀ v, v = (sl.vals[0]?).getD 0 →
            t.xn rid = { x with s := { x.s with toks := x.s.toks ++ [⟨⟨v, 0, false, false⟩, none, 0, false⟩] }, discard := x.discard && !v.getLsbD 8, nan := x.nan && !v.getLsbD 9, ovf := x.ovf && !v.getLsbD 10 }) ∧
          ((sl.kind = .row ∨ sl.kind = .rows ∨ sl.kind = .acc) → sl.cancel = true → t.xn rid = x) ∧
          ((sl.kind = .row ∨ sl.kind = .rows ∨ sl.kind = .acc) → sl.cancel = false → ∀ ng, ng = (if sl.kind = .acc then 1 else sl.ng) → 0 < ng → sl.vals.length = 64 * ng →
            ∀ i j, i < 64 → j < 64 → (t.xn rid).acc.get 0 (64 * i + j) = if i = sl.tag then addGroups (n.acc.get 0 (64 * i + j)) ((sl.vals.drop (ng * j)).take ng) else n.acc.get 0 (64 * i + j)))) ∧
    (s.focus.flag = true → ∀ q r k sl, q = s.page s.focus.page → r ∈ s.regionsOf s.focus.page → k < 64 → sl ∈ (s.cell r k).slots → sl.dist = 1 → ∀ stg, sl.its = some stg →
      q.lm.getLsbD stg = true → (sl.kind = .exit ∨ sl.kind = .drop) →
      (∀ r' k' sl', r' ∈ s.regionsOf s.focus.page → k' < 64 → sl' ∈ (s.cell r' k').slots → sl'.dist = 1 → (sl'.kind = .exit ∨ sl'.kind = .drop) → sl' = sl) →
      ∃ t, exec .resultLanding s = .next t ∧ t.mem = s.mem ∧ (∀ h, h ≠ s.focus.page → t.page h = s.page h) ∧
        ∀ it l, it = q.iteration stg → (∀ j, l.getLsbD j = (q.lm.getLsbD j && (if sl.kind = .exit then decide (stg ≤ j) else decide (j ≠ stg)))) →
          t.page s.focus.page = if sl.kind = .exit then { q with exitF := true, exitIt := if q.exitF = true ∧ (it + 2 ^ 32 - q.exitIt) % 2 ^ 32 < 2 ^ 31 then q.exitIt else it, lm := l } else { q with lm := l })

/-- R124, R125, R182, R284: the head token of a source departs to every destination of its routes, once each has a free place; a unit of a
retiring page is returned when nothing of it is left, and its region and its page with the last of them. That a route from or to a port departs and
counts its cycles while the page is frozen is log 11; the 2 cycles of port-to-port and node-to-node routes are log 83. -/
def Obligations.DeparturesAndReturns : Prop :=
  ∀ (s : State) (rid pid : Nat) (p : Page), rid = s.focus.region → pid = s.pageOf rid → p = s.page pid →
    (∀ src ds, src = s.focus.num → ds = s.destsOf pid (s.sregOf rid * 4096 + src) →
      ((s.sourceQ rid src).head? = none ∨ ds = [] ∨ (∃ d ∈ ds, ¬ DestFree s d) → exec .tokenDeparture s = .next s) ∧
      (∀ x, (s.sourceQ rid src).head? = some x → ds ≠ [] → ds.Nodup → (∀ d ∈ ds, DestFree s d) → ∃ t, exec .tokenDeparture s = .next t ∧
        t = { s with regions := t.regions } ∧ t.sourceQ rid src = (s.sourceQ rid src).pop ∧
        (∀ d ∈ ds, (destQ t d).freed = (destQ s d).freed ∧ ∃ y, (destQ t d).toks = (destQ s d).toks ++ [y] ∧ y.tok = x.tok ∧ y.rel = x.rel ∧
          y.dist = (if src < 0x40 ∧ d.2 < 256 then p.hops (s.sregOf rid) src (s.sregOf d.1) (d.2 / 4) else 2) ∧
          (y.wall = true ↔ (0x40 ≤ src ∧ src < 0x50) ∨ (256 ≤ d.2 ∧ d.2 < 272))) ∧
        ∀ d, (d.2 < 276 ∨ d.2 = 279) → d ∉ ds → destQ t d = destQ s d)) ∧
    (∀ u k, u = s.focus.unit → k = (if u ∈ (s.region rid).returned then (s.region rid).returned else u :: (s.region rid).returned) →
      (p.level ≠ 5 ∨ (s.region rid).holder = none ∨ p.captured = true ∨ ¬ UnitDone s rid u → exec .unitReturn s = .next s) ∧
      (p.level = 5 → (s.region rid).holder.isSome = true → p.captured = false → UnitDone s rid u →
        (k.length < 66 → ∃ t, exec .unitReturn s = .next t ∧ t.region rid = { s.region rid with returned := k } ∧ (∀ r, r ≠ rid → t.region r = s.region r) ∧
          t = { s with regions := t.regions }) ∧
        (66 ≤ k.length → (∀ e ∈ (s.region rid).outp, e.2.q.toks = []) → (∀ n, n < 4 → (qAt (s.mn rid).mo n).toks = []) → (s.xn rid).s.toks = [] →
          (s.chan rid 1).cur = none → (s.chan rid 3).cur = none → ∃ t, exec .unitReturn s = .next t ∧ (t.region rid).holder = none ∧
            (∀ r, r ≠ rid → t.region r = s.region r) ∧ t.mem = s.mem ∧ (∀ h, h ≠ pid → t.page h = s.page h) ∧
            ((∀ r ∈ p.regions, r ≠ rid → ∀ n, (s.region r).holder ≠ some (pid, n)) → t.page pid = { p with level := if p.freeReq then 7 else 6 }) ∧
            ((∃ r ∈ p.regions, r ≠ rid ∧ ∃ n, (s.region r).holder = some (pid, n)) → t.page pid = p))))

/-- R195, R197: a B load that has begun takes the head row of b into its buffer, its scales or the routing store, until it has its rows; a drain
slot leaves to the edges and channels that it is routed to as 64 tokens, the last of rank 1, and to a binding as 4 rows of 16 values, which reach it
two cycles later (R182). -/
def Obligations.MatrixRows : Prop :=
  ∀ (s : State) (rid : Nat) (x : XNode), rid = s.focus.region → x = s.xn rid →
    (∃ t, exec .bLoadRow s = .next t ∧ sameButXn s t ∧
      (x.ldb.busy = false ∨ x.ldb.begun = false ∨ x.b.head? = none → t.xn rid = x) ∧
      ∀ r j e, x.ldb.busy = true → x.ldb.begun = true → x.b.head? = some r → j = x.ldb.taken → e = 64 + bScaleRows x.ldb.mfmt → r.data.length = 64 →
        (t.xn rid).b = x.b.pop ∧ (t.xn rid).acc = x.acc ∧ (t.xn rid).active = x.active ∧
        (t.xn rid).ldb = { x.ldb with taken := j + 1, busy := decide (j + 1 < e + (if x.ldb.mfmt < 8 then 0 else 16 * mxDepth x.ldb.mfmt / 64)) } ∧
        (∀ a base, base = 4608 * x.ldb.buf + (if j < 64 then 64 * j else 4096 + 64 * (j - 64)) →
          (t.xn rid).bbuf.get 0 a = if j < e ∧ base ≤ a ∧ a < base + 64 then (r.data[a - base]?).getD 0 else x.bbuf.get 0 a) ∧
        (∀ a base, base = 16 * x.ldb.spbase + 64 * (j - e) →
          (t.xn rid).routing.get 0 a = if e ≤ j ∧ base ≤ a ∧ a < base + 64 then (r.data[a - base]?).getD 0 else x.routing.get 0 a)) ∧
    (∀ pid ds, pid = s.pageOf rid → ds = s.destsOf pid (s.sregOf rid * 4096 + 0x54) →
      (ds = [] ∨ x.drains = [] ∨ (s.page pid).captured = true → exec .drainDeparture s = .next s) ∧
      (∀ d rest, x.drains = d :: rest → ds ≠ [] → ds.Nodup → (s.page pid).captured = false →
        (∀ e ∈ ds, 256 ≤ e.2 ∧ ∃ n, s.portConn pid (e.2 - 240 + 32 * s.sregOf e.1) = .edge n ∨ s.portConn pid (e.2 - 240 + 32 * s.sregOf e.1) = .chan n) →
        ((∃ e ∈ ds, (s.outp e.1 (e.2 - 256)).q.room 4 = false) → exec .drainDeparture s = .next s) ∧
        ((∀ e ∈ ds, (s.outp e.1 (e.2 - 256)).q.room 4 = true) → ∃ t, exec .drainDeparture s = .next t ∧ t = { s with regions := t.regions } ∧
          (∀ e ∈ ds, (t.outp e.1 (e.2 - 256)).q.toks = (s.outp e.1 (e.2 - 256)).q.toks ++
            [⟨⟨(d.vals[d.next]?).getD 0, if 63 ≤ d.next then 1 else 0, false, false⟩, none, 2, true⟩]) ∧
          (t.xn rid).drains = (if 63 ≤ d.next then rest else { d with next := d.next + 1 } :: rest) ∧
          ∀ k, k ≠ rid → (∀ e ∈ ds, e.1 ≠ k) → t.region k = s.region k)) ∧
      (∀ r idx d rest b, ds = [(r, idx)] → x.drains = d :: rest → 256 ≤ idx → s.portConn pid (idx - 240 + 32 * s.sregOf r) = .opened →
        (s.chan r 1).cur = some b → b.port = idx - 240 → b.kind = .plain → s.takes r b = true → b.replies.length < 64 → (s.page pid).captured = false → ∃ t, exec .drainDeparture s = .next t ∧ t.mem = s.mem ∧
          (t.xn rid).drains = (if 3 ≤ d.next then rest else { d with next := d.next + 1 } :: rest) ∧
          (t.chan r 1).cur = some { b with cursor := b.cursor + 1, moved := b.moved + 1, replies := b.replies ++
            [⟨((d.vals.drop (16 * d.next)).take 16).flatMap (fun v => toBytes 4 v.toNat), 0, 0, 2⟩] }))

namespace Sys2Proof.Spec
open Sys2Proof.Machine

/-! ## Bindings, copies, channels and package time as they move (R210, R215 to R221, R225 to R233, R302, R303, R306, R307, R315 to R317, R321) -/

/-- Addr(n) of a pattern without an index: BASE and, for each dimension, its ordinal of element n times its stride (R210). -/
def patternAddr (r : ShapeRec) (n : Nat) : Int :=
  (r.base : Int) + ∑ d ∈ Finset.range 4, ((n / (∏ k ∈ Finset.range d, r.count k) % r.count d : Nat) : Int) * r.stride d

/-- T: the product of the four counts (R210). -/
def patternTotal (r : ShapeRec) : Nat := r.count 0 * r.count 1 * r.count 2 * r.count 3

/-- A plain pattern over the scratchpad: near, not indexed, without scales. -/
def NearPlain (r : ShapeRec) : Prop := r.virt = false ∧ r.indir = false ∧ r.mx = false

/-- The bytes of an element: a row of 64 on a row port, 4 on a token port (R210). -/
def elementBytes (s : State) (rid : Nat) (b : Binding) : Nat := if s.rowPort (s.pageOf rid) (b.port + 32 * s.sregOf rid) = true then 64 else 4

/-- The message at the end of the network's list is of a sender to a cluster. -/
def Sent (s t : State) (sender run dest : Nat) (kind : MsgKind) : Prop := ∃ n, t.msgs = s.msgs ++ [⟨n, sender, run, dest, kind⟩]

/-- A completing copy adds its bytes to the semaphore that its card names, if it names one (R229). -/
def SemPost (s t : State) (c : Nat) (x : Copy) : Prop :=
  ((cardSem x.card).testBit 7 = false → t.msgs = s.msgs) ∧
  ((cardSem x.card).testBit 7 = true → ∀ d, (if cardSemcl x.card = 0xFFFF then some c else (s.run (s.runOf c)).clusterAt (cardSemcl x.card)) = some d →
    Sent s t (senderEntry x.entry) (s.runOf c) d (.add (cardSem x.card % 64) (BitVec.ofNat 64 x.bytes)))

/-- The physical address of byte n of a pattern over the scratchpad of cluster c (R15, R210). -/
def nearByte (r : ShapeRec) (c n : Nat) : Nat := 0x10000000000 + c * 0x1000000 + (patternAddr r n).toNat

/-- Byte n of a pattern lies in the scratchpad (R147). -/
def ByteIn (s : State) (r : ShapeRec) (n : Nat) : Prop := 0 ≤ patternAddr r n ∧ patternAddr r n < s.scrcap

/-- The bank of n bytes from a near offset has made no access on this cycle, and no atomic of the last cycle holds a word of them (R147, R151, R162). -/
def BankOpen (s : State) (c a n : Nat) : Prop :=
  a % 0x600000 / 0x60000 ∉ (s.cluster c).bankBusy ∧ ∀ h ∈ (s.cluster c).bankHold, h.2 = 1 → h.1 + 4 ≤ a ∨ a + n ≤ h.1

/-- The next step of a moving copy x of slot i over the scratchpad (R225): it fixes the next destination bytes, which follow one another; it reads
the source bytes of those places; it writes each destination byte with what was read for it. -/
def MovesOn (s u : State) (c i : Nat) (x : Copy) (a b : ShapeRec) : Prop :=
  (x.target.2 = 0 → ByteIn s b x.cursor → ∃ n, 1 ≤ n ∧ x.cursor + n ≤ patternTotal b ∧
    step s = .next (u.setCopy c i { x with target := ((patternAddr b x.cursor).toNat, n) }) ∧
    (∀ j, j < n → patternAddr b (x.cursor + j) = patternAddr b x.cursor + j) ∧
    ((patternAddr b x.cursor) % 4 + n ≤ 4 ∨ ((patternAddr b x.cursor) % 4 = 0 ∧ n % 4 = 0))) ∧
  (∀ q w, w = x.fetched.length → w < x.target.2 → q = x.cursor + w → q < patternTotal a → ByteIn s a q → ∃ m, 1 ≤ m ∧ w + m ≤ x.target.2 ∧
    (∀ j, j < m → patternAddr a (q + j) = patternAddr a q + j) ∧ (¬ BankOpen s c (patternAddr a q).toNat m → step s = .next u) ∧
    (BankOpen s c (patternAddr a q).toNat m → ∃ t, step s = .next t ∧ t.mem = s.mem ∧
      t.copy c i = { x with fetched := x.fetched ++ (List.range m).map (fun j => memGet s.mem (nearByte a c (q + j))) })) ∧
  (∀ da n, x.target = (da, n) → 0 < n → x.fetched.length = n → c < 192 → da + n ≤ s.scrcap →
    (¬ BankOpen s c da n ∨ 256 < (s.cluster c).copied + n → step s = .next u) ∧
    (BankOpen s c da n → (s.cluster c).copied + n ≤ 256 → ∃ t, step s = .next t ∧ (t.cluster c).copied = (s.cluster c).copied + n ∧
      t.copy c i = { x with cursor := x.cursor + n, bytes := x.bytes + n, fetched := [], target := (0, 0) } ∧ (∀ j, j ≠ i → t.copy c j = s.copy c j) ∧
      (s.memOk → ∀ y, memGet t.mem y = if 0x10000000000 + c * 0x1000000 + da ≤ y ∧ y < 0x10000000000 + c * 0x1000000 + da + n
        then (x.fetched[y - (0x10000000000 + c * 0x1000000 + da)]?).getD 0 else memGet s.mem y)))

/-- Scheduler entry i of cluster c has completed: it is gone, and nothing waits for it (R228). -/
def EntryGone (t : State) (c i : Nat) : Prop := ∀ e ∈ (t.cluster c).sched, e.ident ≠ i ∧ i ∉ e.preds

/-- A write or trigger binding of region rid takes from its port, which no earlier STBINDI binding holds (R215, R217 to R219). -/
def TakesNow (s : State) (rid : Nat) (b : Binding) : Prop :=
  b.moving = true ∧ b.stopping = false ∧ b.ended = false ∧ (s.page (s.pageOf rid)).captured = false ∧
  ∀ j x, j < 4 → (s.chan rid j).cur = some x → x.kind = .indexed → x.iport = b.port → x.entry = b.entry ∨ (b.kind = .indexed ∧ b.entry ≤ x.entry)

/-- A release and an acquire at package scope by an agent of cluster c lie in one instance of the release's scope: of cluster, quad, die or
package; a release of region scope pairs within its region alone (R168, R172). -/
def PairsAt (r : Rel) (c : Nat) : Prop :=
  r.scope ≠ 0 ∧ ∃ n ∈ r.nodes, (r.scope = 1 → n / 16 = c) ∧ (r.scope = 2 → n / 16 / 4 = c / 4) ∧ (r.scope = 3 → n / 16 / 64 = c / 64)

/-- A release pairs with an acquire by a unit of region rid (R168, R172). -/
def PairsIn (r : Rel) (rid : Nat) : Prop := (r.scope = 0 ∧ rid ∈ r.nodes) ∨ PairsAt r (rid / 16)

/-- The die that two others leave. -/
def thirdDie (d n : Nat) : Nat := 3 - d - n

/-- A lane joins dies d and n: their link is up, or both links over the third die are, which has not fenced itself (R315). -/
def LaneUp (s : State) (d n : Nat) : Prop :=
  linkUp s d n = true ∨ (linkUp s d (thirdDie d n) = true ∧ linkUp s (thirdDie d n) n = true ∧ (s.die (thirdDie d n)).fenced = false)

/-- Est at a tick: the offset, and the rate times the ticks since it was measured, over 65,536 (R302). -/
def estAt (w : Waggle) (tick : W64) : Int := w.off + w.rate * ((tick - w.tlast).toNat : Int) / 65536

/-- The estimate after a sample of measured offset m (R302). -/
def sampled (w : Waggle) (m : Int) (tick : W64) : Waggle :=
  { w with off := m, rate := if w.seen then w.rate + 8 * (m - estAt w tick) else 0, tlast := tick, seen := true, quiet := 0 }

/-- Each die's WGSTAT.DETOUR says whether a channel received there runs over two links; nothing else of it changes (R315, R317). -/
def DetourSeen (s u : State) : Prop :=
  ∀ i, i < 3 → u.die i = { s.die i with detour := (u.die i).detour } ∧
    ((u.die i).detour = true ↔ ∃ e ∈ u.runs, ∃ f ∈ e.2.chans, f.2.detour = true ∧ f.2.freed = false ∧ s.chanDie e.1 f.2 false = i)

/-- The dies that link L01, L02 or L12 joins (R300). -/
def linkPair (l : Nat) : Nat × Nat := if l = 0 then (0, 1) else if l = 1 then (0, 2) else (1, 2)

/-- A channel joins two dies. -/
def Joins (s : State) (run : Nat) (c : XChan) (a b : Nat) : Prop :=
  c.freed = false ∧ ((s.chanDie run c true = a ∧ s.chanDie run c false = b) ∨ (s.chanDie run c true = b ∧ s.chanDie run c false = a))

/-- The state that a command gives one end of a channel: closed, elastic, or pending (R307, R321). -/
def cmdState (k : ChanCmd) : Nat := if k.opens = false then 1 else if k.elastic then 3 else 4

end Sys2Proof.Spec

/-- R210, R215 to R217, R219 to R221: a binding starts once its region's unfrozen cycles and its footprint predecessors allow; it reads or writes its
elements at the addresses of its pattern, in order; it delivers them to its port, or takes them from it; and it completes with its add, a read
that its retiring page has caught counting as stopped. With RELR a write that ends a run of dimension 0 makes the add of the bytes since the last.
The accesses stated are those of plain patterns over the scratchpad: virtual, gathered and MX patterns are not stated here. That a delivered token counts from the next cycle, frozen or not, is log 11; the order of
the accesses to different locations is log 88. -/
def Obligations.BindingEvents : Prop :=
  ∀ (s : State) (rid ch c pid : Nat) (k : Chan) (b : Binding) (p : Page) (o : Port), rid = s.focus.region → ch = s.focus.num → c = rid / 16 → pid = s.pageOf rid →
    k = s.chan rid ch → k.cur = some b → p = s.page pid → ch < 4 →
    (∀ ok : Prop, (ok ↔ b.moving = false ∧ p.captured = false ∧ 4 ≤ p.level ∧ p.level ≤ 5 ∧ b.start ≤ p.unfrozen ∧ (s.cluster c).preds b.entry = 0 ∧
        (s.cluster c).behindPlace b.entry = false) →
      (¬ ok → exec .bindingStart s = .next s) ∧
      (ok → ∃ t, exec .bindingStart s = .next t ∧ t = s.setChan rid ch { k with cur := some { b with moving := true, late := decide (b.start < p.unfrozen ∨ (p.unfrozen = b.start ∧ p.atCount ≠ 0)) } })) ∧
    (∀ n a e, ch % 2 = 0 → b.acqs = [] → n = b.cursor + b.replies.length → a = patternAddr b.shape n → e = elementBytes s rid b →
      (b.moving = false ∨ b.stopping = true ∨ 64 ≤ b.replies.length ∨ patternTotal b.shape ≤ n → exec .bindingAccess s = .next s) ∧
      (b.moving = true → b.stopping = false → b.replies.length < 64 → n < patternTotal b.shape → NearPlain b.shape →
        (0 ≤ a → a < s.scrcap → a.toNat % e = 0 → ∃ t, exec .bindingAccess s = .next t ∧ t.mem = s.mem ∧ (t.chan rid ch).cur = some { b with replies := b.replies ++
          [⟨(List.range e).map (fun i => memGet s.mem (0x10000000000 + c * 0x1000000 + a.toNat + i)), 0x7F7F7F7F, BitVec.ofNat 8 (b.shape.tag0 + n * b.shape.taginc), 0⟩] }) ∧
        (0 ≤ a → a < s.scrcap → a.toNat % e ≠ 0 → (s.run p.run).err = none → ∃ t x, exec .bindingAccess s = .next t ∧ t.mem = s.mem ∧
          (t.run p.run).err = some x ∧ x.cause = Cause.align.code ∧ x.page = p.handle ∧ x.addr = a.toNat ∧ (t.run p.run).phase = .erring))) ∧
    (∀ r rest a n runEnds, ch % 2 = 1 → b.acqs = [] → b.replies = r :: rest → r.dist = 0 → n = b.cursor - b.replies.length → a = patternAddr b.shape n → NearPlain b.shape →
      (b.shape.relr = true → b.kind ≠ .trigger) → c < 192 → 0 ≤ a → a < s.scrcap → a.toNat % elementBytes s rid b = 0 →
      (runEnds = true ↔ b.shape.relr = true ∧ (n + 1) % b.shape.count 0 = 0 ∧ ¬ (rest = [] ∧ (b.ended = true ∨ b.stopping = true ∨ patternTotal b.shape ≤ b.cursor))) →
      ∃ t, exec .bindingAccess s = .next t ∧
        (t.chan rid ch).cur = some { b with replies := rest, addBytes := if runEnds then 0 else b.addBytes + r.data.length } ∧
        (runEnds = true → b.shape.bsem.testBit 7 = true →
          Sent s t (senderEntry b.entry) (s.runOf c) c (.add (b.shape.bsem % 64) (BitVec.ofNat 64 (b.addBytes + r.data.length)))) ∧
        (runEnds = false ∨ b.shape.bsem.testBit 7 = false → t.msgs = s.msgs) ∧
        (s.memOk → ∀ x, memGet t.mem x = if 0x10000000000 + c * 0x1000000 + a.toNat ≤ x ∧ x < 0x10000000000 + c * 0x1000000 + a.toNat + r.data.length
          then (r.data[x - (0x10000000000 + c * 0x1000000 + a.toNat)]?).getD 0 else memGet s.mem x)) ∧
    (∀ r rest, ch % 2 = 0 → b.replies = r :: rest → s.rowDests pid (s.sregOf rid) b.port = [] → b.port < 16 → p.region (s.sregOf rid) = rid → (s.run p.run).seams = [] →
      o = s.inp rid b.port →
      (p.level = 4 → p.captured = true ∨ 4 ≤ o.q.toks.length + o.q.freed → exec .bindingDeliver s = .next s) ∧
      (p.level = 4 → p.captured = false → o.q.toks.length + o.q.freed < 4 → ∃ t, exec .bindingDeliver s = .next t ∧ t.mem = s.mem ∧
        (t.chan rid ch).cur = some { b with replies := rest, cursor := b.cursor + 1, moved := b.moved + 1, addBytes := b.addBytes + r.data.length } ∧
        ∃ y, (t.inp rid b.port).q.toks = o.q.toks ++ [y] ∧ y.tok = ⟨BitVec.ofNat 32 (ofBytes (r.data.take 4)), BitVec.ofNat 2 (b.shape.rank b.cursor), false, false⟩ ∧
          y.dist = 1 ∧ y.wall = true)) ∧
    (ch % 2 = 1 → 16 ≤ b.port → o = s.outp rid (b.port - 16) → o.tack = false →
      (∀ i ∈ [Instr.bindingTake, .triggerForward], ¬ TakesNow s rid b → exec i s = .next s) ∧
      (∀ x, b.kind = .plain → TakesNow s rid b → b.cursor < patternTotal b.shape → s.drainOf pid (s.sregOf rid) (b.port - 16) = none → o.q.head? = some x →
        (64 ≤ b.replies.length → exec .bindingTake s = .next s) ∧
        (b.replies.length < 64 → ∃ t y, exec .bindingTake s = .next t ∧ (t.chan rid ch).cur = some y ∧ t.mem = s.mem ∧ (t.outp rid (b.port - 16)).q = o.q.pop ∧
          y = { b with cursor := b.cursor + 1, moved := b.moved + 1, ended := decide (x.tok.rank = 3), acqs := y.acqs, acqStamp := y.acqStamp
                       replies := b.replies ++ [⟨toBytes 4 x.tok.data.toNat, 0, 0, 0⟩] } ∧
          (x.tok.ord = false → y.acqs = b.acqs ∧ y.acqStamp = b.acqStamp) ∧ (x.tok.ord = true → ∀ l, x.rel = some l → (PairsIn l rid → y.acqs = l :: b.acqs) ∧
            (¬ PairsIn l rid → y.acqs = b.acqs)))) ∧
      (∀ x d q tq, b.kind = .trigger → TakesNow s rid b → o.q.head? = some x → s.indexed c (b.target / 256 % 256) = some d → q = b.target % 16 →
        tq = (s.cluster d).tqs.get TrigQ.empty q →
        (16 ≤ tq.toks.length + tq.reserved → exec .triggerForward s = .next s) ∧
        (tq.toks.length + tq.reserved < 16 → ∃ t, exec .triggerForward s = .next t ∧ t.mem = s.mem ∧ (t.outp rid (b.port - 16)).q = o.q.pop ∧
          (t.chan rid ch).cur = some { b with cursor := b.cursor + 1, moved := b.moved + 1, ended := decide (x.tok.rank = 3) } ∧
          (t.cluster d).tqs.get TrigQ.empty q = { tq with reserved := tq.reserved + 1 } ∧
          Sent s t (senderEntry b.entry) (s.runOf c) d (.trigger q { x with dist := 0, wall := false })))) ∧
    (∀ fin : Prop, (fin ↔ (ch % 2 = 0 ∧ p.level = 5) ∨ if b.kind = .trigger then b.ended = true ∨ b.stopping = true
        else if ch % 2 = 0 then b.stopping = true ∨ patternTotal b.shape ≤ b.cursor
        else b.replies = [] ∧ (b.ended = true ∨ b.stopping = true ∨ patternTotal b.shape ≤ b.cursor)) →
      (¬ fin → exec .bindingCompletion s = .next s) ∧
      (fin → k.pend = none → ∃ t, exec .bindingCompletion s = .next t ∧ EntryGone t c b.entry ∧ t.mem = s.mem ∧
        t.chan rid ch = { k with cur := none, lastSeq := b.seq, lastMoved := b.moved, ended := true, late := b.late, stopped := b.stopping || (decide (ch % 2 = 0) && decide (p.level = 5)) } ∧
        (b.kind ≠ .trigger → b.shape.bsem.testBit 7 = true → (b.shape.relr = false ∨ b.addBytes ≠ 0) →
          Sent s t (senderEntry b.entry) (s.runOf c) c (.add (b.shape.bsem % 64) (BitVec.ofNat 64 b.addBytes))) ∧
        (b.kind = .trigger ∨ b.shape.bsem.testBit 7 = false → t.msgs = s.msgs)))

/-- R225, R226, R229, R232, R233: the oldest ready copy begins to move where fewer than 16 do, its records good, and one of no byte completes at
once; a copy whose bytes are written completes: its entry goes, its semaphore counts its bytes, its barrier receives its post; an armed template
fires for the head token of its queue, and a token of rank 3 disarms it. A moving copy over the scratchpad takes its next step: it fixes the next
destination bytes, those of one aligned word or whole words, reads the source bytes of the same places in the pattern, and writes to each
destination byte what it read for it, 256 bytes of a cluster at most on a cycle. The order of its accesses is log 88. -/
def Obligations.CopyEvents : Prop :=
  ∀ (s : State) (c i : Nat) (x : Copy) (k : Cluster), c = s.focus.cluster → i = s.focus.num → x = s.copy c i → k = s.cluster c →
    (s.copyReady c i = false ∨ (∃ e ∈ k.copies, e.2.entry < x.entry ∧ s.copyReady c e.1 = true) ∨ 16 ≤ k.copies.countP (fun e => e.2.state == 3) →
      exec .copyDispatch s = .next s) ∧
    (∀ a b, s.copyReady c i = true → (∀ e ∈ k.copies, s.copyReady c e.1 = true → x.entry ≤ e.2.entry) → k.copies.countP (fun e => e.2.state == 3) < 16 →
      x.src = some a → x.dst = some b →
      (copyFault x.card (ShapeRec.of a) (ShapeRec.of b) = none → patternTotal (ShapeRec.of a) ≠ 0 →
        ∃ t, exec .copyDispatch s = .next t ∧ t = { s.setCopy c i { x with state := 3, stamp := if x.acqs = [] then x.stamp else s.seq } with seq := s.seq + 1 }) ∧
      (∀ f, copyFault x.card (ShapeRec.of a) (ShapeRec.of b) = some f → x.owner = .controller → k.owner.isSome = true → (s.run (s.runOf c)).err = none →
        ∃ t e, exec .copyDispatch s = .next t ∧ (t.run (s.runOf c)).err = some e ∧ e.cause = f.code ∧ e.addr = x.va ∧ t.copy c i = x) ∧
      ((ShapeRec.of a).bad .copy = true ∨ (ShapeRec.of b).bad .copy = true ∨ (ShapeRec.of a).dir = true ∨ (ShapeRec.of b).dir = false ∨
        patternTotal (ShapeRec.of a) ≠ patternTotal (ShapeRec.of b) → copyFault x.card (ShapeRec.of a) (ShapeRec.of b) = some .shape)) ∧
    (∀ a b, s.copyReady c i = true → (∀ e ∈ k.copies, s.copyReady c e.1 = true → x.entry ≤ e.2.entry) → k.copies.countP (fun e => e.2.state == 3) < 16 →
      x.src = some a → x.dst = some b → copyFault x.card (ShapeRec.of a) (ShapeRec.of b) = none → patternTotal (ShapeRec.of a) = 0 → cardBar x.card = 0 →
      ∃ t, exec .copyDispatch s = .next t ∧ EntryGone t c x.entry ∧ (t.copy c i).state = 4 ∧ (t.copy c i).bytes = x.bytes ∧ t.mem = s.mem ∧ SemPost s t c x) ∧
    (∀ f rest u a b, s.agenda = .sub .copyMove f :: rest → f.cluster = c → f.num = i → u = { s with agenda := rest } → x.state = 3 → a = ShapeRec.of (x.src.getD []) →
      b = ShapeRec.of (x.dst.getD []) → NearPlain a → NearPlain b → patternTotal b = patternTotal a → x.cursor < patternTotal a → MovesOn s u c i x a b) ∧
    (x.state ≠ 3 ∨ x.cursor < patternTotal (ShapeRec.of (x.src.getD [])) → exec .copyCompletion s = .next s) ∧
    (x.state = 3 → patternTotal (ShapeRec.of (x.src.getD [])) ≤ x.cursor → cardBar x.card = 0 → ∃ t, exec .copyCompletion s = .next t ∧
      EntryGone t c x.entry ∧ t.copy c i = { x with state := 4 } ∧ (∀ j, j ≠ i → t.copy c j = s.copy c j) ∧ t.mem = s.mem ∧
      SemPost s t c x) ∧
    (∀ p v, x.state = 3 → patternTotal (ShapeRec.of (x.src.getD [])) ≤ x.cursor → cardBar x.card ≠ 0 → cardBar x.card % 32 = 0 → cardBar x.card < 2 ^ 52 →
      s.place c x.tenant .write (barAllowed c) (cardBar x.card) 32 = (.ok [p], v) → p.pa / 0x1000000 < 0x10000 + 192 → 0x10000 ≤ p.pa / 0x1000000 →
      ∃ t pre n, exec .copyCompletion s = .next t ∧ t.copy c i = { x with state := 4 } ∧
        t.msgs = pre ++ [⟨n, senderEntry x.entry, s.runOf c, p.pa / 0x1000000 - 0x10000, .post c p.pa (cardArrive x.card) x.bytes⟩] ∧
        ((cardSem x.card).testBit 7 = false → pre = s.msgs)) ∧
    (∀ tm q, tm = s.template c i → q = k.tqs.get TrigQ.empty tm.queue →
      (q.toks = [] ∨ tm.loaded = false ∨ tm.armed = false ∨ s.freeCopies c = [] → exec .templateFiring s = .next s) ∧
      (∀ y rest, q.toks = y :: rest → tm.loaded = true → tm.armed = true → s.freeCopies c ≠ [] → cardBar tm.card = 0 →
        ∃ (t : State) (slot f : Nat), exec .templateFiring s = .next t ∧ Entered s t c slot tm.card ∧ (t.cluster c).tqs.get TrigQ.empty tm.queue = { q with toks := rest } ∧
          t.template c i = { tm with fires := (tm.fires + 1) % 2 ^ 32, armed := decide (y.tok.rank ≠ 3) } ∧
          f = (if cardReps tm.card ≤ 1 then 0 else tm.fires % cardReps tm.card) ∧
          (t.copy c slot).src = some (toBytes 8 (((fieldAt tm.src 0 8 : Int) + f * signed (fieldAt tm.card 0x28 8) 64) % 2 ^ 64).toNat ++ tm.src.drop 8) ∧
          (t.copy c slot).dst = some (toBytes 8 (((fieldAt tm.dst 0 8 : Int) + f * signed (fieldAt tm.card 0x30 8) 64) % 2 ^ 64).toNat ++ tm.dst.drop 8) ∧
          (t.copy c slot).owner = .template ∧ (∀ r, y.tok.ord = true → y.rel = some r → (PairsAt r c → (t.copy c slot).acqs = [r]) ∧ (¬ PairsAt r c → (t.copy c slot).acqs = [])) ∧ (y.tok.ord = false → (t.copy c slot).acqs = [])))

/-- R306, R307, R317, R321, R323: a token and a credit in flight count once the package time at their end allows; a cell's channel push takes a
credit and is there 40 cycles of package time later, 64 over a detour; a command takes effect at an end after those before it, and
waits for the gates where they have not opened (log 95). -/
def Obligations.ChannelEvents : Prop :=
  ∀ (s : State) (r h : Nat) (c : XChan), r = s.focus.run → h = s.focus.chan → c = s.chanOf r h →
    (∀ d, d = s.chanDie r c false →
      (c.flight = [] → exec .channelTokenArrival s = .next s) ∧
      (∀ at' t rest, c.flight = (at', t) :: rest →
        ((s.die d).pktime.toNat < at'.toNat → exec .channelTokenArrival s = .next s) ∧
        (at'.toNat ≤ (s.die d).pktime.toNat → ∃ u b, exec .channelTokenArrival s = .next u ∧ u = { s.setChanOf r h (u.chanOf r h) with dies := u.dies } ∧
          DetourSeen s u ∧ (b = true ↔ c.detour = true ∧ ¬ (rest = [] ∧ c.creditFlight = [] ∧ linkUp s (s.chanDie r c true) d = true)) ∧
          u.chanOf r h = if t.tok.ctl then { c with flight := rest, tacked := true, detour := b } else { c with flight := rest, toks := c.toks ++ [t], detour := b }))) ∧
    (∀ d, d = s.chanDie r c true →
      (c.creditFlight = [] → exec .creditReturn s = .next s) ∧
      (∀ at' rest, c.creditFlight = at' :: rest →
        ((s.die d).pktime.toNat < at'.toNat → exec .creditReturn s = .next s) ∧
        (at'.toNat ≤ (s.die d).pktime.toNat → ∃ u, exec .creditReturn s = .next u ∧ (u.chanOf r h).credits = c.credits + 1 ∧ (u.chanOf r h).creditFlight = rest ∧
          (u.chanOf r h).toks = c.toks ∧ (u.chanOf r h).flight = c.flight ∧ (∀ j, j ≠ h → u.chanOf r j = s.chanOf r j) ∧ u.mem = s.mem ∧ DetourSeen s u ∧
          ((u.chanOf r h).detour = true ↔ c.detour = true ∧ ¬ (c.flight = [] ∧ rest = [] ∧ linkUp s (s.chanDie r c true) (s.chanDie r c false) = true))))) ∧
    (((s.run r).phase ≠ .active ∧ (s.run r).phase ≠ .switching) ∨ (s.run r).resumeAt ≠ none → exec .channelCommandEffect s = .next s) ∧
    (∀ (send : Bool) (now : Nat), send = s.focus.flag → now = (s.runt r (s.chanDie r c send)).toNat → (s.run r).phase = .active ∨ (s.run r).phase = .switching → (s.run r).resumeAt = none → c.sendSt = 0 →
      exec .channelCommandEffect s = .next (s.setChanOf r h { c with
        cmds := c.cmds.map (fun k => if k.opens = false ∨ now < k.target then k else if send then { k with lateSend := true } else { k with lateRecv := true }) })) ∧
    (∀ (send : Bool) (now old st pg : Nat) (k : ChanCmd) (late held rel : Bool), send = s.focus.flag → now = (s.runt r (s.chanDie r c send)).toNat → c.sendSt ≠ 0 →
      (s.run r).phase = .active ∨ (s.run r).phase = .switching → (s.run r).resumeAt = none → old = (if send then c.sendSt else c.recvSt) →
      late = (k.opens && (if send then k.lateSend else k.lateRecv)) → held = (if send then c.sendHeld else c.recvHeld) → rel = (k.opens && !late && held && decide (old = 1)) →
      pg = (if send then c.ppage else c.cpage) → (s.page (pidOf r pg)).handle = pg → (s.page (pidOf r pg)).run = r → c.ppage ≠ c.cpage →
      st = cmdState k → c.cmds = [k] → (if send then k.atSend else k.atRecv) = false →
      (k.opens = true → now < k.target → ∃ u, exec .channelCommandEffect s = .next u ∧ u = s.setChanOf r h c) ∧
      (k.opens = false ∨ k.target ≤ now → ∃ u x, exec .channelCommandEffect s = .next u ∧ u = { s with runs := u.runs } ∧ x = u.chanOf r h ∧ x.toks = c.toks ∧
        x.credits = c.credits ∧ (rel = false → ∀ j, j ≠ h → u.chanOf r j = s.chanOf r j) ∧
        (rel = true → ∀ j g a b, j ≠ h → (s.run r).chans.find? j = some g → a = (g.sendAligned || (g.ppage == pg && g.sendSt == 4)) → b = (g.recvAligned || (g.cpage == pg && g.recvSt == 4)) →
          u.chanOf r j = if g.sendSt = 4 ∧ g.recvSt = 4 ∧ a = true ∧ b = true then { g with sendAligned := a, recvAligned := b, sendSt := 2, recvSt := 2 }
            else { g with sendAligned := a, recvAligned := b }) ∧
        x.lateOpen = (c.lateOpen || late) ∧
        (¬ ((if send then c.recvSt else c.sendSt) = 4 ∧ st = 4) → (if send then x.sendSt else x.recvSt) = st ∧ (if send then x.recvSt else x.sendSt) = (if send then c.recvSt else c.sendSt) ∧
          (if send then x.sendAligned else x.recvAligned) = (decide (st = 4 ∧ old = 1) && !late && held)) ∧
        ((if send then c.recvSt else c.sendSt) = 4 → st = 4 → old = 1 → late = false → held = true → (if send then c.recvAligned else c.sendAligned) = true →
          x.sendSt = 2 ∧ x.recvSt = 2) ∧
        x.cmds = if (if send then k.atRecv else k.atSend) = true then [] else [if send then { k with atSend := true } else { k with atRecv := true }])) ∧
    (∀ rid u pid pre sl post g, rid = s.focus.region → u = s.focus.unit → u < 64 → s.focus.flag = false → pid = s.pageOf rid → OneDue (s.cell rid u) pre sl post →
      sl.kind = .chsend → sl.ord = false → (s.page pid).slotLive sl.its sl.live = true → (s.page pid).run = r → s.chanAt pid (s.sregOf rid) sl.port true = some (h, g) →
      ∃ t, exec .resultLanding s = .next t ∧ t.mem = s.mem ∧ (t.chanOf r h).credits = c.credits - 1 ∧
        (t.chanOf r h).flight = c.flight ++ [((s.die (s.chanDie r c true)).pktime + (if c.detour then 64 else 40), ⟨⟨sl.value, sl.rank, false, false⟩, none, 0, false⟩)])

/-- R300 to R303, R314 to R317: a die's TICK counts its cycles, and PKTIME follows TICK, POFF and the estimate of the leader, never backwards;
a die sends a sample every 1,024 ticks over each lane it has; a good sample gives the next estimate, and the first
one from die 0 steps TICK; a link that goes down detours its channels, and one that is retrained is up on every die. -/
def Obligations.PackageTime : Prop :=
  ∀ (s : State) (d n : Nat) (x : Die), d = s.focus.die → n = s.focus.num → x = s.die d → d < 3 →
    (∀ f rest own p, s.agenda = .sub .dieCycle f :: rest → f.die = d → own = x.tick + 1 + x.poff →
      p = (if d = x.leader then own else own + BitVec.ofInt 64 (estAt (x.waggle x.leader) (x.tick + 1) / 256)) →
      ∃ t, step s = .next t ∧ (t.die d).tick = x.tick + 1 ∧ (t.die d).pktime.toNat = max p.toNat x.pktime.toNat ∧ ∀ j, j ≠ d → t.die j = s.die j) ∧
    (x.tick.toNat % 1024 ≠ 0 ∨ x.fenced = true → exec .waggleSampleSend s = .next s) ∧
    (x.tick.toNat % 1024 = 0 → x.fenced = false → ∃ t, exec .waggleSampleSend s = .next t ∧ t = { s with dies := t.dies } ∧
      ∀ m, m < 3 → (m ≠ d ∧ LaneUp s d m ∧ (s.die m).fenced = false → t.die m = { s.die m with samples := (s.die m).samples ++ [⟨d, x.tick, x.poff⟩] }) ∧
        (m = d ∨ ¬ LaneUp s d m ∨ (s.die m).fenced = true → t.die m = s.die m)) ∧
    ((∀ m ∈ x.samples, m.src ≠ n) → exec .waggleSampleReceive s = .next s) ∧
    (∀ pre m post, x.samples = pre ++ m :: post → m.src = n → (∀ k ∈ pre, k.src ≠ n) →
      (s.focus.flag = true ∨ x.fenced = true → ∃ t, exec .waggleSampleReceive s = .next t ∧ t = s.setDie d { x with samples := pre ++ post }) ∧
      (s.focus.flag = false → x.fenced = false → n < 3 → ∃ t ph off, exec .waggleSampleReceive s = .next t ∧ ph < 256 ∧
        off = 256 * (m.ts.toNat : Int) + s.wglat d n - (256 * (x.tick.toNat : Int) + ph) ∧ t = { s with dies := t.dies, choices := t.choices } ∧
        (∀ j, j ≠ d → t.die j = s.die j) ∧ (t.die d).samples = pre ++ post ∧ (t.die d).poff = (if n = x.leader then m.poff else x.poff) ∧
        (n ≠ 0 ∨ x.stepped = true → (t.die d).tick = x.tick ∧ (t.die d).wag[n]? = some (sampled (x.waggle n) off x.tick)) ∧
        (n = 0 → x.stepped = false → (x.waggle 0).seen = false → (t.die d).tick = x.tick + BitVec.ofInt 64 ((off + 128) / 256) ∧ (t.die d).stepped = true))) ∧
    (∀ l a b, l = s.focus.num → l < 3 → (a, b) = linkPair l →
      (linkUp s a b = false → exec .linkDown s = .next s) ∧
      (linkUp s a b = true ∨ (s.die a).fenced = true ∨ (s.die b).fenced = true → exec .linkRetrain s = .next s) ∧
      (linkUp s a b = true → (∀ i j, i < 3 → j < 3 → (i, j) ≠ (a, b) → (i, j) ≠ (b, a) → linkUp s i j = true) → ∃ t, exec .linkDown s = .next t ∧
        (∀ i, i < 3 → ∀ j, j < 3 → (t.die i).links[j]? = some (if j = l then false else (s.die i).links[j]?.getD false)) ∧ t.mem = s.mem ∧
        (∀ r h c, (s.run r).chans.find? h = some c → (Joins s r c a b → t.chanOf r h = { c with detour := true }) ∧ (¬ Joins s r c a b → t.chanOf r h = c)) ∧
        (∀ e ∈ s.runs, ∀ f ∈ e.2.chans, Joins s e.1 f.2 a b → f.2.margin < 34 → (f.2.sendSt = 2 ∨ f.2.recvSt = 2) →
          Job.ev .timingFault { Focus.none with run := e.1, chan := f.1, num := 4 } ∈ t.agenda) ∧
        ∀ i, i < 3 → ((t.die i).detour = true ↔ ∃ e ∈ t.runs, ∃ f ∈ e.2.chans, f.2.detour = true ∧ f.2.freed = false ∧ s.chanDie e.1 f.2 false = i)) ∧
      (linkUp s a b = true → (∃ m, m < 3 ∧ m ≠ l ∧ linkUp s (linkPair m).1 (linkPair m).2 = false) → ∃ t, exec .linkDown s = .next t ∧ t.mem = s.mem ∧
        ∀ i, i < 3 → ((t.die i).fenced = true ↔ (s.die i).fenced = true ∨
          ∀ m, m < 3 → (linkPair m).1 = i ∨ (linkPair m).2 = i → m = l ∨ linkUp s (linkPair m).1 (linkPair m).2 = false)) ∧
      (linkUp s a b = false → (s.die a).fenced = false → (s.die b).fenced = false → ∃ t, exec .linkRetrain s = .next t ∧ t.mem = s.mem ∧
        (t = { s with choices := t.choices } ∨
          ((∀ i, i < 3 → ∀ j, j < 3 → (t.die i).links[j]? = some (if j = l then true else (s.die i).links[j]?.getD false)) ∧
            ((t.die a).wag[b]?.map (·.seen)) = some false ∧ ((t.die b).wag[a]?.map (·.seen)) = some false ∧ (t.die a).tick = (s.die a).tick))))

namespace Sys2Proof.Spec
open Sys2Proof.Machine

/-! ## The machine as a whole (R9, R19, R20, R42 to R47, R261, R366, R371, R377, R400, R405, R407) -/

/-- A string of bytes read as a number, the byte at the lowest address least (R5). -/
def numberOf (b : List Byte) : Nat := (b.zipIdx.map (fun p => p.1.toNat * 256 ^ p.2)).sum

/-- The state in which controller c executes what it has latched: u with this word, and with c in focus. -/
def latchedAt (u : State) (c : Nat) (word : BitVec 32) (comp : Bool) : State :=
  { u.setCtl c { u.ctl c with insn := word, comp := comp } with focus := { u.focus with cluster := c } }

/-- The machine's invariant: memory in its canonical form, the throttle step a step of the clock, one of the two complexes active. -/
def Inv (s : State) : Prop := s.memOk ∧ s.devOk

/-- Words of the spec's encodings with the instructions they stand for (R43, R44): funct7, rs2, rs1, funct3, rd, major opcode. -/
def customWords : List (BitVec 32 × Instr) := [
  (0b0000000#7 ++ 12#5 ++ 11#5 ++ 0b000#3 ++ 10#5 ++ 0x0B#7, .stbind 10 11 12),
  (0b0000011#7 ++ 0#5 ++ 15#5 ++ 0b010#3 ++ 5#5 ++ 0x0B#7, .cpyfire 5 15),
  (0b0000000#7 ++ 0#5 ++ 10#5 ++ 0b011#3 ++ 0#5 ++ 0x0B#7, .cpywait 0 10),
  (0b0000011#7 ++ 12#5 ++ 11#5 ++ 0b000#3 ++ 10#5 ++ 0x2B#7, .semwait 10 11 12),
  (0b0000001#7 ++ 11#5 ++ 10#5 ++ 0b011#3 ++ 0#5 ++ 0x2B#7, .hten 0 10 11),
  (0b0000000#7 ++ 0#5 ++ 11#5 ++ 0b001#3 ++ 10#5 ++ 0x5B#7, .pgplace 10 11),
  (0b0000011#7 ++ 12#5 ++ 11#5 ++ 0b001#3 ++ 10#5 ++ 0x5B#7, .pgwait 10 11 12),
  (0b0000000#7 ++ 0#5 ++ 10#5 ++ 0b010#3 ++ 0#5 ++ 0x5B#7, .gateopen 0 10),
  (0b0000000#7 ++ 0#5 ++ 10#5 ++ 0b000#3 ++ 0#5 ++ 0x7B#7, .halt 10)]

end Sys2Proof.Spec

/-- R30, R40, R42 to R47, R377, R405: decoding the encoding of a well-formed context word, custom or standard instruction, packet or work
request gives it back; and a word of a context, custom or standard instruction that decodes is the encoding of what it decodes to. -/
def Obligations.EncodingRoundTrip : Prop :=
  (∀ (i : Instr) (b : List Byte), i.wf = true → encode i = some b → decode b = .ok i) ∧
  (∀ (i : Instr) (b : List Byte), i.bytesOk = true → encodeWork i = some b → decodeWork b = some i) ∧
  (∀ (w : BitVec 48) (i : Instr), decodeContext w = .ok i → encodeContext i = some w) ∧
  (∀ (w : BitVec 32) (i : Instr), decodeCustom w = .ok i → encodeCustom i = some w) ∧
  (∀ (w : BitVec 32) (i : Instr), decodeStandard w = .ok i → encodeStandard i = some w)

/-- R30, R40, R42 to R44, R46, R47, R377: words written out from their encodings decode to what they stand for. -/
def Obligations.DecodedWords : Prop :=
  (∀ e ∈ customWords, decode (toBytes 4 e.1.toNat) = .ok e.2) ∧
  decode [0x13, 0x05, 0xA0, 0x02] = .ok (.standardInstruction (.alui .addi 10 0 42)) ∧
  decode [0x01, 0x45] = .ok (.standardInstruction (.alui .addi 10 0 0)) ∧
  decodeContext (0x01#8 ++ 2#3 ++ 0#4 ++ 0x10#6 ++ 0x03#6 ++ 5#4 ++ 1#1 ++ 0#1 ++ 0#3 ++ 0#4 ++ 0x2A#8) = .ok (.add ⟨2, 0, 0x10, 0x03, 5, true, false, 0, 0, 0x2A⟩) ∧
  decodeContext (0x0C#8 ++ 0#3 ++ 1#4 ++ 0x00#6 ++ 0x01#6 ++ 3#4 ++ 1#1 ++ 1#1 ++ 0#3 ++ 0#4 ++ 0x02#6 ++ 1#2) =
    .ok (.mad ⟨0, 1, 0x00, 0x01, 3, true, true, 0, 0, 0x02, 1⟩) ∧
  decodePacket (toBytes 8 0x0000001100000205 ++ toBytes 8 0x0000004000001000 ++ toBytes 8 1 ++ toBytes 40 1) =
    .signalPacket ⟨2, 0x11, false⟩ 0x4000001000 1 1

/-- R9, R22, R366, R368, R397, R400, R407: what the device holds right after a successful start: no tenant, no run and no page, no cluster held, its mailbox idle, its
clocks not lowered, its power limit 2,800 W, complex 0 active, and the invariant. (The values of memory and of the registers that the
spec does not fix are the model's: logs 2 to 5.) -/
def Obligations.ResetState : Prop :=
  Inv State.reset ∧
  (∀ n, State.reset.runs.find? n = none ∧ State.reset.pages.find? n = none ∧ (State.reset.tenant n).created = false ∧ (State.reset.cluster n).owner = none ∧
    (State.reset.ctl n).st = .off ∧ (State.reset.region n).holder = none) ∧
  (∀ q, (State.reset.queue q).en = false ∧ (State.reset.queue q).state = 0 ∧ (State.reset.queue q).head = (State.reset.queue q).tail) ∧
  State.reset.dev.mbDone = true ∧ State.reset.dev.tstep = 0 ∧ State.reset.dev.pwrcap = 2800 ∧ State.reset.dev.stopped = false ∧ State.reset.dev.safe = false ∧
  State.reset.qc.active = 0 ∧ State.reset.agenda = []

/-- R19, R20, R42, R45, R167, R261, R346, R366, R371: a step runs the instruction, word, packet or event that comes next: a running controller executes
what the bytes at its pc decode to, goes on with the one whose access is half made, or first takes the MSGOVF trap that has waited for this boundary; a
unit the word of its ring at the page's counter, a queue the packet at its head. -/
def Obligations.StepRunsDecoded : Prop :=
  ∀ (s : State) (rest : List Job), (
    (∀ i f, s.agenda = .ev i f :: rest → step s = exec i { s with agenda := rest, focus := f }) ∧
    (∀ rid u i, s.agenda = .word rid u :: rest → decodeContext ((s.region rid).words.get 0 (16 * u + (s.page (s.pageOf rid)).counter)) = .ok i →
      step s = exec i { s with agenda := rest, focus := onUnit rid u }) ∧
    (∀ c, s.agenda = .ctl c :: rest → (s.ctl c).st ≠ .running → step s = .next { s with agenda := rest }) ∧
    (∀ c m, s.agenda = .ctl c :: rest → (s.ctl c).st = .running → (s.ctl c).half = none → (s.ctl c).overflow = some m → ∃ t, step s = .next t ∧
      (t.ctl c).st = .stopped ∧ (t.ctl c).overflow = none ∧ (t.ctl c).trap.cause.toNat = 6 ∧ (t.ctl c).trap.pc = (s.ctl c).pc ∧ (t.ctl c).trap.insn = 0 ∧
      (t.ctl c).trap.info.toNat = m.tag % 2 ^ 64 ∧ (t.ctl c).trap.msg = m.bytes ∧ t.mem = s.mem) ∧
    (∀ c i, s.agenda = .ctl c :: rest → (s.ctl c).st = .running → (s.ctl c).half ≠ none →
      (if (s.ctl c).comp = true then decode16 ((s.ctl c).insn.truncate 16) else decode32 (s.ctl c).insn) = .ok i →
      step s = exec i { s with agenda := rest, focus := { s.focus with cluster := c } }) ∧
    (∀ c v w, s.agenda = .ctl c :: rest → (s.ctl c).st = .running → (s.ctl c).half = none → (s.ctl c).overflow = none → v = { s with agenda := rest } → w = v.setCtl c { v.ctl c with insn := 0, comp := false } →
      (∀ lo u i, w.fetchHalf c (s.ctl c).pc.toNat = (.ok lo, u) → lo % 4 ≠ 3 → decode16 (BitVec.ofNat 16 lo) = .ok i →
        step s = exec i (latchedAt u c (BitVec.ofNat 32 lo) true)) ∧
      (∀ lo hi u x i, w.fetchHalf c (s.ctl c).pc.toNat = (.ok lo, u) → lo % 4 = 3 → u.fetchHalf c ((s.ctl c).pc + 2).toNat = (.ok hi, x) →
        decode32 (BitVec.ofNat 32 (lo + 65536 * hi)) = .ok i → step s = exec i (latchedAt x c (BitVec.ofNat 32 (lo + 65536 * hi)) false))) ∧
    (∀ c va u p, s.place c (s.tenantOf c) .fetch (fun t => t != .none && t != .reg) va 2 = (.ok [p], u) → ∃ lo t, s.fetchHalf c va = (.ok lo, t) ∧
      (∀ l, (u.ctl c).icache.find? (fun l => l.addr == p.pa / 128 * 128 && l.key == p.key) = some l → t = u ∧ lo = numberOf ((l.data.drop (p.pa % 128)).take 2)) ∧
      ((u.ctl c).icache = [] → Uncached p → p.pa % 128 ≤ 126 → lo = (memGet u.mem p.pa).toNat + 256 * (memGet u.mem (p.pa + 1)).toNat)) ∧
    (∀ f q b, s.agenda = .sub .packet f :: rest → q = s.queue f.queue → f.queue.link = false → mayStart q → s.qc.quiet = 0 → q.pre = [] →
      s.tenantRead f.queue.tenant (match q.ind with | some (a, _, k) => a + 64 * k | none => q.qbase.toNat + 64 * (q.head.toNat % 2 ^ q.log2)) 64 = .ok b →
      step s = .next { ({ s with agenda := rest } : State).setQueue f.queue { q with cur := some b, state := 2 } with
        agenda := .ev (decodePacket b) { Focus.none with queue := f.queue } :: rest }))

/-- R19, R397, R407: no step stops or refuses while the device has power; after a thermal trip only a cold start can come, whatever the outside asks.
That a step without power is the fault `stopped`, and from which states, is the model's choice (log 66). -/
def Obligations.StepsGoOn : Prop :=
  ∀ s : State, (s.dev.on = true → s.goes) ∧ (∀ r, step s ≠ .refused r) ∧ (∀ f, step s = .fault f ↔ s.agenda = [] ∧ (s.inbox = [] ∨ s.dev.stopped = true) ∧ s.dev.on = false ∧ f = .stopped) ∧
    (s.agenda = [] → s.dev.on = true → s.dev.stopped = true →
      step s = exec .coldStart { s with choices := s.choices + 1, focus := Focus.none })

/-- R5, R366, R407: every step keeps the invariant. -/
def Obligations.StepsKeepInvariant : Prop :=
  ∀ s t : State, Inv s → step s = .next t → Inv t


/-- R167, R180, R360, R361, R369, R372: instructions seen through to their ends. LD and SD make both accesses and retire; SVSAVE of a page with closed
gates leads to its capture, and its status says done once its records are written; SVLOAD of good records, at an address of any alignment
(log 26), places their state in the page; a queue that is enabled takes a doorbell and is disabled again, and each of these comes of the write of its register; CLR
clears CAUSE (log 36) and leaves an enabled queue in state 1. -/
def Obligations.EffectsSeenThrough : Prop :=
  (∀ (s s₁ : State) (c : Nat) (rd rs1 rs2 : Reg) (imm : BitVec 12) (p : Piece), c = s.focus.cluster → (s.ctl c).half = none → ea s rs1 imm % 8 = 0 →
    Uncached p → Uncached ⟨p.pa + 4, 4, p.key⟩ → HostOpen s c p → HostOpen s c ⟨p.pa + 4, 4, p.key⟩ →
    (s.place c (s.tenantOf c) .read plainTarget (ea s rs1 imm) 8 = (.ok [p], s₁) →
      ∃ u t v, exec (.controllerLoad .ld rd rs1 imm) s = .next u ∧ exec (.controllerLoad .ld rd rs1 imm) u = .next t ∧ v.toNat = littleEndian s.mem p.pa 8 ∧
        (∀ n, (t.ctl c).reg n = if n = rd ∧ n ≠ 0 then v else (s.ctl c).reg n) ∧ (t.ctl c).half = none ∧
        (t.ctl c).pc = (s.ctl c).pc + (if (s.ctl c).comp then 2 else 4) ∧ (t.ctl c).instret = (s.ctl c).instret + 1 ∧ t.mem = s.mem) ∧
    (s.place c (s.tenantOf c) .write plainTarget (ea s rs1 imm) 8 = (.ok [p], s₁) →
      ∃ u t, exec (.controllerStore .sd rs1 rs2 imm) s = .next u ∧ exec (.controllerStore .sd rs1 rs2 imm) u = .next t ∧
        Stored s t p.pa 8 (s.reg c rs2).toNat ∧ (∀ n, (t.ctl c).reg n = (s.ctl c).reg n) ∧ (t.ctl c).half = none ∧
        (t.ctl c).pc = (s.ctl c).pc + (if (s.ctl c).comp then 2 else 4) ∧ (t.ctl c).instret = (s.ctl c).instret + 1)) ∧
  (∀ (s : State) (c h pid va : Nat) (rd rs1 rs2 : Reg) (p : Page), c = s.focus.cluster → (s.reg c rs1).toNat = h → h < 256 → (s.reg c rs2).toNat = va →
    pid = pidOf (s.runOf c) h → s.pages.find? pid = some p → p.level = 3 → p.captured = false → (s.cluster c).cmds = [] →
    (∀ d ∈ (s.run p.run).clusters, (s.cluster d).cmds = []) →
    (va % 4096 = 0 → p.svReq = none → s.inGroup pid = false → ∃ t u ident, exec (.svsave rd rs1 rs2) s = .next t ∧ Result s t c rd 0 ∧
      (t.page pid).svReq = some (va, ident) ∧ (t.page pid).sv = ⟨1, false, 0⟩ ∧
      exec .regionCapture { t with focus := { t.focus with page := pid } } = .next u ∧ (u.page pid).captured = true ∧ (u.page pid).svReq = some (va, ident) ∧
      ∀ w, u.captureQuiet pid = true → u.writeRecords (u.run p.run).tenant va (u.regionsOf pid) = .ok w →
        ∃ x, exec .regionCapture u = .next x ∧ (x.page pid).sv = ⟨2, false, 0⟩ ∧ (x.page pid).level = 3 ∧ (x.page pid).svClosed = true ∧ x.mem = w.mem) ∧
    (∀ u b, u = (s.setPage pid { p with sv := ⟨1, true, 0⟩ }).enqueue c rd (.svload rd rs1 rs2) (s.reg c rs1) (s.reg c rs2) 0 0 → p.gated = false →
      u.tenantRead (u.tenantOf c) va (p.w * p.h * (if (u.region (p.region 0)).xoff then 0x9100 else 0x21000)) = .ok b →
      u.recordsBad pid (List.range (p.w * p.h)) b = none → (∀ rid ∈ p.regions, ∀ ch, ch < 4 → (s.chan rid ch).cur = none ∧ (s.chan rid ch).pend = none) →
      ∃ t, exec (.svload rd rs1 rs2) s = .next t ∧ Result s t c rd 0 ∧ (t.page pid).sv = ⟨2, true, 0⟩ ∧ (t.page pid).level = 3 ∧ (t.page pid).svClosed = true ∧
        (t.page pid).opened = false ∧ (t.page pid).gated = false ∧ t.mem = s.mem ∧
        ∀ n, n = (if (u.region (p.region 0)).xoff then 0x9100 else 0x21000) → OnePage s p b n → Loaded t pid p b n)) ∧
  (∀ (s : State) (q : QueueId) (p : Queue) (v d v' : W64), p = s.queue q → p.en = false → p.state = 0 → p.cur = none → p.run = none → p.pendingWr = none →
    p.tail = p.head → p.qbase ≠ 0 → 4 ≤ v.toNat / 2 ^ 8 % 32 → v.toNat / 2 ^ 8 % 32 ≤ 16 → v.getLsbD 0 = true → v.getLsbD 1 = false →
    (d.truncate 32 - p.head).toNat ≤ 2 ^ (v.toNat / 2 ^ 8 % 32) → v'.getLsbD 0 = false → v'.getLsbD 1 = false →
    ∃ t u w, exec (.queueEnable q v) s = .next t ∧ exec (.qtailWrite q d) t = .next u ∧ exec (.queueDisable q v') u = .next w ∧
      (t.queue q).en = true ∧ (t.queue q).state = 1 ∧ (t.queue q).log2 = v.toNat / 2 ^ 8 % 32 ∧
      (u.queue q).tail = d.truncate 32 ∧ (u.queue q).head = p.head ∧ (u.queue q).state = (if d.truncate 32 = p.head then 1 else 2) ∧
      (w.queue q).en = false ∧ (w.queue q).state = 0 ∧ (w.queue q).head = p.head ∧ (w.queue q).tail = d.truncate 32 ∧
      (q.num < 16 → (s.tenant q.tenant).created = true → s.dev.safe = false →
        exec (.registerWrite (.vf q.tenant) (queueOff q 0x08) v) s = .next t ∧ exec (.registerWrite (.vf q.tenant) (queueOff q 0x10) d) t = .next u ∧
        exec (.registerWrite (.vf q.tenant) (queueOff q 0x08) v') u = .next w)) ∧
  (∀ (s : State) (q : QueueId) (p : Queue) (v : W64), p = s.queue q → p.en = true → p.state = 5 → p.run = none → p.pendingWr = none → p.qbase ≠ 0 →
    4 ≤ p.log2 → p.log2 ≤ 16 → v.getLsbD 0 = true → v.getLsbD 1 = true → ∃ t, exec (.queueClear q v) s = .next t ∧ (t.queue q).cause = 0 ∧ (t.queue q).en = true ∧
      (t.queue q).head = (if p.skip then p.head + 1 else p.head) ∧ (t.queue q).state = 1)
end

