-- ==== Sys2Proof/Laws/Table.lean ====
section
/-! SUPPORT. Laws of the finite tables: a read after a write. -/
namespace Sys2Proof

@[simp] theorem Tab.get_set_self {α : Type} (d : α) (t : Tab α) (n : Nat) (x : α) : (t.set n x).get d n = x := by
  induction t with
  | nil => simp [Tab.set, Tab.get]
  | cons p t ih =>
    obtain ⟨k, v⟩ := p
    by_cases h : k = n
    · simp [Tab.set, Tab.get, h]
    · by_cases h' : n < k <;> simp [Tab.set, Tab.get, h, h', ih]

theorem Tab.get_set_other {α : Type} (d : α) (t : Tab α) {n m : Nat} (x : α) (h : m ≠ n) : (t.set n x).get d m = t.get d m := by
  have h' : n ≠ m := fun e => h e.symm
  induction t with
  | nil => simp [Tab.set, Tab.get, h']
  | cons p t ih =>
    obtain ⟨k, v⟩ := p
    by_cases hk : k = n
    · subst hk; simp [Tab.set, Tab.get, h']
    · by_cases hl : n < k <;> simp [Tab.set, Tab.get, hk, hl, h', ih]

/-- A read after a write, at any key. -/
theorem Tab.get_set {α : Type} (d : α) (t : Tab α) (n m : Nat) (x : α) : (t.set n x).get d m = if m = n then x else t.get d m := by
  by_cases h : m = n
  · subst h; simp
  · simp [h, Tab.get_set_other d t x h]

@[simp] theorem Tab.find?_set_self {α : Type} (t : Tab α) (n : Nat) (x : α) : (t.set n x).find? n = some x := by
  induction t with
  | nil => simp [Tab.set, Tab.find?]
  | cons p t ih =>
    obtain ⟨k, v⟩ := p
    by_cases h : k = n
    · simp [Tab.set, Tab.find?, h]
    · by_cases h' : n < k <;> simp [Tab.set, Tab.find?, h, h', ih]

theorem Tab.find?_set_other {α : Type} (t : Tab α) {n m : Nat} (x : α) (h : m ≠ n) : (t.set n x).find? m = t.find? m := by
  have h' : n ≠ m := fun e => h e.symm
  induction t with
  | nil => simp [Tab.set, Tab.find?, h']
  | cons p t ih =>
    obtain ⟨k, v⟩ := p
    by_cases hk : k = n
    · subst hk; simp [Tab.set, Tab.find?, h']
    · by_cases hl : n < k <;> simp [Tab.set, Tab.find?, hk, hl, h', ih]

@[simp] theorem Tab.find?_del_self {α : Type} (t : Tab α) (n : Nat) : (t.del n).find? n = none := by
  induction t with
  | nil => simp [Tab.del, Tab.find?]
  | cons p t ih =>
    obtain ⟨k, v⟩ := p
    by_cases h : k = n
    · subst h; simpa [Tab.del] using ih
    · have : Tab.del ((k, v) :: t) n = (k, v) :: Tab.del t n := by simp [Tab.del, h]
      simp [this, Tab.find?, h, ih]

theorem Tab.find?_del_other {α : Type} (t : Tab α) {n m : Nat} (h : m ≠ n) : (t.del n).find? m = t.find? m := by
  induction t with
  | nil => simp [Tab.del, Tab.find?]
  | cons p t ih =>
    obtain ⟨k, v⟩ := p
    by_cases hk : k = n
    · subst hk
      have h' : k ≠ m := fun e => h e.symm
      have : Tab.del ((k, v) :: t) k = Tab.del t k := by simp [Tab.del]
      simp [this, Tab.find?, h', ih]
    · have : Tab.del ((k, v) :: t) n = (k, v) :: Tab.del t n := by simp [Tab.del, hk]
      rw [this]; by_cases hm : k = m <;> simp [Tab.find?, hm, ih]

end Sys2Proof
end

