-- ==== Sys2Proof/Laws/State.lean ====
section
/-! SUPPORT. Laws of the state's updates: what each leaves alone, field by field, and what a read finds after a write. -/
namespace Sys2Proof.Machine

/-! ## Fields that an update leaves alone -/

@[simp] theorem setCluster_dev (s : State) (c : Nat) (v : Cluster) : (s.setCluster c v).dev = s.dev := rfl
@[simp] theorem setCluster_qc (s : State) (c : Nat) (v : Cluster) : (s.setCluster c v).qc = s.qc := rfl
@[simp] theorem setCluster_dies (s : State) (c : Nat) (v : Cluster) : (s.setCluster c v).dies = s.dies := rfl
@[simp] theorem setCluster_regions (s : State) (c : Nat) (v : Cluster) : (s.setCluster c v).regions = s.regions := rfl
@[simp] theorem setCluster_pages (s : State) (c : Nat) (v : Cluster) : (s.setCluster c v).pages = s.pages := rfl
@[simp] theorem setCluster_runs (s : State) (c : Nat) (v : Cluster) : (s.setCluster c v).runs = s.runs := rfl
@[simp] theorem setCluster_nextRun (s : State) (c : Nat) (v : Cluster) : (s.setCluster c v).nextRun = s.nextRun := rfl
@[simp] theorem setCluster_tenants (s : State) (c : Nat) (v : Cluster) : (s.setCluster c v).tenants = s.tenants := rfl
@[simp] theorem setCluster_slices (s : State) (c : Nat) (v : Cluster) : (s.setCluster c v).slices = s.slices := rfl
@[simp] theorem setCluster_mem (s : State) (c : Nat) (v : Cluster) : (s.setCluster c v).mem = s.mem := rfl
@[simp] theorem setCluster_granules (s : State) (c : Nat) (v : Cluster) : (s.setCluster c v).granules = s.granules := rfl
@[simp] theorem setCluster_resvs (s : State) (c : Nat) (v : Cluster) : (s.setCluster c v).resvs = s.resvs := rfl
@[simp] theorem setCluster_msgs (s : State) (c : Nat) (v : Cluster) : (s.setCluster c v).msgs = s.msgs := rfl
@[simp] theorem setCluster_allred (s : State) (c : Nat) (v : Cluster) : (s.setCluster c v).allred = s.allred := rfl
@[simp] theorem setCluster_linkOut (s : State) (c : Nat) (v : Cluster) : (s.setCluster c v).linkOut = s.linkOut := rfl
@[simp] theorem setCluster_linkIn (s : State) (c : Nat) (v : Cluster) : (s.setCluster c v).linkIn = s.linkIn := rfl
@[simp] theorem setCluster_linkReq (s : State) (c : Nat) (v : Cluster) : (s.setCluster c v).linkReq = s.linkReq := rfl
@[simp] theorem setCluster_agenda (s : State) (c : Nat) (v : Cluster) : (s.setCluster c v).agenda = s.agenda := rfl
@[simp] theorem setCluster_inbox (s : State) (c : Nat) (v : Cluster) : (s.setCluster c v).inbox = s.inbox := rfl
@[simp] theorem setCluster_focus (s : State) (c : Nat) (v : Cluster) : (s.setCluster c v).focus = s.focus := rfl
@[simp] theorem setCluster_choices (s : State) (c : Nat) (v : Cluster) : (s.setCluster c v).choices = s.choices := rfl
@[simp] theorem setCluster_seq (s : State) (c : Nat) (v : Cluster) : (s.setCluster c v).seq = s.seq := rfl

@[simp] theorem setRegion_dev (s : State) (r : Nat) (v : Region) : (s.setRegion r v).dev = s.dev := rfl
@[simp] theorem setRegion_qc (s : State) (r : Nat) (v : Region) : (s.setRegion r v).qc = s.qc := rfl
@[simp] theorem setRegion_dies (s : State) (r : Nat) (v : Region) : (s.setRegion r v).dies = s.dies := rfl
@[simp] theorem setRegion_clusters (s : State) (r : Nat) (v : Region) : (s.setRegion r v).clusters = s.clusters := rfl
@[simp] theorem setRegion_pages (s : State) (r : Nat) (v : Region) : (s.setRegion r v).pages = s.pages := rfl
@[simp] theorem setRegion_runs (s : State) (r : Nat) (v : Region) : (s.setRegion r v).runs = s.runs := rfl
@[simp] theorem setRegion_nextRun (s : State) (r : Nat) (v : Region) : (s.setRegion r v).nextRun = s.nextRun := rfl
@[simp] theorem setRegion_tenants (s : State) (r : Nat) (v : Region) : (s.setRegion r v).tenants = s.tenants := rfl
@[simp] theorem setRegion_slices (s : State) (r : Nat) (v : Region) : (s.setRegion r v).slices = s.slices := rfl
@[simp] theorem setRegion_mem (s : State) (r : Nat) (v : Region) : (s.setRegion r v).mem = s.mem := rfl
@[simp] theorem setRegion_granules (s : State) (r : Nat) (v : Region) : (s.setRegion r v).granules = s.granules := rfl
@[simp] theorem setRegion_resvs (s : State) (r : Nat) (v : Region) : (s.setRegion r v).resvs = s.resvs := rfl
@[simp] theorem setRegion_msgs (s : State) (r : Nat) (v : Region) : (s.setRegion r v).msgs = s.msgs := rfl
@[simp] theorem setRegion_allred (s : State) (r : Nat) (v : Region) : (s.setRegion r v).allred = s.allred := rfl
@[simp] theorem setRegion_linkOut (s : State) (r : Nat) (v : Region) : (s.setRegion r v).linkOut = s.linkOut := rfl
@[simp] theorem setRegion_linkIn (s : State) (r : Nat) (v : Region) : (s.setRegion r v).linkIn = s.linkIn := rfl
@[simp] theorem setRegion_linkReq (s : State) (r : Nat) (v : Region) : (s.setRegion r v).linkReq = s.linkReq := rfl
@[simp] theorem setRegion_agenda (s : State) (r : Nat) (v : Region) : (s.setRegion r v).agenda = s.agenda := rfl
@[simp] theorem setRegion_inbox (s : State) (r : Nat) (v : Region) : (s.setRegion r v).inbox = s.inbox := rfl
@[simp] theorem setRegion_focus (s : State) (r : Nat) (v : Region) : (s.setRegion r v).focus = s.focus := rfl
@[simp] theorem setRegion_choices (s : State) (r : Nat) (v : Region) : (s.setRegion r v).choices = s.choices := rfl
@[simp] theorem setRegion_seq (s : State) (r : Nat) (v : Region) : (s.setRegion r v).seq = s.seq := rfl

@[simp] theorem setPage_dev (s : State) (p : Nat) (v : Page) : (s.setPage p v).dev = s.dev := rfl
@[simp] theorem setPage_qc (s : State) (p : Nat) (v : Page) : (s.setPage p v).qc = s.qc := rfl
@[simp] theorem setPage_dies (s : State) (p : Nat) (v : Page) : (s.setPage p v).dies = s.dies := rfl
@[simp] theorem setPage_clusters (s : State) (p : Nat) (v : Page) : (s.setPage p v).clusters = s.clusters := rfl
@[simp] theorem setPage_regions (s : State) (p : Nat) (v : Page) : (s.setPage p v).regions = s.regions := rfl
@[simp] theorem setPage_runs (s : State) (p : Nat) (v : Page) : (s.setPage p v).runs = s.runs := rfl
@[simp] theorem setPage_nextRun (s : State) (p : Nat) (v : Page) : (s.setPage p v).nextRun = s.nextRun := rfl
@[simp] theorem setPage_tenants (s : State) (p : Nat) (v : Page) : (s.setPage p v).tenants = s.tenants := rfl
@[simp] theorem setPage_slices (s : State) (p : Nat) (v : Page) : (s.setPage p v).slices = s.slices := rfl
@[simp] theorem setPage_mem (s : State) (p : Nat) (v : Page) : (s.setPage p v).mem = s.mem := rfl
@[simp] theorem setPage_granules (s : State) (p : Nat) (v : Page) : (s.setPage p v).granules = s.granules := rfl
@[simp] theorem setPage_resvs (s : State) (p : Nat) (v : Page) : (s.setPage p v).resvs = s.resvs := rfl
@[simp] theorem setPage_msgs (s : State) (p : Nat) (v : Page) : (s.setPage p v).msgs = s.msgs := rfl
@[simp] theorem setPage_allred (s : State) (p : Nat) (v : Page) : (s.setPage p v).allred = s.allred := rfl
@[simp] theorem setPage_linkOut (s : State) (p : Nat) (v : Page) : (s.setPage p v).linkOut = s.linkOut := rfl
@[simp] theorem setPage_linkIn (s : State) (p : Nat) (v : Page) : (s.setPage p v).linkIn = s.linkIn := rfl
@[simp] theorem setPage_linkReq (s : State) (p : Nat) (v : Page) : (s.setPage p v).linkReq = s.linkReq := rfl
@[simp] theorem setPage_agenda (s : State) (p : Nat) (v : Page) : (s.setPage p v).agenda = s.agenda := rfl
@[simp] theorem setPage_inbox (s : State) (p : Nat) (v : Page) : (s.setPage p v).inbox = s.inbox := rfl
@[simp] theorem setPage_focus (s : State) (p : Nat) (v : Page) : (s.setPage p v).focus = s.focus := rfl
@[simp] theorem setPage_choices (s : State) (p : Nat) (v : Page) : (s.setPage p v).choices = s.choices := rfl
@[simp] theorem setPage_seq (s : State) (p : Nat) (v : Page) : (s.setPage p v).seq = s.seq := rfl

@[simp] theorem setRun_dev (s : State) (r : Nat) (v : Run) : (s.setRun r v).dev = s.dev := rfl
@[simp] theorem setRun_qc (s : State) (r : Nat) (v : Run) : (s.setRun r v).qc = s.qc := rfl
@[simp] theorem setRun_dies (s : State) (r : Nat) (v : Run) : (s.setRun r v).dies = s.dies := rfl
@[simp] theorem setRun_clusters (s : State) (r : Nat) (v : Run) : (s.setRun r v).clusters = s.clusters := rfl
@[simp] theorem setRun_regions (s : State) (r : Nat) (v : Run) : (s.setRun r v).regions = s.regions := rfl
@[simp] theorem setRun_pages (s : State) (r : Nat) (v : Run) : (s.setRun r v).pages = s.pages := rfl
@[simp] theorem setRun_nextRun (s : State) (r : Nat) (v : Run) : (s.setRun r v).nextRun = s.nextRun := rfl
@[simp] theorem setRun_tenants (s : State) (r : Nat) (v : Run) : (s.setRun r v).tenants = s.tenants := rfl
@[simp] theorem setRun_slices (s : State) (r : Nat) (v : Run) : (s.setRun r v).slices = s.slices := rfl
@[simp] theorem setRun_mem (s : State) (r : Nat) (v : Run) : (s.setRun r v).mem = s.mem := rfl
@[simp] theorem setRun_granules (s : State) (r : Nat) (v : Run) : (s.setRun r v).granules = s.granules := rfl
@[simp] theorem setRun_resvs (s : State) (r : Nat) (v : Run) : (s.setRun r v).resvs = s.resvs := rfl
@[simp] theorem setRun_msgs (s : State) (r : Nat) (v : Run) : (s.setRun r v).msgs = s.msgs := rfl
@[simp] theorem setRun_allred (s : State) (r : Nat) (v : Run) : (s.setRun r v).allred = s.allred := rfl
@[simp] theorem setRun_linkOut (s : State) (r : Nat) (v : Run) : (s.setRun r v).linkOut = s.linkOut := rfl
@[simp] theorem setRun_linkIn (s : State) (r : Nat) (v : Run) : (s.setRun r v).linkIn = s.linkIn := rfl
@[simp] theorem setRun_linkReq (s : State) (r : Nat) (v : Run) : (s.setRun r v).linkReq = s.linkReq := rfl
@[simp] theorem setRun_agenda (s : State) (r : Nat) (v : Run) : (s.setRun r v).agenda = s.agenda := rfl
@[simp] theorem setRun_inbox (s : State) (r : Nat) (v : Run) : (s.setRun r v).inbox = s.inbox := rfl
@[simp] theorem setRun_focus (s : State) (r : Nat) (v : Run) : (s.setRun r v).focus = s.focus := rfl
@[simp] theorem setRun_choices (s : State) (r : Nat) (v : Run) : (s.setRun r v).choices = s.choices := rfl
@[simp] theorem setRun_seq (s : State) (r : Nat) (v : Run) : (s.setRun r v).seq = s.seq := rfl

@[simp] theorem setTenant_dev (s : State) (t : Nat) (v : Tenant) : (s.setTenant t v).dev = s.dev := rfl
@[simp] theorem setTenant_qc (s : State) (t : Nat) (v : Tenant) : (s.setTenant t v).qc = s.qc := rfl
@[simp] theorem setTenant_dies (s : State) (t : Nat) (v : Tenant) : (s.setTenant t v).dies = s.dies := rfl
@[simp] theorem setTenant_clusters (s : State) (t : Nat) (v : Tenant) : (s.setTenant t v).clusters = s.clusters := rfl
@[simp] theorem setTenant_regions (s : State) (t : Nat) (v : Tenant) : (s.setTenant t v).regions = s.regions := rfl
@[simp] theorem setTenant_pages (s : State) (t : Nat) (v : Tenant) : (s.setTenant t v).pages = s.pages := rfl
@[simp] theorem setTenant_runs (s : State) (t : Nat) (v : Tenant) : (s.setTenant t v).runs = s.runs := rfl
@[simp] theorem setTenant_nextRun (s : State) (t : Nat) (v : Tenant) : (s.setTenant t v).nextRun = s.nextRun := rfl
@[simp] theorem setTenant_slices (s : State) (t : Nat) (v : Tenant) : (s.setTenant t v).slices = s.slices := rfl
@[simp] theorem setTenant_mem (s : State) (t : Nat) (v : Tenant) : (s.setTenant t v).mem = s.mem := rfl
@[simp] theorem setTenant_granules (s : State) (t : Nat) (v : Tenant) : (s.setTenant t v).granules = s.granules := rfl
@[simp] theorem setTenant_resvs (s : State) (t : Nat) (v : Tenant) : (s.setTenant t v).resvs = s.resvs := rfl
@[simp] theorem setTenant_msgs (s : State) (t : Nat) (v : Tenant) : (s.setTenant t v).msgs = s.msgs := rfl
@[simp] theorem setTenant_allred (s : State) (t : Nat) (v : Tenant) : (s.setTenant t v).allred = s.allred := rfl
@[simp] theorem setTenant_linkOut (s : State) (t : Nat) (v : Tenant) : (s.setTenant t v).linkOut = s.linkOut := rfl
@[simp] theorem setTenant_linkIn (s : State) (t : Nat) (v : Tenant) : (s.setTenant t v).linkIn = s.linkIn := rfl
@[simp] theorem setTenant_linkReq (s : State) (t : Nat) (v : Tenant) : (s.setTenant t v).linkReq = s.linkReq := rfl
@[simp] theorem setTenant_agenda (s : State) (t : Nat) (v : Tenant) : (s.setTenant t v).agenda = s.agenda := rfl
@[simp] theorem setTenant_inbox (s : State) (t : Nat) (v : Tenant) : (s.setTenant t v).inbox = s.inbox := rfl
@[simp] theorem setTenant_focus (s : State) (t : Nat) (v : Tenant) : (s.setTenant t v).focus = s.focus := rfl
@[simp] theorem setTenant_choices (s : State) (t : Nat) (v : Tenant) : (s.setTenant t v).choices = s.choices := rfl
@[simp] theorem setTenant_seq (s : State) (t : Nat) (v : Tenant) : (s.setTenant t v).seq = s.seq := rfl

@[simp] theorem setDie_dev (s : State) (d : Nat) (v : Die) : (s.setDie d v).dev = s.dev := rfl
@[simp] theorem setDie_qc (s : State) (d : Nat) (v : Die) : (s.setDie d v).qc = s.qc := rfl
@[simp] theorem setDie_clusters (s : State) (d : Nat) (v : Die) : (s.setDie d v).clusters = s.clusters := rfl
@[simp] theorem setDie_regions (s : State) (d : Nat) (v : Die) : (s.setDie d v).regions = s.regions := rfl
@[simp] theorem setDie_pages (s : State) (d : Nat) (v : Die) : (s.setDie d v).pages = s.pages := rfl
@[simp] theorem setDie_runs (s : State) (d : Nat) (v : Die) : (s.setDie d v).runs = s.runs := rfl
@[simp] theorem setDie_nextRun (s : State) (d : Nat) (v : Die) : (s.setDie d v).nextRun = s.nextRun := rfl
@[simp] theorem setDie_tenants (s : State) (d : Nat) (v : Die) : (s.setDie d v).tenants = s.tenants := rfl
@[simp] theorem setDie_slices (s : State) (d : Nat) (v : Die) : (s.setDie d v).slices = s.slices := rfl
@[simp] theorem setDie_mem (s : State) (d : Nat) (v : Die) : (s.setDie d v).mem = s.mem := rfl
@[simp] theorem setDie_granules (s : State) (d : Nat) (v : Die) : (s.setDie d v).granules = s.granules := rfl
@[simp] theorem setDie_resvs (s : State) (d : Nat) (v : Die) : (s.setDie d v).resvs = s.resvs := rfl
@[simp] theorem setDie_msgs (s : State) (d : Nat) (v : Die) : (s.setDie d v).msgs = s.msgs := rfl
@[simp] theorem setDie_allred (s : State) (d : Nat) (v : Die) : (s.setDie d v).allred = s.allred := rfl
@[simp] theorem setDie_linkOut (s : State) (d : Nat) (v : Die) : (s.setDie d v).linkOut = s.linkOut := rfl
@[simp] theorem setDie_linkIn (s : State) (d : Nat) (v : Die) : (s.setDie d v).linkIn = s.linkIn := rfl
@[simp] theorem setDie_linkReq (s : State) (d : Nat) (v : Die) : (s.setDie d v).linkReq = s.linkReq := rfl
@[simp] theorem setDie_agenda (s : State) (d : Nat) (v : Die) : (s.setDie d v).agenda = s.agenda := rfl
@[simp] theorem setDie_inbox (s : State) (d : Nat) (v : Die) : (s.setDie d v).inbox = s.inbox := rfl
@[simp] theorem setDie_focus (s : State) (d : Nat) (v : Die) : (s.setDie d v).focus = s.focus := rfl
@[simp] theorem setDie_choices (s : State) (d : Nat) (v : Die) : (s.setDie d v).choices = s.choices := rfl
@[simp] theorem setDie_seq (s : State) (d : Nat) (v : Die) : (s.setDie d v).seq = s.seq := rfl

@[simp] theorem setSlice_dev (s : State) (n : Nat) (v : Slice) : (s.setSlice n v).dev = s.dev := rfl
@[simp] theorem setSlice_qc (s : State) (n : Nat) (v : Slice) : (s.setSlice n v).qc = s.qc := rfl
@[simp] theorem setSlice_dies (s : State) (n : Nat) (v : Slice) : (s.setSlice n v).dies = s.dies := rfl
@[simp] theorem setSlice_clusters (s : State) (n : Nat) (v : Slice) : (s.setSlice n v).clusters = s.clusters := rfl
@[simp] theorem setSlice_regions (s : State) (n : Nat) (v : Slice) : (s.setSlice n v).regions = s.regions := rfl
@[simp] theorem setSlice_pages (s : State) (n : Nat) (v : Slice) : (s.setSlice n v).pages = s.pages := rfl
@[simp] theorem setSlice_runs (s : State) (n : Nat) (v : Slice) : (s.setSlice n v).runs = s.runs := rfl
@[simp] theorem setSlice_nextRun (s : State) (n : Nat) (v : Slice) : (s.setSlice n v).nextRun = s.nextRun := rfl
@[simp] theorem setSlice_tenants (s : State) (n : Nat) (v : Slice) : (s.setSlice n v).tenants = s.tenants := rfl
@[simp] theorem setSlice_mem (s : State) (n : Nat) (v : Slice) : (s.setSlice n v).mem = s.mem := rfl
@[simp] theorem setSlice_granules (s : State) (n : Nat) (v : Slice) : (s.setSlice n v).granules = s.granules := rfl
@[simp] theorem setSlice_resvs (s : State) (n : Nat) (v : Slice) : (s.setSlice n v).resvs = s.resvs := rfl
@[simp] theorem setSlice_msgs (s : State) (n : Nat) (v : Slice) : (s.setSlice n v).msgs = s.msgs := rfl
@[simp] theorem setSlice_allred (s : State) (n : Nat) (v : Slice) : (s.setSlice n v).allred = s.allred := rfl
@[simp] theorem setSlice_linkOut (s : State) (n : Nat) (v : Slice) : (s.setSlice n v).linkOut = s.linkOut := rfl
@[simp] theorem setSlice_linkIn (s : State) (n : Nat) (v : Slice) : (s.setSlice n v).linkIn = s.linkIn := rfl
@[simp] theorem setSlice_linkReq (s : State) (n : Nat) (v : Slice) : (s.setSlice n v).linkReq = s.linkReq := rfl
@[simp] theorem setSlice_agenda (s : State) (n : Nat) (v : Slice) : (s.setSlice n v).agenda = s.agenda := rfl
@[simp] theorem setSlice_inbox (s : State) (n : Nat) (v : Slice) : (s.setSlice n v).inbox = s.inbox := rfl
@[simp] theorem setSlice_focus (s : State) (n : Nat) (v : Slice) : (s.setSlice n v).focus = s.focus := rfl
@[simp] theorem setSlice_choices (s : State) (n : Nat) (v : Slice) : (s.setSlice n v).choices = s.choices := rfl
@[simp] theorem setSlice_seq (s : State) (n : Nat) (v : Slice) : (s.setSlice n v).seq = s.seq := rfl

@[simp] theorem setCtl_dev (s : State) (c : Nat) (v : Ctl) : (s.setCtl c v).dev = s.dev := rfl
@[simp] theorem setCtl_qc (s : State) (c : Nat) (v : Ctl) : (s.setCtl c v).qc = s.qc := rfl
@[simp] theorem setCtl_dies (s : State) (c : Nat) (v : Ctl) : (s.setCtl c v).dies = s.dies := rfl
@[simp] theorem setCtl_regions (s : State) (c : Nat) (v : Ctl) : (s.setCtl c v).regions = s.regions := rfl
@[simp] theorem setCtl_pages (s : State) (c : Nat) (v : Ctl) : (s.setCtl c v).pages = s.pages := rfl
@[simp] theorem setCtl_runs (s : State) (c : Nat) (v : Ctl) : (s.setCtl c v).runs = s.runs := rfl
@[simp] theorem setCtl_nextRun (s : State) (c : Nat) (v : Ctl) : (s.setCtl c v).nextRun = s.nextRun := rfl
@[simp] theorem setCtl_tenants (s : State) (c : Nat) (v : Ctl) : (s.setCtl c v).tenants = s.tenants := rfl
@[simp] theorem setCtl_slices (s : State) (c : Nat) (v : Ctl) : (s.setCtl c v).slices = s.slices := rfl
@[simp] theorem setCtl_mem (s : State) (c : Nat) (v : Ctl) : (s.setCtl c v).mem = s.mem := rfl
@[simp] theorem setCtl_granules (s : State) (c : Nat) (v : Ctl) : (s.setCtl c v).granules = s.granules := rfl
@[simp] theorem setCtl_resvs (s : State) (c : Nat) (v : Ctl) : (s.setCtl c v).resvs = s.resvs := rfl
@[simp] theorem setCtl_msgs (s : State) (c : Nat) (v : Ctl) : (s.setCtl c v).msgs = s.msgs := rfl
@[simp] theorem setCtl_allred (s : State) (c : Nat) (v : Ctl) : (s.setCtl c v).allred = s.allred := rfl
@[simp] theorem setCtl_linkOut (s : State) (c : Nat) (v : Ctl) : (s.setCtl c v).linkOut = s.linkOut := rfl
@[simp] theorem setCtl_linkIn (s : State) (c : Nat) (v : Ctl) : (s.setCtl c v).linkIn = s.linkIn := rfl
@[simp] theorem setCtl_linkReq (s : State) (c : Nat) (v : Ctl) : (s.setCtl c v).linkReq = s.linkReq := rfl
@[simp] theorem setCtl_agenda (s : State) (c : Nat) (v : Ctl) : (s.setCtl c v).agenda = s.agenda := rfl
@[simp] theorem setCtl_inbox (s : State) (c : Nat) (v : Ctl) : (s.setCtl c v).inbox = s.inbox := rfl
@[simp] theorem setCtl_focus (s : State) (c : Nat) (v : Ctl) : (s.setCtl c v).focus = s.focus := rfl
@[simp] theorem setCtl_choices (s : State) (c : Nat) (v : Ctl) : (s.setCtl c v).choices = s.choices := rfl
@[simp] theorem setCtl_seq (s : State) (c : Nat) (v : Ctl) : (s.setCtl c v).seq = s.seq := rfl

@[simp] theorem setCell_dev (s : State) (r u : Nat) (v : Cell) : (s.setCell r u v).dev = s.dev := rfl
@[simp] theorem setCell_qc (s : State) (r u : Nat) (v : Cell) : (s.setCell r u v).qc = s.qc := rfl
@[simp] theorem setCell_dies (s : State) (r u : Nat) (v : Cell) : (s.setCell r u v).dies = s.dies := rfl
@[simp] theorem setCell_clusters (s : State) (r u : Nat) (v : Cell) : (s.setCell r u v).clusters = s.clusters := rfl
@[simp] theorem setCell_pages (s : State) (r u : Nat) (v : Cell) : (s.setCell r u v).pages = s.pages := rfl
@[simp] theorem setCell_runs (s : State) (r u : Nat) (v : Cell) : (s.setCell r u v).runs = s.runs := rfl
@[simp] theorem setCell_nextRun (s : State) (r u : Nat) (v : Cell) : (s.setCell r u v).nextRun = s.nextRun := rfl
@[simp] theorem setCell_tenants (s : State) (r u : Nat) (v : Cell) : (s.setCell r u v).tenants = s.tenants := rfl
@[simp] theorem setCell_slices (s : State) (r u : Nat) (v : Cell) : (s.setCell r u v).slices = s.slices := rfl
@[simp] theorem setCell_mem (s : State) (r u : Nat) (v : Cell) : (s.setCell r u v).mem = s.mem := rfl
@[simp] theorem setCell_granules (s : State) (r u : Nat) (v : Cell) : (s.setCell r u v).granules = s.granules := rfl
@[simp] theorem setCell_resvs (s : State) (r u : Nat) (v : Cell) : (s.setCell r u v).resvs = s.resvs := rfl
@[simp] theorem setCell_msgs (s : State) (r u : Nat) (v : Cell) : (s.setCell r u v).msgs = s.msgs := rfl
@[simp] theorem setCell_allred (s : State) (r u : Nat) (v : Cell) : (s.setCell r u v).allred = s.allred := rfl
@[simp] theorem setCell_linkOut (s : State) (r u : Nat) (v : Cell) : (s.setCell r u v).linkOut = s.linkOut := rfl
@[simp] theorem setCell_linkIn (s : State) (r u : Nat) (v : Cell) : (s.setCell r u v).linkIn = s.linkIn := rfl
@[simp] theorem setCell_linkReq (s : State) (r u : Nat) (v : Cell) : (s.setCell r u v).linkReq = s.linkReq := rfl
@[simp] theorem setCell_agenda (s : State) (r u : Nat) (v : Cell) : (s.setCell r u v).agenda = s.agenda := rfl
@[simp] theorem setCell_inbox (s : State) (r u : Nat) (v : Cell) : (s.setCell r u v).inbox = s.inbox := rfl
@[simp] theorem setCell_focus (s : State) (r u : Nat) (v : Cell) : (s.setCell r u v).focus = s.focus := rfl
@[simp] theorem setCell_choices (s : State) (r u : Nat) (v : Cell) : (s.setCell r u v).choices = s.choices := rfl
@[simp] theorem setCell_seq (s : State) (r u : Nat) (v : Cell) : (s.setCell r u v).seq = s.seq := rfl

@[simp] theorem setMn_dev (s : State) (r : Nat) (v : MNode) : (s.setMn r v).dev = s.dev := rfl
@[simp] theorem setMn_qc (s : State) (r : Nat) (v : MNode) : (s.setMn r v).qc = s.qc := rfl
@[simp] theorem setMn_dies (s : State) (r : Nat) (v : MNode) : (s.setMn r v).dies = s.dies := rfl
@[simp] theorem setMn_clusters (s : State) (r : Nat) (v : MNode) : (s.setMn r v).clusters = s.clusters := rfl
@[simp] theorem setMn_pages (s : State) (r : Nat) (v : MNode) : (s.setMn r v).pages = s.pages := rfl
@[simp] theorem setMn_runs (s : State) (r : Nat) (v : MNode) : (s.setMn r v).runs = s.runs := rfl
@[simp] theorem setMn_nextRun (s : State) (r : Nat) (v : MNode) : (s.setMn r v).nextRun = s.nextRun := rfl
@[simp] theorem setMn_tenants (s : State) (r : Nat) (v : MNode) : (s.setMn r v).tenants = s.tenants := rfl
@[simp] theorem setMn_slices (s : State) (r : Nat) (v : MNode) : (s.setMn r v).slices = s.slices := rfl
@[simp] theorem setMn_mem (s : State) (r : Nat) (v : MNode) : (s.setMn r v).mem = s.mem := rfl
@[simp] theorem setMn_granules (s : State) (r : Nat) (v : MNode) : (s.setMn r v).granules = s.granules := rfl
@[simp] theorem setMn_resvs (s : State) (r : Nat) (v : MNode) : (s.setMn r v).resvs = s.resvs := rfl
@[simp] theorem setMn_msgs (s : State) (r : Nat) (v : MNode) : (s.setMn r v).msgs = s.msgs := rfl
@[simp] theorem setMn_allred (s : State) (r : Nat) (v : MNode) : (s.setMn r v).allred = s.allred := rfl
@[simp] theorem setMn_linkOut (s : State) (r : Nat) (v : MNode) : (s.setMn r v).linkOut = s.linkOut := rfl
@[simp] theorem setMn_linkIn (s : State) (r : Nat) (v : MNode) : (s.setMn r v).linkIn = s.linkIn := rfl
@[simp] theorem setMn_linkReq (s : State) (r : Nat) (v : MNode) : (s.setMn r v).linkReq = s.linkReq := rfl
@[simp] theorem setMn_agenda (s : State) (r : Nat) (v : MNode) : (s.setMn r v).agenda = s.agenda := rfl
@[simp] theorem setMn_inbox (s : State) (r : Nat) (v : MNode) : (s.setMn r v).inbox = s.inbox := rfl
@[simp] theorem setMn_focus (s : State) (r : Nat) (v : MNode) : (s.setMn r v).focus = s.focus := rfl
@[simp] theorem setMn_choices (s : State) (r : Nat) (v : MNode) : (s.setMn r v).choices = s.choices := rfl
@[simp] theorem setMn_seq (s : State) (r : Nat) (v : MNode) : (s.setMn r v).seq = s.seq := rfl

@[simp] theorem setXn_dev (s : State) (r : Nat) (v : XNode) : (s.setXn r v).dev = s.dev := rfl
@[simp] theorem setXn_qc (s : State) (r : Nat) (v : XNode) : (s.setXn r v).qc = s.qc := rfl
@[simp] theorem setXn_dies (s : State) (r : Nat) (v : XNode) : (s.setXn r v).dies = s.dies := rfl
@[simp] theorem setXn_clusters (s : State) (r : Nat) (v : XNode) : (s.setXn r v).clusters = s.clusters := rfl
@[simp] theorem setXn_pages (s : State) (r : Nat) (v : XNode) : (s.setXn r v).pages = s.pages := rfl
@[simp] theorem setXn_runs (s : State) (r : Nat) (v : XNode) : (s.setXn r v).runs = s.runs := rfl
@[simp] theorem setXn_nextRun (s : State) (r : Nat) (v : XNode) : (s.setXn r v).nextRun = s.nextRun := rfl
@[simp] theorem setXn_tenants (s : State) (r : Nat) (v : XNode) : (s.setXn r v).tenants = s.tenants := rfl
@[simp] theorem setXn_slices (s : State) (r : Nat) (v : XNode) : (s.setXn r v).slices = s.slices := rfl
@[simp] theorem setXn_mem (s : State) (r : Nat) (v : XNode) : (s.setXn r v).mem = s.mem := rfl
@[simp] theorem setXn_granules (s : State) (r : Nat) (v : XNode) : (s.setXn r v).granules = s.granules := rfl
@[simp] theorem setXn_resvs (s : State) (r : Nat) (v : XNode) : (s.setXn r v).resvs = s.resvs := rfl
@[simp] theorem setXn_msgs (s : State) (r : Nat) (v : XNode) : (s.setXn r v).msgs = s.msgs := rfl
@[simp] theorem setXn_allred (s : State) (r : Nat) (v : XNode) : (s.setXn r v).allred = s.allred := rfl
@[simp] theorem setXn_linkOut (s : State) (r : Nat) (v : XNode) : (s.setXn r v).linkOut = s.linkOut := rfl
@[simp] theorem setXn_linkIn (s : State) (r : Nat) (v : XNode) : (s.setXn r v).linkIn = s.linkIn := rfl
@[simp] theorem setXn_linkReq (s : State) (r : Nat) (v : XNode) : (s.setXn r v).linkReq = s.linkReq := rfl
@[simp] theorem setXn_agenda (s : State) (r : Nat) (v : XNode) : (s.setXn r v).agenda = s.agenda := rfl
@[simp] theorem setXn_inbox (s : State) (r : Nat) (v : XNode) : (s.setXn r v).inbox = s.inbox := rfl
@[simp] theorem setXn_focus (s : State) (r : Nat) (v : XNode) : (s.setXn r v).focus = s.focus := rfl
@[simp] theorem setXn_choices (s : State) (r : Nat) (v : XNode) : (s.setXn r v).choices = s.choices := rfl
@[simp] theorem setXn_seq (s : State) (r : Nat) (v : XNode) : (s.setXn r v).seq = s.seq := rfl

@[simp] theorem setInp_dev (s : State) (r p : Nat) (v : Port) : (s.setInp r p v).dev = s.dev := rfl
@[simp] theorem setInp_qc (s : State) (r p : Nat) (v : Port) : (s.setInp r p v).qc = s.qc := rfl
@[simp] theorem setInp_dies (s : State) (r p : Nat) (v : Port) : (s.setInp r p v).dies = s.dies := rfl
@[simp] theorem setInp_clusters (s : State) (r p : Nat) (v : Port) : (s.setInp r p v).clusters = s.clusters := rfl
@[simp] theorem setInp_pages (s : State) (r p : Nat) (v : Port) : (s.setInp r p v).pages = s.pages := rfl
@[simp] theorem setInp_runs (s : State) (r p : Nat) (v : Port) : (s.setInp r p v).runs = s.runs := rfl
@[simp] theorem setInp_nextRun (s : State) (r p : Nat) (v : Port) : (s.setInp r p v).nextRun = s.nextRun := rfl
@[simp] theorem setInp_tenants (s : State) (r p : Nat) (v : Port) : (s.setInp r p v).tenants = s.tenants := rfl
@[simp] theorem setInp_slices (s : State) (r p : Nat) (v : Port) : (s.setInp r p v).slices = s.slices := rfl
@[simp] theorem setInp_mem (s : State) (r p : Nat) (v : Port) : (s.setInp r p v).mem = s.mem := rfl
@[simp] theorem setInp_granules (s : State) (r p : Nat) (v : Port) : (s.setInp r p v).granules = s.granules := rfl
@[simp] theorem setInp_resvs (s : State) (r p : Nat) (v : Port) : (s.setInp r p v).resvs = s.resvs := rfl
@[simp] theorem setInp_msgs (s : State) (r p : Nat) (v : Port) : (s.setInp r p v).msgs = s.msgs := rfl
@[simp] theorem setInp_allred (s : State) (r p : Nat) (v : Port) : (s.setInp r p v).allred = s.allred := rfl
@[simp] theorem setInp_linkOut (s : State) (r p : Nat) (v : Port) : (s.setInp r p v).linkOut = s.linkOut := rfl
@[simp] theorem setInp_linkIn (s : State) (r p : Nat) (v : Port) : (s.setInp r p v).linkIn = s.linkIn := rfl
@[simp] theorem setInp_linkReq (s : State) (r p : Nat) (v : Port) : (s.setInp r p v).linkReq = s.linkReq := rfl
@[simp] theorem setInp_agenda (s : State) (r p : Nat) (v : Port) : (s.setInp r p v).agenda = s.agenda := rfl
@[simp] theorem setInp_inbox (s : State) (r p : Nat) (v : Port) : (s.setInp r p v).inbox = s.inbox := rfl
@[simp] theorem setInp_focus (s : State) (r p : Nat) (v : Port) : (s.setInp r p v).focus = s.focus := rfl
@[simp] theorem setInp_choices (s : State) (r p : Nat) (v : Port) : (s.setInp r p v).choices = s.choices := rfl
@[simp] theorem setInp_seq (s : State) (r p : Nat) (v : Port) : (s.setInp r p v).seq = s.seq := rfl

@[simp] theorem setOutp_dev (s : State) (r p : Nat) (v : Port) : (s.setOutp r p v).dev = s.dev := rfl
@[simp] theorem setOutp_qc (s : State) (r p : Nat) (v : Port) : (s.setOutp r p v).qc = s.qc := rfl
@[simp] theorem setOutp_dies (s : State) (r p : Nat) (v : Port) : (s.setOutp r p v).dies = s.dies := rfl
@[simp] theorem setOutp_clusters (s : State) (r p : Nat) (v : Port) : (s.setOutp r p v).clusters = s.clusters := rfl
@[simp] theorem setOutp_pages (s : State) (r p : Nat) (v : Port) : (s.setOutp r p v).pages = s.pages := rfl
@[simp] theorem setOutp_runs (s : State) (r p : Nat) (v : Port) : (s.setOutp r p v).runs = s.runs := rfl
@[simp] theorem setOutp_nextRun (s : State) (r p : Nat) (v : Port) : (s.setOutp r p v).nextRun = s.nextRun := rfl
@[simp] theorem setOutp_tenants (s : State) (r p : Nat) (v : Port) : (s.setOutp r p v).tenants = s.tenants := rfl
@[simp] theorem setOutp_slices (s : State) (r p : Nat) (v : Port) : (s.setOutp r p v).slices = s.slices := rfl
@[simp] theorem setOutp_mem (s : State) (r p : Nat) (v : Port) : (s.setOutp r p v).mem = s.mem := rfl
@[simp] theorem setOutp_granules (s : State) (r p : Nat) (v : Port) : (s.setOutp r p v).granules = s.granules := rfl
@[simp] theorem setOutp_resvs (s : State) (r p : Nat) (v : Port) : (s.setOutp r p v).resvs = s.resvs := rfl
@[simp] theorem setOutp_msgs (s : State) (r p : Nat) (v : Port) : (s.setOutp r p v).msgs = s.msgs := rfl
@[simp] theorem setOutp_allred (s : State) (r p : Nat) (v : Port) : (s.setOutp r p v).allred = s.allred := rfl
@[simp] theorem setOutp_linkOut (s : State) (r p : Nat) (v : Port) : (s.setOutp r p v).linkOut = s.linkOut := rfl
@[simp] theorem setOutp_linkIn (s : State) (r p : Nat) (v : Port) : (s.setOutp r p v).linkIn = s.linkIn := rfl
@[simp] theorem setOutp_linkReq (s : State) (r p : Nat) (v : Port) : (s.setOutp r p v).linkReq = s.linkReq := rfl
@[simp] theorem setOutp_agenda (s : State) (r p : Nat) (v : Port) : (s.setOutp r p v).agenda = s.agenda := rfl
@[simp] theorem setOutp_inbox (s : State) (r p : Nat) (v : Port) : (s.setOutp r p v).inbox = s.inbox := rfl
@[simp] theorem setOutp_focus (s : State) (r p : Nat) (v : Port) : (s.setOutp r p v).focus = s.focus := rfl
@[simp] theorem setOutp_choices (s : State) (r p : Nat) (v : Port) : (s.setOutp r p v).choices = s.choices := rfl
@[simp] theorem setOutp_seq (s : State) (r p : Nat) (v : Port) : (s.setOutp r p v).seq = s.seq := rfl

@[simp] theorem setChan_dev (s : State) (r c : Nat) (v : Chan) : (s.setChan r c v).dev = s.dev := rfl
@[simp] theorem setChan_qc (s : State) (r c : Nat) (v : Chan) : (s.setChan r c v).qc = s.qc := rfl
@[simp] theorem setChan_dies (s : State) (r c : Nat) (v : Chan) : (s.setChan r c v).dies = s.dies := rfl
@[simp] theorem setChan_clusters (s : State) (r c : Nat) (v : Chan) : (s.setChan r c v).clusters = s.clusters := rfl
@[simp] theorem setChan_pages (s : State) (r c : Nat) (v : Chan) : (s.setChan r c v).pages = s.pages := rfl
@[simp] theorem setChan_runs (s : State) (r c : Nat) (v : Chan) : (s.setChan r c v).runs = s.runs := rfl
@[simp] theorem setChan_nextRun (s : State) (r c : Nat) (v : Chan) : (s.setChan r c v).nextRun = s.nextRun := rfl
@[simp] theorem setChan_tenants (s : State) (r c : Nat) (v : Chan) : (s.setChan r c v).tenants = s.tenants := rfl
@[simp] theorem setChan_slices (s : State) (r c : Nat) (v : Chan) : (s.setChan r c v).slices = s.slices := rfl
@[simp] theorem setChan_mem (s : State) (r c : Nat) (v : Chan) : (s.setChan r c v).mem = s.mem := rfl
@[simp] theorem setChan_granules (s : State) (r c : Nat) (v : Chan) : (s.setChan r c v).granules = s.granules := rfl
@[simp] theorem setChan_resvs (s : State) (r c : Nat) (v : Chan) : (s.setChan r c v).resvs = s.resvs := rfl
@[simp] theorem setChan_msgs (s : State) (r c : Nat) (v : Chan) : (s.setChan r c v).msgs = s.msgs := rfl
@[simp] theorem setChan_allred (s : State) (r c : Nat) (v : Chan) : (s.setChan r c v).allred = s.allred := rfl
@[simp] theorem setChan_linkOut (s : State) (r c : Nat) (v : Chan) : (s.setChan r c v).linkOut = s.linkOut := rfl
@[simp] theorem setChan_linkIn (s : State) (r c : Nat) (v : Chan) : (s.setChan r c v).linkIn = s.linkIn := rfl
@[simp] theorem setChan_linkReq (s : State) (r c : Nat) (v : Chan) : (s.setChan r c v).linkReq = s.linkReq := rfl
@[simp] theorem setChan_agenda (s : State) (r c : Nat) (v : Chan) : (s.setChan r c v).agenda = s.agenda := rfl
@[simp] theorem setChan_inbox (s : State) (r c : Nat) (v : Chan) : (s.setChan r c v).inbox = s.inbox := rfl
@[simp] theorem setChan_focus (s : State) (r c : Nat) (v : Chan) : (s.setChan r c v).focus = s.focus := rfl
@[simp] theorem setChan_choices (s : State) (r c : Nat) (v : Chan) : (s.setChan r c v).choices = s.choices := rfl
@[simp] theorem setChan_seq (s : State) (r c : Nat) (v : Chan) : (s.setChan r c v).seq = s.seq := rfl

@[simp] theorem setQueue_dev (s : State) (q : QueueId) (v : Queue) : (s.setQueue q v).dev = s.dev := rfl
@[simp] theorem setQueue_qc (s : State) (q : QueueId) (v : Queue) : (s.setQueue q v).qc = s.qc := rfl
@[simp] theorem setQueue_dies (s : State) (q : QueueId) (v : Queue) : (s.setQueue q v).dies = s.dies := rfl
@[simp] theorem setQueue_clusters (s : State) (q : QueueId) (v : Queue) : (s.setQueue q v).clusters = s.clusters := rfl
@[simp] theorem setQueue_regions (s : State) (q : QueueId) (v : Queue) : (s.setQueue q v).regions = s.regions := rfl
@[simp] theorem setQueue_pages (s : State) (q : QueueId) (v : Queue) : (s.setQueue q v).pages = s.pages := rfl
@[simp] theorem setQueue_runs (s : State) (q : QueueId) (v : Queue) : (s.setQueue q v).runs = s.runs := rfl
@[simp] theorem setQueue_nextRun (s : State) (q : QueueId) (v : Queue) : (s.setQueue q v).nextRun = s.nextRun := rfl
@[simp] theorem setQueue_slices (s : State) (q : QueueId) (v : Queue) : (s.setQueue q v).slices = s.slices := rfl
@[simp] theorem setQueue_mem (s : State) (q : QueueId) (v : Queue) : (s.setQueue q v).mem = s.mem := rfl
@[simp] theorem setQueue_granules (s : State) (q : QueueId) (v : Queue) : (s.setQueue q v).granules = s.granules := rfl
@[simp] theorem setQueue_resvs (s : State) (q : QueueId) (v : Queue) : (s.setQueue q v).resvs = s.resvs := rfl
@[simp] theorem setQueue_msgs (s : State) (q : QueueId) (v : Queue) : (s.setQueue q v).msgs = s.msgs := rfl
@[simp] theorem setQueue_allred (s : State) (q : QueueId) (v : Queue) : (s.setQueue q v).allred = s.allred := rfl
@[simp] theorem setQueue_linkOut (s : State) (q : QueueId) (v : Queue) : (s.setQueue q v).linkOut = s.linkOut := rfl
@[simp] theorem setQueue_linkIn (s : State) (q : QueueId) (v : Queue) : (s.setQueue q v).linkIn = s.linkIn := rfl
@[simp] theorem setQueue_linkReq (s : State) (q : QueueId) (v : Queue) : (s.setQueue q v).linkReq = s.linkReq := rfl
@[simp] theorem setQueue_agenda (s : State) (q : QueueId) (v : Queue) : (s.setQueue q v).agenda = s.agenda := rfl
@[simp] theorem setQueue_inbox (s : State) (q : QueueId) (v : Queue) : (s.setQueue q v).inbox = s.inbox := rfl
@[simp] theorem setQueue_focus (s : State) (q : QueueId) (v : Queue) : (s.setQueue q v).focus = s.focus := rfl
@[simp] theorem setQueue_choices (s : State) (q : QueueId) (v : Queue) : (s.setQueue q v).choices = s.choices := rfl
@[simp] theorem setQueue_seq (s : State) (q : QueueId) (v : Queue) : (s.setQueue q v).seq = s.seq := rfl

@[simp] theorem setReg_dev (s : State) (c : Nat) (n : Reg) (v : W64) : (s.setReg c n v).dev = s.dev := rfl
@[simp] theorem setReg_qc (s : State) (c : Nat) (n : Reg) (v : W64) : (s.setReg c n v).qc = s.qc := rfl
@[simp] theorem setReg_dies (s : State) (c : Nat) (n : Reg) (v : W64) : (s.setReg c n v).dies = s.dies := rfl
@[simp] theorem setReg_regions (s : State) (c : Nat) (n : Reg) (v : W64) : (s.setReg c n v).regions = s.regions := rfl
@[simp] theorem setReg_pages (s : State) (c : Nat) (n : Reg) (v : W64) : (s.setReg c n v).pages = s.pages := rfl
@[simp] theorem setReg_runs (s : State) (c : Nat) (n : Reg) (v : W64) : (s.setReg c n v).runs = s.runs := rfl
@[simp] theorem setReg_nextRun (s : State) (c : Nat) (n : Reg) (v : W64) : (s.setReg c n v).nextRun = s.nextRun := rfl
@[simp] theorem setReg_tenants (s : State) (c : Nat) (n : Reg) (v : W64) : (s.setReg c n v).tenants = s.tenants := rfl
@[simp] theorem setReg_slices (s : State) (c : Nat) (n : Reg) (v : W64) : (s.setReg c n v).slices = s.slices := rfl
@[simp] theorem setReg_mem (s : State) (c : Nat) (n : Reg) (v : W64) : (s.setReg c n v).mem = s.mem := rfl
@[simp] theorem setReg_granules (s : State) (c : Nat) (n : Reg) (v : W64) : (s.setReg c n v).granules = s.granules := rfl
@[simp] theorem setReg_resvs (s : State) (c : Nat) (n : Reg) (v : W64) : (s.setReg c n v).resvs = s.resvs := rfl
@[simp] theorem setReg_msgs (s : State) (c : Nat) (n : Reg) (v : W64) : (s.setReg c n v).msgs = s.msgs := rfl
@[simp] theorem setReg_allred (s : State) (c : Nat) (n : Reg) (v : W64) : (s.setReg c n v).allred = s.allred := rfl
@[simp] theorem setReg_linkOut (s : State) (c : Nat) (n : Reg) (v : W64) : (s.setReg c n v).linkOut = s.linkOut := rfl
@[simp] theorem setReg_linkIn (s : State) (c : Nat) (n : Reg) (v : W64) : (s.setReg c n v).linkIn = s.linkIn := rfl
@[simp] theorem setReg_linkReq (s : State) (c : Nat) (n : Reg) (v : W64) : (s.setReg c n v).linkReq = s.linkReq := rfl
@[simp] theorem setReg_agenda (s : State) (c : Nat) (n : Reg) (v : W64) : (s.setReg c n v).agenda = s.agenda := rfl
@[simp] theorem setReg_inbox (s : State) (c : Nat) (n : Reg) (v : W64) : (s.setReg c n v).inbox = s.inbox := rfl
@[simp] theorem setReg_focus (s : State) (c : Nat) (n : Reg) (v : W64) : (s.setReg c n v).focus = s.focus := rfl
@[simp] theorem setReg_choices (s : State) (c : Nat) (n : Reg) (v : W64) : (s.setReg c n v).choices = s.choices := rfl
@[simp] theorem setReg_seq (s : State) (c : Nat) (n : Reg) (v : W64) : (s.setReg c n v).seq = s.seq := rfl

@[simp] theorem retire_dev (s : State) (c : Nat) : (s.retire c).dev = s.dev := rfl
@[simp] theorem retire_qc (s : State) (c : Nat) : (s.retire c).qc = s.qc := rfl
@[simp] theorem retire_dies (s : State) (c : Nat) : (s.retire c).dies = s.dies := rfl
@[simp] theorem retire_regions (s : State) (c : Nat) : (s.retire c).regions = s.regions := rfl
@[simp] theorem retire_pages (s : State) (c : Nat) : (s.retire c).pages = s.pages := rfl
@[simp] theorem retire_runs (s : State) (c : Nat) : (s.retire c).runs = s.runs := rfl
@[simp] theorem retire_nextRun (s : State) (c : Nat) : (s.retire c).nextRun = s.nextRun := rfl
@[simp] theorem retire_tenants (s : State) (c : Nat) : (s.retire c).tenants = s.tenants := rfl
@[simp] theorem retire_slices (s : State) (c : Nat) : (s.retire c).slices = s.slices := rfl
@[simp] theorem retire_mem (s : State) (c : Nat) : (s.retire c).mem = s.mem := rfl
@[simp] theorem retire_granules (s : State) (c : Nat) : (s.retire c).granules = s.granules := rfl
@[simp] theorem retire_resvs (s : State) (c : Nat) : (s.retire c).resvs = s.resvs := rfl
@[simp] theorem retire_msgs (s : State) (c : Nat) : (s.retire c).msgs = s.msgs := rfl
@[simp] theorem retire_allred (s : State) (c : Nat) : (s.retire c).allred = s.allred := rfl
@[simp] theorem retire_linkOut (s : State) (c : Nat) : (s.retire c).linkOut = s.linkOut := rfl
@[simp] theorem retire_linkIn (s : State) (c : Nat) : (s.retire c).linkIn = s.linkIn := rfl
@[simp] theorem retire_linkReq (s : State) (c : Nat) : (s.retire c).linkReq = s.linkReq := rfl
@[simp] theorem retire_agenda (s : State) (c : Nat) : (s.retire c).agenda = s.agenda := rfl
@[simp] theorem retire_inbox (s : State) (c : Nat) : (s.retire c).inbox = s.inbox := rfl
@[simp] theorem retire_focus (s : State) (c : Nat) : (s.retire c).focus = s.focus := rfl
@[simp] theorem retire_choices (s : State) (c : Nat) : (s.retire c).choices = s.choices := rfl
@[simp] theorem retire_seq (s : State) (c : Nat) : (s.retire c).seq = s.seq := rfl

@[simp] theorem retireWith_dev (s : State) (c : Nat) (rd : Reg) (v : W64) : (s.retireWith c rd v).dev = s.dev := rfl
@[simp] theorem retireWith_qc (s : State) (c : Nat) (rd : Reg) (v : W64) : (s.retireWith c rd v).qc = s.qc := rfl
@[simp] theorem retireWith_dies (s : State) (c : Nat) (rd : Reg) (v : W64) : (s.retireWith c rd v).dies = s.dies := rfl
@[simp] theorem retireWith_regions (s : State) (c : Nat) (rd : Reg) (v : W64) : (s.retireWith c rd v).regions = s.regions := rfl
@[simp] theorem retireWith_pages (s : State) (c : Nat) (rd : Reg) (v : W64) : (s.retireWith c rd v).pages = s.pages := rfl
@[simp] theorem retireWith_runs (s : State) (c : Nat) (rd : Reg) (v : W64) : (s.retireWith c rd v).runs = s.runs := rfl
@[simp] theorem retireWith_nextRun (s : State) (c : Nat) (rd : Reg) (v : W64) : (s.retireWith c rd v).nextRun = s.nextRun := rfl
@[simp] theorem retireWith_tenants (s : State) (c : Nat) (rd : Reg) (v : W64) : (s.retireWith c rd v).tenants = s.tenants := rfl
@[simp] theorem retireWith_slices (s : State) (c : Nat) (rd : Reg) (v : W64) : (s.retireWith c rd v).slices = s.slices := rfl
@[simp] theorem retireWith_mem (s : State) (c : Nat) (rd : Reg) (v : W64) : (s.retireWith c rd v).mem = s.mem := rfl
@[simp] theorem retireWith_granules (s : State) (c : Nat) (rd : Reg) (v : W64) : (s.retireWith c rd v).granules = s.granules := rfl
@[simp] theorem retireWith_resvs (s : State) (c : Nat) (rd : Reg) (v : W64) : (s.retireWith c rd v).resvs = s.resvs := rfl
@[simp] theorem retireWith_msgs (s : State) (c : Nat) (rd : Reg) (v : W64) : (s.retireWith c rd v).msgs = s.msgs := rfl
@[simp] theorem retireWith_allred (s : State) (c : Nat) (rd : Reg) (v : W64) : (s.retireWith c rd v).allred = s.allred := rfl
@[simp] theorem retireWith_linkOut (s : State) (c : Nat) (rd : Reg) (v : W64) : (s.retireWith c rd v).linkOut = s.linkOut := rfl
@[simp] theorem retireWith_linkIn (s : State) (c : Nat) (rd : Reg) (v : W64) : (s.retireWith c rd v).linkIn = s.linkIn := rfl
@[simp] theorem retireWith_linkReq (s : State) (c : Nat) (rd : Reg) (v : W64) : (s.retireWith c rd v).linkReq = s.linkReq := rfl
@[simp] theorem retireWith_agenda (s : State) (c : Nat) (rd : Reg) (v : W64) : (s.retireWith c rd v).agenda = s.agenda := rfl
@[simp] theorem retireWith_inbox (s : State) (c : Nat) (rd : Reg) (v : W64) : (s.retireWith c rd v).inbox = s.inbox := rfl
@[simp] theorem retireWith_focus (s : State) (c : Nat) (rd : Reg) (v : W64) : (s.retireWith c rd v).focus = s.focus := rfl
@[simp] theorem retireWith_choices (s : State) (c : Nat) (rd : Reg) (v : W64) : (s.retireWith c rd v).choices = s.choices := rfl
@[simp] theorem retireWith_seq (s : State) (c : Nat) (rd : Reg) (v : W64) : (s.retireWith c rd v).seq = s.seq := rfl

@[simp] theorem wait_dev (s : State) (c : Nat) : (s.wait c).dev = s.dev := rfl
@[simp] theorem wait_qc (s : State) (c : Nat) : (s.wait c).qc = s.qc := rfl
@[simp] theorem wait_dies (s : State) (c : Nat) : (s.wait c).dies = s.dies := rfl
@[simp] theorem wait_regions (s : State) (c : Nat) : (s.wait c).regions = s.regions := rfl
@[simp] theorem wait_pages (s : State) (c : Nat) : (s.wait c).pages = s.pages := rfl
@[simp] theorem wait_runs (s : State) (c : Nat) : (s.wait c).runs = s.runs := rfl
@[simp] theorem wait_nextRun (s : State) (c : Nat) : (s.wait c).nextRun = s.nextRun := rfl
@[simp] theorem wait_tenants (s : State) (c : Nat) : (s.wait c).tenants = s.tenants := rfl
@[simp] theorem wait_slices (s : State) (c : Nat) : (s.wait c).slices = s.slices := rfl
@[simp] theorem wait_mem (s : State) (c : Nat) : (s.wait c).mem = s.mem := rfl
@[simp] theorem wait_granules (s : State) (c : Nat) : (s.wait c).granules = s.granules := rfl
@[simp] theorem wait_resvs (s : State) (c : Nat) : (s.wait c).resvs = s.resvs := rfl
@[simp] theorem wait_msgs (s : State) (c : Nat) : (s.wait c).msgs = s.msgs := rfl
@[simp] theorem wait_allred (s : State) (c : Nat) : (s.wait c).allred = s.allred := rfl
@[simp] theorem wait_linkOut (s : State) (c : Nat) : (s.wait c).linkOut = s.linkOut := rfl
@[simp] theorem wait_linkIn (s : State) (c : Nat) : (s.wait c).linkIn = s.linkIn := rfl
@[simp] theorem wait_linkReq (s : State) (c : Nat) : (s.wait c).linkReq = s.linkReq := rfl
@[simp] theorem wait_agenda (s : State) (c : Nat) : (s.wait c).agenda = s.agenda := rfl
@[simp] theorem wait_inbox (s : State) (c : Nat) : (s.wait c).inbox = s.inbox := rfl
@[simp] theorem wait_focus (s : State) (c : Nat) : (s.wait c).focus = s.focus := rfl
@[simp] theorem wait_choices (s : State) (c : Nat) : (s.wait c).choices = s.choices := rfl
@[simp] theorem wait_seq (s : State) (c : Nat) : (s.wait c).seq = s.seq := rfl

@[simp] theorem pushJobs_dev (s : State) (l : List Job) : (s.pushJobs l).dev = s.dev := rfl
@[simp] theorem pushJobs_qc (s : State) (l : List Job) : (s.pushJobs l).qc = s.qc := rfl
@[simp] theorem pushJobs_dies (s : State) (l : List Job) : (s.pushJobs l).dies = s.dies := rfl
@[simp] theorem pushJobs_clusters (s : State) (l : List Job) : (s.pushJobs l).clusters = s.clusters := rfl
@[simp] theorem pushJobs_regions (s : State) (l : List Job) : (s.pushJobs l).regions = s.regions := rfl
@[simp] theorem pushJobs_pages (s : State) (l : List Job) : (s.pushJobs l).pages = s.pages := rfl
@[simp] theorem pushJobs_runs (s : State) (l : List Job) : (s.pushJobs l).runs = s.runs := rfl
@[simp] theorem pushJobs_nextRun (s : State) (l : List Job) : (s.pushJobs l).nextRun = s.nextRun := rfl
@[simp] theorem pushJobs_tenants (s : State) (l : List Job) : (s.pushJobs l).tenants = s.tenants := rfl
@[simp] theorem pushJobs_slices (s : State) (l : List Job) : (s.pushJobs l).slices = s.slices := rfl
@[simp] theorem pushJobs_mem (s : State) (l : List Job) : (s.pushJobs l).mem = s.mem := rfl
@[simp] theorem pushJobs_granules (s : State) (l : List Job) : (s.pushJobs l).granules = s.granules := rfl
@[simp] theorem pushJobs_resvs (s : State) (l : List Job) : (s.pushJobs l).resvs = s.resvs := rfl
@[simp] theorem pushJobs_msgs (s : State) (l : List Job) : (s.pushJobs l).msgs = s.msgs := rfl
@[simp] theorem pushJobs_allred (s : State) (l : List Job) : (s.pushJobs l).allred = s.allred := rfl
@[simp] theorem pushJobs_linkOut (s : State) (l : List Job) : (s.pushJobs l).linkOut = s.linkOut := rfl
@[simp] theorem pushJobs_linkIn (s : State) (l : List Job) : (s.pushJobs l).linkIn = s.linkIn := rfl
@[simp] theorem pushJobs_linkReq (s : State) (l : List Job) : (s.pushJobs l).linkReq = s.linkReq := rfl
@[simp] theorem pushJobs_inbox (s : State) (l : List Job) : (s.pushJobs l).inbox = s.inbox := rfl
@[simp] theorem pushJobs_focus (s : State) (l : List Job) : (s.pushJobs l).focus = s.focus := rfl
@[simp] theorem pushJobs_choices (s : State) (l : List Job) : (s.pushJobs l).choices = s.choices := rfl
@[simp] theorem pushJobs_seq (s : State) (l : List Job) : (s.pushJobs l).seq = s.seq := rfl

@[simp] theorem addJob_dev (s : State) (j : Job) : (s.addJob j).dev = s.dev := rfl
@[simp] theorem addJob_qc (s : State) (j : Job) : (s.addJob j).qc = s.qc := rfl
@[simp] theorem addJob_dies (s : State) (j : Job) : (s.addJob j).dies = s.dies := rfl
@[simp] theorem addJob_clusters (s : State) (j : Job) : (s.addJob j).clusters = s.clusters := rfl
@[simp] theorem addJob_regions (s : State) (j : Job) : (s.addJob j).regions = s.regions := rfl
@[simp] theorem addJob_pages (s : State) (j : Job) : (s.addJob j).pages = s.pages := rfl
@[simp] theorem addJob_runs (s : State) (j : Job) : (s.addJob j).runs = s.runs := rfl
@[simp] theorem addJob_nextRun (s : State) (j : Job) : (s.addJob j).nextRun = s.nextRun := rfl
@[simp] theorem addJob_tenants (s : State) (j : Job) : (s.addJob j).tenants = s.tenants := rfl
@[simp] theorem addJob_slices (s : State) (j : Job) : (s.addJob j).slices = s.slices := rfl
@[simp] theorem addJob_mem (s : State) (j : Job) : (s.addJob j).mem = s.mem := rfl
@[simp] theorem addJob_granules (s : State) (j : Job) : (s.addJob j).granules = s.granules := rfl
@[simp] theorem addJob_resvs (s : State) (j : Job) : (s.addJob j).resvs = s.resvs := rfl
@[simp] theorem addJob_msgs (s : State) (j : Job) : (s.addJob j).msgs = s.msgs := rfl
@[simp] theorem addJob_allred (s : State) (j : Job) : (s.addJob j).allred = s.allred := rfl
@[simp] theorem addJob_linkOut (s : State) (j : Job) : (s.addJob j).linkOut = s.linkOut := rfl
@[simp] theorem addJob_linkIn (s : State) (j : Job) : (s.addJob j).linkIn = s.linkIn := rfl
@[simp] theorem addJob_linkReq (s : State) (j : Job) : (s.addJob j).linkReq = s.linkReq := rfl
@[simp] theorem addJob_inbox (s : State) (j : Job) : (s.addJob j).inbox = s.inbox := rfl
@[simp] theorem addJob_focus (s : State) (j : Job) : (s.addJob j).focus = s.focus := rfl
@[simp] theorem addJob_choices (s : State) (j : Job) : (s.addJob j).choices = s.choices := rfl
@[simp] theorem addJob_seq (s : State) (j : Job) : (s.addJob j).seq = s.seq := rfl

@[simp] theorem clearResv_dev (s : State) (c : Nat) : (s.clearResv c).dev = s.dev := rfl
@[simp] theorem clearResv_qc (s : State) (c : Nat) : (s.clearResv c).qc = s.qc := rfl
@[simp] theorem clearResv_dies (s : State) (c : Nat) : (s.clearResv c).dies = s.dies := rfl
@[simp] theorem clearResv_clusters (s : State) (c : Nat) : (s.clearResv c).clusters = s.clusters := rfl
@[simp] theorem clearResv_regions (s : State) (c : Nat) : (s.clearResv c).regions = s.regions := rfl
@[simp] theorem clearResv_pages (s : State) (c : Nat) : (s.clearResv c).pages = s.pages := rfl
@[simp] theorem clearResv_runs (s : State) (c : Nat) : (s.clearResv c).runs = s.runs := rfl
@[simp] theorem clearResv_nextRun (s : State) (c : Nat) : (s.clearResv c).nextRun = s.nextRun := rfl
@[simp] theorem clearResv_tenants (s : State) (c : Nat) : (s.clearResv c).tenants = s.tenants := rfl
@[simp] theorem clearResv_slices (s : State) (c : Nat) : (s.clearResv c).slices = s.slices := rfl
@[simp] theorem clearResv_mem (s : State) (c : Nat) : (s.clearResv c).mem = s.mem := rfl
@[simp] theorem clearResv_granules (s : State) (c : Nat) : (s.clearResv c).granules = s.granules := rfl
@[simp] theorem clearResv_msgs (s : State) (c : Nat) : (s.clearResv c).msgs = s.msgs := rfl
@[simp] theorem clearResv_allred (s : State) (c : Nat) : (s.clearResv c).allred = s.allred := rfl
@[simp] theorem clearResv_linkOut (s : State) (c : Nat) : (s.clearResv c).linkOut = s.linkOut := rfl
@[simp] theorem clearResv_linkIn (s : State) (c : Nat) : (s.clearResv c).linkIn = s.linkIn := rfl
@[simp] theorem clearResv_linkReq (s : State) (c : Nat) : (s.clearResv c).linkReq = s.linkReq := rfl
@[simp] theorem clearResv_agenda (s : State) (c : Nat) : (s.clearResv c).agenda = s.agenda := rfl
@[simp] theorem clearResv_inbox (s : State) (c : Nat) : (s.clearResv c).inbox = s.inbox := rfl
@[simp] theorem clearResv_focus (s : State) (c : Nat) : (s.clearResv c).focus = s.focus := rfl
@[simp] theorem clearResv_choices (s : State) (c : Nat) : (s.clearResv c).choices = s.choices := rfl
@[simp] theorem clearResv_seq (s : State) (c : Nat) : (s.clearResv c).seq = s.seq := rfl

/-! ## Reads after writes -/

theorem setCluster_cluster (s : State) (n m : Nat) (v : Cluster) : (s.setCluster n v).cluster m = if m = n then v else s.cluster m := by
  simp [State.setCluster, State.cluster, Tab.get_set]
@[simp] theorem setCluster_cluster_self (s : State) (n : Nat) (v : Cluster) : (s.setCluster n v).cluster n = v := by simp [setCluster_cluster]

theorem setRegion_region (s : State) (n m : Nat) (v : Region) : (s.setRegion n v).region m = if m = n then v else s.region m := by
  simp [State.setRegion, State.region, Tab.get_set]
@[simp] theorem setRegion_region_self (s : State) (n : Nat) (v : Region) : (s.setRegion n v).region n = v := by simp [setRegion_region]

theorem setPage_page (s : State) (n m : Nat) (v : Page) : (s.setPage n v).page m = if m = n then v else s.page m := by
  simp [State.setPage, State.page, Tab.get_set]
@[simp] theorem setPage_page_self (s : State) (n : Nat) (v : Page) : (s.setPage n v).page n = v := by simp [setPage_page]

theorem setRun_run (s : State) (n m : Nat) (v : Run) : (s.setRun n v).run m = if m = n then v else s.run m := by
  simp [State.setRun, State.run, Tab.get_set]
@[simp] theorem setRun_run_self (s : State) (n : Nat) (v : Run) : (s.setRun n v).run n = v := by simp [setRun_run]

theorem setTenant_tenant (s : State) (n m : Nat) (v : Tenant) : (s.setTenant n v).tenant m = if m = n then v else s.tenant m := by
  simp [State.setTenant, State.tenant, Tab.get_set]
@[simp] theorem setTenant_tenant_self (s : State) (n : Nat) (v : Tenant) : (s.setTenant n v).tenant n = v := by simp [setTenant_tenant]

theorem setDie_die (s : State) (n m : Nat) (v : Die) : (s.setDie n v).die m = if m = n then v else s.die m := by
  simp [State.setDie, State.die, Tab.get_set]
@[simp] theorem setDie_die_self (s : State) (n : Nat) (v : Die) : (s.setDie n v).die n = v := by simp [setDie_die]

theorem setSlice_slice (s : State) (n m : Nat) (v : Slice) : (s.setSlice n v).slice m = if m = n then v else s.slice m := by
  simp [State.setSlice, State.slice, Tab.get_set]
@[simp] theorem setSlice_slice_self (s : State) (n : Nat) (v : Slice) : (s.setSlice n v).slice n = v := by simp [setSlice_slice]

/-! ## Reads that an update of another table leaves alone -/

@[simp] theorem setCluster_region_keeps (s : State) (c : Nat) (v : Cluster) (k : Nat) : (s.setCluster c v).region k = s.region k := rfl
@[simp] theorem setCluster_page_keeps (s : State) (c : Nat) (v : Cluster) (k : Nat) : (s.setCluster c v).page k = s.page k := rfl
@[simp] theorem setCluster_run_keeps (s : State) (c : Nat) (v : Cluster) (k : Nat) : (s.setCluster c v).run k = s.run k := rfl
@[simp] theorem setCluster_tenant_keeps (s : State) (c : Nat) (v : Cluster) (k : Nat) : (s.setCluster c v).tenant k = s.tenant k := rfl
@[simp] theorem setCluster_die_keeps (s : State) (c : Nat) (v : Cluster) (k : Nat) : (s.setCluster c v).die k = s.die k := rfl
@[simp] theorem setCluster_slice_keeps (s : State) (c : Nat) (v : Cluster) (k : Nat) : (s.setCluster c v).slice k = s.slice k := rfl

@[simp] theorem setRegion_cluster_keeps (s : State) (r : Nat) (v : Region) (k : Nat) : (s.setRegion r v).cluster k = s.cluster k := rfl
@[simp] theorem setRegion_page_keeps (s : State) (r : Nat) (v : Region) (k : Nat) : (s.setRegion r v).page k = s.page k := rfl
@[simp] theorem setRegion_run_keeps (s : State) (r : Nat) (v : Region) (k : Nat) : (s.setRegion r v).run k = s.run k := rfl
@[simp] theorem setRegion_tenant_keeps (s : State) (r : Nat) (v : Region) (k : Nat) : (s.setRegion r v).tenant k = s.tenant k := rfl
@[simp] theorem setRegion_die_keeps (s : State) (r : Nat) (v : Region) (k : Nat) : (s.setRegion r v).die k = s.die k := rfl
@[simp] theorem setRegion_slice_keeps (s : State) (r : Nat) (v : Region) (k : Nat) : (s.setRegion r v).slice k = s.slice k := rfl

@[simp] theorem setPage_cluster_keeps (s : State) (p : Nat) (v : Page) (k : Nat) : (s.setPage p v).cluster k = s.cluster k := rfl
@[simp] theorem setPage_region_keeps (s : State) (p : Nat) (v : Page) (k : Nat) : (s.setPage p v).region k = s.region k := rfl
@[simp] theorem setPage_run_keeps (s : State) (p : Nat) (v : Page) (k : Nat) : (s.setPage p v).run k = s.run k := rfl
@[simp] theorem setPage_tenant_keeps (s : State) (p : Nat) (v : Page) (k : Nat) : (s.setPage p v).tenant k = s.tenant k := rfl
@[simp] theorem setPage_die_keeps (s : State) (p : Nat) (v : Page) (k : Nat) : (s.setPage p v).die k = s.die k := rfl
@[simp] theorem setPage_slice_keeps (s : State) (p : Nat) (v : Page) (k : Nat) : (s.setPage p v).slice k = s.slice k := rfl

@[simp] theorem setRun_cluster_keeps (s : State) (r : Nat) (v : Run) (k : Nat) : (s.setRun r v).cluster k = s.cluster k := rfl
@[simp] theorem setRun_region_keeps (s : State) (r : Nat) (v : Run) (k : Nat) : (s.setRun r v).region k = s.region k := rfl
@[simp] theorem setRun_page_keeps (s : State) (r : Nat) (v : Run) (k : Nat) : (s.setRun r v).page k = s.page k := rfl
@[simp] theorem setRun_tenant_keeps (s : State) (r : Nat) (v : Run) (k : Nat) : (s.setRun r v).tenant k = s.tenant k := rfl
@[simp] theorem setRun_die_keeps (s : State) (r : Nat) (v : Run) (k : Nat) : (s.setRun r v).die k = s.die k := rfl
@[simp] theorem setRun_slice_keeps (s : State) (r : Nat) (v : Run) (k : Nat) : (s.setRun r v).slice k = s.slice k := rfl

@[simp] theorem setTenant_cluster_keeps (s : State) (t : Nat) (v : Tenant) (k : Nat) : (s.setTenant t v).cluster k = s.cluster k := rfl
@[simp] theorem setTenant_region_keeps (s : State) (t : Nat) (v : Tenant) (k : Nat) : (s.setTenant t v).region k = s.region k := rfl
@[simp] theorem setTenant_page_keeps (s : State) (t : Nat) (v : Tenant) (k : Nat) : (s.setTenant t v).page k = s.page k := rfl
@[simp] theorem setTenant_run_keeps (s : State) (t : Nat) (v : Tenant) (k : Nat) : (s.setTenant t v).run k = s.run k := rfl
@[simp] theorem setTenant_die_keeps (s : State) (t : Nat) (v : Tenant) (k : Nat) : (s.setTenant t v).die k = s.die k := rfl
@[simp] theorem setTenant_slice_keeps (s : State) (t : Nat) (v : Tenant) (k : Nat) : (s.setTenant t v).slice k = s.slice k := rfl

@[simp] theorem setDie_cluster_keeps (s : State) (d : Nat) (v : Die) (k : Nat) : (s.setDie d v).cluster k = s.cluster k := rfl
@[simp] theorem setDie_region_keeps (s : State) (d : Nat) (v : Die) (k : Nat) : (s.setDie d v).region k = s.region k := rfl
@[simp] theorem setDie_page_keeps (s : State) (d : Nat) (v : Die) (k : Nat) : (s.setDie d v).page k = s.page k := rfl
@[simp] theorem setDie_run_keeps (s : State) (d : Nat) (v : Die) (k : Nat) : (s.setDie d v).run k = s.run k := rfl
@[simp] theorem setDie_tenant_keeps (s : State) (d : Nat) (v : Die) (k : Nat) : (s.setDie d v).tenant k = s.tenant k := rfl
@[simp] theorem setDie_slice_keeps (s : State) (d : Nat) (v : Die) (k : Nat) : (s.setDie d v).slice k = s.slice k := rfl

@[simp] theorem setSlice_cluster_keeps (s : State) (n : Nat) (v : Slice) (k : Nat) : (s.setSlice n v).cluster k = s.cluster k := rfl
@[simp] theorem setSlice_region_keeps (s : State) (n : Nat) (v : Slice) (k : Nat) : (s.setSlice n v).region k = s.region k := rfl
@[simp] theorem setSlice_page_keeps (s : State) (n : Nat) (v : Slice) (k : Nat) : (s.setSlice n v).page k = s.page k := rfl
@[simp] theorem setSlice_run_keeps (s : State) (n : Nat) (v : Slice) (k : Nat) : (s.setSlice n v).run k = s.run k := rfl
@[simp] theorem setSlice_tenant_keeps (s : State) (n : Nat) (v : Slice) (k : Nat) : (s.setSlice n v).tenant k = s.tenant k := rfl
@[simp] theorem setSlice_die_keeps (s : State) (n : Nat) (v : Slice) (k : Nat) : (s.setSlice n v).die k = s.die k := rfl

@[simp] theorem setCtl_region_keeps (s : State) (c : Nat) (v : Ctl) (k : Nat) : (s.setCtl c v).region k = s.region k := rfl
@[simp] theorem setCtl_page_keeps (s : State) (c : Nat) (v : Ctl) (k : Nat) : (s.setCtl c v).page k = s.page k := rfl
@[simp] theorem setCtl_run_keeps (s : State) (c : Nat) (v : Ctl) (k : Nat) : (s.setCtl c v).run k = s.run k := rfl
@[simp] theorem setCtl_tenant_keeps (s : State) (c : Nat) (v : Ctl) (k : Nat) : (s.setCtl c v).tenant k = s.tenant k := rfl
@[simp] theorem setCtl_die_keeps (s : State) (c : Nat) (v : Ctl) (k : Nat) : (s.setCtl c v).die k = s.die k := rfl
@[simp] theorem setCtl_slice_keeps (s : State) (c : Nat) (v : Ctl) (k : Nat) : (s.setCtl c v).slice k = s.slice k := rfl

@[simp] theorem setCell_cluster_keeps (s : State) (r u : Nat) (v : Cell) (k : Nat) : (s.setCell r u v).cluster k = s.cluster k := rfl
@[simp] theorem setCell_page_keeps (s : State) (r u : Nat) (v : Cell) (k : Nat) : (s.setCell r u v).page k = s.page k := rfl
@[simp] theorem setCell_run_keeps (s : State) (r u : Nat) (v : Cell) (k : Nat) : (s.setCell r u v).run k = s.run k := rfl
@[simp] theorem setCell_tenant_keeps (s : State) (r u : Nat) (v : Cell) (k : Nat) : (s.setCell r u v).tenant k = s.tenant k := rfl
@[simp] theorem setCell_die_keeps (s : State) (r u : Nat) (v : Cell) (k : Nat) : (s.setCell r u v).die k = s.die k := rfl
@[simp] theorem setCell_slice_keeps (s : State) (r u : Nat) (v : Cell) (k : Nat) : (s.setCell r u v).slice k = s.slice k := rfl

@[simp] theorem setMn_cluster_keeps (s : State) (r : Nat) (v : MNode) (k : Nat) : (s.setMn r v).cluster k = s.cluster k := rfl
@[simp] theorem setMn_page_keeps (s : State) (r : Nat) (v : MNode) (k : Nat) : (s.setMn r v).page k = s.page k := rfl
@[simp] theorem setMn_run_keeps (s : State) (r : Nat) (v : MNode) (k : Nat) : (s.setMn r v).run k = s.run k := rfl
@[simp] theorem setMn_tenant_keeps (s : State) (r : Nat) (v : MNode) (k : Nat) : (s.setMn r v).tenant k = s.tenant k := rfl
@[simp] theorem setMn_die_keeps (s : State) (r : Nat) (v : MNode) (k : Nat) : (s.setMn r v).die k = s.die k := rfl
@[simp] theorem setMn_slice_keeps (s : State) (r : Nat) (v : MNode) (k : Nat) : (s.setMn r v).slice k = s.slice k := rfl

@[simp] theorem setXn_cluster_keeps (s : State) (r : Nat) (v : XNode) (k : Nat) : (s.setXn r v).cluster k = s.cluster k := rfl
@[simp] theorem setXn_page_keeps (s : State) (r : Nat) (v : XNode) (k : Nat) : (s.setXn r v).page k = s.page k := rfl
@[simp] theorem setXn_run_keeps (s : State) (r : Nat) (v : XNode) (k : Nat) : (s.setXn r v).run k = s.run k := rfl
@[simp] theorem setXn_tenant_keeps (s : State) (r : Nat) (v : XNode) (k : Nat) : (s.setXn r v).tenant k = s.tenant k := rfl
@[simp] theorem setXn_die_keeps (s : State) (r : Nat) (v : XNode) (k : Nat) : (s.setXn r v).die k = s.die k := rfl
@[simp] theorem setXn_slice_keeps (s : State) (r : Nat) (v : XNode) (k : Nat) : (s.setXn r v).slice k = s.slice k := rfl

@[simp] theorem setInp_cluster_keeps (s : State) (r p : Nat) (v : Port) (k : Nat) : (s.setInp r p v).cluster k = s.cluster k := rfl
@[simp] theorem setInp_page_keeps (s : State) (r p : Nat) (v : Port) (k : Nat) : (s.setInp r p v).page k = s.page k := rfl
@[simp] theorem setInp_run_keeps (s : State) (r p : Nat) (v : Port) (k : Nat) : (s.setInp r p v).run k = s.run k := rfl
@[simp] theorem setInp_tenant_keeps (s : State) (r p : Nat) (v : Port) (k : Nat) : (s.setInp r p v).tenant k = s.tenant k := rfl
@[simp] theorem setInp_die_keeps (s : State) (r p : Nat) (v : Port) (k : Nat) : (s.setInp r p v).die k = s.die k := rfl
@[simp] theorem setInp_slice_keeps (s : State) (r p : Nat) (v : Port) (k : Nat) : (s.setInp r p v).slice k = s.slice k := rfl

@[simp] theorem setOutp_cluster_keeps (s : State) (r p : Nat) (v : Port) (k : Nat) : (s.setOutp r p v).cluster k = s.cluster k := rfl
@[simp] theorem setOutp_page_keeps (s : State) (r p : Nat) (v : Port) (k : Nat) : (s.setOutp r p v).page k = s.page k := rfl
@[simp] theorem setOutp_run_keeps (s : State) (r p : Nat) (v : Port) (k : Nat) : (s.setOutp r p v).run k = s.run k := rfl
@[simp] theorem setOutp_tenant_keeps (s : State) (r p : Nat) (v : Port) (k : Nat) : (s.setOutp r p v).tenant k = s.tenant k := rfl
@[simp] theorem setOutp_die_keeps (s : State) (r p : Nat) (v : Port) (k : Nat) : (s.setOutp r p v).die k = s.die k := rfl
@[simp] theorem setOutp_slice_keeps (s : State) (r p : Nat) (v : Port) (k : Nat) : (s.setOutp r p v).slice k = s.slice k := rfl

@[simp] theorem setChan_cluster_keeps (s : State) (r c : Nat) (v : Chan) (k : Nat) : (s.setChan r c v).cluster k = s.cluster k := rfl
@[simp] theorem setChan_page_keeps (s : State) (r c : Nat) (v : Chan) (k : Nat) : (s.setChan r c v).page k = s.page k := rfl
@[simp] theorem setChan_run_keeps (s : State) (r c : Nat) (v : Chan) (k : Nat) : (s.setChan r c v).run k = s.run k := rfl
@[simp] theorem setChan_tenant_keeps (s : State) (r c : Nat) (v : Chan) (k : Nat) : (s.setChan r c v).tenant k = s.tenant k := rfl
@[simp] theorem setChan_die_keeps (s : State) (r c : Nat) (v : Chan) (k : Nat) : (s.setChan r c v).die k = s.die k := rfl
@[simp] theorem setChan_slice_keeps (s : State) (r c : Nat) (v : Chan) (k : Nat) : (s.setChan r c v).slice k = s.slice k := rfl

@[simp] theorem setQueue_cluster_keeps (s : State) (q : QueueId) (v : Queue) (k : Nat) : (s.setQueue q v).cluster k = s.cluster k := rfl
@[simp] theorem setQueue_region_keeps (s : State) (q : QueueId) (v : Queue) (k : Nat) : (s.setQueue q v).region k = s.region k := rfl
@[simp] theorem setQueue_page_keeps (s : State) (q : QueueId) (v : Queue) (k : Nat) : (s.setQueue q v).page k = s.page k := rfl
@[simp] theorem setQueue_run_keeps (s : State) (q : QueueId) (v : Queue) (k : Nat) : (s.setQueue q v).run k = s.run k := rfl
@[simp] theorem setQueue_die_keeps (s : State) (q : QueueId) (v : Queue) (k : Nat) : (s.setQueue q v).die k = s.die k := rfl
@[simp] theorem setQueue_slice_keeps (s : State) (q : QueueId) (v : Queue) (k : Nat) : (s.setQueue q v).slice k = s.slice k := rfl

@[simp] theorem setReg_region_keeps (s : State) (c : Nat) (n : Reg) (v : W64) (k : Nat) : (s.setReg c n v).region k = s.region k := rfl
@[simp] theorem setReg_page_keeps (s : State) (c : Nat) (n : Reg) (v : W64) (k : Nat) : (s.setReg c n v).page k = s.page k := rfl
@[simp] theorem setReg_run_keeps (s : State) (c : Nat) (n : Reg) (v : W64) (k : Nat) : (s.setReg c n v).run k = s.run k := rfl
@[simp] theorem setReg_tenant_keeps (s : State) (c : Nat) (n : Reg) (v : W64) (k : Nat) : (s.setReg c n v).tenant k = s.tenant k := rfl
@[simp] theorem setReg_die_keeps (s : State) (c : Nat) (n : Reg) (v : W64) (k : Nat) : (s.setReg c n v).die k = s.die k := rfl
@[simp] theorem setReg_slice_keeps (s : State) (c : Nat) (n : Reg) (v : W64) (k : Nat) : (s.setReg c n v).slice k = s.slice k := rfl

@[simp] theorem retire_region_keeps (s : State) (c : Nat) (k : Nat) : (s.retire c).region k = s.region k := rfl
@[simp] theorem retire_page_keeps (s : State) (c : Nat) (k : Nat) : (s.retire c).page k = s.page k := rfl
@[simp] theorem retire_run_keeps (s : State) (c : Nat) (k : Nat) : (s.retire c).run k = s.run k := rfl
@[simp] theorem retire_tenant_keeps (s : State) (c : Nat) (k : Nat) : (s.retire c).tenant k = s.tenant k := rfl
@[simp] theorem retire_die_keeps (s : State) (c : Nat) (k : Nat) : (s.retire c).die k = s.die k := rfl
@[simp] theorem retire_slice_keeps (s : State) (c : Nat) (k : Nat) : (s.retire c).slice k = s.slice k := rfl

@[simp] theorem retireWith_region_keeps (s : State) (c : Nat) (rd : Reg) (v : W64) (k : Nat) : (s.retireWith c rd v).region k = s.region k := rfl
@[simp] theorem retireWith_page_keeps (s : State) (c : Nat) (rd : Reg) (v : W64) (k : Nat) : (s.retireWith c rd v).page k = s.page k := rfl
@[simp] theorem retireWith_run_keeps (s : State) (c : Nat) (rd : Reg) (v : W64) (k : Nat) : (s.retireWith c rd v).run k = s.run k := rfl
@[simp] theorem retireWith_tenant_keeps (s : State) (c : Nat) (rd : Reg) (v : W64) (k : Nat) : (s.retireWith c rd v).tenant k = s.tenant k := rfl
@[simp] theorem retireWith_die_keeps (s : State) (c : Nat) (rd : Reg) (v : W64) (k : Nat) : (s.retireWith c rd v).die k = s.die k := rfl
@[simp] theorem retireWith_slice_keeps (s : State) (c : Nat) (rd : Reg) (v : W64) (k : Nat) : (s.retireWith c rd v).slice k = s.slice k := rfl

@[simp] theorem wait_region_keeps (s : State) (c : Nat) (k : Nat) : (s.wait c).region k = s.region k := rfl
@[simp] theorem wait_page_keeps (s : State) (c : Nat) (k : Nat) : (s.wait c).page k = s.page k := rfl
@[simp] theorem wait_run_keeps (s : State) (c : Nat) (k : Nat) : (s.wait c).run k = s.run k := rfl
@[simp] theorem wait_tenant_keeps (s : State) (c : Nat) (k : Nat) : (s.wait c).tenant k = s.tenant k := rfl
@[simp] theorem wait_die_keeps (s : State) (c : Nat) (k : Nat) : (s.wait c).die k = s.die k := rfl
@[simp] theorem wait_slice_keeps (s : State) (c : Nat) (k : Nat) : (s.wait c).slice k = s.slice k := rfl

@[simp] theorem pushJobs_cluster_keeps (s : State) (l : List Job) (k : Nat) : (s.pushJobs l).cluster k = s.cluster k := rfl
@[simp] theorem pushJobs_region_keeps (s : State) (l : List Job) (k : Nat) : (s.pushJobs l).region k = s.region k := rfl
@[simp] theorem pushJobs_page_keeps (s : State) (l : List Job) (k : Nat) : (s.pushJobs l).page k = s.page k := rfl
@[simp] theorem pushJobs_run_keeps (s : State) (l : List Job) (k : Nat) : (s.pushJobs l).run k = s.run k := rfl
@[simp] theorem pushJobs_tenant_keeps (s : State) (l : List Job) (k : Nat) : (s.pushJobs l).tenant k = s.tenant k := rfl
@[simp] theorem pushJobs_die_keeps (s : State) (l : List Job) (k : Nat) : (s.pushJobs l).die k = s.die k := rfl
@[simp] theorem pushJobs_slice_keeps (s : State) (l : List Job) (k : Nat) : (s.pushJobs l).slice k = s.slice k := rfl

@[simp] theorem addJob_cluster_keeps (s : State) (j : Job) (k : Nat) : (s.addJob j).cluster k = s.cluster k := rfl
@[simp] theorem addJob_region_keeps (s : State) (j : Job) (k : Nat) : (s.addJob j).region k = s.region k := rfl
@[simp] theorem addJob_page_keeps (s : State) (j : Job) (k : Nat) : (s.addJob j).page k = s.page k := rfl
@[simp] theorem addJob_run_keeps (s : State) (j : Job) (k : Nat) : (s.addJob j).run k = s.run k := rfl
@[simp] theorem addJob_tenant_keeps (s : State) (j : Job) (k : Nat) : (s.addJob j).tenant k = s.tenant k := rfl
@[simp] theorem addJob_die_keeps (s : State) (j : Job) (k : Nat) : (s.addJob j).die k = s.die k := rfl
@[simp] theorem addJob_slice_keeps (s : State) (j : Job) (k : Nat) : (s.addJob j).slice k = s.slice k := rfl

@[simp] theorem clearResv_cluster_keeps (s : State) (c : Nat) (k : Nat) : (s.clearResv c).cluster k = s.cluster k := rfl
@[simp] theorem clearResv_region_keeps (s : State) (c : Nat) (k : Nat) : (s.clearResv c).region k = s.region k := rfl
@[simp] theorem clearResv_page_keeps (s : State) (c : Nat) (k : Nat) : (s.clearResv c).page k = s.page k := rfl
@[simp] theorem clearResv_run_keeps (s : State) (c : Nat) (k : Nat) : (s.clearResv c).run k = s.run k := rfl
@[simp] theorem clearResv_tenant_keeps (s : State) (c : Nat) (k : Nat) : (s.clearResv c).tenant k = s.tenant k := rfl
@[simp] theorem clearResv_die_keeps (s : State) (c : Nat) (k : Nat) : (s.clearResv c).die k = s.die k := rfl
@[simp] theorem clearResv_slice_keeps (s : State) (c : Nat) (k : Nat) : (s.clearResv c).slice k = s.slice k := rfl

/-! ## Parts of a cluster, of a region, of a tenant -/

theorem setCtl_cluster (s : State) (c d : Nat) (v : Ctl) : (s.setCtl c v).cluster d = if d = c then { s.cluster c with ctl := v } else s.cluster d := by
  simp [State.setCtl, setCluster_cluster]

theorem setCtl_ctl (s : State) (c d : Nat) (v : Ctl) : (s.setCtl c v).ctl d = if d = c then v else s.ctl d := by
  unfold State.ctl
  rw [setCtl_cluster]
  split <;> rfl
@[simp] theorem setCtl_ctl_self (s : State) (c : Nat) (v : Ctl) : (s.setCtl c v).ctl c = v := by simp [setCtl_ctl]

theorem setCell_region (s : State) (r u k : Nat) (v : Cell) :
    (s.setCell r u v).region k = if k = r then { s.region r with cells := (s.region r).cells.set u v } else s.region k := by
  simp [State.setCell, setRegion_region]

theorem setCell_cell (s : State) (r u k w : Nat) (v : Cell) : (s.setCell r u v).cell k w = if k = r ∧ w = u then v else s.cell k w := by
  unfold State.cell
  rw [setCell_region]
  by_cases h : k = r
  · subst h; simp [Tab.get_set]
  · simp [h]
@[simp] theorem setCell_cell_self (s : State) (r u : Nat) (v : Cell) : (s.setCell r u v).cell r u = v := by simp [setCell_cell]
@[simp] theorem setCell_mn (s : State) (r u k : Nat) (v : Cell) : (s.setCell r u v).mn k = s.mn k := by
  unfold State.mn; rw [setCell_region]; split <;> simp_all
@[simp] theorem setCell_xn (s : State) (r u k : Nat) (v : Cell) : (s.setCell r u v).xn k = s.xn k := by
  unfold State.xn; rw [setCell_region]; split <;> simp_all

theorem setMn_region (s : State) (r k : Nat) (v : MNode) : (s.setMn r v).region k = if k = r then { s.region r with mn := v } else s.region k := by
  simp [State.setMn, setRegion_region]
theorem setMn_mn (s : State) (r k : Nat) (v : MNode) : (s.setMn r v).mn k = if k = r then v else s.mn k := by
  unfold State.mn; rw [setMn_region]; split <;> rfl
@[simp] theorem setMn_mn_self (s : State) (r : Nat) (v : MNode) : (s.setMn r v).mn r = v := by simp [setMn_mn]
@[simp] theorem setMn_cell (s : State) (r k u : Nat) (v : MNode) : (s.setMn r v).cell k u = s.cell k u := by
  unfold State.cell; rw [setMn_region]; split <;> simp_all
@[simp] theorem setMn_xn (s : State) (r k : Nat) (v : MNode) : (s.setMn r v).xn k = s.xn k := by
  unfold State.xn; rw [setMn_region]; split <;> simp_all

theorem setXn_region (s : State) (r k : Nat) (v : XNode) : (s.setXn r v).region k = if k = r then { s.region r with xn := v } else s.region k := by
  simp [State.setXn, setRegion_region]
theorem setXn_xn (s : State) (r k : Nat) (v : XNode) : (s.setXn r v).xn k = if k = r then v else s.xn k := by
  unfold State.xn; rw [setXn_region]; split <;> rfl
@[simp] theorem setXn_xn_self (s : State) (r : Nat) (v : XNode) : (s.setXn r v).xn r = v := by simp [setXn_xn]
@[simp] theorem setXn_cell (s : State) (r k u : Nat) (v : XNode) : (s.setXn r v).cell k u = s.cell k u := by
  unfold State.cell; rw [setXn_region]; split <;> simp_all
@[simp] theorem setXn_mn (s : State) (r k : Nat) (v : XNode) : (s.setXn r v).mn k = s.mn k := by
  unfold State.mn; rw [setXn_region]; split <;> simp_all

/-- A queue that was written reads back; another queue is as it was. -/
theorem setQueue_queue (s : State) (q r : QueueId) (v : Queue) : (s.setQueue q v).queue r = if r = q then v else s.queue r := by
  obtain ⟨t, l, n⟩ := q
  obtain ⟨t', l', n'⟩ := r
  unfold State.queue State.setQueue
  dsimp only []
  rw [setTenant_tenant]
  by_cases ht : t' = t
  · subst ht
    cases l <;> cases l' <;> simp [Tab.get_set]
  · simp [ht]
@[simp] theorem setQueue_queue_self (s : State) (q : QueueId) (v : Queue) : (s.setQueue q v).queue q = v := by simp [setQueue_queue]

/-! ## Controller registers -/

/-- x0 reads 0, whatever was written to it (R42, R43). -/
@[simp] theorem reg_zero (k : Ctl) : k.reg 0 = 0 := rfl

/-- A register that was written reads back unless it is x0; the others are as they were. -/
theorem setReg_reg (k : Ctl) (n m : Reg) (v : W64) : (k.setReg n v).reg m = if m = n ∧ n ≠ 0 then v else k.reg m := by
  by_cases hn : n = 0
  · simp [Ctl.setReg, hn]
  · by_cases hm : m = 0
    · subst hm
      have : ¬ ((0 : Reg) = n ∧ n ≠ 0) := fun h => hn h.1.symm
      rw [if_neg this]; rfl
    · by_cases h : m = n
      · subst h
        rw [if_pos ⟨rfl, hn⟩]
        unfold Ctl.setReg Ctl.reg
        rw [if_neg hn, if_neg hm]
        exact Vector.getElem_set_self ..
      · have : n.toNat ≠ m.toNat := fun e => h (BitVec.eq_of_toNat_eq e.symm)
        rw [if_neg (fun e => h e.1)]
        unfold Ctl.setReg Ctl.reg
        rw [if_neg hn, if_neg hm, if_neg hm]
        exact Vector.getElem_set_ne n.isLt m.isLt this

/-- Retiring changes the pc, instret and the run state of a controller alone (R42). -/
theorem retireWith_ctl (s : State) (c d : Nat) (rd : Reg) (v : W64) :
    (s.retireWith c rd v).ctl d = if d = c then ((s.ctl c).setReg rd v).retire else s.ctl d := by simp [State.retireWith, setCtl_ctl]
theorem retire_ctl (s : State) (c d : Nat) : (s.retire c).ctl d = if d = c then (s.ctl c).retire else s.ctl d := by simp [State.retire, setCtl_ctl]
@[simp] theorem retire_reg (k : Ctl) (n : Reg) : k.retire.reg n = k.reg n := rfl

end Sys2Proof.Machine
end

