-- ==== Sys2Proof/Laws/Cell.lean ====
section
/-! SUPPORT. Laws of a cell word's issue: when it does nothing, what popping its queues does, and what delivering adds. -/
namespace Sys2Proof.Machine

/-! ## The four queues of a unit -/

theorem qAt_qSet (v : Vector TokQ 4) (n m : Nat) (q : TokQ) (hn : n < 4) (hm : m < 4) : qAt (qSet v n q) m = if m = n then q else qAt v m := by
  have hn' : n % 4 = n := Nat.mod_eq_of_lt hn
  have hm' : m % 4 = m := Nat.mod_eq_of_lt hm
  simp only [qAt, qSet, hn', hm', Vector.getElem_set]
  by_cases h : n = m
  · subst h; simp
  · have : ¬ m = n := fun e => h e.symm
    simp [h, this]

/-! ## Issue -/

/-- A word issues where its stage holds an iteration and its guard is true (R67, R127). -/
theorem withIssue_issues (s : State) (stg : BitVec 3) (grd : BitVec 4) (k : Issue → State)
    (h : ((s.page (s.pageOf s.focus.region)).started stg.toNat &&
      guardVal (s.cell s.focus.region (if s.focus.unit < 64 then s.focus.unit else 0)).g grd) = true) :
    withIssue s stg grd k = k ⟨s.focus.region, s.focus.unit, s.pageOf s.focus.region, stg.toNat, (s.page (s.pageOf s.focus.region)).liveAt stg.toNat⟩ := by
  unfold withIssue
  dsimp only
  rw [if_pos h]

/-- Any other word does nothing (R67, R127). -/
theorem withIssue_idle (s : State) (stg : BitVec 3) (grd : BitVec 4) (k : Issue → State)
    (h : ((s.page (s.pageOf s.focus.region)).started stg.toNat &&
      guardVal (s.cell s.focus.region (if s.focus.unit < 64 then s.focus.unit else 0)).g grd) = false) :
    withIssue s stg grd k = s := by
  unfold withIssue
  dsimp only
  rw [if_neg (by simp [h])]

/-! ## Popping -/

/-- What popping input queues of one cell may change: those queues, and what the region's memory node has acquired (R34, R174). -/
structure CellFrame (s t : State) (rid u : Nat) : Prop where
  rest : t = { s with regions := t.regions, seq := t.seq }
  regions : ∀ r, r ≠ rid → t.region r = s.region r
  region : t.region rid = { s.region rid with cells := (t.region rid).cells, mn := (t.region rid).mn }
  node : t.mn rid = { s.mn rid with acqs := (t.mn rid).acqs, acqStamp := (t.mn rid).acqStamp }
  cells : ∀ w, w ≠ u → t.cell rid w = s.cell rid w

theorem CellFrame.refl (s : State) (rid u : Nat) : CellFrame s s rid u := ⟨rfl, fun _ _ => rfl, rfl, rfl, fun _ _ => rfl⟩

theorem CellFrame.trans {s t v : State} {rid u : Nat} (a : CellFrame s t rid u) (b : CellFrame t v rid u) : CellFrame s v rid u where
  rest := by rw [b.rest, a.rest]
  regions r h := by rw [b.regions r h, a.regions r h]
  region := by rw [b.region, a.region]
  node := by rw [b.node, a.node]
  cells w h := by rw [b.cells w h, a.cells w h]

/-- Writing a cell changes that cell alone. -/
theorem setCell_frame (s : State) (rid u : Nat) (c : Cell) : CellFrame s (s.setCell rid u c) rid u where
  rest := rfl
  regions r h := by rw [setCell_region]; simp [h]
  region := by rw [setCell_region]; simp
  node := by simp
  cells w h := by rw [setCell_cell]; simp [h]

/-- A new stamp of order changes nothing else. -/
theorem CellFrame.seq {s t : State} {rid u : Nat} (h : CellFrame s t rid u) (n : Nat) : CellFrame s { t with seq := n } rid u where
  rest := by rw [h.rest]
  regions := h.regions
  region := h.region
  node := h.node
  cells := h.cells

/-- A memory node that has acquired more. -/
theorem setMn_frame (s : State) (rid u : Nat) (l : List Rel) (n : Nat) :
    CellFrame s (s.setMn rid { s.mn rid with acqs := l, acqStamp := n }) rid u where
  rest := rfl
  regions r h := by rw [setMn_region]; simp [h]
  region := by simp only [setMn_region, if_true]
  node := by simp
  cells w _ := by simp

theorem acquireNode_frame (s : State) (rid u : Nat) (t : QTok) : CellFrame s (s.acquireNode rid t) rid u := by
  unfold State.acquireNode
  split
  · exact (setMn_frame s rid u _ _).seq _
  · exact CellFrame.refl s rid u

@[simp] theorem acquireNode_cell (s : State) (rid r w : Nat) (t : QTok) : (s.acquireNode rid t).cell r w = s.cell r w := by
  unfold State.acquireNode
  split
  · show (s.setMn rid _).cell r w = _
    simp
  · rfl

/-- Popping one input queue. -/
theorem popIn_spec (s : State) (rid u n : Nat) (hn : n < 4) :
    CellFrame s (s.popIn rid u n) rid u ∧
    (s.popIn rid u n).cell rid u = { s.cell rid u with ins := ((s.popIn rid u n).cell rid u).ins } ∧
    ∀ m, m < 4 → qAt ((s.popIn rid u n).cell rid u).ins m =
      if m = n ∧ (qAt (s.cell rid u).ins m).head?.isSome then (qAt (s.cell rid u).ins m).pop else qAt (s.cell rid u).ins m := by
  unfold State.popIn
  dsimp only
  cases h : (qAt (s.cell rid u).ins n).head? with
  | none =>
    refine ⟨CellFrame.refl s rid u, rfl, fun m _ => ?_⟩
    by_cases hm : m = n
    · subst hm; simp [h]
    · simp [hm]
  | some t =>
    refine ⟨(setCell_frame s rid u _).trans (acquireNode_frame _ rid u t), by simp, fun m hm => ?_⟩
    simp only [acquireNode_cell, setCell_cell_self, qAt_qSet _ _ _ _ hn hm]
    by_cases e : m = n
    · subst e; simp [h]
    · simp [e]

theorem eraseDups_nodup (l : List Nat) : l.eraseDups.Nodup := by
  have key : ∀ n (l : List Nat), l.length ≤ n → l.eraseDups.Nodup := by
    intro n
    induction n with
    | zero => intro l h; have : l = [] := by cases l <;> simp_all
              subst this; simp
    | succ n ih =>
      intro l h
      cases l with
      | nil => simp
      | cons a t =>
        rw [List.eraseDups_cons, List.nodup_cons]
        refine ⟨by simp [List.mem_eraseDups], ih _ ?_⟩
        have := List.length_filter_le (fun b => !b == a) t
        simp at h
        omega
  exact key l.length l (Nat.le_refl _)

theorem popFold_spec (rid u : Nat) (l : List Nat) (hl : ∀ n ∈ l, n < 4) (nd : l.Nodup) (s : State) :
    CellFrame s (l.foldl (fun s n => s.popIn rid u n) s) rid u ∧
    (l.foldl (fun s n => s.popIn rid u n) s).cell rid u = { s.cell rid u with ins := ((l.foldl (fun s n => s.popIn rid u n) s).cell rid u).ins } ∧
    ∀ m, m < 4 → qAt ((l.foldl (fun s n => s.popIn rid u n) s).cell rid u).ins m =
      if m ∈ l ∧ (qAt (s.cell rid u).ins m).head?.isSome then (qAt (s.cell rid u).ins m).pop else qAt (s.cell rid u).ins m := by
  induction l generalizing s with
  | nil => exact ⟨CellFrame.refl s rid u, rfl, fun m _ => by simp⟩
  | cons n t ih =>
    rw [List.nodup_cons] at nd
    obtain ⟨f1, c1, q1⟩ := popIn_spec s rid u n (hl n (by simp))
    obtain ⟨f2, c2, q2⟩ := ih (fun k hk => hl k (by simp [hk])) nd.2 (s.popIn rid u n)
    simp only [List.foldl_cons]
    refine ⟨f1.trans f2, by rw [c2, c1], fun m hm => ?_⟩
    rw [q2 m hm, q1 m hm]
    by_cases e : m = n
    · subst e; simp [nd.1]
    · simp [e]

theorem mem_poppedQueues (sels : List (BitVec 6)) (n : Nat) : n ∈ poppedQueues sels ↔ n < 4 ∧ ∃ v ∈ sels, v.toNat = 0x10 + n := by
  unfold poppedQueues
  rw [List.mem_eraseDups, List.mem_filterMap]
  constructor
  · rintro ⟨v, hv, h⟩
    split at h
    · rename_i hr
      simp only [Option.some.injEq] at h
      exact ⟨by omega, v, hv, by omega⟩
    · simp at h
  · rintro ⟨hn, v, hv, h⟩
    refine ⟨v, hv, ?_⟩
    rw [if_pos (by omega)]
    simp only [Option.some.injEq]; omega

/-- Popping the queues that a word's sources name: each once, in a live iteration (R34, R129). -/
theorem popSrcs_spec (s : State) (x : Issue) (sels : List (BitVec 6)) :
    CellFrame s (s.popSrcs x sels) x.rid x.unit ∧
    (s.popSrcs x sels).cell x.rid x.unit = { s.cell x.rid x.unit with ins := ((s.popSrcs x sels).cell x.rid x.unit).ins } ∧
    ∀ m, m < 4 → qAt ((s.popSrcs x sels).cell x.rid x.unit).ins m =
      if x.live = true ∧ (∃ v ∈ sels, v.toNat = 0x10 + m) ∧ (qAt (s.cell x.rid x.unit).ins m).head?.isSome
      then (qAt (s.cell x.rid x.unit).ins m).pop else qAt (s.cell x.rid x.unit).ins m := by
  unfold State.popSrcs
  cases hx : x.live with
  | false => exact ⟨CellFrame.refl s _ _, rfl, fun m _ => by simp⟩
  | true =>
    obtain ⟨f, c, q⟩ := popFold_spec x.rid x.unit (poppedQueues sels) (fun n hn => ((mem_poppedQueues sels n).mp hn).1) (eraseDups_nodup _) s
    refine ⟨f, c, fun m hm => ?_⟩
    simp only [if_true]
    rw [q m hm]
    simp [mem_poppedQueues, hm]

end Sys2Proof.Machine
end

