-- ==== Sys2Proof/Laws/Memory.lean ====
section
/-! SUPPORT. Laws of the byte memory: a read after a write, and that every operation keeps the canonical form. -/
namespace Sys2Proof.Machine

/-! ## A read after a write -/

theorem memSet_get_self {m : List Host.Cell} {lo : Nat} (h : memWfFrom lo m = true) (n : Nat) (v : Byte) : memGet (memSet m n v) n = v := by
  induction m generalizing lo with
  | nil => by_cases hv : v = unlisted <;> simp [memSet, memGet, hv]
  | cons p t ih =>
    obtain ⟨a, b⟩ := p
    simp only [memWfFrom, Bool.and_eq_true, decide_eq_true_eq] at h
    have below : ∀ (l : List Host.Cell) (k : Nat), memWfFrom k l = true → ∀ x, x < k → memGet l x = unlisted := by
      intro l
      induction l with
      | nil => intros; rfl
      | cons q l ihl =>
        obtain ⟨c, d⟩ := q
        intro k hk x hx
        simp only [memWfFrom, Bool.and_eq_true, decide_eq_true_eq] at hk
        have : c ≠ x := by omega
        simp [memGet, this, ihl (c + 1) hk.2 x (by omega)]
    by_cases h1 : n < a
    · have : a ≠ n := by omega
      by_cases hv : v = unlisted
      · simp [memSet, h1, hv, memGet, this, below t (a + 1) h.2 n (by omega)]
      · simp [memSet, h1, hv, memGet]
    · by_cases h2 : n = a
      · subst h2
        by_cases hv : v = unlisted
        · simp [memSet, hv, below t (n + 1) h.2 n (by omega)]
        · simp [memSet, hv, memGet]
      · have : a ≠ n := fun e => h2 e.symm
        simp [memSet, h1, h2, memGet, this, ih h.2]

theorem memSet_get_other (m : List Host.Cell) {n x : Nat} (v : Byte) (h : x ≠ n) : memGet (memSet m n v) x = memGet m x := by
  have h' : n ≠ x := fun e => h e.symm
  induction m with
  | nil => by_cases hv : v = unlisted <;> simp [memSet, memGet, hv, h']
  | cons p t ih =>
    obtain ⟨a, b⟩ := p
    by_cases h1 : n < a
    · by_cases hv : v = unlisted <;> simp [memSet, h1, hv, memGet, h']
    · by_cases h2 : n = a
      · subst h2
        by_cases hv : v = unlisted <;> simp [memSet, hv, memGet, h']
      · simp [memSet, h1, h2, memGet, ih]

/-! ## The canonical form -/

theorem memWfFrom_mono {m : List Host.Cell} {lo lo' : Nat} (h : memWfFrom lo m = true) (hl : lo' ≤ lo) : memWfFrom lo' m = true := by
  cases m with
  | nil => rfl
  | cons p t =>
    obtain ⟨a, b⟩ := p
    simp only [memWfFrom, Bool.and_eq_true, decide_eq_true_eq] at h ⊢
    exact ⟨⟨by omega, h.1.2⟩, h.2⟩

theorem memSet_wfFrom {m : List Host.Cell} {lo n : Nat} (v : Byte) (h : memWfFrom lo m = true) (hn : lo ≤ n) :
    memWfFrom lo (memSet m n v) = true := by
  induction m generalizing lo with
  | nil => by_cases hv : v = unlisted <;> simp [memSet, memWfFrom, hv, hn]
  | cons p t ih =>
    obtain ⟨a, b⟩ := p
    have h0 := h
    simp only [memWfFrom, Bool.and_eq_true, decide_eq_true_eq] at h
    by_cases h1 : n < a
    · by_cases hv : v = unlisted
      · simpa [memSet, h1, hv] using h0
      · simp only [memSet, h1, hv, if_true, if_false, memWfFrom, Bool.and_eq_true, decide_eq_true_eq]
        exact ⟨⟨hn, by simpa using hv⟩, ⟨⟨h1, h.1.2⟩, h.2⟩⟩
    · by_cases h2 : n = a
      · subst h2
        by_cases hv : v = unlisted
        · simpa [memSet, hv] using memWfFrom_mono h.2 (by omega)
        · simp only [memSet, Nat.lt_irrefl, hv, if_true, if_false, memWfFrom, Bool.and_eq_true, decide_eq_true_eq]
          exact ⟨⟨hn, by simpa using hv⟩, h.2⟩
      · simp only [memSet, h1, h2, if_false, memWfFrom, Bool.and_eq_true, decide_eq_true_eq]
        exact ⟨h.1, ih h.2 (by omega)⟩

theorem memFilter_wfFrom (f : Host.Cell → Bool) {m : List Host.Cell} {lo : Nat} (h : memWfFrom lo m = true) :
    memWfFrom lo (m.filter f) = true := by
  induction m generalizing lo with
  | nil => simpa using h
  | cons p t ih =>
    obtain ⟨a, b⟩ := p
    simp only [memWfFrom, Bool.and_eq_true, decide_eq_true_eq] at h
    by_cases hf : f (a, b) = true
    · simp only [List.filter_cons, hf, if_true, memWfFrom, Bool.and_eq_true, decide_eq_true_eq]
      exact ⟨h.1, ih h.2⟩
    · simp only [List.filter_cons, hf]
      exact ih (memWfFrom_mono h.2 (by omega))

/-- Writing a byte keeps the canonical form. -/
theorem memSet_wf {m : List Host.Cell} (h : Memory.wf m = true) (n : Nat) (v : Byte) : Memory.wf (memSet m n v) = true :=
  memSet_wfFrom v h (Nat.zero_le n)

/-- Keeping a part of memory keeps the canonical form. -/
theorem memFilter_wf {m : List Host.Cell} (h : Memory.wf m = true) (f : Host.Cell → Bool) : Memory.wf (m.filter f) = true :=
  memFilter_wfFrom f h

/-- Clearing a range keeps the canonical form. -/
theorem memClear_wf {m : List Host.Cell} (h : Memory.wf m = true) (lo n : Nat) : Memory.wf (memClear m lo n) = true :=
  memFilter_wf h _

/-- Writing bytes keeps the canonical form. -/
theorem memPut_wf {m : List Host.Cell} (h : Memory.wf m = true) (a : Nat) (l : List Byte) : Memory.wf (memPut m a l) = true := by
  induction l generalizing m a with
  | nil => simpa [memPut] using h
  | cons b t ih => simpa [memPut] using ih (memSet_wf h a b) (a + 1)

/-- Writing a list of cells keeps the canonical form. -/
theorem memSets_wf {m : List Host.Cell} (h : Memory.wf m = true) (base : Nat) (l : List Host.Cell) :
    Memory.wf (l.foldl (fun (m : List Host.Cell) (c : Host.Cell) => memSet m (base + c.1) c.2) m) = true := by
  induction l generalizing m with
  | nil => simpa using h
  | cons c t ih => simpa using ih (memSet_wf h (base + c.1) c.2)

/-- A write of bytes is read back, byte by byte. -/
theorem memPut_get {m : List Host.Cell} (h : Memory.wf m = true) (a : Nat) (l : List Byte) (x : Nat) :
    memGet (memPut m a l) x = if a ≤ x ∧ x < a + l.length then (l[x - a]?).getD 0 else memGet m x := by
  induction l generalizing m a with
  | nil => rw [memPut, if_neg (by simp only [List.length_nil]; omega)]
  | cons b t ih =>
    rw [memPut, ih (memSet_wf h a b)]
    by_cases hx : x = a
    · subst hx
      rw [if_neg (by omega), if_pos (by simp only [List.length_cons]; omega), memSet_get_self (lo := 0) h, Nat.sub_self]
      rfl
    · by_cases hr : a + 1 ≤ x ∧ x < a + 1 + t.length
      · have h2 : a ≤ x ∧ x < a + (b :: t).length := by simp only [List.length_cons]; omega
        have h3 : x - a = (x - (a + 1)) + 1 := by omega
        rw [if_pos hr, if_pos h2, h3, List.getElem?_cons_succ]
      · have h2 : ¬ (a ≤ x ∧ x < a + (b :: t).length) := by simp; omega
        simp only [hr, h2, if_false]
        exact memSet_get_other m b hx

/-! ## The operations that write memory keep its form -/

theorem dramPut_wf {s : State} (h : Memory.wf s.mem = true) (key a : Nat) (d : List Byte) : Memory.wf (s.dramPut key a d).mem = true := by
  unfold State.dramPut
  dsimp only
  split
  · exact memPut_wf h _ _
  · exact memPut_wf (memClear_wf h _ _) _ _

theorem dropLine_wf {s : State} (h : Memory.wf s.mem = true) (n : Nat) (l : Line) : Memory.wf (s.dropLine n l).mem = true := by
  unfold State.dropLine
  dsimp only
  split
  · exact dramPut_wf (by simpa using h) _ _ _
  · simpa using h

theorem fill_wf {s : State} (h : Memory.wf s.mem = true) (n : Nat) (l : Line) (evf : Bool) : Memory.wf (s.fill n l evf).mem = true := by
  unfold State.fill
  dsimp only
  rw [setSlice_mem]
  split
  · exact dropLine_wf (by simpa using h) _ _
  · simpa using h

theorem touchLine_mem (s : State) (n addr key : Nat) (evf : Bool) : (s.touchLine n addr key evf).mem = s.mem := by
  unfold State.touchLine
  dsimp only
  split <;> rfl

theorem sampleGauges_mem (s : State) (c ev v : Nat) (r : Option Nat) : (s.sampleGauges c ev v r).mem = s.mem := by
  unfold State.sampleGauges
  dsimp only
  split <;> rfl

theorem foldl_wf {α : Type} {f : State → α → State} (hf : ∀ s a, Memory.wf s.mem = true → Memory.wf (f s a).mem = true) {s : State}
    (h : Memory.wf s.mem = true) (l : List α) : Memory.wf (l.foldl f s).mem = true := by
  induction l generalizing s with
  | nil => simpa using h
  | cons a t ih => simpa using ih (hf s a h)

theorem sampleHbm_mem (s : State) (v : View) : (s.sampleHbm v).mem = s.mem := by
  unfold State.sampleHbm
  split
  · split
    · simp [sampleGauges_mem, State.free]
    · rfl
  · rfl

theorem dropStale_mem (s : State) (v : View) (home addr : Nat) : (s.dropStale v home addr).mem = s.mem := by
  unfold State.dropStale
  split <;> rfl

theorem dropAged_mem (s : State) (v : View) (pa : Nat) : (s.dropAged v pa).mem = s.mem := by
  unfold State.dropAged
  split
  · exact dropStale_mem s _ _ _
  · rfl

theorem tagGranule_wf {s : State} (h : Memory.wf s.mem = true) (key pa : Nat) : Memory.wf (s.tagGranule key pa).mem = true := by
  unfold State.tagGranule
  dsimp only
  split
  · exact h
  · exact memClear_wf h _ _

theorem readLine_wf {s : State} (h : Memory.wf s.mem = true) (v : View) (addr : Nat) : Memory.wf (s.readLine v addr).2.mem = true := by
  unfold State.readLine
  dsimp only
  refine foldl_wf (f := fun (s : State) n => s.fill n _ v.evf) (fun s n h => fill_wf h _ _ _) ?_ _
  split
  · simpa [touchLine_mem] using h
  · simpa [sampleHbm_mem] using h

theorem writeLine_wf {s : State} (h : Memory.wf s.mem = true) (v : View) (pa : Nat) (d : List Byte) : Memory.wf (s.writeLine v pa d).mem = true := by
  have h1 : ∀ home addr, Memory.wf ((s.dropStale v home addr).tagGranule v.key addr).mem = true := fun home addr =>
    tagGranule_wf (by rw [dropStale_mem]; exact h) _ _
  unfold State.writeLine
  dsimp only [State.updateCopies]
  rw [setSlice_mem]
  dsimp only
  refine foldl_wf (f := fun (s : State) n => s.touchLine n _ _ _) (fun s n h => by rw [touchLine_mem]; exact h) ?_ _
  split
  · exact h1 _ _
  · exact fill_wf (h1 _ _) _ _ _

theorem readSpan_wf {s : State} (h : Memory.wf s.mem = true) (v : View) (k pa n : Nat) : Memory.wf (s.readSpan v k pa n).2.mem = true := by
  induction k generalizing s pa n with
  | zero => simpa [State.readSpan] using h
  | succ k ih =>
    unfold State.readSpan
    split
    · exact h
    · dsimp only
      split
      · exact ih (readLine_wf h _ _) _ _
      · exact ih h _ _

/-- A read through the slices keeps the canonical form. -/
theorem readPhys_wf {s : State} (h : Memory.wf s.mem = true) (v : View) (pa n : Nat) : Memory.wf (s.readPhys v pa n).2.mem = true :=
  readSpan_wf h v _ pa n

theorem writeSpan_wf {s : State} (h : Memory.wf s.mem = true) (v : View) (k pa : Nat) (d : List Byte) : Memory.wf (s.writeSpan v k pa d).mem = true := by
  induction k generalizing s pa d with
  | zero => simpa [State.writeSpan] using h
  | succ k ih =>
    unfold State.writeSpan
    split
    · exact h
    · dsimp only
      refine ih ?_ _ _
      split
      · split
        · exact h
        · exact writeLine_wf h _ _ _
      · split
        · exact h
        · exact memPut_wf h _ _
      · exact memPut_wf h _ _

/-- A write through the slices keeps the canonical form. -/
theorem writePhys_wf {s : State} (h : Memory.wf s.mem = true) (v : View) (pa : Nat) (d : List Byte) : Memory.wf (s.writePhys v pa d).mem = true := by
  unfold State.writePhys
  exact writeSpan_wf (by simpa [State.breakResv] using h) v _ _ _

theorem writePieces_wf {s : State} (h : Memory.wf s.mem = true) (v : View) (l : List Piece) (d : List Byte) : Memory.wf (s.writePieces v l d).mem = true := by
  induction l generalizing s d with
  | nil => simpa [State.writePieces] using h
  | cons p t ih => simpa [State.writePieces] using ih (writePhys_wf h _ _ _) _

theorem tenantWrite_wf {s t : State} (h : Memory.wf s.mem = true) {tenant va : Nat} {d : List Byte} (e : s.tenantWrite tenant va d = .ok t) :
    Memory.wf t.mem = true := by
  unfold State.tenantWrite at e
  cases hp : s.tenantPieces tenant .write va d.length with
  | error x => simp [hp] at e
  | ok l =>
    simp only [hp] at e
    split at e
    · cases e
    · cases e
      exact writePieces_wf h _ _ _

theorem bulkPutPiece_wf {s : State} (h : Memory.wf s.mem = true) (p : Piece) (l : List Host.Cell) : Memory.wf (s.bulkPutPiece p l).mem = true := by
  unfold State.bulkPutPiece
  split
  · exact h
  dsimp only
  refine memSets_wf (memClear_wf ?_ _ _) _ _
  split <;> exact h

theorem bulkPut_wf {s : State} (h : Memory.wf s.mem = true) (off : Nat) (ps : List Piece) (l : List Host.Cell) : Memory.wf (s.bulkPut off ps l).mem = true := by
  induction ps generalizing s off with
  | nil => simpa [State.bulkPut] using h
  | cons p t ih => simpa [State.bulkPut] using ih (bulkPutPiece_wf h _ _) _

/-- A read-modify-write keeps the canonical form. -/
theorem atomic_wf {s : State} (h : Memory.wf s.mem = true) (v : View) (pa w sub : Nat) (uns : Bool) (b cmp : Nat) :
    Memory.wf (s.atomic v pa w sub uns b cmp).2.mem = true := by
  have h0 : Memory.wf (s.homeRead v pa (w / 8)).2.mem = true := readPhys_wf (by rw [dropAged_mem]; exact h) v _ _
  unfold State.atomic
  dsimp only
  split
  · exact writePhys_wf h0 _ _ _
  · exact h0

end Sys2Proof.Machine
end

