-- ==== Sys2Proof/Laws/Node.lean ====
section
/-! SUPPORT. Laws of a memory node's words: what popping its queues does, and what a release leaves of its coalescing buffer. -/
namespace Sys2Proof.Machine

/-- What popping input queues of one memory node may change: those queues, and what the node has acquired (R145, R174). -/
structure PopFrame (s t : State) (rid : Nat) : Prop where
  rest : t = { s with regions := t.regions, seq := t.seq }
  regions : ∀ r, r ≠ rid → t.region r = s.region r
  region : t.region rid = { s.region rid with mn := t.mn rid }
  node : t.mn rid = { s.mn rid with mi := (t.mn rid).mi, acqs := (t.mn rid).acqs, acqStamp := (t.mn rid).acqStamp }

theorem PopFrame.refl (s : State) (rid : Nat) : PopFrame s s rid := ⟨rfl, fun _ _ => rfl, rfl, rfl⟩

theorem PopFrame.trans {s t v : State} {rid : Nat} (a : PopFrame s t rid) (b : PopFrame t v rid) : PopFrame s v rid where
  rest := by rw [b.rest, a.rest]
  regions r h := by rw [b.regions r h, a.regions r h]
  region := by rw [b.region, a.region]
  node := by rw [b.node, a.node]

theorem PopFrame.seq {s t : State} {rid : Nat} (h : PopFrame s t rid) (n : Nat) : PopFrame s { t with seq := n } rid where
  rest := by rw [h.rest]
  regions := h.regions
  region := h.region
  node := h.node

/-- Writing a node's queues and what it has acquired changes no more than that. -/
theorem setMn_pop (s : State) (rid : Nat) (q : Vector TokQ 4) (l : List Rel) (n : Nat) :
    PopFrame s (s.setMn rid { s.mn rid with mi := q, acqs := l, acqStamp := n }) rid where
  rest := rfl
  regions r h := by rw [setMn_region]; simp [h]
  region := by rw [setMn_region, setMn_mn_self]; simp
  node := by simp

theorem acquireNode_pop (s : State) (rid : Nat) (t : QTok) : PopFrame s (s.acquireNode rid t) rid := by
  unfold State.acquireNode
  split
  · exact (setMn_pop s rid (s.mn rid).mi _ _).seq _
  · exact PopFrame.refl s rid

@[simp] theorem acquireNode_mi (s : State) (rid : Nat) (t : QTok) : ((s.acquireNode rid t).mn rid).mi = (s.mn rid).mi := by
  unfold State.acquireNode
  split
  · show ((s.setMn rid _).mn rid).mi = _
    simp
  · rfl

/-- Popping one input queue of a node. -/
theorem popMi_spec (s : State) (rid n : Nat) (hn : n < 4) :
    PopFrame s (s.popMi rid n) rid ∧
    ∀ m, m < 4 → qAt ((s.popMi rid n).mn rid).mi m =
      if m = n ∧ (qAt (s.mn rid).mi m).head?.isSome then (qAt (s.mn rid).mi m).pop else qAt (s.mn rid).mi m := by
  unfold State.popMi
  dsimp only
  cases h : (qAt (s.mn rid).mi n).head? with
  | none =>
    refine ⟨PopFrame.refl s rid, fun m _ => ?_⟩
    by_cases hm : m = n
    · subst hm; simp [h]
    · simp [hm]
  | some t =>
    refine ⟨(setMn_pop s rid _ (s.mn rid).acqs (s.mn rid).acqStamp).trans (acquireNode_pop _ rid t), fun m hm => ?_⟩
    simp only [acquireNode_mi, setMn_mn_self, qAt_qSet _ _ _ _ hn hm]
    by_cases e : m = n
    · subst e; simp [h]
    · simp [e]

theorem popMiFold_spec (rid : Nat) (l : List Nat) (hl : ∀ n ∈ l, n < 4) (nd : l.Nodup) (s : State) :
    PopFrame s (l.foldl (fun s n => s.popMi rid n) s) rid ∧
    ∀ m, m < 4 → qAt ((l.foldl (fun s n => s.popMi rid n) s).mn rid).mi m =
      if m ∈ l ∧ (qAt (s.mn rid).mi m).head?.isSome then (qAt (s.mn rid).mi m).pop else qAt (s.mn rid).mi m := by
  induction l generalizing s with
  | nil => exact ⟨PopFrame.refl s rid, fun m _ => by simp⟩
  | cons n t ih =>
    rw [List.nodup_cons] at nd
    obtain ⟨f1, q1⟩ := popMi_spec s rid n (hl n (by simp))
    obtain ⟨f2, q2⟩ := ih (fun k hk => hl k (by simp [hk])) nd.2 (s.popMi rid n)
    simp only [List.foldl_cons]
    refine ⟨f1.trans f2, fun m hm => ?_⟩
    rw [q2 m hm, q1 m hm]
    by_cases e : m = n
    · subst e; simp [nd.1]
    · simp [e]

/-- Popping the queues that a node word's sources name: each once, in a live iteration (R145). -/
theorem popNode_spec (s : State) (x : Issue) (sels : List (BitVec 6)) :
    PopFrame s (s.popNode x sels) x.rid ∧
    ∀ m, m < 4 → qAt ((s.popNode x sels).mn x.rid).mi m =
      if x.live = true ∧ (∃ v ∈ sels, v.toNat = 0x10 + m) ∧ (qAt (s.mn x.rid).mi m).head?.isSome
      then (qAt (s.mn x.rid).mi m).pop else qAt (s.mn x.rid).mi m := by
  unfold State.popNode
  cases hx : x.live with
  | false => exact ⟨PopFrame.refl s _, fun m _ => by simp⟩
  | true =>
    obtain ⟨f, q⟩ := popMiFold_spec x.rid (poppedQueues sels) (fun n hn => ((mem_poppedQueues sels n).mp hn).1) (eraseDups_nodup _) s
    refine ⟨f, fun m hm => ?_⟩
    simp only [if_true]
    rw [q m hm]
    simp [mem_poppedQueues, hm]

/-- What a word that pops and then sends, stores or takes a slot leaves of the rest of the region: everything. -/
theorem PopFrame.owns {s t : State} {rid : Nat} (h : PopFrame s t rid) (near : Bool) (a n : Nat) : t.owns rid near a n = s.owns rid near a n := by
  have e : t.region rid = { s.region rid with mn := t.mn rid } := h.region
  have f : (t.mn rid).held = (s.mn rid).held := by rw [h.node]
  unfold State.owns
  have g : (t.region rid).mn = t.mn rid := rfl
  rw [e]
  simp only [f]
  rfl

/-! ## Writing the coalescing buffer through (R159) -/

theorem flushLine_acqs (m : MNode) (l : CoalLine) : (m.flushLine l).acqs = m.acqs := rfl

/-- A release leaves the buffer empty and sends every line behind the node's far accesses, oldest first. -/
theorem flush_spec (m : MNode) :
    m.flush = { m with coal := [], far := m.far ++ m.coal.map (fun l => ⟨l.stamp, .line l.mask l.data, l.pa, l.key, l.stamp, m.acqs, false⟩) } := by
  have key : ∀ (ls : List CoalLine) (m : MNode), (∀ k ∈ m.coal, k ∈ ls) →
      ls.foldl MNode.flushLine m =
        { m with coal := [], far := m.far ++ ls.map (fun l => ⟨l.stamp, .line l.mask l.data, l.pa, l.key, l.stamp, m.acqs, false⟩) } := by
    intro ls
    induction ls with
    | nil =>
      intro m h
      have : m.coal = [] := List.eq_nil_iff_forall_not_mem.mpr (fun k hk => by simpa using h k hk)
      cases m
      subst this
      simp
    | cons l t ih =>
      intro m h
      simp only [List.foldl_cons]
      rw [ih]
      · simp [MNode.flushLine]
      · intro k hk
        simp only [MNode.flushLine, List.mem_filter] at hk
        rcases List.mem_cons.mp (h k hk.1) with e | e
        · subst e; simp at hk
        · exact e
  exact key m.coal m (fun k hk => hk)

end Sys2Proof.Machine
end

