-- ==== Sys2Proof/Tests/Slice0.lean ====
section
/-! SUPPORT. Tests: words of the spec decoded, ill-formed terms refused, single steps on the spec's worked examples, and for every
statement a state and operands that meet its hypotheses. -/
namespace Sys2Proof.Tests
set_option Elab.async false
open Sys2Proof.Machine Sys2Proof.Spec

/-! ## Decoding: words that the spec writes out -/

def decodes (n : Nat) (l : List (Nat × Instr)) : Bool := l.all (fun e => decodeTableWord n e.1 == some e.2)

/-- The encoding tables of the worked examples: float, integer, flow, loop and channel words of a cell. -/
theorem test_decode_cell_words : decodes 48 [
  (0x420E82010000, .fmul ⟨0, 7, 0x10, 0x10, 0, true, false, 0, 0, 0⟩),
  (0x432E8B61808C, .fma ⟨1, 7, 0x11, 0x1B, 0, true, true, 0, 0, 0x23, 0⟩),
  (0x260E8221007C, .dot4S8 ⟨0, 7, 0x10, 0x11, 0, true, false, 0, 0, 0x1F, 0⟩),
  (0x014E10A98000, .add ⟨2, 7, 0x02, 0x05, 4, true, true, 0, 0, 0⟩),
  (0x850EA0020300, .ismark ⟨0, 7, 0x14, 0, 1, false, false, 0, 3, 0⟩),
  (0x840200000300, .mark ⟨0, 1, 0, 0, 0, false, false, 0, 3, 0⟩),
  (0x800000000100, .out ⟨0, 0, 0, 0, 0, false, false, 0, 1, 0⟩),
  (0x300000010000, .li ⟨0, 0, 0, 0, true, false, 0, 0⟩),
  (0x900200000000, .exit ⟨0, 1, 0, 0, 0, false, false, 0, 0, 0⟩),
  (0x820000000002, .pop ⟨0, 0, 0, 0, 0, false, false, 0, 0, 2⟩),
  (0x912E00000100, .iter ⟨1, 7, 0, 0, 0, false, false, 0, 1, 0⟩),
  (0x1F40E0018000, .brev ⟨2, 0, 0x1C, 0, 0, true, true, 0, 0, 0⟩),
  (0x2E0E0BE50000, .sel ⟨0, 7, 0x01, 0x1F, 2, true, false, 0, 0, 0, 0⟩),
  (0x9A0F00600000, .tkalnc ⟨0, 7, 0x20, 0x03, 0, false, false, 0, 0, 0⟩),
  (0x982408000331, .chsend ⟨1, 2, 0x01, 0, 0, false, false, 0, 3, 0x31⟩),
  (0x990E00018003, .chrecv ⟨0, 7, 0, 0, 0, true, true, 0, 0, 3⟩)] = true := by decide +kernel

/-- The encoding examples of the memory node, and a matrix word by the layout of R30 and R37. -/
theorem test_decode_node_words : decodes 48 [
  (0xA22E84828102, .ldW ⟨1, 7, 0x10, 0x24, 1, false, true, 0, 1, 2⟩),
  (0xAB0E82208000, .atomW ⟨0, 7, 0x10, 0x11, 0, false, true, 0, 0, 0, 0⟩),
  (0xC2 * 2 ^ 40 + 1 * 2 ^ 37 + 7 * 2 ^ 33 + 0x18 * 2 ^ 27 + 9 * 2 ^ 19 + 2 * 2 ^ 17 + 3 * 2 ^ 7 + 1 * 2 ^ 3, .mxrow ⟨1, 7, 0x18, 9, 2, 3, 1, 0⟩)] = true := by
  decide +kernel

/-- The tables of custom instructions, a standard and a compressed instruction. -/
theorem test_decode_controller_words : decodes 32 [
  (0x02B5302B, .hten 0 10 11), (0x0005007B, .halt 10), (0x02B5007B, .evpost 10 11), (0x0005957B, .traprec 10 11),
  (0x00C5A57B, .svsave 10 11 12), (0x02C5A57B, .svload 10 11 12), (0x0405A57B, .svsize 10 11), (0x0605A57B, .svstat 10 11),
  (0x0005B57B, .preq 10 11), (0x0005C57B, .txlat 10 11), (0x00C5D57B, .gaugesel 10 11 12), (0x0205D57B, .gaugerd 10 11),
  (0x0405D07B, .gaugeclr 11), (0x0000455B, .tkrd 10), (0x0205C55B, .pkrd 10 11), (0x0405C55B, .tkdrf 10 11), (0x0005D55B, .tkaln 10 11),
  (0x00B562DB, .chopen 5 10 11), (0x020562DB, .chclose 5 10), (0x0405E55B, .chstat 10 11), (0x060A12DB, .pgwait 5 20 0),
  (0x0065028B, .stbind 5 10 6), (0x036A22DB, .tripset 5 20 22), (0x000A22DB, .gateopen 5 20), (0x066283AB, .semwait 7 5 6),
  (0x0005955B, .pgplace 10 11), (0x0607A28B, .cpyfire 5 15), (0x0005300B, .cpywait 0 10),
  (0x02A00513, .standardInstruction (.alui .addi 10 0 42)), (0x0085B503, .controllerLoad .ld 10 11 8)] = true ∧
  decodes 16 [(0x4501, .standardInstruction (.alui .addi 10 0 0)), (0x8082, .standardInstruction (.jalr 0 1 0))] = true := by decide +kernel

/-- The SIGNAL packet of the launch example, and an event packet by the layout of R377. -/
theorem test_decode_packets : decodes 512 [
  (0x0000001100000205 + 0x0000004000001000 * 2 ^ 64 + 2 ^ 128 + 2 ^ 192, .signalPacket ⟨2, 0x11, false⟩ 0x4000001000 1 1),
  (0x0B + 0x77 * 2 ^ 32 + 5 * 2 ^ 64 + 9 * 2 ^ 128, .eventPacket ⟨0, 0x77, false⟩ 5 9)] = true := by decide +kernel

/-- Words that name nothing are refused: a reserved opcode, opcode 0 with bits, an unused field, a packet of no type is kept by name. -/
theorem test_decode_refuses : decodeContext 0xFF0000000000 = .error .reservedOpcode ∧ decodeContext 0x000E00000000 = .error .zeroOpWithBits ∧
    decodeCustom 0x00C5007B = .error .unusedField ∧ decodeTableWord 512 0xEE = some (.badPacketType ⟨0, 0, false⟩ 0xEE) :=
  ⟨rfl, rfl, rfl, by decide +kernel⟩

/-! ## Well-formedness: a term that each check refuses -/

/-- A well-formed word, and one word for each code of R39 that a word can break by itself. -/
theorem test_wellformed :
    (Instr.add ⟨0, 7, 0x10, 0x11, 0, true, false, 0, 0, 0⟩).wf = true ∧
    (Instr.add ⟨0, 7, 0x1E, 0, 0, true, false, 0, 0, 64⟩).wf = false ∧
    (Instr.addc ⟨0, 7, 0x1D, 0, 0, true, false, 0, 0, 0, 0⟩).wf = false ∧
    (Instr.add ⟨0, 7, 0, 0, 0, true, false, 0, 0, 1⟩).wf = false ∧
    (Instr.add ⟨0, 7, 0, 0, 0, true, false, 1, 0, 0⟩).wf = false ∧
    (Instr.add ⟨0, 7, 0, 0, 0, true, false, 0, 1, 0⟩).wf = false ∧
    (Instr.cmpEq ⟨0, 7, 0, 0, 7, false, false, 0, 0, 0⟩).wf = false ∧
    (Instr.cmpEq ⟨0, 7, 0, 0, 0, true, false, 0, 0, 0⟩).wf = false ∧
    (Instr.add ⟨0, 15, 0, 0, 0, true, false, 0, 0, 0⟩).wf = false ∧
    (Instr.ismark ⟨0, 7, 0, 0, 0, false, false, 0, 0, 0⟩).wf = false ∧
    (Instr.addc ⟨0, 7, 0, 0, 0, true, false, 0, 0, 0, 2⟩).wf = false ∧
    (Instr.mxrow ⟨0, 7, 0x18, 0, 0, 0, 8, 0⟩).wf = false ∧
    (Instr.mxcfg ⟨0, 7, 0, 0, 2, 0, 0, 0⟩).wf = false ∧
    (Instr.handoverGive ⟨0, 7, 0, 0, 0, false, false, 0, 1, 0⟩).wf = false ∧
    (Instr.sealPacket ⟨0, 0, true⟩).wf = false ∧ (Instr.linkRead ⟨0, 0, 0, 0, 8, 0, 0, 0, true⟩).wf = false := by decide +kernel

/-! ## Single steps on the spec's worked examples -/

/-- Page 0 is open on region 0 with every stage live; cell (0,0) holds three values in q0 to q2. -/
def cellWith (a b c : W32) : State :=
  let s := State.reset.placeWord 0 0
  let k := s.cell 0 0
  s.setCell 0 0 { k with q := ((k.q.set 0 a).set 1 b).set 2 c, lfsr := 0x9E3779B9 }

def slotOf (i : Instr) (s : State) : Option (W32 × Nat) :=
  match exec i s with
  | .next t => (t.cell 0 0).slots.head?.map (fun sl => (sl.value, sl.dist))
  | _ => none

/-- A two-source word of q0 and q1, and a three-source one of q0 to q2. -/
def w2 (md imm : Nat) : C2 := ⟨0, 7, 0, 1, 3, true, false, 0, BitVec.ofNat 4 md, BitVec.ofNat 8 imm⟩
def w3 (mdx : Nat) : C3 := ⟨0, 7, 0, 1, 3, true, false, 0, 0, 2, BitVec.ofNat 2 mdx⟩

/-- The worked results of R79, R80, R83, R85 and R86: value and latency. -/
theorem test_integer_results :
    slotOf (.add (w2 8 0)) (cellWith 0x7F80FF01 0x01800101 0) = some (0x80000002, 1) ∧
    slotOf (.addSatS (w2 8 0)) (cellWith 0x7F80FF01 0x01800101 0) = some (0x7F800002, 1) ∧
    slotOf (.addSatZ (w2 8 0)) (cellWith 0x7F80FF01 0x01800101 0) = some (0x80FFFF02, 1) ∧
    slotOf (.subSatZ (w2 4 0)) (cellWith 0x00051234 0x00070034 0) = some (0x00001200, 1) ∧
    slotOf (.addc (w3 1)) (cellWith 0xFFFFFFFF 0 1) = some (1, 1) ∧
    slotOf (.addsh (w2 0 3)) (cellWith 0x00100000 0x25 0) = some (0x00100128, 1) ∧
    slotOf (.mulHiS (w2 0 0)) (cellWith 0xFFFFFFFE 3 0) = some (0xFFFFFFFF, 3) ∧
    slotOf (.mulHiZ (w2 0 0)) (cellWith 0xFFFFFFFE 3 0) = some (2, 3) ∧
    slotOf (.mulLo (w2 4 0)) (cellWith 0x00038000 0x00050002 0) = some (0x000F0000, 3) ∧
    slotOf (.dot4S8 (w3 0)) (cellWith 0x01020304 0xFF01FF01 0x10) = some (0x12, 3) ∧
    slotOf (.shrS (w2 8 0)) (cellWith 0x80F07F10 0x09040701 0) = some (0xC0FF0008, 1) ∧
    slotOf (.rot (w2 0 0)) (cellWith 0x80000001 0xFFFFFFFF 0) = some (0xC0000000, 1) ∧
    slotOf (.funnel (w3 0)) (cellWith 0x12345678 0x9ABCDEF0 0x14) = some (0x456789AB, 1) ∧
    slotOf (.bfxZ (w2 0 0)) (cellWith 0xABCD1234 0x0C1C 0) = some (0xA, 1) ∧
    slotOf (.bfxS (w2 0 0)) (cellWith 0xABCD1234 0x0C1C 0) = some (0xFFFFFFFA, 1) ∧
    slotOf (.bfi (w3 0)) (cellWith 0xABCD1234 5 0x0C1C) = some (0x5BCD1234, 1) ∧
    slotOf (.clmulLo (w2 0 0)) (cellWith 0x80000001 3 0) = some (0x80000003, 2) ∧
    slotOf (.clmulHi (w2 0 0)) (cellWith 0x80000001 3 0) = some (1, 2) := by decide +kernel

/-- The conversions of the worked table, and the stochastic rounding example: CVT.E4M3.F32.SR of 0.3. -/
theorem test_float_results :
    slotOf (.cvtBf16F32 (w2 0 0)) (cellWith 0x3F808000 0 0) = some (0x3F80, 2) ∧
    slotOf (.cvtBf16F32 (w2 0 0)) (cellWith 0x3F818000 0 0) = some (0x3F82, 2) ∧
    slotOf (.cvtE2m1F32 (w2 0 0)) (cellWith 0x40200000 0 0) = some (4, 2) ∧
    slotOf (.cvtE2m1F32 (w2 0 0)) (cellWith 0xBE800000 0 0) = some (8, 2) ∧
    slotOf (.cvtS32F32 (w2 0 0)) (cellWith 0x4F32D05E 0 0) = some (0x7FFFFFFF, 2) ∧
    slotOf (.cvtZ32F32 (w2 0 0)) (cellWith 0xBF800000 0 0) = some (0, 2) ∧
    slotOf (.cvtE4m3F32 (w2 4 0)) (cellWith 0x3E99999A 0 0) = some (0x29, 2) := by decide +kernel

/-- A controller of the placed run executes the bytes at its pc: ADDI a0, x0, 42. -/
theorem test_step_addi : (match step (State.reset.placeCode [0x13, 0x05, 0xA0, 0x02]) with
    | .next t => (t.ctl 0).reg 10 == 42 && (t.ctl 0).pc == 0x1004 | _ => false) = true := by decide +kernel

/-- The estimate of R303's worked example: after the sample O = -576 and R = -856; 600 ticks on, Est = -584. -/
theorem test_waggle_estimate :
    (({ Waggle.reset with off := -560, rate := -832, tlast := 4193312, seen := true } : Waggle).measure (-576) 4194336).rate = -856 ∧
    (({ Waggle.reset with off := -576, rate := -856, tlast := 4194336, seen := true } : Waggle).est 4194936) = -584 ∧
    ({ (Die.reset.setWaggle 0 { Waggle.reset with off := -576, rate := -856, tlast := 4194336, seen := true }) with tick := 4194936 } : Die).estimate 1 = 4194933 := by
  decide +kernel

/-- R411: the example's single fault. -/
theorem test_boot_march : bootMarch 0xC00000 [⟨133, 5, 0x1A3, 17, false⟩] [] [] = ⟨true, [(133, 0x8001A305)]⟩ ∧
    (march 0xC00000 [⟨133, 5, 0x1A3, 17, false⟩] [] [] 133).status = 0x80000102 ∧
    (march 0xC00000 [⟨133, 5, 0x1A3, 17, false⟩] [] [0x8001A305] 133).status = 0x80000000 := by decide +kernel

/-! ## Witnesses: a state and operands that meet the hypotheses of each statement -/

/-- A translation, read or decode that is right. -/
def isOk {ε α : Type} [DecidableEq α] (r : Except ε α) (x : α) : Bool := match r with | .ok y => decide (y = x) | .error _ => false
theorem ok_of {ε α : Type} [DecidableEq α] {r : Except ε α} {x : α} (h : isOk r x = true) : r = .ok x := by
  cases r with
  | ok y => simpa [isOk] using h
  | error e => simp [isOk] at h
theorem okPair_of {ε α σ : Type} [DecidableEq α] {r : Except ε α × σ} {x : α} (h : isOk r.1 x = true) : r = (.ok x, r.2) :=
  Prod.ext (ok_of h) rfl
def isErr {ε α : Type} (r : Except ε α) : Bool := match r with | .ok _ => false | .error _ => true
theorem err_of {ε α : Type} {r : Except ε α} (h : isErr r = true) : ∃ e, r = .error e := by
  cases r with
  | ok y => simp [isErr] at h
  | error e => exact ⟨e, rfl⟩
theorem exOk_of {ε α : Type} {r : Except ε α} (h : isErr r = false) : ∃ x, r = .ok x := by
  cases r with
  | ok y => exact ⟨y, rfl⟩
  | error e => simp [isErr] at h
theorem exOkPair_of {ε α σ : Type} {r : Except ε α × σ} (h : isErr r.1 = false) : ∃ x y, r = (.ok x, y) :=
  let ⟨x, hx⟩ := exOk_of h; ⟨x, r.2, Prod.ext hx rfl⟩
theorem exErrPair_of {ε α σ : Type} {r : Except ε α × σ} (h : isErr r.1 = true) : ∃ e y, r = (.error e, y) :=
  let ⟨x, hx⟩ := err_of h; ⟨x, r.2, Prod.ext hx rfl⟩
theorem issues_of {s : State} {stg : BitVec 3} {grd : BitVec 4}
    (h : ((s.page (s.pageOf s.focus.region)).started stg.toNat && guardVal (guardCell s).g grd) = true) : Issues s stg grd := by
  simpa [Issues] using h
theorem headsReady_of {s : State} {live : Bool} {pops : Nat → Bool}
    (h : ∀ n : Fin 4, (qAt (s.cell s.focus.region s.focus.unit).ins n.val).head?.isSome = true) : HeadsReady s live pops :=
  fun _ n hn _ => h ⟨n, hn⟩
theorem nodeHeadsReady_of {s : State} {pops : Nat → Bool}
    (h : ∀ n : Fin 4, (qAt (s.mn s.focus.region).mi n.val).head?.isSome = true) : NodeHeadsReady s pops :=
  fun n hn _ => h ⟨n, hn⟩

def tk (v : W32) : QTok := QTok.of ⟨v, 0, false, false⟩
def twoToks : TokQ := ⟨[tk 0x11, tk 0x12], 0⟩

/-- Cell (0,0) of the page of `cellWith`, with two tokens in each input queue. -/
def cellReady : State :=
  let s := cellWith 1 2 3
  s.setCell 0 0 { s.cell 0 0 with ins := Vector.replicate 4 twoToks }
/-- The same in a dead iteration, and with no iteration in the stage. -/
def deadly (s : State) : State := s.setPage 0 { s.page 0 with lm := 0 }
def idly (s : State) : State := s.setPage 0 { s.page 0 with sm := 0, lm := 0 }

/-- Words that pop queues: q0 of queue selectors 0x10 to 0x13, in stage 7, guard 7, 8-bit lanes. -/
def wq2 : C2 := ⟨7, 7, 0x10, 0x13, 15, true, true, 0, 8, 0xFF⟩
def wq3 : C3 := ⟨7, 7, 0x10, 0x11, 15, true, true, 0, 0, 0x13, 1⟩

theorem witness_IntegerWords :
    (wq2.mod.toNat / 4 ≤ 2 ∧ Issues cellReady wq2.stg wq2.grd ∧ (issue cellReady wq2.stg).live = true ∧
      HeadsReady cellReady true (named [wq2.sa, wq2.sb])) ∧
    (Issues (deadly cellReady) wq2.stg wq2.grd ∧ (issue (deadly cellReady) wq2.stg).live = false) ∧
    (Issues cellReady wq3.stg wq3.grd ∧ HeadsReady cellReady (issue cellReady wq3.stg).live (named [wq3.sa, wq3.sb, wq3.sc])) ∧
    Issues cellReady (⟨0, 7, 15, 0xFFFFF, true, true, 0, 0⟩ : Li).stg 7 :=
  ⟨⟨by decide, issues_of (by decide +kernel), by decide +kernel, headsReady_of (by decide +kernel)⟩,
   ⟨issues_of (by decide +kernel), by decide +kernel⟩, ⟨issues_of (by decide +kernel), headsReady_of (by decide +kernel)⟩,
   issues_of (by decide +kernel)⟩

theorem witness_FloatResultWords :
    (Issues cellReady wq2.stg wq2.grd ∧ HeadsReady cellReady (issue cellReady wq2.stg).live (named [wq2.sa, wq2.sb])) ∧
    (Issues cellReady wq3.stg wq3.grd ∧ HeadsReady cellReady (issue cellReady wq3.stg).live (named [wq3.sa, wq3.sb, wq3.sc])) :=
  ⟨⟨issues_of (by decide +kernel), headsReady_of (by decide +kernel)⟩, issues_of (by decide +kernel), headsReady_of (by decide +kernel)⟩

theorem witness_TestAndCompareWords :
    Issues cellReady wq2.stg wq2.grd ∧ HeadsReady cellReady (issue cellReady wq2.stg).live (named [wq2.sa, wq2.sb]) :=
  ⟨issues_of (by decide +kernel), headsReady_of (by decide +kernel)⟩

theorem witness_RoundOfDecodeIsIdentity : ∀ f : Fmt, f.width > 0 ∧
    (decodeF f false 1).isNan = false ∧ (decodeF f false 1).isInf = false := by
  intro f; cases f <;> decide +kernel

theorem witness_SlotAndTokenWords :
    Issues cellReady wq2.stg wq2.grd ∧ HeadsReady cellReady (issue cellReady wq2.stg).live (named [wq2.sa]) ∧
    HeadsReady cellReady (issue cellReady wq2.stg).live (fun n => wq2.imm8.getLsbD n) ∧
    (qAt (cellReady.cell cellReady.focus.region cellReady.focus.unit).ins ((0x11 : BitVec 6).toNat % 4)).nth? 1 = some (tk 0x12) :=
  ⟨issues_of (by decide +kernel), headsReady_of (by decide +kernel), headsReady_of (by decide +kernel), by decide +kernel⟩

/-- Channel 5 of run 0 into port 3 of page 0, with a token to take. -/
def chanReady : State :=
  let s := cellReady
  let s := s.setPage 0 { s.page 0 with handle := 2 }
  s.setRun 0 { s.run 0 with chans := [(5, { XChan.none with ppage := 1, cpage := 2, cport := 3, sendSt := 3, recvSt := 3, credits := 31, toks := [tk 7] })] }
def wch : C2 := ⟨0, 7, 0, 0, 0, true, true, 0, 0, 3⟩

theorem witness_ChannelWords :
    (Issues cellReady wq2.stg wq2.grd ∧ HeadsReady cellReady (issue cellReady wq2.stg).live (named [wq2.sa])) ∧
    (Issues chanReady wch.stg wch.grd ∧ (issue chanReady wch.stg).live = true ∧
      chanReady.chanAt (chanReady.pageOf chanReady.focus.region) (chanReady.sregOf chanReady.focus.region) (wch.imm8.toNat % 16) false =
        some (5, chanReady.chanOf (chanReady.page (chanReady.pageOf chanReady.focus.region)).run 5) ∧
      (chanReady.chanOf (chanReady.page (chanReady.pageOf chanReady.focus.region)).run 5).toks = tk 7 :: []) :=
  ⟨⟨issues_of (by decide +kernel), headsReady_of (by decide +kernel)⟩, issues_of (by decide +kernel), by decide +kernel, by decide +kernel, by decide +kernel⟩

theorem witness_IdleAndDeadWords :
    Idle (idly cellReady) 0 7 ∧ Idle (cellReady.setCell 0 0 { cellReady.cell 0 0 with g := Vector.replicate 7 false }) 0 3 ∧
    Issues (deadly cellReady) 0 7 ∧ (issue (deadly cellReady) 0).live = false :=
  ⟨.inl (by decide +kernel), .inr (by decide +kernel), issues_of (by decide +kernel), by decide +kernel⟩

/-- The memory node of the page of `cellWith` about to issue: two tokens in each queue, k0 the offset, near and far ranges of its own. -/
def nodeAt (off : W32) : State :=
  let s := cellWith 0 0 0
  let s := { s with focus := { s.focus with unit := 64 } }
  let r := s.region 0
  let s := s.setRegion 0 { r with k := (r.k.set 0 off).set 4 0x40100000, ranges := [⟨0, 0xC00000, 0, true, true⟩, ⟨0, 0x40000000, 2, false, true⟩] }
  s.setMn 0 { s.mn 0 with mi := Vector.replicate 4 twoToks, held := Vector.replicate 8 true }
/-- Base k0, index a dead selector's 0; queue-popping, and of k0 alone. -/
def wn2 : C2 := ⟨0, 7, 0x20, 0x2F, 3, true, true, 0, 0, 0⟩
def wn3 : C3 := ⟨0, 7, 0x20, 0x2F, 3, true, true, 0, 0, 0x13, 0⟩

/-- The last aligned range of each width that the scratchpad backs. -/
theorem witness_NearWords :
    (∀ e : Fin 3, let s := nodeAt (BitVec.ofNat 32 (State.reset.scrcap - 2 ^ e.val))
      Issues s wn2.stg wn2.grd ∧ (issue s wn2.stg).live = true ∧ NodeHeadsReady s (named [wn2.sa, wn2.sb]) ∧
      NodeHeadsReady s (named [wn3.sa, wn3.sb, wn3.sc]) ∧
      NearOk s (offset s wn2.stg wn2.sa wn2.sb (wn2.imm8.toNat % 4)) (2 ^ e.val) ∧
      s.owns s.focus.region true (offset s wn3.stg wn3.sa wn3.sb (wn3.mod.toNat % 4)) (2 ^ e.val) = true ∧
      NearOk s (s.nodeSrc (issue s wn3.stg) wn3.sa).toNat (2 ^ e.val)) ∧
    wn2.mod.getLsbD 3 = false ∧
    (nodeAt 0xFFFFFFFF).nodeSrc (issue (nodeAt 0xFFFFFFFF) 0) wn2.sa = 0xFFFFFFFF ∧ Issues (nodeAt 0xFFFFFFFF) 0 7 ∧
    (let s := nodeAt 5
     s.nodeSrc (issue s 0) wn2.sa ≠ 0xFFFFFFFF ∧
     NearOk s (((s.nodeSrc (issue s 0) wn2.sb).toNat + (s.nodeSrc (issue s 0) wn2.sa).toNat % 2 ^ (wn2.imm8.toNat % 32) * 32) % 2 ^ 32) 32) ∧
    -- the checks: one byte past the scratchpad, misaligned, not owned
    (∀ s ∈ [nodeAt (BitVec.ofNat 32 (State.reset.scrcap - 1)), nodeAt 1, (let s := nodeAt 0; s.setMn 0 { s.mn 0 with held := Vector.replicate 8 false })],
      Issues s 0 7 ∧ (issue s 0).live = true ∧ (s.region s.focus.region).holder.isSome = true ∧
      (s.run (s.page (s.pageOf s.focus.region)).run).err = none ∧
      (¬ NearOk s (offset s 0 wn3.sa wn3.sb 0) 2 ∨ s.owns s.focus.region true (offset s 0 wn3.sa wn3.sb 0) 2 = false)) := by
  refine ⟨fun e => ?_, by decide, by decide +kernel, issues_of (by decide +kernel), by unfold NearOk; decide +kernel, fun s hs => ?_⟩
  · revert e
    have h : ∀ e : Fin 3, let s := nodeAt (BitVec.ofNat 32 (State.reset.scrcap - 2 ^ e.val))
      (s.page (s.pageOf s.focus.region)).started 0 = true ∧ guardVal (guardCell s).g 7 = true ∧ (issue s wn2.stg).live = true ∧
      (∀ n : Fin 4, (qAt (s.mn s.focus.region).mi n.val).head?.isSome = true) ∧
      (offset s wn2.stg wn2.sa wn2.sb (wn2.imm8.toNat % 4) + 2 ^ e.val ≤ s.scrcap ∧ offset s wn2.stg wn2.sa wn2.sb (wn2.imm8.toNat % 4) % 2 ^ e.val = 0) ∧
      s.owns s.focus.region true (offset s wn3.stg wn3.sa wn3.sb (wn3.mod.toNat % 4)) (2 ^ e.val) = true ∧
      ((s.nodeSrc (issue s wn3.stg) wn3.sa).toNat + 2 ^ e.val ≤ s.scrcap ∧ (s.nodeSrc (issue s wn3.stg) wn3.sa).toNat % 2 ^ e.val = 0) := by
      decide +kernel
    intro e
    obtain ⟨h1, h2, h3, h4, h5, h6, h7⟩ := h e
    exact ⟨⟨h1, h2⟩, h3, nodeHeadsReady_of h4, nodeHeadsReady_of h4, h5, h6, h7⟩
  · simp only [List.mem_cons, List.not_mem_nil, or_false] at hs
    rcases hs with rfl | rfl | rfl <;>
    refine ⟨issues_of (by decide +kernel), by decide +kernel, by decide +kernel, by decide +kernel, ?_⟩ <;> unfold NearOk <;> decide +kernel

/-- The node with its far window 1 at 2^52, where no address is. -/
def topNode : State :=
  let s := nodeAt 64
  let r := s.region 0
  s.setRegion 0 { r with k := r.k.set 3 0x100000 }

theorem errPair_of {α β : Type} {x : Except α β × State} {a : α} (h : (match x.1 with | .error e => some e | .ok _ => none) = some a) : x = (.error a, x.2) := by
  obtain ⟨x, y⟩ := x
  cases x <;> simp_all

/-- The checks of every near form, at the first bytes past the scratchpad, misaligned, and not owned; the lookup by k0 misaligned. -/
theorem witness_NearAccessChecks :
    (∀ s ∈ [nodeAt (BitVec.ofNat 32 (State.reset.scrcap - 3)), nodeAt 1],
      (∀ w ∈ [2, 4], ¬ NearOk s (offset s 0 wn2.sa wn2.sb 0) w) ∧ ¬ NearOk s (s.nodeSrc (issue s 0) wn3.sa).toNat 4 ∧
      s.nodeSrc (issue s 0) 0x2F ≠ 0xFFFFFFFF ∧
      ¬ NearOk s (((s.nodeSrc (issue s 0) 0x20).toNat + (s.nodeSrc (issue s 0) 0x2F).toNat % 2 ^ (0 % 32) * 32) % 2 ^ 32) 32) ∧
    ¬ NearOk (nodeAt (BitVec.ofNat 32 State.reset.scrcap)) (offset (nodeAt (BitVec.ofNat 32 State.reset.scrcap)) 0 wn2.sa wn2.sb 0) 1 ∧
    Issues (nodeAt (BitVec.ofNat 32 State.reset.scrcap)) 0 7 ∧
    (∃ s₁, Issues topNode 0 7 ∧ (topNode.region topNode.focus.region).holder.isSome = true ∧
      (topNode.run (topNode.page (topNode.pageOf topNode.focus.region)).run).err = none ∧
      (topNode.popNode (issue topNode 0) [wn2.sa, wn2.sb]).farPlace (issue topNode 0) false
        (topNode.farBase (issue topNode 0) 1 + offset topNode 0 wn2.sa wn2.sb 0) 4 = (.error (.access, 2 ^ 52 + 64), s₁)) ∧
    (∃ s₁, (topNode.popNode (issue topNode 0) [wn3.sa, wn3.sb, wn3.sc]).farPlace (issue topNode 0) true
        (topNode.farBase (issue topNode 0) 1 + offset topNode 0 wn3.sa wn3.sb 0) 4 = (.error (.access, 2 ^ 52 + 64), s₁)) := by
  refine ⟨?_, by unfold NearOk; decide +kernel, issues_of (by decide +kernel), ⟨_, issues_of (by decide +kernel), by decide +kernel, by decide +kernel, errPair_of (by decide +kernel)⟩,
    ⟨_, errPair_of (by decide +kernel)⟩⟩
  unfold NearOk; decide +kernel

/-- A far load, atomic and store that translate to a line of HBM, the load and store in window 1, the store's last. -/
theorem witness_FarAndReleaseWords :
    (∃ p s₁, Issues (nodeAt 0x100000) 0 7 ∧ (issue (nodeAt 0x100000) 0).live = true ∧
      ((nodeAt 0x100000).popNode (issue (nodeAt 0x100000) 0) [wn2.sa, wn2.sb]).farPlace (issue (nodeAt 0x100000) 0) false
        ((nodeAt 0x100000).farBase (issue (nodeAt 0x100000) 0) 1 + offset (nodeAt 0x100000) 0 wn2.sa wn2.sb 0) 4 = (.ok p, s₁)) ∧
    (∃ p s₁, ((nodeAt 0x100000).popNode (issue (nodeAt 0x100000) 0) [0x24, wn3.sb, wn3.sc]).farPlace (issue (nodeAt 0x100000) 0) true
        ((nodeAt 0x100000).farBase (issue (nodeAt 0x100000) 0) (((nodeAt 0x100000).nodeSrc (issue (nodeAt 0x100000) 0) 0x24).toNat / 2 ^ 30) +
          ((nodeAt 0x100000).nodeSrc (issue (nodeAt 0x100000) 0) 0x24).toNat % 2 ^ 30) 4 = (.ok p, s₁)) ∧
    (∃ p s₁, (∀ l ∈ ((nodeAt 0x3FFFFFFC).mn (nodeAt 0x3FFFFFFC).focus.region).coal, l.data.length = 128) ∧ p.pa % 4 = 0 ∧
      ((nodeAt 0x3FFFFFFC).popNode (issue (nodeAt 0x3FFFFFFC) 0) [wn3.sa, wn3.sb, wn3.sc]).farPlace (issue (nodeAt 0x3FFFFFFC) 0) true
        ((nodeAt 0x3FFFFFFC).farBase (issue (nodeAt 0x3FFFFFFC) 0) 1 + offset (nodeAt 0x3FFFFFFC) 0 wn3.sa wn3.sb 0) 4 = (.ok p, s₁)) ∧
    (let s := nodeAt 64
     NodeHeadsReady s (named [wn3.sa, wn3.sb, wn3.sc]) ∧ wn3.mod.getLsbD 3 = false ∧ NearOk s (offset s wn3.stg wn3.sa wn3.sb 0) 4 ∧
     s.owns s.focus.region true (offset s wn3.stg wn3.sa wn3.sb 0) 4 = true ∧
     s.declares s.focus.region (wn2.imm8.toNat % 8) = true ∧ (s.mn s.focus.region).held[wn2.imm8.toNat % 8]? = some true) ∧
    (∃ u s₁ p, u = (nodeAt 0x80000).popNode (issue (nodeAt 0x80000) 0) [wn3.sa, wn3.sb, wn3.sc] ∧ (⟨0, 7, 0x20, 0x2F, 3, true, true, 0, 8, 0x13, 0⟩ : C3).mod.getLsbD 3 = true ∧
      (u.setMn (nodeAt 0x80000).focus.region (u.mn (nodeAt 0x80000).focus.region).flush).farPlace (issue (nodeAt 0x80000) 0) true
        ((nodeAt 0x80000).farBase (issue (nodeAt 0x80000) 0) 0 + offset (nodeAt 0x80000) 0 wn3.sa wn3.sb 0) 4 = (.ok p, s₁)) ∧
    (let s := (nodeAt 0).setMn 0 { (nodeAt 0).mn 0 with mi := Vector.replicate 4 ⟨[QTok.of ⟨0x484F0000, 0, true, false⟩], 0⟩ }
     Issues s 0 7 ∧ (qAt (s.mn s.focus.region).mi ((0x13 : BitVec 6).toNat % 4)).head? = some (QTok.of ⟨0x484F0000, 0, true, false⟩) ∧
     s.declares s.focus.region 0 = true) :=
  ⟨⟨⟨0x100000, 4, 1⟩, _, issues_of (by decide +kernel), by decide +kernel, okPair_of (by decide +kernel)⟩,
   ⟨⟨0x100000, 4, 1⟩, _, okPair_of (by decide +kernel)⟩,
   ⟨⟨0x3FFFFFFC, 4, 1⟩, _, by decide +kernel, by decide, okPair_of (by decide +kernel)⟩,
   ⟨nodeHeadsReady_of (by decide +kernel), by decide, by unfold NearOk; decide +kernel, by decide +kernel, by decide +kernel, by decide +kernel⟩,
   ⟨_, _, ⟨0x100000, 4, 1⟩, rfl, by decide, okPair_of (by decide +kernel)⟩,
   ⟨issues_of (by decide +kernel), by decide +kernel, by decide +kernel⟩⟩

/-- A matrix node configured for format `f`, with a row in a0 and a1 and 64 accumulate tokens. -/
def matrixAt (f : Nat) : State :=
  let s := cellWith 0 0 0
  let s := { s with focus := { s.focus with unit := 65 } }
  let r := s.region 0
  s.setRegion 0 { r with xn := { r.xn with cfmt := f, a0 := ⟨[⟨⟨[1], 0, 3⟩, 0⟩], 0⟩, a1 := ⟨[⟨⟨[2], 0, 4⟩, 0⟩], 0⟩, c := ⟨List.replicate 64 (tk 1), 0⟩ } }
def wmx : Mx := ⟨0, 7, 0, 0, 0, 5, 3, 0⟩

theorem witness_MatrixWords :
    (Issues (matrixAt (wmx.mfmt.toNat % 8)) wmx.stg wmx.grd ∧ (issue (matrixAt (wmx.mfmt.toNat % 8)) wmx.stg).live = true ∧
      wmx.mfmt.toNat % 8 = ((matrixAt (wmx.mfmt.toNat % 8)).xn (matrixAt (wmx.mfmt.toNat % 8)).focus.region).cfmt ∧
      ((matrixAt (wmx.mfmt.toNat % 8)).xn (matrixAt (wmx.mfmt.toNat % 8)).focus.region).a0.head? = some ⟨[1], 0, 3⟩ ∧
      ((matrixAt (wmx.mfmt.toNat % 8)).xn (matrixAt (wmx.mfmt.toNat % 8)).focus.region).a1.head? = some ⟨[2], 0, 4⟩ ∧
      64 ≤ ((matrixAt (wmx.mfmt.toNat % 8)).xn (matrixAt (wmx.mfmt.toNat % 8)).focus.region).c.toks.length) ∧
    (∃ f, Issues (matrixAt f) 0 7 ∧ ((matrixAt f).region (matrixAt f).focus.region).holder.isSome = true ∧
      ((matrixAt f).run ((matrixAt f).page ((matrixAt f).pageOf (matrixAt f).focus.region)).run).err = none ∧
      wmx.mfmt.toNat % 8 ≠ ((matrixAt f).xn (matrixAt f).focus.region).cfmt) :=
  ⟨⟨issues_of (by decide +kernel), by decide +kernel, by decide +kernel, by decide +kernel, by decide +kernel, by decide +kernel⟩,
   (wmx.mfmt.toNat + 1) % 8, issues_of (by decide +kernel), by decide +kernel, by decide +kernel, by decide +kernel⟩

/-- Controller 0 of the placed run, running at 0x1000 with an address in a0 and a value in a1. -/
def ctlAt (a : W64) : State :=
  let s := State.reset.placeTenant.placeRun
  s.setCtl 0 { Ctl.reset with st := .running, pc := 0x1000, x := (Ctl.reset.x.set 10 a).set 11 0x1122334455667788 }

/-- StandardInstructions: legal CSR reads and an illegal access; the other clauses have no hypotheses. -/
theorem witness_StandardInstructions :
    (0 = (ctlAt 0).focus.cluster) ∧ (∀ n ∈ [0xC00, 0xC01, 0xC02], (BitVec.ofNat 12 n).toNat ∈ [0xC00, 0xC01, 0xC02]) ∧
    (BitVec.ofNat 12 0xBFF).toNat ∉ [0xC00, 0xC01, 0xC02] ∧ (BitVec.ofNat 12 0xC03).toNat ∉ [0xC00, 0xC01, 0xC02] ∧
    takenSpec .bgeu 1 1 ∧ ¬ takenSpec .bltu 1 1 := by
  simp [takenSpec]; decide +kernel

theorem witness_TrapEntry : ((ctlAt 0).ctl 0).st = .running ∧ ((ctlAt 0).cluster 0).owner = some 0 ∧ ((ctlAt 0).run 0).err = none ∧
    (((ctlAt 0).setCtl 0 { (ctlAt 0).ctl 0 with st := .waiting }).ctl 0).st = .waiting := by decide +kernel

/-- The same, with a second leaf that maps the terabyte at 2^40 onto itself: the scratchpads and slice scratches. -/
def farAt (a : W64) : State :=
  let s := ctlAt a
  (s.setTenant 0 { s.tenant 0 with windows := [(0, ⟨0, 2 ^ 40⟩), (1, ⟨2 ^ 40, 2 ^ 40⟩)] }).plant 1 0x8008 (toBytes 8 0x1000000000F)

theorem uncached_of {p : Piece} (h : (match targetOf p.pa with | .hbm _ => false | _ => true) = true) : Uncached p := by
  intro d hd; simp [hd] at h

def heldLine : Line := ⟨0x2000, 0, 1, false, 0, List.replicate 128 7⟩

/-- Half of an access of cluster 0's controller has been made, the lower or the upper one. -/
def halfAt (hi : Bool) : State :=
  let s := farAt 0x10000000000
  s.setCtl 0 { s.ctl 0 with half := some ⟨0x10000000008, 0, hi, [1, 2, 3, 4]⟩ }

/-- A misaligned and an aligned address of every width; aligned ones that translate into HBM, where a copy stands in the home slice,
and outside it in the scratchpad of cluster 0; either half made. -/
theorem witness_ControllerAccesses :
    (∀ k ∈ [LoadKind.lh, .lhu, .lw, .lwu, .ld], ea (ctlAt 0x1001) 10 0 % loadBytes k ≠ 0) ∧ ((ctlAt 0x1001).ctl 0).half = none ∧
    (∀ k ∈ [StoreKind.sh, .sw, .sd], ea (ctlAt 0x1001) 10 0 % storeBytes k ≠ 0) ∧
    (∀ dbl : Bool, ((ctlAt 0x1001).reg 0 10).toNat % (if dbl then 8 else 4) ≠ 0) ∧
    (∃ p s₁ l, ¬ Uncached p ∧ p.pa % 4 = 0 ∧ (0 : Nat) / 64 = p.pa / 0x4000000000 ∧ ea (ctlAt 0x2000) 10 8 % storeBytes .sw = 0 ∧
      ((ctlAt 0x2000).setSlice (rootSlice 0) { (ctlAt 0x2000).slice (rootSlice 0) with lines := [heldLine] }).place 0
        ((ctlAt 0x2000).tenantOf 0) .write plainTarget (ea (ctlAt 0x2000) 10 8) 4 = (.ok [p], s₁) ∧ ((ctlAt 0x2000).die 0).fenced = false ∧
      (((ctlAt 0x2000).setSlice (rootSlice 0) { (ctlAt 0x2000).slice (rootSlice 0) with lines := [heldLine] }).slice (rootSlice 0)).line?
        (p.pa / 128 * 128) p.key = some l ∧ l.data.length = 128) ∧
    (∀ n ∈ [1, 2, 4, 8], ∀ kind ∈ [AccKind.read, .write], ∃ p s₁, Uncached p ∧ ea (farAt 0x10000000000) 10 8 % n = 0 ∧ ((farAt 0x10000000000).ctl 0).half = none ∧
      (farAt 0x10000000000).place 0 ((farAt 0x10000000000).tenantOf 0) kind plainTarget (ea (farAt 0x10000000000) 10 8) n = (.ok [p], s₁)) ∧
    (∀ hi, ∃ h, ((halfAt hi).ctl 0).half = some h ∧ h.hi = hi ∧ Uncached ⟨if h.hi then h.pa else h.pa + 4, 4, h.key⟩) := by
  have hu : Uncached ⟨0x10000000008, 0, 0⟩ := uncached_of (by decide +kernel)
  refine ⟨by decide +kernel, by decide +kernel, by decide +kernel, by decide +kernel, ⟨⟨0x2008, 4, 1⟩, _, heldLine, fun h => h 0 (by decide +kernel), by decide +kernel, by decide +kernel,
    by decide +kernel, okPair_of (by decide +kernel), by decide +kernel, by decide +kernel, by decide +kernel⟩,
    fun n hn k hk => ⟨⟨0x10000000008, n, 0⟩, _, fun d hd => hu d hd, ?_, by decide +kernel, okPair_of ?_⟩,
    fun hi => ⟨⟨0x10000000008, 0, hi, [1, 2, 3, 4]⟩, by cases hi <;> decide +kernel, rfl, ?_⟩⟩
  · revert n; decide +kernel
  · revert k; revert n; decide +kernel
  · cases hi <;> exact uncached_of (by decide +kernel)

theorem witness_ControllerAtomics :
    (∀ kind ∈ [AccKind.read, .write], ∃ p s₁, Uncached p ∧ ((farAt 0x10000000008).reg 0 10).toNat % 8 = 0 ∧
      (farAt 0x10000000008).place 0 ((farAt 0x10000000008).tenantOf 0) kind amoTarget ((farAt 0x10000000008).reg 0 10).toNat 8 = (.ok [p], s₁)) ∧
    ({ farAt 0x10000000008 with resvs := [(0, 0x10000000000)] } : State).resvs.find? 0 = some (0x10000000008 / 64 * 64) ∧
    (farAt 0x10000000008).resvs.find? 0 ≠ some (0x10000000008 / 64 * 64) := by
  refine ⟨fun k hk => ⟨⟨0x10000000008, 8, 0⟩, _, uncached_of (by decide +kernel), by decide +kernel, okPair_of ?_⟩, by decide +kernel, by decide +kernel⟩
  revert k; decide +kernel

/-- The line at 0x2000 stands in its home root slice. -/
def homeAt : State :=
  { (ctlAt 0x2000).setSlice (rootSlice 0) { (ctlAt 0x2000).slice (rootSlice 0) with lines := [heldLine] } with granules := (ctlAt 0x2000).granules.set 2 1 }

theorem homeCopy (n : Nat) : HomeCopy homeAt 0 ⟨0x2000, n, 1⟩ :=
  ⟨fun h => h 0 (by show targetOf 0x2000 = _; decide +kernel), by show homeAt.granules.find? (0x2000 / 4096) = some 1; decide +kernel,
    by show 0 / 64 = 0x2000 / 0x4000000000; decide +kernel, by decide +kernel, heldLine,
    by show (homeAt.slice (rootSlice (0 / 64))).line? (0x2000 / 128 * 128) 1 = _; decide +kernel, by decide +kernel⟩

/-- Both widths in HBM, read and written, with the reservation and without; and an address that no leaf maps. -/
theorem witness_HomeAtomicsAndRefusals :
    (∀ n ∈ [4, 8], ∀ kind ∈ [AccKind.read, .write], ∃ p s₁, HomeCopy homeAt 0 p ∧ p.pa % n = 0 ∧ (homeAt.reg 0 10).toNat % n = 0 ∧
      homeAt.place 0 (homeAt.tenantOf 0) kind amoTarget (homeAt.reg 0 10).toNat n = (.ok [p], s₁)) ∧
    ({ homeAt with resvs := [(0, 0x2000)] } : State).resvs.find? 0 = some (0x2000 / 64 * 64) ∧ homeAt.resvs.find? 0 ≠ some (0x2000 / 64 * 64) ∧
    (∀ n ∈ [1, 2, 4, 8], ∀ kind ∈ [AccKind.read, .write], ∃ e s₁, ((ctlAt 0x8000000000000).ctl 0).half = none ∧ ea (ctlAt 0x8000000000000) 10 0 % n = 0 ∧
      (ctlAt 0x8000000000000).place 0 ((ctlAt 0x8000000000000).tenantOf 0) kind plainTarget (ea (ctlAt 0x8000000000000) 10 0) n = (.error e, s₁) ∧
      (ctlAt 0x8000000000000).place 0 ((ctlAt 0x8000000000000).tenantOf 0) kind amoTarget ((ctlAt 0x8000000000000).reg 0 10).toNat n = (.error e, s₁)) := by
  refine ⟨fun n hn k hk => ⟨⟨0x2000, n, 1⟩, _, homeCopy n, ?_, ?_, okPair_of ?_⟩,
    by decide +kernel, by decide +kernel, fun n hn k hk => ?_⟩
  · revert n; decide +kernel
  · revert n; decide +kernel
  · revert k; revert n; decide +kernel
  · have h : ∀ n ∈ [1, 2, 4, 8], ∀ kind ∈ [AccKind.read, .write], ea (ctlAt 0x8000000000000) 10 0 % n = 0 ∧
        (ctlAt 0x8000000000000).place 0 ((ctlAt 0x8000000000000).tenantOf 0) kind plainTarget (ea (ctlAt 0x8000000000000) 10 0) n =
          (.error (.translation 0x8000000000000 1 1), ctlAt 0x8000000000000) ∧
        (ctlAt 0x8000000000000).place 0 ((ctlAt 0x8000000000000).tenantOf 0) kind amoTarget ((ctlAt 0x8000000000000).reg 0 10).toNat n =
          (.error (.translation 0x8000000000000 1 1), ctlAt 0x8000000000000) := by decide +kernel
    exact ⟨_, _, by decide +kernel, (h n hn k hk).1, (h n hn k hk).2.1, (h n hn k hk).2.2⟩

/-- The last scope that each form takes and the first that is illegal. -/
theorem witness_Fences : (0 = (ctlAt 0).focus.cluster) ∧ ((5 : Reg).toNat ≤ 5 ∧ 5 < (6 : Reg).toNat ∧ (4 : Reg).toNat ≤ 4 ∧ 4 < (5 : Reg).toNat) ∧
    (∀ scope : Fin 5, (0 : Nat) ∈ ((ctlAt 0).run ((ctlAt 0).runOf 0)).clusters ∧
      ((scope.val ≤ 1 ∧ (0 : Nat) = 0) ∨ (scope.val = 2 ∧ 0 / 4 = 0 / 4) ∨ (scope.val = 3 ∧ 0 / 64 = 0 / 64) ∨ scope.val = 4)) := by decide +kernel

/-- The same with a value in a1. -/
def regsAt (a b : W64) : State := let s := ctlAt a; s.setCtl 0 { s.ctl 0 with x := (s.ctl 0).x.set 11 b }
def farRegs (a b : W64) : State := let s := farAt a; s.setCtl 0 { s.ctl 0 with x := (s.ctl 0).x.set 11 b }

/-- The last semaphore, the widest scope, the cluster itself and the last of the run; a threshold just reached and just missed. -/
theorem witness_Semaphores :
    ((regsAt (BitVec.ofNat 64 (63 + 256 * 5 + 65536 * 255)) 1).reg 0 10).toNat = 63 + 256 * 5 + 65536 * 255 ∧ Names (regsAt 0 1) 0 255 0 ∧
    ((regsAt (BitVec.ofNat 64 (63 + 256 * 5 + 65536 * 2)) 1).reg 0 10).toNat = 63 + 256 * 5 + 65536 * 2 ∧ Names (regsAt 0 1) 0 2 128 ∧
    ((regsAt 63 1).reg 0 10).toNat < 64 ∧ 64 ≤ ((regsAt 64 1).reg 0 10).toNat ∧
    ((regsAt (63 + 256 * 5 + 4096) 0).reg 0 10).toNat = 63 + 256 * 5 + 4096 * 1 ∧
    ((regsAt 0 0).reg 0 11).toNat ≤ ((regsAt 0 0).sem 0 63).toNat ∧ ((regsAt 0 1).sem 0 63).toNat < ((regsAt 0 1).reg 0 11).toNat :=
  ⟨by decide +kernel, .inl ⟨rfl, rfl⟩, by decide +kernel, .inr ⟨by decide, by decide +kernel⟩, by decide +kernel, by decide +kernel, by decide +kernel,
   by decide +kernel, by decide +kernel⟩

/-- A record of zeros in the scratchpad of cluster 0: an arrival that completes its phase, and one that is too many; the last phase
that lets BARWAIT go and the first that does not. -/
theorem witness_Barriers :
    (∀ kind ∈ [AccKind.read, .write], ∃ p s₁, Uncached p ∧ ((farRegs 0x10000000020 0).reg 0 10).toNat % 32 = 0 ∧
      (farRegs 0x10000000020 0).place 0 ((farRegs 0x10000000020 0).tenantOf 0) kind (barAllowed 0) ((farRegs 0x10000000020 0).reg 0 10).toNat 32 = (.ok [p], s₁)) ∧
    ((farRegs 0 (2 ^ 24 - 1 + 2 ^ 24 * 7)).reg 0 11).toNat = (2 ^ 24 - 1) + 2 ^ 24 * 7 ∧
    (∀ o ∈ [0, 4, 8, 16, 24], littleEndian (farRegs 0 0).mem (0x10000000020 + o) 4 = 0) ∧ ((farRegs 0 0).cluster 0).owner = some 0 ∧
    ((farRegs 0 0).run 0).err = none ∧
    (let past (v : Nat) := (0 + 2 ^ 32 - v) % 2 ^ 32
     1 ≤ past (2 ^ 31) ∧ past (2 ^ 31) ≤ 2 ^ 31 ∧ past 0 = 0 ∧ 2 ^ 31 < past (2 ^ 31 - 1)) := by
  refine ⟨fun k hk => ⟨⟨0x10000000020, 32, 0⟩, _, uncached_of (by decide +kernel), by decide +kernel, okPair_of ?_⟩, by decide +kernel, by decide +kernel,
    by decide +kernel, by decide +kernel, by decide⟩
  revert k; decide +kernel

theorem witness_Messages :
    Names (regsAt 0 0) 0 255 0 ∧ Names (regsAt 0 0) 0 1 64 ∧
    ((regsAt (BitVec.ofNat 64 (1 + 256 * 255 + 65536 * 1 + 2 ^ 17 * 5)) 0).reg 0 10).toNat = 1 + 256 * 255 + 65536 * 1 + 2 ^ 17 * 5 ∧
    (∀ sg < 2, ((farRegs 0x10000000004 (BitVec.ofNat 64 ((2 ^ 32 - 1) + 63 * 2 ^ 32 + sg * 2 ^ 38 + 5 * 2 ^ 40 + 255 * 2 ^ 48))).reg 0 11).toNat =
      (2 ^ 32 - 1) + 63 * 2 ^ 32 + sg * 2 ^ 38 + 5 * 2 ^ 40 + 255 * 2 ^ 48) ∧
    (∃ p s₁, Uncached p ∧ ((farRegs 0x10000000004 0).reg 0 10).toNat % 4 = 0 ∧
      (farRegs 0x10000000004 0).place 0 ((farRegs 0x10000000004 0).tenantOf 0) .write (sigAllowed (farRegs 0x10000000004 0) 0)
        ((farRegs 0x10000000004 0).reg 0 10).toNat 4 = (.ok [p], s₁)) :=
  ⟨.inl ⟨rfl, rfl⟩, .inr ⟨by decide, by decide +kernel⟩, by decide +kernel, by decide +kernel,
   ⟨0x10000000004, 4, 0⟩, _, uncached_of (by decide +kernel), by decide +kernel, okPair_of (by decide +kernel)⟩

/-- The last tag; the largest mailbox that ends with the scratchpad; the last word of pending bits. -/
theorem witness_HandlerInstructions :
    ((regsAt 255 0).reg 0 10).toNat < 256 ∧ ((regsAt 255 0).cluster 0).park = [] ∧
    (let mb := State.reset.scrcap / 16 - 2 ^ 12
     mb < 2 ^ 20 ∧ 16 * mb + 16 * 2 ^ 12 ≤ (regsAt 255 0).scrcap ∧
     ((regsAt 255 (BitVec.ofNat 64 (16 * mb + 12 * 2 ^ 24 + true.toNat * 2 ^ 28 + 63 * 2 ^ 32 + true.toNat * 2 ^ 38))).reg 0 11).toNat =
      16 * mb + 12 * 2 ^ 24 + true.toNat * 2 ^ 28 + 63 * 2 ^ 32 + true.toNat * 2 ^ 38) ∧
    ((regsAt 255 (1 + 2 + 0xFFFF * 2 ^ 16)).reg 0 11).toNat = true.toNat + 2 * true.toNat + 0xFFFF * 2 ^ 16 ∧
    ((regsAt 3 0).reg 0 10).toNat < 4 := by decide +kernel

/-- A message of cluster 0 on its way to cluster 64, behind one to another cluster. -/
def msgAt (k : MsgKind) (run : Nat) : State :=
  { regsAt 0 0 with msgs := [⟨7, 0, 0, 128, .add 0 1⟩, ⟨8, 0, run, 64, k⟩], focus := { Focus.none with num := 8 } }
theorem nextMessage_msgAt (k : MsgKind) (run : Nat) : NextMessage (msgAt k run) [⟨7, 0, 0, 128, .add 0 1⟩] ⟨8, 0, run, 64, k⟩ [] :=
  ⟨rfl, rfl, by simp, by simp⟩
def parkMsg (tag : Nat) : ParkMsg := ⟨0x55, tag, true, 3, 0⟩
def readyHandler : Handler := ⟨0x100, 2, true, true, 1, 5, 9, true⟩
def parkedAt (n : Nat) (tag : Nat) : State :=
  let s := msgAt (.handler (parkMsg tag)) 0
  s.setCluster 64 { s.cluster 64 with handlers := [(3, readyHandler)], park := List.replicate n (parkMsg 4) }

/-- Each kind of message, to a cluster of its run and to one whose run has ended; a ready entry, and one that parks the eighth and the
ninth message. -/
theorem witness_MessageArrivals :
    (∀ k ∈ [MsgKind.add 63 1, .wake 63 1, .trigger 15 (tk 1), .handler (parkMsg 3)],
      ((msgAt k 0).cluster 64).owner = some 0 ∧ ((msgAt k 9).cluster 64).owner ≠ some 9) ∧
    (let s := parkedAt 7 3
     (s.cluster 64).owner = some 0 ∧ (s.handler 64 3).valid = true ∧ (s.handler 64 3).en = true ∧ 0 < (s.handler 64 3).cred ∧
     (∀ k ∈ (s.cluster 64).park, k.tag ≠ 3) ∧ (s.handler 64 3).mbase + 16 * 2 ^ (s.handler 64 3).logn ≤ 2 ^ 24) ∧
    (((parkedAt 7 4).handler 64 4).valid = false ∧ ((parkedAt 7 4).cluster 64).park.length < 8) ∧
    (((parkedAt 8 4).handler 64 4).valid = false ∧ 8 ≤ ((parkedAt 8 4).cluster 64).park.length) := by decide +kernel

/-- The slices of cluster 0's path, their ways and retention registers given to tenant 0 or to none. -/
def sliceAt (a b : W64) (own : Byte) : State :=
  let s := regsAt a b
  [0, 16, 20].foldl (fun s n => s.setSlice n { s.slice n with wayOwn := Vector.replicate 16 own, retOwn := Vector.replicate 8 own }) s

theorem witness_CachesAndRetention :
    (∀ level < 3, ((sliceAt (BitVec.ofNat 64 level) 0x00555555 0).reg 0 10).toNat ≤ 2 ∧
      (∀ w < 16, let s := sliceAt (BitVec.ofNat 64 level) 0x00555555 0
        (s.reg 0 11).toNat / 4 ^ w % 4 ≠ 3 ∧
        ((s.slice (pathSlice 0 level)).ownerOf w = s.tenantOf 0 ∧ (s.slice (pathSlice 0 level)).mode w ≠ 2))) ∧
    4 ≤ (List.range 16).countP (fun w => ((sliceAt 0 0x00555555 0).reg 0 11).toNat / 4 ^ w % 4 == 0) ∧
    (∃ l s₁, ((sliceAt 0x3000 (256 + 4 * 2 ^ 48) 0).reg 0 11).toNat = 256 + 4 * 2 ^ 48 ∧ l ≠ [] ∧
      (sliceAt 0x3000 (256 + 4 * 2 ^ 48) 0).hbmPieces 0 ((sliceAt 0x3000 (256 + 4 * 2 ^ 48) 0).reg 0 10).toNat 256 = (.ok l, s₁)) ∧
    (∀ level < 3, ∃ e s₁, (let s := sliceAt 0x3000 (BitVec.ofNat 64 (256 + level * 2 ^ 48)) 0
      s.leafFor 0 (s.tenantOf 0) (s.reg 0 10).toNat = (.ok e, s₁) ∧ targetOf (e.pa + ((s.reg 0 10).toNat - e.va)) = .hbm 0 ∧
      (s.reg 0 10).toNat + 256 ≤ e.va + e.size ∧ (((s.slice (pathSlice 0 level)).retOwn[0]?).map (·.toNat) = some (s.tenantOf 0) ∧
      (s.slice (pathSlice 0 level)).retValid[0]? = some false) ∧ (s.reg 0 11).toNat = 256 + level * 2 ^ 48)) ∧
    (∀ i < 8, (((sliceAt 0x3000 256 0xFF).slice 0).retOwn[i]?).map (·.toNat) ≠ some ((sliceAt 0x3000 256 0xFF).tenantOf 0)) ∧
    ((sliceAt (2 + 4 * 7) 0 0).reg 0 10).toNat = 2 + 4 * 7 := by
  refine ⟨by decide +kernel, by decide +kernel, ⟨[⟨0x3000, 256, 1⟩], _, by decide +kernel, by simp, okPair_of (by decide +kernel)⟩,
    fun level h => ⟨⟨0, 2 ^ 40, 0, true, true, 1⟩, _, okPair_of ?_, ?_⟩, by decide +kernel, by decide +kernel⟩ <;> revert level <;> decide +kernel

/-- A list of bytes with fields of n bytes set at offsets. -/
def bytesWith (len : Nat) (l : List (Nat × Nat × Nat)) : List Byte :=
  (List.range len).map (fun i => ((l.find? (fun e => e.1 ≤ i && decide (i < e.1 + e.2.1))).map (fun e => BitVec.ofNat 8 (e.2.2 / 256 ^ (i - e.1)))).getD 0)
def holding (pa : Nat) (d : List Byte) (s : State) : State := s.plant 1 pa d

/-- Run 0 with one loaded graph, of one page of wave 5 with port 0 declared `shape=none`, and its page 0 in cluster 0. -/
def graph0 : Graph := { Graph.none with state := 2, pages := [⟨0, 0, 5, 0, 1, 1⟩, ⟨0, 0, 5, 0, 1, 1⟩], binds := [⟨0, 0, 0, true, 0⟩, ⟨0, 16, 0, true, 0⟩, ⟨0, 20, 0, true, 0⟩, ⟨1, 0, 0, true, 0⟩] }
def pageIn (level : Nat) : Page := { Page.none with level := level, held := true, gated := decide (3 < level), opened := decide (3 < level) }
def graphAt (a b : W64) (level : Nat) : State :=
  let s := regsAt a b
  let s := s.setRun 0 { s.run 0 with graphs := [(0, graph0)] }
  let s := s.setPage 0 (pageIn level)
  let s := s.setPage 1 { pageIn level with handle := 1, index := 1, cluster := 1 }
  let s := s.setRegion 0 { s.region 0 with holder := some (0, 0), inmask := 1, outmask := 0x11 }
  let s := s.setRegion 16 { s.region 16 with holder := some (1, 0), inmask := 1 }
  s.setCluster 1 { s.cluster 1 with owner := some 0 }

/-- Under four graphs and four; a load of an image that is no image; the last graph handle. -/
theorem witness_GraphsAndSeams :
    ((regsAt 0x3000 0).run 0).graphs.length < 4 ∧ ((regsAt 0x3000 0).cluster 0).cmds = [] ∧
    4 ≤ ([(0, graph0), (1, graph0), (2, graph0), (3, graph0)] : Tab Graph).length ∧
    (∃ e, (regsAt 0x3000 0).loadImage 0 0x3000 0 false 3 0 = .error e) ∧ ((regsAt 0x3000 0).run 0).err = none ∧
    ((regsAt 3 0).reg 0 10).toNat < 4 ∧
    (let s := graphAt 0 (1 + 2 ^ 17) 3
     (s.reg 0 10).toNat = 0 + 0 * 2 ^ 8 ∧ (s.reg 0 11).toNat = 1 + 0 * 2 ^ 8 + 2 ^ 17 ∧ (s.page (pidOf 0 0)).run = 0 ∧ (s.page (pidOf 0 0)).level = 3 ∧
     (s.page (pidOf 0 0)).cluster = 0 ∧ (s.page (pidOf 0 1)).run = 0 ∧ (s.page (pidOf 0 1)).level = 3 ∧ (s.page (pidOf 0 1)).cluster ≠ 0 ∧
     (s.page (pidOf 0 1)).cluster / 4 = 0 / 4 ∧ s.declaredNone (pidOf 0 0) 0 = true ∧ s.declaredNone (pidOf 0 1) 0 = true ∧
     s.rowPort (pidOf 0 1) 0 = s.rowPort (pidOf 0 0) 0 ∧ (∀ ch ∈ [0, 2], (s.chan ((s.page (pidOf 0 0)).region 0) ch).cur = none ∧
      (s.chan ((s.page (pidOf 0 0)).region 0) ch).pend = none)) := by
  exact ⟨by decide +kernel, by decide +kernel, by decide, err_of (by decide +kernel), by decide +kernel, by decide +kernel, by decide +kernel⟩

/-- The signed bytes of an image with one graph section, of an empty graph; its signature block carries their digest, and no signature. -/
def emptyPrefix : List Byte :=
  bytesWith 64 [(0, 4, 0x1A52594C), (4, 2, 1), (6, 2, 3), (8, 4, 1), (0xC, 4, 64), (0x10, 4, 0), (0x14, 4, 128), (0x18, 4, 0), (0x1C, 4, 128), (0x20, 4, 128), (0x28, 4, 128), (0x2C, 4, 1488)] ++
  bytesWith 32 [(4, 1, 3), (8, 4, 96), (0xC, 4, 32)] ++ bytesWith 32 [(0, 4, 0x48505247)]
def signatureHead : List Byte := bytesWith 16 [(0, 4, 0x1A4E4753), (4, 4, 0xFFFFFFFF)]
def digestBytes : List Byte := toBytes 64 (shake256 emptyPrefix).toNat
def emptyImage : List Byte := emptyPrefix ++ (signatureHead ++ (digestBytes ++ List.replicate 1280 0))
def cellsFrom (a : Nat) : List Byte → List Host.Cell
  | [] => []
  | b :: t => (a, b) :: cellsFrom (a + 1) t
/-- The image in the scratchpad of cluster 0, and a queued load of it. -/
def imageState : State :=
  let s := farAt 0x10000001000
  let s := { s with mem := s.mem ++ cellsFrom 0x10000001000 emptyImage }
  s.setCluster 0 { s.cluster 0 with cmds := [⟨0, 0, .grload 0 10 11, 0x10000001000, 0, 0, [], 0⟩] }

theorem memGet_cellsFrom (l : List Byte) (a i : Nat) (h : i < l.length) : memGet (cellsFrom a l) (a + i) = l[i] := by
  induction l generalizing a i with
  | nil => simp at h
  | cons b t ih =>
    cases i with
    | zero => simp [cellsFrom, memGet]
    | succ j =>
      have : a ≠ a + (j + 1) := by omega
      simp only [cellsFrom, memGet, if_neg this, List.getElem_cons_succ]
      rw [show a + (j + 1) = a + 1 + j by omega]
      exact ih (a + 1) j (by simpa using h)
theorem memGet_append (m l : List Host.Cell) (x : Nat) (h : ∀ c ∈ m, c.1 ≠ x) : memGet (m ++ l) x = memGet l x := by
  induction m with
  | nil => rfl
  | cons c t ih =>
    simp only [List.cons_append, memGet, if_neg (h c (by simp))]
    exact ih fun d hd => h d (by simp [hd])
theorem toBytes_length (n v : Nat) : (toBytes n v).length = n := by
  induction n generalizing v with
  | zero => rfl
  | succ n ih => simp [toBytes, ih]
theorem ofBytes_toBytes (n v : Nat) (h : v < 256 ^ n) : ofBytes (toBytes n v) = v := by
  induction n generalizing v with
  | zero => simp at h; simp [toBytes, ofBytes, h]
  | succ n ih =>
    have := ih (v / 256) (Nat.div_lt_of_lt_mul (by rw [pow_succ, mul_comm] at h; exact h))
    simp [toBytes, ofBytes, this]; omega
theorem emptyImage_length : emptyImage.length = 1488 := by
  have h1 : emptyPrefix.length = 128 := by decide +kernel
  have h2 : signatureHead.length = 16 := by decide +kernel
  simp only [emptyImage, digestBytes, List.length_append, toBytes_length, List.length_replicate, h1, h2]
theorem homeBytes_image : ∀ n ≤ 1488, imageState.homeBytes 0 0x10000001000 n = emptyImage.take n := by
  intro n hn
  refine List.ext_getElem (by simp [State.homeBytes, emptyImage_length, hn]) fun i h1 h2 => ?_
  have hi : i < 1488 := by simp [State.homeBytes] at h1; omega
  have ht : targetOf (0x10000001000 + i) = .scratch 0 (0x1000 + i) := by
    unfold targetOf
    rw [if_neg (by omega), if_pos (by omega)]
    congr 1 <;> omega
  simp only [State.homeBytes, List.getElem_map, List.getElem_range, State.homeByte, ht]
  have hm : imageState.mem = (farAt 0x10000001000).mem ++ cellsFrom 0x10000001000 emptyImage := rfl
  have hb : ∀ c ∈ (farAt 0x10000001000).mem, c.1 < 2 ^ 40 := by decide +kernel
  rw [hm, memGet_append _ _ _ (fun c hc => by have := hb c hc; omega), memGet_cellsFrom _ _ _ (by rw [emptyImage_length]; exact hi)]
  simp

theorem read_image : ∀ n ∈ [64, 1488], imageState.tenantRead 0 0x10000001000 n = .ok (emptyImage.take n) := by
  have hw : ∃ e, imageState.walk 0 0x10000001000 = .ok e ∧ ∀ n ∈ [64, 1488], imageState.checkLeaf 0 0x10000001000 .read (fun _ => true) e n = .ok ⟨0x10000001000, n, 0⟩ := 
    ⟨⟨0x10000000000, 2 ^ 40, 0x10000000000, true, true, 0⟩, ok_of (by decide +kernel), fun n hn => ok_of (by revert n; decide +kernel)⟩
  obtain ⟨e, h1, h2⟩ := hw
  intro n hn
  have hle : n ≤ 1488 := by simp at hn; omega
  have h0 : n ≠ 0 := by simp at hn; omega
  have hmin : min n (0x10000 - 0x10000001000 % 0x10000) = n := by simp at hn; omega
  have := homeBytes_image n hle
  simp only [State.tenantRead, State.tenantRead.go, if_neg h0, hmin, h1, h2 n hn, this]
  simp [Except.map]

theorem emptyImage_parts (k : Nat) (h : k ≤ 128) : emptyImage.take k = emptyPrefix.take k := by
  have h1 : emptyPrefix.length = 128 := by decide +kernel
  rw [emptyImage, List.take_append_of_le_length (by omega)]
theorem emptyImage_digest : fieldAt emptyImage 144 64 = (shake256 emptyPrefix).toNat := by
  have h1 : emptyPrefix.length = 128 := by decide +kernel
  have h2 : signatureHead.length = 16 := by decide +kernel
  have h3 : digestBytes.length = 64 := toBytes_length _ _
  have hd : emptyImage.drop 144 = digestBytes ++ List.replicate 1280 0 := by
    rw [emptyImage, ← List.append_assoc, List.drop_left' (by simp [h1, h2])]
  rw [fieldAt, hd, List.take_left' h3]
  exact ofBytes_toBytes 64 _ (lt_of_lt_of_eq (shake256 emptyPrefix).isLt (Nat.pow_mul (a := 2) (m := 8) (n := 64)))
theorem imageCode_image : imageState.imageCode 0 emptyImage = none := by
  have hs : fieldAt emptyImage 0x28 4 = 128 := by decide +kernel
  have h1 : subBytes emptyImage 128 4 = [0x53, 0x47, 0x4E, 0x1A] := by decide +kernel
  have h2 : tableOutside emptyImage = false := by decide +kernel
  have hp : imageState.dev.part = .a := by decide +kernel
  have h3 : (fieldAt emptyImage 6 2).testBit 0 = true := by decide +kernel
  have h4 : fieldAt emptyImage (128 + 4) 4 = 0xFFFFFFFF := by decide +kernel
  have h5 : imageState.dev.lc ≠ .production := by decide +kernel
  have h8 : imageState.dev.lc ≠ .scrap := by decide +kernel
  have h6 : emptyPrefix.take 128 = emptyPrefix := by decide +kernel
  have h7 : BitVec.ofNat 512 (fieldAt emptyImage (128 + 0x10) 64) = shake256 emptyPrefix := by rw [emptyImage_digest, BitVec.ofNat_toNat, BitVec.setWidth_eq]
  simp only [State.imageCode, hs, h1, h2, hp, h3, h4, emptyImage_parts 128 (by omega), h6, h7]
  simp [h5, h8]
theorem load_image : ∃ g, imageState.loadImage 0 0x10000001000 0 false 3 0 = .ok g := by
  have hh : headerCode (emptyImage.take 64) = none := by rw [emptyImage_parts 64 (by omega)]; decide +kernel
  have hl : fieldAt (emptyImage.take 64) 0x2C 4 = 1488 := by rw [emptyImage_parts 64 (by omega)]; decide +kernel
  have ht : emptyImage.take 1488 = emptyImage := List.take_of_length_le (by rw [emptyImage_length])
  have hr : ∀ sym, relocate [2, 3] sym emptyImage = some emptyImage := by
    intro sym
    have : fieldAt emptyImage 0x10 4 = 0 := by decide +kernel
    simp [relocate, this]
  have hb : ∀ b x, buildGraph b x = (buildGraph b 0).map (fun d => { d with digest := x }) := by
    intro b x; unfold buildGraph; dsimp only; split <;> [split <;> rfl; rfl]
  have h0 : buildGraph emptyImage 0 = some ⟨0, [], [], [], [], [], [], [], []⟩ := by decide +kernel
  have hg : ∀ x, graphBad ⟨x, [], [], [], [], [], [], [], []⟩ (sectsOf emptyImage) 3 0 = false := fun x =>
    show graphBad ⟨0, [], [], [], [], [], [], [], []⟩ (sectsOf emptyImage) 3 0 = false by decide +kernel
  have hc : armsClash [] = false := by decide +kernel
  have r64 := read_image 64 (by simp)
  have r1488 := read_image 1488 (by simp)
  rw [ht] at r1488
  refine ⟨⟨BitVec.ofNat 512 (fieldAt emptyImage (fieldAt emptyImage 0x28 4 + 0x10) 64), [], [], [], [], [], [], [], []⟩, ?_⟩
  unfold State.loadImage
  rw [r64]; dsimp only; rw [hh]; dsimp only; rw [hl, r1488]; dsimp only
  rw [imageCode_image]; dsimp only
  rw [if_neg Bool.false_ne_true, hr]; dsimp only
  rw [hb emptyImage, h0]
  dsimp only [Option.map_some]
  rw [hg, hc]
  exact if_neg (by decide)
/-- A load that is good. -/
theorem witness_graph_load : (imageState.run 0).clusters.length = 3 ∧ ((imageState.run 0).graphs.map (fun e => e.2.pages.length)).sum = 0 ∧
    (imageState.run 0).tenant = 0 ∧ imageState.runOf imageState.focus.cluster = 0 ∧
    ∃ m g, (imageState.cluster imageState.focus.cluster).cmds = [m] ∧ m.instr = .grload 0 10 11 ∧
      imageState.loadImage 0 m.rs1.toNat m.rs2.toNat false 3 0 = .ok g := by
  obtain ⟨g, h⟩ := load_image
  exact ⟨by decide +kernel, by decide +kernel, by decide +kernel, by decide +kernel, ⟨0, 0, .grload 0 10 11, 0x10000001000, 0, 0, [], 0⟩, g, by decide +kernel, rfl, h⟩

/-- A wave to place; a page placed, running and retired; a handle past the last; every event of PGWAIT. -/
theorem witness_Pages :
    (let s := graphAt (BitVec.ofNat 64 5) 0 3
     (s.cluster 0).cmds = [] ∧ (s.reg 0 10).toNat = 5 + 256 * 0 ∧ (s.graphOf 0 0).state = 2 ∧ (s.graphOf 0 0).wavePages 5 ≠ [] ∧ (s.run 0).waves = [] ∧
     s.nofit 0 0 5 = false) ∧
    (∀ l ∈ [3, 4, 6], (graphAt 0 0 l).pages.find? (pidOf 0 0) = some (pageIn l)) ∧ (pageIn 3).gated = false ∧ (pageIn 3).held = true ∧
    (let s := graphAt (BitVec.ofNat 64 (0 + 15 * 2 ^ 8 + 0 * 2 ^ 12 + 1 * 2 ^ 16)) (2 ^ 32 - 1) 3
     (s.reg 0 10).toNat = 0 + 15 * 2 ^ 8 + 0 * 2 ^ 12 + 1 * 2 ^ 16 ∧ (s.reg 0 11).toNat < 2 ^ 32 ∧ 0 < (pageIn 3).w * (pageIn 3).h) ∧
    256 ≤ ((graphAt 256 0 3).reg 0 10).toNat ∧
    (graphAt 255 2 3).pages.find? (pidOf ((graphAt 255 2 3).runOf 0) 255) = none ∧ ((graphAt 255 2 3).reg 0 11).toNat ≤ 2 ∧
    (∀ e : Fin 3, let need := if e.val = 0 then 3 else if e.val = 1 then 4 else 6
      (pageIn (need - 1)).level < need ∧ (need ≤ (pageIn need).level ∧ (e.val ≠ 2 → (pageIn need).level < 6)) ∧ 6 ≤ (pageIn 6).level) := by
  decide +kernel

def plainRec : List Byte := bytesWith 64 [(0x10, 4, 1), (0x18, 4, 1), (0x20, 4, 1), (0x28, 4, 1)]
def indexedRec : List Byte := bytesWith 64 [(0x10, 4, 1), (0x18, 4, 1), (0x20, 4, 1), (0x28, 4, 1), (0x30, 4, 4), (0x3C, 4, 1)]
def bindAt (b : W64) (record : List Byte) : State := holding 0x3000 record (graphAt 0x3000 b 3)
/-- A binding of channel 0 of region 0 as its channel holds it. -/
def someBinding (seq : Nat) : Binding := { Binding.fresh .plain 0 0 0 0 plainRec 0 with seq := seq }
def chanWith (k : Chan) : State := let s := graphAt (BitVec.ofNat 64 (7 * 2 ^ 32)) 0 3; s.setChan 0 0 k

/-- STBIND of an input port, a trigger binding of an output port, STBINDI by an index port; a channel that is free, has one binding and
has two. Then a handle that is pending, current, the last completed, and none of them. -/
theorem witness_Bindings :
    (∀ e ∈ [(plainRec, 0, 0), (indexedRec, 0, 20)], ∃ s, s = bindAt (BitVec.ofNat 64 (0xFFFF + 0 * 2 ^ 24 + e.2.2 * 2 ^ 35)) e.1 ∧
      (s.reg 0 11).toNat = 0xFFFF + 0 * 2 ^ 16 + 0 * 2 ^ 24 + 0 * 2 ^ 29 + 0 * 2 ^ 33 + 0 * 2 ^ 34 + e.2.2 * 2 ^ 35 ∧ (s.cluster 0).cmds = [] ∧
      (s.page (pidOf (s.runOf 0) 0)).level = 3 ∧ (s.page (pidOf (s.runOf 0) 0)).cluster = 0 ∧ s.hasPort (pidOf (s.runOf 0) 0) 0 = true ∧
      s.portConn (pidOf (s.runOf 0) 0) 0 = .opened ∧ (s.reg 0 10).toNat % 64 = 0 ∧ s.tenantRead (s.tenantOf 0) (s.reg 0 10).toNat 64 = .ok e.1 ∧
      (ShapeRec.of e.1).dir = false ∧ (ShapeRec.of e.1).bad .token = false ∧ s.rowPort (pidOf (s.runOf 0) 0) 0 = false ∧
      (e.2.2 = 20 → (ShapeRec.of e.1).indir = true ∧ s.hasPort (pidOf (s.runOf 0) 0) 20 = true ∧ s.portConn (pidOf (s.runOf 0) 0) 20 = .opened ∧
        s.rowPort (pidOf (s.runOf 0) 0) 20 = false) ∧ (s.chan 0 0).cur = none) ∧
    (let s := graphAt (15 + 256 * 2) (BitVec.ofNat 64 (16 * 2 ^ 24 + 1 * 2 ^ 34)) 3
     (s.reg 0 10).toNat = 15 + 256 * 2 ∧ (s.reg 0 11).toNat = 0 + 0 * 2 ^ 16 + 16 * 2 ^ 24 + 0 * 2 ^ 29 + 0 * 2 ^ 33 + 1 * 2 ^ 34 + 0 * 2 ^ 35 ∧
     s.hasPort (pidOf (s.runOf 0) 0) 16 = true ∧ s.portConn (pidOf (s.runOf 0) 0) 16 = .opened ∧ s.rowPort (pidOf (s.runOf 0) 0) 16 = false ∧
     (s.run (s.runOf 0)).clusterAt 2 = some 128) ∧
    (∀ k ∈ [Chan.load, { Chan.load with cur := some (someBinding 7) }, { Chan.load with cur := some (someBinding 6), pend := some (someBinding 7) },
        { Chan.load with ended := true, lastSeq := 7 }], (chanWith k).handleChan 0 ((chanWith k).reg 0 10) = some (0, 0) ∧
      ((chanWith k).reg 0 10).toNat = 0 + 7 * 2 ^ 32 ∧ (chanWith k).chan 0 0 = k ∧ ((chanWith k).cluster 0).cmds = []) := by
  refine ⟨?_, by decide +kernel, by decide +kernel⟩
  simp only [List.forall_mem_cons, List.not_mem_nil, false_imp_iff, implies_true, and_true]
  refine ⟨⟨_, rfl, ?_⟩, ⟨_, rfl, ?_⟩⟩ <;>
  refine ⟨by decide +kernel, by decide +kernel, by decide +kernel, by decide +kernel, by decide +kernel, by decide +kernel, by decide +kernel, ok_of (by decide +kernel),
    by decide +kernel, by decide +kernel, by decide +kernel, by decide +kernel, by decide +kernel⟩

/-- A card of zeros and two records that a template takes, at 0x3000. -/
def cardRecs : List Byte := bytesWith 256 [(0x94, 4, 1), (0xD4, 4, 1), (0xF0, 4, 1)]
def srcRec : List Byte := bytesWith 64 [(0x14, 4, 1)]
def dstRec : List Byte := bytesWith 64 [(0x14, 4, 1), (0x30, 4, 1)]
def copyAt (a b : W64) : State := holding 0x3000 cardRecs (regsAt a b)
def noCopies (s : State) : State := s.setCluster 0 { s.cluster 0 with copies := (List.range 256).map (fun i => (i, { Copy.unused with state := 1 })) }
def withCopy (st : Nat) : State := let s := regsAt (BitVec.ofNat 64 (255 + 256 * 255)) 0; s.setCopy 0 255 { Copy.unused with gen := 255, state := st }

theorem witness_Copies :
    (0x3000 = ((copyAt 0x3000 63).reg 0 10).toNat ∧ (copyAt 0x3000 63).freeCopies 0 ≠ [] ∧ (noCopies (copyAt 0x3000 63)).freeCopies 0 = [] ∧
      (copyAt 0x3000 63).tenantRead ((copyAt 0x3000 63).tenantOf 0) 0x3000 128 = .ok (List.replicate 128 0) ∧
      cardBad (List.replicate 128 0) .issued ((copyAt 0x3000 63).run ((copyAt 0x3000 63).runOf 0)).clusters.length = false ∧ cardBar (List.replicate 128 0) = 0 ∧
      ((copyAt 0x3000 63).cluster 0).cmds = []) ∧
    (let s := regsAt 63 0; let t := s.setCluster 0 { s.cluster 0 with cmds := [⟨0, 0, .pgplace 10 11, 0, 0, 0, [], 0⟩] }
     (t.cluster 0).cmds ≠ [] ∧ (t.reg 0 10).toNat = 63 ∧ (t.templateAfter 0 63).armed = false) ∧
    (((copyAt 0x3000 63).reg 0 11).toNat = 63 ∧ ((copyAt 0x3000 63).template 0 63).armed = false ∧
      cardBad (List.replicate 128 0) .template ((copyAt 0x3000 63).run ((copyAt 0x3000 63).runOf 0)).clusters.length = false ∧
      (copyAt 0x3000 63).tenantRead ((copyAt 0x3000 63).tenantOf 0) (0x3000 + 0x80) 64 = .ok srcRec ∧
      (copyAt 0x3000 63).tenantRead ((copyAt 0x3000 63).tenantOf 0) (0x3000 + 0xC0) 64 = .ok dstRec ∧
      (ShapeRec.of srcRec).bad .copy = false ∧ (ShapeRec.of dstRec).bad .copy = false ∧ (ShapeRec.of srcRec).dir = false ∧ (ShapeRec.of dstRec).dir = true) ∧
    (∀ armed : Bool, let s := (regsAt 63 15).setCluster 0 { (regsAt 63 15).cluster 0 with templates := [(63, ⟨true, armed, 3, 0, List.replicate 128 0, srcRec, dstRec⟩)] }
      (s.reg 0 10).toNat = 63 ∧ (s.template 0 63).armed = armed ∧ (s.template 0 63).loaded = true ∧ (s.reg 0 11).toNat < 16 ∧ cardBar (s.template 0 63).card = 0 ∧
      s.freeCopies 0 ≠ [] ∧ (noCopies s).freeCopies 0 = [] ∧ ((noCopies s).template 0 63).loaded = true ∧
      (armed = false → ∀ e ∈ (s.cluster 0).templates, ¬ (e.2.armed = true ∧ e.2.queue = (s.reg 0 11).toNat))) ∧
    (∀ st ∈ [1, 3, 4, 5], ((withCopy st).reg 0 10).toNat = 255 + 256 * 255 ∧ ((withCopy st).copy 0 255).state = st ∧ ((withCopy st).copy 0 255).gen = 255) ∧
    ((withCopy 0).copy 0 255).state = 0 ∧ ((withCopy 1).copy 0 254).gen ≠ 255 := by
  refine ⟨⟨by decide +kernel, by decide +kernel, by decide +kernel, ok_of (by decide +kernel), by decide +kernel, by decide +kernel, by decide +kernel⟩, by decide +kernel,
    ⟨by decide +kernel, by decide +kernel, by decide +kernel, ok_of (by decide +kernel), ok_of (by decide +kernel), by decide +kernel, by decide +kernel,
     by decide +kernel, by decide +kernel⟩, by decide +kernel, by decide +kernel, by decide +kernel, by decide +kernel⟩

/-- The clocks of die 0 set, and page 0 opened 5 ticks into its run. -/
def timeAt (a : W64) (now : W64) : State :=
  let s := graphAt a 0 4
  (s.setDie 0 { s.die 0 with tick := now, pktime := now }).setPage 0 { pageIn 4 with goff := 5 }

/-- Every selector of PKRD, every die of TKDRF; a target to come, met exactly, and met while waiting; TKALNC live, dead and after a
pause. -/
theorem witness_TimeInstructions :
    (∀ n ∈ [0, 1, 2], ((timeAt (BitVec.ofNat 64 n) 100).reg 0 10).toNat = n) ∧ ((timeAt (2 + 256 * 255) 100).reg 0 10).toNat = 2 + 256 * 255 ∧
    ((timeAt 2 100).run ((timeAt 2 100).runOf 0)).phase ≠ .switched ∧ (((timeAt 2 100).page (pidOf ((timeAt 2 100).runOf 0) 0)).gatesOpen = true ∧ ((timeAt 2 100).page (pidOf ((timeAt 2 100).runOf 0) 0)).run = (timeAt 2 100).runOf 0) ∧
    ((timeAt 1 100).die 0).live[1] = true ∧ (({ Die.reset with live := Vector.replicate 3 false } : Die)).live[2] = false ∧
    (let now (v : Nat) := (((timeAt (BitVec.ofNat 64 v) 100).die (0 / 64)).pktime - ((timeAt (BitVec.ofNat 64 v) 100).run ((timeAt 0 100).runOf 0)).epoch).toNat
     now 101 < ((timeAt 101 100).reg 0 10).toNat ∧ ((timeAt 100 100).reg 0 10).toNat ≤ now 100 ∧ ((timeAt 100 100).ctl 0).st ≠ .waiting) ∧
    (let s := (cellReady.setDie 0 { cellReady.die 0 with pktime := 2 ^ 32 + 0x22 })
     Issues s 0 7 ∧ (issue s 0).live = true ∧ HeadsReady s true (named [0x10, 0x11]) ∧
     (∃ x, x ≤ (s.pageTime 0).toNat ∧ (s.pageTime 0).toNat < x + 2 ^ 31 ∧
      x % 2 ^ 32 = ((s.src (issue s 0) 0x10 0).toNat + (s.src (issue s 0) 0x11 0).toNat) % 2 ^ 32) ∧
     (let k := 64 * s.focus.region + s.focus.unit
      (s.page (s.pageOf s.focus.region)).alnRun.get 0 k = 0 ∧ 0 < ((s.setPage 0 { s.page 0 with alnRun := [(k, 3)] }).page 0).alnRun.get 0 k)) ∧
    Issues (deadly cellReady) 0 7 ∧ (issue (deadly cellReady) 0).live = false :=
  ⟨by decide +kernel, by decide +kernel, by decide +kernel, by decide +kernel, by decide +kernel, by decide +kernel, by decide +kernel,
   ⟨issues_of (by decide +kernel), by decide +kernel, headsReady_of (by decide +kernel), ⟨2 ^ 32 + 0x22, by decide +kernel, by decide +kernel, by decide +kernel⟩, by decide +kernel,
    by decide +kernel⟩, issues_of (by decide +kernel), by decide +kernel⟩

/-- The last channel handle, of a channel and of none; opening commands timed and elastic, ahead of and behind the node's clock. -/
def chanState (a b : W64) : State :=
  let s := timeAt a 100
  let s := { s with focus := { s.focus with cluster := 0 } }
  let s := s.setCtl 0 { s.ctl 0 with x := (s.ctl 0).x.set 11 b }
  s.setRun 0 { s.run 0 with chans := [(255, { XChan.none with ppage := 0, cpage := 1, recvSt := 4, sendSt := 4, cmds := [⟨true, false, 200, false, true, false, false⟩] })] }
theorem witness_ChannelInstructions :
    ((chanState 255 0).reg 0 10).toNat = 255 ∧ ((chanState 255 0).run ((chanState 255 0).runOf 0)).chans.find? 254 = none ∧
    (∃ ch, ((chanState 255 0).run ((chanState 255 0).runOf 0)).chans.find? 255 = some ch ∧ ch.recvSt ≤ 4 ∧
      (openLate (chanState 255 199) 0 ch 199 true ∧ ¬ openLate (chanState 255 199) 0 ch 199 false ∧ ¬ openLate (chanState 255 200) 0 ch 200 true ∧
       openLate (chanState 255 99) 0 ch 99 false)) ∧
    (∀ el : Bool, ((chanState (BitVec.ofNat 64 (255 + 256 * el.toNat)) 0).reg 0 10).toNat = 255 + 256 * el.toNat) := by
  refine ⟨by decide +kernel, by decide +kernel, ⟨{ XChan.none with ppage := 0, cpage := 1, recvSt := 4, sendSt := 4, cmds := [⟨true, false, 200, false, true, false, false⟩] },
    by decide +kernel, by decide +kernel, ?_⟩, by decide +kernel⟩
  unfold openLate
  refine ⟨.inr ⟨_, List.mem_singleton.2 rfl, by decide +kernel⟩, ?_, ?_, .inl (by decide +kernel)⟩
  · rintro (h | ⟨j, hj, _, _, h⟩)
    · revert h; decide +kernel
    · obtain rfl := List.mem_singleton.1 hj; exact absurd h (by decide)
  · rintro (h | ⟨j, hj, _, h, _⟩)
    · revert h; decide +kernel
    · obtain rfl := List.mem_singleton.1 hj; exact absurd h (by decide)

/-- Queue 0 of tenant 0 with room for one event, with none left, and with no event queue. -/
def queueAt (en : Bool) (tail : W32) (s : State) : State :=
  s.setQueue ⟨0, false, 0⟩ { Queue.reset with evbase := 0x5000, evEn := en, evLog2 := 3, evTail := tail }
theorem witness_SystemInstructions :
    (((regsAt 0xFFFFFFFF 0).reg 0 10).toNat < 2 ^ 32 ∧ ((regsAt 0xFFFFFFFF 0).cluster 0).cmds = [] ∧ ((regsAt 0xFFFFFFFF 0).cluster 0).copies = []) ∧
    (∃ e ∈ ((withCopy 3).cluster 0).copies, e.2.owner = .controller ∧ (e.2.state = 1 ∨ e.2.state = 3)) ∧
    (∀ s ∈ [queueAt false 0 (regsAt 0 0), queueAt true 8 (regsAt 0 0), queueAt true 7 (regsAt 0 0)], (s.run (s.runOf 0)).queue.link = false) ∧
    ((queueAt false 0 (regsAt 0 0)).queue ⟨0, false, 0⟩).evEn = false ∧
    (let q := (queueAt true 8 (regsAt 0 0)).queue ⟨0, false, 0⟩
     q.evTail - q.evHead = BitVec.ofNat 32 (2 ^ q.evLog2)) ∧
    (∃ s₁, (let s := queueAt true 7 (regsAt 0 0)
      let q := s.queue ⟨0, false, 0⟩
      s.tenantWrite 0 (q.evbase.toNat + 32 * (q.evTail.toNat % 2 ^ q.evLog2)) (postedBytes 6 0 0 0 0 0 0)) = .ok s₁) ∧
    (∃ p s₁, Uncached p ∧ (farRegs 0x10000000040 0).reg 0 10 ≠ 0 ∧ ((farRegs 0x10000000040 0).reg 0 10).toNat % 64 = 0 ∧
      (farRegs 0x10000000040 0).place 0 ((farRegs 0x10000000040 0).tenantOf 0) .write plainTarget ((farRegs 0x10000000040 0).reg 0 10).toNat 64 = (.ok [p], s₁)) ∧
    (∀ ask tack : Bool, ((regsAt (BitVec.ofNat 64 (ask.toNat + 2 * tack.toNat)) 0).reg 0 10).toNat = ask.toNat + 2 * tack.toNat) ∧
    (∃ l s₁, (regsAt 0x20000000000 0).leafFor 0 ((regsAt 0x20000000000 0).tenantOf 0) ((regsAt 0x20000000000 0).reg 0 10).toNat = (.error l, s₁)) ∧
    (∃ e s₁, (regsAt 0x5000 0).leafFor 0 ((regsAt 0x5000 0).tenantOf 0) ((regsAt 0x5000 0).reg 0 10).toNat = (.ok e, s₁) ∧ e.key < 2 ^ 46 ∧
      targetOf (e.pa + (((regsAt 0x5000 0).reg 0 10).toNat - e.va)) = .hbm 0) := by
  refine ⟨by decide +kernel, ⟨_, List.mem_singleton.2 rfl, by decide +kernel⟩, by decide +kernel, by decide +kernel, by decide +kernel, exOk_of (by decide +kernel),
    ⟨⟨0x10000000040, 64, 0⟩, _, uncached_of (by decide +kernel), by decide +kernel, by decide +kernel, okPair_of (by decide +kernel)⟩, by decide +kernel,
    exErrPair_of (by decide +kernel), ⟨⟨0, 2 ^ 40, 0, true, true, 1⟩, _, okPair_of (by decide +kernel), by decide +kernel, by decide +kernel⟩⟩

/-- The last gauge, every event, the last field and the last mask. -/
theorem witness_GaugeInstructions :
    ((regsAt 15 0).reg 0 10).toNat = 15 ∧ (∀ e ≤ 6, goodConfig ((regsAt 15 (BitVec.ofNat 64 e)).reg 0 11).toNat) ∧
    ((regsAt (15 + 16 * 20) 0).reg 0 10).toNat = 15 + 16 * 20 ∧ ((regsAt 0xFFFF 0).reg 0 10).toNat < 2 ^ 16 := by
  unfold goodConfig; decide +kernel

theorem witness_SaveInstructions :
    (graphAt 255 0 3).pages.find? (pidOf ((graphAt 255 0 3).runOf 0) 255) = none ∧ ((graphAt 255 0 3).reg 0 10).toNat = 255 ∧
    (∀ l ∈ [3, 4, 5], let s := graphAt 0 0xFFF000 l
      s.pages.find? (pidOf (s.runOf 0) 0) = some (pageIn l) ∧ (pageIn l).svReq = none ∧ (s.reg 0 11).toNat % 4096 = 0 ∧ s.inGroup (pidOf (s.runOf 0) 0) = false ∧
      (s.cluster 0).cmds = [] ∧ (s.cluster 0).owner = some 0 ∧ (s.run 0).err = none ∧ ∀ d ∈ (s.run (pageIn l).run).clusters, (s.cluster d).cmds = []) ∧ (pageIn 3).gated = false := by decide +kernel

/-- Controller 0 waits at an instruction of every kind that waits. -/
def waitingAt (i : Instr) (s : State) : State := s.setCtl 0 { s.ctl 0 with st := .waiting, insn := (encodeCustom i).getD 0 }
theorem witness_WaitingInstructions :
    (∀ i ∈ [Instr.semwait 12 10 11, .barwait 12 10 11, .pgwait 12 10 11, .tkaln 12 10, .stwait 12 10, .cpywait 12 10, .halt 10, .wayset 12 10 11,
        .stbind 12 10 11, .stbindi 12 10 11, .pgplace 12 10, .pgfree 12 10, .gateopen 12 10, .tripset 12 10 11, .pgconst 12 10 11, .seamset 12 10 11,
        .svsave 12 10 11, .svload 12 10 11, .ststop 12 10, .stcur 12 10, .ststat 12 10],
      ((waitingAt i (regsAt 0 0)).ctl 0).st = .waiting ∧ decode32 ((waitingAt i (regsAt 0 0)).ctl 0).insn = .ok i) ∧
    ((regsAt 63 0).reg 0 10).toNat = 63 ∧ ((regsAt 63 0).reg 0 11).toNat ≤ ((regsAt 63 0).sem 0 63).toNat ∧
    (let s := waitingAt (.gateopen 12 10) (graphAt 0 0 3)
     (s.cluster 0).cmds = [] ∧ (s.reg 0 10).toNat = 0 ∧ s.pages.find? (pidOf (s.runOf 0) 0) = some (pageIn 3) ∧ (pageIn 3).held = true) := by
  refine ⟨fun i hi => ⟨?_, ok_of ?_⟩, by decide +kernel, by decide +kernel, by decide +kernel⟩ <;> revert i <;> decide +kernel

/-- Queue 0 of tenant 0 with a packet in progress, whose word is at 0x3000. -/
def packetAt (i : Instr) : State :=
  let s := (regsAt 0 0).setQueue ⟨0, false, 0⟩ { Queue.reset with en := true, tail := 1, state := 2, cur := encodePacket i, evbase := 0x5000, evEn := true, evLog2 := 3 }
  { s with focus := Focus.none }
def hdr0 : PktHdr := ⟨0, 7, false⟩
def goodBody : RunBody := ⟨0x3000, 0, 1, 0, 0, 0, 0, 2 ^ 20⟩

/-- The last address, operation, source, condition and triad that a packet takes, and the first that it does not. -/
theorem witness_PlainPackets :
    (∃ b, ((packetAt (.nopPacket hdr0)).queue (packetAt (.nopPacket hdr0)).focus.queue).cur = some b) ∧
    (let cfg : W64 := 6
     goodConfig cfg.toNat ∧ ¬ goodConfig (7 : W64).toNat) ∧
    (0 ∈ ((packetAt (.nopPacket hdr0)).tenant 0).triads ∧ 1 ∉ ((packetAt (.nopPacket hdr0)).tenant 0).triads) ∧
    (∃ u, (packetAt (.nopPacket hdr0)).tenantWrite 0 0x3000 (toBytes 8 1) = .ok u) ∧
    (∃ e, (packetAt (.nopPacket hdr0)).tenantWrite 0 0x20000000000 (toBytes 8 1) = .error e) := by
  refine ⟨⟨(encodePacket (.nopPacket hdr0)).getD [], by decide +kernel⟩, by unfold goodConfig; decide, by decide +kernel, exOk_of (by decide +kernel), err_of (by decide +kernel)⟩

/-- A WAITSEM met and not met; a BARRIER with every queue there, and one that is not; a copy in progress; an INDIRECT. -/
theorem witness_WaitingPackets :
    (∃ d, (packetAt (.waitsemPacket hdr0 0x3000 0 0 1)).tenantRead 0 0x3000 8 = .ok d ∧ Satisfied (BitVec.ofNat 64 (ofBytes d)) 0 0 1 ∧
      ¬ Satisfied (BitVec.ofNat 64 (ofBytes d)) 1 0 1 ∧ Satisfied (BitVec.ofNat 64 (ofBytes d)) 0 0xFF 0 ∧ ¬ Satisfied (BitVec.ofNat 64 (ofBytes d)) 0 0xFF 2) ∧
    (∃ b, encodePacket (.waitsemPacket hdr0 0x3000 0 0 1) = some b ∧ decodePacket b = .waitsemPacket hdr0 0x3000 0 0 1) ∧
    (let s := packetAt (.barrierPacket hdr0 1 3)
     (s.queue ⟨0, false, 0⟩).en = true ∧ (s.queue ⟨0, false, 0⟩).state ≠ 5 ∧ (s.queue ⟨0, false, 0⟩).ind = none ∧ (s.queue ⟨0, false, 1⟩).en = false ∧
     ∃ b, (s.queue ⟨0, false, 0⟩).cur = some b ∧ decodePacket b = .barrierPacket hdr0 1 3) ∧
    (∀ k : Nat, (1 : BitVec 16).getLsbD k = true → k = 0) ∧ (3 : BitVec 16).getLsbD 1 = true ∧
    (∃ e ∈ [(0, 255, 255)], ((withCopy 3).copy e.1 e.2.1).gen = e.2.2 ∧ ((withCopy 3).copy e.1 e.2.1).state = 3) := by
  refine ⟨⟨List.replicate 8 0, ok_of (by decide +kernel), by unfold Satisfied; decide⟩, ⟨(encodePacket (.waitsemPacket hdr0 0x3000 0 0 1)).getD [], by decide +kernel, by decide +kernel⟩,
    ⟨by decide +kernel, by decide +kernel, by decide +kernel, by decide +kernel, (encodePacket (.barrierPacket hdr0 1 3)).getD [], by decide +kernel, by decide +kernel⟩,
    fun k h => (by decide : ∀ k : Fin 16, (1 : BitVec 16).getLsbD k.val = true → k.val = 0) ⟨k, BitVec.lt_of_getLsbD h⟩ h, by decide, (0, 255, 255), by simp,
    by decide +kernel⟩

/-- COPY into a cluster with a slot and with none, of a triad that is not the tenant's; bodies of RUN good and bad, and a save area that a
RESUME takes. -/
def goodCard : List Byte := List.replicate 128 0
def savePlan : State :=
  holding 0x100000 (bytesWith 0x40 [(0, 4, 0x4E525653), (4, 2, 1), (0x11, 1, 1), (0x12, 1, 1)]) (packetAt (.runPacket hdr0 { goodBody with savearea := 0x100000 }))
theorem goodSave_of {s : State} {tenant : Nat} {b : RunBody} {head : List Byte}
    (h : (match s.tenantRead tenant b.savearea.toNat 4096, s.tenantRead tenant (b.image.toNat + fieldAt head 0x28 4 + 0x10) 8 with
      | .ok h, .ok d => decide (subBytes h 0 4 = [0x53, 0x56, 0x52, 0x4E] ∧ fieldAt h 4 2 = 1 ∧ (fieldAt h 0x12 1).testBit 0 = true ∧ fieldAt h 0x10 1 = tenant ∧
          fieldAt h 0x11 1 = (List.range 64).countP b.triads.toNat.testBit ∧ subBytes h 0x18 8 = d)
      | _, _ => false) = true) : GoodSave s tenant b head := by
  unfold GoodSave
  split at h
  · exact ⟨_, _, ‹_›, ‹_›, of_decide_eq_true h⟩
  · exact absurd h Bool.false_ne_true
theorem witness_RunPackets :
    (let s := holding 0x3000 cardRecs (packetAt (.copyPacket hdr0 0x3000 0 2))
     (0 ∈ (s.tenant 0).triads ∧ 1 ∉ (s.tenant 0).triads) ∧ s.tenantRead 0 0x3000 128 = .ok goodCard ∧ cardSem goodCard = 0 ∧ cardBar goodCard = 0 ∧
     cardBad goodCard .issued 192 = false ∧ s.tenantRead 0 (0x3000 + 0x80) 64 = .ok srcRec ∧ s.tenantRead 0 (0x3000 + 0xC0) 64 = .ok dstRec ∧
     (ShapeRec.of srcRec).bad .copy = false ∧ (ShapeRec.of dstRec).bad .copy = false ∧ (ShapeRec.of srcRec).dir = false ∧ (ShapeRec.of dstRec).dir = true ∧ s.freeCopies 128 ≠ [] ∧ (noCopies s).freeCopies 0 = []) ∧
    GoodRun (packetAt (.runPacket hdr0 goodBody)) goodBody ∧ ¬ GoodRun (packetAt (.runPacket hdr0 goodBody)) { goodBody with exits := 2 } ∧
    (∃ k, k < 64 ∧ ({ goodBody with triads := 3 } : RunBody).triads.getLsbD k = true ∧ k ∉ ((packetAt (.runPacket hdr0 goodBody)).tenant 0).triads) ∧
    (∃ head, (packetAt (.runPacket hdr0 goodBody)).tenantRead 0 goodBody.image.toNat 64 = .ok head) ∧
    (∃ head, savePlan.tenantRead 0 0x3000 64 = .ok head ∧ GoodSave savePlan 0 { goodBody with savearea := 0x100000 } head) ∧
    (packetAt (.runPacket hdr0 goodBody)).dev.lc ≠ .scrap ∧ savePlan.dev.lc ≠ .scrap ∧ savePlan.qc.quiet = 0 ∧ (∀ d < 3, (savePlan.die d).stepped = true ∧ (savePlan.die d).fenced = false) := by
  refine ⟨⟨by decide +kernel, ok_of (by decide +kernel), by decide +kernel, by decide +kernel, by decide +kernel, ok_of (by decide +kernel), ok_of (by decide +kernel), by decide +kernel, by decide +kernel,
     by decide +kernel, by decide +kernel, by decide +kernel, by decide +kernel⟩,
    ⟨by decide +kernel, by decide +kernel, by decide +kernel, by decide +kernel, by decide +kernel, by decide +kernel⟩, fun h => absurd h.exits (by decide +kernel),
    ⟨1, by decide, by decide, by decide +kernel⟩, exOk_of (by decide +kernel),
    ⟨List.replicate 64 0, ok_of (by decide +kernel), goodSave_of (by decide +kernel)⟩, by decide +kernel, by decide +kernel, by decide +kernel, by decide +kernel⟩

theorem unreadable {s : State} {t va n : Nat} (h : (match s.tenantRead t va n with | .ok _ => false | .error _ => true) = true) (l : List Byte) : s.tenantRead t va n ≠ .ok l := by
  intro e; simp [e] at h

/-- COPY of a card whose source record no leaf maps, and of one whose records are two source records. -/
def lostCard : List Byte := bytesWith 128 [(0, 8, 0x8000000000000)]
theorem witness_CopyRecords :
    (let s := holding 0x3000 (bytesWith 256 [(0, 8, 0x8000000000000), (0x94, 4, 1), (0xD4, 4, 1), (0xF0, 4, 1)]) (packetAt (.copyPacket hdr0 0x3000 0 2))
     s.tenantRead 0 0x3000 128 = .ok lostCard ∧ cardSrc lostCard = 0x8000000000000 ∧ cardBad lostCard .issued 192 = false ∧ ∃ e, s.tenantRead 0 (cardSrc lostCard) 64 = .error e) ∧
    (let s := holding 0x3000 (bytesWith 256 [(0x94, 4, 1), (0xD4, 4, 1)]) (packetAt (.copyPacket hdr0 0x3000 0 2))
     s.tenantRead 0 0x3000 128 = .ok goodCard ∧ s.tenantRead 0 (0x3000 + 0x80) 64 = .ok srcRec ∧ s.tenantRead 0 (0x3000 + 0xC0) 64 = .ok srcRec ∧ (ShapeRec.of srcRec).dir = false) := by
  have err {s : State} {t va n : Nat} (h : (match s.tenantRead t va n with | .ok _ => false | .error _ => true) = true) : ∃ e, s.tenantRead t va n = .error e := by
    split at h
    · exact absurd h Bool.false_ne_true
    · exact ⟨_, ‹_›⟩
  exact ⟨⟨ok_of (by decide +kernel), by decide +kernel, by decide +kernel, err (by decide +kernel)⟩,
    ok_of (by decide +kernel), ok_of (by decide +kernel), ok_of (by decide +kernel), by decide +kernel⟩

/-- A card and an image that no leaf maps, a card with a semaphore, a save area that cannot be read, and one that holds zeros. -/
theorem witness_FailingRuns :
    (∀ l, (packetAt (.copyPacket hdr0 0x8000000000000 0 2)).tenantRead 0 0x8000000000000 128 ≠ .ok l) ∧
    GoodRun savePlan { goodBody with image := 0x8000000000000 } ∧ (∀ l, savePlan.tenantRead 0 (0x8000000000000 : W64).toNat 64 ≠ .ok l) ∧
    GoodRun savePlan { goodBody with savearea := 0x8000000000000 } ∧ (∀ l, savePlan.tenantRead 0 (0x8000000000000 : W64).toNat 4096 ≠ .ok l) ∧
    GoodRun savePlan { goodBody with savearea := 0x200000 } ∧ (∃ l, savePlan.tenantRead 0 (0x200000 : W64).toNat 4096 = .ok l) ∧
    ¬ GoodSave savePlan 0 { goodBody with savearea := 0x200000 } (List.replicate 64 0) := by
  refine ⟨unreadable (by decide +kernel), ⟨by decide +kernel, by decide +kernel, by decide +kernel, by decide +kernel, by decide +kernel, by decide +kernel⟩, unreadable (by decide +kernel),
    ⟨by decide +kernel, by decide +kernel, by decide +kernel, by decide +kernel, by decide +kernel, by decide +kernel⟩, unreadable (by decide +kernel),
    ⟨by decide +kernel, by decide +kernel, by decide +kernel, by decide +kernel, by decide +kernel, by decide +kernel⟩, exOk_of (by decide +kernel), ?_⟩
  rintro ⟨h, d, e, -, m, -⟩
  have k : (match savePlan.tenantRead 0 0x200000 4096 with | .ok l => decide (subBytes l 0 4 ≠ [0x53, 0x56, 0x52, 0x4E]) | .error _ => false) = true := by decide +kernel
  rw [show savePlan.tenantRead 0 0x200000 4096 = _ from e] at k
  exact absurd m (of_decide_eq_true k)

/-- A doorbell to the last packet of a queue's ring and one past it; a queue to enable, to disable and to clear. -/
def ringAt (p : Queue) : State := { (regsAt 0 0) with focus := Focus.none }.setQueue ⟨0, false, 0⟩ p
def someRing : Queue := { Queue.reset with qbase := 0x2000, en := true, log2 := 4, head := 0xFFFFFFFF, tail := 0xFFFFFFFF }
theorem witness_QueueRegisters :
    (((BitVec.truncate 32 (15 : W64)) - someRing.head).toNat ≤ 2 ^ someRing.log2 ∧ 2 ^ someRing.log2 < ((BitVec.truncate 32 (16 : W64)) - someRing.head).toNat ∧ someRing.state ≠ 5) ∧
    (let v : W64 := 0x401
     let p : Queue := { someRing with en := false, qbase := 0x2000 }
     p.cur = none ∧ v.getLsbD 0 = true ∧ v.getLsbD 1 = false ∧ p.qbase ≠ 0 ∧ 4 ≤ v.toNat / 2 ^ 8 % 32 ∧ v.toNat / 2 ^ 8 % 32 ≤ 16) ∧
    (let v : W64 := 0x400
     someRing.en = true ∧ someRing.run = none ∧ someRing.pendingWr = none ∧ v.getLsbD 0 = false ∧ v.getLsbD 1 = false) ∧
    (let v : W64 := 0x403
     ({ someRing with state := 5, skip := true } : Queue).state = 5 ∧ v.getLsbD 0 = true ∧ v.getLsbD 1 = true) ∧
    ((ringAt someRing).tenant 0).created = true ∧ (ringAt someRing).dev.safe = false ∧ ((ringAt someRing).tenant 1).created = false := by decide +kernel

/-- An INVT begun, over and not yet over; a queue whose packet may start; a run at the end of its QUANT with one of its priority waiting; a
standby that takes over with a packet not committed. -/
def quantAt : State :=
  let s := ringAt someRing
  let s := s.setTenant 0 { s.tenant 0 with quant := 100 }
  let s := s.setDie 0 { s.die 0 with tick := 160000 }
  s.setRun 1 { s.run 0 with phase := .waiting }
theorem witness_ProcessorEvents :
    (let s := (ringAt someRing).setTenant 0 { (ringAt someRing).tenant 0 with invDone := false }
     (s.tenant 0).invDone = false ∧ (s.tenant 0).invStamp = none ∧ s.qc.quiet = 0) ∧
    (let s := (ringAt someRing).setTenant 0 { (ringAt someRing).tenant 0 with invDone := false, invStamp := some 9 }
     let s := s.setMn 0 { s.mn 0 with far := [⟨1, .word (.load 4 false), 0, 1, 10, [], false⟩] }
     (s.tenant 0).invStamp = some 9 ∧ (∀ c ∈ s.clusters.map Prod.fst, s.tenantOf c = 0 → ∀ i < 16, ∀ a ∈ (s.mn (16 * c + i)).far, 9 < a.stamp) ∧
     ∃ a ∈ (s.mn (16 * 0 + 0)).far, a.stamp ≤ 10) ∧
    (let s : State := { ringAt { someRing with tail := 0 } with runs := [] }
     s.agenda = [] ∧ (∀ e ∈ s.tenants, ∀ f ∈ e.2.queues, (s.queue ⟨e.1, false, f.1⟩).copyErr = none) ∧ (s.tenant 0).created = true ∧
     ((s.tenant 0).queues.map Prod.fst).Nodup ∧ (∀ e ∈ (s.tenant 0).queues, e.1 < 16) ∧ mayStart (s.queue ⟨0, false, 0⟩)) ∧
    (quantAt.qc.quiet = 0 ∧ Spec.holding (quantAt.run 0) ∧ (quantAt.run 0).preq = none ∧
      (quantAt.tenant (quantAt.run 0).tenant).quant * 1600 * (64 - quantAt.dev.tstep) ≤ ((quantAt.die 0).tick.toNat - (quantAt.run 0).mappedAt) * 64 ∧
      ∃ e ∈ quantAt.runs, wanting e.2 ∧ (∃ k ∈ e.2.triads, k ∈ (quantAt.run 0).triads) ∧ (quantAt.queue e.2.queue).prio = (quantAt.queue (quantAt.run 0).queue).prio) ∧
    (let s := ringAt { someRing with uncommit := some (5, none, []) }
     (s.die (1 - s.qc.active)).fenced = false ∧ s.dev.safe = false ∧ s.qc.kept = [] ∧
     ∃ y, s.tenants.find? 0 = some y ∧ ∃ p, y.queues.find? 0 = some p ∧ p.run = none ∧ p.state ≠ 5 ∧ p.uncommit.getD (p.head, p.ind, p.indPkt) = (5, none, [])) := by
  refine ⟨by decide +kernel, ⟨by decide +kernel, by decide +kernel, ⟨1, .word (.load 4 false), 0, 1, 10, [], false⟩, by decide +kernel, by decide⟩,
    ⟨by decide +kernel, by decide +kernel, by decide +kernel, by decide +kernel, by decide +kernel, by unfold mayStart; decide +kernel⟩,
    ⟨by decide +kernel, by unfold Spec.holding; decide +kernel, by decide +kernel, by decide +kernel,
      (1, quantAt.run 1), by decide +kernel, by unfold wanting; decide +kernel, ⟨0, by decide +kernel, by decide +kernel⟩, by decide +kernel⟩,
    ⟨by decide +kernel, by decide +kernel, by decide +kernel, _, rfl, _, rfl, by decide +kernel, by decide +kernel, by decide +kernel⟩⟩

/-- A run to map with free clusters, and with a cluster held; one to unmap; an active one to switch; a tenant whose runs all wait. -/
def mappable : State :=
  let s := State.reset.placeTenant
  { s.setRun 3 { Run.none with phase := .mapping, triads := [0, 63] } with focus := { Focus.none with run := 3 } }
def held0 : State := { ringAt someRing with focus := Focus.none }
theorem witness_RunMapping :
    ((mappable.run 3).phase = .mapping ∧ (∀ c ∈ (mappable.run 3).clusters, (mappable.cluster c).owner = none) ∧ (mappable.run 3).graphs = [] ∧
      (mappable.run 3).resume = false ∧ (mappable.run 3).triads.Nodup ∧ (∀ k ∈ (mappable.run 3).triads, k < 64) ∧ (mappable.run 3).err = none ∧
      (mappable.run 3).clusterAt 5 = some 191) ∧
    (held0.run 0).phase ≠ .mapping ∧ (0 ∈ (held0.run 0).clusters ∧ (held0.cluster 0).owner = some 0 ∧ 1 ∉ (held0.run 0).clusters) ∧
    ((held0.run 0).phase = .active ∧ (held0.run 0).resumeAt = none ∧ ∃ c ∈ (held0.run 0).clusters, (held0.ctl c).st = .running ∧ (held0.ctl c).half = none) ∧
    (let s := held0.setRun 0 { held0.run 0 with phase := .waiting }
     ∀ e ∈ s.runs, e.2.tenant = 0 → wanting e.2) := by
  refine ⟨by decide +kernel, by decide +kernel, by decide +kernel, ⟨by decide +kernel, by decide +kernel, 0, by decide +kernel, by decide +kernel, by decide +kernel⟩, by unfold wanting; decide +kernel⟩

/-- Requests good and bad; peers with a grant and without; an answer, and an all-reduce of two packages whose posts are there. -/
def goodReq (op : Nat) : WorkReq := ⟨if op = 4 then 1 else 0, 9, 0x3000, 0, 8, 47, 0, if op = 4 then 3 else 0, false⟩
def linkAt (op : Nat) : State :=
  { (ringAt { someRing with cur := some [], pendingWr := some (goodReq op, op) }) with
    linkIn := [⟨⟨0, false, 0⟩, true, List.replicate 8 1⟩], allred := [⟨0, 0, 5⟩, ⟨0, 1, 6⟩] }
def remote (op : Nat) : RemoteReq := ⟨op, 0, 7, 2, 0, 0x3000, 8, List.replicate 8 1, 0⟩
def granting : State := (ringAt someRing).setTenant 0 { (ringAt someRing).tenant 0 with grants := [⟨7, 2, 0⟩] }
theorem witness_LinkRequests :
    (∀ op ∈ [1, 2, 3, 4], ¬ BadRequest (goodReq op) op ∧ BadRequest { goodReq op with len := 0 } op) ∧
    (∃ d, (linkAt 1).tenantRead 0 0x3000 8 = .ok d) ∧ (∃ l, (linkAt 2).tenantPieces 0 .write 0x3000 8 = .ok l) ∧
    (∀ op ∈ [1, 2, 3], Grants granting (remote op) ∧ ¬ Grants (ringAt someRing) (remote op)) ∧
    (∃ u, granting.tenantWrite 0 0x3000 (remote 1).data = .ok u) ∧ (∃ d, granting.tenantRead 0 0x3000 8 = .ok d) ∧ (∃ u, granting.tenantAdd 0 0x3000 1 = .ok u) ∧
    (∀ op ∈ [1, 2, 3, 4], ((linkAt op).queue ⟨0, false, 0⟩).pendingWr = some (goodReq op, op)) ∧
    (linkAt 2).linkIn = [] ++ ⟨⟨0, false, 0⟩, true, List.replicate 8 1⟩ :: [] ∧ (List.replicate 8 (1 : Byte)).length = (goodReq 2).len.toNat ∧
    (∃ w, (linkAt 2).tenantWrite 0 0x3000 (List.replicate 8 1) = .ok w) ∧
    ((linkAt 4).allred = ((List.range 48).filter (fun k => (goodReq 4).domain.getLsbD k)).map (fun k => ⟨0, k, BitVec.ofNat 64 (5 + k)⟩)) ∧
    (∃ k, k < 48 ∧ (goodReq 4).domain.getLsbD k = true ∧ ∀ a ∈ (ringAt someRing).allred, ¬ (a.ident = 0 ∧ a.package = k)) := by
  have hg : ∀ op ∈ [1, 2, 3], Grants granting (remote op) ∧ ¬ Grants (ringAt someRing) (remote op) := by unfold Grants; decide +kernel
  exact ⟨by unfold BadRequest; decide, exOk_of (by decide +kernel), exOk_of (by decide +kernel), hg, exOk_of (by decide +kernel), exOk_of (by decide +kernel),
    exOk_of (by decide +kernel), by decide +kernel, by decide +kernel, by decide, exOk_of (by decide +kernel), by decide +kernel,
    ⟨0, by decide, by decide, by decide +kernel⟩⟩

/-- A request whose local bytes no leaf maps, a peer's request at such bytes or off its alignment, and an answer that refuses. -/
theorem witness_FailingRequests :
    (∀ op ∈ [1, 2, 3, 4], ¬ BadRequest { goodReq op with laddr := 0x8000000000000 } op) ∧
    (∀ d, (linkAt 1).tenantRead 0 (0x8000000000000 : W64).toNat 8 ≠ .ok d) ∧
    (∀ l, (linkAt 2).tenantPieces 0 .write (0x8000000000000 : W64).toNat 8 ≠ .ok l) ∧
    (∀ u, granting.tenantWrite 0 0x8000000000000 (remote 1).data ≠ .ok u) ∧ (∀ d, granting.tenantRead 0 0x8000000000000 8 ≠ .ok d) ∧
    (∀ u, granting.tenantAdd 0 0x8000000000000 1 ≠ .ok u) ∧ Grants granting { remote 3 with raddr := 1 } ∧
    ({ linkAt 1 with linkIn := [⟨⟨0, false, 0⟩, false, []⟩] } : State).linkIn = [] ++ ⟨⟨0, false, 0⟩, false, []⟩ :: [] := by
  refine ⟨by unfold BadRequest; decide, unreadable (by decide +kernel), fun l e => ?_, fun u e => ?_, unreadable (by decide +kernel), fun u e => ?_, by unfold Grants; decide +kernel, rfl⟩
  · have h : (match (linkAt 2).tenantPieces 0 .write 0x8000000000000 8 with | .ok _ => false | .error _ => true) = true := by decide +kernel
    rw [show (linkAt 2).tenantPieces 0 .write 0x8000000000000 8 = _ from e] at h; cases h
  · have h : (match granting.tenantWrite 0 0x8000000000000 (remote 1).data with | .ok _ => false | .error _ => true) = true := by decide +kernel
    rw [e] at h; cases h
  · have h : (match granting.tenantAdd 0 0x8000000000000 1 with | .ok _ => false | .error _ => true) = true := by decide +kernel
    rw [e] at h; cases h

/-- A command page at 0x10000 of host memory, with fields set, and a command in progress. -/
def pageWith (l : List (Nat × Nat × Nat)) : State :=
  let s := regsAt 0 0
  { s with dev := { s.dev with mbaddr := 0x10000, mbDone := false, mbStatus := 0xFF }
           mem := l.foldl (fun m e => memPut m (0x800000010000 + e.1) (toBytes e.2.1 e.2.2)) s.mem }

theorem memGet_listed {m : List Host.Cell} {a : Nat} (h : memGet m a ≠ 0) : ∃ c ∈ m, c.1 = a := by
  induction m with
  | nil => exact absurd rfl h
  | cons x t ih =>
    obtain ⟨k, v⟩ := x
    by_cases hk : k = a
    · exact ⟨(k, v), List.mem_cons_self, hk⟩
    · rw [memGet, if_neg hk] at h
      obtain ⟨c, hc, he⟩ := ih h
      exact ⟨c, List.mem_cons_of_mem _ hc, he⟩

/-- A page's unnamed bytes are zero where the cells of memory that lie in it are all named. -/
theorem pageOk_of {s : State} {l : List (Nat × Nat × Nat × Nat)} (hl : cmdFields (pageOpc s.mbPage) = some l)
    (hf : l.all (fun f => decide (f.2.2.1 ≤ fieldAt s.mbPage f.1 f.2.1) && decide (fieldAt s.mbPage f.1 f.2.1 ≤ f.2.2.2)) = true)
    (hc : s.mem.all (fun c => decide (c.1 < hostPa s.dev.mbaddr.toNat + 8) || decide (hostPa s.dev.mbaddr.toNat + 0x800 ≤ c.1) ||
      l.any (fun f => decide (f.1 ≤ c.1 - hostPa s.dev.mbaddr.toNat) && decide (c.1 - hostPa s.dev.mbaddr.toNat < f.1 + f.2.1))) = true)
    (ht : s.tenantFieldOk (pageOpc s.mbPage) (pageTenant s.mbPage) = true) (ha : s.argsFit s.mbPage = true) : s.pageOk s.mbPage = true := by
  unfold State.pageOk
  rw [hl]
  simp only [hf, ht, ha, Bool.and_true, Bool.true_and]
  rw [List.all_eq_true] at hc ⊢
  intro i hi
  rw [List.mem_range] at hi
  have hb : (s.mbPage[i + 8]?).getD 0 = memGet s.mem (hostPa s.dev.mbaddr.toNat + (i + 8)) := by
    have : i + 8 < 2048 := by omega
    simp [State.mbPage, State.hostRead, memBytes, this]
  rw [hb]
  by_cases h0 : memGet s.mem (hostPa s.dev.mbaddr.toNat + (i + 8)) = 0
  · simp [h0]
  · obtain ⟨c, hm, he⟩ := memGet_listed h0
    have := hc c hm
    rw [he] at this
    have e : hostPa s.dev.mbaddr.toNat + (i + 8) - hostPa s.dev.mbaddr.toNat = i + 8 := by omega
    rw [e] at this
    simp only [Bool.or_eq_true, decide_eq_true_eq] at this
    rcases this with (h | h) | h
    · omega
    · omega
    · simp [h]

/-- The check of a command page, cell by cell. -/
def commandOk (opc : Nat) (s : State) : Bool :=
  !s.dev.mbDone && fieldAt s.mbPage 0 2 == opc &&
  (match cmdFields (pageOpc s.mbPage) with
    | none => false
    | some l => l.all (fun f => decide (f.2.2.1 ≤ fieldAt s.mbPage f.1 f.2.1) && decide (fieldAt s.mbPage f.1 f.2.1 ≤ f.2.2.2)) &&
      s.mem.all (fun c => decide (c.1 < hostPa s.dev.mbaddr.toNat + 8) || decide (hostPa s.dev.mbaddr.toNat + 0x800 ≤ c.1) ||
      l.any (fun f => decide (f.1 ≤ c.1 - hostPa s.dev.mbaddr.toNat) && decide (c.1 - hostPa s.dev.mbaddr.toNat < f.1 + f.2.1)))) &&
  s.tenantFieldOk (pageOpc s.mbPage) (pageTenant s.mbPage) && s.argsFit s.mbPage
theorem commanded_of {s : State} {opc : Nat} (h : commandOk opc s = true) : Commanded s opc := by
  unfold commandOk at h
  simp only [Bool.and_eq_true, Bool.not_eq_true', beq_iff_eq] at h
  obtain ⟨⟨⟨⟨h1, h2⟩, h3⟩, h4⟩, h5⟩ := h
  split at h3
  · cases h3
  · rename_i l hl
    rw [Bool.and_eq_true] at h3
    exact ⟨h1, h2, pageOk_of hl h3.1 h3.2 h4 h5⟩

def unmapped (s : State) : State := { s with runs := [] }
/-- Tenant 63 holds triad 5 and a window at 2^20. -/
def rival (s : State) : State := s.setTenant 63 { Tenant.reset with created := true, triads := [5], windows := [(0, ⟨2 ^ 20, 2 ^ 16⟩)] }

/-- Each command with its way clear and with what stands in it. -/
theorem witness_TenantCommands :
    (Commanded (pageWith [(0, 2, 1), (4, 1, 63), (8, 8, 1)]) 1 ∧ ((pageWith [(0, 2, 1), (4, 1, 63), (8, 8, 1)]).tenant 63).created = false ∧
      Commanded (pageWith [(0, 2, 1)]) 1 ∧ ((pageWith [(0, 2, 1)]).tenant 0).created = true) ∧
    (Commanded (pageWith [(0, 2, 2)]) 2 ∧ Mapped (pageWith [(0, 2, 2)]) 0 ∧ Commanded (unmapped (pageWith [(0, 2, 2)])) 2 ∧ ¬ Mapped (unmapped (pageWith [(0, 2, 2)])) 0) ∧
    (Commanded (rival (pageWith [(0, 2, 3), (8, 8, 0x21)])) 3 ∧ (∃ e ∈ (rival (pageWith [(0, 2, 3), (8, 8, 0x21)])).tenants, e.1 ≠ 0 ∧
        ∃ k ∈ e.2.triads, k ∈ (List.range 64).filter (0x21 : Nat).testBit) ∧
      Commanded (rival (pageWith [(0, 2, 3), (8, 8, 2 ^ 63 + 1)])) 3 ∧ (∀ e ∈ (rival (pageWith [(0, 2, 3), (8, 8, 2 ^ 63 + 1)])).tenants, e.1 ≠ 0 →
        ∀ k ∈ e.2.triads, k ∉ (List.range 64).filter (2 ^ 63 + 1 : Nat).testBit)) ∧
    (∀ e ∈ [(2 ^ 20 + 2 ^ 16, 2 ^ 16), (2 ^ 20 + 2 ^ 16 - 1, 2 ^ 16), (0, 0)],
      Commanded (rival (pageWith [(0, 2, 4), (8, 8, 15), (0x10, 8, e.1), (0x18, 8, e.2)])) 4) ∧
    (¬ overlap ⟨2 ^ 20 + 2 ^ 16, 2 ^ 16⟩ ⟨2 ^ 20, 2 ^ 16⟩ ∧ overlap ⟨2 ^ 20 + 2 ^ 16 - 1, 2 ^ 16⟩ ⟨2 ^ 20, 2 ^ 16⟩) ∧
    Commanded (unmapped (pageWith [(0, 2, 5), (8, 8, 0x8001)])) 5 ∧
    (Commanded (pageWith [(0, 2, 6)]) 6 ∧ (pageWith [(0, 2, 6)]).dev.lc = .develop ∧ 1 ∉ (pageWith [(0, 2, 6)]).dev.keys ∧ 0 ∈ (pageWith [(0, 2, 6)]).dev.keys) ∧
    Commanded (unmapped (pageWith [(0, 2, 7), (8, 8, 1)])) 7 ∧ Commanded (pageWith [(0, 2, 8), (8, 8, 15)]) 8 ∧
    Commanded (pageWith [(0, 2, 9), (8, 8, 100), (0x10, 8, 2 ^ 48 - 1), (0x18, 8, 1600)]) 9 ∧
    Commanded (pageWith [(0, 2, 0xA), (8, 1, 0xFF), (9, 1, 63), (0xA, 1, 1), (0xB, 1, 1)]) 0xA := by
  refine ⟨⟨commanded_of (by decide +kernel), by decide +kernel, commanded_of (by decide +kernel), by decide +kernel⟩,
    ⟨commanded_of (by decide +kernel), ?_, commanded_of (by decide +kernel), ?_⟩,
    ⟨commanded_of (by decide +kernel), ⟨(63, (rival (pageWith [(0, 2, 3), (8, 8, 0x21)])).tenant 63), by decide +kernel, by decide, 5, by decide +kernel, by decide +kernel⟩,
      commanded_of (by decide +kernel), by decide +kernel⟩,
    fun e he => commanded_of ?_, by unfold overlap; decide, commanded_of (by decide +kernel),
    ⟨commanded_of (by decide +kernel), by decide +kernel, by decide +kernel, by decide +kernel⟩, commanded_of (by decide +kernel),
    commanded_of (by decide +kernel), commanded_of (by decide +kernel), commanded_of (by decide +kernel)⟩
  · exact ⟨(0, (pageWith [(0, 2, 2)]).run 0), by decide +kernel, by decide +kernel, by unfold wanting; decide +kernel⟩
  · rintro ⟨e, he, _⟩; simp [unmapped] at he
  · revert e; decide +kernel

def inSafeMode (s : State) : State := { s with dev := { s.dev with safe := true } }
theorem witness_DeviceCommands :
    ((pageWith [(0, 2, 0x17)]).dev.mbDone = false ∧ (pageWith [(0, 2, 0x17)]).pageOk (pageWith [(0, 2, 0x17)]).mbPage = false) ∧
    (∀ e ∈ [(1, []), (2, []), (3, []), (4, []), (5, []), (6, []), (7, [(8, 8, 1)]), (8, []), (9, [(8, 8, 1000000), (0x18, 8, 1600)]), (0xA, []), (0x14, [(8, 8, 800)]), (0x15, [(8, 8, 2)])],
      Commanded (inSafeMode (pageWith ((0, 2, e.1) :: e.2))) e.1) ∧
    (∀ e ∈ [(0x10, [(8, 8, 0x20000), (0x10, 8, 64)]), (0x11, [(4, 1, 0xFF), (8, 8, 5), (0x28, 8, 2 ^ 47 - 1680)]), (0x12, [(8, 8, 4)]), (0x13, []), (0x13, [(8, 8, 1)]), (0x14, [(8, 8, 2800)]),
        (0x15, []), (0x16, [])], Commanded (pageWith ((0, 2, e.1) :: e.2)) e.1) ∧
    argOf (pageWith [(0, 2, 0x11), (0x28, 8, 2 ^ 47 - 1680)]) 0x28 + 1680 ≤ 2 ^ 47 ∧ argOf (pageWith [(0, 2, 0x12), (8, 8, 4)]) 8 = 4 ∧
    (∀ e ∈ (pageWith [(0, 2, 0x15)]).tenants, ∀ q ∈ e.2.links, q.2.en = false) := by
  refine ⟨by decide +kernel, fun e he => commanded_of ?_, fun e he => commanded_of ?_, by decide +kernel, by decide +kernel, by decide +kernel⟩ <;> revert e <;> decide +kernel

/-- Whatever the steps of a start do, it succeeds or has a first step that fails; temperatures and powers on both sides of each limit. -/
theorem witness_DeviceEvents :
    (∀ (s : State) (cold : Bool), (∀ k, 1 ≤ k → k ≤ 8 → ¬ StepFails s cold k) ∨ ∃ k, FirstFails s cold k) ∧
    State.reset.dev.tmax < 115 ∧ 115 ≤ ({ Device.reset with tmax := 115 } : Device).tmax ∧
    (let d : Device := { Device.reset with tmax := 105, sinceStep := 65536, tstep := 62 }
     65536 ≤ d.sinceStep ∧ 105 ≤ d.tmax ∧ d.tstep < 63) ∧
    (let d : Device := { Device.reset with tmax := 99, sinceStep := 65536, tstep := 1, power := 2799 }
     d.tmax < 100 ∧ d.power < d.pwrcap ∧ 0 < d.tstep) ∧
    (rowOffset 5 0x1A3 + 17 / 64 * 8 < State.reset.scrcap ∧ rowOffset 31 0x17FF + 511 / 64 * 8 < 0xC00000) ∧
    (let s := ((regsAt 0 0).setCluster 0 { (regsAt 0 0).cluster 0 with gauges := [(3, { Gauge.cleared with cfg := 0x106 })] }).setDie 0 { (regsAt 0 0).die 0 with tick := 65536 }
     (s.die 0).tick.toNat % 65536 = 0 ∧ (s.clusters.map Prod.fst).Nodup ∧ 0 ∈ s.clusters.map Prod.fst ∧
     ∃ g, (s.cluster 0).gauges.find? 3 = some g ∧ g.cfg.toNat % 16 = 6 ∧ g.cfg.getLsbD 4 = false ∧ g.cfg.getLsbD (8 + 0) = true) := by
  refine ⟨fun s cold => ?_, by decide, by decide, by decide, by decide, by decide +kernel, by decide +kernel, by decide +kernel, by decide +kernel,
    { Gauge.cleared with cfg := 0x106 }, by decide +kernel, by decide, by decide, by decide⟩
  by_cases h : ∃ k, 1 ≤ k ∧ k ≤ 8 ∧ StepFails s cold k
  · refine .inr ?_
    classical
    obtain ⟨h1, h2, h3⟩ := Nat.find_spec h
    exact ⟨Nat.find h, h1, h2, h3, fun j hj hlt hf => Nat.find_min h hlt ⟨hj, by omega, hf⟩⟩
  · exact .inl fun k h1 h2 hf => h ⟨k, h1, h2, hf⟩

/-- Run 0 of the placed tenant with changes, its packet in progress in queue 0, the focus on it. -/
def runAt (f : Run → Run) : State :=
  let s := State.reset.placeTenant.placeRun
  let s := s.setQueue ⟨0, false, 0⟩ { Queue.reset with en := true, tail := 1, state := 4, cur := encodePacket (.runPacket hdr0 goodBody), run := some 0 }
  let s := s.setRun 0 (f { s.run 0 with body := { goodBody with errarea := 0x10000, exits := 0x5000, savearea := 0x100000 } })
  s.setPage 0 { Page.none with level := 0 }
def pageOfRun (s : State) (p : Page) : State := (s.setPage 0 p).setRegion 0 { s.region 0 with holder := some (0, 0) }

/-- A run that is over; one in error, by a trap and not; one that hangs, one under its limit; a capture that GRACE ends. -/
theorem witness_RunEnds :
    (RunOver (runAt id) 0 ((runAt id).run 0) ∧ (runAt id).qc.quiet = 0 ∧ ((runAt id).queue ((runAt id).run 0).queue).cur.isSome = true) ∧
    ¬ RunOver (runAt (fun r => { r with phase := .waiting })) 0 ((runAt (fun r => { r with phase := .waiting })).run 0) ∧
    (∀ cause ∈ [3, 15], let s := runAt (fun r => { r with phase := .erring, err := some { ErrRec.of .access 0 with cause := cause }, traps := [(2, List.replicate 64 1)] })
      (s.run 0).phase = .erring ∧ (∃ e, (s.run 0).err = some e ∧ e.cause = cause) ∧ (∀ k ∈ (s.run 0).traps, k.1 < 192 ∧ k.2.length = 64)) ∧
    (let s := runAt (fun r => { r with hanglim := 7, hang := 7 })
     (s.run 0).phase = .active ∧ (s.run 0).hanglim ≠ 0 ∧ (s.run 0).hanglim ≤ (s.run 0).hang ∧ ¬ (s.run 0).hang < (s.run 0).hanglim) ∧
    (let s := pageOfRun (runAt (fun r => { r with phase := .switching, graceLeft := some 0 })) (pageIn 4)
     (s.run 0).phase = .switching ∧ (s.run 0).graceLeft = some 0 ∧ (s.run 0).err = none ∧ ∃ p ∈ s.livePages 0, (s.page p).captured = false) ∧
    (let s := runAt (fun r => { r with phase := .switching, graceLeft := some 0, tack := true, edges := [(0, { Edge.none with freed := false, carved := true, count := 1 })] })
     (s.run 0).phase = .switching ∧ (s.run 0).graceLeft = some 0 ∧ (s.run 0).err = none ∧ ¬ EdgesDrained s 0 (s.run 0)) := by
  refine ⟨⟨⟨by decide +kernel, by decide +kernel, by decide +kernel, by decide +kernel, by decide +kernel⟩, by decide +kernel, by decide +kernel⟩,
    fun h => absurd h.1 (by decide +kernel), ?_, by decide +kernel, ⟨by decide +kernel, by decide +kernel, by decide +kernel, 0, by decide +kernel, by decide +kernel⟩,
    ⟨by decide +kernel, by decide +kernel, by decide +kernel, fun h => absurd (h (by decide +kernel) _ (List.mem_singleton.2 rfl)) (by decide +kernel)⟩⟩
  simp only [List.forall_mem_cons, List.not_mem_nil, false_imp_iff, implies_true, and_true]
  exact ⟨⟨by decide +kernel, ⟨_, rfl, rfl⟩, by decide +kernel⟩, ⟨by decide +kernel, ⟨_, rfl, rfl⟩, by decide +kernel⟩⟩

/-- A page at its capture point; a captured one whose records can be written; a capture over; the die and time of a resumption; a tack; a
timed channel that faults. -/
def svPage : Page := { pageIn 4 with captured := true, svReq := some (0x200000, 7) }
def svState : State := (pageOfRun (runAt id) svPage).setRegion 0 { Region.free with holder := some (0, 0), xoff := true }
/-- The capture of a run whose clusters have all gone back. -/
def captured0 (why : SwitchWhy) : State := runAt (fun r => { r with phase := .switching, why := why, triads := [], body := { r.body with savesz := 2 ^ 10 } })
def resuming : State :=
  let s := pageOfRun (runAt (fun r => { r with resumeAt := some 100 })) svPage
  s.setCtl 0 { s.ctl 0 with st := .stopped }
def timed : State :=
  let s := runAt (fun r => { r with chans := [(0, { XChan.none with sendSt := 2, recvSt := 2 })] })
  s.setCtl 0 { s.ctl 0 with st := .running, pc := 0x1000 }
theorem witness_Captures :
    (let s := pageOfRun (runAt id) { pageIn 4 with capReq := true, frozen := true }
     WantsCapture s 0 (s.page 0) ∧ (s.page 0).frozen = true) ∧
    ¬ WantsCapture (pageOfRun (runAt id) (pageIn 4)) 0 ((pageOfRun (runAt id) (pageIn 4)).page 0) ∧
    ((svState.page 0).captured = true ∧ (svState.page 0).svReq = some (0x200000, 7) ∧ (∀ c ∈ (svState.run (svState.page 0).run).clusters, (svState.cluster c).cmds = []) ∧ svState.captureQuiet 0 = true ∧ svState.regionsOf 0 = [0] ∧
      ∃ u, svState.writeRecords 0 0x200000 [0] = .ok u) ∧
    (∀ why ∈ [SwitchWhy.scheduler, .timing, .request], CaptureOver (captured0 why) 0 ((captured0 why).run 0) ∧ (captured0 why).qc.quiet = 0 ∧
      ((captured0 why).settleCapture 0).saveFits 0 = true ∧ ((captured0 why).queue ((captured0 why).run 0).queue).cur.isSome = true ∧
      ∃ w, ((captured0 why).settleCapture 0).writeSave 0 = .ok w) ∧
    ((resuming.run 0).resumeAt = some 100 ∧ (100 : W64).toNat ≤ ((resuming.setDie 0 { resuming.die 0 with pktime := 100 }).die 0).pktime.toNat ∧
      (resuming.die 0).pktime.toNat < (100 : W64).toNat ∧ (∀ c ∈ (resuming.run 0).clusters, c / 64 ≠ 0 → (resuming.ctl c).st ≠ .stopped) ∧
      (∀ e ∈ resuming.pages, e.2.die = 0) ∧ (resuming.pages.map Prod.fst).Nodup ∧ (resuming.ctl 0).st = .stopped ∧
      resuming.pages.find? (pidOf 0 0) = some svPage ∧ svPage.captured = true) ∧
    ((timed.run 0).chans.find? 0 = some { XChan.none with sendSt := 2, recvSt := 2 } ∧ 0 < (timed.run 0).chans.length ∧ (timed.run 0).phase = .active ∧
      (timed.run 0).resumeAt = none ∧ (timed.run 0).clusters.Nodup ∧
      ∃ k ∈ (timed.run 0).clusters, (timed.cluster k).owner = some 0 ∧ (timed.ctl k).half = none ∧ (timed.ctl k).st = .running) := by
  refine ⟨⟨⟨by decide +kernel, by decide +kernel, by decide +kernel, .inr ⟨by decide +kernel, .inl (by decide +kernel)⟩⟩, by decide +kernel⟩, ?_,
    ⟨by decide +kernel, by decide +kernel, by decide +kernel, by decide +kernel, by decide +kernel, exOk_of (by decide +kernel)⟩, fun why h => ⟨⟨?_, ?_, ?_, ?_, ?_⟩, ?_, ?_, ?_, exOk_of ?_⟩,
    by decide +kernel, ⟨by decide +kernel, by decide +kernel, by decide +kernel, by decide +kernel, by decide +kernel, 0, by decide +kernel, by decide +kernel, by decide +kernel, by decide +kernel⟩⟩
  · rintro ⟨_, _, _, h | ⟨h, _⟩⟩ <;> revert h <;> decide +kernel
  · revert why; decide +kernel
  · revert why; decide +kernel
  · have e : ((captured0 why).run 0).clusters = [] := by revert why; decide +kernel
    rw [e]; exact fun c hc => absurd hc (by simp)
  · have e : ((captured0 why).run 0).tack = false := by revert why; decide +kernel
    exact fun ht => absurd (e.symm.trans ht) Bool.false_ne_true
  all_goals revert why; decide +kernel

/-- A wave of one page to place on a die with a free region, and with none; gates that open, of a page alone and of a group. -/
def wavesAt (full : Bool) : State :=
  let s := runAt (fun r => { r with graphs := [(0, { graph0 with pages := [⟨0, 0, 5, 0, 1, 1⟩] })], waves := [⟨0, 5, false, [0]⟩] })
  if full then (List.range 16).foldl (fun s i => s.setRegion i { s.region i with holder := some (255, 0) }) s else s.setRegion 0 { s.region 0 with holder := some (255, 0) }
theorem witness_PlacementAndGates :
    (∀ full : Bool, let s := wavesAt full
      (s.run 0).waves = [] ++ ⟨0, 5, false, [0]⟩ :: [] ∧ (s.run 0).phase = .active ∧ (s.run 0).err = none ∧ (s.run 0).edges = [] ∧ (s.run 0).chans = [] ∧
      (s.graphOf 0 0).wavePages 5 = [0] ∧ (s.page (pidOf 0 0)).level ≤ 1 ∧ (s.page (pidOf 0 0)).w = 1 ∧ (s.page (pidOf 0 0)).h = 1) ∧
    (∀ c ∈ ((wavesAt true).run 0).clusters, c / 64 = ((wavesAt true).page (pidOf 0 0)).die → ∀ o < 16, ¬ FreeAt (wavesAt true) c o) ∧
    (((wavesAt false).run 0).clusters = [] ++ 0 :: [64, 128] ∧ (0 : Nat) / 64 = ((wavesAt false).page (pidOf 0 0)).die ∧ FreeAt (wavesAt false) 0 1 ∧ ∀ k < 1, ¬ FreeAt (wavesAt false) 0 k) ∧
    ((wavesAt true).run 9).phase ≠ .active ∧
    (let s := pageOfRun (runAt id) { pageIn 3 with gated := true }
     (s.page 0).level = 3 ∧ (s.page 0).gated = true ∧ (s.run (s.page 0).run).phase = .active ∧ s.inGroup 0 = false ∧ (s.page 0).svClosed = false ∧ s.gateFault 0 = none) ∧
    (let s := pageOfRun (runAt (fun r => { r with graphs := [(0, { graph0 with pages := [⟨0, 0, 5, 0, 1, 1⟩] })], chans := [(0, { XChan.none with ppage := 0, cpage := 0, cport := 0, pport := 16 })] })) { pageIn 3 with gated := true, wave := 5 }
     s.inGroup 0 = true ∧ s.groupOf 0 = [0] ∧ s.groupReady 0 = true ∧ (s.page 0).level ≠ 4 ∧ ((s.setPage 0 { s.page 0 with openAt := some 300 }).page 0).openAt = some 300) := by
  refine ⟨by decide +kernel, by unfold FreeAt; decide +kernel, by unfold FreeAt; decide +kernel, by decide +kernel, by decide +kernel, by decide +kernel⟩

/-- Page 0 on region 0 with one stage, 3 iterations taken of a TRIP, and a matrix node. -/
def lastPeriod (p : Page) : State := (cellWith 0 0 0).setPage 0 { p with level := 4, sm := 1, lm := 1, nextIt := 3 }
/-- The three ways in which a pass's last iteration is known; passes to come, and none. -/
theorem witness_PassesAndPeriods :
    (∀ p ∈ [{ Page.none with trip := 3 }, { Page.none with trip := 0, exitF := true, exitIt := 2 }, { Page.none with trip := 9, exitF := true, exitIt := 2 }],
      PassEnds ((lastPeriod p).page 0) ∧ ((lastPeriod p).page 0).counter = 0 ∧ (lastPeriod p).regionsOf 0 = [0] ∧
      ((lastPeriod p).page 0).passes ≠ 0 ∧ ((lastPeriod p).page 0).passIdx + 1 = ((lastPeriod p).page 0).passes) ∧
    (let p := { Page.none with trip := 3, passes := 2 }
     ((lastPeriod p).page 0).passIdx + 1 ≠ ((lastPeriod p).page 0).passes) ∧
    ¬ PassEnds ((lastPeriod { Page.none with trip := 4 }).page 0) := by
  have pe (p : Page) (h : p.retiring = false) (h0 : p.sm.getLsbD 0 = true) (h2 : PassLast p 2) (h3 : if p.trip = 0 then (p.nextIt + 0) % 2 ^ 32 = (2 + p.depth) % 2 ^ 32 else p.nextIt + 0 = 2 + p.depth) : PassEnds p :=
    ⟨h, 2, 0, h2, h0, fun j hj => absurd hj (Nat.not_lt_zero _), h3⟩
  refine ⟨?_, by decide +kernel, ?_⟩
  · simp only [List.forall_mem_cons, List.not_mem_nil, false_imp_iff, implies_true, and_true]
    exact ⟨⟨pe _ (by decide +kernel) (by decide +kernel) (.inl (by decide +kernel)) (by decide +kernel), by decide +kernel⟩,
      ⟨pe _ (by decide +kernel) (by decide +kernel) (.inr (.inl (by decide +kernel))) (by decide +kernel), by decide +kernel⟩,
      ⟨pe _ (by decide +kernel) (by decide +kernel) (.inr (.inr (by decide +kernel))) (by decide +kernel), by decide +kernel⟩⟩
  · rintro ⟨_, l, k, hl, hk, hj, he⟩
    have e : ((lastPeriod { Page.none with trip := 4 }).page 0) = { Page.none with trip := 4, level := 4, sm := 1, lm := 1, nextIt := 3 } := by decide +kernel
    rw [e] at hl hk hj he
    rcases hl with ⟨_, _, h⟩ | ⟨h, _⟩ | ⟨_, h, _⟩
    · have h4 : l = 3 := by simpa using h
      have hk0 : k = 0 := by simpa [BitVec.getLsbD_one] using hk
      subst h4 hk0
      exact absurd he (by decide +kernel)
    · simp at h
    · simp [Page.none] at h

def slot0 (k : SlotKind) (v : W32) : Slot := { kind := k, value := v, dest := 15, wq := true, out := true, live := true, dist := 1, rank := 3, ord := false, rel := none, scope := 0, port := 0, its := some 0 }
def later (k : SlotKind) : Slot := { slot0 k 9 with dist := 3 }
def slotted (l : List Slot) (unit : Nat) (flag : Bool) : State :=
  let s := cellWith 0 0 0
  { s.setCell 0 0 { s.cell 0 0 with slots := l } with focus := { Focus.none with unit := unit, flag := flag } }
def xslot (k : XSlotKind) : XSlot := { kind := k, tag := 63, vals := List.replicate 64 0x3F800000, ng := 1, fmt := 2, buf := 1, spbase := 0, cancel := false, ovfg := false, live := true, its := some 0, dist := 1 }

/-- Every kind of slot, due alone and behind an equal one, live and dead. -/
theorem witness_ResultLandings :
    (∀ k ∈ [SlotKind.value, .pred, .valuePush, .mark, .exit, .drop, .push, .psend], OneDue ((slotted [later .value, slot0 k 2, later .pred] 0 false).cell 0 0) [later .value] (slot0 k 2) [later .pred] ∧
      ((slotted [] 0 false).page 0).slotLive (slot0 k 2).its (slot0 k 2).live = true ∧ ((deadly (slotted [] 0 false)).page 0).slotLive (slot0 k 2).its (slot0 k 2).live = false) ∧
    (((slotted [{ slot0 .value 1 with out := false }, { slot0 .value 2 with out := false }] 0 false).cell 0 0).slots = [{ slot0 .value 1 with out := false }] ++ [{ slot0 .value 2 with out := false }]) ∧
    (let m : NodeSlot := { kind := .value, value := some 7, dq := 3, out := true, live := true, its := some 0, dist := 1, range := 0, ident := 0 }
     let s := slotted [] 64 false
     ((s.setMn 0 { s.mn 0 with slots := [m] }).mn 0).slots = [] ++ m :: []) ∧
    (∀ k ∈ [XSlotKind.drn, .ldb, .swb, .cfg, .row], let s := slotted [] 65 false
      ((s.setXn 0 { s.xn 0 with slots := [xslot k], cfmt := 2 }).xn 0).slots = [] ++ xslot k :: [] ∧ (xslot k).vals.length = 64 ∧
      (s.page 0).slotLive (xslot k).its (xslot k).live = true) ∧
    (∀ k ∈ [SlotKind.exit, .drop], let s := slotted [slot0 k 0] 0 true
      s.regionsOf 0 = [0] ∧ (s.page 0).lm.getLsbD 0 = true ∧
      ∀ r' ∈ s.regionsOf 0, ∀ k' < 64, ∀ sl' ∈ (s.cell r' k').slots, sl'.dist = 1 → (sl'.kind = .exit ∨ sl'.kind = .drop) → sl' = slot0 k 0) := by
  refine ⟨?_, by decide +kernel, by decide +kernel, by decide +kernel, by decide +kernel⟩
  unfold OneDue; decide +kernel

/-- Cell (0,0) routed to cell (0,1), to output port 0 and to the node; a token to send and room, or no room, for it; a unit that is done, of
a retiring page, the last of its region. -/
def routed (full : Bool) : State :=
  let s := (cellWith 0 0 0)
  let s := s.setRegion 0 { s.region 0 with routes := [(4, 0), (256, 0), (272, 0)], outmask := 1 }
  let s := s.setCell 0 0 { s.cell 0 0 with outq := ⟨[tk 5], 0⟩ }
  let s := if full then s.setMn 0 { s.mn 0 with mi := Vector.replicate 4 ⟨[tk 1, tk 2, tk 3], 1⟩ } else s
  { s with focus := Focus.none }
def retiring0 (returned : List Nat) : State :=
  let s := (cellWith 0 0 0)
  let s := s.setPage 0 { s.page 0 with level := 5, retiring := true }
  { s.setRegion 0 { s.region 0 with returned := returned } with focus := { Focus.none with unit := 65 } }
theorem witness_DeparturesAndReturns :
    ((routed false).sourceQ 0 0).head? = some (tk 5) ∧ (routed false).destsOf 0 0 ≠ [] ∧ ((routed false).destsOf 0 0).Nodup ∧
    (∀ d ∈ (routed false).destsOf 0 0, DestFree (routed false) d) ∧ (∃ d ∈ (routed true).destsOf 0 0, ¬ DestFree (routed true) d) ∧
    ((retiring0 []).page 0).level = 5 ∧ ((retiring0 []).region 0).holder.isSome = true ∧ ((retiring0 []).page 0).captured = false ∧ UnitDone (retiring0 []) 0 65 ∧
    ([65] : List Nat).length < 66 ∧ 66 ≤ (65 :: List.range 65).length ∧ 65 ∉ ((retiring0 (List.range 65)).region 0).returned ∧
    (∀ e ∈ ((retiring0 (List.range 65)).region 0).outp, e.2.q.toks = []) ∧ (∀ n < 4, (qAt ((retiring0 (List.range 65)).mn 0).mo n).toks = []) ∧
    ((retiring0 (List.range 65)).xn 0).s.toks = [] ∧ ((retiring0 (List.range 65)).chan 0 1).cur = none ∧ ((retiring0 (List.range 65)).chan 0 3).cur = none ∧
    (∀ r ∈ ((retiring0 []).page 0).regions, r = 0) ∧ UnitDone (retiring0 []) 0 64 ∧ UnitDone (retiring0 []) 0 63 := by
  refine ⟨by decide +kernel, by decide +kernel, by decide +kernel, by unfold DestFree; decide +kernel, ⟨(0, 272), by decide +kernel, by unfold DestFree; decide +kernel⟩, by decide +kernel,
    by decide +kernel, by decide +kernel, ⟨by decide, by decide, fun _ => by decide +kernel⟩, by decide, by decide, by decide +kernel, by decide +kernel, by decide +kernel,
    by decide +kernel, by decide +kernel, by decide +kernel, by decide +kernel, ⟨by decide, fun _ => by decide +kernel, by decide⟩, ⟨fun _ => by decide +kernel, by decide, by decide⟩⟩

/-- A B load that takes a row of B, of scales and of routing; a drain slot that leaves as a token into an edge, and as a row into a
binding. -/
def loadingB (mfmt taken : Nat) : State :=
  let s := cellWith 0 0 0
  s.setXn 0 { s.xn 0 with ldb := ⟨true, true, 1, mfmt, 0, taken⟩, b := ⟨[⟨⟨List.replicate 64 7, 0, 0⟩, 0⟩], 0⟩ }
def draining (g : Graph) (e : Tab Edge) (k : Chan) : State :=
  let s := cellWith 0 0 0
  let s := s.setRun 0 { s.run 0 with graphs := [(0, g)], edges := e }
  let s := s.setRegion 0 { s.region 0 with routes := [(256, 0x54)], outmask := 1 }
  let s := s.setChan 0 1 k
  s.setXn 0 { s.xn 0 with drains := [⟨List.replicate 64 3, 3⟩] }
def drainBind : Binding := { Binding.fresh .plain 0 16 0 0 (bytesWith 64 [(0x10, 4, 1), (0x18, 4, 1), (0x20, 4, 1), (0x28, 4, 4), (0x30, 4, 1)]) 0 with moving := true }
theorem witness_MatrixRows :
    (∀ e ∈ [(0, 0), (0, 65), (8, 68)], let x := (loadingB e.1 e.2).xn 0
      x.ldb.busy = true ∧ x.ldb.begun = true ∧ x.b.head? = some ⟨List.replicate 64 7, 0, 0⟩ ∧ x.ldb.taken = e.2) ∧
    (let s := draining graph0 [(0, { Edge.none with ppage := 0, pport := 16, cpage := 1 })] Chan.load
     s.destsOf 0 0x54 = [(0, 256)] ∧ s.portConn 0 (256 - 240 + 32 * s.sregOf 0) = .edge 0 ∧ (s.outp 0 0).q.room 4 = true ∧ (s.page 0).captured = false ∧
     (s.xn 0).drains = ⟨List.replicate 64 3, 3⟩ :: [] ∧
     ((s.setOutp 0 0 ⟨⟨[tk 1, tk 2, tk 3, tk 4], 0⟩, false⟩).outp 0 0).q.room 4 = false) ∧
    (let s := draining graph0 [] { Chan.load with cur := some drainBind }
     s.destsOf 0 0x54 = [(0, 256)] ∧ s.portConn 0 (256 - 240 + 32 * s.sregOf 0) = .opened ∧ (s.chan 0 1).cur = some drainBind ∧ drainBind.port = 256 - 240 ∧
     drainBind.kind = .plain ∧ s.takes 0 drainBind = true ∧ drainBind.replies.length < 64 ∧ (s.page 0).captured = false) := by decide +kernel

/-- A binding of channel `ch` of region 0, its page running. -/
def bindState (ch : Nat) (b : Binding) : State :=
  let s := cellWith 0 0 0
  let s := s.setRegion 0 { s.region 0 with outmask := 1, inmask := 1 }
  { s.setChan 0 ch { Chan.load with cur := some b } with focus := { Focus.none with num := ch } }
def recOf (base count : Nat) : List Byte := bytesWith 64 [(0, 8, base), (0x10, 4, count), (0x14, 4, 4), (0x18, 4, 1), (0x20, 4, 1), (0x28, 4, 1), (0x3A, 1, 0x85)]
def readBind (base : Nat) (replies : List Reply) : Binding := { Binding.fresh .plain 0 0 0 0 (recOf base 2) 0 with moving := true, replies := replies }
def writeBind (kind : BindKind) (replies : List Reply) : Binding := { Binding.fresh kind 0 16 0 (5 + 256 * 1) (recOf 0 2) 0 with moving := true, replies := replies }
def reply0 : Reply := ⟨[1, 2, 3, 4], 0, 0, 0⟩
def withTok (s : State) : State := s.setOutp 0 0 ⟨twoToks, false⟩
theorem takesNow_of {s : State} {rid : Nat} {b : Binding}
    (h : (b.moving && !b.stopping && !b.ended && !(s.page (s.pageOf rid)).captured &&
      (List.range 4).all (fun j => match (s.chan rid j).cur with | some x => x.kind != .indexed | none => true)) = true) : TakesNow s rid b := by
  simp only [Bool.and_eq_true, Bool.not_eq_true', List.all_eq_true, List.mem_range] at h
  obtain ⟨⟨⟨⟨h1, h2⟩, h3⟩, h4⟩, h5⟩ := h
  refine ⟨h1, h2, h3, h4, fun j x hj hx hk => ?_⟩
  have := h5 j hj
  rw [hx] at this
  simp [hk] at this

/-- A binding to start and one that waits for its cycle; elements read at the last aligned address and at a misaligned one; one written,
delivered, taken and forwarded; ports and queues with room and without; bindings complete and not. -/
theorem witness_BindingEvents :
    (let s := bindState 0 (Binding.fresh .plain 0 0 0 0 (recOf 0 2) 0)
     (s.chan 0 0).cur = some (Binding.fresh .plain 0 0 0 0 (recOf 0 2) 0) ∧ (s.page (s.pageOf 0)).level = 4 ∧ (s.cluster 0).preds 0 = 0 ∧ (s.cluster 0).behindPlace 0 = false ∧
     (0 : Nat) ≤ (s.page (s.pageOf 0)).unfrozen ∧ (s.page (s.pageOf 0)).unfrozen < (Binding.fresh .plain 1 0 0 0 (recOf 0 2) 0).start) ∧
    (∀ base ∈ [State.reset.scrcap - 8, 2], let s := bindState 0 (readBind base [])
      (s.chan 0 0).cur = some (readBind base []) ∧ NearPlain (readBind base []).shape ∧ 0 < patternTotal (readBind base []).shape ∧
      0 ≤ patternAddr (readBind base []).shape 0 ∧ patternAddr (readBind base []).shape 0 < s.scrcap ∧ elementBytes s 0 (readBind base []) = 4 ∧
      ((patternAddr (readBind base []).shape 0).toNat % 4 = 0 ↔ base ≠ 2) ∧ (s.run (s.page (s.pageOf 0)).run).err = none) ∧
    (let b := { writeBind .plain [reply0] with cursor := 1 }
     let s := bindState 1 b
     (s.chan 0 1).cur = some b ∧ b.shape.relr = false ∧ NearPlain b.shape ∧ 0 ≤ patternAddr b.shape (b.cursor - b.replies.length) ∧
     patternAddr b.shape (b.cursor - b.replies.length) < s.scrcap ∧ (patternAddr b.shape (b.cursor - b.replies.length)).toNat % elementBytes s 0 b = 0) ∧
    (let b := readBind 0 [reply0]
     let s := bindState 0 b
     s.rowDests (s.pageOf 0) (s.sregOf 0) b.port = [] ∧ (s.page (s.pageOf 0)).region (s.sregOf 0) = 0 ∧ (s.run (s.page (s.pageOf 0)).run).seams = [] ∧
     (s.inp 0 0).q.toks.length + (s.inp 0 0).q.freed < 4 ∧
     4 ≤ ((s.setInp 0 0 ⟨⟨[tk 1, tk 2, tk 3], 1⟩, false⟩).inp 0 0).q.toks.length + ((s.setInp 0 0 ⟨⟨[tk 1, tk 2, tk 3], 1⟩, false⟩).inp 0 0).q.freed) ∧
    (∀ kind ∈ [BindKind.plain, .trigger], let b := writeBind kind []
      let s := withTok (bindState 1 b)
      (s.chan 0 1).cur = some b ∧ (s.outp 0 (b.port - 16)).tack = false ∧ TakesNow s 0 b ∧ b.cursor < patternTotal b.shape ∧ s.drainOf (s.pageOf 0) (s.sregOf 0) (b.port - 16) = none ∧
      (s.outp 0 (b.port - 16)).q.head? = some (tk 0x11) ∧ s.indexed 0 (b.target / 256 % 256) = some 64 ∧
      ((s.cluster 64).tqs.get TrigQ.empty (b.target % 16)).toks.length + ((s.cluster 64).tqs.get TrigQ.empty (b.target % 16)).reserved < 16 ∧
      ¬ TakesNow s 0 { b with ended := true }) ∧
    (PairsIn ⟨[0], 0, 0⟩ 0 ∧ PairsAt ⟨[16 * 64], 0, 4⟩ 0 ∧ ¬ PairsIn ⟨[16], 0, 1⟩ 0 ∧ ¬ PairsAt ⟨[0], 0, 0⟩ 0) ∧
    (let b := { readBind 0 [] with cursor := 2, addBytes := 8 }
     patternTotal b.shape ≤ b.cursor ∧ ((bindState 0 b).chan 0 0).pend = none ∧ b.shape.bsem.testBit 7 = true ∧ b.addBytes ≠ 0 ∧ ¬ patternTotal b.shape ≤ ({ b with cursor := 1 } : Binding).cursor) := by
  refine ⟨by decide +kernel, ?_, ?_, by decide +kernel, ?_, ⟨.inl (by decide), ⟨by decide, 16 * 64, by decide, by decide, by decide, by decide⟩, ?_, fun h => h.1 rfl⟩, by unfold patternTotal; decide +kernel⟩
  · unfold NearPlain patternAddr patternTotal elementBytes; decide +kernel
  · unfold NearPlain patternAddr elementBytes; decide +kernel
  · intro kind hk
    refine ⟨?_, ?_, takesNow_of ?_, ?_, ?_, ?_, ?_, ?_, fun h => absurd h.2.2.1 (by simp)⟩
    all_goals revert kind; (try unfold patternTotal); decide +kernel
  · rintro (⟨h, _⟩ | ⟨_, n, hn, h, _⟩)
    · exact absurd h (by decide)
    · obtain rfl := List.mem_singleton.1 hn; exact absurd (h rfl) (by decide)

/-- A copy that is ready with good records and bad, the 16th that moves and no more; a copy whose bytes are written; a template armed to a
queue with a token, and to one without. -/
def mover (st n : Nat) (dst : List Byte) : State :=
  let s := regsAt 0 0
  let x : Copy := { Copy.unused with state := st, src := some srcRec, dst := some dst, card := List.replicate 128 0 }
  let s := s.setCluster 0 { s.cluster 0 with copies := (3, x) :: (List.range n).map (fun i => (i + 4, { Copy.unused with state := 3, entry := i + 1 })) }
  { s with focus := { Focus.none with num := 3 } }
def goodSrc : List Byte := bytesWith 64 [(0x10, 4, 2), (0x14, 4, 1), (0x18, 4, 1), (0x20, 4, 1), (0x28, 4, 1)]
def goodDst : List Byte := bytesWith 64 [(0, 8, 16), (0x10, 4, 2), (0x14, 4, 1), (0x18, 4, 1), (0x20, 4, 1), (0x28, 4, 1), (0x30, 4, 1)]
/-- A card that declares a near range to read and one to write. -/
def footCard : List Byte := bytesWith 128 [(0x12, 1, 2), (0x40, 8, 2 ^ 62), (0x48, 8, 4), (0x50, 8, 2 ^ 63 + 2 ^ 62 + 16), (0x58, 8, 4)]
def armedAt (toks : List QTok) : State :=
  let s := { regsAt 0 0 with focus := { Focus.none with num := 63 } }
  s.setCluster 0 { s.cluster 0 with tqs := [(3, ⟨toks, 0⟩)], templates := [(63, ⟨true, true, 3, 0, List.replicate 128 0, srcRec, dstRec⟩)] }
theorem witness_CopyEvents :
    (let s := mover 1 15 dstRec
     s.copyReady 0 3 = true ∧ (∀ e ∈ (s.cluster 0).copies, s.copyReady 0 e.1 = true → (s.copy 0 3).entry ≤ e.2.entry) ∧ (s.cluster 0).copies.countP (fun e => e.2.state == 3) < 16 ∧
     (s.copy 0 3).src = some srcRec ∧ (s.copy 0 3).owner = .controller ∧ (s.cluster 0).owner.isSome = true ∧ (s.run (s.runOf 0)).err = none) ∧
    16 ≤ ((mover 1 16 dstRec).cluster 0).copies.countP (fun e => e.2.state == 3) ∧ (mover 3 0 dstRec).copyReady 0 3 = false ∧
    (copyFault footCard (ShapeRec.of goodSrc) (ShapeRec.of goodDst) = none ∧ patternTotal (ShapeRec.of goodSrc) ≠ 0) ∧
    (∃ f, copyFault (List.replicate 128 0) (ShapeRec.of goodSrc) (ShapeRec.of goodSrc) = some f) ∧ (ShapeRec.of goodSrc).dir = false ∧
    (((mover 3 0 dstRec).copy 0 3).state = 3 ∧ patternTotal (ShapeRec.of (((mover 3 0 dstRec).copy 0 3).src.getD [])) ≤ ((mover 3 0 dstRec).copy 0 3).cursor ∧
      cardBar ((mover 3 0 dstRec).copy 0 3).card = 0 ∧ ((mover 1 0 dstRec).copy 0 3).state ≠ 3) ∧
    ((((armedAt [tk 9]).cluster 0).tqs.get TrigQ.empty ((armedAt [tk 9]).template 0 63).queue).toks = tk 9 :: [] ∧ ((armedAt [tk 9]).template 0 63).loaded = true ∧
      ((armedAt [tk 9]).template 0 63).armed = true ∧ (armedAt [tk 9]).freeCopies 0 ≠ [] ∧ cardBar ((armedAt [tk 9]).template 0 63).card = 0 ∧
      (((armedAt []).cluster 0).tqs.get TrigQ.empty ((armedAt []).template 0 63).queue).toks = []) := by
  refine ⟨by decide +kernel, by decide +kernel, by decide +kernel, by unfold patternTotal; decide +kernel, ?_, by decide +kernel, by unfold patternTotal; decide +kernel, by decide +kernel⟩
  have h : (copyFault (List.replicate 128 0) (ShapeRec.of goodSrc) (ShapeRec.of goodSrc)).isSome = true := by decide +kernel
  exact Option.isSome_iff_exists.1 h

/-- A token and a credit that have come and that have not; a command to take effect and one whose time is to come; a push. -/
def linkChan (f : XChan → XChan) (now : W64) : State :=
  let s := cellWith 0 0 0
  let s := s.setRun 0 { s.run 0 with chans := [(0, f { XChan.none with ppage := 0, pport := 16, cpage := 1, sendSt := 1, recvSt := 1 })] }
  s.setDie 0 { s.die 0 with pktime := now }
def opening (e : Bool) (target : Nat) : ChanCmd := ⟨true, e, target, false, false, false, false⟩
theorem witness_ChannelEvents :
    (let s := linkChan (fun c => { c with flight := [(100, tk 1)], creditFlight := [100] }) 100
     (s.chanOf 0 0).flight = (100, tk 1) :: [] ∧ (100 : W64).toNat ≤ (s.die (s.chanDie 0 (s.chanOf 0 0) false)).pktime.toNat ∧ (s.chanOf 0 0).detour = false ∧
     (s.chanOf 0 0).creditFlight = 100 :: [] ∧ ((linkChan id 99).die 0).pktime.toNat < (100 : W64).toNat ∧ ((linkChan id 99).chanOf 0 0).flight = []) ∧
    (∀ e ∈ [opening false 99, opening true 99, ⟨false, false, 0, false, false, false, false⟩], let s := linkChan (fun c => { c with cmds := [e], sendHeld := true, recvSt := 4, recvAligned := true }) 100
      (s.chanOf 0 0).cmds = [e] ∧ (s.chanOf 0 0).sendSt = 1 ∧ (s.run 0).phase = .active ∧ (s.run 0).resumeAt = none ∧ (s.page (pidOf 0 0)).handle = 0 ∧ (s.page (pidOf 0 0)).run = 0 ∧
      (s.chanOf 0 0).ppage ≠ (s.chanOf 0 0).cpage ∧ (e.opens = false ∨ e.target ≤ (s.runt 0 (s.chanDie 0 (s.chanOf 0 0) true)).toNat)) ∧
    (opening true 101).opens = true ∧ ((linkChan id 100).runt 0 ((linkChan id 100).chanDie 0 ((linkChan id 100).chanOf 0 0) true)).toNat < (opening true 101).target ∧
    (let s := (linkChan id 100).setCell 0 0 { (linkChan id 100).cell 0 0 with slots := [slot0 .chsend 5] }
     OneDue (s.cell 0 0) [] (slot0 .chsend 5) [] ∧ (s.page (s.pageOf 0)).slotLive (slot0 .chsend 5).its (slot0 .chsend 5).live = true ∧ (s.page (s.pageOf 0)).run = 0 ∧
     s.chanAt (s.pageOf 0) (s.sregOf 0) 16 true = some (0, s.chanOf 0 0)) ∧ ((linkChan (fun c => { c with sendSt := 0 }) 0).chanOf 0 0).sendSt = 0 := by
  refine ⟨by decide +kernel, by decide +kernel, by decide +kernel, by decide +kernel, ?_, by decide +kernel⟩
  unfold OneDue; decide +kernel

/-- A tick that sends and one that does not; a first sample from die 0 at a die to be stepped, and a later one; a link that goes down beside
two that are up and beside one that is down, and one to be retrained. -/
def dieAt (f : Die → Die) (d : Nat) : State := { State.reset.setDie d (f Die.reset) with focus := { Focus.none with die := d } }
def linksAre (v : Vector Bool 3) : State := [0, 1, 2].foldl (fun s d => s.setDie d { s.die d with links := v }) State.reset
theorem witness_PackageTime :
    ((dieAt (fun d => { d with tick := 1023 }) 1).die 1).tick.toNat % 1024 ≠ 0 ∧ ((dieAt (fun d => { d with tick := 1024 }) 1).die 1).tick.toNat % 1024 = 0 ∧
    ((dieAt (fun d => { d with tick := 1024 }) 1).die 1).fenced = false ∧ LaneUp State.reset 1 2 ∧ ¬ LaneUp (linksAre (Vector.replicate 3 false)) 1 2 ∧
    (let s := dieAt (fun d => { d with stepped := false, samples := [⟨2, 5, 0⟩, ⟨0, 7, 0⟩] }) 1
     (s.die 1).samples = [⟨2, 5, 0⟩] ++ ⟨0, 7, 0⟩ :: [] ∧ (∀ k ∈ [(⟨2, 5, 0⟩ : Sample)], k.src ≠ 0) ∧ (s.die 1).stepped = false ∧ ((s.die 1).waggle 0).seen = false ∧ (s.die 1).fenced = false) ∧
    (linkUp State.reset 0 1 = true ∧ (∀ i j : Fin 3, linkUp State.reset i.val j.val = true)) ∧
    (let s := linksAre (Vector.ofFn (fun i : Fin 3 => i != 1))
     linkUp s 0 1 = true ∧ linkUp s (linkPair 1).1 (linkPair 1).2 = false ∧ (s.die 0).fenced = false ∧ (s.die 2).fenced = false) := by
  refine ⟨by decide +kernel, by decide +kernel, by decide +kernel, .inl (by decide +kernel), ?_, by decide +kernel, by decide +kernel, by decide +kernel⟩
  rintro (h | ⟨h, _⟩) <;> revert h <;> decide +kernel

theorem nextOf {s : State} (h : (match step s with | .next _ => true | _ => false) = true) : ∃ t, step s = .next t := by
  split at h
  · exact ⟨_, ‹_›⟩
  · cases h

/-- One instruction of every form of encoding, at ends of the ranges of its fields. -/
theorem witness_EncodingRoundTrip :
    (∀ i ∈ [Instr.add ⟨7, 15, 0x10, 0x11, 15, true, true, 0, 0, 0⟩, .mad ⟨0, 0, 0x1F, 0x13, 0, true, false, 0, 0, 0x1E, 0⟩, .li ⟨7, 7, 0, 0xFFFFF, true, true, 0, 0⟩,
        .mxrow ⟨0, 7, 0x18, 0xFF, 2, 3, 1, 0⟩, .stbind 31 30 29, .standardInstruction (.alui .addi 31 30 0xFFF), .signalPacket ⟨2, 0xFFFFFFFF, false⟩ 0xFFFFFFFFFFFFFFF8 1 2],
      (encode i).isSome = true) ∧
    (∀ i ∈ [Instr.linkRead ⟨1, 5, 0x1000, 0x2000, 8, 47, 63, 0, false⟩], i.bytesOk = true ∧ (encodeWork i).isSome = true) ∧
    decodeContext 0x014E10A98000 = .ok (.add ⟨2, 7, 0x02, 0x05, 4, true, true, 0, 0, 0⟩) ∧ decodeCustom 0x0065028B = .ok (.stbind 5 10 6) ∧ decodeStandard 0x02A00513 = .ok (.standardInstruction (.alui .addi 10 0 42)) ∧
    (Instr.stbind 31 30 29).wf = true ∧ (Instr.li ⟨7, 7, 0, 0xFFFFF, true, true, 0, 0⟩).wf = true ∧ (Instr.signalPacket ⟨2, 0xFFFFFFFF, false⟩ 0xFFFFFFFFFFFFFFF8 1 2).wf = true := by
  refine ⟨by decide +kernel, by decide +kernel, ok_of (by decide +kernel), ok_of (by decide +kernel), ok_of (by decide +kernel), by decide +kernel, by decide +kernel, by decide +kernel⟩

/-- A controller about to run a 32-bit and a 16-bit instruction, a unit a word, a queue a packet; a controller that does not run. -/
def codeAt (d : List Byte) : State := State.reset.placeCode d
def wordAt : State := State.reset.placeWord 0 0x300000010000
theorem witness_StepRunsDecoded :
    (∀ d ∈ [[0x13, 0x05, 0xA0, 0x02], [0x01, 0x45]], ((codeAt d).agenda = .ctl 0 :: [] ∧ ((codeAt d).ctl 0).st = .running ∧ ((codeAt d).ctl 0).half = none)) ∧
    (((halfAt true).ctl 0).st = .running ∧ ((halfAt true).ctl 0).half ≠ none ∧ decode32 0x00853583 = .ok (.controllerLoad .ld 11 10 8)) ∧
    (∃ lo u, (codeAt [0x13, 0x05, 0xA0, 0x02]).fetchHalf 0 0x1000 = (.ok lo, u) ∧ lo % 4 = 3) ∧
    (∃ lo u, (codeAt [0x13, 0x05, 0xA0, 0x02]).fetchHalf 0 0x1002 = (.ok lo, u)) ∧
    (∃ lo u, (codeAt [0x01, 0x45]).fetchHalf 0 0x1000 = (.ok lo, u) ∧ lo % 4 ≠ 3 ∧ decode16 (BitVec.ofNat 16 lo) = .ok (.standardInstruction (.alui .addi 10 0 0))) ∧
    decode32 (BitVec.ofNat 32 (0x0513 + 65536 * 0x02A0)) = .ok (.standardInstruction (.alui .addi 10 0 42)) ∧
    (wordAt.agenda = .word 0 0 :: [] ∧ decodeContext ((wordAt.region 0).words.get 0 (16 * 0 + (wordAt.page (wordAt.pageOf 0)).counter)) = .ok (.li ⟨0, 0, 0, 0, true, false, 0, 0⟩)) ∧
    (let s : State := { ringAt { someRing with tail := 0, head := 0xFFFFFFFF } with agenda := [.sub .packet Focus.none] }
     s.agenda = .sub .packet Focus.none :: [] ∧ mayStart (s.queue Focus.none.queue) ∧ s.qc.quiet = 0 ∧ (s.queue Focus.none.queue).pre = [] ∧ (s.queue Focus.none.queue).ind = none ∧
     ∃ b, s.tenantRead Focus.none.queue.tenant ((s.queue Focus.none.queue).qbase.toNat + 64 * ((s.queue Focus.none.queue).head.toNat % 2 ^ (s.queue Focus.none.queue).log2)) 64 = .ok b) ∧
    ((regsAt 0 0).setCtl 0 { (regsAt 0 0).ctl 0 with st := .halted }).ctl 0 ≠ (regsAt 0 0).ctl 0 := by
  refine ⟨by decide +kernel, ⟨by decide +kernel, by decide +kernel, ok_of (by decide +kernel)⟩, ⟨0x0513, _, okPair_of (by decide +kernel), by decide⟩, ⟨0x02A0, _, okPair_of (by decide +kernel)⟩,
    ⟨0x4501, _, okPair_of (by decide +kernel), by decide, ok_of (by decide +kernel)⟩, ok_of (by decide +kernel), ⟨by decide +kernel, ok_of (by decide +kernel)⟩,
    ⟨by decide +kernel, by unfold mayStart; decide +kernel, by decide +kernel, by decide +kernel, by decide +kernel, exOk_of (by decide +kernel)⟩, by decide +kernel⟩

/-- With power, without it, and after a thermal trip. -/
theorem witness_StepsGoOn : State.reset.dev.on = true ∧
    (let s : State := { State.reset with dev := { Device.reset with on := false } }
     s.agenda = [] ∧ s.inbox = [] ∧ s.dev.on = false) ∧
    (let s : State := { State.reset with dev := { Device.reset with stopped := true } }
     s.agenda = [] ∧ s.inbox = [] ∧ s.dev.on = true ∧ s.dev.stopped = true) := by decide +kernel

/-- A state with the invariant that steps: a controller's instruction. -/
theorem witness_StepsKeepInvariant : Spec.Inv (codeAt [0x13, 0x05, 0xA0, 0x02]) ∧ ∃ t, step (codeAt [0x13, 0x05, 0xA0, 0x02]) = .next t :=
  ⟨by unfold Spec.Inv State.memOk State.devOk; decide +kernel, nextOf (by decide +kernel)⟩

/-- Controller 0 asks for the record of page 0 with closed gates; the state once the page is latched. -/
def savingAt : State := let s := graphAt 0 0x200000 3; s.setRegion 0 { s.region 0 with xoff := true }
def latchedPage : State := match exec (.svsave 12 10 11) savingAt with
  | .next t => (match exec .regionCapture { t with focus := { t.focus with page := 0 } } with | .next u => u | _ => t)
  | _ => savingAt
/-- The same for a page that has no region to restore. -/
def loadingAt : State := let s := graphAt 0 0x200000 3; s.setPage 0 { pageIn 3 with w := 0 }

/-- Aligned addresses outside HBM; a page to save, whose record can be written, and one to load; a queue to enable, and one in error. -/
theorem witness_EffectsSeenThrough :
    (∀ kind ∈ [AccKind.read, .write], ∃ p s₁, Uncached p ∧ Uncached ⟨p.pa + 4, 4, p.key⟩ ∧ ((farAt 0x10000000000).ctl 0).half = none ∧ ea (farAt 0x10000000000) 10 8 % 8 = 0 ∧
      (farAt 0x10000000000).place 0 ((farAt 0x10000000000).tenantOf 0) kind plainTarget (ea (farAt 0x10000000000) 10 8) 8 = (.ok [p], s₁)) ∧
    ((savingAt.reg 0 10).toNat = 0 ∧ (savingAt.reg 0 11).toNat = 0x200000 ∧ savingAt.pages.find? (pidOf (savingAt.runOf 0) 0) = some (pageIn 3) ∧ (pageIn 3).captured = false ∧
      (savingAt.cluster 0).cmds = [] ∧ (∀ d ∈ (savingAt.run (pageIn 3).run).clusters, (savingAt.cluster d).cmds = []) ∧ (pageIn 3).svReq = none ∧
      savingAt.inGroup (pidOf (savingAt.runOf 0) 0) = false ∧ latchedPage.captureQuiet 0 = true ∧
      ∃ w, latchedPage.writeRecords (latchedPage.run (pageIn 3).run).tenant 0x200000 (latchedPage.regionsOf 0) = .ok w) ∧
    (let p := { pageIn 3 with w := 0 }
     let u := (loadingAt.setPage 0 { p with sv := ⟨1, true, 0⟩ }).enqueue 0 12 (.svload 12 10 11) (loadingAt.reg 0 10) (loadingAt.reg 0 11) 0 0
     loadingAt.pages.find? (pidOf (loadingAt.runOf 0) 0) = some p ∧ p.gated = false ∧ p.regions = [] ∧
     (∃ b, u.tenantRead (u.tenantOf 0) 0x200000 (p.w * p.h * (if (u.region (p.region 0)).xoff then 0x9100 else 0x21000)) = .ok b ∧ u.recordsBad 0 (List.range (p.w * p.h)) b = none)) ∧
    (let s := ringAt { someRing with en := false }
     let p := s.queue ⟨0, false, 0⟩
     p.en = false ∧ p.state = 0 ∧ p.cur = none ∧ p.run = none ∧ p.pendingWr = none ∧ p.tail = p.head ∧ p.qbase ≠ 0 ∧ (0x401 : W64).toNat / 2 ^ 8 % 32 = 4 ∧
     ((BitVec.truncate 32 (15 : W64)) - p.head).toNat ≤ 2 ^ 4 ∧ (s.tenant 0).created = true ∧ s.dev.safe = false) ∧
    (let p := (ringAt { someRing with state := 5, skip := true }).queue ⟨0, false, 0⟩
     p.en = true ∧ p.state = 5 ∧ p.run = none ∧ p.pendingWr = none ∧ p.qbase ≠ 0 ∧ 4 ≤ p.log2 ∧ p.log2 ≤ 16) := by
  refine ⟨fun k hk => ⟨⟨0x10000000008, 8, 0⟩, _, uncached_of (by decide +kernel), uncached_of (by decide +kernel), by decide +kernel, by decide +kernel, okPair_of ?_⟩,
    ⟨by decide +kernel, by decide +kernel, by decide +kernel, by decide +kernel, by decide +kernel, by decide +kernel, by decide +kernel, by decide +kernel, by decide +kernel,
      exOk_of (by decide +kernel)⟩,
    ⟨by decide +kernel, by decide +kernel, by decide +kernel, [], ok_of (by decide +kernel), by decide +kernel⟩, by decide +kernel, by decide +kernel⟩
  revert k; decide +kernel

/-! ## Fenced dies, parked messages, whole records, pauses -/

/-- A store into the HBM of a die that has fenced itself; a place in host memory that no fenced die stands before. -/
theorem witness_FencedStores :
    (let s := homeAt.setDie 0 { homeAt.die 0 with fenced := true }
     ∃ p s₁, p.pa % 4 = 0 ∧ ea s 10 0 % storeBytes .sw = 0 ∧ (∃ d, targetOf p.pa = .hbm d ∧ (s.die d).fenced = true) ∧
       s.place 0 (s.tenantOf 0) .write plainTarget (ea s 10 0) (storeBytes .sw) = (.ok [p], s₁)) ∧
    HostOpen (farAt 0) 0 ⟨0x800000000000, 4, 1⟩ ∧ targetOf 0x800000000000 = .host := by
  refine ⟨⟨⟨0x2000, 4, 1⟩, _, by decide +kernel, by decide +kernel, ⟨0, by decide +kernel, by decide +kernel⟩, okPair_of (by decide +kernel)⟩, fun _ => ⟨by decide +kernel, ?_⟩, by decide +kernel⟩
  intro run h
  have e : ((farAt 0).cluster 0).owner = some 0 := by decide +kernel
  obtain rfl : 0 = run := Option.some.inj (e.symm.trans h)
  decide +kernel

/-- A message parked for an entry that HTSET sets up, and for one that HTEN enables. -/
def parkedFor (b : W64) (h : Handler) : State :=
  let s := regsAt 7 b
  s.setCluster 0 { s.cluster 0 with handlers := [(7, h)], park := [parkMsg 4, parkMsg 7] }
theorem witness_ParkedGoes :
    (let s := parkedFor (BitVec.ofNat 64 (0x100 + 2 * 2 ^ 24 + 2 ^ 28 + 9 * 2 ^ 32 + 2 ^ 38)) { readyHandler with valid := false }
     OneGoes s 0 7 ⟨0x100, 2, true, (s.handler 0 7).en, 4, 0, 9, true⟩ [parkMsg 4] [] (parkMsg 7) ∧ (s.reg 0 10).toNat = 7 ∧
     (s.reg 0 11).toNat = 16 * 0x10 + 2 * 2 ^ 24 + 2 ^ 28 + 9 * 2 ^ 32 + true.toNat * 2 ^ 38 ∧ 16 * 0x10 + 16 * 2 ^ 2 ≤ s.scrcap) ∧
    (let s := parkedFor (1 + 2) { readyHandler with en := false }
     OneGoes s 0 7 { s.handler 0 7 with en := true, cred := min ((s.handler 0 7).cred + 0) (2 ^ (s.handler 0 7).logn) } [parkMsg 4] [] (parkMsg 7) ∧
     (s.reg 0 11).toNat = true.toNat + 2 * true.toNat + 0 * 2 ^ 16) ∧
    (let s := (parkedAt 8 4).setCtl 64 { (parkedAt 8 4).ctl 64 with half := some ⟨0x10000000008, 0, true, [1, 2, 3, 4]⟩ }
     8 ≤ (s.cluster 64).park.length ∧ (s.handler 64 4).valid = false ∧ (s.ctl 64).half.isSome = true) := by
  refine ⟨⟨⟨by decide +kernel, by decide +kernel, by decide +kernel, .inr (by decide +kernel), by decide +kernel, by decide +kernel⟩, by decide +kernel⟩,
    ⟨⟨by decide +kernel, by decide +kernel, by decide +kernel, .inl (by decide +kernel), by decide +kernel, by decide +kernel⟩, by decide +kernel⟩, by decide +kernel⟩

/-- A dirty line of a home root slice that a write-back takes, whole and there once. -/
def dirtyHome : State := { homeAt with slices := [(20, { Slice.reset with lines := [{ heldLine with dirty := true }] })] }
theorem witness_WriteBack : WritesBack dirtyHome [⟨0x2000, 64, 1⟩] 20 { heldLine with dirty := true } ∧ LinesOk dirtyHome := by
  refine ⟨⟨by decide +kernel, by decide +kernel, ⟨_, List.mem_singleton.2 rfl, by decide +kernel⟩, by decide +kernel⟩, fun n => ?_⟩
  by_cases h : n = 20
  · subst h; decide +kernel
  · have e : (dirtyHome.slice n).lines = [] := by
      show (Tab.get Slice.reset [(20, { Slice.reset with lines := [{ heldLine with dirty := true }] })] n).lines = []
      simp [Tab.get, Ne.symm h]; rfl
    simp [e]

/-- A page of one region with a record; its alignment word pauses for a target ahead and does not for one behind. -/
theorem witness_PagesAtRest :
    OnePage (graphAt 0 0x200000 3) (pageIn 3) (List.replicate 0x9100 0) 0x9100 ∧
    (let s (now : W64) := (cellReady.setDie 0 { cellReady.die 0 with pktime := now })
     ∀ e ∈ [((0x21 : W64), 1), (0x22, 0), (0x23, 2 ^ 32 - 1)], (s e.1).page ((s e.1).pageOf (s e.1).focus.region) = (s e.1).page 0 ∧
       (((s e.1).pageTime 0).toNat + e.2) % 2 ^ 32 = (((s e.1).src (issue (s e.1) 0) 0x10 0).toNat + ((s e.1).src (issue (s e.1) 0) 0x11 0).toNat) % 2 ^ 32 ∧
       (∀ v ∈ [(0x10 : BitVec 6), 0x11], 0 < (qAt ((s e.1).cell (s e.1).focus.region (s e.1).focus.unit).ins (v.toNat % 4)).avail)) := by
  refine ⟨⟨by decide +kernel, ?_, ?_⟩, by decide +kernel⟩
  · intro i j hi hj _
    have e : (pageIn 3).w * (pageIn 3).h = 1 := by decide +kernel
    omega
  · intro i hi
    have e : (pageIn 3).w * (pageIn 3).h = 1 := by decide +kernel
    obtain rfl : i = 0 := by omega
    exact ⟨rfl, fun o _ _ _ => by rw [Nat.zero_mul, Nat.zero_add]⟩

/-- An INVT that waits for half an access; a queue in error with a packet not committed; a controller at an instruction boundary. -/
theorem witness_ProcessorsAgain :
    (let s := (ringAt someRing).setTenant 0 { (ringAt someRing).tenant 0 with invDone := false, invStamp := some 9 }
     let s := s.setCtl 0 { s.ctl 0 with half := some ⟨0x10000000008, 0, true, [1, 2, 3, 4]⟩ }
     (s.tenant 0).invDone = false ∧ (s.tenant 0).invStamp = some 9 ∧ 0 ∈ s.clusters.map Prod.fst ∧ s.tenantOf 0 = 0 ∧ (s.ctl 0).half.isSome = true) ∧
    (let p : Queue := { someRing with state := 5, uncommit := some (5, none, []) }
     ∃ y, (ringAt p).tenants.find? 0 = some y ∧ y.queues.find? 0 = some p ∧ p.run = none ∧ p.state = 5 ∧ (5, none, []) = p.uncommit.getD (p.head, p.ind, p.indPkt)) ∧
    ((held0.ctl 0).st = .running ∧ (held0.ctl 0).half = none ∧ (held0.ctl 0).overflow = none) :=
  ⟨by decide +kernel, ⟨_, rfl, by decide +kernel⟩, by decide +kernel⟩

/-- Commands that safe mode turns away, and a page that it does not; the firmware of the active complex; a boot run's state. -/
theorem witness_SafeMode :
    (∀ e ∈ [1, 2, 3, 4, 5, 6, 7, 8, 9, 0xA, 0x14, 0x15], Shunned (inSafeMode (pageWith [(0, 2, e)])) ∧ (inSafeMode (pageWith [(0, 2, e)])).dev.mbDone = false) ∧
    Shunned (inSafeMode (pageWith [(0, 2, 0x12), (8, 8, 2)])) ∧ ¬ Shunned (inSafeMode (pageWith [(0, 2, 0x12), (8, 8, 3)])) ∧ ¬ Shunned (pageWith [(0, 2, 0x17)]) ∧
    (∃ fw, State.reset.qc.fw[State.reset.qc.active % 2]? = some fw) ∧ State.reset.memOk ∧ (State.reset.die State.reset.qc.active).fenced = false := by
  unfold Shunned
  refine ⟨by decide +kernel, by decide +kernel, by decide +kernel, by decide +kernel, ⟨_, rfl⟩, ?_, by decide +kernel⟩
  show Memory.wf [] = true
  rfl

/-- A wave of a page of 2 by 2 regions, with one region taken and with all; a wave of two pages with an edge and a channel. -/
def spansAt (full : Bool) : State :=
  let s := wavesAt full
  s.setPage 0 { s.page 0 with w := 2, h := 2 }
def wideWave : State :=
  let s := runAt (fun r => { r with
    graphs := [(0, { graph0 with pages := [⟨0, 0, 5, 0, 1, 1⟩, ⟨0, 0, 5, 0, 1, 1⟩] })], waves := [⟨0, 5, false, [0, 1]⟩]
    edges := [(0, { Edge.none with freed := false, depth := 4, ppage := 0, cpage := 1 })], chans := [(0, { XChan.none with ppage := 0, cpage := 1 })] })
  s.setPage 1 (s.page 0)
theorem not_fits {s : State} {c o w h : Nat} (hw : 1 ≤ w) (hh : 1 ≤ h) (hf : ∀ k < 16, ¬ FreeAt s c (spanAt k 0 0)) : ¬ Fits s c o w h :=
  fun f => hf o f.1 (f.2.2.2 0 0 hh hw)
theorem witness_SpansAndOpenings :
    (∀ full : Bool, let s := spansAt full
      (s.run 0).waves = [] ++ ⟨0, 5, false, [0]⟩ :: [] ∧ (s.run 0).edges = [] ∧ (s.run 0).chans = [] ∧ (s.graphOf 0 0).wavePages 5 = [0] ∧ (s.page (pidOf 0 0)).level ≤ 1 ∧
      (s.page (pidOf 0 0)).w = 2 ∧ (s.page (pidOf 0 0)).h = 2 ∧ (s.run 0).phase = .active ∧ (s.run 0).err = none) ∧
    (∀ c ∈ ((spansAt true).run 0).clusters, c / 64 = ((spansAt true).page (pidOf 0 0)).die → ∀ o, ¬ Fits (spansAt true) c o 2 2) ∧
    Fits (spansAt false) 0 1 2 2 ∧ (∀ k < 1, ¬ Fits (spansAt false) 0 k 2 2) ∧
    ((wideWave.run 0).waves = [] ++ ⟨0, 5, false, [0, 1]⟩ :: [] ∧ (∀ h ∈ (wideWave.graphOf 0 0).wavePages 5, 1 ≤ (wideWave.page (pidOf 0 h)).w ∧ 1 ≤ (wideWave.page (pidOf 0 h)).h) ∧
      ((wideWave.run 0).edges.map Prod.fst).Nodup ∧ ((wideWave.run 0).chans.map Prod.fst).Nodup) ∧
    (∀ closed : Bool,
     let s := pageOfRun (runAt (fun r => { r with graphs := [(0, { graph0 with pages := [⟨0, 0, 5, 0, 1, 1⟩] })], chans := [(0, { XChan.none with ppage := 0, cpage := 0, cport := 0, pport := 16 })] }))
       { pageIn 3 with gated := true, wave := 5, openAt := some 300, svClosed := closed }
     let t := s.setDie 0 { s.die 0 with pktime := 300 }
     s.inGroup 0 = true ∧ (s.page 0).openAt = some 300 ∧ (s.die (s.page 0).die).pktime.toNat < 300 ∧ 300 ≤ (t.die (t.page 0).die).pktime.toNat ∧ t.gateFault 0 = none ∧
     (t.page 0).level = 3 ∧ (t.page 0).gated = true ∧ (t.page 0).svClosed = closed ∧ (t.run (t.page 0).run).phase = .active) := by
  refine ⟨by decide +kernel, fun c hc _ o => not_fits (by decide) (by decide) ?_, ⟨by decide, by decide, by decide, ?_⟩, fun k hk => ?_, by decide +kernel, by decide +kernel⟩
  · revert c; unfold FreeAt; decide +kernel
  · intro a b ha hb
    have h : ∀ a < 2, ∀ b < 2, FreeAt (spansAt false) 0 (spanAt 1 a b) := by unfold FreeAt; decide +kernel
    exact h a ha b hb
  · obtain rfl : k = 0 := by omega
    intro f
    exact absurd (f.2.2.2 0 0 (by decide) (by decide)) (by unfold FreeAt; decide +kernel)

/-- Landings of a channel's and a lane's slots, of a release, of node slots live and dead, and of matrix slots over two groups, canceled, dead. -/
def landing (sl : Slot) : State :=
  let s := slotted [sl] 0 false
  s.setRegion 0 { s.region 0 with laneRoutes := [(5, 0)] }
def nodeLanding (k : NodeSlotKind) : NodeSlot := { kind := k, value := none, dq := 3, out := true, live := true, its := some 0, dist := 1, range := 7, ident := 9 }
def matrixLanding (k : XSlotKind) (f : XSlot → XSlot) : State :=
  let s := slotted [] 65 false
  s.setXn 0 { s.xn 0 with slots := [f (xslot k)], ldb := { (s.xn 0).ldb with busy := true } }
theorem witness_MoreLandings :
    (∃ w, exec .resultLanding { slotted [slot0 .exit 0] 0 true with focus := { (slotted [slot0 .exit 0] 0 true).focus with flag := true } } = .next w) ∧
    (∀ sl ∈ [slot0 .psend 2, { slot0 .push 2 with ord := true }], OneDue ((landing sl).cell 0 0) [] sl [] ∧ ((landing sl).page ((landing sl).pageOf 0)).slotLive sl.its sl.live = true ∧
      (landing sl).regionsOf ((landing sl).pageOf 0) = [0]) ∧
    (∀ k ∈ [NodeSlotKind.give, .mfence, .strel], let s := slotted [] 64 false
      ∀ t ∈ [s, deadly s], ((t.setMn 0 { t.mn 0 with slots := [nodeLanding k] }).mn 0).slots = [] ++ nodeLanding k :: [] ∧ k ≠ .value) ∧
    (∀ k ∈ [XSlotKind.row, .rows, .acc, .clr, .stat, .ldb], ∀ g ∈ [1, 2, 8], ∀ cancel : Bool,
      let f (x : XSlot) : XSlot := { x with ng := g, vals := List.replicate (64 * (if k = .acc then 1 else g)) 1, cancel := cancel }
      let s := matrixLanding k f
      (s.xn 0).slots = [] ++ f (xslot k) :: [] ∧ (s.page 0).slotLive (f (xslot k)).its (f (xslot k)).live = true ∧ 0 < (if k = .acc then 1 else (f (xslot k)).ng) ∧
      (f (xslot k)).vals.length = 64 * (if k = .acc then 1 else (f (xslot k)).ng)) ∧
    (let s := deadly (matrixLanding .ldb id)
     (s.page 0).slotLive (xslot .ldb).its (xslot .ldb).live = false ∧ (xslot .ldb).live = true) := by
  refine ⟨⟨_, rfl⟩, ?_, by decide +kernel, by decide +kernel, by decide +kernel⟩
  unfold OneDue; decide +kernel

/-- A copy that moves over the scratchpad: its next destination not yet fixed, its source bytes to read, its bytes to write; the bank open, busy
and held, and 256 bytes written. A ready copy of no byte; one whose bytes are written and whose card names a barrier. -/
def moverAt (target : Nat × Nat) (fetched : List Byte) (busy : List Nat) (hold : List (Nat × Nat)) (copied : Nat) : State :=
  let s := regsAt 0 0
  let x : Copy := { Copy.unused with state := 3, src := some goodSrc, dst := some goodDst, card := List.replicate 128 0, target := target, fetched := fetched }
  let s := s.setCluster 0 { s.cluster 0 with copies := [(3, x)], bankBusy := busy, bankHold := hold, copied := copied }
  { s with agenda := [.sub .copyMove { Focus.none with num := 3 }] }
def emptyRec (write : Nat) : List Byte := bytesWith 64 [(0x10, 4, 0), (0x14, 4, 1), (0x18, 4, 1), (0x20, 4, 1), (0x28, 4, 1), (0x30, 4, write)]
def poster : State :=
  let s := farAt 0
  let x : Copy := { Copy.unused with state := 3, src := some goodSrc, dst := some goodDst, card := bytesWith 128 [(0x18, 8, 0x10000000020), (0x20, 4, 3)], cursor := 2, bytes := 2 }
  { s.setCluster 0 { s.cluster 0 with copies := [(3, x)] } with focus := { Focus.none with num := 3 } }
theorem witness_CopyMoves :
    (∀ s ∈ [moverAt (0, 0) [] [] [] 0, moverAt (16, 2) [] [] [] 0, moverAt (16, 2) [1, 2] [] [] 254, moverAt (16, 2) [1, 2] [] [] 255],
      let x := s.copy 0 3
      s.agenda = .sub .copyMove { Focus.none with num := 3 } :: [] ∧ x.state = 3 ∧ NearPlain (ShapeRec.of (x.src.getD [])) ∧ NearPlain (ShapeRec.of (x.dst.getD [])) ∧
      patternTotal (ShapeRec.of (x.src.getD [])) = patternTotal (ShapeRec.of (x.dst.getD [])) ∧ x.cursor < patternTotal (ShapeRec.of (x.src.getD [])) ∧
      ByteIn s (ShapeRec.of goodSrc) 0 ∧ ByteIn s (ShapeRec.of goodDst) 0 ∧ BankOpen s 0 0 1 ∧ BankOpen s 0 16 2 ∧ 16 + 2 ≤ s.scrcap) ∧
    (¬ BankOpen (moverAt (16, 2) [] [0] [] 0) 0 0 1 ∧ ¬ BankOpen (moverAt (16, 2) [1, 2] [] [(16, 1)] 0) 0 16 2) ∧
    (let s := mover 1 0 (emptyRec 1)
     let s := s.setCluster 0 { s.cluster 0 with copies := [(3, { s.copy 0 3 with src := some (emptyRec 0) })] }
     s.copyReady 0 3 = true ∧ copyFault (List.replicate 128 0) (ShapeRec.of (emptyRec 0)) (ShapeRec.of (emptyRec 1)) = none ∧ patternTotal (ShapeRec.of (emptyRec 0)) = 0) ∧
    ((poster.copy 0 3).state = 3 ∧ patternTotal (ShapeRec.of ((poster.copy 0 3).src.getD [])) ≤ (poster.copy 0 3).cursor ∧ cardBar (poster.copy 0 3).card = 0x10000000020 ∧
      ∃ v, poster.place 0 (poster.copy 0 3).tenant .write (barAllowed 0) (cardBar (poster.copy 0 3).card) 32 = (.ok [⟨0x10000000020, 32, 0⟩], v)) := by
  refine ⟨?_, ?_, ?_, by decide +kernel, by unfold patternTotal; decide +kernel, by decide +kernel, ⟨_, okPair_of (by decide +kernel)⟩⟩
  · unfold NearPlain patternTotal ByteIn BankOpen patternAddr; decide +kernel
  · unfold BankOpen; decide +kernel
  · unfold patternTotal; decide +kernel

/-- A read binding whose retiring page has caught it; a channel command while its run is being captured; a die's cycle; a controller that owes a trap,
and one in the middle of a 16-bit access; a device that has stopped with requests outside; words whose rounding is one of the spec's. -/
theorem witness_MoreMoments :
    (let s := bindState 0 (readBind 0 [reply0])
     let s := s.setPage 0 { s.page 0 with level := 5 }
     (s.chan 0 0).cur = some (readBind 0 [reply0]) ∧ (s.page (s.pageOf 0)).level = 5 ∧ (s.chan 0 0).pend = none) ∧
    (let s := linkChan (fun c => { c with cmds := [opening false 99], sendHeld := true, recvSt := 4, recvAligned := true }) 100
     ∀ r ∈ [s.setRun 0 { s.run 0 with phase := .switching }], (r.chanOf 0 0).cmds = [opening false 99] ∧ (r.run 0).phase = .switching ∧ (r.run 0).resumeAt = none) ∧
    (∀ d < 3, (dieAt id d).die d = Die.reset ∧ ({ dieAt id d with agenda := [.sub .dieCycle { Focus.none with die := d }] } : State).agenda = .sub .dieCycle { Focus.none with die := d } :: []) ∧
    (let s := (codeAt []).setCtl 0 { (codeAt []).ctl 0 with overflow := some (parkMsg 4) }
     s.agenda = .ctl 0 :: [] ∧ (s.ctl 0).st = .running ∧ (s.ctl 0).half = none ∧ (s.ctl 0).overflow = some (parkMsg 4)) ∧
    (let s := (codeAt []).setCtl 0 { (codeAt []).ctl 0 with half := some ⟨0x10000000008, 0, true, [1, 2, 3, 4]⟩, comp := true, insn := 0x6108 }
     s.agenda = .ctl 0 :: [] ∧ (s.ctl 0).half ≠ none ∧ (s.ctl 0).comp = true ∧ decode16 ((s.ctl 0).insn.truncate 16) = .ok (.controllerLoad .ld 10 10 0)) ∧
    (let s : State := { State.reset with dev := { Device.reset with on := false, stopped := true }, inbox := [.ev .coldStart Focus.none] }
     s.agenda = [] ∧ s.inbox ≠ [] ∧ s.dev.stopped = true ∧ s.dev.on = false) ∧
    (wq2.mod.toNat % 8 < 5 ∧ wq3.mod.toNat % 8 < 5) :=
  ⟨by decide +kernel, by decide +kernel, by decide +kernel, by decide +kernel, ⟨by decide +kernel, by decide +kernel, by decide +kernel, ok_of (by decide +kernel)⟩, by decide +kernel, by decide +kernel⟩

/-- A write binding with RELR whose oldest element ends a run of dimension 0, before the last. -/
def runBind : Binding :=
  { Binding.fresh .plain 0 16 0 0 (bytesWith 64 [(0x10, 4, 1), (0x14, 4, 4), (0x18, 4, 3), (0x1C, 4, 8), (0x20, 4, 1), (0x28, 4, 1), (0x30, 4, 0x4001), (0x3A, 1, 0x85)]) 0 with
    moving := true, cursor := 1, addBytes := 8, replies := [reply0] }
theorem witness_RelrRuns :
    let s := bindState 1 runBind
    (s.chan 0 1).cur = some runBind ∧ runBind.shape.relr = true ∧ runBind.kind = .plain ∧ NearPlain runBind.shape ∧ (0 + 1) % runBind.shape.count 0 = 0 ∧
    ¬ patternTotal runBind.shape ≤ runBind.cursor ∧ runBind.shape.bsem.testBit 7 = true ∧ patternAddr runBind.shape 0 = 0 ∧ elementBytes s 0 runBind = 4 := by
  unfold NearPlain patternTotal patternAddr elementBytes; decide +kernel

/-- TXLAT of an address whose leaf lies in a scratchpad, in a slice window and in host memory. -/
def leafTo (pa a : Nat) : State :=
  let s := ctlAt (BitVec.ofNat 64 a)
  (s.setTenant 0 { s.tenant 0 with windows := [(0, ⟨0, 2 ^ 40⟩), (1, ⟨pa, 2 ^ 40⟩)] }).plant 1 0x8008 (toBytes 8 (pa + 15))
theorem leaf_of {s : State} {a : Nat} {g : Target} (h : (match (s.leafFor 0 (s.tenantOf 0) a).1 with
    | Except.ok (f : TlbEnt) => decide (targetOf (f.pa + (a - f.va)) = g) && decide (f.key < 2 ^ 46) | Except.error _ => false) = true) :
    ∃ f s₁, s.leafFor 0 (s.tenantOf 0) a = (.ok f, s₁) ∧ targetOf (f.pa + (a - f.va)) = g ∧ f.key < 2 ^ 46 := by
  split at h
  · rename_i f hf
    simp only [Bool.and_eq_true, decide_eq_true_eq] at h
    exact ⟨f, _, Prod.ext hf rfl, h.1, h.2⟩
  · cases h
theorem witness_Targets :
    (∃ f s₁, (leafTo 0x10000000000 0x10000000040).leafFor 0 ((leafTo 0x10000000000 0x10000000040).tenantOf 0) 0x10000000040 = (.ok f, s₁) ∧
      targetOf (f.pa + (0x10000000040 - f.va)) = .scratch 0 0x40 ∧ f.key < 2 ^ 46) ∧
    (∃ f s₁, (leafTo 0x20000000000 0x10000000040).leafFor 0 ((leafTo 0x20000000000 0x10000000040).tenantOf 0) 0x10000000040 = (.ok f, s₁) ∧
      targetOf (f.pa + (0x10000000040 - f.va)) = .slice 0 0x40 ∧ f.key < 2 ^ 46) ∧
    (∃ f s₁, (leafTo 0x800000000000 0x10000000040).leafFor 0 ((leafTo 0x800000000000 0x10000000040).tenantOf 0) 0x10000000040 = (.ok f, s₁) ∧
      targetOf (f.pa + (0x10000000040 - f.va)) = .host ∧ f.key < 2 ^ 46) ∧
    (∀ pa ∈ [0x10000000000, 0x20000000000, 0x800000000000], ((leafTo pa 0x10000000040).reg 0 10).toNat = 0x10000000040 ∧ ((leafTo pa 0).cluster 0).idx < 256) :=
  ⟨leaf_of (by decide +kernel), leaf_of (by decide +kernel), leaf_of (by decide +kernel), by decide +kernel⟩

end Sys2Proof.Tests
end

