-- ==== Sys2Proof/Proofs/Encoding.lean ====
section
/-! PROOFS. Decoding and encoding instructions (R30, R40, R42 to R47, R377, R405), field by field and table by table; settles O54 and O55. -/
namespace Sys2Proof.Proofs.Encoding

/-! ## Fields of a word -/

theorem ofBool_getLsbD {n : Nat} (w : BitVec n) (k : Nat) : BitVec.ofBool (w.getLsbD k) = w.extractLsb' k 1 := by
  ext i hi
  obtain rfl : i = 0 := by omega
  simp

theorem slice_whole {n k : Nat} (x : BitVec n) (h : k = 0) : x.extractLsb' k n = x := by
  subst h; exact BitVec.extractLsb'_eq_self

theorem getLsbD_append_high {v w k : Nat} (x : BitVec v) (y : BitVec w) (h : w ≤ k) : (x ++ y).getLsbD k = x.getLsbD (k - w) := by
  simp [BitVec.getLsbD_append, Nat.not_lt.mpr h]

theorem getLsbD_append_low {v w k : Nat} (x : BitVec v) (y : BitVec w) (h : k < w) : (x ++ y).getLsbD k = y.getLsbD k := by
  simp [BitVec.getLsbD_append, h]

theorem getLsbD_ofBool_zero {k : Nat} (b : Bool) (h : k = 0) : (BitVec.ofBool b).getLsbD k = b := by
  subst h; cases b <;> rfl

theorem C2.bits_eq (w : C2) (op : BitVec 8) : w.bits op =
    (op ++ w.stg ++ w.grd ++ w.sa ++ w.sb ++ w.dq ++ BitVec.ofBool w.wq ++ BitVec.ofBool w.out ++ w.fpm ++ w.mod ++ w.imm8 :) := rfl
theorem C3.bits_eq (w : C3) (op : BitVec 8) : w.bits op =
    (op ++ w.stg ++ w.grd ++ w.sa ++ w.sb ++ w.dq ++ BitVec.ofBool w.wq ++ BitVec.ofBool w.out ++ w.fpm ++ w.mod ++ w.sc ++ w.modx :) := rfl
theorem Li.bits_eq (w : Li) (op : BitVec 8) : w.bits op =
    (op ++ w.stg ++ w.grd ++ w.imm.extractLsb' 8 12 ++ w.dq ++ BitVec.ofBool w.wq ++ BitVec.ofBool w.out ++ w.fpm ++ w.mod ++ w.imm.extractLsb' 0 8 :) := rfl
theorem Mx.bits_eq (w : Mx) (op : BitVec 8) : w.bits op =
    (op ++ w.stg ++ w.grd ++ w.tsrc ++ w.accrow ++ w.bsel ++ w.spbase ++ w.mfmt ++ w.low :) := rfl

@[simp] theorem C2.op_bits (w : C2) (op : BitVec 8) : (w.bits op).extractLsb' 40 8 = op := by
  simp (disch := omega) only [C2.bits_eq, BitVec.extractLsb'_append_eq_of_le, slice_whole]
@[simp] theorem C3.op_bits (w : C3) (op : BitVec 8) : (w.bits op).extractLsb' 40 8 = op := by
  simp (disch := omega) only [C3.bits_eq, BitVec.extractLsb'_append_eq_of_le, slice_whole]
@[simp] theorem Li.op_bits (w : Li) (op : BitVec 8) : (w.bits op).extractLsb' 40 8 = op := by
  simp (disch := omega) only [Li.bits_eq, BitVec.extractLsb'_append_eq_of_le, slice_whole]
@[simp] theorem Mx.op_bits (w : Mx) (op : BitVec 8) : (w.bits op).extractLsb' 40 8 = op := by
  simp (disch := omega) only [Mx.bits_eq, BitVec.extractLsb'_append_eq_of_le, slice_whole]

@[simp] theorem C2.of_bits (w : C2) (op : BitVec 8) : C2.of (w.bits op) = w := by
  simp (disch := omega) only [C2.of, C2.bits_eq, BitVec.extractLsb'_append_eq_of_le, BitVec.extractLsb'_append_eq_of_add_le,
    slice_whole, getLsbD_append_high, getLsbD_append_low, getLsbD_ofBool_zero]
@[simp] theorem C3.of_bits (w : C3) (op : BitVec 8) : C3.of (w.bits op) = w := by
  simp (disch := omega) only [C3.of, C3.bits_eq, BitVec.extractLsb'_append_eq_of_le, BitVec.extractLsb'_append_eq_of_add_le,
    slice_whole, getLsbD_append_high, getLsbD_append_low, getLsbD_ofBool_zero]
@[simp] theorem Li.of_bits (w : Li) (op : BitVec 8) : Li.of (w.bits op) = w := by
  simp (disch := omega) only [Li.of, Li.bits_eq, BitVec.extractLsb'_append_eq_of_le, BitVec.extractLsb'_append_eq_of_add_le,
    slice_whole, getLsbD_append_high, getLsbD_append_low, getLsbD_ofBool_zero, BitVec.extractLsb'_append_extractLsb'_eq_extractLsb']
@[simp] theorem Mx.of_bits (w : Mx) (op : BitVec 8) : Mx.of (w.bits op) = w := by
  simp (disch := omega) only [Mx.of, Mx.bits_eq, BitVec.extractLsb'_append_eq_of_le, BitVec.extractLsb'_append_eq_of_add_le, slice_whole]

/-- HANDOVER's TAKE bit is bit 0 of MOD (R153). -/
@[simp] theorem C2.take_bits (w : C2) (op : BitVec 8) : (w.bits op).getLsbD 8 = w.mod.getLsbD 0 := by
  simp (disch := omega) only [C2.bits_eq, getLsbD_append_high, getLsbD_append_low]

theorem C2.bits_of (w : BitVec 48) : (C2.of w).bits (w.extractLsb' 40 8) = w := by
  simp (disch := omega) only [C2.of, C2.bits_eq, ofBool_getLsbD, BitVec.extractLsb'_append_extractLsb'_eq_extractLsb']
  exact BitVec.extractLsb'_eq_self
theorem C3.bits_of (w : BitVec 48) : (C3.of w).bits (w.extractLsb' 40 8) = w := by
  simp (disch := omega) only [C3.of, C3.bits_eq, ofBool_getLsbD, BitVec.extractLsb'_append_extractLsb'_eq_extractLsb']
  exact BitVec.extractLsb'_eq_self
theorem Li.bits_of (w : BitVec 48) : (Li.of w).bits (w.extractLsb' 40 8) = w := by
  simp (disch := omega) only [Li.of, Li.bits_eq, ofBool_getLsbD, BitVec.extractLsb'_append_eq_of_le, BitVec.extractLsb'_append_eq_of_add_le,
    slice_whole, BitVec.extractLsb'_append_extractLsb'_eq_extractLsb']
theorem Mx.bits_of (w : BitVec 48) : (Mx.of w).bits (w.extractLsb' 40 8) = w := by
  simp (disch := omega) only [Mx.of, Mx.bits_eq, BitVec.extractLsb'_append_extractLsb'_eq_extractLsb']
  exact BitVec.extractLsb'_eq_self

/-! ## Context words -/

/-- A word whose opcode the map names decodes to what it names. -/
theorem decodeContext_of_contextOf {w : BitVec 48} {i : Instr} (h : contextOf (w.extractLsb' 40 8).toNat w = some i) :
    decodeContext w = .ok i := by
  have hop : w.extractLsb' 40 8 ≠ 0#8 := by
    intro e
    rw [e] at h
    exact absurd h (Option.some_ne_none i).symm
  have hw : w ≠ 0 := by
    rintro rfl
    exact hop (by decide)
  unfold decodeContext
  rw [if_neg hw, if_neg hop, h]

theorem C2.decode_bits {mk : C2 → Instr} {op : BitVec 8} (h : ∀ w, contextOf op.toNat w = some (mk (C2.of w))) (x : C2) :
    decodeContext (x.bits op) = .ok (mk x) :=
  decodeContext_of_contextOf (by rw [C2.op_bits, h, C2.of_bits])
theorem C3.decode_bits {mk : C3 → Instr} {op : BitVec 8} (h : ∀ w, contextOf op.toNat w = some (mk (C3.of w))) (x : C3) :
    decodeContext (x.bits op) = .ok (mk x) :=
  decodeContext_of_contextOf (by rw [C3.op_bits, h, C3.of_bits])
theorem Li.decode_bits {mk : Li → Instr} {op : BitVec 8} (h : ∀ w, contextOf op.toNat w = some (mk (Li.of w))) (x : Li) :
    decodeContext (x.bits op) = .ok (mk x) :=
  decodeContext_of_contextOf (by rw [Li.op_bits, h, Li.of_bits])
theorem Mx.decode_bits {mk : Mx → Instr} {op : BitVec 8} (h : ∀ w, contextOf op.toNat w = some (mk (Mx.of w))) (x : Mx) :
    decodeContext (x.bits op) = .ok (mk x) :=
  decodeContext_of_contextOf (by rw [Mx.op_bits, h, Mx.of_bits])

theorem C2.bits_of_op {w : BitVec 48} {n : Nat} (h : (w.extractLsb' 40 8).toNat = n) : (C2.of w).bits (BitVec.ofNat 8 n) = w := by
  rw [← h, BitVec.ofNat_toNat, BitVec.setWidth_eq, C2.bits_of]
theorem C3.bits_of_op {w : BitVec 48} {n : Nat} (h : (w.extractLsb' 40 8).toNat = n) : (C3.of w).bits (BitVec.ofNat 8 n) = w := by
  rw [← h, BitVec.ofNat_toNat, BitVec.setWidth_eq, C3.bits_of]
theorem Li.bits_of_op {w : BitVec 48} {n : Nat} (h : (w.extractLsb' 40 8).toNat = n) : (Li.of w).bits (BitVec.ofNat 8 n) = w := by
  rw [← h, BitVec.ofNat_toNat, BitVec.setWidth_eq, Li.bits_of]
theorem Mx.bits_of_op {w : BitVec 48} {n : Nat} (h : (w.extractLsb' 40 8).toNat = n) : (Mx.of w).bits (BitVec.ofNat 8 n) = w := by
  rw [← h, BitVec.ofNat_toNat, BitVec.setWidth_eq, Mx.bits_of]

/-- The TAKE bit of a HANDOVER word says which of its forms it is (R153). -/
theorem contextOf_handover (w : BitVec 48) :
    contextOf 0xAD w = some (if w.getLsbD 8 then .handoverTake (C2.of w) else .handoverGive (C2.of w)) := rfl

theorem decodeContext_handover (x : C2) :
    decodeContext (x.bits 0xAD) = .ok (if x.mod.getLsbD 0 then .handoverTake x else .handoverGive x) :=
  decodeContext_of_contextOf (by rw [C2.op_bits]; exact (contextOf_handover _).trans (by rw [C2.take_bits, C2.of_bits]))

/-- Decoding gives back the context word that was encoded (R30, R40). -/
theorem decodeContext_encodeContext {i : Instr} {w : BitVec 48} (hf : i.formOk = true) (h : encodeContext i = some w) :
    decodeContext w = .ok i := by
  cases i <;> cases h
  case nop => rfl
  case li x | hi16 x => exact Li.decode_bits (fun _ => rfl) x
  case addc x | subb x | mad x | funnel x | bfi x | dot4S8 x | dot2S16 x | sel x | fma x | fnma x | fdot2Bf16 x | fdot4E4m3 x |
      fdot4E5m2 x | stB x | stH x | stW x | stRel x | stf x | atomH x | atomW x | atomfW x =>
    exact C3.decode_bits (fun _ => rfl) x
  case mxcfg x | mxldb x | mxrow x | mxrows x | mxdrn x | mxclr x | mxswb x | mxacc x | mxstat x | mxnop x =>
    exact Mx.decode_bits (fun _ => rfl) x
  case handoverGive x =>
    have take : x.mod.getLsbD 0 = false := by simpa only [Instr.formOk, Bool.not_eq_true'] using hf
    rw [decodeContext_handover, take, if_neg Bool.false_ne_true]
  case handoverTake x =>
    have take : x.mod.getLsbD 0 = true := hf
    rw [decodeContext_handover, take, if_pos rfl]
  all_goals exact C2.decode_bits (fun _ => rfl) _

/-- The opcode map and the fields of a word's format give the word back (R30, R40). -/
theorem encodeContext_contextOf {op : Nat} {w : BitVec 48} {i : Instr} (hop : (w.extractLsb' 40 8).toNat = op)
    (h : contextOf op w = some i) : encodeContext i = some w := by
  unfold contextOf at h
  split at h
  all_goals cases h
  all_goals simp only [↓apply_ite encodeContext, encodeContext, ite_self, BitVec.ofNat_eq_ofNat, C2.bits_of_op hop, C3.bits_of_op hop,
    Li.bits_of_op hop, Mx.bits_of_op hop]

theorem encodeContext_decodeContext {w : BitVec 48} {i : Instr} (h : decodeContext w = .ok i) : encodeContext i = some w := by
  unfold decodeContext at h
  split at h
  case isTrue hw => cases h; rw [hw]; rfl
  split at h
  case isTrue => cases h
  split at h
  case h_1 j hj => cases h; exact encodeContext_contextOf rfl hj
  case h_2 => cases h

/-! ## Custom controller instructions -/

theorem customWord_eq (major : BitVec 7) (f3 : BitVec 3) (f7 : BitVec 7) (rd rs1 rs2 : Reg) :
    customWord major f3 f7 rd rs1 rs2 = (f7 ++ rs2 ++ rs1 ++ f3 ++ rd ++ major :) := rfl

section
variable (major : BitVec 7) (f3 : BitVec 3) (f7 : BitVec 7) (rd rs1 rs2 : Reg)

@[simp] theorem customWord_major : (customWord major f3 f7 rd rs1 rs2).extractLsb' 0 7 = major := by
  simp (disch := omega) only [customWord_eq, BitVec.extractLsb'_append_eq_of_add_le, slice_whole]
@[simp] theorem customWord_funct3 : (customWord major f3 f7 rd rs1 rs2).extractLsb' 12 3 = f3 := by
  simp (disch := omega) only [customWord_eq, BitVec.extractLsb'_append_eq_of_le, BitVec.extractLsb'_append_eq_of_add_le, slice_whole]
@[simp] theorem customWord_funct7 : (customWord major f3 f7 rd rs1 rs2).extractLsb' 25 7 = f7 := by
  simp (disch := omega) only [customWord_eq, BitVec.extractLsb'_append_eq_of_le, slice_whole]
@[simp] theorem customWord_rd : (customWord major f3 f7 rd rs1 rs2).extractLsb' 7 5 = rd := by
  simp (disch := omega) only [customWord_eq, BitVec.extractLsb'_append_eq_of_le, BitVec.extractLsb'_append_eq_of_add_le, slice_whole]
@[simp] theorem customWord_rs1 : (customWord major f3 f7 rd rs1 rs2).extractLsb' 15 5 = rs1 := by
  simp (disch := omega) only [customWord_eq, BitVec.extractLsb'_append_eq_of_le, BitVec.extractLsb'_append_eq_of_add_le, slice_whole]
@[simp] theorem customWord_rs2 : (customWord major f3 f7 rd rs1 rs2).extractLsb' 20 5 = rs2 := by
  simp (disch := omega) only [customWord_eq, BitVec.extractLsb'_append_eq_of_le, BitVec.extractLsb'_append_eq_of_add_le, slice_whole]
end

/-- A word of 32 bits is made of the fields of a custom instruction (R43). -/
theorem customWord_of (w : BitVec 32) :
    customWord (w.extractLsb' 0 7) (w.extractLsb' 12 3) (w.extractLsb' 25 7) (w.extractLsb' 7 5) (w.extractLsb' 15 5) (w.extractLsb' 20 5) = w := by
  simp (disch := omega) only [customWord_eq, BitVec.extractLsb'_append_extractLsb'_eq_extractLsb']
  exact BitVec.extractLsb'_eq_self

/-- The table of R44, by major opcode, funct3 and funct7. -/
def customTable (major f3 f7 : Nat) (rd rs1 rs2 : Reg) : Option (Instr × Bool × Bool × Bool) :=
  match major with
  | 0x0B => custom0Of f3 f7 rd rs1 rs2
  | 0x2B => custom1Of f3 f7 rd rs1 rs2
  | 0x5B => custom2Of f3 f7 rd rs1 rs2
  | 0x7B => custom3Of f3 f7 rd rs1 rs2
  | _ => none

/-- Every field that the instruction does not use is zero (R45). -/
def unusedZero (u v x : Bool) (rd rs1 rs2 : Reg) : Bool := (u || rd == 0#5) && (v || rs1 == 0#5) && (x || rs2 == 0#5)

theorem customOf_eq (w : BitVec 32) : customOf w =
    customTable (w.extractLsb' 0 7).toNat (w.extractLsb' 12 3).toNat (w.extractLsb' 25 7).toNat (w.extractLsb' 7 5) (w.extractLsb' 15 5)
      (w.extractLsb' 20 5) := rfl

theorem decodeCustom_iff (w : BitVec 32) (i : Instr) : decodeCustom w = .ok i ↔ ∃ u v x, customOf w = some (i, u, v, x) ∧
    unusedZero u v x (w.extractLsb' 7 5) (w.extractLsb' 15 5) (w.extractLsb' 20 5) = true := by
  unfold decodeCustom
  rcases customOf w with _ | ⟨j, u, v, x⟩
  · simp
  · simp only [unusedZero, Option.some.injEq, Prod.mk.injEq]
    split
    case isTrue hz => simp_all
    case isFalse hz => simp_all

theorem decodeCustom_customWord {major : BitVec 7} {f3 : BitVec 3} {f7 : BitVec 7} {rd rs1 rs2 : Reg} {i : Instr} {u v x : Bool}
    (h : customTable major.toNat f3.toNat f7.toNat rd rs1 rs2 = some (i, u, v, x)) (hz : unusedZero u v x rd rs1 rs2 = true) :
    decodeCustom (customWord major f3 f7 rd rs1 rs2) = .ok i := by
  rw [decodeCustom_iff]
  exact ⟨u, v, x, by simpa only [customOf_eq, customWord_major, customWord_funct3, customWord_funct7, customWord_rd, customWord_rs1, customWord_rs2] using h, by simpa using hz⟩

/-- Decoding gives back the custom instruction that was encoded (R43 to R45). -/
theorem decodeCustom_encodeCustom {i : Instr} {w : BitVec 32} (h : encodeCustom i = some w) : decodeCustom w = .ok i := by
  cases i <;> cases h <;> exact decodeCustom_customWord rfl rfl

/-- The word of what the table of R44 names has the table's codes and its fields. -/
theorem encodeCustom_customTable {major f3 f7 : Nat} {rd rs1 rs2 : Reg} {i : Instr} {u v x : Bool}
    (h : customTable major f3 f7 rd rs1 rs2 = some (i, u, v, x)) (hz : unusedZero u v x rd rs1 rs2 = true) :
    encodeCustom i = some (customWord (BitVec.ofNat 7 major) (BitVec.ofNat 3 f3) (BitVec.ofNat 7 f7) rd rs1 rs2) := by
  have zeros : (u = true ∨ rd = 0) ∧ (v = true ∨ rs1 = 0) ∧ (x = true ∨ rs2 = 0) := by simpa [unusedZero, and_assoc] using hz
  clear hz
  unfold customTable custom0Of custom1Of custom2Of custom3Of at h
  split at h
  case h_5 => cases h
  all_goals
    split at h <;> cases h
    all_goals simp_all [encodeCustom]

/-- A custom word that decodes is the encoding of what it decodes to (R43 to R45). -/
theorem encodeCustom_decodeCustom {w : BitVec 32} {i : Instr} (h : decodeCustom w = .ok i) : encodeCustom i = some w := by
  obtain ⟨u, v, x, hc, hz⟩ := (decodeCustom_iff w i).mp h
  rw [encodeCustom_customTable (customOf_eq w ▸ hc) hz]
  simp only [BitVec.ofNat_toNat, BitVec.setWidth_eq, customWord_of]

/-! ## What a standard word decodes to, by major opcode (R42) -/

def brOf (f3 : Nat) : Option BrOp :=
  match f3 with
  | 0 => some .beq | 1 => some .bne | 4 => some .blt | 5 => some .bge | 6 => some .bltu | 7 => some .bgeu
  | _ => none
def csrOf (f3 : Nat) : Option CsrOp :=
  match f3 with
  | 1 => some .rw | 2 => some .rs | 3 => some .rc | 5 => some .rwi | 6 => some .rsi | 7 => some .rci
  | _ => none
def loadOf (f3 : Nat) : Option LoadKind :=
  match f3 with
  | 0 => some .lb | 1 => some .lh | 2 => some .lw | 3 => some .ld | 4 => some .lbu | 5 => some .lhu | 6 => some .lwu
  | _ => none
def storeOf (f3 : Nat) : Option StoreKind :=
  match f3 with
  | 0 => some .sb | 1 => some .sh | 2 => some .sw | 3 => some .sd
  | _ => none

@[simp] theorem brOf_code (op : BrOp) : brOf op.code = some op := by cases op <;> rfl
@[simp] theorem csrOf_code (op : CsrOp) : csrOf op.code = some op := by cases op <;> rfl
@[simp] theorem loadOf_code (k : LoadKind) : loadOf k.code = some k := by cases k <;> rfl
@[simp] theorem storeOf_code (k : StoreKind) : storeOf k.code = some k := by cases k <;> rfl
@[simp] theorem amoOf_code (op : AmoOp) : amoOf op.code = some op := by cases op <;> rfl

theorem code_of_brOf {n : Nat} {op : BrOp} (h : brOf n = some op) : op.code = n := by
  unfold brOf at h; split at h <;> cases h <;> rfl
theorem code_of_csrOf {n : Nat} {op : CsrOp} (h : csrOf n = some op) : op.code = n := by
  unfold csrOf at h; split at h <;> cases h <;> rfl
theorem code_of_loadOf {n : Nat} {k : LoadKind} (h : loadOf n = some k) : k.code = n := by
  unfold loadOf at h; split at h <;> cases h <;> rfl
theorem code_of_storeOf {n : Nat} {k : StoreKind} (h : storeOf n = some k) : k.code = n := by
  unfold storeOf at h; split at h <;> cases h <;> rfl
theorem code_of_amoOf {n : Nat} {op : AmoOp} (h : amoOf n = some op) : op.code = n := by
  unfold amoOf at h; split at h <;> cases h <;> rfl

/-- The displacements of the S, B and J formats. -/
def immS (w : BitVec 32) : BitVec 12 := w.extractLsb' 25 7 ++ w.extractLsb' 7 5
def immB (w : BitVec 32) : BitVec 13 := w.extractLsb' 31 1 ++ w.extractLsb' 7 1 ++ w.extractLsb' 25 6 ++ w.extractLsb' 8 4 ++ 0#1
def immJ (w : BitVec 32) : BitVec 21 := w.extractLsb' 31 1 ++ w.extractLsb' 12 8 ++ w.extractLsb' 20 1 ++ w.extractLsb' 21 10 ++ 0#1

/-- What the decoder answers for an encoding that names an instruction, or none. -/
def answer (o : Option Instr) : Except DecodeError Instr :=
  match o with
  | some i => .ok i
  | none => .error .reservedEncoding

/-- The atomics of major opcode 0x2F. -/
def atomicOf (f3 : Nat) (w : BitVec 32) : Option Instr :=
  let f5 := (w.extractLsb' 27 5).toNat
  let rd := w.extractLsb' 7 5
  let rs1 := w.extractLsb' 15 5
  let rs2 := w.extractLsb' 20 5
  if f3 = 2 ∨ f3 = 3 then
    if f5 = 2 then (if rs2 = 0 then some (.lr (f3 == 3) (w.getLsbD 26) (w.getLsbD 25) rd rs1) else none)
    else if f5 = 3 then some (.sc (f3 == 3) (w.getLsbD 26) (w.getLsbD 25) rd rs1 rs2)
    else (amoOf f5).map fun op => .amo op (f3 == 3) (w.getLsbD 26) (w.getLsbD 25) rd rs1 rs2
  else none

/-- The standard instruction that a word of a major opcode and funct3 names (R42). -/
def standardOf (op f3 : Nat) (w : BitVec 32) : Option Instr :=
  let f7 := (w.extractLsb' 25 7).toNat
  let rd := w.extractLsb' 7 5
  let rs1 := w.extractLsb' 15 5
  let rs2 := w.extractLsb' 20 5
  let immI := w.extractLsb' 20 12
  match op with
  | 0x37 => some (.standardInstruction (.lui rd (w.extractLsb' 12 20)))
  | 0x17 => some (.standardInstruction (.auipc rd (w.extractLsb' 12 20)))
  | 0x6F => some (.standardInstruction (.jal rd (immJ w)))
  | 0x67 => if f3 = 0 then some (.standardInstruction (.jalr rd rs1 immI)) else none
  | 0x63 => (brOf f3).map fun op => .standardInstruction (.branch op rs1 rs2 (immB w))
  | 0x03 => (loadOf f3).map fun k => .controllerLoad k rd rs1 immI
  | 0x23 => (storeOf f3).map fun k => .controllerStore k rs1 rs2 (immS w)
  | 0x13 => (opImmOf f3 rd rs1 immI).map .standardInstruction
  | 0x1B => (opImmwOf f3 rd rs1 immI).map .standardInstruction
  | 0x33 => (aluOf f7 f3).map fun op => .standardInstruction (.alu op rd rs1 rs2)
  | 0x3B => (aluwOf f7 f3 rs2).map fun op => .standardInstruction (.alu op rd rs1 rs2)
  | 0x0F => if f3 = 0 then some (.fence (w.extractLsb' 28 4) (w.extractLsb' 24 4) (w.extractLsb' 20 4) rs1 rd)
    else if f3 = 1 then some (.fenceI immI rs1 rd) else none
  | 0x2F => atomicOf f3 w
  | 0x73 => (csrOf f3).map fun op => .standardInstruction (.csr op rd rs1 immI)
  | _ => none

theorem standardOf_of_other {op f3 : Nat} {w : BitVec 32} (h : op ∉ [0x37, 0x17, 0x6F, 0x67, 0x63, 0x03, 0x23, 0x13, 0x1B, 0x33, 0x3B, 0x0F, 0x2F, 0x73]) :
    standardOf op f3 w = none := by
  simp only [List.mem_cons, List.not_mem_nil, or_false, not_or] at h
  unfold standardOf
  dsimp only
  split
  case h_15 => rfl
  all_goals exact absurd h (by decide)

theorem decodeStandard_eq (w : BitVec 32) :
    decodeStandard w = answer (standardOf (w.extractLsb' 0 7).toNat (w.extractLsb' 12 3).toNat w) := by
  unfold decodeStandard
  generalize (w.extractLsb' 0 7).toNat = op
  generalize (w.extractLsb' 12 3).toNat = f3
  dsimp only
  split
  case h_15 =>
    rw [standardOf_of_other (by simp only [List.mem_cons, List.not_mem_nil, or_false, not_or]; and_intros <;> assumption)]
    rfl
  all_goals
    unfold standardOf
    dsimp only
  case h_1 | h_2 | h_3 => rfl
  case h_4 | h_5 | h_6 | h_7 | h_12 | h_14 =>
    rcases f3 with _ | _ | _ | _ | _ | _ | _ | _ | f3 <;> rfl
  case h_8 => cases opImmOf _ _ _ _ <;> rfl
  case h_9 => cases opImmwOf _ _ _ _ <;> rfl
  case h_10 => cases aluOf _ _ <;> rfl
  case h_11 => cases aluwOf _ _ _ <;> rfl
  case h_13 =>
    show _ = answer (atomicOf f3 w)
    unfold atomicOf
    dsimp only
    split_ifs
    · rfl
    · rfl
    · rfl
    · cases amoOf _ <;> rfl
    · rfl

theorem decodeStandard_ok_iff {w : BitVec 32} {i : Instr} :
    decodeStandard w = .ok i ↔ standardOf (w.extractLsb' 0 7).toNat (w.extractLsb' 12 3).toNat w = some i := by
  rw [decodeStandard_eq]
  cases standardOf (w.extractLsb' 0 7).toNat (w.extractLsb' 12 3).toNat w <;> simp [answer]

/-! ## The fields of each format -/

/-- A word of the U and J formats. -/
def uWord (imm : BitVec 20) (rd : Reg) (op : BitVec 7) : BitVec 32 := imm ++ rd ++ op

theorem uWord_eq (imm : BitVec 20) (rd : Reg) (op : BitVec 7) : uWord imm rd op = (imm ++ rd ++ op :) := rfl
theorem iWord_eq (imm : BitVec 12) (rs1 : Reg) (f3 : Nat) (rd : Reg) (op : Nat) : iWord imm rs1 f3 rd op =
    (imm ++ rs1 ++ BitVec.ofNat 3 f3 ++ rd ++ BitVec.ofNat 7 op :) := rfl
/-- The R, S and A formats have the fields of R43. -/
theorem rWord_eq (f7 : Nat) (rs2 rs1 : Reg) (f3 : Nat) (rd : Reg) (op : Nat) : rWord f7 rs2 rs1 f3 rd op =
    customWord (BitVec.ofNat 7 op) (BitVec.ofNat 3 f3) (BitVec.ofNat 7 f7) rd rs1 rs2 := rfl
theorem aWord_eq (f5 : Nat) (aq rl : Bool) (rs2 rs1 : Reg) (dbl : Bool) (rd : Reg) : aWord f5 aq rl rs2 rs1 dbl rd =
    customWord 0x2F (BitVec.ofNat 3 (if dbl then 3 else 2)) (BitVec.ofNat 5 f5 ++ BitVec.ofBool aq ++ BitVec.ofBool rl) rd rs1 rs2 := rfl

/-- A word of the B format. -/
def bWord (off : BitVec 13) (rs1 rs2 : Reg) (f3 : BitVec 3) : BitVec 32 :=
  off.extractLsb' 12 1 ++ off.extractLsb' 5 6 ++ rs2 ++ rs1 ++ f3 ++ off.extractLsb' 1 4 ++ off.extractLsb' 11 1 ++ 0x63#7
theorem bWord_eq (off : BitVec 13) (rs1 rs2 : Reg) (f3 : BitVec 3) : bWord off rs1 rs2 f3 =
    (off.extractLsb' 12 1 ++ off.extractLsb' 5 6 ++ rs2 ++ rs1 ++ f3 ++ off.extractLsb' 1 4 ++ off.extractLsb' 11 1 ++ 0x63#7 :) := rfl

section
variable (imm : BitVec 20) (rd : Reg) (op : BitVec 7)
@[simp] theorem uWord_major : (uWord imm rd op).extractLsb' 0 7 = op := by
  simp (disch := omega) only [uWord_eq, BitVec.extractLsb'_append_eq_of_add_le, slice_whole]
@[simp] theorem uWord_rd : (uWord imm rd op).extractLsb' 7 5 = rd := by
  simp (disch := omega) only [uWord_eq, BitVec.extractLsb'_append_eq_of_le, BitVec.extractLsb'_append_eq_of_add_le, slice_whole]
@[simp] theorem uWord_imm : (uWord imm rd op).extractLsb' 12 20 = imm := by
  simp (disch := omega) only [uWord_eq, BitVec.extractLsb'_append_eq_of_le, slice_whole]
end

theorem uWord_of (w : BitVec 32) : uWord (w.extractLsb' 12 20) (w.extractLsb' 7 5) (w.extractLsb' 0 7) = w := by
  simp (disch := omega) only [uWord_eq, BitVec.extractLsb'_append_extractLsb'_eq_extractLsb']
  exact BitVec.extractLsb'_eq_self

section
variable (imm : BitVec 12) (rs1 : Reg) (f3 : Nat) (rd : Reg) (op : Nat)
@[simp] theorem iWord_major : (iWord imm rs1 f3 rd op).extractLsb' 0 7 = BitVec.ofNat 7 op := by
  simp (disch := omega) only [iWord_eq, BitVec.extractLsb'_append_eq_of_add_le, slice_whole]
@[simp] theorem iWord_rd : (iWord imm rs1 f3 rd op).extractLsb' 7 5 = rd := by
  simp (disch := omega) only [iWord_eq, BitVec.extractLsb'_append_eq_of_le, BitVec.extractLsb'_append_eq_of_add_le, slice_whole]
@[simp] theorem iWord_funct3 : (iWord imm rs1 f3 rd op).extractLsb' 12 3 = BitVec.ofNat 3 f3 := by
  simp (disch := omega) only [iWord_eq, BitVec.extractLsb'_append_eq_of_le, BitVec.extractLsb'_append_eq_of_add_le, slice_whole]
@[simp] theorem iWord_rs1 : (iWord imm rs1 f3 rd op).extractLsb' 15 5 = rs1 := by
  simp (disch := omega) only [iWord_eq, BitVec.extractLsb'_append_eq_of_le, BitVec.extractLsb'_append_eq_of_add_le, slice_whole]
@[simp] theorem iWord_imm : (iWord imm rs1 f3 rd op).extractLsb' 20 12 = imm := by
  simp (disch := omega) only [iWord_eq, BitVec.extractLsb'_append_eq_of_le, slice_whole]
end

/-- The displacement of a jump, in the order of the J format. -/
def jField (off : BitVec 21) : BitVec 20 := off.extractLsb' 20 1 ++ off.extractLsb' 1 10 ++ off.extractLsb' 11 1 ++ off.extractLsb' 12 8
theorem jField_eq (off : BitVec 21) : jField off =
    (off.extractLsb' 20 1 ++ off.extractLsb' 1 10 ++ off.extractLsb' 11 1 ++ off.extractLsb' 12 8 :) := rfl

/-- Bit 0 of an even displacement. -/
theorem slice_zero_of_even {n : Nat} {off : BitVec n} (h : off.getLsbD 0 = false) : off.extractLsb' 0 1 = 0#1 := by
  rw [← ofBool_getLsbD, h]; rfl

theorem immJ_uWord {off : BitVec 21} (rd : Reg) (op : BitVec 7) (h : off.getLsbD 0 = false) : immJ (uWord (jField off) rd op) = off := by
  simp (disch := omega) only [immJ, uWord_eq, jField_eq, BitVec.extractLsb'_append_eq_of_le, BitVec.extractLsb'_append_eq_of_add_le, slice_whole]
  rw [← slice_zero_of_even h]
  simp (disch := omega) only [BitVec.extractLsb'_append_extractLsb'_eq_extractLsb']
  exact BitVec.extractLsb'_eq_self

theorem immJ_even (w : BitVec 32) : (immJ w).getLsbD 0 = false := by
  exact getLsbD_append_low _ 0#1 Nat.one_pos

theorem jField_immJ (w : BitVec 32) : jField (immJ w) = w.extractLsb' 12 20 := by
  have e : immJ w = (w.extractLsb' 31 1 ++ w.extractLsb' 12 8 ++ w.extractLsb' 20 1 ++ w.extractLsb' 21 10 ++ 0#1 :) := rfl
  simp (disch := omega) only [e, jField_eq, BitVec.extractLsb'_append_eq_of_le, BitVec.extractLsb'_append_eq_of_add_le, slice_whole,
    BitVec.extractLsb'_append_extractLsb'_eq_extractLsb']

section
variable (off : BitVec 13) (rs1 rs2 : Reg) (f3 : BitVec 3)
@[simp] theorem bWord_major : (bWord off rs1 rs2 f3).extractLsb' 0 7 = 0x63#7 := by
  simp (disch := omega) only [bWord_eq, BitVec.extractLsb'_append_eq_of_add_le, slice_whole]
@[simp] theorem bWord_funct3 : (bWord off rs1 rs2 f3).extractLsb' 12 3 = f3 := by
  simp (disch := omega) only [bWord_eq, BitVec.extractLsb'_append_eq_of_le, BitVec.extractLsb'_append_eq_of_add_le, slice_whole]
@[simp] theorem bWord_rs1 : (bWord off rs1 rs2 f3).extractLsb' 15 5 = rs1 := by
  simp (disch := omega) only [bWord_eq, BitVec.extractLsb'_append_eq_of_le, BitVec.extractLsb'_append_eq_of_add_le, slice_whole]
@[simp] theorem bWord_rs2 : (bWord off rs1 rs2 f3).extractLsb' 20 5 = rs2 := by
  simp (disch := omega) only [bWord_eq, BitVec.extractLsb'_append_eq_of_le, BitVec.extractLsb'_append_eq_of_add_le, slice_whole]
end

theorem immB_bWord {off : BitVec 13} (rs1 rs2 : Reg) (f3 : BitVec 3) (h : off.getLsbD 0 = false) : immB (bWord off rs1 rs2 f3) = off := by
  simp (disch := omega) only [immB, bWord_eq, BitVec.extractLsb'_append_eq_of_le, BitVec.extractLsb'_append_eq_of_add_le, slice_whole]
  rw [← slice_zero_of_even h]
  simp (disch := omega) only [BitVec.extractLsb'_append_extractLsb'_eq_extractLsb']
  exact BitVec.extractLsb'_eq_self

theorem immB_even (w : BitVec 32) : (immB w).getLsbD 0 = false := by
  exact getLsbD_append_low _ 0#1 Nat.one_pos

theorem bWord_immB {w : BitVec 32} (h : w.extractLsb' 0 7 = 0x63#7) :
    bWord (immB w) (w.extractLsb' 15 5) (w.extractLsb' 20 5) (w.extractLsb' 12 3) = w := by
  have e : immB w = (w.extractLsb' 31 1 ++ w.extractLsb' 7 1 ++ w.extractLsb' 25 6 ++ w.extractLsb' 8 4 ++ 0#1 :) := rfl
  simp (disch := omega) only [← h, e, bWord_eq, BitVec.extractLsb'_append_eq_of_le, BitVec.extractLsb'_append_eq_of_add_le, slice_whole,
    BitVec.extractLsb'_append_extractLsb'_eq_extractLsb']

/-! ## Register and immediate operations -/

theorem aluOf_code (op : AluOp) (rs2 : Reg) (h : op = .zextH → rs2 = 0) :
    op.code.2.1 < 128 ∧ op.code.2.2 < 8 ∧
    (op.code.1 = 0x33 ∧ aluOf op.code.2.1 op.code.2.2 = some op ∨ op.code.1 = 0x3B ∧ aluwOf op.code.2.1 op.code.2.2 rs2 = some op) := by
  cases op
  case zextH => obtain rfl := h rfl; exact ⟨by decide, by decide, .inr ⟨rfl, rfl⟩⟩
  case addw | subw | sllw | srlw | sraw | mulw | divw | divuw | remw | remuw | addUw | sh1addUw | sh2addUw | sh3addUw | rolw | rorw =>
    exact ⟨by decide, by decide, .inr ⟨rfl, rfl⟩⟩
  all_goals exact ⟨by decide, by decide, .inl ⟨rfl, rfl⟩⟩

theorem toNat_slice_six (x : BitVec 12) : (x.extractLsb' 6 6).toNat = x.toNat / 64 := by
  rw [BitVec.extractLsb'_toNat, Nat.shiftRight_eq_div_pow, Nat.mod_eq_of_lt]
  omega
theorem toNat_slice_five (x : BitVec 12) : (x.extractLsb' 5 7).toNat = x.toNat / 32 := by
  rw [BitVec.extractLsb'_toNat, Nat.shiftRight_eq_div_pow, Nat.mod_eq_of_lt]
  omega
theorem toNat_low_six (x : BitVec 12) : (x &&& 0x03F#12).toNat = x.toNat % 64 := by
  rw [BitVec.toNat_and]; exact Nat.and_two_pow_sub_one_eq_mod x.toNat 6
theorem toNat_low_five (x : BitVec 12) : (x &&& 0x01F#12).toNat = x.toNat % 32 := by
  rw [BitVec.toNat_and]; exact Nat.and_two_pow_sub_one_eq_mod x.toNat 5

/-- A shift amount below the bits above it. -/
theorem toNat_or_high {imm : BitVec 12} {k c hi : Nat} (h : imm.toNat < 2 ^ k) (hc : hi = 2 ^ k * c) (hb : hi < 2 ^ 12) :
    (imm ||| BitVec.ofNat 12 hi).toNat = hi + imm.toNat := by
  rw [BitVec.toNat_or, BitVec.toNat_ofNat, Nat.mod_eq_of_lt hb, Nat.or_comm, hc, Nat.two_pow_add_eq_or_of_lt h]

theorem shift_six {imm : BitVec 12} {c hi : Nat} (h : imm.toNat < 2 ^ 6) (hc : hi = 2 ^ 6 * c) (hb : hi < 2 ^ 12) :
    ((imm ||| BitVec.ofNat 12 hi).extractLsb' 6 6).toNat = c ∧ (imm ||| BitVec.ofNat 12 hi) &&& 0x03F#12 = imm := by
  have e := toNat_or_high h hc hb
  constructor
  · rw [toNat_slice_six, e]; omega
  · exact BitVec.eq_of_toNat_eq (by rw [toNat_low_six, e]; omega)
theorem shift_five {imm : BitVec 12} {c hi : Nat} (h : imm.toNat < 2 ^ 5) (hc : hi = 2 ^ 5 * c) (hb : hi < 2 ^ 12) :
    ((imm ||| BitVec.ofNat 12 hi).extractLsb' 5 7).toNat = c ∧ (imm ||| BitVec.ofNat 12 hi) &&& 0x01F#12 = imm := by
  have e := toNat_or_high h hc hb
  constructor
  · rw [toNat_slice_five, e]; omega
  · exact BitVec.eq_of_toNat_eq (by rw [toNat_low_five, e]; omega)

theorem opImmOf_code (op : AluiOp) (rd rs1 : Reg) {imm : BitVec 12} (h : imm.toNat < 2 ^ op.code.2.2.2) :
    op.code.1 = 0x13 ∧ opImmOf op.code.2.1 rd rs1 (imm ||| BitVec.ofNat 12 op.code.2.2.1) = some (.alui op rd rs1 imm) ∨
    op.code.1 = 0x1B ∧ opImmwOf op.code.2.1 rd rs1 (imm ||| BitVec.ofNat 12 op.code.2.2.1) = some (.alui op rd rs1 imm) := by
  cases op
  case addi | slti | sltiu | xori | ori | andi => exact .inl ⟨rfl, by simp [AluiOp.code, opImmOf]⟩
  case addiw => exact .inr ⟨rfl, by simp [AluiOp.code, opImmwOf]⟩
  case slli | srli =>
    obtain ⟨t, e⟩ := shift_six (c := 0x00) (hi := 0x000) h rfl (by decide)
    exact .inl ⟨rfl, by simp only [opImmOf, AluiOp.code, t, e]; rfl⟩
  case srai =>
    obtain ⟨t, e⟩ := shift_six (c := 0x10) (hi := 0x400) h rfl (by decide)
    exact .inl ⟨rfl, by simp only [opImmOf, AluiOp.code, t, e]; rfl⟩
  case rori =>
    obtain ⟨t, e⟩ := shift_six (c := 0x18) (hi := 0x600) h rfl (by decide)
    exact .inl ⟨rfl, by simp only [opImmOf, AluiOp.code, t, e]; rfl⟩
  case slliw | srliw =>
    obtain ⟨t, e⟩ := shift_five (c := 0x00) (hi := 0x000) h rfl (by decide)
    exact .inr ⟨rfl, by simp only [opImmwOf, AluiOp.code, t, e]; rfl⟩
  case sraiw =>
    obtain ⟨t, e⟩ := shift_five (c := 0x20) (hi := 0x400) h rfl (by decide)
    exact .inr ⟨rfl, by simp only [opImmwOf, AluiOp.code, t, e]; rfl⟩
  case roriw =>
    obtain ⟨t, e⟩ := shift_five (c := 0x30) (hi := 0x600) h rfl (by decide)
    exact .inr ⟨rfl, by simp only [opImmwOf, AluiOp.code, t, e]; rfl⟩
  case slliUw =>
    obtain ⟨t, e⟩ := shift_six (c := 0x02) (hi := 0x080) h rfl (by decide)
    have n := toNat_or_high (k := 6) (c := 2) (hi := 0x080) h rfl (by decide)
    have t5 : ((imm ||| BitVec.ofNat 12 0x080).extractLsb' 5 7).toNat ≠ 0 := by rw [toNat_slice_five, n]; omega
    exact .inr ⟨rfl, by simp only [opImmwOf, AluiOp.code, t, e, if_neg t5]; rfl⟩

theorem opImmOf_unary (op : UnOp) (rd rs1 : Reg) :
    op.code.1 = 0x13 ∧ opImmOf op.code.2.1 rd rs1 (BitVec.ofNat 12 op.code.2.2) = some (.unary op rd rs1) ∨
    op.code.1 = 0x1B ∧ opImmwOf op.code.2.1 rd rs1 (BitVec.ofNat 12 op.code.2.2) = some (.unary op rd rs1) := by
  cases op
  case clzw | ctzw | cpopw => exact .inr ⟨rfl, rfl⟩
  all_goals exact .inl ⟨rfl, rfl⟩

/-! ## Decoding gives back what was encoded -/

theorem toNat_ofNat_lt {n v : Nat} (h : v < 2 ^ n) : (BitVec.ofNat n v).toNat = v := by
  rw [BitVec.toNat_ofNat, Nat.mod_eq_of_lt h]

/-- The codes fit their fields. -/
theorem brCode_lt (op : BrOp) : op.code < 2 ^ 3 := by cases op <;> decide
theorem csrCode_lt (op : CsrOp) : op.code < 2 ^ 3 := by cases op <;> decide
theorem loadCode_lt (k : LoadKind) : k.code < 2 ^ 3 := by cases k <;> decide
theorem storeCode_lt (k : StoreKind) : k.code < 2 ^ 3 := by cases k <;> decide
theorem amoCode_lt (op : AmoOp) : op.code < 2 ^ 5 ∧ op.code ≠ 2 ∧ op.code ≠ 3 := by cases op <;> decide
theorem aluiCode_lt (op : AluiOp) : op.code.2.1 < 2 ^ 3 := by cases op <;> decide
theorem unCode_lt (op : UnOp) : op.code.2.1 < 2 ^ 3 := by cases op <;> decide

/-- An I-type word decodes by its major opcode and funct3. -/
theorem decodeStandard_iWord {imm : BitVec 12} {rs1 rd : Reg} {f3 op : Nat} {i : Instr} (h3 : f3 < 2 ^ 3) (hop : op < 2 ^ 7)
    (h : standardOf op f3 (iWord imm rs1 f3 rd op) = some i) : decodeStandard (iWord imm rs1 f3 rd op) = .ok i := by
  rw [decodeStandard_ok_iff, iWord_major, iWord_funct3, toNat_ofNat_lt h3, toNat_ofNat_lt hop, h]

/-- A word of the R, S or A format decodes by its major opcode and funct3. -/
theorem decodeStandard_customWord {op f3 : Nat} {f7 : BitVec 7} {rd rs1 rs2 : Reg} {i : Instr} (h3 : f3 < 2 ^ 3) (hop : op < 2 ^ 7)
    (h : standardOf op f3 (customWord (BitVec.ofNat 7 op) (BitVec.ofNat 3 f3) f7 rd rs1 rs2) = some i) :
    decodeStandard (customWord (BitVec.ofNat 7 op) (BitVec.ofNat 3 f3) f7 rd rs1 rs2) = .ok i := by
  rw [decodeStandard_ok_iff, customWord_major, customWord_funct3, toNat_ofNat_lt h3, toNat_ofNat_lt hop, h]

/-- A word of the U or J format decodes by its major opcode. -/
theorem decodeStandard_uWord {imm : BitVec 20} {rd : Reg} {op : BitVec 7} {i : Instr}
    (h : ∀ f3, standardOf op.toNat f3 (uWord imm rd op) = some i) : decodeStandard (uWord imm rd op) = .ok i := by
  rw [decodeStandard_ok_iff, uWord_major, h]

theorem decodeStandard_jal {off : BitVec 21} (rd : Reg) (h : off.getLsbD 0 = false) :
    decodeStandard (uWord (jField off) rd 0x6F#7) = .ok (.standardInstruction (.jal rd off)) :=
  decodeStandard_uWord fun _ => by
    show some (Instr.standardInstruction (.jal _ (immJ _))) = _
    rw [uWord_rd, immJ_uWord rd _ h]

theorem decodeStandard_branch (op : BrOp) {rs1 rs2 : Reg} {off : BitVec 13} (h : off.getLsbD 0 = false) :
    decodeStandard (bWord off rs1 rs2 (BitVec.ofNat 3 op.code)) = .ok (.standardInstruction (.branch op rs1 rs2 off)) := by
  rw [decodeStandard_ok_iff, bWord_major, bWord_funct3, toNat_ofNat_lt (brCode_lt op)]
  show (brOf op.code).map _ = _
  rw [brOf_code, bWord_rs1, bWord_rs2, immB_bWord _ _ _ h]
  rfl

theorem decodeStandard_alu (op : AluOp) (rd rs1 rs2 : Reg) (h : op = .zextH → rs2 = 0) :
    decodeStandard (rWord op.code.2.1 rs2 rs1 op.code.2.2 rd op.code.1) = .ok (.standardInstruction (.alu op rd rs1 rs2)) := by
  obtain ⟨h7, h3, ⟨hop, hn⟩ | ⟨hop, hn⟩⟩ := aluOf_code op rs2 h
  all_goals
    rw [rWord_eq]
    refine decodeStandard_customWord h3 (by rw [hop]; decide) ?_
    simp [hop, standardOf, Nat.mod_eq_of_lt h7, hn]

theorem decodeStandard_alui (op : AluiOp) (rd rs1 : Reg) {imm : BitVec 12} (h : imm.toNat < 2 ^ op.code.2.2.2) :
    decodeStandard (iWord (imm ||| BitVec.ofNat 12 op.code.2.2.1) rs1 op.code.2.1 rd op.code.1) = .ok (.standardInstruction (.alui op rd rs1 imm)) := by
  obtain ⟨hop, hn⟩ | ⟨hop, hn⟩ := opImmOf_code op rd rs1 h
  all_goals exact decodeStandard_iWord (aluiCode_lt op) (by rw [hop]; decide) (by simp [hop, standardOf, hn])

theorem decodeStandard_unary (op : UnOp) (rd rs1 : Reg) :
    decodeStandard (iWord (BitVec.ofNat 12 op.code.2.2) rs1 op.code.2.1 rd op.code.1) = .ok (.standardInstruction (.unary op rd rs1)) := by
  obtain ⟨hop, hn⟩ | ⟨hop, hn⟩ := opImmOf_unary op rd rs1
  all_goals exact decodeStandard_iWord (unCode_lt op) (by rw [hop]; decide) (by simp [hop, standardOf, hn])

theorem decodeStandard_csr (op : CsrOp) (rd rs1 : Reg) (num : BitVec 12) :
    decodeStandard (iWord num rs1 op.code rd 0x73) = .ok (.standardInstruction (.csr op rd rs1 num)) :=
  decodeStandard_iWord (csrCode_lt op) (by decide) (by simp [standardOf])

theorem decodeStandard_load (k : LoadKind) (rd rs1 : Reg) (imm : BitVec 12) :
    decodeStandard (iWord imm rs1 k.code rd 0x03) = .ok (.controllerLoad k rd rs1 imm) :=
  decodeStandard_iWord (loadCode_lt k) (by decide) (by simp [standardOf])

theorem immS_customWord (major : BitVec 7) (f3 : BitVec 3) (imm : BitVec 12) (rs1 rs2 : Reg) :
    immS (customWord major f3 (imm.extractLsb' 5 7) (imm.extractLsb' 0 5) rs1 rs2) = imm := by
  rw [immS, customWord_funct7, customWord_rd, BitVec.extractLsb'_append_extractLsb'_eq_extractLsb' (start₂ := 5) (start₁ := 0) (len₁ := 5) rfl]
  exact BitVec.extractLsb'_eq_self

theorem decodeStandard_store (k : StoreKind) (rs1 rs2 : Reg) (imm : BitVec 12) :
    decodeStandard (customWord (BitVec.ofNat 7 0x23) (BitVec.ofNat 3 k.code) (imm.extractLsb' 5 7) (imm.extractLsb' 0 5) rs1 rs2) =
      .ok (.controllerStore k rs1 rs2 imm) :=
  decodeStandard_customWord (storeCode_lt k) (by decide) (by simp [standardOf, immS_customWord])

theorem decodeStandard_fence (fm pred succ : BitVec 4) (rs1 rd : Reg) :
    decodeStandard (iWord (fm ++ pred ++ succ) rs1 0 rd 0x0F) = .ok (.fence fm pred succ rs1 rd) := by
  have e : iWord (fm ++ pred ++ succ) rs1 0 rd 0x0F = (fm ++ pred ++ succ ++ rs1 ++ 0#3 ++ rd ++ 0x0F#7 :) := rfl
  refine decodeStandard_iWord (by decide) (by decide) ?_
  show some (Instr.fence _ _ _ _ _) = _
  rw [iWord_rs1, iWord_rd]
  simp (disch := omega) only [e, BitVec.extractLsb'_append_eq_of_le, BitVec.extractLsb'_append_eq_of_add_le, slice_whole]

theorem decodeStandard_fenceI (imm : BitVec 12) (rs1 rd : Reg) : decodeStandard (iWord imm rs1 1 rd 0x0F) = .ok (.fenceI imm rs1 rd) :=
  decodeStandard_iWord (by decide) (by decide) (by simp [standardOf])

theorem aWord_eq_slices (f5 : Nat) (aq rl : Bool) (rs2 rs1 : Reg) (dbl : Bool) (rd : Reg) : aWord f5 aq rl rs2 rs1 dbl rd =
    (BitVec.ofNat 5 f5 ++ BitVec.ofBool aq ++ BitVec.ofBool rl ++ rs2 ++ rs1 ++ BitVec.ofNat 3 (if dbl then 3 else 2) ++ rd ++ 0x2F#7 :) := rfl

section
variable (f5 : Nat) (aq rl : Bool) (rs2 rs1 : Reg) (dbl : Bool) (rd : Reg)
@[simp] theorem aWord_funct5 : (aWord f5 aq rl rs2 rs1 dbl rd).extractLsb' 27 5 = BitVec.ofNat 5 f5 := by
  simp (disch := omega) only [aWord_eq_slices, BitVec.extractLsb'_append_eq_of_le, slice_whole]
@[simp] theorem aWord_aq : (aWord f5 aq rl rs2 rs1 dbl rd).getLsbD 26 = aq := by
  simp (disch := omega) only [aWord_eq_slices, getLsbD_append_high, getLsbD_append_low, getLsbD_ofBool_zero]
@[simp] theorem aWord_rl : (aWord f5 aq rl rs2 rs1 dbl rd).getLsbD 25 = rl := by
  simp (disch := omega) only [aWord_eq_slices, getLsbD_append_high, getLsbD_append_low, getLsbD_ofBool_zero]
@[simp] theorem aWord_rs2 : (aWord f5 aq rl rs2 rs1 dbl rd).extractLsb' 20 5 = rs2 := by rw [aWord_eq, customWord_rs2]
@[simp] theorem aWord_rs1 : (aWord f5 aq rl rs2 rs1 dbl rd).extractLsb' 15 5 = rs1 := by rw [aWord_eq, customWord_rs1]
@[simp] theorem aWord_rd : (aWord f5 aq rl rs2 rs1 dbl rd).extractLsb' 7 5 = rd := by rw [aWord_eq, customWord_rd]
end

theorem atomicOf_aWord {f5 : Nat} (h : f5 < 2 ^ 5) (aq rl : Bool) (rs2 rs1 : Reg) (dbl : Bool) (rd : Reg) :
    atomicOf (if dbl then 3 else 2) (aWord f5 aq rl rs2 rs1 dbl rd) =
      if f5 = 2 then (if rs2 = 0 then some (.lr dbl aq rl rd rs1) else none)
      else if f5 = 3 then some (.sc dbl aq rl rd rs1 rs2)
      else (amoOf f5).map fun op => .amo op dbl aq rl rd rs1 rs2 := by
  simp only [atomicOf, aWord_funct5, aWord_aq, aWord_rl, aWord_rs2, aWord_rs1, aWord_rd, toNat_ofNat_lt h]
  cases dbl <;> rfl

/-- A word of the A format decodes by its funct5. -/
theorem decodeStandard_aWord {f5 : Nat} {aq rl dbl : Bool} {rs2 rs1 rd : Reg} {i : Instr}
    (h : atomicOf (if dbl then 3 else 2) (aWord f5 aq rl rs2 rs1 dbl rd) = some i) : decodeStandard (aWord f5 aq rl rs2 rs1 dbl rd) = .ok i := by
  rw [aWord_eq] at h ⊢
  exact decodeStandard_customWord (op := 0x2F) (by cases dbl <;> decide) (by decide) h

theorem decodeStandard_amo (op : AmoOp) (dbl aq rl : Bool) (rd rs1 rs2 : Reg) :
    decodeStandard (aWord op.code aq rl rs2 rs1 dbl rd) = .ok (.amo op dbl aq rl rd rs1 rs2) := by
  obtain ⟨hlt, h2, h3⟩ := amoCode_lt op
  exact decodeStandard_aWord (by rw [atomicOf_aWord hlt, if_neg h2, if_neg h3, amoOf_code]; rfl)

theorem decodeStandard_lr (dbl aq rl : Bool) (rd rs1 : Reg) : decodeStandard (aWord 2 aq rl 0 rs1 dbl rd) = .ok (.lr dbl aq rl rd rs1) :=
  decodeStandard_aWord (atomicOf_aWord (by decide) aq rl 0 rs1 dbl rd)

theorem decodeStandard_sc (dbl aq rl : Bool) (rd rs1 rs2 : Reg) : decodeStandard (aWord 3 aq rl rs2 rs1 dbl rd) = .ok (.sc dbl aq rl rd rs1 rs2) :=
  decodeStandard_aWord (atomicOf_aWord (by decide) aq rl rs2 rs1 dbl rd)

/-- Decoding gives back the standard instruction that was encoded (R42). -/
theorem decodeStandard_encodeStandard {i : Instr} {w : BitVec 32} (h : encodeStandard i = some w) : decodeStandard w = .ok i := by
  unfold encodeStandard at h
  split at h
  case h_1 rd imm => cases h; exact decodeStandard_uWord fun _ => by show some (Instr.standardInstruction (.lui _ _)) = _; rw [uWord_rd, uWord_imm]
  case h_2 rd imm => cases h; exact decodeStandard_uWord fun _ => by show some (Instr.standardInstruction (.auipc _ _)) = _; rw [uWord_rd, uWord_imm]
  case h_3 rd off =>
    split at h <;> cases h
    next he => exact decodeStandard_jal rd (Bool.eq_false_of_not_eq_true he)
  case h_4 => cases h; exact decodeStandard_iWord (by decide) (by decide) (by simp [standardOf])
  case h_5 op rs1 rs2 off =>
    split at h <;> cases h
    next he => exact decodeStandard_branch op (Bool.eq_false_of_not_eq_true he)
  case h_6 op rd rs1 rs2 =>
    split at h <;> cases h
    next hz => exact decodeStandard_alu op rd rs1 rs2 (fun e => not_not.mp fun n => hz ⟨e, n⟩)
  case h_7 op rd rs1 imm =>
    split at h <;> cases h
    next hlt => exact decodeStandard_alui op rd rs1 (Nat.not_le.mp hlt)
  case h_8 op rd rs1 => cases h; exact decodeStandard_unary op rd rs1
  case h_9 op rd rs1 num => cases h; exact decodeStandard_csr op rd rs1 num
  case h_10 k rd rs1 imm => cases h; exact decodeStandard_load k rd rs1 imm
  case h_11 k rs1 rs2 imm => cases h; exact decodeStandard_store k rs1 rs2 imm
  case h_12 fm pred succ rs1 rd => cases h; exact decodeStandard_fence fm pred succ rs1 rd
  case h_13 imm rs1 rd => cases h; exact decodeStandard_fenceI imm rs1 rd
  case h_14 op dbl aq rl rd rs1 rs2 => cases h; exact decodeStandard_amo op dbl aq rl rd rs1 rs2
  case h_15 dbl aq rl rd rs1 => cases h; exact decodeStandard_lr dbl aq rl rd rs1
  case h_16 dbl aq rl rd rs1 rs2 => cases h; exact decodeStandard_sc dbl aq rl rd rs1 rs2
  case h_17 => cases h

/-! ## A standard word that decodes is the encoding of what it decodes to -/

theorem iWord_of {w : BitVec 32} {op : Nat} (h : (w.extractLsb' 0 7).toNat = op) :
    iWord (w.extractLsb' 20 12) (w.extractLsb' 15 5) (w.extractLsb' 12 3).toNat (w.extractLsb' 7 5) op = w := by
  subst h
  simp (disch := omega) only [iWord_eq, BitVec.ofNat_toNat, BitVec.setWidth_eq, BitVec.extractLsb'_append_extractLsb'_eq_extractLsb']
  exact BitVec.extractLsb'_eq_self

theorem customWord_of_op {w : BitVec 32} {op : Nat} (h : (w.extractLsb' 0 7).toNat = op) :
    customWord (BitVec.ofNat 7 op) (w.extractLsb' 12 3) (w.extractLsb' 25 7) (w.extractLsb' 7 5) (w.extractLsb' 15 5) (w.extractLsb' 20 5) = w := by
  subst h
  rw [BitVec.ofNat_toNat, BitVec.setWidth_eq, customWord_of]

theorem rWord_of {w : BitVec 32} {op : Nat} (h : (w.extractLsb' 0 7).toNat = op) :
    rWord (w.extractLsb' 25 7).toNat (w.extractLsb' 20 5) (w.extractLsb' 15 5) (w.extractLsb' 12 3).toNat (w.extractLsb' 7 5) op = w := by
  rw [rWord_eq, BitVec.ofNat_toNat, BitVec.setWidth_eq, BitVec.ofNat_toNat, BitVec.setWidth_eq, customWord_of_op h]

theorem uWord_of_op {w : BitVec 32} {op : BitVec 7} (h : (w.extractLsb' 0 7).toNat = op.toNat) :
    uWord (w.extractLsb' 12 20) (w.extractLsb' 7 5) op = w := by
  rw [← BitVec.eq_of_toNat_eq h, uWord_of]

theorem code_of_aluOf {f7 f3 : Nat} {op : AluOp} (h : aluOf f7 f3 = some op) : op.code = (0x33, f7, f3) ∧ op ≠ .zextH := by
  unfold aluOf at h
  split at h <;> cases h <;> exact ⟨rfl, by decide⟩

theorem code_of_aluwOf {f7 f3 : Nat} {rs2 : Reg} {op : AluOp} (h : aluwOf f7 f3 rs2 = some op) :
    op.code = (0x3B, f7, f3) ∧ (op = .zextH → rs2 = 0) := by
  unfold aluwOf at h
  split at h
  case h_17 =>
    split at h <;> cases h
    next hz => exact ⟨rfl, fun _ => hz⟩
  all_goals cases h <;> exact ⟨rfl, nofun⟩

theorem encodeStandard_alu {op : AluOp} {rs2 : Reg} (rd rs1 : Reg) (h : op = .zextH → rs2 = 0) :
    encodeStandard (.standardInstruction (.alu op rd rs1 rs2)) = some (rWord op.code.2.1 rs2 rs1 op.code.2.2 rd op.code.1) :=
  if_neg fun e => e.2 (h e.1)

/-- An immediate whose upper bits are a shift's is the amount below them. -/
theorem or_low_six {imm : BitVec 12} {c hi : Nat} (h : (imm.extractLsb' 6 6).toNat = c) (hc : hi = 64 * c) :
    (imm &&& 0x03F#12) ||| BitVec.ofNat 12 hi = imm := by
  rw [toNat_slice_six] at h
  have lt := imm.isLt
  apply BitVec.eq_of_toNat_eq
  rw [toNat_or_high (k := 6) (c := c) (by rw [toNat_low_six]; omega) hc (by omega), toNat_low_six]
  omega
theorem or_low_five {imm : BitVec 12} {c hi : Nat} (h : (imm.extractLsb' 5 7).toNat = c) (hc : hi = 32 * c) :
    (imm &&& 0x01F#12) ||| BitVec.ofNat 12 hi = imm := by
  rw [toNat_slice_five] at h
  have lt := imm.isLt
  apply BitVec.eq_of_toNat_eq
  rw [toNat_or_high (k := 5) (c := c) (by rw [toNat_low_five]; omega) hc (by omega), toNat_low_five]
  omega

theorem encodeStandard_alui {op : AluiOp} {imm : BitVec 12} (rd rs1 : Reg) (h : imm.toNat < 2 ^ op.code.2.2.2) :
    encodeStandard (.standardInstruction (.alui op rd rs1 imm)) =
      some (iWord (imm ||| BitVec.ofNat 12 op.code.2.2.1) rs1 op.code.2.1 rd op.code.1) :=
  if_neg (Nat.not_le.mpr h)

/-- A register-immediate operation without a shift amount. -/
theorem encodeStandard_imm {op : AluiOp} (rd rs1 : Reg) (imm : BitVec 12) (h : op.code.2.2 = (0, 12)) :
    encodeStandard (.standardInstruction (.alui op rd rs1 imm)) = some (iWord imm rs1 op.code.2.1 rd op.code.1) := by
  rw [encodeStandard_alui _ _ (by rw [h]; exact imm.isLt), h]
  simp

theorem encodeStandard_six {op : AluiOp} {c : Nat} {imm : BitVec 12} (rd rs1 : Reg) (h : (imm.extractLsb' 6 6).toNat = c)
    (hc : op.code.2.2 = (64 * c, 6)) :
    encodeStandard (.standardInstruction (.alui op rd rs1 (imm &&& 0x03F#12))) = some (iWord imm rs1 op.code.2.1 rd op.code.1) := by
  rw [encodeStandard_alui _ _ (by rw [hc, toNat_low_six]; exact Nat.mod_lt _ (by decide)), hc, or_low_six h rfl]
theorem encodeStandard_five {op : AluiOp} {c : Nat} {imm : BitVec 12} (rd rs1 : Reg) (h : (imm.extractLsb' 5 7).toNat = c)
    (hc : op.code.2.2 = (32 * c, 5)) :
    encodeStandard (.standardInstruction (.alui op rd rs1 (imm &&& 0x01F#12))) = some (iWord imm rs1 op.code.2.1 rd op.code.1) := by
  rw [encodeStandard_alui _ _ (by rw [hc, toNat_low_five]; exact Nat.mod_lt _ (by decide)), hc, or_low_five h rfl]

theorem encodeStandard_unary {op : UnOp} {imm : BitVec 12} (rd rs1 : Reg) (h : imm.toNat = op.code.2.2) :
    encodeStandard (.standardInstruction (.unary op rd rs1)) = some (iWord imm rs1 op.code.2.1 rd op.code.1) := by
  have e : BitVec.ofNat 12 op.code.2.2 = imm := by rw [← h, BitVec.ofNat_toNat, BitVec.setWidth_eq]
  rw [← e]
  rfl

theorem encodeStandard_opImmOf {f3 : Nat} {rd rs1 : Reg} {imm : BitVec 12} {o : StdOp} (hf : f3 < 8)
    (h : opImmOf f3 rd rs1 imm = some o) : encodeStandard (.standardInstruction o) = some (iWord imm rs1 f3 rd 0x13) := by
  unfold opImmOf at h
  dsimp only at h
  split at h
  case h_7 =>
    split at h
    next ht => cases h; exact encodeStandard_six rd rs1 ht rfl
    split at h <;> cases h
    all_goals next hi => exact encodeStandard_unary rd rs1 hi
  case h_8 n0 n2 n3 n4 n6 n7 n1 =>
    have others : f3 ≠ 0 ∧ f3 ≠ 1 ∧ f3 ≠ 2 ∧ f3 ≠ 3 ∧ f3 ≠ 4 ∧ f3 ≠ 6 ∧ f3 ≠ 7 := ⟨n0, n1, n2, n3, n4, n6, n7⟩
    obtain rfl : f3 = 5 := by omega
    split at h
    next ht => cases h; exact encodeStandard_six rd rs1 ht rfl
    split at h
    next ht => cases h; exact encodeStandard_six rd rs1 ht rfl
    split at h
    next ht => cases h; exact encodeStandard_six rd rs1 ht rfl
    split at h <;> cases h
    all_goals next hi => exact encodeStandard_unary rd rs1 hi
  all_goals cases h; exact encodeStandard_imm rd rs1 imm rfl

theorem encodeStandard_opImmwOf {f3 : Nat} {rd rs1 : Reg} {imm : BitVec 12} {o : StdOp}
    (h : opImmwOf f3 rd rs1 imm = some o) : encodeStandard (.standardInstruction o) = some (iWord imm rs1 f3 rd 0x1B) := by
  unfold opImmwOf at h
  dsimp only at h
  split at h
  case h_1 => cases h; exact encodeStandard_imm rd rs1 imm rfl
  case h_2 =>
    split at h
    next ht => cases h; exact encodeStandard_five rd rs1 ht rfl
    split at h
    next ht => cases h; exact encodeStandard_six rd rs1 ht rfl
    split at h <;> cases h
    all_goals next hi => exact encodeStandard_unary rd rs1 hi
  case h_3 =>
    split at h
    next ht => cases h; exact encodeStandard_five rd rs1 ht rfl
    split at h
    next ht => cases h; exact encodeStandard_five rd rs1 ht rfl
    split at h <;> cases h
    next ht => exact encodeStandard_five rd rs1 ht rfl
  case h_4 => cases h

theorem aWord_of {w : BitVec 32} {f5 : Nat} {dbl : Bool} (h : (w.extractLsb' 0 7).toNat = 0x2F) (h3 : (w.extractLsb' 12 3).toNat = if dbl then 3 else 2)
    (h5 : (w.extractLsb' 27 5).toNat = f5) :
    aWord f5 (w.getLsbD 26) (w.getLsbD 25) (w.extractLsb' 20 5) (w.extractLsb' 15 5) dbl (w.extractLsb' 7 5) = w := by
  have e7 : (0x2F#7 : BitVec 7) = w.extractLsb' 0 7 := (BitVec.eq_of_toNat_eq h).symm
  subst h5
  rw [aWord_eq_slices, ← h3, e7]
  simp (disch := omega) only [ofBool_getLsbD, BitVec.ofNat_toNat, BitVec.setWidth_eq, BitVec.extractLsb'_append_extractLsb'_eq_extractLsb']
  exact BitVec.extractLsb'_eq_self

theorem encodeStandard_atomicOf {w : BitVec 32} {i : Instr} (hop : (w.extractLsb' 0 7).toNat = 0x2F)
    (h : atomicOf (w.extractLsb' 12 3).toNat w = some i) : encodeStandard i = some w := by
  unfold atomicOf at h
  dsimp only at h
  split at h
  case isFalse => cases h
  case isTrue h3 =>
    have hd : (w.extractLsb' 12 3).toNat = if ((w.extractLsb' 12 3).toNat == 3) = true then 3 else 2 := by
      rcases h3 with h3 | h3 <;> rw [h3] <;> rfl
    split at h
    case isTrue h5 =>
      split at h <;> cases h
      next hz =>
      have e := aWord_of hop hd h5
      rw [hz] at e
      exact congrArg some e
    split at h
    case isTrue h5 => cases h; exact congrArg some (aWord_of hop hd h5)
    obtain ⟨op, ho, rfl⟩ := Option.map_eq_some_iff.mp h
    exact congrArg some (aWord_of hop hd (code_of_amoOf ho).symm)

theorem encodeStandard_standardOf {w : BitVec 32} {op : Nat} {i : Instr} (hop : (w.extractLsb' 0 7).toNat = op)
    (h : standardOf op (w.extractLsb' 12 3).toNat w = some i) : encodeStandard i = some w := by
  have f3 : BitVec.ofNat 3 (w.extractLsb' 12 3).toNat = w.extractLsb' 12 3 := by rw [BitVec.ofNat_toNat, BitVec.setWidth_eq]
  unfold standardOf at h
  dsimp only at h
  split at h
  case h_1 | h_2 => cases h; exact congrArg some (uWord_of_op hop)
  case h_3 =>
    cases h
    refine (if_neg (by rw [immJ_even]; exact Bool.false_ne_true)).trans (congrArg some ?_)
    show uWord (jField _) _ _ = _
    rw [jField_immJ, uWord_of_op hop]
  case h_4 =>
    split at h <;> cases h
    next h0 => exact congrArg some (h0 ▸ iWord_of hop)
  case h_5 =>
    obtain ⟨op, ho, rfl⟩ := Option.map_eq_some_iff.mp h
    refine (if_neg (by rw [immB_even]; exact Bool.false_ne_true)).trans (congrArg some ?_)
    show bWord _ _ _ _ = _
    rw [code_of_brOf ho, f3, bWord_immB (BitVec.eq_of_toNat_eq hop)]
  case h_6 =>
    obtain ⟨k, hk, rfl⟩ := Option.map_eq_some_iff.mp h
    exact congrArg some (by rw [code_of_loadOf hk, iWord_of hop])
  case h_7 =>
    obtain ⟨k, hk, rfl⟩ := Option.map_eq_some_iff.mp h
    refine congrArg some (?_ : customWord 0x23 (BitVec.ofNat 3 k.code) ((immS w).extractLsb' 5 7) ((immS w).extractLsb' 0 5) _ _ = _)
    have hi : (immS w).extractLsb' 5 7 = w.extractLsb' 25 7 := BitVec.extractLsb'_append_eq_left
    have lo : (immS w).extractLsb' 0 5 = w.extractLsb' 7 5 := BitVec.extractLsb'_append_eq_right
    rw [code_of_storeOf hk, f3, hi, lo]
    exact customWord_of_op hop
  case h_8 =>
    obtain ⟨o, ho, rfl⟩ := Option.map_eq_some_iff.mp h
    rw [encodeStandard_opImmOf (BitVec.isLt _) ho, iWord_of hop]
  case h_9 =>
    obtain ⟨o, ho, rfl⟩ := Option.map_eq_some_iff.mp h
    rw [encodeStandard_opImmwOf ho, iWord_of hop]
  case h_10 =>
    obtain ⟨o, ho, rfl⟩ := Option.map_eq_some_iff.mp h
    obtain ⟨hc, hz⟩ := code_of_aluOf ho
    rw [encodeStandard_alu _ _ (absurd · hz), hc, rWord_of hop]
  case h_11 =>
    obtain ⟨o, ho, rfl⟩ := Option.map_eq_some_iff.mp h
    obtain ⟨hc, hz⟩ := code_of_aluwOf ho
    rw [encodeStandard_alu _ _ hz, hc, rWord_of hop]
  case h_12 =>
    split at h
    next h0 =>
      cases h
      have e : (w.extractLsb' 28 4 ++ w.extractLsb' 24 4 ++ w.extractLsb' 20 4 :) = w.extractLsb' 20 12 := by
        simp (disch := omega) only [BitVec.extractLsb'_append_extractLsb'_eq_extractLsb']
      refine congrArg some (?_ : iWord (w.extractLsb' 28 4 ++ w.extractLsb' 24 4 ++ w.extractLsb' 20 4) _ 0 _ _ = w)
      rw [← h0]
      exact e ▸ iWord_of hop
    split at h <;> cases h
    next h1 => exact congrArg some (h1 ▸ iWord_of hop)
  case h_13 => exact encodeStandard_atomicOf hop h
  case h_14 =>
    obtain ⟨op, ho, rfl⟩ := Option.map_eq_some_iff.mp h
    exact congrArg some (by rw [code_of_csrOf ho, iWord_of hop])
  case h_15 => cases h

/-- A standard word that decodes is the encoding of what it decodes to (R42). -/
theorem encodeStandard_decodeStandard {w : BitVec 32} {i : Instr} (h : decodeStandard w = .ok i) : encodeStandard i = some w :=
  encodeStandard_standardOf rfl (decodeStandard_ok_iff.mp h)

/-! ## Bytes (R5) -/

@[simp] theorem length_toBytes (n v : Nat) : (toBytes n v).length = n := by
  induction n generalizing v with
  | zero => rfl
  | succ n ih => simp [toBytes, ih]

@[simp] theorem ofBytes_toBytes (n v : Nat) : ofBytes (toBytes n v) = v % 256 ^ n := by
  induction n generalizing v with
  | zero => simp [toBytes, ofBytes, Nat.mod_one]
  | succ n ih =>
    rw [toBytes, ofBytes, ih, BitVec.toNat_ofNat, Nat.mod_mod, pow_succ', Nat.mod_mul]

/-- The bytes of a word are those of its number. -/
theorem ofNat_ofBytes_toBytes {n k : Nat} (w : BitVec n) (h : 2 ^ n = 256 ^ k) : BitVec.ofNat n (ofBytes (toBytes k w.toNat)) = w := by
  rw [ofBytes_toBytes, ← h, Nat.mod_eq_of_lt w.isLt, BitVec.ofNat_toNat, BitVec.setWidth_eq]

theorem decode_context {w : BitVec 48} {i : Instr} (h : decodeContext w = .ok i) : decode (toBytes 6 w.toNat) = .ok i := by
  unfold decode
  rw [length_toBytes, ofNat_ofBytes_toBytes w rfl]
  exact h

theorem bits_low_two (n : Nat) : bits n 1 0 = n % 4 := by simp [bits]

/-- A word of 32 bits whose bits 1:0 are 3 is decoded as such (R42). -/
theorem decode_word {w : BitVec 32} {i : Instr} (hl : w.toNat % 4 = 3) (h : decode32 w = .ok i) : decode (toBytes 4 w.toNat) = .ok i := by
  have h3 : bits (ofBytes (toBytes 4 w.toNat)) 1 0 = 3 := by
    rw [bits_low_two, ofBytes_toBytes, Nat.mod_eq_of_lt (show w.toNat < 256 ^ 4 from w.isLt), hl]
  unfold decode
  rw [length_toBytes]
  refine (if_pos h3).trans ?_
  rw [ofNat_ofBytes_toBytes w rfl, h]

theorem toNat_major (w : BitVec 32) : (w.extractLsb' 0 7).toNat = w.toNat % 128 := by
  rw [BitVec.extractLsb'_toNat, Nat.shiftRight_zero]

/-- The custom major opcodes (R43). -/
theorem major_of_customTable {major f3 f7 : Nat} {rd rs1 rs2 : Reg} {x : Instr × Bool × Bool × Bool} (h : customTable major f3 f7 rd rs1 rs2 = some x) :
    major = 0x0B ∨ major = 0x2B ∨ major = 0x5B ∨ major = 0x7B := by
  unfold customTable at h
  split at h
  case h_5 => cases h
  all_goals simp

theorem major_of_standardOf {op f3 : Nat} {w : BitVec 32} {i : Instr} (h : standardOf op f3 w = some i) :
    op % 4 = 3 ∧ op ≠ 0x0B ∧ op ≠ 0x2B ∧ op ≠ 0x5B ∧ op ≠ 0x7B := by
  unfold standardOf at h
  dsimp only at h
  split at h
  case h_15 => cases h
  all_goals decide

theorem decode_custom {w : BitVec 32} {i : Instr} (h : decodeCustom w = .ok i) : decode (toBytes 4 w.toNat) = .ok i := by
  obtain ⟨u, v, x, hc, -⟩ := (decodeCustom_iff w i).mp h
  have hm := major_of_customTable (customOf_eq w ▸ hc)
  have h32 : decode32 w = .ok i := by
    unfold decode32
    rcases hm with hm | hm | hm | hm <;> rw [hm] <;> exact h
  rw [toNat_major] at hm
  exact decode_word (by omega) h32

theorem decode_standard {w : BitVec 32} {i : Instr} (h : decodeStandard w = .ok i) : decode (toBytes 4 w.toNat) = .ok i := by
  obtain ⟨hm, h0, h1, h2, h3⟩ := major_of_standardOf (decodeStandard_ok_iff.mp h)
  have h32 : decode32 w = .ok i := by
    unfold decode32
    split
    case h_5 => exact h
    all_goals contradiction
  rw [toNat_major] at hm
  exact decode_word (by omega) h32

/-- An instruction that has an encoding is a context word, a custom or a standard instruction, or a packet. -/
theorem encode_cases {i : Instr} {b : List Byte} (h : encode i = some b) :
    (∃ w, encodeContext i = some w ∧ b = toBytes 6 w.toNat) ∨ (∃ w, encodeCustom i = some w ∧ b = toBytes 4 w.toNat) ∨
    (∃ w, encodeStandard i = some w ∧ b = toBytes 4 w.toNat) ∨ encodePacket i = some b := by
  unfold encode at h
  split at h
  case h_1 => cases h; exact .inl ⟨_, ‹_›, rfl⟩
  case h_2 => cases h; exact .inr (.inl ⟨_, ‹_›, rfl⟩)
  case h_3 => cases h; exact .inr (.inr (.inl ⟨_, ‹_›, rfl⟩))
  case h_4 => cases h; exact .inr (.inr (.inr ‹_›))
  case h_5 => cases h

/-! ## Fields of packets (R377) -/

theorem fieldAt_skip {k v off n : Nat} {r : List Byte} (h : k ≤ off) : fieldAt (toBytes k v ++ r) off n = fieldAt r (off - k) n := by
  rw [fieldAt, fieldAt, List.drop_append, List.drop_of_length_le (by simpa using h), List.nil_append, length_toBytes]

theorem fieldAt_head {v off n : Nat} {r : List Byte} (h : off = 0) : fieldAt (toBytes n v ++ r) off n = v % 256 ^ n := by
  rw [h, fieldAt, List.drop_zero, List.take_append_of_le_length (by simp), List.take_of_length_le (by simp), ofBytes_toBytes]

theorem fieldAt_take {l : List Byte} {k off n : Nat} (h : off + n ≤ k) : fieldAt (l.take k) off n = fieldAt l off n := by
  rw [fieldAt, fieldAt, List.drop_take, List.take_take, Nat.min_eq_left (by omega)]

theorem toBytes_zero (k : Nat) : toBytes k 0 = List.replicate k 0#8 := by
  induction k with
  | zero => rfl
  | succ k ih => rw [toBytes, Nat.zero_mod, Nat.zero_div, ih, List.replicate_succ]

theorem zeroBytes_skip {k v lo hi : Nat} {r : List Byte} (h : k ≤ lo) : zeroBytes (toBytes k v ++ r) lo hi = zeroBytes r (lo - k) (hi - k) := by
  rw [zeroBytes, zeroBytes, List.drop_append, List.drop_of_length_le (by simpa using h), List.nil_append, length_toBytes]
  congr 2
  omega

theorem zeroBytes_zeros {k lo hi : Nat} {r : List Byte} (h : lo = 0) : zeroBytes (toBytes k 0 ++ r) lo hi = zeroBytes r 0 (hi - k) := by
  rw [h, zeroBytes, zeroBytes, List.drop_zero, List.drop_zero, List.take_append, length_toBytes, toBytes_zero]
  simp

theorem zeroBytes_all (k lo hi : Nat) : zeroBytes (toBytes k 0) lo hi = true := by
  rw [zeroBytes, toBytes_zero]
  simp

theorem zeroBytes_none {l : List Byte} {lo hi : Nat} (h : hi ≤ lo) : zeroBytes l lo hi = true := by
  rw [zeroBytes, Nat.sub_eq_zero_of_le h]
  simp

theorem zeroBytes_take {l : List Byte} {k lo hi : Nat} (h : hi ≤ k) : zeroBytes (l.take k) lo hi = zeroBytes l lo hi := by
  rw [zeroBytes, zeroBytes, List.drop_take, List.take_take, Nat.min_eq_left (by omega)]

/-- A field of a word's bytes is the word. -/
theorem ofNat_mod_bytes {n k : Nat} (w : BitVec n) (h : 2 ^ n = 256 ^ k) : BitVec.ofNat n (w.toNat % 256 ^ k) = w := by
  rw [← h, Nat.mod_eq_of_lt w.isLt, BitVec.ofNat_toNat, BitVec.setWidth_eq]

/-- The header a packet's bytes hold, where the bytes of `zeros` are those its body does not name. -/
def headerOf (b : List Byte) (zeros : List (Nat × Nat)) : PktHdr :=
  ⟨BitVec.ofNat 8 (fieldAt b 1 1), BitVec.ofNat 32 (fieldAt b 4 4), zeros.any (fun z => !zeroBytes b z.1 z.2)⟩

/-- The body of RUN and RESUME that a packet's bytes hold. -/
def runBodyOf (b : List Byte) : RunBody :=
  ⟨BitVec.ofNat 64 (fieldAt b 8 8), BitVec.ofNat 64 (fieldAt b 0x10 8), BitVec.ofNat 64 (fieldAt b 0x18 8), BitVec.ofNat 64 (fieldAt b 0x20 8),
    BitVec.ofNat 64 (fieldAt b 0x28 8), BitVec.ofNat 64 (fieldAt b 0x30 8), BitVec.ofNat 32 (fieldAt b 0x38 4), BitVec.ofNat 32 (fieldAt b 0x3C 4)⟩

/-- The packet of a type (R377) whose fields stand in the bytes `b`. -/
def packetOf (b : List Byte) : Nat → Instr
  | 0x00 => .nopPacket (headerOf b [(8, 64)])
  | 0x01 => .runPacket (headerOf b []) (runBodyOf b)
  | 0x02 => .resumePacket (headerOf b []) (runBodyOf b)
  | 0x03 => .copyPacket (headerOf b [(0x12, 64)]) (.ofNat 64 (fieldAt b 8 8)) (.ofNat 8 (fieldAt b 0x10 1)) (.ofNat 8 (fieldAt b 0x11 1))
  | 0x04 => .waitsemPacket (headerOf b [(0x21, 64)]) (.ofNat 64 (fieldAt b 8 8)) (.ofNat 64 (fieldAt b 0x10 8)) (.ofNat 64 (fieldAt b 0x18 8))
      (.ofNat 8 (fieldAt b 0x20 1))
  | 0x05 => .signalPacket (headerOf b [(0x19, 64)]) (.ofNat 64 (fieldAt b 8 8)) (.ofNat 64 (fieldAt b 0x10 8)) (.ofNat 8 (fieldAt b 0x18 1))
  | 0x06 => .barrierPacket (headerOf b [(0x0A, 0x0C), (0x10, 64)]) (.ofNat 16 (fieldAt b 8 2)) (.ofNat 32 (fieldAt b 0x0C 4))
  | 0x07 => .indirectPacket (headerOf b [(0x14, 64)]) (.ofNat 64 (fieldAt b 8 8)) (.ofNat 32 (fieldAt b 0x10 4))
  | 0x08 => .fencePacket (headerOf b [(9, 64)]) (.ofNat 8 (fieldAt b 8 1))
  | 0x09 => .timestampPacket (headerOf b [(0x11, 64)]) (.ofNat 64 (fieldAt b 8 8)) (.ofNat 8 (fieldAt b 0x10 1))
  | 0x0A => .wrdataPacket (headerOf b [(0x11, 0x18)]) (.ofNat 64 (fieldAt b 8 8)) (.ofNat 8 (fieldAt b 0x10 1)) (.ofNat 320 (fieldAt b 0x18 40))
  | 0x0B => .eventPacket (headerOf b [(0x0C, 0x10), (0x18, 64)]) (.ofNat 32 (fieldAt b 8 4)) (.ofNat 64 (fieldAt b 0x10 8))
  | 0x0C => .gaugePacket (headerOf b [(0x14, 0x18), (0x20, 64)]) (.ofNat 64 (fieldAt b 8 8)) (.ofNat 8 (fieldAt b 0x10 1)) (.ofNat 8 (fieldAt b 0x11 1))
      (.ofNat 16 (fieldAt b 0x12 2)) (.ofNat 64 (fieldAt b 0x18 8))
  | 0x0D => .sealPacket (headerOf b [(8, 64)])
  | n => .badPacketType (headerOf b []) (.ofNat 8 n)

theorem decodePacket_eq (b : List Byte) : decodePacket b = packetOf b (fieldAt b 0 1) := rfl

theorem fieldAt_packetBytes_type (typ : Nat) (h : PktHdr) (body : List Byte) : fieldAt (packetBytes typ h body) 0 1 = typ % 256 := by
  simp (disch := omega) only [packetBytes, List.append_assoc, fieldAt_take, fieldAt_head, Nat.pow_one]

theorem length_packetBytes (typ : Nat) (h : PktHdr) (body : List Byte) : (packetBytes typ h body).length = 64 := by
  simp [packetBytes]
  omega

theorem headerOf_packetBytes {typ : Nat} {h : PktHdr} {body : List Byte} {zeros : List (Nat × Nat)} (hj : h.junk = false) :
    headerOf (packetBytes typ h body) zeros = ⟨h.flags, h.ctxtag, h.junk || zeros.any fun z => !zeroBytes (packetBytes typ h body) z.1 z.2⟩ := by
  rw [hj]
  simp (disch := omega) only [headerOf, packetBytes, List.append_assoc, fieldAt_take, fieldAt_skip, fieldAt_head, ofNat_mod_bytes, Bool.false_or]

/-- A field of a packet's body. -/
theorem fieldAt_packetBytes {typ off n : Nat} {h : PktHdr} {body : List Byte} (h8 : 8 ≤ off) (h64 : off + n ≤ 64) :
    fieldAt (packetBytes typ h body) off n = fieldAt (body ++ toBytes 56 0) (off - 8) n := by
  simp (disch := omega) only [packetBytes, List.append_assoc, fieldAt_take, fieldAt_skip]
  congr 1

/-- The bytes of a packet's body that are zero. -/
theorem zeroBytes_packetBytes {typ lo hi : Nat} {h : PktHdr} {body : List Byte} (h8 : 8 ≤ lo) (h64 : hi ≤ 64) :
    zeroBytes (packetBytes typ h body) lo hi = zeroBytes (body ++ toBytes 56 0) (lo - 8) (hi - 8) := by
  simp (disch := omega) only [packetBytes, List.append_assoc, zeroBytes_take, zeroBytes_skip]
  congr 1

theorem runBodyOf_packetBytes (typ : Nat) (h : PktHdr) (r : RunBody) : runBodyOf (packetBytes typ h (runBodyBytes r)) = r := by
  simp (disch := omega) only [runBodyOf, runBodyBytes, fieldAt_packetBytes, List.append_assoc, fieldAt_skip, fieldAt_head, ofNat_mod_bytes]

theorem decodePacket_encodePacket {i : Instr} {b : List Byte} (hz : i.bytesOk = true) (h : encodePacket i = some b) : decodePacket b = i := by
  cases i <;> cases h
  all_goals
    rw [decodePacket_eq, fieldAt_packetBytes_type]
    simp (disch := omega) only [packetOf, Nat.reduceMod, headerOf_packetBytes (Bool.not_eq_true' _ ▸ hz), runBodyOf_packetBytes, fieldAt_packetBytes, zeroBytes_packetBytes, List.append_assoc, List.nil_append,
      fieldAt_skip, fieldAt_head, zeroBytes_skip, zeroBytes_zeros, zeroBytes_all, zeroBytes_none, ofNat_mod_bytes, List.any_cons, List.any_nil, Bool.not_true, Bool.or_false]

/-! ## Work requests (R405) and the round trip -/

/-- The bytes of a work request, and the request they hold (R405). -/
def workBytes (op : Nat) (r : WorkReq) : List Byte :=
  toBytes 1 op ++ toBytes 1 r.fabric.toNat ++ toBytes 2 0 ++ toBytes 4 r.ctxtag.toNat ++ toBytes 8 r.laddr.toNat ++ toBytes 8 r.raddr.toNat ++
    toBytes 4 r.len.toNat ++ toBytes 4 0 ++ toBytes 2 r.peer.toNat ++ toBytes 1 r.rtenant.toNat ++ toBytes 5 0 ++ toBytes 8 r.domain.toNat ++ toBytes 16 0

/-- The work request that the bytes `b` hold. -/
def requestOf (b : List Byte) : WorkReq :=
  ⟨.ofNat 8 (fieldAt b 1 1), .ofNat 32 (fieldAt b 4 4), .ofNat 64 (fieldAt b 8 8), .ofNat 64 (fieldAt b 0x10 8), .ofNat 32 (fieldAt b 0x18 4),
    .ofNat 16 (fieldAt b 0x20 2), .ofNat 8 (fieldAt b 0x22 1), .ofNat 64 (fieldAt b 0x28 8),
    [(2, 4), (0x1C, 0x20), (0x23, 0x28), (0x30, 64)].any fun z => !zeroBytes b z.1 z.2⟩

/-- The instruction of a work request by its operation. -/
def workOf (r : WorkReq) : Nat → Option Instr
  | 1 => some (.linkWrite r)
  | 2 => some (.linkRead r)
  | 3 => some (.linkAdd r)
  | 4 => some (.allred r)
  | _ => none

theorem decodeWork_eq (b : List Byte) : decodeWork b = workOf (requestOf b) (fieldAt b 0 1) := rfl

theorem fieldAt_workBytes_op (op : Nat) (r : WorkReq) : fieldAt (workBytes op r) 0 1 = op % 256 := by
  simp (disch := omega) only [workBytes, List.append_assoc, fieldAt_head, Nat.pow_one]

theorem requestOf_workBytes {op : Nat} {r : WorkReq} (hj : r.junk = false) : requestOf (workBytes op r) = r := by
  obtain ⟨fabric, ctxtag, laddr, raddr, len, peer, rtenant, domain, junk⟩ := r
  subst hj
  simp (disch := omega) only [requestOf, workBytes, List.append_assoc, fieldAt_skip, fieldAt_head, ofNat_mod_bytes, zeroBytes_skip, zeroBytes_zeros,
    zeroBytes_all, zeroBytes_none, List.any_cons, List.any_nil, Bool.not_true, Bool.or_false]

/-- The requests are the instructions of four operations. -/
theorem encodeWork_cases {i : Instr} {b : List Byte} (hz : i.bytesOk = true) (h : encodeWork i = some b) :
    ∃ op r, op < 256 ∧ b = workBytes op r ∧ r.junk = false ∧ workOf r op = some i := by
  cases i <;> cases h
  all_goals exact ⟨_, _, by decide, rfl, Bool.not_eq_true' _ ▸ hz, rfl⟩

theorem decodeWork_encodeWork {i : Instr} {b : List Byte} (hz : i.bytesOk = true) (h : encodeWork i = some b) : decodeWork b = some i := by
  obtain ⟨op, r, hop, rfl, hj, hi⟩ := encodeWork_cases hz h
  rw [decodeWork_eq, fieldAt_workBytes_op, requestOf_workBytes hj, Nat.mod_eq_of_lt hop, hi]

theorem length_encodePacket {i : Instr} {b : List Byte} (h : encodePacket i = some b) : b.length = 64 := by
  cases i <;> cases h
  all_goals exact length_packetBytes _ _ _

theorem decode_packet {i : Instr} {b : List Byte} (hz : i.bytesOk = true) (h : encodePacket i = some b) : decode b = .ok i := by
  rw [decode, length_encodePacket h]
  exact congrArg _ (decodePacket_encodePacket hz h)

/-- Decoding the encoding of a well-formed instruction gives it back, for each form of encoding. -/
theorem decode_encode {i : Instr} {b : List Byte} (hw : i.wf = true) (h : encode i = some b) : decode b = .ok i := by
  obtain ⟨⟨-, hform⟩, hbytes⟩ := by simpa only [Instr.wf, Bool.and_eq_true] using hw
  obtain ⟨w, hc, rfl⟩ | ⟨w, hc, rfl⟩ | ⟨w, hc, rfl⟩ | hc := encode_cases h
  · exact decode_context (decodeContext_encodeContext hform hc)
  · exact decode_custom (decodeCustom_encodeCustom hc)
  · exact decode_standard (decodeStandard_encodeStandard hc)
  · exact decode_packet hbytes hc

/-- Settles O54: each form of encoding by its fields. -/
theorem encodingRoundTrip : Obligations.EncodingRoundTrip := by
  unfold Obligations.EncodingRoundTrip
  exact ⟨fun _ _ => decode_encode, fun _ _ => decodeWork_encodeWork, fun _ _ => encodeContext_decodeContext, fun _ _ => encodeCustom_decodeCustom,
    fun _ _ => encodeStandard_decodeStandard⟩

/-- Settles O55, by evaluating the decoder on the words. -/
theorem decodedWords : Obligations.DecodedWords := by
  unfold Obligations.DecodedWords
  refine ⟨?_, ?_, ?_, ?_, ?_, ?_⟩ <;> decide

end Sys2Proof.Proofs.Encoding
end

