-- ==== Sys2Proof/Proofs/UnitIssue.lean ====
section
/-! PROOFS. What the issue of a context word of a unit comes to, and the landing slots that memory and matrix nodes take. -/
namespace Sys2Proof.Proofs.UnitIssue

open Machine Spec

theorem withIssue_of_issues {s : State} {stg : BitVec 3} {grd : BitVec 4} (h : Issues s stg grd) (k : Issue → State) :
    withIssue s stg grd k = k (issue s stg) :=
  withIssue_issues s stg grd k (by rw [h.1]; exact h.2)

/-- A word that has no effect where it issues has none at all (R67, R127). -/
theorem withIssue_eq_self {s : State} {stg : BitVec 3} {grd : BitVec 4} {k : Issue → State} (h : k (issue s stg) = s) : withIssue s stg grd k = s := by
  cases hi : (s.page (s.pageOf s.focus.region)).started stg.toNat && guardVal (guardCell s).g grd with
  | true => rw [withIssue_issues s stg grd k hi]; exact h
  | false => exact withIssue_idle s stg grd k hi

/-! ## Slots of a memory node -/

/-- The node of the focused region takes a slot, and nothing else of the state changes. -/
theorem addNodeSlot_spec (s : State) (stg : BitVec 3) (sl : NodeSlot) :
    s.addNodeSlot (issue s stg) sl = { s with regions := (s.addNodeSlot (issue s stg) sl).regions } ∧
    (s.addNodeSlot (issue s stg) sl).mn s.focus.region = { s.mn s.focus.region with slots := (s.mn s.focus.region).slots ++ [sl] } :=
  ⟨rfl, setMn_mn_self s s.focus.region _⟩

theorem nearLat_eq {code : Nat} (h : code < 4) : nearLat code = nearCycles code := by
  interval_cases code <;> rfl

theorem farLat_eq {code : Nat} (h : code < 4) : farLat code = farCycles code := by
  interval_cases code <;> rfl

theorem nearLat_bits (n : Nat) : nearLat (bits n 1 0) = nearCycles n := by
  rw [Encoding.bits_low_two, nearLat_eq (Nat.mod_lt n (by decide)), nearCycles, nearCycles, Nat.mod_mod]

theorem farLat_bits (n : Nat) : farLat (bits n 1 0) = farCycles n := by
  rw [Encoding.bits_low_two, farLat_eq (Nat.mod_lt n (by decide)), farCycles, farCycles, Nat.mod_mod]

/-! ## Slots of a matrix node -/

/-- Writing the matrix node of the focused region changes that node alone. -/
theorem setXn_sameButXn (s : State) (n : XNode) : sameButXn s (s.setXn s.focus.region n) :=
  ⟨rfl, fun r h => by simp [setXn_region, h], by simp [setXn_region]⟩

theorem addXSlot_spec (s : State) (stg : BitVec 3) (sl : XSlot) :
    sameButXn s (s.addXSlot (issue s stg) sl) ∧
    (s.addXSlot (issue s stg) sl).xn s.focus.region = { s.xn s.focus.region with slots := (s.xn s.focus.region).slots ++ [sl] } :=
  ⟨setXn_sameButXn s _, setXn_xn_self s _ _⟩

/-- A matrix word that takes a slot at its issue. -/
theorem withIssue_addXSlot {s : State} {stg : BitVec 3} {grd : BitVec 4} {k : Issue → State} {sl : XSlot}
    (hi : Issues s stg grd) (hk : k (issue s stg) = s.addXSlot (issue s stg) sl) :
    ∃ t, Host.Outcome.next (withIssue s stg grd k) = (.next t : Ans) ∧ sameButXn s t ∧
      t.xn s.focus.region = { s.xn s.focus.region with slots := (s.xn s.focus.region).slots ++ [sl] } :=
  ⟨_, rfl, by rw [withIssue_of_issues hi, hk]; exact addXSlot_spec s stg sl⟩

/-- A word that writes the node and takes a slot. -/
theorem setXn_addXSlot_spec (s : State) (stg : BitVec 3) (n : XNode) (sl : XSlot) :
    sameButXn s ((s.setXn s.focus.region n).addXSlot (issue s stg) sl) ∧
    ((s.setXn s.focus.region n).addXSlot (issue s stg) sl).xn s.focus.region = { n with slots := n.slots ++ [sl] } := by
  simp only [State.addXSlot, issue, setXn_xn_self]
  exact ⟨⟨rfl, fun r h => by simp [setXn_region, h], by simp [setXn_region]⟩, trivial⟩

end Sys2Proof.Proofs.UnitIssue
end

