-- ==== Sys2Proof/Proofs/IdleWords.lean ====
section
/-! PROOFS. Words that do not issue, and node words of a dead iteration (R38, R67, R127, R155, R189, R191); settles O10. -/
namespace Sys2Proof.Proofs.IdleWords

open Machine Spec UnitIssue

/-- What a kind of word does, it does through its issue (R67, R127). -/
def ActsAtIssue {W : Type} (stg : W → BitVec 3) (grd : W → BitVec 4) (mk : W → Instr) : Prop :=
  ∃ k : W → State → Issue → State, ∀ w s, exec (mk w) s = .next (withIssue s (stg w) (grd w) (k w s))

theorem ActsAtIssue.idle {W : Type} {stg : W → BitVec 3} {grd : W → BitVec 4} {mk : W → Instr} (h : ActsAtIssue stg grd mk) (w : W) (s : State)
    (hi : Idle s (stg w) (grd w)) : exec (mk w) s = .next s := by
  obtain ⟨k, hk⟩ := h
  rw [hk, withIssue_idle _ _ _ _ (Bool.and_eq_false_iff.mpr hi)]

theorem fcmp_act {r : FcmpRel} {mk : C2 → Instr} (h : ∀ w s, exec (mk w) s = .next (fcmpWord r w s)) : ActsAtIssue C2.stg C2.grd mk :=
  ⟨_, fun w s => (h w s).trans (congrArg Host.Outcome.next (show predWord2 2 w (r.holds (s.policy s.focus.region w.fpm)) s = _ from rfl))⟩

theorem c2Words_act : ∀ mk ∈ c2Words, ActsAtIssue C2.stg C2.grd mk := by
  repeat refine List.forall_mem_cons.mpr ⟨⟨_, fun _ _ => rfl⟩, ?_⟩
  iterate 4 refine List.forall_mem_cons.mpr ⟨fcmp_act fun _ _ => rfl, ?_⟩
  repeat refine List.forall_mem_cons.mpr ⟨⟨_, fun _ _ => rfl⟩, ?_⟩
  exact List.forall_mem_nil _

theorem c3Words_act : ∀ mk ∈ c3Words, ActsAtIssue C3.stg C3.grd mk := by
  repeat refine List.forall_mem_cons.mpr ⟨⟨_, fun _ _ => rfl⟩, ?_⟩
  exact List.forall_mem_nil _

theorem liWords_act : ∀ mk ∈ liWords, ActsAtIssue Li.stg Li.grd mk := by
  repeat refine List.forall_mem_cons.mpr ⟨⟨_, fun _ _ => rfl⟩, ?_⟩
  exact List.forall_mem_nil _

/-- Of the matrix words MXNOP alone does not issue: it has no effect (R200). -/
theorem mxWords_idle : ∀ mk ∈ mxWords, ∀ w s, Idle s (Mx.stg w) (Mx.grd w) → exec (mk w) s = .next s := by
  iterate 9 refine List.forall_mem_cons.mpr ⟨ActsAtIssue.idle ⟨_, fun _ _ => rfl⟩, ?_⟩
  exact List.forall_mem_singleton.mpr fun _ _ _ => rfl

theorem idleWords : Spec.IdleWords :=
  ⟨fun _ => rfl, fun mk h => (c2Words_act mk h).idle, fun mk h => (c3Words_act mk h).idle, fun mk h => (liWords_act mk h).idle, mxWords_idle⟩

/-! ## Dead iterations -/

/-- The slot that a value word of a dead iteration takes (R155). -/
theorem deadValue_spec (s : State) (stg : BitVec 3) (lat dq : Nat) (out : Bool) :
    s.deadValue (issue s stg) lat dq out = { s with regions := (s.deadValue (issue s stg) lat dq out).regions } ∧
    (s.deadValue (issue s stg) lat dq out).mn s.focus.region =
      { s.mn s.focus.region with slots := (s.mn s.focus.region).slots ++ [nodeSlot s stg .value (some 0) dq out lat 0 0] } :=
  addNodeSlot_spec s stg _

/-- A value word: in a dead iteration it takes a slot of this latency (R155). -/
theorem withIssue_deadValue {s : State} {stg : BitVec 3} {grd : BitVec 4} {k : Issue → State} {lat dq : Nat} {out : Bool}
    (hi : Issues s stg grd) (hk : k (issue s stg) = s.deadValue (issue s stg) lat dq out) :
    ∃ t, Host.Outcome.next (withIssue s stg grd k) = (.next t : Ans) ∧ t = { s with regions := t.regions } ∧
      t.mn s.focus.region = { s.mn s.focus.region with slots := (s.mn s.focus.region).slots ++ [nodeSlot s stg .value (some 0) dq out lat 0 0] } :=
  ⟨_, rfl, by rw [withIssue_of_issues hi, hk]; exact deadValue_spec s stg lat dq out⟩

theorem nearLoad_dead {w : C2} {width scope : Nat} {sx : Bool} {x : Issue} {s : State} (hd : x.live = false) :
    nearLoad w width sx scope x s = s.deadValue x (nearCycles w.mod.toNat) w.dq.toNat w.out := by
  simp only [nearLoad, hd, nearLat_bits, Bool.false_eq_true, if_false]

theorem farLoad_dead {w : C2} {scope : Nat} {x : Issue} {s : State} (hd : x.live = false) :
    farLoad w scope x s = s.deadValue x (farCycles w.mod.toNat) w.dq.toNat w.out := by
  simp only [farLoad, hd, farLat_bits, Bool.false_eq_true, if_false]

theorem lkupWord_dead {w : C2} {x : Issue} {s : State} (hd : x.live = false) :
    lkupWord w x s = s.deadValue x (nearCycles w.mod.toNat) w.dq.toNat w.out := by
  simp only [lkupWord, hd, nearLat_bits, Bool.false_eq_true, if_false]

theorem nearAtom_dead {w : C3} {width : Nat} {x : Issue} {s : State} (hd : x.live = false) :
    nearAtom w width x s = s.deadValue x (nearCycles w.modx.toNat) w.dq.toNat w.out := by
  simp only [nearAtom, hd, nearLat_eq w.modx.isLt, Bool.false_eq_true, if_false]

theorem farAtom_dead {w : C3} {x : Issue} {s : State} (hd : x.live = false) :
    farAtom w x s = s.deadValue x (farCycles w.modx.toNat) w.dq.toNat w.out := by
  simp only [farAtom, hd, farLat_eq w.modx.isLt, Bool.false_eq_true, if_false]

theorem ldAcq_dead {w : C2} {near far : Nat} {x : Issue} {s : State} (hd : x.live = false) :
    (if w.mod.getLsbD 3 then farLoad w far x s else nearLoad w 4 false near x s) =
      s.deadValue x (if w.mod.toNat / 8 % 2 = 1 then farCycles w.mod.toNat else nearCycles w.mod.toNat) w.dq.toNat w.out := by
  have hbit : w.mod.getLsbD 3 = true ↔ w.mod.toNat / 8 % 2 = 1 := by
    rw [← BitVec.testBit_toNat, Nat.testBit_eq_decide_div_mod_eq, decide_eq_true_iff]
  by_cases h : w.mod.toNat / 8 % 2 = 1
  · rw [if_pos (hbit.mpr h), if_pos h, farLoad_dead hd]
  · rw [if_neg (mt hbit.mp h), if_neg h, nearLoad_dead hd]

theorem nearStore_dead {w : C3} {width : Nat} {x : Issue} {s : State} (hd : x.live = false) : nearStore w width x s = s := by
  simp only [nearStore, hd, Bool.false_eq_true, if_false]

theorem relStore_dead {w : C3} {x : Issue} {s : State} (hd : x.live = false) : relStore w x s = s := by
  simp only [relStore, hd, Bool.false_eq_true, if_false]

theorem farStore_dead {w : C3} {x : Issue} {s : State} (hd : x.live = false) : farStore w x s = s := by
  unfold farStore
  exact if_neg (ne_true_of_eq_false hd)

theorem giveWord_dead {w : C2} {x : Issue} {s : State} (hd : x.live = false) : giveWord w x s = s := by
  simp only [giveWord, hd, Bool.not_false, if_true]

theorem takeWord_dead {w : C2} {x : Issue} {s : State} (hd : x.live = false) : takeWord w x s = s := by
  simp only [takeWord, hd, Bool.not_false, if_true]

theorem mfenceWord_dead {w : C2} {x : Issue} {s : State} (hd : x.live = false) : mfenceWord w x s = s := by
  simp only [mfenceWord, hd, Bool.false_eq_true, if_false]

theorem deadNodeWords : Spec.DeadNodeWords := by
  unfold DeadNodeWords
  simp only [List.forall_mem_cons, List.not_mem_nil, false_implies, implies_true, and_true]
  refine ⟨⟨?ldB, ?ldH, ?ldW, ?ldAcq, ?ldf, ?lkup⟩, ⟨?atomH, ?atomW, ?atomfW⟩, ⟨?stB, ?stH, ?stW, ?stRel, ?stf⟩, ?give, ?take, ?mfence⟩
  case ldB => exact fun w s hi hd => withIssue_deadValue hi (nearLoad_dead hd)
  case ldH => exact fun w s hi hd => withIssue_deadValue hi (nearLoad_dead hd)
  case ldW => exact fun w s hi hd => withIssue_deadValue hi (nearLoad_dead hd)
  case ldAcq => exact fun w s hi hd => withIssue_deadValue hi (ldAcq_dead hd)
  case ldf => exact fun w s hi hd => withIssue_deadValue hi (farLoad_dead hd)
  case lkup => exact fun w s hi hd => withIssue_deadValue hi (lkupWord_dead hd)
  case atomH => exact fun w s hi hd => withIssue_deadValue hi (nearAtom_dead hd)
  case atomW => exact fun w s hi hd => withIssue_deadValue hi (nearAtom_dead hd)
  case atomfW => exact fun w s hi hd => withIssue_deadValue hi (farAtom_dead hd)
  case stB => exact fun w s hd => congrArg Host.Outcome.next (withIssue_eq_self (nearStore_dead hd))
  case stH => exact fun w s hd => congrArg Host.Outcome.next (withIssue_eq_self (nearStore_dead hd))
  case stW => exact fun w s hd => congrArg Host.Outcome.next (withIssue_eq_self (nearStore_dead hd))
  case stRel => exact fun w s hd => congrArg Host.Outcome.next (withIssue_eq_self (relStore_dead hd))
  case stf => exact fun w s hd => congrArg Host.Outcome.next (withIssue_eq_self (farStore_dead hd))
  case give => exact fun w s hd => congrArg Host.Outcome.next (withIssue_eq_self (giveWord_dead hd))
  case take => exact fun w s hd => congrArg Host.Outcome.next (withIssue_eq_self (takeWord_dead hd))
  case mfence => exact fun w s hd => congrArg Host.Outcome.next (withIssue_eq_self (mfenceWord_dead hd))

theorem deadMatrixWords : Spec.DeadMatrixWords := by
  intro w s hi hd
  simp only [List.forall_mem_cons, List.not_mem_nil, false_implies, implies_true, and_true]
  refine ⟨⟨?cfg, ?clr, ?swb, ?stat, ?drn, ?ldb, ?acc⟩, fun hf => ⟨?row, ?rows⟩⟩
  case cfg => exact withIssue_addXSlot hi rfl
  case clr => exact withIssue_addXSlot hi rfl
  case swb => exact withIssue_addXSlot hi rfl
  case stat => exact withIssue_addXSlot hi rfl
  case drn => exact withIssue_addXSlot hi (by rw [hd]; rfl)
  case ldb => exact withIssue_addXSlot hi (by rw [hd]; rfl)
  case acc => exact withIssue_addXSlot hi (by rw [hd]; rfl)
  case row => exact withIssue_addXSlot hi ((if_neg (not_not_intro hf)).trans (by rw [hd]; rfl))
  case rows => exact withIssue_addXSlot hi ((if_neg (not_not_intro hf)).trans (by rw [hd]; rfl))

/-- Settles O10: a word acts through its issue, and in a dead iteration a node's word only takes its slot. -/
theorem idleAndDeadWords : Obligations.IdleAndDeadWords := ⟨idleWords, deadNodeWords, deadMatrixWords⟩

end Sys2Proof.Proofs.IdleWords
end

