-- ==== Sys2Proof/Proofs/Matrix.lean ====
section
/-! PROOFS. Firings, their format check and the other words of a matrix node (R37, R183 to R189, R194 to R200, R202, R285); settles O9. -/
namespace Sys2Proof.Proofs.Matrix

open Machine Spec UnitIssue

/-! ## The sums of a firing (R187) -/

/-- A list built of equal blocks, by its length and its elements. -/
theorem length_flatMap_range {α : Type} (f : Nat → Nat → α) (a b : Nat) :
    ((List.range a).flatMap fun n => (List.range b).map (f n)).length = a * b := by
  simp

theorem getElem?_flatMap_range {α : Type} (f : Nat → Nat → α) {a b n g : Nat} (hn : n < a) (hg : g < b) :
    ((List.range a).flatMap fun n => (List.range b).map (f n))[b * n + g]? = some (f n g) := by
  induction a with
  | zero => omega
  | succ a ih =>
    rw [List.range_succ, List.flatMap_append, List.flatMap_singleton]
    by_cases h : n = a
    · subst h
      have hlen := length_flatMap_range f n b
      rw [Nat.mul_comm] at hlen
      rw [List.getElem?_append_right (by omega), hlen, Nat.add_sub_cancel_left, List.getElem?_map, List.getElem?_range hg, Option.map_some]
    · have hlt : n < a := by omega
      have hin : b * n + g < a * b := by nlinarith
      rw [List.getElem?_append_left (by rw [length_flatMap_range]; exact hin), ih hlt]

/-- The sums of a firing, column by column and group by group, as a list. -/
theorem firingSums_fst (x : XNode) (code buf : Nat) (row : Nat → Nat × Nat) (lg : Nat → Nat → Nat) :
    (firingSums x code buf row lg).1 =
      (List.range 64).flatMap fun n => (List.range (mxGroups code)).map fun g => mxRound (sumExact (products x code buf row lg n g) .rne) := by
  simp only [firingSums, List.map_flatMap, List.map_map]
  rfl

theorem firingSums_sumsAre (x : XNode) (code buf : Nat) (row : Nat → Nat × Nat) (lg : Nat → Nat → Nat) :
    SumsAre (firingSums x code buf row lg).1 x code buf row lg := by
  rw [firingSums_fst]
  exact ⟨length_flatMap_range _ _ _, fun n g hn hg => getElem?_flatMap_range _ hn hg⟩

theorem buffer_eq (x : XNode) (bsel : BitVec 2) : x.buffer bsel = bufferOf x bsel := by
  have h : bsel = 0 ∨ bsel = 1 ∨ bsel = 2 ∨ bsel = 3 := by decide +revert
  rcases h with rfl | rfl | rfl | rfl <;> rfl

/-! ## Firings -/

/-- The slot of a firing: its tag, and its sums. -/
def firingSlot (s : State) (w : Mx) (kind : XSlotKind) (r : Row) (row : Nat → Nat × Nat) (lg : Nat → Nat → Nat) : XSlot :=
  { xSlot s w.stg kind 8 with
    tag := s.mxTag (issue s w.stg) w r.tag
    vals := (firingSums (s.xn s.focus.region) w.mfmt.toNat (bufferOf (s.xn s.focus.region) w.bsel) row lg).1
    ng := mxGroups w.mfmt.toNat
    ovfg := (firingSums (s.xn s.focus.region) w.mfmt.toNat (bufferOf (s.xn s.focus.region) w.bsel) row lg).2 }

/-- A dense firing's element l with its scale code: those of its row. -/
def denseRow (w : Mx) (r : Row) (l : Nat) : Nat × Nat := (elemAt (mxFmt w.mfmt.toNat) r.byte l, r.scaleByte (l / 32))

/-- A sparse firing's: those of the two rows one behind the other. -/
def sparseRow (w : Mx) (r q : Row) (l : Nat) : Nat × Nat :=
  (if l < mxDepth w.mfmt.toNat then elemAt (mxFmt w.mfmt.toNat) r.byte l else elemAt (mxFmt w.mfmt.toNat) q.byte (l - mxDepth w.mfmt.toNat),
    if l / 32 < mxDepth w.mfmt.toNat / 32 then r.scaleByte (l / 32) else q.scaleByte (l / 32 - mxDepth w.mfmt.toNat / 32))

section
variable {w : Mx} {s : State} (hi : Issues s w.stg w.grd)
include hi

theorem mxrowWord_fires {r : Row} (hl : (issue s w.stg).live = true) (hf : w.mfmt.toNat % 8 = (s.xn s.focus.region).cfmt)
    (hr : (s.xn s.focus.region).a0.head? = some r) :
    mxrowWord w s = (s.setXn s.focus.region { s.xn s.focus.region with a0 := (s.xn s.focus.region).a0.pop }).addXSlot (issue s w.stg)
      (firingSlot s w .row r (denseRow w r) fun p _ => p) := by
  rw [mxrowWord, withIssue_of_issues hi]
  refine (if_neg (not_not_intro hf)).trans ((if_neg (by rw [hl]; decide)).trans ?_)
  rw [firingSlot, ← buffer_eq]
  simp only [show (issue s w.stg).rid = s.focus.region from rfl, hr, Option.getD_some]
  rfl

theorem mxrowsWord_fires {r q : Row} (hl : (issue s w.stg).live = true) (hf : w.mfmt.toNat % 8 = (s.xn s.focus.region).cfmt)
    (hr : (s.xn s.focus.region).a0.head? = some r) (hq : (s.xn s.focus.region).a1.head? = some q) :
    mxrowsWord w s = (s.setXn s.focus.region { s.xn s.focus.region with a0 := (s.xn s.focus.region).a0.pop, a1 := (s.xn s.focus.region).a1.pop }).addXSlot
      (issue s w.stg) (firingSlot s w .rows r (sparseRow w r q) ((s.xn s.focus.region).logical w.spbase.toNat)) := by
  rw [mxrowsWord, withIssue_of_issues hi]
  refine (if_neg (not_not_intro hf)).trans ((if_neg (by rw [hl]; decide)).trans ?_)
  rw [firingSlot, ← buffer_eq]
  simp only [show (issue s w.stg).rid = s.focus.region from rfl, hr, hq, Option.getD_some]
  rfl

end

/-- A firing's slot holds its tag and the sums of its row. -/
theorem firingSlot_spec (s : State) (w : Mx) (kind : XSlotKind) (r : Row) (row : Nat → Nat × Nat) (lg : Nat → Nat → Nat) :
    firingSlot s w kind r row lg = { xSlot s w.stg kind 8 with
      tag := s.mxTag (issue s w.stg) w r.tag, vals := (firingSlot s w kind r row lg).vals, ng := mxGroups w.mfmt.toNat
      ovfg := (firingSlot s w kind r row lg).ovfg } ∧
    SumsAre (firingSlot s w kind r row lg).vals (s.xn s.focus.region) w.mfmt.toNat (bufferOf (s.xn s.focus.region) w.bsel) row lg :=
  ⟨rfl, firingSums_sumsAre ..⟩

theorem matrixFirings : Spec.MatrixFirings := by
  intro w s r hi hl hf hr
  constructor
  · have hx := congrArg (Host.Outcome.next (σ := State) (φ := Fault) (ρ := Refusal)) (mxrowWord_fires hi hl hf hr)
    obtain ⟨hs, hn⟩ := setXn_addXSlot_spec s w.stg { s.xn s.focus.region with a0 := (s.xn s.focus.region).a0.pop } (firingSlot s w .row r (denseRow w r) fun p _ => p)
    obtain ⟨hsl, hsum⟩ := firingSlot_spec s w .row r (denseRow w r) fun p _ => p
    exact ⟨_, _, hx, hs, hn, hsl, hsum⟩
  · intro q hq
    have hx := congrArg (Host.Outcome.next (σ := State) (φ := Fault) (ρ := Refusal)) (mxrowsWord_fires hi hl hf hr hq)
    obtain ⟨hs, hn⟩ := setXn_addXSlot_spec s w.stg { s.xn s.focus.region with a0 := (s.xn s.focus.region).a0.pop, a1 := (s.xn s.focus.region).a1.pop }
      (firingSlot s w .rows r (sparseRow w r q) ((s.xn s.focus.region).logical w.spbase.toNat))
    obtain ⟨hsl, hsum⟩ := firingSlot_spec s w .rows r (sparseRow w r q) ((s.xn s.focus.region).logical w.spbase.toNat)
    exact ⟨_, _, hx, hs, hn, hsl, hsum⟩

/-! ## The format check (R202, R285) -/

/-- A unit's error ends the run of its page with its cause, and leaves regions and memory as they are. -/
theorem raiseUnit_spec {s : State} {rid : Nat} (hh : (s.region rid).holder.isSome = true) (he : (s.run (s.page (s.pageOf rid)).run).err = none)
    (cause : Cause) (ring word addr : Nat) :
    ∃ r, ((s.raiseUnit cause rid ring word addr).run (s.page (s.pageOf rid)).run).err = some r ∧ r.cause = cause.code ∧
      (s.raiseUnit cause rid ring word addr).regions = s.regions ∧ (s.raiseUnit cause rid ring word addr).mem = s.mem := by
  obtain ⟨⟨pid, sreg⟩, hp⟩ := Option.isSome_iff_exists.mp hh
  have hpage : s.pageOf rid = pid := by rw [State.pageOf, hp]
  rw [hpage] at he ⊢
  simp only [State.raiseUnit, hp, State.raise, he]
  exact ⟨_, congrArg Run.err (setRun_run_self ..), rfl, rfl, rfl⟩

theorem matrixFormatCheck : Spec.MatrixFormatCheck := by
  simp only [MatrixFormatCheck, List.forall_mem_cons, List.not_mem_nil, false_implies, implies_true, and_true]
  refine ⟨fun w s hi hh he hf => ?_, fun w s hi hh he hf => ?_⟩ <;>
    obtain ⟨r, hr⟩ := raiseUnit_spec hh he .mxfmt s.focus.unit
      ((s.region s.focus.region).words.get 0 (16 * s.focus.unit + (s.page (s.pageOf s.focus.region)).counter)).toNat 0
  · exact ⟨_, r, congrArg Host.Outcome.next ((withIssue_of_issues hi _).trans (if_pos hf)), hr⟩
  · exact ⟨_, r, congrArg Host.Outcome.next ((withIssue_of_issues hi _).trans (if_pos hf)), hr⟩

/-! ## The other words -/

/-- Taking the tokens of a list: what the region's memory node has acquired changes, and nothing else (R34, R174). -/
theorem acquireNodes_pop (rid : Nat) (l : List QTok) (s : State) :
    PopFrame s (l.foldl (fun s t => s.acquireNode rid t) s) rid ∧ ((l.foldl (fun s t => s.acquireNode rid t) s).mn rid).mi = (s.mn rid).mi := by
  induction l generalizing s with
  | nil => exact ⟨PopFrame.refl s rid, rfl⟩
  | cons t l ih =>
    obtain ⟨hf, hm⟩ := ih (s.acquireNode rid t)
    exact ⟨(acquireNode_pop s rid t).trans hf, hm.trans (acquireNode_mi s rid t)⟩

/-- A node of the focused region that is written, then a frame of its memory node, then a slot. -/
theorem setXn_pop_addXSlot {s u : State} {stg : BitVec 3} {n : XNode} {sl : XSlot} (hu : PopFrame (s.setXn s.focus.region n) u s.focus.region)
    (hm : (u.mn s.focus.region).mi = (s.mn s.focus.region).mi) :
    u.addXSlot (issue s stg) sl = { s with regions := (u.addXSlot (issue s stg) sl).regions, seq := (u.addXSlot (issue s stg) sl).seq } ∧
    (∀ r, r ≠ s.focus.region → (u.addXSlot (issue s stg) sl).region r = s.region r) ∧
    (∀ m, m = (u.addXSlot (issue s stg) sl).mn s.focus.region →
      (u.addXSlot (issue s stg) sl).region s.focus.region =
        { s.region s.focus.region with xn := (u.addXSlot (issue s stg) sl).xn s.focus.region, mn := m } ∧
      m = { s.mn s.focus.region with acqs := m.acqs, acqStamp := m.acqStamp }) ∧
    (u.addXSlot (issue s stg) sl).xn s.focus.region = { n with slots := n.slots ++ [sl] } := by
  obtain ⟨hrest, hregions, hregion, hnode⟩ := hu
  have hxn : u.xn s.focus.region = n := by
    rw [State.xn, hregion]
    exact setXn_xn_self s s.focus.region n
  rw [setXn_region, if_pos rfl] at hregion
  rw [hm, setXn_mn] at hnode
  have ht : u.addXSlot (issue s stg) sl = u.setXn s.focus.region { n with slots := n.slots ++ [sl] } := by
    rw [← hxn]; rfl
  rw [ht]
  refine ⟨?_, fun r hr => ?_, fun m hmn => ?_, setXn_xn_self ..⟩
  · obtain ⟨regions, seq, rfl⟩ : ∃ regions seq, u = { s with regions := regions, seq := seq } := ⟨_, _, hrest⟩
    rfl
  · rw [setXn_region, if_neg hr, hregions r hr, setXn_region, if_neg hr]
  · rw [setXn_mn] at hmn
    rw [setXn_region, if_pos rfl, hregion, setXn_xn_self, hmn]
    exact ⟨rfl, hnode⟩

theorem mxldbWord_live {w : Mx} {s : State} (hi : Issues s w.stg w.grd) (hl : (issue s w.stg).live = true) :
    mxldbWord w s =
      (s.setXn s.focus.region { s.xn s.focus.region with
        ldb := ⟨true, false, bufferOf (s.xn s.focus.region) w.bsel, w.mfmt.toNat, w.spbase.toNat, 0⟩ }).addXSlot (issue s w.stg)
        { xSlot s w.stg .ldb 1 with fmt := w.mfmt.toNat, buf := bufferOf (s.xn s.focus.region) w.bsel, spbase := w.spbase.toNat } := by
  rw [mxldbWord, withIssue_of_issues hi, ← buffer_eq]
  exact if_neg (by rw [hl]; decide)

/-- The focused matrix node once MXACC has taken 64 tokens of c (R199). -/
def accNode (s : State) : XNode :=
  { s.xn s.focus.region with c := { toks := (s.xn s.focus.region).c.toks.drop 64, freed := (s.xn s.focus.region).c.freed + 64 } }

/-- The state once those tokens are acquired as well (R174). -/
def accTaken (s : State) : State :=
  ((s.xn s.focus.region).c.toks.take 64).foldl (fun u t => u.acquireNode s.focus.region t) (s.setXn s.focus.region (accNode s))

theorem mxaccWord_live {w : Mx} {s : State} (hi : Issues s w.stg w.grd) (hl : (issue s w.stg).live = true) (h64 : 64 ≤ (s.xn s.focus.region).c.toks.length) :
    mxaccWord w s = (accTaken s).addXSlot (issue s w.stg)
      { xSlot s w.stg .acc 8 with tag := s.mxTag (issue s w.stg) w 0, vals := ((s.xn s.focus.region).c.toks.take 64).map (fun q => q.tok.data) } := by
  rw [mxaccWord, withIssue_of_issues hi]
  refine (if_neg (by rw [hl]; decide)).trans ?_
  simp only [List.length_take, Nat.min_eq_left h64, show (issue s w.stg).rid = s.focus.region from rfl]
  rfl

theorem matrixSlotWords : Spec.MatrixSlotWords := by
  intro w s hi hl
  simp only [List.forall_mem_cons, List.not_mem_nil, false_implies, implies_true, and_true]
  refine ⟨⟨?cfg, ?clr, ?swb, ?stat, ?drn⟩, ?ldb, fun h64 => ?acc, rfl⟩
  case cfg => exact withIssue_addXSlot hi rfl
  case clr => exact withIssue_addXSlot hi rfl
  case swb => exact withIssue_addXSlot hi rfl
  case stat => exact withIssue_addXSlot hi rfl
  case drn => exact withIssue_addXSlot hi (if_neg (by rw [hl]; decide))
  case ldb => exact ⟨_, congrArg Host.Outcome.next (mxldbWord_live hi hl), setXn_addXSlot_spec ..⟩
  case acc =>
    obtain ⟨hp, hm⟩ := acquireNodes_pop s.focus.region ((s.xn s.focus.region).c.toks.take 64) (s.setXn s.focus.region (accNode s))
    exact ⟨_, congrArg Host.Outcome.next (mxaccWord_live hi hl h64), setXn_pop_addXSlot hp (hm.trans (by rw [setXn_mn]))⟩

/-- Settles O9: firings by the list of their sums, the format check by the error it raises, and the other words by the slots they take. -/
theorem matrixWords : Obligations.MatrixWords := ⟨matrixFirings, matrixFormatCheck, matrixSlotWords⟩

end Sys2Proof.Proofs.Matrix
end

