-- ==== Sys2Proof/Proofs/Arith.lean ====
section
/-! PROOFS. The operations of machine words by their values as numbers: signed values, shifts, rotations, products and quotients (R42, R76). -/
namespace Sys2Proof.Proofs.Arith

open Machine Spec

/-! ## Signed values and wrapping (R76) -/

/-- The signed value of a word's pattern is its own. -/
theorem sgn_toNat {w : Nat} (x : BitVec w) : sgn w x.toNat = x.toInt := by
  rw [sgn, BitVec.toInt_eq_msb_cond, BitVec.msb_eq_getLsbD_last, BitVec.testBit_toNat]
  push_cast
  rfl

/-- A word is its signed value, wrapped. -/
theorem toNat_eq_wrap {w : Nat} (x : BitVec w) : x.toNat = wrap w x.toInt := by
  conv_lhs => rw [← BitVec.ofInt_toInt (x := x)]
  rw [BitVec.toNat_ofInt, wrap]
  push_cast
  rfl

theorem wrap_bmod (w : Nat) (i : Int) : wrap w (i.bmod (2 ^ w)) = wrap w i := by
  rw [wrap, wrap]
  exact_mod_cast congrArg Int.toNat (Int.bmod_emod (x := i) (m := 2 ^ w))

theorem toNat_ofInt_eq_wrap (w : Nat) (i : Int) : (BitVec.ofInt w i).toNat = wrap w i := by
  rw [BitVec.toNat_ofInt, wrap]
  push_cast
  rfl

theorem toNat_sub_eq_wrap {w : Nat} (a b : BitVec w) : (a - b).toNat = wrap w (a.toNat - b.toNat) := by
  rw [← toNat_ofInt_eq_wrap, Int.sub_eq_add_neg, BitVec.ofInt_add, BitVec.ofInt_neg, BitVec.sub_eq_add_neg, BitVec.ofInt_natCast, BitVec.ofInt_natCast, BitVec.ofNat_toNat, BitVec.ofNat_toNat, BitVec.setWidth_eq,
    BitVec.setWidth_eq]

/-- Sign extension to 64 bits. -/
theorem toNat_signExtend_eq_wrap {n : Nat} (x : BitVec n) (h : n ≤ 64) : (x.signExtend 64).toNat = wrap 64 x.toInt := by
  rw [toNat_eq_wrap, BitVec.toInt_signExtend_of_le h]

theorem toNat_signExtend_eq_sx {n m : Nat} {x : BitVec n} (h : n ≤ 64) (hm : x.toNat = m % 2 ^ n) : (x.signExtend 64).toNat = sx n m := by
  rw [toNat_signExtend_eq_wrap x h, sx, ← hm, sgn_toNat]

theorem sext32_eq_sx {v : BitVec 32} {m : Nat} (h : v.toNat = m % 2 ^ 32) : (sext32 v).toNat = sx 32 m :=
  toNat_signExtend_eq_sx (by decide) h

theorem sext32_eq_sx_of_eq {v : BitVec 32} {m : Nat} (h : v.toNat = m) : (sext32 v).toNat = sx 32 m :=
  sext32_eq_sx (by rw [← h, Nat.mod_eq_of_lt v.isLt])

theorem sext32_eq_wrap (v : BitVec 32) : (sext32 v).toNat = wrap 64 v.toInt := toNat_signExtend_eq_wrap v (by decide)

@[simp] theorem toNat_low32 (a : W64) : (low32 a).toNat = a.toNat % 2 ^ 32 := BitVec.toNat_setWidth 32 a

theorem toNat_zeroExtend_low32 (a : W64) : ((low32 a).zeroExtend 64 : W64).toNat = a.toNat % 2 ^ 32 := by
  rw [BitVec.toNat_setWidth, toNat_low32, Nat.mod_eq_of_lt (by omega)]

/-! ## Shifts and rotations -/

theorem toNat_shiftLeft_eq {w : Nat} (a : BitVec w) (n : Nat) : (a <<< n).toNat = a.toNat * 2 ^ n % 2 ^ w := by
  rw [BitVec.toNat_shiftLeft, Nat.shiftLeft_eq]

theorem toNat_ushiftRight_eq {w : Nat} (a : BitVec w) (n : Nat) : (a >>> n).toNat = a.toNat / 2 ^ n := by
  rw [BitVec.toNat_ushiftRight, Nat.shiftRight_eq_div_pow]

theorem toInt_sshiftRight_eq {w : Nat} (a : BitVec w) (n : Nat) : (a.sshiftRight n).toInt = sgn w a.toNat / 2 ^ n := by
  rw [BitVec.toInt_sshiftRight, Int.shiftRight_eq_div_pow, sgn_toNat]
  push_cast
  rfl

theorem toNat_sshiftRight_eq {w : Nat} (a : BitVec w) (n : Nat) : (a.sshiftRight n).toNat = wrap w (sgn w a.toNat / 2 ^ n) := by
  rw [toNat_eq_wrap, toInt_sshiftRight_eq]

/-- The two parts of a rotation do not overlap. -/
theorem rotation_eq_add {w r x : Nat} (hr : r ≤ w) (hx : x < 2 ^ w) : (x * 2 ^ r % 2 ^ w) ||| (x / 2 ^ (w - r)) = (x * 2 ^ r + x / 2 ^ (w - r)) % 2 ^ w := by
  have hw : 2 ^ w = 2 ^ (w - r) * 2 ^ r := by rw [← pow_add, Nat.sub_add_cancel hr]
  have hq : x / 2 ^ (w - r) < 2 ^ r := Nat.div_lt_of_lt_mul (hw ▸ hx)
  have hlow : x * 2 ^ r % 2 ^ w = 2 ^ r * (x % 2 ^ (w - r)) := by rw [hw, Nat.mul_mod_mul_right, Nat.mul_comm]
  have hlt : 2 ^ r * (x % 2 ^ (w - r)) + x / 2 ^ (w - r) < 2 ^ w := by
    calc
      _ < 2 ^ r * (x % 2 ^ (w - r)) + 2 ^ r := Nat.add_lt_add_left hq _
      _ = 2 ^ r * (x % 2 ^ (w - r) + 1) := by ring
      _ ≤ 2 ^ r * 2 ^ (w - r) := Nat.mul_le_mul_left _ (Nat.mod_lt x (Nat.two_pow_pos _))
      _ = 2 ^ w := by rw [hw, Nat.mul_comm]
  rw [Nat.add_mod, hlow, Nat.mod_eq_of_lt (b := 2 ^ w) (a := x / _) (by omega), Nat.mod_eq_of_lt hlt, Nat.two_pow_add_eq_or_of_lt hq]

theorem toNat_rotateLeft_eq {w r : Nat} (x : BitVec w) (hr : r < w) : (x.rotateLeft r).toNat = (x.toNat * 2 ^ r + x.toNat / 2 ^ (w - r)) % 2 ^ w := by
  rw [BitVec.toNat_rotateLeft, Nat.mod_eq_of_lt hr, Nat.shiftLeft_eq, Nat.shiftRight_eq_div_pow, rotation_eq_add hr.le x.isLt]

theorem toNat_rotateRight_eq {w r : Nat} (x : BitVec w) (hr : r < w) : (x.rotateRight r).toNat = (x.toNat / 2 ^ r + x.toNat * 2 ^ (w - r)) % 2 ^ w := by
  have h := rotation_eq_add (Nat.sub_le w r) x.isLt
  rw [Nat.sub_sub_self hr.le] at h
  rw [BitVec.toNat_rotateRight, Nat.mod_eq_of_lt hr, Nat.shiftLeft_eq, Nat.shiftRight_eq_div_pow, Nat.or_comm, h, Nat.add_comm]

/-! ## Products and quotients -/

theorem mulHigh_eq_wrap {a b : BitVec 128} {i j : Int} (ha : a = BitVec.ofInt 128 i) (hb : b = BitVec.ofInt 128 j) :
    (mulHigh a b).toNat = wrap 64 (i * j / 2 ^ 64) := by
  subst ha hb
  rw [mulHigh, ← BitVec.ofInt_mul, BitVec.extractLsb'_toNat, toNat_ofInt_eq_wrap, Nat.shiftRight_eq_div_pow, wrap, wrap]
  generalize i * j = p
  omega

theorem signExtend_eq_ofInt (a : W64) : a.signExtend 128 = BitVec.ofInt 128 a.toInt := rfl

theorem zeroExtend_eq_ofInt (b : W64) : b.zeroExtend 128 = BitVec.ofInt 128 b.toNat := by
  rw [BitVec.ofInt_natCast, BitVec.ofNat_toNat]

theorem mulHigh_eq_wrap_sgn (a b : W64) : (mulHigh (a.signExtend 128) (b.signExtend 128)).toNat = wrap 64 (sgn 64 a.toNat * sgn 64 b.toNat / 2 ^ 64) := by
  rw [sgn_toNat, sgn_toNat, mulHigh_eq_wrap (signExtend_eq_ofInt a) (signExtend_eq_ofInt b)]

theorem mulHigh_eq_wrap_sgn_nat (a b : W64) : (mulHigh (a.signExtend 128) (b.zeroExtend 128)).toNat = wrap 64 (sgn 64 a.toNat * b.toNat / 2 ^ 64) := by
  rw [sgn_toNat, mulHigh_eq_wrap (signExtend_eq_ofInt a) (zeroExtend_eq_ofInt b)]

theorem wrap_natCast {w n : Nat} (h : n < 2 ^ w) : wrap w n = n := by
  rw [wrap]
  exact_mod_cast Nat.mod_eq_of_lt h

theorem mulHigh_eq_div (a b : W64) : (mulHigh (a.zeroExtend 128) (b.zeroExtend 128)).toNat = a.toNat * b.toNat / 2 ^ 64 := by
  have hlt : a.toNat * b.toNat / 2 ^ 64 < 2 ^ 64 := Nat.div_lt_of_lt_mul (Nat.mul_lt_mul'' a.isLt b.isLt)
  rw [mulHigh_eq_wrap (zeroExtend_eq_ofInt a) (zeroExtend_eq_ofInt b)]
  exact_mod_cast wrap_natCast hlt

theorem toNat_eq_zero_iff {w : Nat} {b : BitVec w} : b.toNat = 0 ↔ b = 0 := by
  simp [BitVec.toNat_eq]

theorem divS_eq_wrap {w : Nat} (a b : BitVec w) : (divS a b).toNat = if b.toNat = 0 then 2 ^ w - 1 else wrap w ((sgn w a.toNat).tdiv (sgn w b.toNat)) := by
  simp only [divS, toNat_eq_zero_iff, sgn_toNat]
  split
  · exact BitVec.toNat_allOnes
  · rw [toNat_eq_wrap, BitVec.toInt_sdiv, wrap_bmod]

theorem divU_toNat {w : Nat} (a b : BitVec w) : (divU a b).toNat = if b.toNat = 0 then 2 ^ w - 1 else a.toNat / b.toNat := by
  simp only [divU, toNat_eq_zero_iff]
  split
  · exact BitVec.toNat_allOnes
  · exact BitVec.toNat_udiv

theorem remS_toInt {w : Nat} (a b : BitVec w) : (remS a b).toInt = if b.toNat = 0 then sgn w a.toNat else (sgn w a.toNat).tmod (sgn w b.toNat) := by
  simp only [remS, toNat_eq_zero_iff, sgn_toNat]
  split
  · rfl
  · exact BitVec.toInt_srem a b

theorem remS_toNat {w : Nat} (a b : BitVec w) : (remS a b).toNat = if b.toNat = 0 then a.toNat else wrap w ((sgn w a.toNat).tmod (sgn w b.toNat)) := by
  rw [toNat_eq_wrap, remS_toInt, apply_ite (wrap w), sgn_toNat, ← toNat_eq_wrap]

theorem remU_toNat {w : Nat} (a b : BitVec w) : (remU a b).toNat = if b.toNat = 0 then a.toNat else a.toNat % b.toNat := by
  simp only [remU, toNat_eq_zero_iff]
  split
  · rfl
  · exact BitVec.toNat_umod

/-! ## Words of 32 bits in registers -/

theorem divS_low32_eq (a b : W64) :
    (sext32 (divS (low32 a) (low32 b))).toNat = if b.toNat % 2 ^ 32 = 0 then 2 ^ 64 - 1
      else wrap 64 (sgn 32 (wrap 32 ((sgn 32 (a.toNat % 2 ^ 32)).tdiv (sgn 32 (b.toNat % 2 ^ 32))))) := by
  rw [sext32_eq_wrap, ← sgn_toNat, divS_eq_wrap, toNat_low32, toNat_low32]
  split
  · decide
  · rfl

theorem divU_low32_eq (a b : W64) :
    (sext32 (divU (low32 a) (low32 b))).toNat = if b.toNat % 2 ^ 32 = 0 then 2 ^ 64 - 1 else sx 32 (a.toNat % 2 ^ 32 / (b.toNat % 2 ^ 32)) := by
  rw [sext32_eq_sx_of_eq (divU_toNat _ _), toNat_low32, toNat_low32]
  split
  · decide
  · rfl

theorem remS_low32_eq (a b : W64) :
    (sext32 (remS (low32 a) (low32 b))).toNat = if b.toNat % 2 ^ 32 = 0 then sx 32 a.toNat
      else wrap 64 ((sgn 32 (a.toNat % 2 ^ 32)).tmod (sgn 32 (b.toNat % 2 ^ 32))) := by
  rw [sext32_eq_wrap, remS_toInt, toNat_low32, toNat_low32, apply_ite (wrap 64)]
  rfl

theorem remU_low32_eq (a b : W64) :
    (sext32 (remU (low32 a) (low32 b))).toNat = if b.toNat % 2 ^ 32 = 0 then sx 32 a.toNat else sx 32 (a.toNat % 2 ^ 32 % (b.toNat % 2 ^ 32)) := by
  rw [sext32_eq_sx_of_eq (remU_toNat _ _), toNat_low32, toNat_low32, apply_ite (sx 32)]
  congr 1
  rw [sx, sx, Nat.mod_mod]

end Sys2Proof.Proofs.Arith
end

