-- ==== Sys2Proof/Proofs/Standard.lean ====
section
/-! PROOFS. The integer instructions, jumps, branches and CSR accesses of a controller (R42); settles O11. -/
namespace Sys2Proof.Proofs.Standard

open Machine Spec Arith Encoding

/-! ## Integer operations (R42) -/

theorem toNat_ite {w : Nat} (p : Prop) [Decidable p] (a b : BitVec w) : (if p then a else b).toNat = if p then a.toNat else b.toNat :=
  apply_ite ..

theorem slt_iff_sgn {w : Nat} {a b : BitVec w} : a.slt b = true ↔ sgn w a.toNat < sgn w b.toNat := by
  rw [BitVec.slt_iff_toInt_lt, sgn_toNat, sgn_toNat]

/-- A choice by signed order, which equal operands may decide either way. -/
theorem ite_slt_eq {w : Nat} (a b c d : BitVec w) (h : a = b → c = d) :
    (if a.slt b then c else d).toNat = if sgn w a.toNat ≤ sgn w b.toNat then c.toNat else d.toNat := by
  by_cases hab : a = b
  · rw [h hab, ite_self, ite_self]
  · have hne : sgn w a.toNat ≠ sgn w b.toNat := by
      rw [sgn_toNat, sgn_toNat]
      exact mt BitVec.toInt_inj.mp hab
    exact (toNat_ite ..).trans (if_congr (slt_iff_sgn.trans hne.le_iff_lt.symm) rfl rfl)

theorem toNat_add_shiftLeft (a b : W64) (n : Nat) : (b + a <<< n).toNat = (b.toNat + 2 ^ n * a.toNat) % 2 ^ 64 := by
  rw [BitVec.toNat_add, toNat_shiftLeft_eq, Nat.add_mod_mod, Nat.mul_comm]

theorem aluEval_toNat (op : AluOp) (a b : W64) : (aluEval op a b).toNat = aluSpec op a.toNat b.toNat := by
  have h64 : b.toNat % 64 < 64 := Nat.mod_lt _ (by decide)
  have h32 : b.toNat % 32 < 32 := Nat.mod_lt _ (by decide)
  cases op
  case add => exact BitVec.toNat_add a b
  case sub => exact toNat_sub_eq_wrap a b
  case sll => exact toNat_shiftLeft_eq a _
  case slt => exact (toNat_ite ..).trans (if_congr slt_iff_sgn rfl rfl)
  case sltu => exact (toNat_ite ..).trans (if_congr BitVec.ult_iff_lt rfl rfl)
  case xor => exact BitVec.toNat_xor a b
  case srl => exact toNat_ushiftRight_eq a _
  case sra => exact toNat_sshiftRight_eq a _
  case or => exact BitVec.toNat_or a b
  case and => exact BitVec.toNat_and a b
  case addw => exact sext32_eq_sx (by rw [BitVec.toNat_add, toNat_low32, toNat_low32, ← Nat.add_mod])
  case subw => exact sext32_eq_sx (by rw [toNat_sub_eq_wrap, toNat_low32, toNat_low32, wrap, wrap]; omega)
  case sllw => exact sext32_eq_sx (by rw [toNat_shiftLeft_eq, toNat_low32, Nat.mod_mul_mod])
  case srlw => exact sext32_eq_sx_of_eq (by rw [toNat_ushiftRight_eq, toNat_low32])
  case sraw => exact (sext32_eq_wrap _).trans (by rw [toInt_sshiftRight_eq, toNat_low32]; rfl)
  case mul => exact BitVec.toNat_mul a b
  case mulh => exact mulHigh_eq_wrap_sgn a b
  case mulhsu => exact mulHigh_eq_wrap_sgn_nat a b
  case mulhu => exact mulHigh_eq_div a b
  case div => exact divS_eq_wrap a b
  case divu => exact divU_toNat a b
  case rem => exact remS_toNat a b
  case remu => exact remU_toNat a b
  case mulw => exact sext32_eq_sx (by rw [BitVec.toNat_mul, toNat_low32, toNat_low32, ← Nat.mul_mod])
  case divw => exact divS_low32_eq a b
  case divuw => exact divU_low32_eq a b
  case remw => exact remS_low32_eq a b
  case remuw => exact remU_low32_eq a b
  case addUw => exact (BitVec.toNat_add ..).trans (by rw [toNat_zeroExtend_low32]; rfl)
  case sh1add => exact toNat_add_shiftLeft a b 1
  case sh2add => exact toNat_add_shiftLeft a b 2
  case sh3add => exact toNat_add_shiftLeft a b 3
  case sh1addUw => exact (toNat_add_shiftLeft _ b 1).trans (by rw [toNat_zeroExtend_low32]; rfl)
  case sh2addUw => exact (toNat_add_shiftLeft _ b 2).trans (by rw [toNat_zeroExtend_low32]; rfl)
  case sh3addUw => exact (toNat_add_shiftLeft _ b 3).trans (by rw [toNat_zeroExtend_low32]; rfl)
  case andn => exact (BitVec.toNat_and ..).trans (by rw [BitVec.toNat_not]; rfl)
  case orn => exact (BitVec.toNat_or ..).trans (by rw [BitVec.toNat_not]; rfl)
  case xnor => exact BitVec.toNat_not.trans (by rw [BitVec.toNat_xor]; rfl)
  case min => exact ite_slt_eq a b a b id
  case max => exact ite_slt_eq a b b a Eq.symm
  case minu => exact (toNat_ite ..).trans (by simp only [BitVec.ult_iff_lt, BitVec.lt_def, aluSpec]; split <;> omega)
  case maxu => exact (toNat_ite ..).trans (by simp only [BitVec.ult_iff_lt, BitVec.lt_def, aluSpec]; split <;> omega)
  case rol => exact toNat_rotateLeft_eq a h64
  case ror => exact toNat_rotateRight_eq a h64
  case rolw => exact sext32_eq_sx (by rw [toNat_rotateLeft_eq _ h32, toNat_low32])
  case rorw => exact sext32_eq_sx (by rw [toNat_rotateRight_eq _ h32, toNat_low32])
  case zextH => exact (BitVec.toNat_setWidth ..).trans (by rw [BitVec.toNat_setWidth]; simp only [aluSpec]; omega)

theorem toNat_imm (imm : BitVec 12) : (imm.signExtend 64).toNat = sx 12 imm.toNat :=
  toNat_signExtend_eq_sx (by decide) (Nat.mod_eq_of_lt imm.isLt).symm

theorem aluiEval_toNat (op : AluiOp) (a : W64) (imm : BitVec 12) : (aluiEval op a imm).toNat = aluiSpec op a.toNat imm := by
  have h64 : imm.toNat % 64 < 64 := Nat.mod_lt _ (by decide)
  have h32 : imm.toNat % 32 < 32 := Nat.mod_lt _ (by decide)
  have hi := toNat_imm imm
  cases op
  case addi => exact (BitVec.toNat_add ..).trans (by rw [hi]; rfl)
  case slti =>
    exact (toNat_ite ..).trans (if_congr (by rw [BitVec.slt_iff_toInt_lt, BitVec.toInt_signExtend_of_le (by decide), sgn_toNat, sgn_toNat]) rfl rfl)
  case sltiu => exact (toNat_ite ..).trans (if_congr (by rw [BitVec.ult_iff_lt, BitVec.lt_def, hi]) rfl rfl)
  case xori => exact (BitVec.toNat_xor ..).trans (by rw [hi]; rfl)
  case ori => exact (BitVec.toNat_or ..).trans (by rw [hi]; rfl)
  case andi => exact (BitVec.toNat_and ..).trans (by rw [hi]; rfl)
  case addiw => exact sext32_eq_sx (by rw [BitVec.toNat_add, toNat_low32, toNat_low32, hi, ← Nat.add_mod])
  case slli => exact toNat_shiftLeft_eq a _
  case srli => exact toNat_ushiftRight_eq a _
  case srai => exact toNat_sshiftRight_eq a _
  case slliw => exact sext32_eq_sx (by rw [toNat_shiftLeft_eq, toNat_low32, Nat.mod_mul_mod])
  case srliw => exact sext32_eq_sx_of_eq (by rw [toNat_ushiftRight_eq, toNat_low32])
  case sraiw => exact (sext32_eq_wrap _).trans (by rw [toInt_sshiftRight_eq, toNat_low32]; rfl)
  case slliUw => exact (toNat_shiftLeft_eq ..).trans (by rw [toNat_zeroExtend_low32]; rfl)
  case rori => exact toNat_rotateRight_eq a h64
  case roriw => exact sext32_eq_sx (by rw [toNat_rotateRight_eq _ h32, toNat_low32])

/-! ## The one-operand operations of Zbb -/

theorem leadingZeros_spec {w n : Nat} (hn : n < 2 ^ w) :
    leadingZeros w n ≤ w ∧ n < 2 ^ (w - leadingZeros w n) ∧ (leadingZeros w n < w → 2 ^ (w - 1 - leadingZeros w n) ≤ n) := by
  unfold leadingZeros
  split
  · subst n
    exact ⟨le_rfl, Nat.two_pow_pos _, fun h => absurd h (lt_irrefl _)⟩
  · next h0 =>
    have hlog : n.log2 < w := (Nat.log2_lt h0).mpr hn
    refine ⟨by omega, ?_, fun _ => ?_⟩
    · rw [show w - (w - 1 - n.log2) = n.log2 + 1 by omega]
      exact Nat.lt_log2_self
    · rw [show w - 1 - (w - 1 - n.log2) = n.log2 by omega]
      exact Nat.log2_self_le h0

theorem trailingZeros_spec (w n : Nat) :
    trailingZeros w n ≤ w ∧ n % 2 ^ trailingZeros w n = 0 ∧ (trailingZeros w n < w → n.testBit (trailingZeros w n) = true) := by
  have hzero : ∀ v, (∀ j < v, n.testBit j = false) → n % 2 ^ v = 0 := fun v h =>
    Nat.eq_of_testBit_eq fun j => by
      rw [Nat.testBit_mod_two_pow, Nat.zero_testBit]
      by_cases hj : j < v
      · rw [h j hj, Bool.and_false]
      · rw [decide_eq_false hj, Bool.false_and]
  unfold trailingZeros
  cases hf : (List.range w).find? n.testBit with
  | none =>
    rw [List.find?_eq_none] at hf
    exact ⟨le_rfl, hzero w fun j hj => by simpa using hf j (List.mem_range.mpr hj), fun h => absurd h (lt_irrefl _)⟩
  | some v =>
    rw [List.find?_range_eq_some] at hf
    obtain ⟨hbit, hv, hlow⟩ := hf
    rw [List.mem_range] at hv
    exact ⟨hv.le, hzero v fun j hj => by simpa using hlow j hj, fun _ => hbit⟩

theorem onesIn_eq_countP (w n : Nat) : onesIn w n = (List.range w).countP n.testBit := List.countP_eq_length_filter.symm

/-- The bits of the low half are those of the whole. -/
theorem testBit_low {n j : Nat} (hj : j < 32) : (n % 2 ^ 32).testBit j = n.testBit j := by
  rw [Nat.testBit_mod_two_pow, decide_eq_true hj, Bool.true_and]

theorem ofBytes_lt (l : List Byte) : ofBytes l < 2 ^ (8 * l.length) := by
  induction l with
  | nil => decide
  | cons b l ih =>
    have hb := b.isLt
    rw [ofBytes, List.length_cons, Nat.mul_succ, pow_add]
    omega

/-- The bytes of a number are its lanes of width 8. -/
theorem lane_ofBytes (l : List Byte) (j : Nat) (hj : j < l.length) : lane 8 j (ofBytes l) = l[j].toNat := by
  induction l generalizing j with
  | nil => cases hj
  | cons b l ih =>
    have hb := b.isLt
    cases j with
    | zero =>
      rw [lane, ofBytes, List.getElem_cons_zero]
      omega
    | succ j =>
      rw [List.getElem_cons_succ, ← ih j (by simpa using hj), lane, lane, ofBytes, Nat.mul_succ, Nat.add_comm (8 * j), pow_add, ← Nat.div_div_eq_div_mul]
      congr 2
      omega

theorem toNat_getElem_toBytes (n v j : Nat) (hj : j < (toBytes n v).length) : (toBytes n v)[j].toNat = lane 8 j v := by
  induction n generalizing v j with
  | zero => cases hj
  | succ n ih =>
    cases j with
    | zero => simp [toBytes, lane]
    | succ j =>
      have hj' : j < (toBytes n (v / 256)).length := by simpa [toBytes] using hj
      refine (ih (v / 256) j hj').trans ?_
      rw [lane, lane, Nat.mul_succ, Nat.add_comm (8 * j), pow_add, ← Nat.div_div_eq_div_mul]
      rfl

/-- Eight bytes as a word. -/
theorem lane_word_of_bytes {l : List Byte} (hl : l.length = 8) (j : Nat) (hj : j < 8) : lane 8 j (BitVec.ofNat 64 (ofBytes l)).toNat = l[j].toNat := by
  have hlt := ofBytes_lt l
  rw [hl] at hlt
  rw [BitVec.toNat_ofNat, Nat.mod_eq_of_lt hlt, lane_ofBytes l j]

theorem toNat_count {v : Nat} (h : v ≤ 64) : (BitVec.ofNat 64 v).toNat = v := by
  rw [BitVec.toNat_ofNat, Nat.mod_eq_of_lt (by omega)]

theorem unEval_spec (op : UnOp) (a : W64) : unSpec op a.toNat (unEval op a).toNat := by
  have hlow : a.toNat % 2 ^ 32 < 2 ^ 32 := Nat.mod_lt _ (by decide)
  cases op
  case clz =>
    have h := leadingZeros_spec a.isLt
    simp only [unSpec, unEval, toNat_count h.1]
    exact h
  case clzw =>
    have h := leadingZeros_spec hlow
    simp only [unSpec, unEval, toNat_count (h.1.trans (by decide))]
    exact h
  case ctz =>
    have h := trailingZeros_spec 64 a.toNat
    simp only [unSpec, unEval, toNat_count h.1]
    exact h
  case ctzw =>
    obtain ⟨hle, hmod, hbit⟩ := trailingZeros_spec 32 (a.toNat % 2 ^ 32)
    simp only [unSpec, unEval, toNat_count (hle.trans (by decide))]
    rw [Nat.mod_mod_of_dvd _ (Nat.pow_dvd_pow 2 hle)] at hmod
    exact ⟨hle, hmod, fun h => (testBit_low h).symm.trans (hbit h)⟩
  case cpop =>
    simp only [unSpec, unEval]
    rw [onesIn_eq_countP, toNat_count (List.countP_le_length.trans (by simp))]
  case cpopw =>
    simp only [unSpec, unEval]
    rw [onesIn_eq_countP, toNat_count (List.countP_le_length.trans (by simp))]
    exact List.countP_congr fun j hj => by rw [testBit_low (List.mem_range.mp hj)]
  case sextB => exact toNat_signExtend_eq_sx (by decide) (BitVec.toNat_setWidth ..)
  case sextH => exact toNat_signExtend_eq_sx (by decide) (BitVec.toNat_setWidth ..)
  case rev8 =>
    intro j hj
    refine (lane_word_of_bytes (by simp) j hj).trans ?_
    rw [List.getElem_reverse, toNat_getElem_toBytes]
    simp
  case orcB =>
    intro j hj
    refine (lane_word_of_bytes (by simp) j hj).trans ?_
    rw [List.getElem_map, ← toNat_getElem_toBytes 8 a.toNat j (by simpa using hj), apply_ite BitVec.toNat]
    simp [BitVec.toNat_eq]

/-! ## Retiring and jumping -/

theorem setReg_reg_iff (k : Ctl) (rd n : Reg) (v : W64) : (k.setReg rd v).reg n = if n = rd ∧ n ≠ 0 then v else k.reg n := by
  rw [setReg_reg]
  exact if_congr (and_congr_right fun h => by rw [h]) rfl rfl

theorem retireWith_retired (s : State) (c : Nat) (rd : Reg) (v : W64) : Retired s (s.retireWith c rd v) c rd v where
  rest := rfl
  others d hd := by rw [State.retireWith, setCtl_cluster, if_neg hd]
  cluster := by rw [State.retireWith, setCtl_cluster, if_pos rfl, setCtl_ctl_self]
  ctl := by
    rw [retireWith_ctl, if_pos rfl, Ctl.setReg]
    split <;> rfl
  regs n := by rw [retireWith_ctl, if_pos rfl, retire_reg, setReg_reg_iff]

theorem retire_retired (s : State) (c : Nat) : Retired s (s.retire c) c 0 0 := retireWith_retired s c 0 0

theorem jump_jumped (s : State) (c : Nat) (rd : Reg) {target : W64} {n : Nat} (h : target = BitVec.ofNat 64 n) : Jumped s (s.jump c rd target) c rd n where
  rest := rfl
  others d hd := by rw [State.jump, setCtl_cluster, if_neg hd]
  cluster := by rw [State.jump, setCtl_cluster, if_pos rfl, setCtl_ctl_self]
  ctl := by
    rw [State.jump, setCtl_ctl_self, Ctl.setReg, h]
    split <;> rfl
  regs n := by
    rw [State.jump, setCtl_ctl_self]
    exact setReg_reg_iff ..

theorem brHolds_iff (op : BrOp) (a b : W64) : brHolds op a b = true ↔ takenSpec op a.toNat b.toNat := by
  cases op
  case beq => exact beq_iff_eq.trans BitVec.toNat_eq
  case bne => exact bne_iff_ne.trans (not_congr BitVec.toNat_eq)
  case blt => exact slt_iff_sgn
  case bge => exact (by simp [brHolds] : _ ↔ ¬ a.slt b = true).trans ((not_congr slt_iff_sgn).trans not_lt)
  case bltu => exact BitVec.ult_iff_lt
  case bgeu => exact (by simp [brHolds] : _ ↔ ¬ a.ult b = true).trans ((not_congr BitVec.ult_iff_lt).trans Nat.not_lt)

theorem add_offset {n : Nat} (pc : W64) (off : BitVec n) (h : n ≤ 64) : pc + off.signExtend 64 = BitVec.ofNat 64 (pc.toNat + sx n off.toNat) := by
  rw [BitVec.ofNat_add, BitVec.ofNat_toNat, BitVec.setWidth_eq, ← toNat_signExtend_eq_sx h (Nat.mod_eq_of_lt off.isLt).symm, BitVec.ofNat_toNat, BitVec.setWidth_eq]

theorem toNat_upper (imm : BitVec 20) : ((imm ++ 0#12 : BitVec 32).signExtend 64).toNat = sx 32 (imm.toNat * 2 ^ 12) :=
  toNat_signExtend_eq_sx (by decide) (by
    rw [BitVec.toNat_append, BitVec.toNat_zero, Nat.or_zero, Nat.shiftLeft_eq, Nat.mod_eq_of_lt (by omega)])

/-- Clearing bit 0 makes a number even. -/
theorem and_not_one (x : W64) : x &&& ~~~1 = BitVec.ofNat 64 (x.toNat / 2 * 2) := by
  have hshift : BitVec.ofNat 64 (x.toNat / 2 * 2) = (x >>> 1) <<< 1 := by
    apply BitVec.eq_of_toNat_eq
    rw [BitVec.toNat_ofNat, toNat_shiftLeft_eq, toNat_ushiftRight_eq, pow_one]
  rw [hshift, BitVec.shiftLeft_ushiftRight]
  rfl

theorem standardInteger : Spec.StandardInteger := by
  rintro s c rfl
  refine ⟨fun op rd rs1 rs2 => ?_, fun op rd rs1 imm => ?_, fun op rd rs1 => ?_, fun rd imm => ?_, fun rd imm => ?_, fun rd off => ?_, fun rd rs1 imm => ?_,
    fun op rs1 rs2 off => ?_⟩
  · exact ⟨_, _, rfl, retireWith_retired .., aluEval_toNat ..⟩
  · exact ⟨_, _, rfl, retireWith_retired .., aluiEval_toNat ..⟩
  · exact ⟨_, _, rfl, retireWith_retired .., unEval_spec ..⟩
  · exact ⟨_, _, rfl, retireWith_retired .., toNat_upper imm⟩
  · exact ⟨_, _, rfl, retireWith_retired .., (BitVec.toNat_add ..).trans (by rw [toNat_upper])⟩
  · exact ⟨_, rfl, jump_jumped _ _ _ (add_offset _ _ (by decide))⟩
  · exact ⟨_, rfl, jump_jumped _ _ _ (by rw [and_not_one, BitVec.toNat_add, toNat_imm]; rfl)⟩
  · refine ⟨_, rfl, fun h => ?_, fun h => ?_⟩
    · exact (congrArg (Jumped s · _ _ _) (if_pos ((brHolds_iff ..).mpr h))).mpr (jump_jumped _ _ _ (add_offset (n := 13) _ _ (by decide)))
    · exact (congrArg (Retired s · _ _ _) (if_neg (mt (brHolds_iff ..).mp h))).mpr (retire_retired ..)

/-! ## CSR accesses -/

theorem csrRead_eq_some {s : State} {c n : Nat} (h : n ∈ [0xC00, 0xC01, 0xC02]) :
    s.csrRead c n = some (if n = 0xC00 then (s.ctl c).cycle else if n = 0xC01 then (s.die (c / 64)).tick else (s.ctl c).instret) := by
  simp only [List.mem_cons, List.not_mem_nil, or_false] at h
  rcases h with rfl | rfl | rfl <;> rfl

theorem csrRead_eq_none {s : State} {c n : Nat} (h : n ∉ [0xC00, 0xC01, 0xC02]) : s.csrRead c n = none := by
  unfold State.csrRead
  split
  case h_4 => rfl
  all_goals exact absurd h (by decide)

theorem csrOp_of_write {op : CsrOp} {rd rs1 : Reg} {num : BitVec 12} {s : State} (h : op = .rw ∨ op = .rwi ∨ rs1 ≠ 0) :
    csrOp op rd rs1 num s = s.illegal s.focus.cluster := by
  cases op
  case rw | rwi => rfl
  all_goals
    have hne : (rs1 != 0) = true := by simpa using h
    simp only [csrOp, hne]

theorem csrOp_of_none {op : CsrOp} {rd rs1 : Reg} {num : BitVec 12} {s : State} (h : s.csrRead s.focus.cluster num.toNat = none) :
    csrOp op rd rs1 num s = s.illegal s.focus.cluster := by
  simp only [csrOp, h]
  split
  case h_1 hv => cases hv
  case h_2 => rfl

theorem csrOp_read {op : CsrOp} {rd : Reg} {num : BitVec 12} {s : State} {v : W64} (hop : op = .rs ∨ op = .rc ∨ op = .rsi ∨ op = .rci)
    (h : s.csrRead s.focus.cluster num.toNat = some v) : csrOp op rd 0 num s = s.retireWith s.focus.cluster rd v := by
  rcases hop with rfl | rfl | rfl | rfl <;> simp only [csrOp, h, bne_self_eq_false]

theorem csrReads : Spec.CsrReads := by
  rintro s c rd rfl op num rs1
  refine ⟨?read, fun h => congrArg Host.Outcome.next ?trap⟩
  case read =>
    rintro ⟨hop, rfl, hnum⟩
    refine ⟨_, rfl, ?_⟩
    rw [standardOp, csrOp_read hop (csrRead_eq_some hnum)]
    exact retireWith_retired ..
  case trap =>
    show csrOp op rd rs1 num s = s.illegal s.focus.cluster
    by_cases hnum : num.toNat ∈ [0xC00, 0xC01, 0xC02]
    · exact csrOp_of_write (by tauto)
    · exact csrOp_of_none (csrRead_eq_none hnum)

/-- Settles O11: each operation by its value as a number, and a CSR access by whether it writes and what it names. -/
theorem standardInstructions : Obligations.StandardInstructions := ⟨standardInteger, csrReads⟩

end Sys2Proof.Proofs.Standard
end

