-- ==== Sys2Proof/Proofs/CellIssue.lean ====
section
/-! PROOFS. What a cell word that issues comes to: its pops, and the landing slot of its value or of its predicate (R34, R35, R71, R76). -/
namespace Sys2Proof.Proofs.CellIssue

open Machine Spec UnitIssue

theorem cellFrame_page {s t : State} {rid u : Nat} (h : CellFrame s t rid u) (k : Nat) : t.page k = s.page k := by
  rw [h.rest]
  rfl

theorem named_eq_true_iff {sels : List (BitVec 6)} {n : Nat} : named sels n = true ↔ ∃ v ∈ sels, v.toNat = 0x10 + n := by
  simp only [named, List.any_eq_true, beq_iff_eq]

/-- Popping the queues that a word names and taking a landing slot is all that its issue does (R34, R71). -/
theorem addSlot_issued {s : State} {stg : BitVec 3} {sels : List (BitVec 6)} (hr : HeadsReady s (issue s stg).live (named sels)) (sl : Slot) :
    Issued s ((s.popSrcs (issue s stg) sels).addSlot (issue s stg) sl) (named sels) (issue s stg).live [sl]
      (s.cell s.focus.region s.focus.unit).lfsr := by
  obtain ⟨hframe, hcell, hqueues⟩ := popSrcs_spec s (issue s stg) sels
  have hslot := hframe.trans (setCell_frame _ (issue s stg).rid (issue s stg).unit
    { (s.popSrcs (issue s stg) sels).cell (issue s stg).rid (issue s stg).unit with
      slots := ((s.popSrcs (issue s stg) sels).cell (issue s stg).rid (issue s stg).unit).slots ++ [sl] })
  refine ⟨hslot.rest, hslot.regions, hslot.region, hslot.node, hslot.cells, ?cell, fun n hn => ?queues⟩
  case cell =>
    rw [State.addSlot, show (issue s stg).rid = s.focus.region from rfl, show (issue s stg).unit = s.focus.unit from rfl, setCell_cell_self]
    exact congrArg (fun c : Cell => { c with slots := c.slots ++ [sl] }) hcell
  case queues =>
    rw [State.addSlot, show (issue s stg).rid = s.focus.region from rfl, show (issue s stg).unit = s.focus.unit from rfl, setCell_cell_self]
    refine (hqueues n hn).trans (if_congr ?_ rfl rfl)
    rw [Bool.and_eq_true, named_eq_true_iff]
    exact ⟨fun ⟨hl, hv, _⟩ => ⟨hl, hv⟩, fun ⟨hl, hv⟩ => ⟨hl, hv, hr hl n hn (named_eq_true_iff.mpr hv)⟩⟩

/-- A value is delivered as the landing slot that its word's registers and flags give (R35, R68). -/
theorem popSrcs_deliver (s : State) (stg : BitVec 3) (sels : List (BitVec 6)) (lat : Nat) (dq : BitVec 4) (wq out : Bool) (v : W32) :
    (s.popSrcs (issue s stg) sels).deliver (issue s stg) lat dq wq out v =
      (s.popSrcs (issue s stg) sels).addSlot (issue s stg) (valueSlot s stg lat dq wq out v) := by
  rw [State.deliver, cellFrame_page (popSrcs_spec s (issue s stg) sels).1]
  rfl

/-! ## The forms of words -/

theorem valueWord2_issued {w : C2} {s : State} (hi : Issues s w.stg w.grd) (hr : HeadsReady s (issue s w.stg).live (named [w.sa, w.sb]))
    (lat : Nat) (f : W32 → W32 → W32) :
    Issued s (valueWord2 lat w f s) (named [w.sa, w.sb]) (issue s w.stg).live
      [valueSlot s w.stg lat w.dq w.wq w.out (f (s.src (issue s w.stg) w.sa w.imm8) (s.src (issue s w.stg) w.sb w.imm8))]
      (s.cell s.focus.region s.focus.unit).lfsr := by
  rw [valueWord2, withIssue_of_issues hi, popSrcs_deliver]
  exact addSlot_issued hr _

theorem valueWord3_issued {w : C3} {s : State} (hi : Issues s w.stg w.grd) (hr : HeadsReady s (issue s w.stg).live (named [w.sa, w.sb, w.sc]))
    (lat : Nat) (f : W32 → W32 → W32 → W32) :
    Issued s (valueWord3 lat w f s) (named [w.sa, w.sb, w.sc]) (issue s w.stg).live
      [valueSlot s w.stg lat w.dq w.wq w.out
        (f (s.src (issue s w.stg) w.sa 0) (s.src (issue s w.stg) w.sb 0) (s.src (issue s w.stg) w.sc 0))]
      (s.cell s.focus.region s.focus.unit).lfsr := by
  rw [valueWord3, withIssue_of_issues hi, popSrcs_deliver]
  exact addSlot_issued hr _

theorem predWord2_issued {w : C2} {s : State} (hi : Issues s w.stg w.grd) (hr : HeadsReady s (issue s w.stg).live (named [w.sa, w.sb]))
    (lat : Nat) (f : W32 → W32 → Bool) :
    Issued s (predWord2 lat w f s) (named [w.sa, w.sb]) (issue s w.stg).live
      [predSlot s w.stg lat w.dq (f (s.src (issue s w.stg) w.sa w.imm8) (s.src (issue s w.stg) w.sb w.imm8))]
      (s.cell s.focus.region s.focus.unit).lfsr := by
  rw [predWord2, withIssue_of_issues hi]
  exact addSlot_issued hr _

/-- A word with an immediate pops nothing (R89). -/
theorem immWord_issued {w : Li} {s : State} (hi : Issues s w.stg w.grd) (f : W32 → W32) :
    Issued s (immWord w f s) (fun _ => false) (issue s w.stg).live
      [valueSlot s w.stg 1 w.dq w.wq w.out (f ((s.cell s.focus.region s.focus.unit).qReg (s.page (s.pageOf s.focus.region)).base w.dq.toNat))]
      (s.cell s.focus.region s.focus.unit).lfsr := by
  have hpops : s.popSrcs (issue s w.stg) [] = s := ite_self _
  have hissued := addSlot_issued (s := s) (stg := w.stg) (sels := []) (fun _ _ _ h => absurd h Bool.false_ne_true)
  rw [hpops] at hissued
  rw [immWord, withIssue_of_issues hi]
  exact hissued _

end Sys2Proof.Proofs.CellIssue
end

