-- ==== Sys2Proof/Proofs/CellInteger.lean ====
section
/-! PROOFS. The results of the integer words of a cell, lane by lane and bit by bit (R76 to R86, R88, R89); settles O1. -/
namespace Sys2Proof.Proofs.CellInteger

open Machine Spec UnitIssue CellIssue Arith

/-! ## Lanes (R77) -/

theorem lane_zero_append {m n : Nat} (x : BitVec m) (y : BitVec n) : lane n 0 (x ++ y).toNat = y.toNat := by
  rw [lane, BitVec.toNat_append, ← Nat.shiftLeft_add_eq_or_of_lt y.isLt, Nat.shiftLeft_eq, Nat.mul_zero, pow_zero, Nat.div_one,
    Nat.mul_add_mod_self_right, Nat.mod_eq_of_lt y.isLt]

theorem lane_succ_append {m n : Nat} (j : Nat) (x : BitVec m) (y : BitVec n) : lane n (j + 1) (x ++ y).toNat = lane n j x.toNat := by
  rw [lane, lane, BitVec.toNat_append, ← Nat.shiftLeft_add_eq_or_of_lt y.isLt, Nat.shiftLeft_eq, Nat.mul_succ, Nat.add_comm (n * j), pow_add,
    ← Nat.div_div_eq_div_mul, Nat.add_comm, Nat.add_mul_div_right _ _ (Nat.two_pow_pos n), Nat.div_eq_of_lt y.isLt, Nat.zero_add]

theorem lane_zero_self {n : Nat} (x : BitVec n) : lane n 0 x.toNat = x.toNat := by
  rw [lane, Nat.mul_zero, pow_zero, Nat.div_one, Nat.mod_eq_of_lt x.isLt]

theorem toNat_extractLsb'_eq_lane {w : Nat} (a : BitVec w) (n j : Nat) : (a.extractLsb' (n * j) n).toNat = lane n j a.toNat := by
  rw [BitVec.extractLsb'_toNat, Nat.shiftRight_eq_div_pow, lane]

/-- The lane widths of MOD bits 11:10 (R77). -/
theorem lanes2_cases (mod : BitVec 4) (hm : mod.toNat / 4 ≤ 2) (f : (n : Nat) → BitVec n → BitVec n → BitVec n) (a b : W32) :
    (laneWidth mod = 32 ∧ lanes2 mod f a b = f 32 a b) ∨
    (laneWidth mod = 16 ∧ lanes2 mod f a b = f 16 (a.extractLsb' 16 16) (b.extractLsb' 16 16) ++ f 16 (a.extractLsb' 0 16) (b.extractLsb' 0 16)) ∨
    (laneWidth mod = 8 ∧ lanes2 mod f a b = f 8 (a.extractLsb' 24 8) (b.extractLsb' 24 8) ++ f 8 (a.extractLsb' 16 8) (b.extractLsb' 16 8) ++
      f 8 (a.extractLsb' 8 8) (b.extractLsb' 8 8) ++ f 8 (a.extractLsb' 0 8) (b.extractLsb' 0 8)) := by
  have hbits : (mod.extractLsb' 2 2).toNat = mod.toNat / 4 := by
    rw [BitVec.extractLsb'_toNat, Nat.shiftRight_eq_div_pow]
    omega
  have hwidth : mod.toNat / 4 = 0 ∨ mod.toNat / 4 = 1 ∨ mod.toNat / 4 = 2 := by omega
  rcases hwidth with h | h | h
  · exact .inl ⟨by simp only [laneWidth, h]; decide, by simp only [lanes2, hbits, h]⟩
  · exact .inr (.inl ⟨by simp only [laneWidth, h]; decide, by simp only [lanes2, hbits, h]⟩)
  · exact .inr (.inr ⟨by simp only [laneWidth, h]; decide, by simp only [lanes2, hbits, h]⟩)

/-- Each lane of a result is the operation of that lane of the sources. -/
theorem lane_lanes2 {mod : BitVec 4} (hm : mod.toNat / 4 ≤ 2) (f : (n : Nat) → BitVec n → BitVec n → BitVec n) (a b : W32) {j : Nat}
    (hj : j < 32 / laneWidth mod) :
    lane (laneWidth mod) j (lanes2 mod f a b).toNat =
      (f (laneWidth mod) (a.extractLsb' (laneWidth mod * j) (laneWidth mod)) (b.extractLsb' (laneWidth mod * j) (laneWidth mod))).toNat := by
  rcases lanes2_cases mod hm f a b with ⟨hw, hl⟩ | ⟨hw, hl⟩ | ⟨hw, hl⟩ <;> rw [hl] <;> generalize laneWidth mod = w at * <;> subst hw
  · obtain rfl : j = 0 := by omega
    rw [lane_zero_self, BitVec.extractLsb'_eq_self, BitVec.extractLsb'_eq_self]
  · obtain rfl | rfl : j = 0 ∨ j = 1 := by omega
    · rw [lane_zero_append]
    · rw [lane_succ_append, lane_zero_self]
  · obtain rfl | rfl | rfl | rfl : j = 0 ∨ j = 1 ∨ j = 2 ∨ j = 3 := by omega
    · rw [lane_zero_append]
    · rw [lane_succ_append, lane_zero_append]
    · rw [lane_succ_append, lane_succ_append, lane_zero_append]
    · rw [lane_succ_append, lane_succ_append, lane_succ_append, lane_zero_self]

/-- What an entry of the table of lane opcodes states. -/
def LaneWord (e : (C2 → Instr) × Nat × (Nat → Nat → Nat → Nat)) : Prop :=
  ∀ (w : C2) (s : State), w.mod.toNat / 4 ≤ 2 → Issues s w.stg w.grd → HeadsReady s (issue s w.stg).live (named [w.sa, w.sb]) →
    ∃ t v, exec (e.1 w) s = .next t ∧
      Issued s t (named [w.sa, w.sb]) (issue s w.stg).live [valueSlot s w.stg e.2.1 w.dq w.wq w.out v] (s.cell s.focus.region s.focus.unit).lfsr ∧
      ∀ j, j < 32 / laneWidth w.mod → lane (laneWidth w.mod) j v.toNat =
        e.2.2 (laneWidth w.mod) (lane (laneWidth w.mod) j (s.src (issue s w.stg) w.sa w.imm8).toNat)
          (lane (laneWidth w.mod) j (s.src (issue s w.stg) w.sb w.imm8).toNat)

/-- A lane opcode delivers its function of one lane, whose values as numbers are the table's. -/
theorem laneWord_of_toNat {mk : C2 → Instr} {lat : Nat} {f : (n : Nat) → BitVec n → BitVec n → BitVec n} {op : Nat → Nat → Nat → Nat}
    (hexec : ∀ w s, exec (mk w) s = .next (valueWord2 lat w (lanes2 w.mod f) s))
    (hop : ∀ (n : Nat) (x y : BitVec n), (f n x y).toNat = op n x.toNat y.toNat) : LaneWord (mk, lat, op) := by
  intro w s hm hi hr
  refine ⟨_, _, hexec w s, valueWord2_issued hi hr lat _, fun j hj => ?_⟩
  rw [lane_lanes2 hm f _ _ hj, hop, toNat_extractLsb'_eq_lane, toNat_extractLsb'_eq_lane]

/-! ## The lane operations by their values (R79 to R81, R83) -/

theorem wrap_natCast_eq_mod (w n : Nat) : wrap w n = n % 2 ^ w := by
  rw [wrap]
  exact_mod_cast rfl

theorem toNat_add_eq_wrap {n : Nat} (x y : BitVec n) : (x + y).toNat = wrap n (x.toNat + y.toNat) := by
  rw [BitVec.toNat_add]
  exact_mod_cast (wrap_natCast_eq_mod n (x.toNat + y.toNat)).symm

theorem toNat_mul_eq_wrap {n : Nat} (x y : BitVec n) : (x * y).toNat = wrap n (x.toNat * y.toNat) := by
  rw [BitVec.toNat_mul]
  exact_mod_cast (wrap_natCast_eq_mod n (x.toNat * y.toNat)).symm

theorem toNat_neg_eq_wrap {n : Nat} (x : BitVec n) : (-x).toNat = wrap n (-x.toNat) := by
  rw [← BitVec.zero_sub, toNat_sub_eq_wrap, BitVec.toNat_zero, Nat.cast_zero, zero_sub]

theorem toNat_shiftLeft_mod_eq_wrap {n : Nat} (x : BitVec n) (k : Nat) : (x <<< k).toNat = wrap n (x.toNat * 2 ^ k) := by
  rw [toNat_shiftLeft_eq]
  exact_mod_cast (wrap_natCast_eq_mod n (x.toNat * 2 ^ k)).symm

theorem satS_toNat (n : Nat) (v : Int) : (satS n v).toNat = satSigned n v := toNat_ofInt_eq_wrap n _

theorem satZ_toNat (n : Nat) (v : Int) : (satZ n v).toNat = satUnsigned n v := by
  rw [satZ, toNat_ofInt_eq_wrap, satUnsigned, wrap]
  have hpos : (0 : Int) < 2 ^ n := by positivity
  rw [Int.emod_eq_of_lt] <;> omega

theorem abs_toNat_eq_wrap {n : Nat} (x : BitVec n) : (if x.msb then -x else x).toNat = wrap n |sgn n x.toNat| := by
  rw [sgn_toNat, BitVec.msb_eq_toInt]
  by_cases hneg : x.toInt < 0
  · rw [if_pos (decide_eq_true hneg), abs_of_neg hneg, toNat_eq_wrap, BitVec.toInt_neg, wrap_bmod]
  · rw [if_neg (ne_true_of_eq_false (decide_eq_false hneg)), abs_of_nonneg (Int.not_lt.mp hneg), ← toNat_eq_wrap]

theorem laneWords : Spec.LaneWords := by
  show ∀ e ∈ laneOps, LaneWord e
  simp only [laneOps, List.forall_mem_cons, List.not_mem_nil, false_implies, implies_true, and_true]
  refine ⟨?add, ?sub, ?addSatS, ?addSatZ, ?subSatS, ?subSatZ, ?mulLo, ?minS, ?minZ, ?maxS, ?maxZ, ?abs, ?neg, ?shl, ?shrZ, ?shrS⟩
  case add => exact laneWord_of_toNat (fun _ _ => rfl) fun _ => toNat_add_eq_wrap
  case sub => exact laneWord_of_toNat (fun _ _ => rfl) fun _ => toNat_sub_eq_wrap
  case addSatS => exact laneWord_of_toNat (fun _ _ => rfl) fun n x y => by rw [satS_toNat, sgn_toNat, sgn_toNat]
  case addSatZ => exact laneWord_of_toNat (fun _ _ => rfl) fun n x y => satZ_toNat n _
  case subSatS => exact laneWord_of_toNat (fun _ _ => rfl) fun n x y => by rw [satS_toNat, sgn_toNat, sgn_toNat]
  case subSatZ => exact laneWord_of_toNat (fun _ _ => rfl) fun n x y => satZ_toNat n _
  case mulLo => exact laneWord_of_toNat (fun _ _ => rfl) fun _ => toNat_mul_eq_wrap
  case minS =>
    refine laneWord_of_toNat (fun _ _ => rfl) fun n x y => ?_
    simp only [sgn_toNat, BitVec.sle_iff_toInt_le, apply_ite BitVec.toNat]
  case minZ =>
    refine laneWord_of_toNat (fun _ _ => rfl) fun n x y => ?_
    simp only [BitVec.ule_iff_toNat_le, apply_ite BitVec.toNat]
  case maxS =>
    refine laneWord_of_toNat (fun _ _ => rfl) fun n x y => ?_
    simp only [sgn_toNat, BitVec.sle_iff_toInt_le, apply_ite BitVec.toNat, ge_iff_le]
  case maxZ =>
    refine laneWord_of_toNat (fun _ _ => rfl) fun n x y => ?_
    simp only [BitVec.ule_iff_toNat_le, apply_ite BitVec.toNat, ge_iff_le]
  case abs => exact laneWord_of_toNat (f := fun _ x _ => if x.msb then -x else x) (fun _ _ => rfl) fun _ x _ => abs_toNat_eq_wrap x
  case neg => exact laneWord_of_toNat (f := fun _ x _ => -x) (fun _ _ => rfl) fun _ x _ => toNat_neg_eq_wrap x
  case shl => exact laneWord_of_toNat (fun _ _ => rfl) fun _ x _ => toNat_shiftLeft_mod_eq_wrap x _
  case shrZ => exact laneWord_of_toNat (fun _ _ => rfl) fun _ x _ => toNat_ushiftRight_eq x _
  case shrS => exact laneWord_of_toNat (fun _ _ => rfl) fun _ x _ => toNat_sshiftRight_eq x _

/-! ## The other two-source words (R79, R80, R82 to R86, R88) -/

/-- What an entry of the table of the other two-source opcodes states. -/
def WholeWord (e : (C2 → Instr) × Nat × (C2 → Nat → Nat → Nat → Prop)) : Prop :=
  ∀ (w : C2) (s : State), Issues s w.stg w.grd → HeadsReady s (issue s w.stg).live (named [w.sa, w.sb]) →
    ∃ t v, exec (e.1 w) s = .next t ∧
      Issued s t (named [w.sa, w.sb]) (issue s w.stg).live [valueSlot s w.stg e.2.1 w.dq w.wq w.out v] (s.cell s.focus.region s.focus.unit).lfsr ∧
      e.2.2 w (s.src (issue s w.stg) w.sa w.imm8).toNat (s.src (issue s w.stg) w.sb w.imm8).toNat v.toNat

/-- Such an opcode delivers its function of the sources, whose values as numbers are in the table's relation. -/
theorem wholeWord_of_toNat {mk : C2 → Instr} {lat : Nat} {f : C2 → W32 → W32 → W32} {op : C2 → Nat → Nat → Nat → Prop}
    (hexec : ∀ w s, exec (mk w) s = .next (valueWord2 lat w (f w) s)) (hop : ∀ w a b, op w a.toNat b.toNat (f w a b).toNat) :
    WholeWord (mk, lat, op) :=
  fun w s hi hr => ⟨_, _, hexec w s, valueWord2_issued hi hr lat _, hop w _ _⟩

theorem addsh_toNat (a b : W32) (n : Nat) : (a + b <<< bits n 2 0).toNat = (a.toNat + b.toNat * 2 ^ (n % 8)) % 2 ^ 32 := by
  have hbits : bits n 2 0 = n % 8 := by simp [bits]
  rw [BitVec.toNat_add, hbits, toNat_shiftLeft_eq, Nat.add_mod_mod]

theorem mulHiS_toNat (a b : W32) : (BitVec.ofInt 32 (a.toInt * b.toInt / 2 ^ 32)).toNat = wrap 32 (sgn 32 a.toNat * sgn 32 b.toNat / 2 ^ 32) := by
  rw [toNat_ofInt_eq_wrap, sgn_toNat, sgn_toNat]

theorem mulHiZ_toNat (a b : W32) : (BitVec.ofNat 32 (a.toNat * b.toNat / 2 ^ 32)).toNat = a.toNat * b.toNat / 2 ^ 32 :=
  Nat.mod_eq_of_lt (Nat.div_lt_of_lt_mul (Nat.mul_lt_mul'' a.isLt b.isLt))

theorem rotVal_toNat (a b : W32) : (rotVal a b).toNat = a.toNat * 2 ^ (b.toNat % 32) % 2 ^ 32 + a.toNat / 2 ^ (32 - b.toNat % 32) := by
  have hr : b.toNat % 32 < 32 := Nat.mod_lt _ (by decide)
  have hsplit : 2 ^ 32 = 2 ^ (32 - b.toNat % 32) * 2 ^ (b.toNat % 32) := by rw [← pow_add, Nat.sub_add_cancel hr.le]
  have hhigh : a.toNat / 2 ^ (32 - b.toNat % 32) < 2 ^ (b.toNat % 32) := Nat.div_lt_of_lt_mul (hsplit ▸ a.isLt)
  have hlow : a.toNat * 2 ^ (b.toNat % 32) % 2 ^ 32 = 2 ^ (b.toNat % 32) * (a.toNat % 2 ^ (32 - b.toNat % 32)) := by
    rw [hsplit, Nat.mul_mod_mul_right, Nat.mul_comm]
  rw [rotVal, BitVec.toNat_rotateLeft, Nat.mod_eq_of_lt hr, Nat.shiftLeft_eq, Nat.shiftRight_eq_div_pow, hlow, ← Nat.two_pow_add_eq_or_of_lt hhigh]

/-! ### Counts and orders of bits (R84) -/

theorem clzNat_spec {x : Nat} (hx : x < 2 ^ 32) : clzNat 32 x ≤ 32 ∧ x < 2 ^ (32 - clzNat 32 x) ∧ (clzNat 32 x < 32 → 2 ^ (31 - clzNat 32 x) ≤ x) := by
  by_cases h0 : x = 0
  · simp [clzNat, h0]
  · have hlog : x.log2 < 32 := (Nat.log2_lt h0).mpr hx
    have hlen : 32 - (32 - 1 - x.log2) = x.log2 + 1 := by omega
    have htop : 31 - (32 - 1 - x.log2) = x.log2 := by omega
    rw [clzNat, if_neg h0, hlen, htop]
    exact ⟨by omega, Nat.lt_log2_self, fun _ => Nat.log2_self_le h0⟩

theorem clz_toNat_spec (a : W32) : (BitVec.ofNat 32 (clzNat 32 a.toNat)).toNat ≤ 32 ∧ a.toNat < 2 ^ (32 - (BitVec.ofNat 32 (clzNat 32 a.toNat)).toNat) ∧
    ((BitVec.ofNat 32 (clzNat 32 a.toNat)).toNat < 32 → 2 ^ (31 - (BitVec.ofNat 32 (clzNat 32 a.toNat)).toNat) ≤ a.toNat) := by
  have h := clzNat_spec a.isLt
  rw [BitVec.toNat_ofNat, Nat.mod_eq_of_lt (by omega)]
  exact h

theorem popc_toNat (a : W32) : (BitVec.ofNat 32 (popcNat 32 a.toNat)).toNat = (List.range 32).countP a.toNat.testBit := by
  have hle : (List.range 32).countP a.toNat.testBit ≤ 32 := List.countP_le_length
  rw [popcNat, ← List.countP_eq_length_filter, BitVec.toNat_ofNat, Nat.mod_eq_of_lt (by omega)]

/-- Bits shifted in at the bottom one after another: the last is bit 0. -/
theorem testBit_foldl_shiftIn (p : Nat → Bool) (n j : Nat) :
    ((List.range n).foldl (fun r j => 2 * r + (if p j then 1 else 0)) 0).testBit j = (decide (j < n) && p (n - 1 - j)) := by
  induction n generalizing j with
  | zero => simp
  | succ n ih =>
    rw [List.range_succ, List.foldl_append, List.foldl_cons, List.foldl_nil]
    generalize (List.range n).foldl (fun r j => 2 * r + (if p j then 1 else 0)) 0 = r at ih
    cases j with
    | zero => cases h : p n <;> simp [h]
    | succ j =>
      have hhalf : (2 * r + if p n then 1 else 0) / 2 = r := by split <;> omega
      rw [Nat.testBit_add_one, hhalf, ih]
      simp [Nat.sub_sub, Nat.add_comm]

theorem brevVal_testBit (a : W32) {j : Nat} (hj : j < 32) : (brevVal a).toNat.testBit j = a.toNat.testBit (31 - j) := by
  rw [brevVal, BitVec.toNat_ofNat, Nat.testBit_mod_two_pow, testBit_foldl_shiftIn, decide_eq_true hj, Bool.true_and, Bool.true_and, BitVec.testBit_toNat]

theorem bswapVal_lane (a : W32) {j : Nat} (hj : j < 4) : lane 8 j (bswapVal a).toNat = lane 8 (3 - j) a.toNat := by
  obtain rfl | rfl | rfl | rfl : j = 0 ∨ j = 1 ∨ j = 2 ∨ j = 3 := by omega
  · rw [bswapVal, lane_zero_append, ← toNat_extractLsb'_eq_lane]
  · rw [bswapVal, lane_succ_append, lane_zero_append, ← toNat_extractLsb'_eq_lane]
  · rw [bswapVal, lane_succ_append, lane_succ_append, lane_zero_append, ← toNat_extractLsb'_eq_lane]
  · rw [bswapVal, lane_succ_append, lane_succ_append, lane_succ_append, lane_zero_self, ← toNat_extractLsb'_eq_lane]

/-! ### Bit fields (R85) -/

theorem fieldPos_eq (c : W32) : fieldPos c = pos c.toNat := by
  simp [fieldPos, pos, bits]

theorem fieldLen_eq (c : W32) : fieldLen c = len c.toNat := by
  simp [fieldLen, len, bits, fieldPos_eq]

theorem len_le (c : Nat) : len c ≤ 32 := by
  unfold len
  omega

theorem field_lt (a c : Nat) : a / 2 ^ pos c % 2 ^ len c < 2 ^ 32 :=
  lt_of_lt_of_le (Nat.mod_lt _ (Nat.two_pow_pos _)) (Nat.pow_le_pow_right (by decide) (len_le c))

theorem bfxZ_toNat (a b : W32) : (bfxVal false a b).toNat = a.toNat / 2 ^ pos b.toNat % 2 ^ len b.toNat := by
  simp only [bfxVal, fieldPos_eq, fieldLen_eq, Bool.false_eq_true, if_false]
  exact Nat.mod_eq_of_lt (field_lt _ _)

theorem sv_mod (x w : Nat) : sv (x % 2 ^ w) w = sgn w (x % 2 ^ w) := by
  rw [sv, Nat.mod_mod]
  rfl

theorem bfxS_toNat (a b : W32) : (bfxVal true a b).toNat =
    if len b.toNat = 0 then 0 else wrap 32 (sgn (len b.toNat) (a.toNat / 2 ^ pos b.toNat % 2 ^ len b.toNat)) := by
  simp only [bfxVal, fieldPos_eq, fieldLen_eq, if_true]
  rw [toNat_ofInt_eq_wrap, sv_mod]
  split
  · next h => rw [h, pow_zero, Nat.mod_one]; rfl
  · rfl

/-! ### Carry-less products (R86) -/

theorem decide_odd_add_ite (n : Nat) (b : Bool) : decide ((n + if b then 1 else 0) % 2 = 1) = (decide (n % 2 = 1) ^^ b) := by
  cases b
  · simp
  · by_cases h : n % 2 = 1 <;> simp [h] <;> omega

theorem testBit_foldl_clmul (a b : W32) (n k : Nat) :
    ((List.range n).foldl (fun p j => if b.getLsbD j then p ^^^ (a.toNat * 2 ^ j) else p) 0).testBit k =
      decide ((List.range n).countP (fun j => decide (j ≤ k) && b.toNat.testBit j && a.toNat.testBit (k - j)) % 2 = 1) := by
  induction n with
  | zero => simp
  | succ n ih =>
    rw [List.range_succ, List.foldl_append, List.foldl_cons, List.foldl_nil, List.countP_append, List.countP_singleton, decide_odd_add_ite, ← ih,
      BitVec.testBit_toNat]
    cases b.getLsbD n
    · simp
    · simp [Nat.testBit_xor, Nat.testBit_mul_two_pow]

theorem clmulNat_testBit (a b : W32) (k : Nat) : (clmulNat a b).testBit k = clmulBit a.toNat b.toNat k :=
  testBit_foldl_clmul a b 32 k

theorem clmulLo_testBit (a b : W32) {k : Nat} (hk : k < 32) : (BitVec.ofNat 32 (clmulNat a b)).toNat.testBit k = clmulBit a.toNat b.toNat k := by
  rw [BitVec.toNat_ofNat, Nat.testBit_mod_two_pow, decide_eq_true hk, Bool.true_and, clmulNat_testBit]

theorem clmulHi_testBit (a b : W32) {k : Nat} (hk : k < 32) :
    (BitVec.ofNat 32 (clmulNat a b / 2 ^ 32)).toNat.testBit k = clmulBit a.toNat b.toNat (32 + k) := by
  rw [BitVec.toNat_ofNat, Nat.testBit_mod_two_pow, decide_eq_true hk, Bool.true_and, Nat.testBit_div_two_pow, Nat.add_comm, clmulNat_testBit]

theorem wholeWords : Spec.WholeWords := by
  show ∀ e ∈ wholeOps, WholeWord e
  simp only [wholeOps, List.forall_mem_cons, List.not_mem_nil, false_implies, implies_true, and_true]
  refine ⟨?addsh, ?mulHiS, ?mulHiZ, ?and, ?or, ?xor, ?andn, ?rot, ?clz, ?popc, ?brev, ?bswap, ?bfxZ, ?bfxS, ?clmulLo, ?clmulHi, ?mov⟩
  case addsh => exact wholeWord_of_toNat (fun _ _ => rfl) fun w a b => addsh_toNat a b _
  case mulHiS => exact wholeWord_of_toNat (fun _ _ => rfl) fun _ => mulHiS_toNat
  case mulHiZ => exact wholeWord_of_toNat (fun _ _ => rfl) fun _ => mulHiZ_toNat
  case and => exact wholeWord_of_toNat (fun _ _ => rfl) fun _ a b j _ => by rw [BitVec.toNat_and, Nat.testBit_and]
  case or => exact wholeWord_of_toNat (fun _ _ => rfl) fun _ a b j _ => by rw [BitVec.toNat_or, Nat.testBit_or]
  case xor => exact wholeWord_of_toNat (fun _ _ => rfl) fun _ a b j _ => by rw [BitVec.toNat_xor, Nat.testBit_xor]
  case andn =>
    refine wholeWord_of_toNat (fun _ _ => rfl) fun _ a b j hj => ?_
    rw [BitVec.toNat_and, Nat.testBit_and, BitVec.testBit_toNat (~~~b), BitVec.getLsbD_not, decide_eq_true hj, Bool.true_and, BitVec.testBit_toNat b]
  case rot => exact wholeWord_of_toNat (fun _ _ => rfl) fun _ => rotVal_toNat
  case clz => exact wholeWord_of_toNat (fun _ _ => rfl) fun _ a _ => clz_toNat_spec a
  case popc => exact wholeWord_of_toNat (fun _ _ => rfl) fun _ a _ => popc_toNat a
  case brev => exact wholeWord_of_toNat (fun _ _ => rfl) fun _ a _ _ => brevVal_testBit a
  case bswap => exact wholeWord_of_toNat (fun _ _ => rfl) fun _ a _ _ => bswapVal_lane a
  case bfxZ => exact wholeWord_of_toNat (fun _ _ => rfl) fun _ => bfxZ_toNat
  case bfxS => exact wholeWord_of_toNat (fun _ _ => rfl) fun _ => bfxS_toNat
  case clmulLo => exact wholeWord_of_toNat (fun _ _ => rfl) fun _ a b _ => clmulLo_testBit a b
  case clmulHi => exact wholeWord_of_toNat (fun _ _ => rfl) fun _ a b _ => clmulHi_testBit a b
  case mov => exact wholeWord_of_toNat (fun _ _ => rfl) fun _ _ _ => rfl

/-! ## The three-source words (R79, R80, R83, R85, R88) -/

/-- What an entry of the table of three-source opcodes states. -/
def ThreeWord (e : (C3 → Instr) × Nat × (C3 → Nat → Nat → Nat → Nat → Prop)) : Prop :=
  ∀ (w : C3) (s : State), Issues s w.stg w.grd → HeadsReady s (issue s w.stg).live (named [w.sa, w.sb, w.sc]) →
    ∃ t v, exec (e.1 w) s = .next t ∧
      Issued s t (named [w.sa, w.sb, w.sc]) (issue s w.stg).live [valueSlot s w.stg e.2.1 w.dq w.wq w.out v] (s.cell s.focus.region s.focus.unit).lfsr ∧
      e.2.2 w (s.src (issue s w.stg) w.sa 0).toNat (s.src (issue s w.stg) w.sb 0).toNat (s.src (issue s w.stg) w.sc 0).toNat v.toNat

theorem threeWord_of_toNat {mk : C3 → Instr} {lat : Nat} {f : C3 → W32 → W32 → W32 → W32} {op : C3 → Nat → Nat → Nat → Nat → Prop}
    (hexec : ∀ w s, exec (mk w) s = .next (valueWord3 lat w (f w) s)) (hop : ∀ w a b c, op w a.toNat b.toNat c.toNat (f w a b c).toNat) :
    ThreeWord (mk, lat, op) :=
  fun w s hi hr => ⟨_, _, hexec w s, valueWord3_issued hi hr lat _, hop w _ _ _⟩

theorem addcVal_toNat (co : Bool) (a b c : W32) : (addcVal co a b c).toNat =
    if co then (a.toNat + b.toNat + c.toNat % 2) / 2 ^ 32 else (a.toNat + b.toNat + c.toNat % 2) % 2 ^ 32 := by
  cases co
  · rfl
  · have hcarry : (a.toNat + b.toNat + c.toNat % 2) / 2 ^ 32 < 2 ^ 32 := by omega
    exact Nat.mod_eq_of_lt hcarry

theorem subbVal_toNat (co : Bool) (a b c : W32) : (subbVal co a b c).toNat =
    if co then (if (a.toNat : Int) - b.toNat - (c.toNat % 2 : Nat) < 0 then 1 else 0)
    else wrap 32 ((a.toNat : Int) - b.toNat - (c.toNat % 2 : Nat)) := by
  cases co
  · have hbit : (c &&& 1).toNat = c.toNat % 2 := by rw [BitVec.toNat_and]; exact Nat.and_one_is_mod _
    simp only [subbVal, Bool.false_eq_true, if_false, wrap]
    rw [BitVec.toNat_sub, BitVec.toNat_sub, hbit]
    omega
  · have hborrow : (a.toNat : Int) - b.toNat - (c.toNat % 2 : Nat) < 0 ↔ a.toNat < b.toNat + c.toNat % 2 := by omega
    simp only [subbVal, if_true, hborrow]
    split <;> rfl

theorem mad_toNat (a b c : W32) : (a * b + c).toNat = (a.toNat * b.toNat + c.toNat) % 2 ^ 32 := by
  rw [BitVec.toNat_add, BitVec.toNat_mul, Nat.mod_add_mod]

theorem foldl_add_range (f : Nat → Int) (n : Nat) : ((List.range n).map f).foldl (· + ·) 0 = ∑ j ∈ Finset.range n, f j := by
  induction n with
  | zero => rfl
  | succ n ih => rw [List.range_succ, List.map_append, List.foldl_append, ih, Finset.sum_range_succ]; rfl

theorem dotVal_toNat (n k : Nat) (a b c : W32) :
    (dotVal n k a b c).toNat = wrap 32 (c.toNat + ∑ j ∈ Finset.range k, sgn n (lane n j a.toNat) * sgn n (lane n j b.toNat)) := by
  simp only [dotVal, foldl_add_range, ← toNat_extractLsb'_eq_lane, sgn_toNat]
  rw [← toNat_ofInt_eq_wrap, BitVec.ofInt_add, BitVec.ofInt_add, BitVec.ofInt_toInt, BitVec.ofInt_natCast, BitVec.ofNat_toNat, BitVec.setWidth_eq]

theorem sel_toNat (a b c : W32) : (if c ≠ 0 then a else b).toNat = if c.toNat = 0 then b.toNat else a.toNat := by
  simp only [ne_eq, ite_not, toNat_eq_zero_iff, apply_ite BitVec.toNat]

/-- The mask of a bit field. -/
theorem testBit_fieldMask (n p j : Nat) : ((2 ^ n - 1) * 2 ^ p).testBit j = decide (p ≤ j ∧ j < p + n) := by
  rw [Nat.testBit_mul_two_pow, Nat.testBit_two_pow_sub_one, ← Bool.decide_and]
  exact decide_eq_decide.mpr (by omega)

theorem bfiVal_testBit (a b c : W32) {j : Nat} (hj : j < 32) : (bfiVal a b c).toNat.testBit j =
    if pos c.toNat ≤ j ∧ j < pos c.toNat + len c.toNat then b.toNat.testBit (j - pos c.toNat) else a.toNat.testBit j := by
  simp only [bfiVal, fieldPos_eq, fieldLen_eq, BitVec.testBit_toNat, BitVec.getLsbD_or, BitVec.getLsbD_and, BitVec.getLsbD_not, BitVec.getLsbD_ofNat,
    decide_eq_true hj, Bool.true_and]
  rw [testBit_fieldMask, Nat.testBit_mul_two_pow, Nat.testBit_mod_two_pow, BitVec.testBit_toNat]
  by_cases h : pos c.toNat ≤ j ∧ j < pos c.toNat + len c.toNat
  · have hlen : j - pos c.toNat < len c.toNat := by omega
    simp [h, hlen]
  · have hout : (decide (pos c.toNat ≤ j) && decide (j - pos c.toNat < len c.toNat)) = false := by
      rw [← Bool.decide_and]; exact decide_eq_false (by omega)
    rw [← Bool.and_assoc, hout, if_neg h, decide_eq_false h]
    simp

theorem threeSourceWords : Spec.ThreeSourceWords := by
  show ∀ e ∈ threeOps, ThreeWord e
  simp only [threeOps, List.forall_mem_cons, List.not_mem_nil, false_implies, implies_true, and_true]
  refine ⟨?addc, ?subb, ?mad, ?dot4S8, ?dot2S16, ?funnel, ?bfi, ?sel⟩
  case addc => exact threeWord_of_toNat (fun _ _ => rfl) fun w => addcVal_toNat _
  case subb => exact threeWord_of_toNat (fun _ _ => rfl) fun w => subbVal_toNat _
  case mad => exact threeWord_of_toNat (fun _ _ => rfl) fun _ => mad_toNat
  case dot4S8 => exact threeWord_of_toNat (fun _ _ => rfl) fun _ => dotVal_toNat 8 4
  case dot2S16 => exact threeWord_of_toNat (fun _ _ => rfl) fun _ => dotVal_toNat 16 2
  case funnel => exact threeWord_of_toNat (fun _ _ => rfl) fun _ _ _ _ => BitVec.toNat_ofNat ..
  case bfi => exact threeWord_of_toNat (fun _ _ => rfl) fun _ a b c _ => bfiVal_testBit a b c
  case sel => exact threeWord_of_toNat (fun _ _ => rfl) fun _ => sel_toNat

/-! ## Immediates (R89) -/

theorem signExtend_toNat_eq_wrap {n m : Nat} (x : BitVec n) (h : n ≤ m) : (x.signExtend m).toNat = wrap m (sgn n x.toNat) := by
  rw [toNat_eq_wrap, BitVec.toInt_signExtend_of_le h, sgn_toNat]

theorem hi16_toNat (x : BitVec 20) (q : W32) : (x.extractLsb' 0 16 ++ q.extractLsb' 0 16).toNat = (x.toNat % 2 ^ 16) * 2 ^ 16 + q.toNat % 2 ^ 16 := by
  rw [BitVec.toNat_append, ← Nat.shiftLeft_add_eq_or_of_lt (BitVec.isLt _), Nat.shiftLeft_eq, BitVec.extractLsb'_toNat, BitVec.extractLsb'_toNat,
    Nat.shiftRight_zero, Nat.shiftRight_zero]

theorem immediateWords : Spec.ImmediateWords := fun w _ hi =>
  ⟨⟨_, _, rfl, signExtend_toNat_eq_wrap w.imm (by decide), immWord_issued hi _⟩, ⟨_, _, rfl, hi16_toNat w.imm _, immWord_issued hi _⟩⟩

/-- Settles O1: each word by its issue, and each operation by its value as a number. -/
theorem integerWords : Obligations.IntegerWords := ⟨laneWords, wholeWords, threeSourceWords, immediateWords⟩

end Sys2Proof.Proofs.CellInteger
end

