-- ==== Sys2Proof/Proofs/CellCompare.lean ====
section
/-! PROOFS. The words that write a predicate of values: comparisons, PSET and PTEST, and FCMP, whose decoded operands are ordered as the numbers that
they stand for (R87, R91, R94, R109, R139); settles O3. -/
namespace Sys2Proof.Proofs.CellCompare

open Machine Spec UnitIssue CellIssue Arith

/-! ## Integer comparisons, PSET and PTEST (R87, R139) -/

/-- What an entry of the table of tests states. -/
def TestWord (e : (C2 → Instr) × (C2 → Nat → Nat → Prop)) : Prop :=
  ∀ (w : C2) (s : State), Issues s w.stg w.grd → HeadsReady s (issue s w.stg).live (named [w.sa, w.sb]) →
    ∃ t v, exec (e.1 w) s = .next t ∧
      Issued s t (named [w.sa, w.sb]) (issue s w.stg).live [predSlot s w.stg 1 w.dq v] (s.cell s.focus.region s.focus.unit).lfsr ∧
      (v = true ↔ e.2 w (s.src (issue s w.stg) w.sa w.imm8).toNat (s.src (issue s w.stg) w.sb w.imm8).toNat)

/-- A test delivers its relation of the sources, which holds of them as numbers where the table's does. -/
theorem testWord_of_toNat {mk : C2 → Instr} {f : C2 → W32 → W32 → Bool} {op : C2 → Nat → Nat → Prop}
    (hexec : ∀ w s, exec (mk w) s = .next (predWord2 1 w (f w) s)) (hop : ∀ w a b, f w a b = true ↔ op w a.toNat b.toNat) : TestWord (mk, op) :=
  fun w s hi hr => ⟨_, _, hexec w s, predWord2_issued hi hr 1 _, hop w _ _⟩

theorem testWords : Spec.TestWords := by
  show ∀ e ∈ testOps, TestWord e
  simp only [testOps, List.forall_mem_cons, List.not_mem_nil, false_implies, implies_true, and_true]
  refine ⟨?cmpEq, ?cmpNe, ?cmpLtS, ?cmpLtZ, ?cmpLeS, ?cmpLeZ, ?pset, ?ptest⟩
  case cmpEq =>
    refine testWord_of_toNat (fun _ _ => rfl) fun _ a b => ?_
    rw [CmpRel.holds, beq_iff_eq, BitVec.toNat_inj]
  case cmpNe =>
    refine testWord_of_toNat (fun _ _ => rfl) fun _ a b => ?_
    rw [CmpRel.holds, bne_iff_ne, ne_eq, ne_eq, BitVec.toNat_inj]
  case cmpLtS =>
    refine testWord_of_toNat (fun _ _ => rfl) fun _ a b => ?_
    rw [CmpRel.holds, BitVec.slt_iff_toInt_lt, sgn_toNat, sgn_toNat]
  case cmpLtZ => exact testWord_of_toNat (fun _ _ => rfl) fun _ a b => BitVec.ult_iff_toNat_lt
  case cmpLeS =>
    refine testWord_of_toNat (fun _ _ => rfl) fun _ a b => ?_
    rw [CmpRel.holds, BitVec.sle_iff_toInt_le, sgn_toNat, sgn_toNat]
  case cmpLeZ => exact testWord_of_toNat (fun _ _ => rfl) fun _ a b => BitVec.ule_iff_toNat_le
  case pset =>
    refine testWord_of_toNat (fun _ _ => rfl) fun _ a b => ?_
    rw [bne_iff_ne, ne_eq, ne_eq, toNat_eq_zero_iff]
  case ptest =>
    refine testWord_of_toNat (fun _ _ => rfl) fun w a b => ?_
    have hbits : bits w.imm8.toNat 4 0 = w.imm8.toNat % 32 := by simp [bits]
    rw [hbits, BitVec.testBit_toNat]

/-! ## What a decoded operand stands for (R91, R94, R95) -/

/-- The format of R91 that a format of the model is. -/
def formatOf : Fmt → FloatFormat
  | .f32 => fp32
  | .bf16 => bf16
  | .f16 => fp16
  | .e4m3 => e4m3
  | .e5m2 => e5m2
  | .e2m1 => e2m1

/-- The number that a sign, a magnitude and an exponent make. -/
def signedValue (neg : Bool) (m : Nat) (e : Int) : ℚ := if neg then -(m * (2 : ℚ) ^ e) else m * (2 : ℚ) ^ e

/-- What an exact value of the model stands for; the mantissa of a NaN is aligned to 23 bits. -/
def exactOf : FVal → Exact
  | .num neg m e => if m = 0 then .zero neg else .real (signedValue neg m e)
  | .inf neg => .infinite neg
  | .nan src => .nan (src.map fun n => (n.1, n.2.1 * 2 ^ (23 - n.2.2)))

theorem exactOf_isNan (x : FVal) : (exactOf x).isNan = x.isNan := by
  cases x with
  | num neg m e => by_cases h : m = 0 <;> simp [exactOf, h, Exact.isNan, FVal.isNan]
  | inf | nan => rfl

/-! ### The fields of a code (R91) -/

theorem signOf_mod (f : Fmt) (c : Nat) : signOf f (c % 2 ^ f.width) = decide (c / 2 ^ ((formatOf f).width - 1) % 2 = 1) := by
  rw [signOf, Nat.testBit_mod_two_pow, Nat.testBit_eq_decide_div_mod_eq]
  cases f <;> rfl

theorem expOf_mod (f : Fmt) (c : Nat) : expOf f (c % 2 ^ f.width) = c % 2 ^ (f.width - 1) / 2 ^ f.man := by
  cases f <;> simp only [expOf, bits, Fmt.width, Fmt.man] <;> omega

theorem manOf_mod (f : Fmt) (c : Nat) : manOf f (c % 2 ^ f.width) = c % 2 ^ (f.width - 1) % 2 ^ f.man := by
  cases f <;> simp only [manOf, Fmt.width, Fmt.man] <;> omega

theorem magnitude_mod (f : Fmt) (c : Nat) : c % 2 ^ f.width % 2 ^ (f.width - 1) = c % 2 ^ (f.width - 1) := by
  cases f <;> simp only [Fmt.width] <;> omega

theorem formatOf_spec (f : Fmt) : (formatOf f).man = f.man ∧ (formatOf f).width = f.width ∧ (formatOf f).bias = f.bias ∧
    (formatOf f).largest = f.maxCode ∧ (formatOf f).infinity = f.infCode := by
  cases f <;> exact ⟨rfl, rfl, rfl, rfl, rfl⟩

/-- E2M1 has no NaN: its magnitudes end with the largest finite one (R91). -/
theorem isNanCode_iff (f : Fmt) (c : Nat) : (f ≠ .e2m1 ∧ c % 2 ^ (f.width - 1) > f.maxCode) ↔ f.maxCode < c % 2 ^ (f.width - 1) := by
  refine ⟨And.right, fun h => ⟨?_, h⟩⟩
  rintro rfl
  simp only [Fmt.maxCode, Fmt.width] at h
  omega

/-- A subnormal stands on the lowest grid. -/
theorem signedValue_subnormal (f : Fmt) (neg : Bool) {mag : Nat} (h : mag / 2 ^ f.man = 0) :
    (if neg then -magValue (formatOf f) mag else magValue (formatOf f) mag) = signedValue neg mag f.ulow := by
  obtain ⟨hman, -, hbias, -, -⟩ := formatOf_spec f
  rw [magValue, hman, hbias, if_pos h]
  rfl

/-- A normal number stands on the grid of its exponent. -/
theorem signedValue_normal (f : Fmt) (neg : Bool) {mag : Nat} (h : mag / 2 ^ f.man ≠ 0) :
    (if neg then -magValue (formatOf f) mag else magValue (formatOf f) mag) =
      signedValue neg (2 ^ f.man + mag % 2 ^ f.man) (f.ulow + (((mag / 2 ^ f.man : Nat) : Int) - 1)) := by
  obtain ⟨hman, -, hbias, -, -⟩ := formatOf_spec f
  have hexp : f.ulow + (((mag / 2 ^ f.man : Nat) : Int) - 1) = ((mag / 2 ^ f.man : Nat) : Int) - f.bias - f.man := by
    rw [show f.ulow = 1 - (f.bias : Int) - f.man from rfl]; ring
  rw [hexp, magValue, hman, hbias, if_neg h]
  rfl

/-- Decoding gives what the bits stand for. -/
theorem readFloat_eq_exactOf (f : Fmt) (fin : Bool) (c : Nat) : readFloat (formatOf f) fin c = exactOf (decodeF f fin c) := by
  obtain ⟨hman, hwidth, -, hlargest, hinf⟩ := formatOf_spec f
  simp only [readFloat, decodeF, signOf_mod, expOf_mod, manOf_mod, magnitude_mod, isNanCode_iff, hman, hwidth, hlargest, hinf]
  generalize c % 2 ^ (f.width - 1) = mag
  generalize decide (c / 2 ^ (f.width - 1) % 2 = 1) = neg
  have hexp : mag / 2 ^ f.man = 0 ↔ mag < 2 ^ f.man := Nat.div_eq_zero_iff_lt (Nat.two_pow_pos _)
  by_cases hi : f.infCode = some mag
  · rw [if_pos hi, if_pos hi]; rfl
  rw [if_neg hi, if_neg hi]
  by_cases hn : f.maxCode < mag
  · rw [if_pos hn, if_pos hn]; rfl
  rw [if_neg hn, if_neg hn]
  by_cases he : mag / 2 ^ f.man = 0
  · have hm : mag < 2 ^ f.man := hexp.mp he
    rw [if_pos he, signedValue_subnormal f neg he, Nat.mod_eq_of_lt hm]
    cases fin
    · by_cases h0 : mag = 0 <;> simp [exactOf, h0]
    · simp [exactOf, hm]
  · have hm : ¬ mag < 2 ^ f.man := mt hexp.mpr he
    have h0 : mag ≠ 0 := fun h => hm (h ▸ Nat.two_pow_pos _)
    rw [if_neg he, signedValue_normal f neg he]
    simp [exactOf, h0, hm]

/-! ### The order of decoded operands (R109) -/

/-- A magnitude on a grid at or below its own exponent, times the unit of the grid, is its value. -/
theorem onGrid_mul {g : Int} (neg : Bool) (m : Nat) {e : Int} (h : g ≤ e) : ((FVal.num neg m e).onGrid g : ℚ) * (2 : ℚ) ^ g = signedValue neg m e := by
  have hpow : (2 : ℚ) ^ e = (2 : ℚ) ^ (e - g).toNat * (2 : ℚ) ^ g := by
    rw [← zpow_natCast, ← zpow_add₀ (by norm_num), Int.toNat_of_nonneg (by omega), Int.sub_add_cancel]
  cases neg <;> simp only [FVal.onGrid, signedValue, hpow, if_true, Bool.false_eq_true, if_false] <;> push_cast <;> ring

theorem ltExact_num (s t : Bool) (m n : Nat) (e f : Int) :
    ltExact (.num s m e) (.num t n f) = decide (signedValue s m e < signedValue t n f) := by
  rw [ltExact, ← onGrid_mul s m (min_le_left e f), ← onGrid_mul t n (min_le_right e f)]
  refine decide_eq_decide.mpr ?_
  rw [mul_lt_mul_iff_of_pos_right (by positivity), Int.cast_lt]

theorem exactOf_num_value (s : Bool) (m : Nat) (e : Int) : (exactOf (.num s m e)).value = signedValue s m e := by
  by_cases h : m = 0
  · cases s <;> simp [exactOf, h, Exact.value, signedValue]
  · simp [exactOf, h, Exact.value]

theorem lessX_num (s t : Bool) (m n : Nat) (e f : Int) :
    lessX true (exactOf (.num s m e)) (exactOf (.num t n f)) = decide (signedValue s m e < signedValue t n f) := by
  rw [← exactOf_num_value, ← exactOf_num_value]
  refine Bool.eq_iff_iff.mpr ?_
  by_cases hm : m = 0 <;> by_cases hn : n = 0 <;> simp [exactOf, hm, hn, lessX, Exact.value]
  all_goals exact decide_eq_true_iff

/-- Of operands that are not NaN, the exact order is the order of what they stand for. -/
theorem ltExact_eq_lessX {x y : FVal} (hx : x.isNan = false) (hy : y.isNan = false) : ltExact x y = lessX true (exactOf x) (exactOf y) := by
  cases x with
  | nan src => cases hx
  | inf s =>
    cases y with
    | nan src => cases hy
    | inf t => rfl
    | num t n f => by_cases hn : n = 0 <;> simp [exactOf, hn, lessX, ltExact]
  | num s m e =>
    cases y with
    | nan src => cases hy
    | inf t => by_cases hm : m = 0 <;> simp [exactOf, hm, lessX, ltExact]
    | num t n f => rw [ltExact_num, lessX_num]

/-- A relation of numbers that no NaN is in. -/
theorem not_un_and_eq {x y : FVal} {p q : Bool} (h : x.isNan = false → y.isNan = false → p = q) :
    (!(x.isNan || y.isNan) && p) = (!x.isNan && !y.isNan && q) := by
  cases hx : x.isNan <;> cases hy : y.isNan <;> simp [h, hx, hy]

theorem lessX_of_isNan {x y : Exact} (h : x.isNan = true ∨ y.isNan = true) : lessX true x y = false := by
  rcases h with h | h
  · cases x with
    | nan src => cases y <;> rfl
    | infinite | zero | real => cases h
  · cases y with
    | nan src => cases x <;> rfl
    | infinite | zero | real => cases h

/-- No NaN is less than another operand. -/
theorem not_un_and_ltExact (x y : FVal) : (!(x.isNan || y.isNan) && ltExact x y) = lessX true (exactOf x) (exactOf y) := by
  cases hx : x.isNan
  · cases hy : y.isNan
    · exact ltExact_eq_lessX hx hy
    · exact (lessX_of_isNan (.inr (by rw [exactOf_isNan, hy]))).symm
  · exact (lessX_of_isNan (.inl (by rw [exactOf_isNan, hx]))).symm

/-! ## FCMP (R109) -/

/-- What an entry of the table of floating-point comparisons states. -/
def FcmpWord (e : (C2 → Instr) × (Exact → Exact → Bool)) : Prop :=
  ∀ (w : C2) (s : State), Issues s w.stg w.grd → HeadsReady s (issue s w.stg).live (named [w.sa, w.sb]) →
    ∃ t, exec (e.1 w) s = .next t ∧
      Issued s t (named [w.sa, w.sb]) (issue s w.stg).live
        [predSlot s w.stg 2 w.dq (e.2
          (readFloat fp32 ((s.policy s.focus.region w.fpm).getLsbD 0) (s.src (issue s w.stg) w.sa w.imm8).toNat)
          (readFloat fp32 ((s.policy s.focus.region w.fpm).getLsbD 0) (s.src (issue s w.stg) w.sb w.imm8).toNat))]
        (s.cell s.focus.region s.focus.unit).lfsr

theorem fcmpWord_of_holds {mk : C2 → Instr} {r : FcmpRel} {op : Exact → Exact → Bool} (hexec : ∀ w s, exec (mk w) s = .next (fcmpWord r w s))
    (hop : ∀ p a b, r.holds p a b = op (exactOf (decodeF .f32 (polFin p) a.toNat)) (exactOf (decodeF .f32 (polFin p) b.toNat))) : FcmpWord (mk, op) := by
  intro w s hi hr
  refine ⟨_, hexec w s, ?_⟩
  have hissued := predWord2_issued hi hr 2 (r.holds (s.policy s.focus.region w.fpm))
  rw [hop, ← readFloat_eq_exactOf, ← readFloat_eq_exactOf] at hissued
  exact hissued

theorem floatCompareWords : Spec.FloatCompareWords := by
  show ∀ e ∈ fcmpOps, FcmpWord e
  simp only [fcmpOps, List.forall_mem_cons, List.not_mem_nil, false_implies, implies_true, and_true]
  refine ⟨?un, ?lt, ?le, ?eq⟩
  case un =>
    refine fcmpWord_of_holds (r := .un) (fun _ _ => rfl) fun p a b => ?_
    rw [exactOf_isNan, exactOf_isNan, FcmpRel.holds]
  case lt =>
    exact fcmpWord_of_holds (r := .lt) (fun _ _ => rfl) fun p a b => not_un_and_ltExact _ _
  case le =>
    refine fcmpWord_of_holds (r := .le) (fun _ _ => rfl) fun p a b => ?_
    simp only [FcmpRel.holds, exactOf_isNan]
    exact not_un_and_eq fun hx hy => by rw [ltExact_eq_lessX hy hx]
  case eq =>
    refine fcmpWord_of_holds (r := .eq) (fun _ _ => rfl) fun p a b => ?_
    simp only [FcmpRel.holds, exactOf_isNan, Bool.and_assoc]
    rw [not_un_and_eq fun hx hy => by rw [ltExact_eq_lessX hx hy, ltExact_eq_lessX hy hx], Bool.and_assoc]

/-- Settles O3: a test's value is its relation of the sources as numbers, and FCMP's that of the numbers that the operands stand for. -/
theorem testAndCompareWords : Obligations.TestAndCompareWords := ⟨testWords, floatCompareWords⟩

end Sys2Proof.Proofs.CellCompare
end

