-- ==== Sys2Proof/Proofs/CellLanding.lean ====
section
/-! PROOFS. Landings of a cell: what a due slot of each kind does, the lanes that a PSEND reaches, and the release of an ORDMK (R69, R76, R122, R126,
R129, R139, R159, R174). -/
namespace Sys2Proof.Proofs.CellLanding

open Machine Spec

/-! ## The due slots of a list -/

/-- Of slots of which one alone is due, that one lands and the others come nearer. -/
theorem filter_due {α : Type} (dist : α → Nat) {pre post : List α} {sl : α} (hdue : dist sl = 1) (hothers : ∀ x ∈ pre ++ post, dist x ≠ 1) :
    (pre ++ sl :: post).filter (fun x => dist x == 1) = [sl] ∧ (pre ++ sl :: post).filter (fun x => dist x != 1) = pre ++ post := by
  have hnone : ∀ l : List α, (∀ x ∈ l, dist x ≠ 1) → l.filter (fun x => dist x == 1) = [] ∧ l.filter (fun x => dist x != 1) = l := fun l h =>
    ⟨List.filter_eq_nil_iff.mpr fun x hx => by simpa using h x hx, List.filter_eq_self.mpr fun x hx => by simpa using h x hx⟩
  obtain ⟨hpre, hpre'⟩ := hnone pre fun x hx => hothers x (List.mem_append_left _ hx)
  obtain ⟨hpost, hpost'⟩ := hnone post fun x hx => hothers x (List.mem_append_right _ hx)
  constructor
  · rw [List.filter_append, List.filter_cons_of_pos (by simpa using hdue), hpre, hpost, List.nil_append]
  · rw [List.filter_append, List.filter_cons_of_neg (by simpa using hdue), hpre', hpost']

/-! ## Changes of cells alone -/

/-- Only cells change, in whatever regions. -/
structure CellsOnly (s t : State) : Prop where
  rest : t = { s with regions := t.regions }
  region : ∀ r, t.region r = { s.region r with cells := (t.region r).cells }

theorem CellsOnly.refl (s : State) : CellsOnly s s := ⟨rfl, fun _ => rfl⟩

theorem CellsOnly.trans {s t v : State} (a : CellsOnly s t) (b : CellsOnly t v) : CellsOnly s v where
  rest := by rw [b.rest, a.rest]
  region r := by rw [b.region, a.region]

theorem setCell_cellsOnly (s : State) (r u : Nat) (c : Cell) : CellsOnly s (s.setCell r u c) where
  rest := rfl
  region k := by
    rw [setCell_region]
    split
    · next h => rw [h]
    · rfl

section
variable {s t : State} (h : CellsOnly s t)
include h

theorem CellsOnly.page (k : Nat) : t.page k = s.page k := by
  rw [h.rest]
  rfl

theorem CellsOnly.holder (k : Nat) : (t.region k).holder = (s.region k).holder := by rw [h.region]

theorem CellsOnly.laneRoutes (k : Nat) : (t.region k).laneRoutes = (s.region k).laneRoutes := by rw [h.region]

theorem CellsOnly.pageOf (k : Nat) : t.pageOf k = s.pageOf k := by rw [State.pageOf, h.holder]; rfl

theorem CellsOnly.sregOf (k : Nat) : t.sregOf k = s.sregOf k := by rw [State.sregOf, h.holder]; rfl

theorem CellsOnly.regionsOf (k : Nat) : t.regionsOf k = s.regionsOf k := by
  simp only [State.regionsOf, h.page, h.holder]

theorem CellsOnly.mn (k : Nat) : t.mn k = s.mn k := by
  rw [State.mn, h.region]
  rfl

end

theorem onlyCell_refl (s : State) (r u : Nat) : OnlyCell s s r u := ⟨rfl, fun _ _ => rfl, rfl, fun _ _ => rfl⟩

theorem onlyCell_trans {s t v : State} {r u : Nat} (a : OnlyCell s t r u) (b : OnlyCell t v r u) : OnlyCell s v r u where
  rest := by rw [b.rest, a.rest]
  regions k h := by rw [b.regions k h, a.regions k h]
  region := by rw [b.region, a.region]
  cells k h := by rw [b.cells k h, a.cells k h]

theorem setCell_onlyCell (s : State) (r u : Nat) (c : Cell) : OnlyCell s (s.setCell r u c) r u where
  rest := rfl
  regions k h := by simp [setCell_region, h]
  region := by simp [setCell_region]
  cells k h := by simp [setCell_cell, h]

theorem onlyCell_cellsOnly {s t : State} {r u : Nat} (h : OnlyCell s t r u) : CellsOnly s t where
  rest := h.rest
  region k := by
    by_cases hk : k = r
    · subst hk; exact h.region
    · rw [h.regions k hk]

/-! ## Values and tokens (R35, R69, R122) -/

/-- A cell with a value landed. -/
def valued (c : Cell) (sl : Slot) : Cell :=
  { c with ores := sl.value, q := if sl.wq then c.q.set (sl.dest % 16) sl.value (Nat.mod_lt _ (by decide)) else c.q }

/-- A cell with a token pushed: it takes the cell's rank where that is higher. -/
def pushed (c : Cell) (data : W32) (rank : BitVec 2) (ord : Bool) (rel : Option Rel) : Cell :=
  { c with pr := 0, outq := { c.outq with toks := c.outq.toks ++ [⟨⟨data, if rank.toNat < c.pr.toNat then c.pr else rank, ord, false⟩, rel, 0, false⟩] } }

theorem landValue_eq (s : State) (r u : Nat) (sl : Slot) : s.landValue r u sl = s.setCell r u (valued (s.cell r u) sl) := by
  simp only [State.landValue, valued]
  split <;> rfl

theorem pushCell_eq (s : State) (r u : Nat) (data : W32) (rank : BitVec 2) (ord : Bool) (rel : Option Rel) :
    s.pushCell r u data rank ord rel = s.setCell r u (pushed (s.cell r u) data rank ord rel) := by
  simp only [State.pushCell, pushed, BitVec.ult_iff_toNat_lt]
  rfl

theorem setCell_setCell_spec (s : State) (r u : Nat) (c d : Cell) :
    OnlyCell s ((s.setCell r u c).setCell r u d) r u ∧ ((s.setCell r u c).setCell r u d).cell r u = d :=
  ⟨onlyCell_trans (setCell_onlyCell s r u c) (setCell_onlyCell _ r u d), setCell_cell_self ..⟩

/-- What a slot of a kind that concerns its own cell alone makes of it at landing. -/
def landedIn (c : Cell) (sl : Slot) (live : Bool) : Cell :=
  match sl.kind with
  | .value => if sl.out && live then pushed (valued c sl) sl.value 0 false none else valued c sl
  | .valuePush => if live then pushed (valued c sl) sl.value sl.rank sl.ord sl.rel else valued c sl
  | .pred => { c with g := predSet c.g sl.dest (sl.value != 0) }
  | .push => if live then pushed c sl.value sl.rank false none else c
  | _ => c

/-- The kinds of slots that concern their own cell alone: all but a live PSEND, a channel send and an ordering token. -/
def InCell (sl : Slot) (live : Bool) : Prop :=
  sl.kind ∈ [SlotKind.value, .pred, .valuePush, .mark, .exit, .drop] ∨ (sl.kind = .push ∧ sl.ord = false) ∨ (sl.kind = .psend ∧ live = false)

theorem landSlot_inCell (s : State) (r u : Nat) (sl : Slot) {live : Bool} (hlive : live = (s.page (s.pageOf r)).slotLive sl.its sl.live) (h : InCell sl live) :
    OnlyCell s (s.landSlot r u sl) r u ∧ (s.landSlot r u sl).cell r u = landedIn (s.cell r u) sl live := by
  have hset := fun c => And.intro (setCell_onlyCell s r u c) (setCell_cell_self s r u c)
  have hself := onlyCell_refl s r u
  cases hk : sl.kind with
  | value =>
    simp only [State.landSlot, landedIn, hk, ← hlive, landValue_eq, pushCell_eq, setCell_cell_self]
    split
    · exact setCell_setCell_spec ..
    · exact hset _
  | valuePush =>
    simp only [State.landSlot, landedIn, hk, ← hlive, landValue_eq, pushCell_eq, setCell_cell_self]
    split
    · exact setCell_setCell_spec ..
    · exact hset _
  | pred =>
    simp only [State.landSlot, landedIn, hk]
    exact hset _
  | push =>
    have hord : sl.ord = false := by simpa [InCell, hk] using h
    simp only [State.landSlot, landedIn, hk, ← hlive, hord, pushCell_eq]
    cases live
    · exact ⟨hself, rfl⟩
    · exact hset _
  | psend =>
    have hdead : live = false := by simpa [InCell, hk] using h
    simp only [State.landSlot, landedIn, hk, ← hlive, hdead]
    exact ⟨hself, rfl⟩
  | mark | exit | drop =>
    simp only [State.landSlot, landedIn, hk]
    exact ⟨hself, trivial⟩
  | chsend => simp [InCell, hk] at h

/-! ## One due slot of a cell -/

/-- A cell whose due slot is about to land: a MARK has set the rank, and the other slots are one cycle nearer (R122). -/
def aged (c : Cell) (pre : List Slot) (sl : Slot) (post : List Slot) (live : Bool) : Cell :=
  { c with
    pr := if sl.kind == .mark && live && c.pr.ult (sl.value.truncate 2) then sl.value.truncate 2 else c.pr
    slots := (pre ++ post).map (fun x => { x with dist := x.dist - 1 }) }

theorem landCell_oneDue {s : State} {r u : Nat} {pre post : List Slot} {sl : Slot} (h : OneDue (s.cell r u) pre sl post) :
    s.landCell r u = (s.setCell r u (aged (s.cell r u) pre sl post ((s.page (s.pageOf r)).slotLive sl.its sl.live))).landSlot r u sl := by
  obtain ⟨hslots, hdue, hothers⟩ := h
  obtain ⟨hlands, hstay⟩ := filter_due Slot.dist hdue hothers
  simp only [State.landCell, hslots, hlands, hstay]
  rfl

theorem aged_of_not_mark {c : Cell} {pre post : List Slot} {sl : Slot} {live : Bool} (h : sl.kind ≠ .mark) :
    aged c pre sl post live = { c with slots := (pre ++ post).map (fun x => { x with dist := x.dist - 1 }) } := by
  rw [aged, beq_eq_false_iff_ne.mpr h]
  rfl

theorem landedIn_aged {c : Cell} {pre post : List Slot} {sl : Slot} {live : Bool} (h : InCell sl live) :
    landedIn (aged c pre sl post live) sl live = landed c pre sl post live := by
  by_cases hm : sl.kind = .mark
  · have htrunc : sl.value.truncate 2 = BitVec.ofNat 2 sl.value.toNat := rfl
    simp only [landedIn, aged, landed, hm, beq_self_eq_true, Bool.true_and, htrunc, BitVec.ult, BitVec.toNat_ofNat]
    split <;> rfl
  rw [aged_of_not_mark hm]
  cases hk : sl.kind with
  | mark => exact absurd hk hm
  | chsend => simp [InCell, hk] at h
  | value | valuePush | pred | push | psend | exit | drop =>
    simp only [landedIn, landed, hk] <;> rfl

theorem landCell_inCell {s : State} {r u : Nat} {pre post : List Slot} {sl : Slot} {live : Bool} (h : OneDue (s.cell r u) pre sl post)
    (hlive : live = (s.page (s.pageOf r)).slotLive sl.its sl.live) (hin : InCell sl live) :
    OnlyCell s (s.landCell r u) r u ∧ (s.landCell r u).cell r u = landed (s.cell r u) pre sl post live := by
  have hset := setCell_onlyCell s r u (aged (s.cell r u) pre sl post live)
  have hsame := onlyCell_cellsOnly hset
  obtain ⟨hframe, hcell⟩ := landSlot_inCell (s.setCell r u (aged (s.cell r u) pre sl post live)) r u sl
    (hlive.trans (by rw [hsame.page, hsame.pageOf])) hin
  rw [landCell_oneDue h, ← hlive, hcell, setCell_cell_self, landedIn_aged hin]
  exact ⟨onlyCell_trans hset hframe, rfl⟩

/-! ## Several values (R69) -/

theorem foldl_landSlot_onlyCell (r u : Nat) (l : List Slot) (hl : ∀ x ∈ l, x.kind = .value ∧ x.out = false) (s : State) :
    OnlyCell s (l.foldl (fun s sl => s.landSlot r u sl) s) r u := by
  induction l generalizing s with
  | nil => exact onlyCell_refl s r u
  | cons x l ih =>
    have hin : InCell x ((s.page (s.pageOf r)).slotLive x.its x.live) := .inl (by simp [(hl x (List.mem_cons_self ..)).1])
    exact onlyCell_trans (landSlot_inCell s r u x rfl hin).1 (ih (fun y hy => hl y (List.mem_cons_of_mem _ hy)) _)

/-- Of several values the last issued stays (R69). -/
theorem landCell_values {s : State} {r u : Nat} {pre : List Slot} {sl : Slot} (hslots : (s.cell r u).slots = pre ++ [sl]) (hdue : sl.dist = 1)
    (hvalues : ∀ x ∈ pre ++ [sl], x.dist = 1 → x.kind = .value ∧ x.out = false) :
    OnlyCell s (s.landCell r u) r u ∧ ((s.landCell r u).cell r u).ores = sl.value ∧
      (sl.wq = true → ((s.landCell r u).cell r u).q[sl.dest % 16]? = some sl.value) := by
  obtain ⟨hkind, hout⟩ := hvalues sl (by simp) hdue
  have hlands : (s.cell r u).slots.filter (fun x => x.dist == 1) = pre.filter (fun x => x.dist == 1) ++ [sl] := by
    rw [hslots, List.filter_append, List.filter_cons_of_pos (by simpa using hdue), List.filter_nil]
  have hpre : ∀ x ∈ pre.filter (fun x => x.dist == 1), x.kind = .value ∧ x.out = false := fun x hx => by
    obtain ⟨hmem, hd⟩ := List.mem_filter.mp hx
    exact hvalues x (List.mem_append_left _ hmem) (by simpa using hd)
  simp only [State.landCell, hlands, List.foldl_append, List.foldl_cons, List.foldl_nil]
  set w := (pre.filter (fun x => x.dist == 1)).foldl (fun s sl => s.landSlot r u sl) (s.setCell r u _) with hw
  have hframe : OnlyCell s w r u := onlyCell_trans (setCell_onlyCell s r u _) (foldl_landSlot_onlyCell r u _ hpre _)
  obtain ⟨hlast, hcell⟩ := landSlot_inCell w r u sl rfl (.inl (by simp [hkind]))
  have hvalued : (w.landSlot r u sl).cell r u = valued (w.cell r u) sl := by
    simp only [hcell, landedIn, hkind, hout, Bool.false_and, Bool.false_eq_true, if_false]
  refine ⟨onlyCell_trans hframe hlast, by rw [hvalued]; rfl, fun hwq => ?_⟩
  rw [hvalued, valued]
  simp [hwq]

/-! ## The lanes that a PSEND reaches (R126, R139) -/

/-- A predicate leaves along one route of a region's lanes. -/
def addLane (p : Page) (sreg u r : Nat) (v : Bool) (s : State) (e : Nat × Nat) : State :=
  s.setCell r (e.1 / 4) { s.cell r (e.1 / 4) with lanes := (s.cell r (e.1 / 4)).lanes ++ [⟨e.1 % 4, p.hops sreg u (s.sregOf r) (e.1 / 4), v⟩] }

theorem addLane_cellsOnly (p : Page) (sreg u r : Nat) (v : Bool) (s : State) (e : Nat × Nat) : CellsOnly s (addLane p sreg u r v s e) :=
  setCell_cellsOnly ..

theorem addLane_lanes (p : Page) (sreg u r : Nat) (v : Bool) (s : State) (e : Nat × Nat) (r' k : Nat) :
    ((addLane p sreg u r v s e).cell r' k).lanes =
      (s.cell r' k).lanes ++ if r' = r ∧ e.1 / 4 = k then [⟨e.1 % 4, p.hops sreg u (s.sregOf r) k, v⟩] else [] := by
  rw [addLane, setCell_cell]
  by_cases h : r' = r ∧ k = e.1 / 4
  · obtain ⟨rfl, rfl⟩ := h
    simp
  · rw [if_neg h, if_neg (fun hr => h ⟨hr.1, hr.2.symm⟩), List.append_nil]

theorem addLanes_spec (p : Page) (sreg u r : Nat) (v : Bool) (l : List (Nat × Nat)) (s : State) :
    CellsOnly s (l.foldl (addLane p sreg u r v) s) ∧
    ∀ r' k, ((l.foldl (addLane p sreg u r v) s).cell r' k).lanes = (s.cell r' k).lanes ++
      if r' = r then (l.filter (fun e => e.1 / 4 == k)).map (fun e => ⟨e.1 % 4, p.hops sreg u (s.sregOf r) k, v⟩) else [] := by
  induction l generalizing s with
  | nil => exact ⟨CellsOnly.refl s, fun r' k => by simp⟩
  | cons e l ih =>
    have hstep := addLane_cellsOnly p sreg u r v s e
    obtain ⟨hframe, hlanes⟩ := ih (addLane p sreg u r v s e)
    refine ⟨hstep.trans hframe, fun r' k => ?_⟩
    rw [List.foldl_cons, hlanes, addLane_lanes, hstep.sregOf, List.append_assoc]
    by_cases hr : r' = r <;> by_cases hk : e.1 / 4 = k <;> simp [hr, hk]

/-- What a cell of a region receives of a predicate that a cell sends. -/
def lanesFrom (s : State) (p : Page) (sreg u : Nat) (v : Bool) (r k : Nat) : List LaneVal :=
  ((s.region r).laneRoutes.filter (fun e => e.2 == sreg * 4096 + u && e.1 / 4 == k)).map (fun e => ⟨e.1 % 4, p.hops sreg u (s.sregOf r) k, v⟩)

theorem CellsOnly.lanesFrom {s t : State} (h : CellsOnly s t) (p : Page) (sreg u : Nat) (v : Bool) (r k : Nat) :
    CellLanding.lanesFrom t p sreg u v r k = CellLanding.lanesFrom s p sreg u v r k := by
  simp only [CellLanding.lanesFrom, h.laneRoutes, h.sregOf]

theorem addLanes_routes (p : Page) (sreg u : Nat) (v : Bool) (rids : List Nat) (hn : rids.Nodup) (s : State) :
    CellsOnly s (rids.foldl (fun s r => ((s.region r).laneRoutes.filter (fun e => e.2 == sreg * 4096 + u)).foldl (addLane p sreg u r v) s) s) ∧
    ∀ r k, ((rids.foldl (fun s r => ((s.region r).laneRoutes.filter (fun e => e.2 == sreg * 4096 + u)).foldl (addLane p sreg u r v) s) s).cell r k).lanes =
      (s.cell r k).lanes ++ if r ∈ rids then lanesFrom s p sreg u v r k else [] := by
  induction rids generalizing s with
  | nil => exact ⟨CellsOnly.refl s, fun r k => by simp⟩
  | cons r rids ih =>
    obtain ⟨hnot, hn⟩ := List.nodup_cons.mp hn
    obtain ⟨hframe, hlanes⟩ := addLanes_spec p sreg u r v ((s.region r).laneRoutes.filter (fun e => e.2 == sreg * 4096 + u)) s
    obtain ⟨hframe', hlanes'⟩ := ih hn _
    refine ⟨hframe.trans hframe', fun r' k => ?_⟩
    rw [List.foldl_cons, hlanes', hlanes, hframe.lanesFrom, List.append_assoc]
    by_cases hr : r' = r
    · subst hr
      simp [hnot, lanesFrom, List.filter_filter, Bool.and_comm]
    · simp [hr]

theorem sendLane_spec (s : State) (r u : Nat) (v : Bool) (hn : (s.regionsOf (s.pageOf r)).Nodup) :
    CellsOnly s (s.sendLane r u v) ∧ ∀ r' ∈ s.regionsOf (s.pageOf r), ∀ k,
      ((s.sendLane r u v).cell r' k).lanes = (s.cell r' k).lanes ++ lanesFrom s (s.page (s.pageOf r)) (s.sregOf r) u v r' k := by
  obtain ⟨hframe, hlanes⟩ := addLanes_routes (s.page (s.pageOf r)) (s.sregOf r) u v _ hn s
  exact ⟨hframe, fun r' hr k => (hlanes r' k).trans (by rw [if_pos hr])⟩

/-- A cell that is written keeps its lanes, where what is written does. -/
theorem setCell_lanes {s : State} {r u : Nat} {c : Cell} (h : c.lanes = (s.cell r u).lanes) (r' k : Nat) :
    ((s.setCell r u c).cell r' k).lanes = (s.cell r' k).lanes := by
  rw [setCell_cell]
  split
  · next hk => rw [h, hk.1, hk.2]
  · rfl

theorem landCell_psend {s : State} {r u : Nat} {pre post : List Slot} {sl : Slot} (h : OneDue (s.cell r u) pre sl post)
    (hlive : (s.page (s.pageOf r)).slotLive sl.its sl.live = true) (hk : sl.kind = .psend) (hn : (s.regionsOf (s.pageOf r)).Nodup) :
    CellsOnly s (s.landCell r u) ∧ ∀ r' ∈ s.regionsOf (s.pageOf r), ∀ k, ((s.landCell r u).cell r' k).lanes =
      (s.cell r' k).lanes ++ lanesFrom s (s.page (s.pageOf r)) (s.sregOf r) u (sl.value != 0) r' k := by
  have hset := setCell_cellsOnly s r u (aged (s.cell r u) pre sl post true)
  have hlanes := setCell_lanes (s := s) (r := r) (u := u) (c := aged (s.cell r u) pre sl post true) rfl
  rw [landCell_oneDue h, hlive]
  generalize s.setCell r u (aged (s.cell r u) pre sl post true) = w at hset hlanes
  have hland : w.landSlot r u sl = w.sendLane r u (sl.value != 0) := by
    simp only [State.landSlot, hk, hset.page, hset.pageOf, hlive, if_true]
  obtain ⟨hsend, hsent⟩ := sendLane_spec w r u (sl.value != 0) (by rwa [hset.regionsOf, hset.pageOf])
  rw [hland]
  refine ⟨hset.trans hsend, fun r' hr k => ?_⟩
  rw [hsent r' (by rwa [hset.regionsOf, hset.pageOf]), hlanes, hset.lanesFrom, hset.page, hset.pageOf, hset.sregOf]

/-! ## The release of an ordering token (R135, R159, R174) -/

/-- The memory nodes of regions write their buffers through. -/
def flushNodes (rids : List Nat) (s : State) : State := rids.foldl (fun s r => s.setMn r (s.mn r).flush) s

theorem flushNodes_spec (rids : List Nat) (hn : rids.Nodup) (s : State) :
    (flushNodes rids s).mem = s.mem ∧ (∀ r k, (flushNodes rids s).cell r k = s.cell r k) ∧
    ∀ r, (flushNodes rids s).mn r = if r ∈ rids then (s.mn r).flush else s.mn r := by
  induction rids generalizing s with
  | nil => exact ⟨rfl, fun _ _ => rfl, fun _ => by simp [flushNodes]⟩
  | cons r rids ih =>
    obtain ⟨hnot, hn⟩ := List.nodup_cons.mp hn
    obtain ⟨hmem, hcells, hnodes⟩ := ih hn (s.setMn r (s.mn r).flush)
    refine ⟨hmem, fun r' k => (hcells r' k).trans (setMn_cell ..), fun r' => (hnodes r').trans ?_⟩
    rw [setMn_mn]
    by_cases hr : r' = r
    · subst hr; simp [hnot]
    · simp [hr]

theorem flushed_of_flush {s t : State} {rids : List Nat} (h : ∀ r ∈ rids, t.mn r = (s.mn r).flush) : Flushed s t rids := by
  intro r hr
  rw [h r hr, flush_spec]
  exact ⟨rfl, rfl⟩

/-- A live ordering token leaves with the release that its page's nodes have made (R135, R174). -/
theorem landCell_ordmk {s : State} {r u : Nat} {pre post : List Slot} {sl : Slot} (h : OneDue (s.cell r u) pre sl post)
    (hlive : (s.page (s.pageOf r)).slotLive sl.its sl.live = true) (hk : sl.kind = .push) (hord : sl.ord = true)
    (hn : (s.regionsOf (s.pageOf r)).Nodup) :
    (s.landCell r u).mem = s.mem ∧ Flushed s (s.landCell r u) (s.regionsOf (s.pageOf r)) ∧
    ((s.landCell r u).cell r u).pr = 0 ∧ ((s.landCell r u).cell r u).outq.toks = (s.cell r u).outq.toks ++
      [⟨⟨sl.value, if sl.rank.toNat < (s.cell r u).pr.toNat then (s.cell r u).pr else sl.rank, true, false⟩,
        some ⟨s.regionsOf (s.pageOf r), s.seq + 1, sl.scope⟩, 0, false⟩] := by
  have hset := setCell_cellsOnly s r u (aged (s.cell r u) pre sl post true)
  have hcell := setCell_cell_self s r u (aged (s.cell r u) pre sl post true)
  have hseq : (s.setCell r u (aged (s.cell r u) pre sl post true)).seq = s.seq := rfl
  rw [landCell_oneDue h, hlive]
  generalize s.setCell r u (aged (s.cell r u) pre sl post true) = w at hset hcell hseq
  obtain ⟨hmem, hcells, hnodes⟩ := flushNodes_spec (s.regionsOf (s.pageOf r)) hn { w with seq := w.seq + 1 }
  have hland : w.landSlot r u sl = (flushNodes (s.regionsOf (s.pageOf r)) { w with seq := w.seq + 1 }).pushCell r u sl.value sl.rank true
      (some ⟨s.regionsOf (s.pageOf r), s.seq + 1, sl.scope⟩) := by
    simp only [State.landSlot, hk, hord, hset.page, hset.pageOf, hset.regionsOf, hlive, Bool.not_true, Bool.false_eq_true, if_false, if_true,
      ← hseq]
    rfl
  have hlanded : (flushNodes (s.regionsOf (s.pageOf r)) { w with seq := w.seq + 1 }).cell r u = aged (s.cell r u) pre sl post true :=
    (hcells r u).trans hcell
  rw [hland, pushCell_eq, setCell_cell_self, hlanded, aged_of_not_mark (by rw [hk]; decide)]
  refine ⟨hmem.trans (by rw [hset.rest]), flushed_of_flush fun r' hr => ?_, rfl, rfl⟩
  rw [setCell_mn, hnodes, if_pos hr]
  exact congrArg MNode.flush (hset.mn r')

end Sys2Proof.Proofs.CellLanding
end

