-- ==== Sys2Proof/Proofs/NodeLanding.lean ====
section
/-! PROOFS. Landings of a memory node: values, releases, fences and the two ways of a GIVE (R146, R157, R159, R160, R165, R166). -/
namespace Sys2Proof.Proofs.NodeLanding

open Machine Spec CellLanding

/-! ## A node's output queues and held ranges -/

theorem pushMo_toks (m : MNode) (d : Nat) (t : QTok) {n : Nat} (hn : n < 4) :
    (qAt (m.pushMo d t).mo n).toks = (qAt m.mo n).toks ++ if n = d % 4 then [t] else [] := by
  have hd : d % 4 < 4 := Nat.mod_lt _ (by decide)
  have hset : (m.pushMo d t).mo = qSet m.mo (d % 4) ((qAt m.mo (d % 4)).push t) := by
    simp only [MNode.pushMo, qSet, qAt, Nat.mod_mod]
  rw [hset, qAt_qSet _ _ _ _ hd hn]
  split
  · next h => rw [h]; rfl
  · rw [List.append_nil]

theorem setHeld_held (m : MNode) (r : Nat) (v : Bool) {k : Nat} (hk : k < 8) : (setHeld m r v).held[k]? = if k = r then some v else m.held[k]? := by
  unfold setHeld
  split
  · next hr =>
    rw [Vector.getElem?_set]
    by_cases h : k = r
    · subst h; simp
    · rw [if_neg h, if_neg (Ne.symm h)]
  · next hr => rw [if_neg (by omega)]

/-! ## One due slot of a node -/

/-- A node whose due slot is about to land. -/
def agedNode (m : MNode) (pre post : List NodeSlot) : MNode := { m with slots := (pre ++ post).map (fun x => { x with dist := x.dist - 1 }) }

/-- What a slot's landing makes of the node of a region, at a stamp of order. -/
def landedNode (m : MNode) (rid stamp : Nat) (sl : NodeSlot) (live : Bool) : MNode :=
  match sl.kind with
  | .value =>
    let d := if sl.out && live then m.pushMo sl.dq (QTok.of ⟨sl.value.getD 0, 0, false, false⟩) else m
    { d with mores := sl.value.getD 0, acqStamp := if 3 ≤ sl.range then stamp else m.acqStamp }
  | .strel => m
  | .mfence => { m with acqStamp := if 3 ≤ sl.range then stamp else m.acqStamp }
  | .give =>
    if live then m.flush.pushMo sl.dq (QTok.of ⟨handoverData sl.range, 0, true, false⟩ (some ⟨[rid], sl.ident, 4⟩))
    else setHeld m sl.range true

/-- Memory and every other region are as before. -/
structure OnlyRegion (s t : State) (rid : Nat) : Prop where
  mem : t.mem = s.mem
  regions : ∀ r, r ≠ rid → t.region r = s.region r

theorem setMn_onlyRegion (s : State) (rid : Nat) (m : MNode) : OnlyRegion s (s.setMn rid m) rid :=
  ⟨rfl, fun r h => by rw [setMn_region, if_neg h]⟩

theorem landNodeSlot_spec (s : State) (rid : Nat) (sl : NodeSlot) {live : Bool} (hlive : live = (s.page (s.pageOf rid)).slotLive sl.its sl.live) :
    OnlyRegion s (s.landNodeSlot rid sl) rid ∧ (s.landNodeSlot rid sl).mn rid = landedNode (s.mn rid) rid (s.seq + 1) sl live := by
  have hset := fun m => And.intro (setMn_onlyRegion s rid m) (setMn_mn_self s rid m)
  cases hk : sl.kind with
  | value =>
    have hvalue : s.landNodeSlot rid sl = s.setMn rid (landedNode (s.mn rid) rid (s.seq + 1) sl live) := by
      simp only [State.landNodeSlot, landedNode, hk, ← hlive]
      congr 1
      by_cases hout : (sl.out && live) = true <;> by_cases hr : 3 ≤ sl.range <;> simp only [hout, hr, if_true, if_false] <;> rfl
    rw [hvalue]
    exact hset _
  | strel =>
    simp only [State.landNodeSlot, landedNode, hk]
    exact ⟨⟨rfl, fun _ _ => rfl⟩, trivial⟩
  | mfence =>
    have hfence : s.landNodeSlot rid sl = s.setMn rid (landedNode (s.mn rid) rid (s.seq + 1) sl live) := by
      simp only [State.landNodeSlot, landedNode, hk]
      congr 1
      split <;> rfl
    rw [hfence]
    exact hset _
  | give =>
    simp only [State.landNodeSlot, landedNode, hk, ← hlive]
    cases live
    · exact hset _
    · simp only [if_true, setMn_mn_self]
      exact ⟨⟨rfl, fun r h => by rw [setMn_region, if_neg h, setMn_region, if_neg h]⟩, trivial⟩

theorem setMn_pageOf (s : State) (rid k : Nat) (m : MNode) : (s.setMn rid m).pageOf k = s.pageOf k := by
  have hholder : ((s.setMn rid m).region k).holder = (s.region k).holder := by
    rw [setMn_region]
    split
    · next h => rw [h]
    · rfl
  rw [State.pageOf, hholder]
  rfl

theorem landNode_oneDue {s : State} {rid : Nat} {pre post : List NodeSlot} {sl : NodeSlot} {live : Bool} (hslots : (s.mn rid).slots = pre ++ sl :: post)
    (hdue : sl.dist = 1) (hothers : ∀ x ∈ pre ++ post, x.dist ≠ 1) (hlive : live = (s.page (s.pageOf rid)).slotLive sl.its sl.live) :
    OnlyRegion s (s.landNode rid) rid ∧ (s.landNode rid).mn rid = landedNode (agedNode (s.mn rid) pre post) rid (s.seq + 2) sl live := by
  obtain ⟨hlands, hstay⟩ := filter_due NodeSlot.dist hdue hothers
  have hland : s.landNode rid = State.landNodeSlot { s.setMn rid (agedNode (s.mn rid) pre post) with seq := s.seq + 1 } rid sl := by
    simp only [State.landNode, hslots, hlands, hstay]
    rfl
  obtain ⟨hframe, hnode⟩ := landNodeSlot_spec { s.setMn rid (agedNode (s.mn rid) pre post) with seq := s.seq + 1 } rid sl (live := live)
    (hlive.trans (congrArg (fun pid => (s.page pid).slotLive sl.its sl.live) (setMn_pageOf s rid rid _).symm))
  obtain ⟨hmem, hregions⟩ := setMn_onlyRegion s rid (agedNode (s.mn rid) pre post)
  rw [hland]
  refine ⟨⟨hframe.mem.trans hmem, fun r h => (hframe.regions r h).trans (hregions r h)⟩, hnode.trans ?_⟩
  exact congrArg (landedNode · rid (s.seq + 2) sl live) (setMn_mn_self s rid _)

/-! ## What a landing leaves of its node -/

theorem setHeld_keeps (m : MNode) (r : Nat) (v : Bool) : (setHeld m r v).slots = m.slots ∧ (setHeld m r v).mores = m.mores ∧ (setHeld m r v).coal = m.coal ∧
    (setHeld m r v).far = m.far ∧ (setHeld m r v).mo = m.mo := by
  unfold setHeld
  split <;> exact ⟨rfl, rfl, rfl, rfl, rfl⟩

theorem landedNode_value (m : MNode) (rid stamp : Nat) {sl : NodeSlot} (live : Bool) (hk : sl.kind = .value) :
    (landedNode m rid stamp sl live).mores = sl.value.getD 0 ∧ (landedNode m rid stamp sl live).slots = m.slots ∧
    ∀ n, n < 4 → (qAt (landedNode m rid stamp sl live).mo n).toks = (qAt m.mo n).toks ++
      (if sl.out = true ∧ live = true ∧ n = sl.dq % 4 then [⟨⟨sl.value.getD 0, 0, false, false⟩, none, 0, false⟩] else []) := by
  simp only [landedNode, hk]
  by_cases hout : (sl.out && live) = true
  · obtain ⟨ho, hl⟩ := Bool.and_eq_true_iff.mp hout
    rw [if_pos hout]
    refine ⟨trivial, rfl, fun n hn => ?_⟩
    simp only [ho, hl, true_and]
    exact pushMo_toks _ _ _ hn
  · have hnone : ∀ n, ¬ (sl.out = true ∧ live = true ∧ n = sl.dq % 4) := fun n h => hout (Bool.and_eq_true_iff.mpr ⟨h.1, h.2.1⟩)
    rw [if_neg hout]
    refine ⟨trivial, rfl, fun n hn => ?_⟩
    rw [if_neg (hnone n), List.append_nil]

/-- The effect of a GIVE, of which other slots without a value have none (R165, R166). -/
theorem landedNode_effect (m : MNode) (rid stamp : Nat) {sl : NodeSlot} (live : Bool) (hk : sl.kind ≠ .value) :
    (landedNode m rid stamp sl live).slots = m.slots ∧ (landedNode m rid stamp sl live).mores = m.mores ∧
    (∀ n, n < 4 → (qAt (landedNode m rid stamp sl live).mo n).toks = (qAt m.mo n).toks ++
      (if sl.kind = .give ∧ live = true ∧ n = sl.dq % 4
        then [⟨⟨BitVec.ofNat 32 (0x484F0000 + sl.range), 0, true, false⟩, some ⟨[rid], sl.ident, 4⟩, 0, false⟩] else [])) ∧
    (if sl.kind = .give ∧ live = true
      then (landedNode m rid stamp sl live).coal = [] ∧ (landedNode m rid stamp sl live).far =
        m.far ++ m.coal.map (fun l => ⟨l.stamp, .line l.mask l.data, l.pa, l.key, l.stamp, m.acqs, false⟩)
      else (landedNode m rid stamp sl live).coal = m.coal ∧ (landedNode m rid stamp sl live).far = m.far) ∧
    ∀ k : Nat, k < 8 → (landedNode m rid stamp sl live).held[k]? = if sl.kind = .give ∧ live = false ∧ k = sl.range then some true else m.held[k]? := by
  cases hkind : sl.kind with
  | value => exact absurd hkind hk
  | strel | mfence =>
    simp only [landedNode, hkind, reduceCtorEq, false_and, if_false, List.append_nil]
    exact ⟨trivial, trivial, fun _ _ => trivial, ⟨trivial, trivial⟩, fun _ _ => trivial⟩
  | give =>
    cases live with
    | true =>
      have hflush := flush_spec m
      simp only [landedNode, hkind, if_true, true_and, reduceCtorEq, false_and, if_false]
      refine ⟨?_, ?_, fun n hn => ?_, ?_, fun k _ => ?_⟩
      · rw [hflush]; rfl
      · rw [hflush]; rfl
      · rw [pushMo_toks _ _ _ hn, hflush]; rfl
      · rw [hflush]; exact ⟨rfl, rfl⟩
      · rw [hflush]; rfl
    | false =>
      obtain ⟨hslots, hmores, hcoal, hfar, hmo⟩ := setHeld_keeps m sl.range true
      simp only [landedNode, hkind, Bool.false_eq_true, false_and, and_false, if_false, true_and, List.append_nil]
      exact ⟨hslots, hmores, fun _ _ => by rw [hmo], ⟨hcoal, hfar⟩, fun k hk => setHeld_held m sl.range true hk⟩

end Sys2Proof.Proofs.NodeLanding
end

