-- ==== Sys2Proof/Proofs/MatrixLanding.lean ====
section
/-! PROOFS. Landings of a matrix node: what each kind of due slot does in a live iteration and in a dead one, and the sums that a firing's row adds
(R184, R187, R189, R191, R194 to R201). -/
namespace Sys2Proof.Proofs.MatrixLanding

open Machine Spec UnitIssue CellLanding

/-! ## The sums of an accumulator row (R187) -/

/-- A list of element keys and values added one after another: an element takes the values of its own key, in order. -/
theorem foldl_accAdd_get (l : List (Nat × W32)) (n : XNode) (key : Nat) :
    (l.foldl (fun n p => n.accAdd p.1 p.2) n).acc.get 0 key = addGroups (n.acc.get 0 key) ((l.filter (fun p => p.1 == key)).map Prod.snd) := by
  induction l generalizing n with
  | nil => rfl
  | cons p l ih =>
    rw [List.foldl_cons, ih]
    by_cases h : p.1 = key
    · rw [List.filter_cons_of_pos (by simpa using h), List.map_cons, addGroups, addGroups, List.foldl_cons]
      subst h
      simp only [XNode.accAdd, Tab.get_set_self]
    · rw [List.filter_cons_of_neg (by simpa using h)]
      simp only [XNode.accAdd]
      rw [Tab.get_set_other _ _ _ (Ne.symm h)]

theorem flatMap_range_single {α : Type} {f : Nat → List α} {n j : Nat} (hj : j < n) (h : ∀ c, c ≠ j → f c = []) : (List.range n).flatMap f = f j := by
  induction n with
  | zero => omega
  | succ n ih =>
    rw [List.range_succ, List.flatMap_append, List.flatMap_singleton]
    by_cases hn : j = n
    · have hnil : (List.range n).flatMap f = [] := List.flatMap_eq_nil_iff.mpr fun c hc => h c (by have := List.mem_range.mp hc; omega)
      rw [hnil, hn, List.nil_append]
    · rw [ih (by omega), h n (Ne.symm hn), List.append_nil]

/-- Of the columns of a row, the elements at one key are those of its own column. -/
theorem filter_row_column (t ng : Nat) (v : Nat → Nat → W32) {i j : Nat} (hj : j < 64) :
    (((List.range 64).flatMap fun c => (List.range ng).map fun g => (64 * t + c, v c g)).filter (fun p => p.1 == 64 * i + j)).map Prod.snd =
      if i = t then (List.range ng).map (v j) else [] := by
  have hfilter : ∀ c, ((List.range ng).map fun g => (64 * t + c, v c g)).filter (fun p => p.1 == 64 * i + j) =
      if 64 * t + c = 64 * i + j then (List.range ng).map fun g => (64 * t + c, v c g) else [] := by
    intro c
    by_cases h : 64 * t + c = 64 * i + j <;> simp [h]
  simp only [List.filter_flatMap, hfilter]
  by_cases hi : i = t
  · subst hi
    rw [flatMap_range_single hj fun c hc => if_neg (by omega), if_pos rfl, if_pos rfl, List.map_map]
    rfl
  · rw [if_neg hi, List.flatMap_eq_nil_iff.mpr fun c hc => if_neg (by have := List.mem_range.mp hc; omega)]
    rfl

theorem column_eq_take (vals : List W32) {ng j : Nat} (hj : j < 64) (hlen : vals.length = 64 * ng) :
    (List.range ng).map (fun g => (vals[ng * j + g]?).getD 0) = (vals.drop (ng * j)).take ng := by
  have hend : ng * j + ng ≤ vals.length := by rw [hlen]; nlinarith
  refine List.ext_getElem (by simp; omega) fun g hg _ => ?_
  have hg' : g < ng := by simpa using hg
  rw [List.getElem_map, List.getElem_range, List.getElem_take, List.getElem_drop, List.getElem?_eq_getElem (by omega), Option.getD_some]

/-- A firing's values are added to the columns of its row, the groups of a column in increasing order. -/
theorem accRow_get (n : XNode) (t ng : Nat) (vals : List W32) {i j : Nat} (hj : j < 64) (hlen : vals.length = 64 * ng) :
    (n.accRow t ng vals).acc.get 0 (64 * i + j) =
      if i = t then addGroups (n.acc.get 0 (64 * i + j)) ((vals.drop (ng * j)).take ng) else n.acc.get 0 (64 * i + j) := by
  rw [XNode.accRow, foldl_accAdd_get, filter_row_column t ng (fun c g => (vals[ng * c + g]?).getD 0) hj, column_eq_take vals hj hlen]
  split <;> rfl

/-- Clearing a row clears its elements (R198). -/
theorem get_filter_row (acc : Tab W32) (t : Nat) {i j : Nat} (hj : j < 64) :
    Tab.get 0 (acc.filter (fun e => e.1 / 64 != t)) (64 * i + j) = if i = t then 0 else acc.get 0 (64 * i + j) := by
  have hrow : (64 * i + j) / 64 = i := by omega
  induction acc with
  | nil => simp [Tab.get]
  | cons e acc ih =>
    obtain ⟨k, v⟩ := e
    by_cases hk : k / 64 = t
    · rw [List.filter_cons_of_neg (by simpa using hk), ih, Tab.get]
      by_cases hi : i = t
      · rw [if_pos hi, if_pos hi]
      · rw [if_neg hi, if_neg hi, if_neg (fun h => hi (by rw [← hrow, ← h, hk]))]
    · rw [List.filter_cons_of_pos (by simpa using hk), Tab.get, Tab.get, ih]
      by_cases hi : k = 64 * i + j
      · rw [if_pos hi, if_pos hi, if_neg (fun h => hk (by rw [hi, hrow, h]))]
      · rw [if_neg hi, if_neg hi]

/-! ## One due slot of a node -/

/-- A node whose due slot is about to land. -/
def agedMatrix (n : XNode) (pre post : List XSlot) : XNode := { n with slots := (pre ++ post).map (fun k => { k with dist := k.dist - 1 }) }

theorem landMatrix_oneDue {s : State} {rid : Nat} {pre post : List XSlot} {sl : XSlot} {live : Bool} (hslots : (s.xn rid).slots = pre ++ sl :: post)
    (hdue : sl.dist = 1) (hothers : ∀ x ∈ pre ++ post, x.dist ≠ 1) (hlive : live = (s.page (s.pageOf rid)).slotLive sl.its sl.live) :
    s.landMatrix rid = s.setXn rid (((agedMatrix (s.xn rid) pre post).clearRead sl live).land sl live) := by
  obtain ⟨hlands, hstay⟩ := filter_due XSlot.dist hdue hothers
  simp only [State.landMatrix, hslots, hlands, hstay, hlive]
  rfl

theorem clearRead_of_ne_stat (n : XNode) {sl : XSlot} (live : Bool) (hk : sl.kind ≠ .stat) : n.clearRead sl live = n := by
  rw [XNode.clearRead, beq_eq_false_iff_ne.mpr hk]
  rfl

theorem clearRead_of_dead (n : XNode) (sl : XSlot) : n.clearRead sl false = n := by
  rw [XNode.clearRead, Bool.and_false]
  rfl

/-! ## What a landing does (R191, R194 to R200) -/

/-- In a dead iteration a slot that was live at its issue gives up its B load, and no other has an effect (R191). -/
theorem land_dead (x : XNode) (sl : XSlot) :
    x.land sl false = if sl.kind = .ldb ∧ sl.live = true then { x with ldb := { x.ldb with busy := false } } else x := by
  cases hk : sl.kind with
  | ldb => simp only [XNode.land, hk, Bool.false_eq_true, if_false, true_and]
  | row | rows | acc | drn | cfg | clr | swb | stat => simp [XNode.land, hk]

section
variable (x : XNode) {sl : XSlot}

theorem land_drn (hk : sl.kind = .drn) : x.land sl true = { x with drains := x.drains ++ [⟨sl.vals, 0⟩] } := by
  simp only [XNode.land, hk, if_true]

theorem land_ldb (hk : sl.kind = .ldb) : x.land sl true = { x with ldb := { x.ldb with begun := true } } := by
  simp only [XNode.land, hk, if_true]

theorem land_swb (hk : sl.kind = .swb) : x.land sl true = { x with active := bufferOf x (BitVec.ofNat 2 sl.buf) } := by
  simp only [XNode.land, hk, if_true, Matrix.buffer_eq]

theorem land_cfg_same (hk : sl.kind = .cfg) (hf : x.cfmt = sl.fmt) : x.land sl true = x := by
  simp [XNode.land, hk, hf]

theorem land_cfg_other (hk : sl.kind = .cfg) (hf : x.cfmt ≠ sl.fmt) :
    (x.land sl true).acc = [] ∧ (x.land sl true).discard = true ∧ (x.land sl true).cfmt = sl.fmt := by
  simp [XNode.land, hk, hf]

theorem land_clr (hk : sl.kind = .clr) {i j : Nat} (hj : j < 64) :
    (x.land sl true).acc.get 0 (64 * i + j) = if i = sl.tag then 0 else x.acc.get 0 (64 * i + j) := by
  simp only [XNode.land, hk, if_true]
  exact get_filter_row x.acc sl.tag hj

theorem land_stat (hk : sl.kind = .stat) {v : W32} (hv : v = (sl.vals[0]?).getD 0) : (x.clearRead sl true).land sl true =
    { x with s := { x.s with toks := x.s.toks ++ [⟨⟨v, 0, false, false⟩, none, 0, false⟩] }, discard := x.discard && !v.getLsbD 8,
             nan := x.nan && !v.getLsbD 9, ovf := x.ovf && !v.getLsbD 10 } := by
  simp only [XNode.clearRead, XNode.land, hk, beq_self_eq_true, Bool.and_self, if_true, hv]
  rfl

theorem land_cancelled (hk : sl.kind = .row ∨ sl.kind = .rows ∨ sl.kind = .acc) (hc : sl.cancel = true) : x.land sl true = x := by
  rcases hk with hk | hk | hk <;> simp [XNode.land, hk, hc]

/-- A firing, or an addition of tokens, adds its values to its row (R184, R187, R199). -/
theorem land_sums (hk : sl.kind = .row ∨ sl.kind = .rows ∨ sl.kind = .acc) (hc : sl.cancel = false) {ng : Nat}
    (hng : ng = if sl.kind = .acc then 1 else sl.ng) (hpos : 0 < ng) (hlen : sl.vals.length = 64 * ng) {i j : Nat} (hj : j < 64) :
    (x.land sl true).acc.get 0 (64 * i + j) =
      if i = sl.tag then addGroups (x.acc.get 0 (64 * i + j)) ((sl.vals.drop (ng * j)).take ng) else x.acc.get 0 (64 * i + j) := by
  have hsome : sl.vals.isEmpty = false := by
    rw [List.isEmpty_eq_false_iff_exists_mem]
    exact List.exists_mem_of_length_pos (by omega)
  have hland : (x.land sl true).acc = (x.accRow sl.tag ng sl.vals).acc := by
    subst hng
    rcases hk with hk | hk | hk <;> simp [XNode.land, hk, hc, hsome]
  rw [hland, accRow_get x sl.tag ng sl.vals hj hlen]

end

end Sys2Proof.Proofs.MatrixLanding
end

