-- ==== Sys2Proof/Proofs/LoopLanding.lean ====
section
/-! PROOFS. What lands in a page's loop unit: an EXIT or a DROP of a live iteration (R129, R132, R140, R141). -/
namespace Sys2Proof.Proofs.LoopLanding

open Machine Spec CellLanding

/-! ## The steps of a landing in the loop unit -/

/-- One due and live slot, of any kind. -/
def loopSlot (p : Page) (pid : Nat) (t : State) (sl : Slot) : State :=
  match sl.kind, sl.its with
  | .exit, some k =>
    let q := t.page pid
    let it := p.iteration k
    t.setPage pid { q with exitF := true, exitIt := if q.exitF then lowerIt q.exitIt it else it, lm := (q.lm >>> k) <<< k }
  | .drop, some k => let q := t.page pid; t.setPage pid { q with lm := q.lm &&& ~~~(1#8 <<< k) }
  | _, _ => t

/-- The lane values that reach a cell. -/
def loopLanes (t : State) (r u : Nat) : State :=
  if (t.cell r u).lanes.isEmpty then t
  else t.setCell r u { t.cell r u with
    pl := (t.cell r u).lanes.foldl (fun pl l => if l.dist == 1 then pl.set (l.lane % 4) l.val (Nat.mod_lt _ (by decide)) else pl) (t.cell r u).pl
    lanes := ((t.cell r u).lanes.filter (fun l => l.dist != 1)).map (fun l => { l with dist := l.dist - 1 }) }

/-- One cell of the page. -/
def loopCell (p : Page) (pid r : Nat) (t : State) (u : Nat) : State :=
  ((t.cell r u).slots.filter (fun sl => sl.dist == 1 && p.slotLive sl.its sl.live)).foldl (loopSlot p pid) (loopLanes t r u)

theorem landLoop_eq (s : State) (pid : Nat) :
    s.landLoop pid = (s.regionsOf pid).foldl (fun t r => (List.range 64).foldl (loopCell (s.page pid) pid r) t) s := rfl

/-! ## What one EXIT or DROP does (R140, R141) -/

/-- What a landing EXIT or DROP of the iteration at a stage makes of the loop unit, by the page at the start of the cycle. -/
def loopEffect (p : Page) (kind : SlotKind) (stg : Nat) (x : Page) : Page :=
  if kind = .exit then
    { x with exitF := true, exitIt := if x.exitF then lowerIt x.exitIt (p.iteration stg) else p.iteration stg, lm := (x.lm >>> stg) <<< stg }
  else { x with lm := x.lm &&& ~~~(1#8 <<< stg) }

theorem loopSlot_of_some (p : Page) (pid : Nat) (t : State) {sl : Slot} {stg : Nat} (hk : sl.kind = .exit ∨ sl.kind = .drop) (hi : sl.its = some stg) :
    loopSlot p pid t sl = t.setPage pid (loopEffect p sl.kind stg (t.page pid)) := by
  rcases hk with hk | hk <;> simp [loopSlot, loopEffect, hk, hi]

theorem loopSlot_of_other (p : Page) (pid : Nat) (t : State) {sl : Slot} (hk : ¬ (sl.kind = .exit ∨ sl.kind = .drop)) : loopSlot p pid t sl = t := by
  obtain ⟨he, hd⟩ := not_or.mp hk
  unfold loopSlot
  split
  · next h _ => exact absurd h he
  · next h _ => exact absurd h hd
  · rfl

theorem lowerIt_self (a : Nat) : lowerIt a a = a := ite_self a

theorem lowerIt_lowerIt (a b : Nat) : lowerIt (lowerIt a b) b = lowerIt a b := by
  by_cases h : (b + 2 ^ 32 - a) % 2 ^ 32 < 2 ^ 31
  · rw [show lowerIt a b = a from if_pos h]
    exact if_pos h
  · rw [show lowerIt a b = b from if_neg h, lowerIt_self]

theorem getLsbD_shiftRight_shiftLeft (m : BitVec 8) (k : Nat) {j : Nat} (hj : j < 8) :
    ((m >>> k) <<< k).getLsbD j = (m.getLsbD j && decide (k ≤ j)) := by
  rw [BitVec.getLsbD_shiftLeft, BitVec.getLsbD_ushiftRight]
  by_cases hk : k ≤ j
  · simp [hj, hk, Nat.not_lt.mpr hk]
  · simp [hk, Nat.not_le.mp hk]

theorem getLsbD_and_not_bit (m : BitVec 8) (k : Nat) {j : Nat} (hj : j < 8) :
    (m &&& ~~~(1#8 <<< k)).getLsbD j = (m.getLsbD j && decide (j ≠ k)) := by
  rw [BitVec.getLsbD_and, BitVec.getLsbD_not, BitVec.getLsbD_shiftLeft]
  by_cases hk : j = k
  · subst hk
    simp [hj]
  · by_cases hlt : j < k
    · simp [hj, hk, hlt]
    · have hpos : j - k ≠ 0 := by omega
      simp [hj, hk, hpos]

/-- Landing twice is landing once. -/
theorem loopEffect_idem (p : Page) (kind : SlotKind) (stg : Nat) (x : Page) :
    loopEffect p kind stg (loopEffect p kind stg x) = loopEffect p kind stg x := by
  unfold loopEffect
  by_cases hk : kind = .exit
  · simp only [hk, if_true]
    congr 1
    · exact BitVec.eq_of_getLsbD_eq fun j hj => by simp only [getLsbD_shiftRight_shiftLeft _ _ hj, Bool.and_assoc, Bool.and_self]
    · split
      · exact lowerIt_lowerIt ..
      · exact lowerIt_self _
  · simp only [hk, if_false]
    congr 1
    exact BitVec.eq_of_getLsbD_eq fun j hj => by simp only [getLsbD_and_not_bit _ _ hj, Bool.and_assoc, Bool.and_self]

/-! ## Folds that keep a fact, and that reach one -/

theorem foldl_keeps {α : Type} {F : State → α → State} {P : State → Prop} {l : List α} (h : ∀ x ∈ l, ∀ t, P t → P (F t x)) {t : State} (ht : P t) :
    P (l.foldl F t) :=
  List.foldlRecOn l F ht fun t ht x hx => h x hx t ht

theorem foldl_reaches {α : Type} {F : State → α → State} {P Q : State → Prop} {l : List α} {a : α} (ha : a ∈ l)
    (hP : ∀ x ∈ l, ∀ t, P t → P (F t x)) (hQ : ∀ x ∈ l, ∀ t, Q t → Q (F t x)) (hreach : ∀ t, P t → Q (F t a)) {t : State} (ht : P t) :
    Q (l.foldl F t) := by
  obtain ⟨pre, post, rfl⟩ := List.append_of_mem ha
  rw [List.foldl_append, List.foldl_cons]
  exact foldl_keeps (fun x hx => hQ x (by simp [hx])) (hreach _ (foldl_keeps (fun x hx => hP x (by simp [hx])) ht))

/-! ## The landing in the whole page -/

/-- While the loop unit's slots land: memory, the other pages and every cell's slots are as before, and the page is among some. -/
structure LoopState (s : State) (pid : Nat) (C : Page → Prop) (t : State) : Prop where
  mem : t.mem = s.mem
  pages : ∀ h, h ≠ pid → t.page h = s.page h
  slots : ∀ r u, (t.cell r u).slots = (s.cell r u).slots
  page : C (t.page pid)

theorem LoopState.setPage {s t : State} {pid : Nat} {C D : Page → Prop} (h : LoopState s pid C t) {x : Page} (hx : D x) :
    LoopState s pid D (t.setPage pid x) where
  mem := h.mem
  pages k hk := by rw [setPage_page, if_neg hk, h.pages k hk]
  slots := h.slots
  page := by rwa [setPage_page_self]

theorem LoopState.lanes {s t : State} {pid : Nat} {C : Page → Prop} (h : LoopState s pid C t) (r u : Nat) : LoopState s pid C (loopLanes t r u) := by
  unfold loopLanes
  split
  · exact h
  · refine ⟨h.mem, h.pages, fun r' u' => ?_, h.page⟩
    rw [setCell_cell]
    split
    · next hru => rw [← h.slots, hru.1, hru.2]
    · exact h.slots r' u'

/-- A slot is the only due EXIT or DROP among these, and its iteration is at a stage. -/
structure OnlyExitOrDrop (l : List Slot) (sl : Slot) (stg : Nat) : Prop where
  kind : sl.kind = .exit ∨ sl.kind = .drop
  stage : sl.its = some stg
  only : ∀ x ∈ l, x.dist = 1 → x.kind = .exit ∨ x.kind = .drop → x = sl

section
variable {s : State} {pid stg : Nat} {sl : Slot}

theorem loopSlot_keeps {l : List Slot} (h : OnlyExitOrDrop l sl stg) {C : Page → Prop}
    (hC : ∀ x, C x → C (loopEffect (s.page pid) sl.kind stg x)) :
    ∀ x ∈ l.filter (fun x => x.dist == 1 && (s.page pid).slotLive x.its x.live), ∀ t, LoopState s pid C t →
      LoopState s pid C (loopSlot (s.page pid) pid t x) := by
  intro x hx t ht
  obtain ⟨hmem, hdue⟩ := List.mem_filter.mp hx
  by_cases hk : x.kind = .exit ∨ x.kind = .drop
  · obtain rfl := h.only x hmem (eq_of_beq (Bool.and_eq_true_iff.mp hdue).1) hk
    rw [loopSlot_of_some _ _ _ h.kind h.stage]
    exact ht.setPage (hC _ ht.page)
  · rw [loopSlot_of_other _ _ _ hk]
    exact ht

theorem loopCell_keeps {r u : Nat} (h : OnlyExitOrDrop (s.cell r u).slots sl stg) {C : Page → Prop}
    (hC : ∀ x, C x → C (loopEffect (s.page pid) sl.kind stg x)) {t : State} (ht : LoopState s pid C t) :
    LoopState s pid C (loopCell (s.page pid) pid r t u) := by
  rw [loopCell, ht.slots]
  exact foldl_keeps (loopSlot_keeps h hC) (ht.lanes r u)

/-- The cell that holds the slot takes the page from pages that its landing does not leave to those that it reaches. -/
theorem loopCell_reaches {r u : Nat} (h : OnlyExitOrDrop (s.cell r u).slots sl stg) (hmem : sl ∈ (s.cell r u).slots) (hdue : sl.dist = 1)
    (hlive : (s.page pid).slotLive sl.its sl.live = true) {C D : Page → Prop} (hC : ∀ x, C x → C (loopEffect (s.page pid) sl.kind stg x))
    (hD : ∀ x, D x → D (loopEffect (s.page pid) sl.kind stg x)) (hCD : ∀ x, C x → D (loopEffect (s.page pid) sl.kind stg x)) {t : State}
    (ht : LoopState s pid C t) : LoopState s pid D (loopCell (s.page pid) pid r t u) := by
  rw [loopCell, ht.slots]
  refine foldl_reaches (List.mem_filter.mpr ⟨hmem, by simp [hdue, hlive]⟩) (loopSlot_keeps h hC) (loopSlot_keeps h hD) (fun w hw => ?_) (ht.lanes r u)
  rw [loopSlot_of_some _ _ _ h.kind h.stage]
  exact hw.setPage (hCD _ hw.page)

/-- The page as it was at the start of the cycle, or as the landing leaves it. -/
def BeforeOrAfter (p : Page) (kind : SlotKind) (stg : Nat) (x : Page) : Prop := x = p ∨ x = loopEffect p kind stg p

theorem BeforeOrAfter.loopEffect_eq {p x : Page} {kind : SlotKind} {stg : Nat} (h : BeforeOrAfter p kind stg x) :
    loopEffect p kind stg x = loopEffect p kind stg p := by
  rcases h with rfl | rfl
  · rfl
  · exact loopEffect_idem ..

/-- The only due EXIT or DROP of a page lands once, whatever else lands with it. -/
theorem landLoop_spec (h : ∀ r ∈ s.regionsOf pid, ∀ u, u < 64 → OnlyExitOrDrop (s.cell r u).slots sl stg) {r u : Nat} (hr : r ∈ s.regionsOf pid)
    (hu : u < 64) (hmem : sl ∈ (s.cell r u).slots) (hdue : sl.dist = 1) (hlive : (s.page pid).slotLive sl.its sl.live = true) :
    LoopState s pid (· = loopEffect (s.page pid) sl.kind stg (s.page pid)) (s.landLoop pid) := by
  have hboth : ∀ x, BeforeOrAfter (s.page pid) sl.kind stg x →
      BeforeOrAfter (s.page pid) sl.kind stg (loopEffect (s.page pid) sl.kind stg x) := fun x hx => .inr hx.loopEffect_eq
  have hafter : ∀ x, x = loopEffect (s.page pid) sl.kind stg (s.page pid) →
      loopEffect (s.page pid) sl.kind stg x = loopEffect (s.page pid) sl.kind stg (s.page pid) := fun x hx => BeforeOrAfter.loopEffect_eq (.inr hx)
  have hcells : ∀ C : Page → Prop, (∀ x, C x → C (loopEffect (s.page pid) sl.kind stg x)) → ∀ r ∈ s.regionsOf pid, ∀ k ∈ List.range 64,
      ∀ t, LoopState s pid C t → LoopState s pid C (loopCell (s.page pid) pid r t k) := fun C hC r hr k hk t ht =>
    loopCell_keeps (h r hr k (List.mem_range.mp hk)) hC ht
  rw [landLoop_eq]
  refine foldl_reaches hr (fun r hr _ ht => foldl_keeps (hcells _ hboth r hr) ht) (fun r hr _ ht => foldl_keeps (hcells _ hafter r hr) ht)
    (fun t ht => ?_) ⟨rfl, fun _ _ => rfl, fun _ _ => rfl, .inl rfl⟩
  exact foldl_reaches (List.mem_range.mpr hu) (hcells _ hboth r hr) (hcells _ hafter r hr)
    (fun w hw => loopCell_reaches (h r hr u hu) hmem hdue hlive hboth hafter (fun _ hx => hx.loopEffect_eq) hw) ht

end

/-- What the one landing leaves of the loop unit, its live iterations bit by bit (R140, R141). -/
theorem loopEffect_eq (q : Page) {kind : SlotKind} {stg : Nat} {l : BitVec 8}
    (hl : ∀ j, l.getLsbD j = (q.lm.getLsbD j && (if kind = .exit then decide (stg ≤ j) else decide (j ≠ stg)))) :
    loopEffect q kind stg q =
      if kind = .exit then
        { q with exitF := true, exitIt := if q.exitF = true ∧ (q.iteration stg + 2 ^ 32 - q.exitIt) % 2 ^ 32 < 2 ^ 31 then q.exitIt else q.iteration stg,
                 lm := l }
      else { q with lm := l } := by
  unfold loopEffect
  by_cases hk : kind = .exit
  · have hlm : (q.lm >>> stg) <<< stg = l := BitVec.eq_of_getLsbD_eq fun j hj => by rw [getLsbD_shiftRight_shiftLeft _ _ hj, hl, if_pos hk]
    rw [if_pos hk, if_pos hk, hlm]
    cases q.exitF <;> simp [lowerIt]
  · have hlm : q.lm &&& ~~~(1#8 <<< stg) = l := BitVec.eq_of_getLsbD_eq fun j hj => by rw [getLsbD_and_not_bit _ _ hj, hl, if_neg hk]
    rw [if_neg hk, if_neg hk, hlm]

end Sys2Proof.Proofs.LoopLanding
end

