-- ==== Sys2Proof/Proofs/ResultLandings.lean ====
section
/-! PROOFS. The landings of cells, memory nodes, matrix nodes and loop units together (R69, R122, R129, R139, R141, R157, R165, R184, R189, R194, R197,
R200); settles O47. -/
namespace Sys2Proof.Proofs.ResultLandings

open Machine Spec CellLanding NodeLanding MatrixLanding LoopLanding

/-! ## Which unit lands -/

theorem exec_resultLanding_cell {s : State} (hf : s.focus.flag = false) (hu : s.focus.unit < 64) :
    exec .resultLanding s = .next (s.landCell s.focus.region s.focus.unit) :=
  congrArg Host.Outcome.next (by rw [resultLanding, if_neg (ne_true_of_eq_false hf), if_pos hu])

theorem exec_resultLanding_node {s : State} (hf : s.focus.flag = false) (hu : s.focus.unit = 64) :
    exec .resultLanding s = .next (s.landNode s.focus.region) :=
  congrArg Host.Outcome.next (by rw [resultLanding, if_neg (ne_true_of_eq_false hf), if_neg (by omega), if_pos hu])

theorem exec_resultLanding_matrix {s : State} (hf : s.focus.flag = false) (hu : 64 < s.focus.unit) :
    exec .resultLanding s = .next (s.landMatrix s.focus.region) :=
  congrArg Host.Outcome.next (by rw [resultLanding, if_neg (ne_true_of_eq_false hf), if_neg (by omega), if_neg (by omega)])

theorem exec_resultLanding_loop {s : State} (hf : s.focus.flag = true) : exec .resultLanding s = .next (s.landLoop s.focus.page) :=
  congrArg Host.Outcome.next (if_pos hf)

/-- Settles O47: a due slot lands in its cell, its node or the loop unit, by the kind of the slot. -/
theorem resultLandings : Obligations.ResultLandings := by
  rintro s rid u pid p rfl rfl rfl rfl
  refine ⟨fun hf hu => ⟨?inCell, ?values, ?beyond⟩, ?nodeEffect, ?nodeValue, ?matrix, ?loop⟩
  case inCell =>
    intro pre sl post hdue hin
    exact ⟨_, exec_resultLanding_cell hf hu, landCell_inCell hdue rfl hin⟩
  case values =>
    intro pre sl hslots hdue _ hvalues
    exact ⟨_, exec_resultLanding_cell hf hu, landCell_values hslots hdue hvalues⟩
  case beyond =>
    intro pre sl post hdue hlive
    constructor
    · intro hk hn
      obtain ⟨hframe, hlanes⟩ := landCell_psend hdue hlive hk hn
      exact ⟨_, exec_resultLanding_cell hf hu, hframe.rest, hlanes⟩
    · intro hk hord hn
      obtain ⟨hmem, hflushed, hpr, htoks⟩ := landCell_ordmk hdue hlive hk hord hn
      exact ⟨_, _, exec_resultLanding_cell hf hu, hmem, hflushed, hpr, htoks, rfl, rfl⟩
  case nodeEffect =>
    intro hf hu pre sl post hslots hdue hothers hk
    obtain ⟨hframe, hnode⟩ := landNode_oneDue hslots hdue hothers rfl
    obtain ⟨hs, hmores, hmo, hcoal, hheld⟩ := landedNode_effect (agedNode (s.mn s.focus.region) pre post) s.focus.region (s.seq + 2)
      ((s.page (s.pageOf s.focus.region)).slotLive sl.its sl.live) hk
    rw [← hnode] at hs hmores hmo hcoal hheld
    refine ⟨_, exec_resultLanding_node hf hu, hs, hmores, hframe.mem, hframe.regions, hmo, ?_, hheld⟩
    have hflushed : Flushed s (s.landNode s.focus.region) [s.focus.region] = _ := propext List.forall_mem_singleton
    rw [hflushed]
    exact hcoal
  case nodeValue =>
    intro hf hu pre sl post hslots hdue hothers hk
    obtain ⟨hframe, hnode⟩ := landNode_oneDue hslots hdue hothers rfl
    obtain ⟨hmores, hs, hmo⟩ := landedNode_value (agedNode (s.mn s.focus.region) pre post) s.focus.region (s.seq + 2)
      ((s.page (s.pageOf s.focus.region)).slotLive sl.its sl.live) hk
    rw [← hnode] at hmores hs hmo
    exact ⟨_, exec_resultLanding_node hf hu, hmores, hs, hframe.mem, hframe.regions, hmo⟩
  case matrix =>
    rintro hf hu pre sl post n live rfl hslots hdue hothers hlive x hx
    have hland := landMatrix_oneDue hslots hdue hothers hlive
    rw [show agedMatrix (s.xn s.focus.region) pre post = x from hx.symm] at hland
    refine ⟨_, exec_resultLanding_matrix hf hu, ?_, ?dead, ?live⟩
    · rw [hland]; exact UnitIssue.setXn_sameButXn s _
    case dead =>
      rintro rfl
      rw [hland, setXn_xn_self, clearRead_of_dead, land_dead]
    case live =>
      rintro rfl
      have hacc : x.acc = (s.xn s.focus.region).acc := by rw [hx]
      have hcfmt : x.cfmt = (s.xn s.focus.region).cfmt := by rw [hx]
      have hxn : sl.kind ≠ .stat → (s.landMatrix s.focus.region).xn s.focus.region = x.land sl true := fun h => by
        rw [hland, setXn_xn_self, clearRead_of_ne_stat x true h]
      rw [← hacc, ← hcfmt]
      refine ⟨fun hk => ?drn, fun hk => ?ldb, fun hk => ?swb, fun hk hfmt => ?cfgSame, fun hk hfmt => ?cfgOther, fun hk i j _ hj => ?clr, fun hk v hv => ?stat,
        fun hk hc => ?cancelled, fun hk hc ng hng hpos hlen i j _ hj => ?sums⟩
      case drn => rw [hxn (by rw [hk]; decide), land_drn x hk]
      case ldb => rw [hxn (by rw [hk]; decide), land_ldb x hk]
      case swb => rw [hxn (by rw [hk]; decide), land_swb x hk]
      case cfgSame => rw [hxn (by rw [hk]; decide), land_cfg_same x hk hfmt]
      case cfgOther => rw [hxn (by rw [hk]; decide)]; exact land_cfg_other x hk hfmt
      case clr => rw [hxn (by rw [hk]; decide), land_clr x hk hj]
      case stat => rw [hland, setXn_xn_self, land_stat x hk hv]
      case cancelled => rw [hxn (by rcases hk with hk | hk | hk <;> rw [hk] <;> decide), land_cancelled x hk hc]
      case sums => rw [hxn (by rcases hk with hk | hk | hk <;> rw [hk] <;> decide), land_sums x hk hc hng hpos hlen hj]
  case loop =>
    rintro hf q r k sl rfl hr hk hmem hdue stg hstg hlive hkind honly
    have hone : ∀ r ∈ s.regionsOf s.focus.page, ∀ u, u < 64 → OnlyExitOrDrop (s.cell r u).slots sl stg := fun r' hr' k' hk' =>
      ⟨hkind, hstg, fun x hx hd => honly r' k' x hr' hk' hx hd⟩
    obtain ⟨hm, hpages, -, hpage⟩ := landLoop_spec hone hr hk hmem hdue (by rw [hstg]; exact hlive)
    refine ⟨_, exec_resultLanding_loop hf, hm, hpages, ?_⟩
    rintro it l rfl hl
    rw [hpage]
    exact loopEffect_eq _ hl

end Sys2Proof.Proofs.ResultLandings
end
